-- ==== Sys2Proof/Machine/Float.lean ====
section
/-! DEFINITION. Floating-point formats and exact rounding (R20 to R31): values as sign, integer and power of two;
results as exact rationals, rounded once. -/

namespace Sys2Proof.Machine

/-- A format (R20): exponent bits, fraction bits, bias. -/
structure Fmt where
  eb : Nat
  fb : Nat
  bias : Nat
  deriving DecidableEq, Repr

def f32 : Fmt := { eb := 8, fb := 23, bias := 127 }
def f16 : Fmt := { eb := 5, fb := 10, bias := 15 }
def b16 : Fmt := { eb := 8, fb := 7, bias := 127 }

def Fmt.width (f : Fmt) : Nat := 1 + f.eb + f.fb
def Fmt.signBit (f : Fmt) : Nat := 2 ^ (f.eb + f.fb)
/-- Magnitude bits of infinity. -/
def Fmt.infBits (f : Fmt) : Nat := (2 ^ f.eb - 1) * 2 ^ f.fb
/-- The canonical NaN (R22). -/
def Fmt.nanBits (f : Fmt) : Nat := f.infBits + 2 ^ (f.fb - 1)
/-- Exponent of the last place of a subnormal. -/
def Fmt.qmin (f : Fmt) : Int := 1 - (f.bias : Int) - f.fb

/-- Rounding modes (R28). -/
inductive Rm where
  | rne | rtz | rdn | rup
  deriving DecidableEq, Repr

def Rm.ofCode (n : Nat) : Rm := if n = 0 then .rne else if n = 1 then .rtz else if n = 2 then .rdn else .rup

/-- A datum: NaN, an infinity, or (−1)^neg × m × 2^e. -/
inductive FV where
  | nan | inf (neg : Bool) | num (neg : Bool) (m : Nat) (e : Int)
  deriving DecidableEq, Repr

/-- An exact result: a nonzero rational is n ÷ d × 2^e with n and d positive. -/
inductive Ex where
  | nan | inf (neg : Bool) | zero (neg : Bool) | rat (neg : Bool) (n d : Nat) (e : Int)
  deriving DecidableEq, Repr

def Fmt.dec (f : Fmt) (bits : Nat) : FV :=
  let neg := bits.testBit (f.eb + f.fb)
  let m := bits % f.signBit
  if f.infBits < m then .nan
  else if m = f.infBits then .inf neg
  else if m < 2 ^ f.fb then .num neg m f.qmin
  else .num neg (m % 2 ^ f.fb + 2 ^ f.fb) (f.qmin + (m / 2 ^ f.fb : Nat) - 1)

/-- Is the pattern a subnormal? -/
def Fmt.isSub (f : Fmt) (bits : Nat) : Bool := bits % f.signBit != 0 && bits % f.signBit < 2 ^ f.fb

/-- Read a datum, flushing a subnormal to zero of its sign (R31). -/
def Fmt.read (f : Fmt) (flush : Bool) (bits : Nat) : FV :=
  if flush && f.isSub bits then .num (bits.testBit (f.eb + f.fb)) 0 0 else f.dec bits

def FV.exact : FV → Ex
  | .nan => .nan
  | .inf s => .inf s
  | .num s m e => if m = 0 then .zero s else .rat s m 1 e

/-- n ÷ d × 2^e as a quotient of naturals. -/
def scaleUp (n d : Nat) (e : Int) : Nat × Nat :=
  if 0 ≤ e then (n * 2 ^ e.toNat, d) else (n, d * 2 ^ (-e).toNat)

/-- Round n ÷ d to an integer, for a value of the given sign (R28). -/
def roundNat (rm : Rm) (neg : Bool) (n d : Nat) : Nat :=
  let q := n / d
  let r := n % d
  let up := match rm with
    | .rne => d < 2 * r || (2 * r == d && q % 2 == 1)
    | .rtz => false
    | .rdn => neg && r != 0
    | .rup => !neg && r != 0
  if up then q + 1 else q

/-- ⌊log2 (n ÷ d × 2^e)⌋. -/
def floorLog2 (n d : Nat) (e : Int) : Int :=
  let g : Int := (Nat.log2 n : Int) - Nat.log2 d
  let (a, b) := scaleUp n d (-g)
  if b ≤ a then g + e else g - 1 + e

/-- Round to a format, with the exponent q of the last place: the integer significand. -/
def signif (rm : Rm) (neg : Bool) (n d : Nat) (e q : Int) : Nat :=
  let (a, b) := scaleUp n d (e - q)
  roundNat rm neg a b

/-- Magnitude bits after rounding into the format, subnormal if need be; at or above `infBits` on overflow. -/
def Fmt.magBits (f : Fmt) (rm : Rm) (neg : Bool) (n d : Nat) (e : Int) : Nat :=
  let ex := floorLog2 n d e
  let q := max (ex - f.fb) f.qmin
  (q - f.qmin).toNat * 2 ^ f.fb + signif rm neg n d e q

/-- Tiny (R31): nonzero and below the smallest normal after rounding with unbounded exponent. -/
def Fmt.tiny (f : Fmt) (rm : Rm) (neg : Bool) (n d : Nat) (e : Int) : Bool :=
  let q := floorLog2 n d e - f.fb
  let m := signif rm neg n d e q
  decide (q < f.qmin) && decide (m < 2 ^ (f.qmin + f.fb - q).toNat)

def Fmt.signed (f : Fmt) (neg : Bool) (mag : Nat) : Nat := if neg then f.signBit + mag else mag

/-- Round as IEEE 754 rounds, overflow included, then the result flush (R31, R103). -/
def Fmt.out (f : Fmt) (rm : Rm) (flush : Bool) (x : Ex) : Nat :=
  match x with
  | .nan => f.nanBits
  | .inf s => f.signed s f.infBits
  | .zero s => f.signed s 0
  | .rat s n d e =>
    if flush && f.tiny rm s n d e then f.signed s 0
    else
      let m := f.magBits rm s n d e
      if m < f.infBits then f.signed s m
      else
        let toMax := match rm with
          | .rne => false
          | .rtz => true
          | .rdn => !s
          | .rup => s
        f.signed s (if toMax then f.infBits - 1 else f.infBits)

/-- A conversion to a float (R112): beyond the largest finite value it saturates; the flag tells. -/
def Fmt.conv (f : Fmt) (rm : Rm) (flush : Bool) (x : Ex) : Nat × Bool :=
  match x with
  | .rat s n d e =>
    if flush && f.tiny rm s n d e then (f.signed s 0, false)
    else
      let m := f.magBits rm s n d e
      if m < f.infBits then (f.signed s m, false) else (f.signed s (f.infBits - 1), true)
  | y => (f.out rm false y, false)

-- Exact arithmetic (R104).
def negEx : Ex → Ex
  | .nan => .nan | .inf s => .inf (!s) | .zero s => .zero (!s) | .rat s n d e => .rat (!s) n d e

/-- The exact sum of two dyadic or rational values. -/
def addEx (rm : Rm) (a b : Ex) : Ex :=
  match a, b with
  | .nan, _ | _, .nan => .nan
  | .inf s, .inf t => if s = t then .inf s else .nan
  | .inf s, _ => .inf s
  | _, .inf t => .inf t
  | .zero s, .zero t => .zero (if s = t then s else decide (rm = .rdn))
  | .zero _, y => y
  | x, .zero _ => x
  | .rat s n d e, .rat t m c g =>
    let lo := min e g
    let x : Int := (n * c * 2 ^ (e - lo).toNat : Nat)
    let y : Int := (m * d * 2 ^ (g - lo).toNat : Nat)
    let v := (if s then -x else x) + (if t then -y else y)
    if v = 0 then .zero (decide (rm = .rdn)) else .rat (decide (v < 0)) v.natAbs (d * c) lo

def mulEx (a b : Ex) : Ex :=
  match a, b with
  | .nan, _ | _, .nan => .nan
  | .inf _, .zero _ | .zero _, .inf _ => .nan
  | .inf s, .inf t | .inf s, .rat t _ _ _ | .rat s _ _ _, .inf t => .inf (s != t)
  | .zero s, .zero t | .zero s, .rat t _ _ _ | .rat s _ _ _, .zero t => .zero (s != t)
  | .rat s n d e, .rat t m c g => .rat (s != t) (n * m) (d * c) (e + g)

def divEx (a b : Ex) : Ex :=
  match a, b with
  | .nan, _ | _, .nan => .nan
  | .inf _, .inf _ | .zero _, .zero _ => .nan
  | .inf s, .zero t | .inf s, .rat t _ _ _ => .inf (s != t)
  | .zero s, .inf t | .zero s, .rat t _ _ _ | .rat s _ _ _, .inf t => .zero (s != t)
  | .rat s _ _ _, .zero t => .inf (s != t)
  | .rat s n d e, .rat t m c g => .rat (s != t) (n * c) (d * m) (e - g)

/-- Integer square root by the bits of the result, highest first. -/
def isqrt (x : Nat) : Nat → Nat → Nat
  | 0, r => r
  | i + 1, r => isqrt x i (if (r + 2 ^ i) * (r + 2 ^ i) ≤ x then r + 2 ^ i else r)

/-- The square root of m × 2^e with enough bits to round once: an inexact root carries a sticky half. -/
def sqrtEx (a : Ex) : Ex :=
  match a with
  | .nan => .nan
  | .zero s => .zero s
  | .inf s => if s then .nan else .inf false
  | .rat s n d e =>
    if s then .nan
    else
      let odd := e % 2 != 0
      let x := n * d * (if odd then 2 else 1) * 2 ^ 120
      let e' := (if odd then e - 1 else e) / 2 - 60
      let r := isqrt x 160 0
      .rat false (if r * r = x then 2 * r else 2 * r + 1) (2 * d) e'

/-- The integer nearest by a mode, with its sign. -/
def roundInt (rm : Rm) (s : Bool) (n d : Nat) (e : Int) : Int :=
  let (a, b) := scaleUp n d e
  let m : Int := roundNat rm s a b
  if s then -m else m

/-- Order of two data that are not NaN: −0 below +0 only where `zeros`. -/
def ltEx (zeros : Bool) (a b : Ex) : Bool :=
  match a, b with
  | .nan, _ | _, .nan => false
  | .inf s, .inf t => s && !t
  | .inf s, _ => s
  | _, .inf t => !t
  | .zero s, .zero t => zeros && s && !t
  | .zero _, .rat t _ _ _ => !t
  | .rat s _ _ _, .zero _ => s
  | .rat s n d e, .rat t m c g =>
    let lo := min e g
    let x : Int := (n * c * 2 ^ (e - lo).toNat : Nat)
    let y : Int := (m * d * 2 ^ (g - lo).toNat : Nat)
    decide ((if s then -x else x) < (if t then -y else y))

def isNanEx : Ex → Bool
  | .nan => true
  | _ => false

/-- minimumNumber and maximumNumber (R106): −0 is less than +0; `m` propagates a NaN. -/
def minMax (wantMax m : Bool) (a b : Ex) : Ex :=
  if isNanEx a && isNanEx b then .nan
  else if isNanEx a then (if m then .nan else b)
  else if isNanEx b then (if m then .nan else a)
  else if wantMax then (if ltEx true a b then b else a)
  else (if ltEx true b a then b else a)

end Sys2Proof.Machine
end

