-- ==== Sys2Proof/Word.lean ====
section
/-! DEFINITION. Words and bytes (R18, R38): the widths that every other file uses. -/

namespace Sys2Proof

/-- A stack entry's value, a register or a virtual address: 64 bits (R18). -/
abbrev Word := BitVec 64

/-- A byte of memory. -/
abbrev Byte := BitVec 8

/-- A halfword of code (R38). -/
abbrev Half := BitVec 16

/-- A 32-bit detail word of a trap (R339). -/
abbrev Detail := BitVec 32

end Sys2Proof
end

