-- ==== Sys2Proof/Syntax.lean ====
section
/-! DEFINITION. The Meliq instructions (R41 to R63) and the events of the other agents: one constructor
for each row of the opcode table. An instruction carries every field of its encoding, the stall count first. -/

namespace Sys2Proof

/-- Stall count of an S instruction, 0 to 3 (R41). -/
abbrev StallS := BitVec 2
/-- Stall count of an L or X instruction, 0 to 7 (R41). -/
abbrev StallL := BitVec 3

/-- Integer type codes (R44). -/
inductive ITy where
  | s32 | n32 | s64 | n64
  deriving DecidableEq, Repr

/-- Memory scopes (R13, R45), narrowest first. -/
inductive Scope where
  | slice | cluster | sector | pillar | device | system
  deriving DecidableEq, Repr

/-- Width codes of a plain load (R46). -/
inductive LdW where
  | s8 | n8 | s16 | n16 | s32 | n32 | w64 | h
  deriving DecidableEq, Repr

/-- Width codes of a plain store (R154): 1, 3, 5 and 6 of R46. -/
inductive StW where
  | w8 | w16 | w32 | w64
  deriving DecidableEq, Repr

/-- Width codes of a strong load (R156): 4, 5 and 6 of R46. -/
inductive LdsW where
  | s32 | n32 | w64
  deriving DecidableEq, Repr

/-- Width codes of a strong store and of an atomic (R156, R161): 5 and 6 of R46. -/
inductive AtW where
  | w32 | w64
  deriving DecidableEq, Repr

/-- Ordering codes of an atomic (R47). -/
inductive AOrd where
  | plain | acq | rel | ar
  deriving DecidableEq, Repr

/-- The operations of R58, by op number. -/
inductive AOp where
  | add | and | or | xor | minS | minN | maxS | maxN | xchg | fadd | fmin | fmax | cas
  deriving DecidableEq, Repr

/-- What another device, or the host, asks of this device's memory (R160, R165, R384, R385): a byte is stored, or an atomic acts
with its operand and the expected value of a `cas`. -/
inductive OuterOp where
  | store (b : Byte)
  | atomic (op : AOp) (wt : AtW) (v expected : Word)
  deriving DecidableEq, Repr

/-- The firmware pops a record of a sector's fault buffer; the entry that it may ask the monitor to map the page with (R327, R367). -/
structure RecordPop where
  sector : Nat
  leaf   : Option Word := none
  deriving DecidableEq, Repr

/-- Conditions of `fcmp` (R103). -/
inductive FCond where
  | eq | lt | le | uno
  deriving DecidableEq, Repr

/-- Rounding codes 0 to 4 of R28. -/
inductive RCode where
  | rne | rtz | rdn | rup | dyn
  deriving DecidableEq, Repr

/-- Types of `cvt` (R111). -/
inductive CvtTy where
  | s32 | n32 | f32 | f16 | b16
  deriving DecidableEq, Repr

/-- The two 16-bit float formats (R113). -/
inductive Fmt16 where
  | f16 | b16
  deriving DecidableEq, Repr

/-- Widths of `ext` (R114). -/
inductive ExtW where
  | w8 | w16 | w32
  deriving DecidableEq, Repr

/-- Quantized formats (R115). -/
inductive QFmt where
  | q8 | q4
  deriving DecidableEq, Repr

/-- Levels of `pref` (R159). -/
inductive PLvl where
  | l1 | l2
  deriving DecidableEq, Repr

/-- Operations of `tcol` (R223). -/
inductive TColOp where
  | set | add | and | or | max
  deriving DecidableEq, Repr

/-- The special registers of R128. -/
inductive SReg where
  | tstat | fctl | tkstat | mpc
  | lane | thx | taskx | role | argp | nth | nlb | cycle
  | ratio | energy | draw | intv | copyB | cellB | trapB | tcode
  | epc | estat | ecg | edw0 | edw1 | edw2 | efh
  | stvec | ssbase | ptb | asidx | cutdl
  | htvec | tdeleg | hsbase
  deriving DecidableEq, Repr

/-- The raw words of one instruction, by length (R38, R39). -/
inductive Enc where
  | s (w : BitVec 16)
  | l (w : BitVec 32)
  | x (w : BitVec 48)
  deriving DecidableEq, Repr

/-- A lane: physical slice (R10), wave place 0 to 47, lane 0 to 31. -/
structure LaneId where
  slice : Nat
  place : Nat
  lane  : Nat
  deriving DecidableEq, Repr

/-- A trap cause with its detail words (R350); `asy` marks an asynchronous cause (R352). -/
structure Cause where
  group : Nat
  w0 : Detail
  w1 : Detail
  w2 : Detail
  asy : Bool
  deriving DecidableEq, Repr

/-- Why a parked `mwait` ends (R167). -/
inductive WakeWhy where
  | write | wake | cut | spurious
  deriving DecidableEq, Repr

/-- The units that can raise MACHINE_CHECK (R351). -/
inductive Unit4 where
  | copyEngine | matrixArray | binUnit | bankEngine
  deriving DecidableEq, Repr

/-- Where a thermal limit is crossed (R383). -/
inductive ThermalAt where
  | die (d : Nat) | stack (p : Nat)
  deriving DecidableEq, Repr

/-- One constructor for each row of the opcode table. Those up to `unassignedEncoding` are fetched by
threads; the others are events of the engines, the firmware, the host and the domain. -/
inductive Instr where
  -- The expression stack (R92)
  | nop (w : StallS)
  | lit (w : StallS) (v : BitVec 6)
  | dup (w : StallS)
  | drop (w : StallS)
  | swap (w : StallS)
  | over (w : StallS)
  | rot (w : StallS)
  | nip (w : StallS)
  | tuck (w : StallS)
  | pick (w : StallS) (n : BitVec 6)
  | bury (w : StallS) (n : BitVec 6)
  | dropn (w : StallS) (n : BitVec 6)
  | depth (w : StallS)
  | dup2 (w : StallS)
  | swap2 (w : StallS)
  | litw (w : StallL) (v : BitVec 18)
  | litx (w : StallL) (v : BitVec 32)
  | lith (w : StallL) (v : BitVec 32)
  | litf (w : StallL) (v : BitVec 32)
  -- Integer arithmetic (R98, R100, R102)
  | add (w : StallS) (t : ITy)
  | sub (w : StallS) (t : ITy)
  | mul (w : StallS) (t : ITy)
  | mulh (w : StallS) (t : ITy)
  | mad (w : StallS) (t : ITy)
  | div (w : StallS) (t : ITy)
  | rem (w : StallS) (t : ITy)
  | neg (w : StallS) (t : ITy)
  | abs (w : StallS) (t : ITy)
  | min (w : StallS) (t : ITy)
  | max (w : StallS) (t : ITy)
  | adds (w : StallS) (t : ITy)
  | subs (w : StallS) (t : ITy)
  | clamp (w : StallS) (t : ITy)
  | and (w : StallS) (t : ITy)
  | or (w : StallS) (t : ITy)
  | xor (w : StallS) (t : ITy)
  | not (w : StallS) (t : ITy)
  | shl (w : StallS) (t : ITy)
  | shr (w : StallS) (t : ITy)
  | rotl (w : StallS) (t : ITy)
  | popc (w : StallS) (t : ITy)
  | clz (w : StallS) (t : ITy)
  | ctz (w : StallS) (t : ITy)
  | bfx (w : StallS) (t : ITy)
  | bfi (w : StallS) (t : ITy)
  | brev (w : StallS) (t : ITy)
  | sel (w : StallS) (t : ITy)
  | eq (w : StallS) (t : ITy)
  | ne (w : StallS) (t : ITy)
  | lt (w : StallS) (t : ITy)
  | le (w : StallS) (t : ITy)
  | addi (w : StallS) (n : BitVec 6)
  | shli (w : StallS) (n : BitVec 6)
  -- Float arithmetic and conversions (R103 to R115)
  | fadd (w : StallS)
  | fsub (w : StallS)
  | fmul (w : StallS)
  | fma (w : StallS)
  | fdiv (w : StallS)
  | fsqrt (w : StallS)
  | fneg (w : StallS)
  | fabs (w : StallS)
  | fsgn (w : StallS)
  | fmin (w : StallS) (m : Bool)
  | fmax (w : StallS) (m : Bool)
  | fcmp (w : StallS) (c : FCond)
  | fclass (w : StallS)
  | frnd (w : StallS) (r : RCode)
  | frcpa (w : StallS)
  | frsqa (w : StallS)
  | fexp2a (w : StallS)
  | flog2a (w : StallS)
  | cvt (w : StallL) (src dst : CvtTy) (r : RCode)
  | pack2F16 (w : StallS) (r : RCode)
  | pack2B16 (w : StallS)
  | unpk2 (w : StallS) (f : Fmt16)
  | ext (w : StallS) (sgn : Bool) (k : ExtW)
  | qnt (w : StallS) (q : QFmt)
  | dqnt (w : StallS) (q : QFmt)
  -- Slots, blocks, special registers (R122 to R130)
  | ldl (w : StallS) (n : BitVec 6)
  | stl (w : StallS) (n : BitVec 6)
  | ldlx (w : StallS)
  | stlx (w : StallS)
  | give (w : StallS) (k : BitVec 4)
  | claim (w : StallS) (k : BitVec 4)
  | claimGrant (slice task : Nat)
  | rsr (w : StallL) (r : SReg)
  | wsr (w : StallL) (r : SReg)
  | wsrTstat (w : StallL)
  | wsrTkstat (w : StallL)
  | wsrEfh (w : StallL)
  | wsrSsbase (w : StallL)
  | wsrPtb (w : StallL)
  | wsrAsidx (w : StallL)
  | wsrCutdl (w : StallL)
  -- Control (R136, R176)
  | br (w : StallL) (off : BitVec 18)
  | brz (w : StallL) (off : BitVec 18)
  | brnz (w : StallL) (off : BitVec 18)
  | call (w : StallL) (off : BitVec 18)
  | meet (w : StallL) (off : BitVec 18)
  | ret (w : StallS)
  | exit (w : StallS)
  | brx (w : StallS)
  | callx (w : StallS)
  | join (w : StallS) (d : BitVec 6)
  | yield (w : StallS)
  | prio (w : StallS) (n : BitVec 2)
  -- Memory (R154 to R167)
  | ld (w : StallL) (wt : LdW) (off : BitVec 12)
  | st (w : StallL) (wt : StW) (off : BitVec 12)
  | ld2 (w : StallL) (off : BitVec 12)
  | st2 (w : StallL) (off : BitVec 12)
  | lds (w : StallL) (sc : Scope) (wt : LdsW) (off : BitVec 12)
  | ldsAcq (w : StallL) (sc : Scope) (wt : LdsW) (off : BitVec 12)
  | sts (w : StallL) (sc : Scope) (wt : AtW) (off : BitVec 12)
  | stsRel (w : StallL) (sc : Scope) (wt : AtW) (off : BitVec 12)
  | phase (w : StallL) (sc : Scope)
  | phaseP (w : StallL) (sc : Scope)
  | phaseO (w : StallL) (sc : Scope)
  | icinv (w : StallL) (sc : Scope)
  | pref (w : StallL) (lvl : PLvl) (off : BitVec 12)
  | atomAdd (w : StallL) (o : AOrd) (sc : Scope) (wt : AtW) (off : BitVec 12)
  | atomAnd (w : StallL) (o : AOrd) (sc : Scope) (wt : AtW) (off : BitVec 12)
  | atomOr (w : StallL) (o : AOrd) (sc : Scope) (wt : AtW) (off : BitVec 12)
  | atomXor (w : StallL) (o : AOrd) (sc : Scope) (wt : AtW) (off : BitVec 12)
  | atomMinS (w : StallL) (o : AOrd) (sc : Scope) (wt : AtW) (off : BitVec 12)
  | atomMinN (w : StallL) (o : AOrd) (sc : Scope) (wt : AtW) (off : BitVec 12)
  | atomMaxS (w : StallL) (o : AOrd) (sc : Scope) (wt : AtW) (off : BitVec 12)
  | atomMaxN (w : StallL) (o : AOrd) (sc : Scope) (wt : AtW) (off : BitVec 12)
  | atomXchg (w : StallL) (o : AOrd) (sc : Scope) (wt : AtW) (off : BitVec 12)
  | atomFadd (w : StallL) (o : AOrd) (sc : Scope) (off : BitVec 12)
  | atomFmin (w : StallL) (o : AOrd) (sc : Scope) (off : BitVec 12)
  | atomFmax (w : StallL) (o : AOrd) (sc : Scope) (off : BitVec 12)
  | cas (w : StallL) (o : AOrd) (sc : Scope) (wt : AtW) (off : BitVec 12)
  | redAdd (w : StallL) (o : AOrd) (sc : Scope) (wt : AtW) (off : BitVec 12)
  | redAnd (w : StallL) (o : AOrd) (sc : Scope) (wt : AtW) (off : BitVec 12)
  | redOr (w : StallL) (o : AOrd) (sc : Scope) (wt : AtW) (off : BitVec 12)
  | redXor (w : StallL) (o : AOrd) (sc : Scope) (wt : AtW) (off : BitVec 12)
  | redMinS (w : StallL) (o : AOrd) (sc : Scope) (wt : AtW) (off : BitVec 12)
  | redMinN (w : StallL) (o : AOrd) (sc : Scope) (wt : AtW) (off : BitVec 12)
  | redMaxS (w : StallL) (o : AOrd) (sc : Scope) (wt : AtW) (off : BitVec 12)
  | redMaxN (w : StallL) (o : AOrd) (sc : Scope) (wt : AtW) (off : BitVec 12)
  | redFadd (w : StallL) (o : AOrd) (sc : Scope) (off : BitVec 12)
  | redFmin (w : StallL) (o : AOrd) (sc : Scope) (off : BitVec 12)
  | redFmax (w : StallL) (o : AOrd) (sc : Scope) (off : BitVec 12)
  | mwait (w : StallS)
  | mwaitWake (l : LaneId) (why : WakeWhy)
  | trackedResultArrival (l : LaneId) (bix : Nat)
  | refill (slice place : Nat)
  | unassignedEncoding (e : Enc)
  -- Tasks (R200 to R207)
  | spawn (w : StallL)
  | spawnw (w : StallL)
  | spawnWaitWake (task slice place : Nat)
  | taskPlacement (launch : Nat) (members : List Nat)
  | waveFormation (task place : Nat)
  | taskRetire (task : Nat)
  | tearDown (vf asid : Nat) (report : Nat)
  -- Tensors (R217)
  | talloc (w : StallL)
  | tfree (w : StallL)
  | tdef (w : StallL)
  | tget (w : StallL) (i : BitVec 3)
  | tset (w : StallL) (i : BitVec 3)
  | atomt (w : StallL) (op : AOp) (o : AOrd)
  | tfill (w : StallL)
  | tcol (w : StallL) (all : Bool) (op : TColOp)
  | tcopy (w : StallL)
  | ldt (w : StallS)
  | stt (w : StallS)
  | bankOperationComplete (task op : Nat)
  -- Copies, counters, barriers (R232 to R243)
  | cpy (w : StallL) (fo : Bool) (stg : BitVec 2) (nb : Bool) (stid dtid : BitVec 8)
  | cpyl (w : StallL)
  | copySlotGrant (slice : Nat)
  | copyRequestIssue (slice copy req : Nat)
  | copyRequestComplete (slice copy req : Nat)
  | cinit (w : StallL) (c : BitVec 12)
  | cwait (w : StallL) (c : BitVec 12)
  | seal (w : StallS) (n : BitVec 3)
  | waitb (w : StallS) (n : BitVec 3)
  | barinit (w : StallL) (sc : Scope) (b : BitVec 5)
  | bar (w : StallS) (b : BitVec 5)
  | bara (w : StallS) (b : BitVec 5)
  | barw (w : StallS) (b : BitVec 5)
  -- Frames (R251)
  | rowres (w : StallL) (n : BitVec 12)
  | suspend (w : StallL) (n : BitVec 12)
  | suspendk (w : StallL) (n : BitVec 12)
  | wakeRow (w : StallL)
  | wakeSite (w : StallL) (n : BitVec 12)
  | wakeThr (w : StallL)
  | flush (w : StallL) (n : BitVec 12)
  | frameAgeExpiry (task tid row : Nat)
  | resumeLoad (task tid slice place : Nat)
  -- Matrix arrays (R271 to R277)
  | mm (w : StallL) (acc fo : Bool) (tag : BitVec 3)
  | mms (w : StallL) (acc fo : Bool) (tag : BitVec 3)
  | mmstage (w : StallL) (acc sp : Bool) (tag : BitVec 3) (k : BitVec 2)
  | mmflag (w : StallL) (k : BitVec 2)
  | mmflagDrop (w : StallL) (k : BitVec 2)
  | matrixQueueGrant (slice : Nat)
  | gateEntryGrant (slice : Nat)
  | gatedCommandEntry (slice : Nat) (idx : Nat)
  | stagedCommandEntry (slice slot : Nat)
  | matrixCommandStart (slice : Nat)
  | multicastWindowExpiry (slice : Nat)
  | matrixCommandComplete (slice : Nat)
  -- Translation (R331 to R333, R327, R328)
  | tlbinvPage (w : StallL)
  | tlbinvSpace (w : StallL)
  | tlbinvVf (w : StallL)
  | tlbinvSplit (w : StallL)
  | replay (w : StallL)
  | fbstatPop (pop : RecordPop)
  | fbstatDroppedClear (sector : Nat)
  | frplay (vf asid : Nat)
  -- System (R347)
  | syscall (w : StallL) (c : BitVec 12)
  | hcall (w : StallL) (c : BitVec 12)
  | brk (w : StallS)
  | sret (w : StallS)
  | hret (w : StallS)
  | tfld (w : StallS) (n : BitVec 3)
  | tfst (w : StallS) (n : BitVec 3)
  | trapEntry (l : LaneId) (c : Cause)
  -- Grace (R304)
  | qpoint (w : StallS)
  | waitgp (w : StallS)
  | defer (w : StallS)
  | gracePeriodBegin (vf asid : Nat)
  | gracePeriodComplete (vf asid : Nat)
  | wheyDelivery (vf asid : Nat)
  -- Cuts and clocks (R179 to R184)
  | cutArrival (vf asid slice : Nat)
  | cutDeadline (vf asid slice : Nat)
  | waveSave (slice place : Nat)
  | waveRestore (vf asid idx slice place : Nat)
  | clockRatioChange (slice code : Nat)
  | controlIntervalEnd (cluster : Nat) (draws : List (Nat × Nat)) (overCurrent : Bool)
  -- Reels and firmware (R358 to R368)
  | launchPacket (slot : Nat)
  | copyPacket (slot slice : Nat)
  | signalPacket (slot : Nat)
  | waitPacket (slot : Nat)
  | waitConditionMet (slot : Nat)
  | splicePacket (slot : Nat)
  | quiescePacket (slot : Nat)
  | nopPacket (slot : Nat)
  | invalidPacket (slot : Nat)
  | packetCompletion (vf rnum idx : Nat)
  | wheelClose (idx : Nat)
  | kick (vf rnum : Nat)
  | schedulerTick
  | takeEnd
  | contextCreate (vf asid root : Nat)
  -- Cellar, host, links, bring-up (R370 to R387)
  | wheelOpen (vf drive ns base : Nat)
  | nvmeTimeout (slice copy req : Nat)
  | thermalEvent (at_ : ThermalAt) (code : Nat)
  | eventClear (vf : Nat) (mask : BitVec 4)
  | functionLevelReset (vf : Nat)
  | flit (link : Nat) (ask : Option (Nat × Nat × OuterOp)) (taken : Bool)
  | linkDown (link : Nat)
  | deviceReset
  | attestationReport (vf : Nat) (nonce : List Byte)
  | machineCheck (slice : Nat) (unit : Unit4)
  | virtualFunctionEnable (vf htvec hsbase : Nat)
  | reelRegistration (vf asid header rnum prio : Nat)
  deriving DecidableEq, Repr

end Sys2Proof
end

