-- ==== Sys2Proof/WellFormed.lean ====
section
/-! DEFINITION. Which terms of `Instr` are instructions of OLZ-576: the operand ranges that the type does not
already give (R43, R92, R97, R103, R124, R127, R232), and the index ranges of the events (R9). -/

namespace Sys2Proof

/-- Types that `abs`, `adds` and `subs` accept: codes 0 and 2 (R97). -/
def ITy.signed : ITy → Bool
  | .s32 | .s64 => true
  | .n32 | .n64 => false

/-- Registers that are read only in every mode (R128): `wsr` to one of them is unassigned (R127). -/
def SReg.readOnly : SReg → Bool
  | .mpc | .lane | .thx | .taskx | .role | .argp | .nth | .nlb | .cycle
  | .ratio | .energy | .draw | .intv | .copyB | .cellB | .trapB | .tcode => true
  | .tstat | .fctl | .tkstat | .epc | .estat | .ecg | .edw0 | .edw1 | .edw2 | .efh
  | .stvec | .ssbase | .ptb | .asidx | .cutdl | .htvec | .tdeleg | .hsbase => false

/-- Registers whose `wsr` has a row of its own in the opcode table. -/
def SReg.ownWsrRow : SReg → Bool
  | .tstat | .tkstat | .efh | .ssbase | .ptb | .asidx | .cutdl => true
  | _ => false

/-- The length bits 15:14 of the first halfword agree with the length (R39). -/
def Enc.lengthOk : Enc → Bool
  | .s w => w.toNat < 2 ^ 15
  | .l w => w.toNat / 2 ^ 30 == 2
  | .x w => w.toNat / 2 ^ 46 == 3

/-- A lane that the device has (R9). -/
def LaneId.ok (l : LaneId) : Bool := l.slice < 576 && l.place < 48 && l.lane < 32

def vfAsidOk (vf asid : Nat) : Bool := vf < 16 && asid < 16384

def placeOk (slice place : Nat) : Bool := slice < 576 && place < 48

/-- Well-formed instructions and events. -/
def Instr.wf : Instr → Bool
  | .pick _ n | .bury _ n => n.toNat < 63
  | .give _ k | .claim _ k => 1 ≤ k.toNat && k.toNat ≤ 8
  | .abs _ t | .adds _ t | .subs _ t => t.signed
  | .wsr _ r => !r.readOnly && !r.ownWsrRow
  | .cpy _ fo stg _ _ _ => fo || stg.toNat == 0
  | .atomt _ _ _ => true
  | .unassignedEncoding e => e.lengthOk
  | .claimGrant s _ | .copySlotGrant s | .copyRequestIssue s _ _ | .copyRequestComplete s _ _
  | .matrixQueueGrant s | .gateEntryGrant s | .gatedCommandEntry s _ | .matrixCommandStart s
  | .multicastWindowExpiry s | .matrixCommandComplete s | .nvmeTimeout s _ _ | .machineCheck s _ => s < 576
  | .stagedCommandEntry s k => s < 576 && k < 4
  | .mwaitWake l _ | .trackedResultArrival l _ => l.ok
  | .trapEntry l c => l.ok && 1 ≤ c.group && c.group ≤ 18
  | .refill s p | .waveSave s p | .spawnWaitWake _ s p | .resumeLoad _ _ s p => placeOk s p
  | .taskPlacement _ ms => 1 ≤ ms.length && ms.length ≤ 6 && ms.all (· < 576) && ms.Nodup
  | .waveFormation _ p => p < 48
  | .tearDown v a _ | .frplay v a | .gracePeriodBegin v a | .gracePeriodComplete v a | .wheyDelivery v a
  | .contextCreate v a _ => vfAsidOk v a
  | .frameAgeExpiry _ t r => 128 ≤ t && t < 256 && r < 64
  | .fbstatPop ⟨s, _⟩ | .fbstatDroppedClear s => s < 32
  | .cutArrival v a s | .cutDeadline v a s => vfAsidOk v a && s < 576
  | .waveRestore v a _ s p => vfAsidOk v a && placeOk s p
  | .clockRatioChange s c => s < 576 && c < 5
  | .controlIntervalEnd c _ _ => c < 96
  | .launchPacket q | .copyPacket q _ | .signalPacket q | .waitPacket q | .waitConditionMet q
  | .splicePacket q | .quiescePacket q | .nopPacket q | .invalidPacket q => q < 64
  | .packetCompletion v r _ | .kick v r => v < 16 && r < 4096
  | .wheelOpen v d n _ => v < 16 && d < 8 && 1 ≤ n && n < 4096
  | .wheelClose i => i < 256
  | .thermalEvent a c => c < 5 && (match a with | .die d => d < 2 | .stack p => p < 8)
  | .eventClear v _ | .functionLevelReset v => v < 16
  | .flit l _ _ => l < 19
  | .linkDown l => l < 18
  | .attestationReport v n => v < 16 && n.length == 32
  | .virtualFunctionEnable v _ _ => v < 16
  | .reelRegistration v a _ r p => vfAsidOk v a && r < 4096 && p < 4
  | _ => true

end Sys2Proof
end

