-- ==== Sys2Proof/Decode.lean ====
section
/-! DEFINITION. The decoder and the encoder of Meliq (R38 to R63), written from the opcode maps R56 to R60. -/

namespace Sys2Proof

/-! ## Field codes -/

/-- R44. -/
def ITy.code : ITy → Nat
  | .s32 => 0 | .n32 => 1 | .s64 => 2 | .n64 => 3
def ITy.ofCode : Nat → Option ITy
  | 0 => some .s32 | 1 => some .n32 | 2 => some .s64 | 3 => some .n64 | _ => none

/-- R45. -/
def Scope.code : Scope → Nat
  | .slice => 0 | .cluster => 1 | .sector => 2 | .pillar => 3 | .device => 4 | .system => 5
def Scope.ofCode : Nat → Option Scope
  | 0 => some .slice | 1 => some .cluster | 2 => some .sector | 3 => some .pillar | 4 => some .device
  | 5 => some .system | _ => none

/-- R46. -/
def LdW.code : LdW → Nat
  | .s8 => 0 | .n8 => 1 | .s16 => 2 | .n16 => 3 | .s32 => 4 | .n32 => 5 | .w64 => 6 | .h => 7
def LdW.ofCode : Nat → Option LdW
  | 0 => some .s8 | 1 => some .n8 | 2 => some .s16 | 3 => some .n16 | 4 => some .s32 | 5 => some .n32
  | 6 => some .w64 | 7 => some .h | _ => none
def StW.code : StW → Nat
  | .w8 => 1 | .w16 => 3 | .w32 => 5 | .w64 => 6
def StW.ofCode : Nat → Option StW
  | 1 => some .w8 | 3 => some .w16 | 5 => some .w32 | 6 => some .w64 | _ => none
def LdsW.code : LdsW → Nat
  | .s32 => 4 | .n32 => 5 | .w64 => 6
def LdsW.ofCode : Nat → Option LdsW
  | 4 => some .s32 | 5 => some .n32 | 6 => some .w64 | _ => none
def AtW.code : AtW → Nat
  | .w32 => 5 | .w64 => 6
def AtW.ofCode : Nat → Option AtW
  | 5 => some .w32 | 6 => some .w64 | _ => none

/-- R47. -/
def AOrd.code : AOrd → Nat
  | .plain => 0 | .acq => 1 | .rel => 2 | .ar => 3
def AOrd.ofCode : Nat → Option AOrd
  | 0 => some .plain | 1 => some .acq | 2 => some .rel | 3 => some .ar | _ => none

/-- Op numbers of R58. -/
def AOp.code : AOp → Nat
  | .add => 0 | .and => 1 | .or => 2 | .xor => 3 | .minS => 4 | .minN => 5 | .maxS => 6 | .maxN => 7
  | .xchg => 8 | .fadd => 9 | .fmin => 10 | .fmax => 11 | .cas => 12
def AOp.ofCode : Nat → Option AOp
  | 0 => some .add | 1 => some .and | 2 => some .or | 3 => some .xor | 4 => some .minS | 5 => some .minN
  | 6 => some .maxS | 7 => some .maxN | 8 => some .xchg | 9 => some .fadd | 10 => some .fmin
  | 11 => some .fmax | 12 => some .cas | _ => none

/-- R103. -/
def FCond.code : FCond → Nat
  | .eq => 0 | .lt => 1 | .le => 2 | .uno => 3
def FCond.ofCode : Nat → Option FCond
  | 0 => some .eq | 1 => some .lt | 2 => some .le | 3 => some .uno | _ => none

/-- R28. -/
def RCode.code : RCode → Nat
  | .rne => 0 | .rtz => 1 | .rdn => 2 | .rup => 3 | .dyn => 4
def RCode.ofCode : Nat → Option RCode
  | 0 => some .rne | 1 => some .rtz | 2 => some .rdn | 3 => some .rup | 4 => some .dyn | _ => none

/-- R111. -/
def CvtTy.code : CvtTy → Nat
  | .s32 => 0 | .n32 => 1 | .f32 => 2 | .f16 => 3 | .b16 => 4
def CvtTy.ofCode : Nat → Option CvtTy
  | 0 => some .s32 | 1 => some .n32 | 2 => some .f32 | 3 => some .f16 | 4 => some .b16 | _ => none

/-- R113. -/
def Fmt16.code : Fmt16 → Nat
  | .f16 => 0 | .b16 => 1
def Fmt16.ofCode : Nat → Option Fmt16
  | 0 => some .f16 | 1 => some .b16 | _ => none

/-- R114. -/
def ExtW.code : ExtW → Nat
  | .w8 => 0 | .w16 => 1 | .w32 => 2
def ExtW.ofCode : Nat → Option ExtW
  | 0 => some .w8 | 1 => some .w16 | 2 => some .w32 | _ => none

/-- R115. -/
def QFmt.code : QFmt → Nat
  | .q8 => 0 | .q4 => 1
def QFmt.ofCode : Nat → Option QFmt
  | 0 => some .q8 | 1 => some .q4 | _ => none

/-- R159. -/
def PLvl.code : PLvl → Nat
  | .l1 => 0 | .l2 => 1
def PLvl.ofCode : Nat → Option PLvl
  | 0 => some .l1 | 1 => some .l2 | _ => none

/-- R223. -/
def TColOp.code : TColOp → Nat
  | .set => 0 | .add => 1 | .and => 2 | .or => 3 | .max => 4
def TColOp.ofCode : Nat → Option TColOp
  | 0 => some .set | 1 => some .add | 2 => some .and | 3 => some .or | 4 => some .max | _ => none

def boolCode (b : Bool) : Nat := if b then 1 else 0

/-- A one-bit field. -/
def boolOf : Nat → Option Bool
  | 0 => some false | 1 => some true | _ => none

/-- The register ids of R128 and R382. -/
def SReg.id : SReg → Nat
  | .tstat => 0x000 | .fctl => 0x001 | .tkstat => 0x002 | .mpc => 0x003
  | .lane => 0x010 | .thx => 0x011 | .taskx => 0x012 | .role => 0x013 | .argp => 0x014 | .nth => 0x015
  | .nlb => 0x016 | .cycle => 0x017
  | .ratio => 0x020 | .energy => 0x021 | .draw => 0x022 | .intv => 0x023 | .copyB => 0x024
  | .cellB => 0x025 | .trapB => 0x026 | .tcode => 0x027
  | .epc => 0x040 | .estat => 0x041 | .ecg => 0x042 | .edw0 => 0x043 | .edw1 => 0x044 | .edw2 => 0x045
  | .efh => 0x046
  | .stvec => 0x080 | .ssbase => 0x081 | .ptb => 0x082 | .asidx => 0x083 | .cutdl => 0x084
  | .htvec => 0x0C0 | .tdeleg => 0x0C1 | .hsbase => 0x0C2

/-- The register of an id; an id that R128 does not list has none and is unassigned (R127). -/
def SReg.ofId : Nat → Option SReg
  | 0x000 => some .tstat | 0x001 => some .fctl | 0x002 => some .tkstat | 0x003 => some .mpc
  | 0x010 => some .lane | 0x011 => some .thx | 0x012 => some .taskx | 0x013 => some .role
  | 0x014 => some .argp | 0x015 => some .nth | 0x016 => some .nlb | 0x017 => some .cycle
  | 0x020 => some .ratio | 0x021 => some .energy | 0x022 => some .draw | 0x023 => some .intv
  | 0x024 => some .copyB | 0x025 => some .cellB | 0x026 => some .trapB | 0x027 => some .tcode
  | 0x040 => some .epc | 0x041 => some .estat | 0x042 => some .ecg | 0x043 => some .edw0
  | 0x044 => some .edw1 | 0x045 => some .edw2 | 0x046 => some .efh
  | 0x080 => some .stvec | 0x081 => some .ssbase | 0x082 => some .ptb | 0x083 => some .asidx
  | 0x084 => some .cutdl
  | 0x0C0 => some .htvec | 0x0C1 => some .tdeleg | 0x0C2 => some .hsbase
  | _ => none

/-! ## The three formats (R41) -/

def sWord (w : StallS) (op f6 : Nat) : Enc := .s (BitVec.ofNat 16 (w.toNat * 8192 + op * 64 + f6))

def lWord (w : StallL) (op f18 : Nat) : Enc :=
  .l (BitVec.ofNat 32 (2147483648 + w.toNat * 134217728 + op * 262144 + f18))

def xWord (w : StallL) (op imm : Nat) : Enc :=
  .x (BitVec.ofNat 48 (211106232532992 + w.toNat * 8796093022208 + op * 4294967296 + imm))

/-- An f6 that must be zero (the 0 column of R56). -/
def zeroF {α : Type} (f : Nat) (i : α) : Option α := if f = 0 then some i else none

/-- f6 with a type code in bits 1:0 and bits 5:2 zero (R97). -/
def typed {α : Type} (f : Nat) (k : ITy → α) : Option α := (ITy.ofCode f).map k

/-- A typed instruction that accepts the signed codes only (R97). -/
def typedS {α : Type} (f : Nat) (k : ITy → α) : Option α :=
  match ITy.ofCode f with
  | some t => if t.signed then some (k t) else none
  | none => none

/-- f6 holding a natural number below a bound. -/
def below {α : Type} (bound f : Nat) (i : α) : Option α := if f < bound then some i else none

/-- S instructions by opcode (R56). -/
def decodeS (w : StallS) (op f : Nat) : Option Instr :=
  match op with
  | 0x00 => zeroF f (.nop w)
  | 0x01 => some (.lit w (BitVec.ofNat 6 f))
  | 0x02 => zeroF f (.dup w)
  | 0x03 => zeroF f (.drop w)
  | 0x04 => zeroF f (.swap w)
  | 0x05 => zeroF f (.over w)
  | 0x06 => zeroF f (.rot w)
  | 0x07 => zeroF f (.nip w)
  | 0x08 => zeroF f (.tuck w)
  | 0x09 => below 63 f (.pick w (BitVec.ofNat 6 f))
  | 0x0A => below 63 f (.bury w (BitVec.ofNat 6 f))
  | 0x0B => some (.dropn w (BitVec.ofNat 6 f))
  | 0x0C => zeroF f (.depth w)
  | 0x0D => zeroF f (.dup2 w)
  | 0x0E => zeroF f (.swap2 w)
  | 0x10 => typed f (.add w)
  | 0x11 => typed f (.sub w)
  | 0x12 => typed f (.mul w)
  | 0x13 => typed f (.mulh w)
  | 0x14 => typed f (.mad w)
  | 0x15 => typed f (.div w)
  | 0x16 => typed f (.rem w)
  | 0x17 => typed f (.neg w)
  | 0x18 => typedS f (.abs w)
  | 0x19 => typed f (.min w)
  | 0x1A => typed f (.max w)
  | 0x1B => typedS f (.adds w)
  | 0x1C => typedS f (.subs w)
  | 0x1D => typed f (.clamp w)
  | 0x1E => typed f (.and w)
  | 0x1F => typed f (.or w)
  | 0x20 => typed f (.xor w)
  | 0x21 => typed f (.not w)
  | 0x22 => typed f (.shl w)
  | 0x23 => typed f (.shr w)
  | 0x24 => typed f (.rotl w)
  | 0x25 => typed f (.popc w)
  | 0x26 => typed f (.clz w)
  | 0x27 => typed f (.ctz w)
  | 0x28 => typed f (.bfx w)
  | 0x29 => typed f (.bfi w)
  | 0x2A => typed f (.brev w)
  | 0x2B => typed f (.sel w)
  | 0x2C => typed f (.eq w)
  | 0x2D => typed f (.ne w)
  | 0x2E => typed f (.lt w)
  | 0x2F => typed f (.le w)
  | 0x30 => some (.addi w (BitVec.ofNat 6 f))
  | 0x31 => some (.shli w (BitVec.ofNat 6 f))
  | 0x32 => zeroF f (.fadd w)
  | 0x33 => zeroF f (.fsub w)
  | 0x34 => zeroF f (.fmul w)
  | 0x35 => zeroF f (.fma w)
  | 0x36 => zeroF f (.fdiv w)
  | 0x37 => zeroF f (.fsqrt w)
  | 0x38 => zeroF f (.fneg w)
  | 0x39 => zeroF f (.fabs w)
  | 0x3A => zeroF f (.fsgn w)
  | 0x3B => (boolOf f).map (.fmin w)
  | 0x3C => (boolOf f).map (.fmax w)
  | 0x3D => (FCond.ofCode f).map (.fcmp w)
  | 0x3E => zeroF f (.fclass w)
  | 0x3F => (RCode.ofCode f).map (.frnd w)
  | 0x40 => zeroF f (.frcpa w)
  | 0x41 => zeroF f (.frsqa w)
  | 0x42 => zeroF f (.fexp2a w)
  | 0x43 => zeroF f (.flog2a w)
  | 0x44 => if f % 2 = 0 then (RCode.ofCode (f / 2)).map (.pack2F16 w)
            else if f = 1 then some (.pack2B16 w) else none
  | 0x45 => (Fmt16.ofCode f).map (.unpk2 w)
  | 0x46 => if f < 8 then (ExtW.ofCode (f % 4)).map (.ext w (f / 4 == 1)) else none
  | 0x47 => (QFmt.ofCode f).map (.qnt w)
  | 0x48 => (QFmt.ofCode f).map (.dqnt w)
  | 0x49 => some (.ldl w (BitVec.ofNat 6 f))
  | 0x4A => some (.stl w (BitVec.ofNat 6 f))
  | 0x4B => zeroF f (.ldlx w)
  | 0x4C => zeroF f (.stlx w)
  | 0x4D => if 1 ≤ f ∧ f ≤ 8 then some (.give w (BitVec.ofNat 4 f)) else none
  | 0x4E => if 1 ≤ f ∧ f ≤ 8 then some (.claim w (BitVec.ofNat 4 f)) else none
  | 0x4F => zeroF f (.ret w)
  | 0x50 => zeroF f (.exit w)
  | 0x51 => zeroF f (.brx w)
  | 0x52 => zeroF f (.callx w)
  | 0x53 => some (.join w (BitVec.ofNat 6 f))
  | 0x54 => zeroF f (.yield w)
  | 0x55 => below 4 f (.prio w (BitVec.ofNat 2 f))
  | 0x56 => zeroF f (.qpoint w)
  | 0x57 => zeroF f (.waitgp w)
  | 0x58 => zeroF f (.defer w)
  | 0x59 => zeroF f (.brk w)
  | 0x5A => zeroF f (.sret w)
  | 0x5B => zeroF f (.hret w)
  | 0x5C => below 8 f (.tfld w (BitVec.ofNat 3 f))
  | 0x5D => below 8 f (.tfst w (BitVec.ofNat 3 f))
  | 0x5E => zeroF f (.ldt w)
  | 0x5F => zeroF f (.stt w)
  | 0x60 => zeroF f (.mwait w)
  | 0x61 => below 8 f (.seal w (BitVec.ofNat 3 f))
  | 0x62 => below 8 f (.waitb w (BitVec.ofNat 3 f))
  | 0x63 => below 32 f (.bar w (BitVec.ofNat 5 f))
  | 0x64 => below 32 f (.bara w (BitVec.ofNat 5 f))
  | 0x65 => below 32 f (.barw w (BitVec.ofNat 5 f))
  | _ => none

/-! ## L sub-formats (R42) -/

/-- scope of L.M: bits 17:15. -/
def fScope (f : Nat) : Nat := f / 32768
/-- wt of L.M: bits 14:12. -/
def fWt (f : Nat) : Nat := f / 4096 % 8
/-- off12, imm12: bits 11:0. -/
def fLow (f : Nat) : Nat := f % 4096
/-- sub of L.E: bits 17:12. -/
def fSub (f : Nat) : Nat := f / 4096

def lM (sc wt : Nat) (off : BitVec 12) : Nat := sc * 32768 + wt * 4096 + off.toNat

/-- An integer atomic (R161): scope, wt 5 or 6, off12. -/
def decAtom (f : Nat) (k : Scope → AtW → BitVec 12 → Instr) : Option Instr :=
  match Scope.ofCode (fScope f), AtW.ofCode (fWt f) with
  | some sc, some wt => some (k sc wt (BitVec.ofNat 12 (fLow f)))
  | _, _ => none

/-- A float atomic (R161): wt 5 only. -/
def decAtomF (f : Nat) (k : Scope → BitVec 12 → Instr) : Option Instr :=
  match Scope.ofCode (fScope f) with
  | some sc => if fWt f = 5 then some (k sc (BitVec.ofNat 12 (fLow f))) else none
  | none => none

/-- `atom` and `cas`, opcodes 0x040 to 0x07F (R58); `op` is the op number. -/
def decodeAtom (w : StallL) (op : Nat) (o : AOrd) (f : Nat) : Option Instr :=
  match op with
  | 0 => decAtom f (.atomAdd w o)
  | 1 => decAtom f (.atomAnd w o)
  | 2 => decAtom f (.atomOr w o)
  | 3 => decAtom f (.atomXor w o)
  | 4 => decAtom f (.atomMinS w o)
  | 5 => decAtom f (.atomMinN w o)
  | 6 => decAtom f (.atomMaxS w o)
  | 7 => decAtom f (.atomMaxN w o)
  | 8 => decAtom f (.atomXchg w o)
  | 9 => decAtomF f (.atomFadd w o)
  | 10 => decAtomF f (.atomFmin w o)
  | 11 => decAtomF f (.atomFmax w o)
  | 12 => decAtom f (.cas w o)
  | _ => none

/-- `red`, opcodes 0x080 to 0x0BF (R58). -/
def decodeRed (w : StallL) (op : Nat) (o : AOrd) (f : Nat) : Option Instr :=
  match op with
  | 0 => decAtom f (.redAdd w o)
  | 1 => decAtom f (.redAnd w o)
  | 2 => decAtom f (.redOr w o)
  | 3 => decAtom f (.redXor w o)
  | 4 => decAtom f (.redMinS w o)
  | 5 => decAtom f (.redMinN w o)
  | 6 => decAtom f (.redMaxS w o)
  | 7 => decAtom f (.redMaxN w o)
  | 9 => decAtomF f (.redFadd w o)
  | 10 => decAtomF f (.redFmin w o)
  | 11 => decAtomF f (.redFmax w o)
  | _ => none

/-- A scope-only L.M form: wt as given, off12 zero (R157, R158). -/
def decScope (f wt : Nat) (k : Scope → Instr) : Option Instr :=
  match Scope.ofCode (fScope f) with
  | some sc => if fWt f = wt ∧ fLow f = 0 then some (k sc) else none
  | none => none

/-- L.E with sub zero and a 12-bit immediate. -/
def decImm12 (f : Nat) (k : BitVec 12 → Instr) : Option Instr :=
  if fSub f = 0 then some (k (BitVec.ofNat 12 f)) else none

/-- The `wsr` row of a register (R127); a register read only in every mode has none. -/
def wsrOf (w : StallL) : SReg → Option Instr
  | .tstat => some (.wsrTstat w)
  | .tkstat => some (.wsrTkstat w)
  | .efh => some (.wsrEfh w)
  | .ssbase => some (.wsrSsbase w)
  | .ptb => some (.wsrPtb w)
  | .asidx => some (.wsrAsidx w)
  | .cutdl => some (.wsrCutdl w)
  | r => if r.readOnly then none else some (.wsr w r)

/-- Opcodes 0x020 to 0x02A (R57). -/
def decodeMem (w : StallL) (op f : Nat) : Option Instr :=
  let off := BitVec.ofNat 12 (fLow f)
  match op with
  | 0x020 => if fScope f = 0 then (LdW.ofCode (fWt f)).map (.ld w · off) else none
  | 0x021 => if fScope f = 0 then (StW.ofCode (fWt f)).map (.st w · off) else none
  | 0x022 => if fScope f = 0 ∧ fWt f = 6 then some (.ld2 w off) else none
  | 0x023 => if fScope f = 0 ∧ fWt f = 6 then some (.st2 w off) else none
  | 0x024 => match Scope.ofCode (fScope f), LdsW.ofCode (fWt f) with
             | some sc, some wt => some (.lds w sc wt off) | _, _ => none
  | 0x025 => match Scope.ofCode (fScope f), LdsW.ofCode (fWt f) with
             | some sc, some wt => some (.ldsAcq w sc wt off) | _, _ => none
  | 0x026 => decAtom f (.sts w)
  | 0x027 => decAtom f (.stsRel w)
  | 0x028 => match fWt f with
             | 0 => decScope f 0 (.phase w)
             | 1 => decScope f 1 (.phaseP w)
             | 2 => decScope f 2 (.phaseO w)
             | _ => none
  | 0x029 => decScope f 0 (.icinv w)
  | 0x02A => if fScope f = 0 then (PLvl.ofCode (fWt f)).map (.pref w · off) else none
  | _ => none

/-- Opcodes 0x100 to 0x193 but `cpy` (R57). -/
def decodeE (w : StallL) (op f : Nat) : Option Instr :=
  match op with
  | 0x100 => if fSub f = 0 then (SReg.ofId f).map (.rsr w) else none
  | 0x101 => if fSub f = 0 then (SReg.ofId f).bind (wsrOf w) else none
  | 0x102 => decImm12 f (.syscall w)
  | 0x103 => decImm12 f (.hcall w)
  | 0x104 => if fLow f = 0 then
               (match fSub f with
                | 0 => some (.tlbinvPage w) | 1 => some (.tlbinvSpace w)
                | 2 => some (.tlbinvVf w) | 3 => some (.tlbinvSplit w) | _ => none)
             else none
  | 0x105 => zeroF f (.replay w)
  | 0x110 => zeroF f (.talloc w)
  | 0x111 => zeroF f (.tfree w)
  | 0x112 => zeroF f (.tdef w)
  | 0x113 => below 8 f (.tget w (BitVec.ofNat 3 f))
  | 0x114 => below 8 f (.tset w (BitVec.ofNat 3 f))
  | 0x115 => if fLow f = 0 then
               (match AOp.ofCode (f / 16384), AOrd.ofCode (f / 4096 % 4) with
                | some p, some o => some (.atomt w p o) | _, _ => none)
             else none
  | 0x116 => zeroF f (.tfill w)
  | 0x117 => if fLow f = 0 ∧ fSub f < 16 then
               (TColOp.ofCode (fSub f % 8)).map (.tcol w (fSub f / 8 == 1))
             else none
  | 0x118 => zeroF f (.tcopy w)
  | 0x120 => zeroF f (.cpyl w)
  | 0x121 => decImm12 f (.cinit w)
  | 0x122 => decImm12 f (.cwait w)
  | 0x123 => if fLow f < 32 then
               (Scope.ofCode (fSub f)).map (.barinit w · (BitVec.ofNat 5 (fLow f)))
             else none
  | 0x130 => decImm12 f (.rowres w)
  | 0x131 => decImm12 f (.suspend w)
  | 0x132 => decImm12 f (.suspendk w)
  | 0x133 => (match fSub f with
              | 0 => zeroF (fLow f) (.wakeRow w)
              | 1 => some (.wakeSite w (BitVec.ofNat 12 (fLow f)))
              | 2 => zeroF (fLow f) (.wakeThr w)
              | _ => none)
  | 0x134 => decImm12 f (.flush w)
  | 0x140 => zeroF f (.spawn w)
  | 0x141 => zeroF f (.spawnw w)
  | 0x190 => if f % 8192 = 0 then
               some (.mm w (f / 131072 == 1) (f / 65536 % 2 == 1) (BitVec.ofNat 3 (f / 8192)))
             else none
  | 0x191 => if f % 8192 = 0 then
               some (.mms w (f / 131072 == 1) (f / 65536 % 2 == 1) (BitVec.ofNat 3 (f / 8192)))
             else none
  | 0x192 => if f % 8192 < 4 then
               some (.mmstage w (f / 131072 == 1) (f / 65536 % 2 == 1) (BitVec.ofNat 3 (f / 8192))
                 (BitVec.ofNat 2 f))
             else none
  | 0x193 => if f < 4 then some (.mmflag w (BitVec.ofNat 2 f))
             else if 4096 ≤ f ∧ f < 4100 then some (.mmflagDrop w (BitVec.ofNat 2 f)) else none
  | _ => none

/-- `cpy`: opcode bits 3:0 are bits 7:4 of stid (R59, R232). -/
def decodeCpy (w : StallL) (hi f : Nat) : Option Instr :=
  let fo := f / 131072 == 1
  let stg := f / 32768 % 4
  if f / 4096 % 4 = 0 ∧ (fo || stg == 0) then
    some (.cpy w fo (BitVec.ofNat 2 stg) (f / 16384 % 2 == 1)
      (BitVec.ofNat 8 (hi * 16 + f % 16)) (BitVec.ofNat 8 (f / 16)))
  else none

/-- L instructions by opcode (R57 to R59, R63). -/
def decodeL (w : StallL) (op f : Nat) : Option Instr :=
  match op with
  | 0x000 => some (.br w (BitVec.ofNat 18 f))
  | 0x001 => some (.brz w (BitVec.ofNat 18 f))
  | 0x002 => some (.brnz w (BitVec.ofNat 18 f))
  | 0x003 => some (.call w (BitVec.ofNat 18 f))
  | 0x004 => some (.meet w (BitVec.ofNat 18 f))
  | 0x010 => some (.litw w (BitVec.ofNat 18 f))
  | 0x011 => if f % 512 = 0 then
               (match CvtTy.ofCode (f / 32768), CvtTy.ofCode (f / 4096 % 8), RCode.ofCode (f / 512 % 8) with
                | some a, some b, some r => some (.cvt w a b r) | _, _, _ => none)
             else none
  | n => if n < 0x040 then decodeMem w n f
         else if n < 0x080 then (AOrd.ofCode (n % 4)).bind fun o => decodeAtom w ((n - 0x040) / 4) o f
         else if n < 0x0C0 then (AOrd.ofCode (n % 4)).bind fun o => decodeRed w ((n - 0x080) / 4) o f
         else if 0x180 ≤ n ∧ n < 0x190 then decodeCpy w (n - 0x180) f
         else decodeE w n f

/-- X instructions by opcode (R60). -/
def decodeX (w : StallL) (op imm : Nat) : Option Instr :=
  match op with
  | 0x00 => some (.litx w (BitVec.ofNat 32 imm))
  | 0x01 => some (.lith w (BitVec.ofNat 32 imm))
  | 0x02 => some (.litf w (BitVec.ofNat 32 imm))
  | _ => none

/-- The assigned instruction of an encoding, or none if R43 makes it unassigned. -/
def decodeEnc : Enc → Option Instr
  | .s x =>
    let n := x.toNat
    if n < 32768 then decodeS (BitVec.ofNat 2 (n / 8192)) (n / 64 % 128) (n % 64) else none
  | .l x =>
    let n := x.toNat
    if n / 1073741824 = 2 then
      decodeL (BitVec.ofNat 3 (n / 134217728)) (n / 262144 % 512) (n % 262144)
    else none
  | .x x =>
    let n := x.toNat
    if n / 70368744177664 = 3 ∧ n / 1099511627776 % 8 = 0 then
      decodeX (BitVec.ofNat 3 (n / 8796093022208)) (n / 4294967296 % 256) (n % 4294967296)
    else none

/-- Length in halfwords, from bits 15:14 of the first halfword alone (R39). -/
def lengthOf (first : Half) : Nat :=
  match first.toNat / 16384 with
  | 2 => 2
  | 3 => 3
  | _ => 1

/-- Length in halfwords of raw words. -/
def Enc.len : Enc → Nat
  | .s _ => 1 | .l _ => 2 | .x _ => 3

/-- The bytes of an instruction at ascending addresses (R38). -/
def Enc.bytes : Enc → List Byte
  | .s w => [w.setWidth 8, (w >>> 8).setWidth 8]
  | .l w => [(w >>> 16).setWidth 8, (w >>> 24).setWidth 8, w.setWidth 8, (w >>> 8).setWidth 8]
  | .x w => [(w >>> 32).setWidth 8, (w >>> 40).setWidth 8, (w >>> 16).setWidth 8, (w >>> 24).setWidth 8,
             w.setWidth 8, (w >>> 8).setWidth 8]

/-- A halfword from its low and high byte (R38). -/
def halfOf (lo hi : Byte) : Nat := lo.toNat + 256 * hi.toNat

/-- Why bytes hold no instruction. -/
inductive DecodeError where
  /-- Fewer bytes than the first halfword's length asks for. -/
  | truncated
  deriving DecidableEq, Repr

/-- The raw words at the head of the bytes (R38, R39), and the bytes after them. -/
def rawWords : List Byte → Except DecodeError (Enc × List Byte)
  | a :: b :: rest =>
    let h := halfOf a b
    if h / 16384 = 2 then
      match rest with
      | c :: d :: rest => .ok (.l (BitVec.ofNat 32 (h * 65536 + halfOf c d)), rest)
      | _ => .error .truncated
    else if h / 16384 = 3 then
      match rest with
      | c :: d :: e :: f :: rest =>
        .ok (.x (BitVec.ofNat 48 (h * 4294967296 + halfOf c d * 65536 + halfOf e f)), rest)
      | _ => .error .truncated
    else .ok (.s (BitVec.ofNat 16 h), rest)
  | _ => .error .truncated

/-- The instruction of raw words: the assigned one, or UNASSIGNED_ENCODING (R43, R61). -/
def instrOf (e : Enc) : Instr := (decodeEnc e).getD (.unassignedEncoding e)

/-- The decoder, total on any bytes: the instruction and the bytes after it. -/
def decode (bs : List Byte) : Except DecodeError (Instr × List Byte) :=
  match rawWords bs with
  | .ok (e, rest) => .ok (instrOf e, rest)
  | .error x => .error x

/-! ## The encoder -/

/-- f18 of the flags of `mm`, `mms` and `mmstage` (R271, R275). -/
def mmF (a b : Bool) (tag : BitVec 3) : Nat := boolCode a * 131072 + boolCode b * 65536 + tag.toNat * 8192

def atomWord (w : StallL) (base : Nat) (p : AOp) (o : AOrd) (sc : Scope) (wt : AtW) (off : BitVec 12) : Enc :=
  lWord w (base + 4 * p.code + o.code) (lM sc.code wt.code off)

/-- The words of an instruction (R92, R98, R100, R102, R103, R109, R111, R113 to R115, R122, R124, R127, R136,
R154 to R161, R167, R176, R200, R217, R232, R236, R238, R240, R243, R251, R271, R275, R277, R304, R331, R333,
R347). An event has none. -/
def encode : Instr → Option Enc
  | .nop w => some (sWord w 0x00 0)
  | .lit w v => some (sWord w 0x01 v.toNat)
  | .dup w => some (sWord w 0x02 0)
  | .drop w => some (sWord w 0x03 0)
  | .swap w => some (sWord w 0x04 0)
  | .over w => some (sWord w 0x05 0)
  | .rot w => some (sWord w 0x06 0)
  | .nip w => some (sWord w 0x07 0)
  | .tuck w => some (sWord w 0x08 0)
  | .pick w n => some (sWord w 0x09 n.toNat)
  | .bury w n => some (sWord w 0x0A n.toNat)
  | .dropn w n => some (sWord w 0x0B n.toNat)
  | .depth w => some (sWord w 0x0C 0)
  | .dup2 w => some (sWord w 0x0D 0)
  | .swap2 w => some (sWord w 0x0E 0)
  | .litw w v => some (lWord w 0x010 v.toNat)
  | .litx w v => some (xWord w 0x00 v.toNat)
  | .lith w v => some (xWord w 0x01 v.toNat)
  | .litf w v => some (xWord w 0x02 v.toNat)
  | .add w t => some (sWord w 0x10 t.code)
  | .sub w t => some (sWord w 0x11 t.code)
  | .mul w t => some (sWord w 0x12 t.code)
  | .mulh w t => some (sWord w 0x13 t.code)
  | .mad w t => some (sWord w 0x14 t.code)
  | .div w t => some (sWord w 0x15 t.code)
  | .rem w t => some (sWord w 0x16 t.code)
  | .neg w t => some (sWord w 0x17 t.code)
  | .abs w t => some (sWord w 0x18 t.code)
  | .min w t => some (sWord w 0x19 t.code)
  | .max w t => some (sWord w 0x1A t.code)
  | .adds w t => some (sWord w 0x1B t.code)
  | .subs w t => some (sWord w 0x1C t.code)
  | .clamp w t => some (sWord w 0x1D t.code)
  | .and w t => some (sWord w 0x1E t.code)
  | .or w t => some (sWord w 0x1F t.code)
  | .xor w t => some (sWord w 0x20 t.code)
  | .not w t => some (sWord w 0x21 t.code)
  | .shl w t => some (sWord w 0x22 t.code)
  | .shr w t => some (sWord w 0x23 t.code)
  | .rotl w t => some (sWord w 0x24 t.code)
  | .popc w t => some (sWord w 0x25 t.code)
  | .clz w t => some (sWord w 0x26 t.code)
  | .ctz w t => some (sWord w 0x27 t.code)
  | .bfx w t => some (sWord w 0x28 t.code)
  | .bfi w t => some (sWord w 0x29 t.code)
  | .brev w t => some (sWord w 0x2A t.code)
  | .sel w t => some (sWord w 0x2B t.code)
  | .eq w t => some (sWord w 0x2C t.code)
  | .ne w t => some (sWord w 0x2D t.code)
  | .lt w t => some (sWord w 0x2E t.code)
  | .le w t => some (sWord w 0x2F t.code)
  | .addi w n => some (sWord w 0x30 n.toNat)
  | .shli w n => some (sWord w 0x31 n.toNat)
  | .fadd w => some (sWord w 0x32 0)
  | .fsub w => some (sWord w 0x33 0)
  | .fmul w => some (sWord w 0x34 0)
  | .fma w => some (sWord w 0x35 0)
  | .fdiv w => some (sWord w 0x36 0)
  | .fsqrt w => some (sWord w 0x37 0)
  | .fneg w => some (sWord w 0x38 0)
  | .fabs w => some (sWord w 0x39 0)
  | .fsgn w => some (sWord w 0x3A 0)
  | .fmin w m => some (sWord w 0x3B (boolCode m))
  | .fmax w m => some (sWord w 0x3C (boolCode m))
  | .fcmp w c => some (sWord w 0x3D c.code)
  | .fclass w => some (sWord w 0x3E 0)
  | .frnd w r => some (sWord w 0x3F r.code)
  | .frcpa w => some (sWord w 0x40 0)
  | .frsqa w => some (sWord w 0x41 0)
  | .fexp2a w => some (sWord w 0x42 0)
  | .flog2a w => some (sWord w 0x43 0)
  | .cvt w a b r => some (lWord w 0x011 (a.code * 32768 + b.code * 4096 + r.code * 512))
  | .pack2F16 w r => some (sWord w 0x44 (r.code * 2))
  | .pack2B16 w => some (sWord w 0x44 1)
  | .unpk2 w f => some (sWord w 0x45 f.code)
  | .ext w g k => some (sWord w 0x46 (boolCode g * 4 + k.code))
  | .qnt w q => some (sWord w 0x47 q.code)
  | .dqnt w q => some (sWord w 0x48 q.code)
  | .ldl w n => some (sWord w 0x49 n.toNat)
  | .stl w n => some (sWord w 0x4A n.toNat)
  | .ldlx w => some (sWord w 0x4B 0)
  | .stlx w => some (sWord w 0x4C 0)
  | .give w k => some (sWord w 0x4D k.toNat)
  | .claim w k => some (sWord w 0x4E k.toNat)
  | .rsr w r => some (lWord w 0x100 r.id)
  | .wsr w r => some (lWord w 0x101 r.id)
  | .wsrTstat w => some (lWord w 0x101 0x000)
  | .wsrTkstat w => some (lWord w 0x101 0x002)
  | .wsrEfh w => some (lWord w 0x101 0x046)
  | .wsrSsbase w => some (lWord w 0x101 0x081)
  | .wsrPtb w => some (lWord w 0x101 0x082)
  | .wsrAsidx w => some (lWord w 0x101 0x083)
  | .wsrCutdl w => some (lWord w 0x101 0x084)
  | .br w off => some (lWord w 0x000 off.toNat)
  | .brz w off => some (lWord w 0x001 off.toNat)
  | .brnz w off => some (lWord w 0x002 off.toNat)
  | .call w off => some (lWord w 0x003 off.toNat)
  | .meet w off => some (lWord w 0x004 off.toNat)
  | .ret w => some (sWord w 0x4F 0)
  | .exit w => some (sWord w 0x50 0)
  | .brx w => some (sWord w 0x51 0)
  | .callx w => some (sWord w 0x52 0)
  | .join w d => some (sWord w 0x53 d.toNat)
  | .yield w => some (sWord w 0x54 0)
  | .prio w n => some (sWord w 0x55 n.toNat)
  | .ld w wt off => some (lWord w 0x020 (lM 0 wt.code off))
  | .st w wt off => some (lWord w 0x021 (lM 0 wt.code off))
  | .ld2 w off => some (lWord w 0x022 (lM 0 6 off))
  | .st2 w off => some (lWord w 0x023 (lM 0 6 off))
  | .lds w sc wt off => some (lWord w 0x024 (lM sc.code wt.code off))
  | .ldsAcq w sc wt off => some (lWord w 0x025 (lM sc.code wt.code off))
  | .sts w sc wt off => some (lWord w 0x026 (lM sc.code wt.code off))
  | .stsRel w sc wt off => some (lWord w 0x027 (lM sc.code wt.code off))
  | .phase w sc => some (lWord w 0x028 (lM sc.code 0 0))
  | .phaseP w sc => some (lWord w 0x028 (lM sc.code 1 0))
  | .phaseO w sc => some (lWord w 0x028 (lM sc.code 2 0))
  | .icinv w sc => some (lWord w 0x029 (lM sc.code 0 0))
  | .pref w lvl off => some (lWord w 0x02A (lM 0 lvl.code off))
  | .atomAdd w o sc wt off => some (atomWord w 0x040 .add o sc wt off)
  | .atomAnd w o sc wt off => some (atomWord w 0x040 .and o sc wt off)
  | .atomOr w o sc wt off => some (atomWord w 0x040 .or o sc wt off)
  | .atomXor w o sc wt off => some (atomWord w 0x040 .xor o sc wt off)
  | .atomMinS w o sc wt off => some (atomWord w 0x040 .minS o sc wt off)
  | .atomMinN w o sc wt off => some (atomWord w 0x040 .minN o sc wt off)
  | .atomMaxS w o sc wt off => some (atomWord w 0x040 .maxS o sc wt off)
  | .atomMaxN w o sc wt off => some (atomWord w 0x040 .maxN o sc wt off)
  | .atomXchg w o sc wt off => some (atomWord w 0x040 .xchg o sc wt off)
  | .atomFadd w o sc off => some (atomWord w 0x040 .fadd o sc .w32 off)
  | .atomFmin w o sc off => some (atomWord w 0x040 .fmin o sc .w32 off)
  | .atomFmax w o sc off => some (atomWord w 0x040 .fmax o sc .w32 off)
  | .cas w o sc wt off => some (atomWord w 0x040 .cas o sc wt off)
  | .redAdd w o sc wt off => some (atomWord w 0x080 .add o sc wt off)
  | .redAnd w o sc wt off => some (atomWord w 0x080 .and o sc wt off)
  | .redOr w o sc wt off => some (atomWord w 0x080 .or o sc wt off)
  | .redXor w o sc wt off => some (atomWord w 0x080 .xor o sc wt off)
  | .redMinS w o sc wt off => some (atomWord w 0x080 .minS o sc wt off)
  | .redMinN w o sc wt off => some (atomWord w 0x080 .minN o sc wt off)
  | .redMaxS w o sc wt off => some (atomWord w 0x080 .maxS o sc wt off)
  | .redMaxN w o sc wt off => some (atomWord w 0x080 .maxN o sc wt off)
  | .redFadd w o sc off => some (atomWord w 0x080 .fadd o sc .w32 off)
  | .redFmin w o sc off => some (atomWord w 0x080 .fmin o sc .w32 off)
  | .redFmax w o sc off => some (atomWord w 0x080 .fmax o sc .w32 off)
  | .mwait w => some (sWord w 0x60 0)
  | .unassignedEncoding e => some e
  | .spawn w => some (lWord w 0x140 0)
  | .spawnw w => some (lWord w 0x141 0)
  | .talloc w => some (lWord w 0x110 0)
  | .tfree w => some (lWord w 0x111 0)
  | .tdef w => some (lWord w 0x112 0)
  | .tget w i => some (lWord w 0x113 i.toNat)
  | .tset w i => some (lWord w 0x114 i.toNat)
  | .atomt w p o => some (lWord w 0x115 (p.code * 16384 + o.code * 4096))
  | .tfill w => some (lWord w 0x116 0)
  | .tcol w all p => some (lWord w 0x117 ((boolCode all * 8 + p.code) * 4096))
  | .tcopy w => some (lWord w 0x118 0)
  | .ldt w => some (sWord w 0x5E 0)
  | .stt w => some (sWord w 0x5F 0)
  | .cpy w fo stg nb st dt =>
    some (lWord w (0x180 + st.toNat / 16)
      (boolCode fo * 131072 + stg.toNat * 32768 + boolCode nb * 16384 + dt.toNat * 16 + st.toNat % 16))
  | .cpyl w => some (lWord w 0x120 0)
  | .cinit w c => some (lWord w 0x121 c.toNat)
  | .cwait w c => some (lWord w 0x122 c.toNat)
  | .seal w n => some (sWord w 0x61 n.toNat)
  | .waitb w n => some (sWord w 0x62 n.toNat)
  | .barinit w sc b => some (lWord w 0x123 (sc.code * 4096 + b.toNat))
  | .bar w b => some (sWord w 0x63 b.toNat)
  | .bara w b => some (sWord w 0x64 b.toNat)
  | .barw w b => some (sWord w 0x65 b.toNat)
  | .rowres w n => some (lWord w 0x130 n.toNat)
  | .suspend w n => some (lWord w 0x131 n.toNat)
  | .suspendk w n => some (lWord w 0x132 n.toNat)
  | .wakeRow w => some (lWord w 0x133 0)
  | .wakeSite w n => some (lWord w 0x133 (4096 + n.toNat))
  | .wakeThr w => some (lWord w 0x133 8192)
  | .flush w n => some (lWord w 0x134 n.toNat)
  | .mm w a f t => some (lWord w 0x190 (mmF a f t))
  | .mms w a f t => some (lWord w 0x191 (mmF a f t))
  | .mmstage w a p t k => some (lWord w 0x192 (mmF a p t + k.toNat))
  | .mmflag w k => some (lWord w 0x193 k.toNat)
  | .mmflagDrop w k => some (lWord w 0x193 (4096 + k.toNat))
  | .tlbinvPage w => some (lWord w 0x104 0)
  | .tlbinvSpace w => some (lWord w 0x104 4096)
  | .tlbinvVf w => some (lWord w 0x104 8192)
  | .tlbinvSplit w => some (lWord w 0x104 12288)
  | .replay w => some (lWord w 0x105 0)
  | .syscall w c => some (lWord w 0x102 c.toNat)
  | .hcall w c => some (lWord w 0x103 c.toNat)
  | .brk w => some (sWord w 0x59 0)
  | .sret w => some (sWord w 0x5A 0)
  | .hret w => some (sWord w 0x5B 0)
  | .tfld w n => some (sWord w 0x5C n.toNat)
  | .tfst w n => some (sWord w 0x5D n.toNat)
  | .qpoint w => some (sWord w 0x56 0)
  | .waitgp w => some (sWord w 0x57 0)
  | .defer w => some (sWord w 0x58 0)
  | .claimGrant _ _ | .mwaitWake _ _ | .trackedResultArrival _ _ | .refill _ _ | .spawnWaitWake _ _ _
  | .taskPlacement _ _ | .waveFormation _ _ | .taskRetire _ | .tearDown _ _ _ | .bankOperationComplete _ _
  | .copySlotGrant _ | .copyRequestIssue _ _ _ | .copyRequestComplete _ _ _ | .frameAgeExpiry _ _ _
  | .resumeLoad _ _ _ _ | .matrixQueueGrant _ | .gateEntryGrant _ | .gatedCommandEntry _ _
  | .stagedCommandEntry _ _ | .matrixCommandStart _ | .multicastWindowExpiry _ | .matrixCommandComplete _
  | .fbstatPop _ | .fbstatDroppedClear _ | .frplay _ _ | .trapEntry _ _ | .gracePeriodBegin _ _
  | .gracePeriodComplete _ _ | .wheyDelivery _ _ | .cutArrival _ _ _ | .cutDeadline _ _ _ | .waveSave _ _
  | .waveRestore _ _ _ _ _ | .clockRatioChange _ _ | .controlIntervalEnd _ _ _ | .launchPacket _
  | .copyPacket _ _ | .signalPacket _ | .waitPacket _ | .waitConditionMet _ | .splicePacket _
  | .quiescePacket _ | .nopPacket _ | .invalidPacket _ | .packetCompletion _ _ _ | .kick _ _ | .schedulerTick
  | .takeEnd | .contextCreate _ _ _ | .wheelOpen _ _ _ _ | .wheelClose _ | .nvmeTimeout _ _ _
  | .thermalEvent _ _ | .eventClear _ _ | .functionLevelReset _ | .flit _ _ _ | .linkDown _ | .deviceReset
  | .attestationReport _ _ | .machineCheck _ _ | .virtualFunctionEnable _ _ _ | .reelRegistration _ _ _ _ _ => none

/-- The instruction in memory whose bits are `w`, numbered as the opcode table numbers them: the whole
instruction is one number whose bit 0 is its least significant bit, so the first halfword stands in its top bits
(R38). Halfwords beyond the given bits are zero. DEDUCED: log entry 8. -/
def tableBytes (nbits w : Nat) : List Byte :=
  let e : List Byte :=
    if nbits ≤ 16 then Enc.bytes (.s (BitVec.ofNat 16 w))
    else if nbits ≤ 32 then Enc.bytes (.l (BitVec.ofNat 32 w))
    else Enc.bytes (.x (BitVec.ofNat 48 w))
  e ++ List.replicate (6 - e.length) 0#8

/-- What the decoder reads from an instruction whose bits are `w`. -/
def decodeTableWord (nbits w : Nat) : Option Instr :=
  match decode (tableBytes nbits w) with
  | .ok (i, _) => some i
  | .error _ => none

end Sys2Proof
end

