-- ==== Sys2Proof/Config.lean ====
section
/-! DEFINITION. What the specification leaves open. Every constant here is opaque: no body can be seen, so no
proof can lean on a particular value, and a statement about the model holds whatever it is. -/

namespace Sys2Proof.Config

/-- The free values (R8): the n-th open choice of a run. The model reduces it to the number of outcomes the rule
lists. -/
opaque freeNat : Nat → Nat

/-- Whether a walk, or another read by an agent of the device, misses a write that is not yet visible to it (R289, R321): the
read, the write, and the byte where it is missed byte by byte (R155). -/
opaque missed : Nat → Nat → Nat → Bool

/-- The approximations of R109, on F32 bits after the input flush of R31; the flag is `FCTL.FZRS`. Only the
outcomes of R110 are fixed, and the model fixes them itself. -/
opaque rcpApprox : Bool → BitVec 32 → BitVec 32
opaque rsqApprox : Bool → BitVec 32 → BitVec 32
opaque exp2Approx : Bool → BitVec 32 → BitVec 32
opaque log2Approx : Bool → BitVec 32 → BitVec 32

/-- The public keys that the monitor trusts for a virtual function (R375), 57 bytes each. -/
opaque trustedKeys : Nat → List (List Byte)
/-- The secret key of the device identity (R387), 57 bytes. -/
opaque identityKey : List Byte
/-- The images that are verified at bring-up, in the order of R386. -/
opaque images : List (List Byte)
/-- Every image that the boot ROM and the monitor verify passes (R367, R386). -/
opaque imagesVerified : Bool
/-- The drives and namespaces that bring-up finds usable (R370): drive, namespace. -/
opaque nsPresent : Nat → Nat → Bool

-- What the firmware and the monitor decide (R317, R336, R366, R367, R378, R382): by cluster, or by virtual function.
opaque clusterBudget : Nat → Nat
opaque clusterPeak : Nat → Nat
opaque vfGrant : Nat → List (Nat × Nat)
opaque vfExports : Nat → List (Nat × Nat × Nat)
opaque vfRoot : Nat → Word
opaque vfQuantum : Nat → Nat
opaque vfShare : Nat → Nat → Nat
opaque vfCopyCap : Nat → Nat
opaque clusterCellCap : Nat → Nat
opaque clusterRefreshCap : Nat → Nat
opaque clusterRegCap : Nat → Nat
opaque vfTrapCap : Nat → Nat
/-- The device number that bring-up sets, reduced to 0 to 191 (R385, R386). -/
opaque deviceNumber : Nat
/-- The windows of this device's HBM that its firmware exports to a device: base, length (R317). -/
opaque deviceExports : Nat → List (Nat × Nat)

end Sys2Proof.Config
end

