-- ==== Sys2Proof/Machine/State.lean ====
section
/-! DEFINITION. The state of one OLZ-576 module, as plain data. Every collection is a list of pairs sorted by key
(`Map`), and a key that is not listed stands for "none" or for the record's default. -/

namespace Sys2Proof.Machine

/-- A finite map: keys strictly rising. -/
abbrev Map (α : Type) := List (Nat × α)

/-- Why a step stops with a fault. -/
inductive Fault where
  /-- Raised by `finish` when the machine addressed HBM at or above 512 GiB (R9), which only a mode-area base
  (`HSBASE`, `SSBASE`: R340, R341) can do. Safe: the specification gives such an access no effect. -/
  | noMemory (pa : Nat)
  deriving DecidableEq, Repr

/-- Why a step is refused. -/
inductive Refusal where
  /-- Raised by an arm of `exec` that has no meaning yet. Safe: nothing is claimed of it. -/
  | notModelled (mnemonic : String)
  deriving DecidableEq, Repr

/-- Privilege modes (R336). -/
inductive Mode where
  | u | s | h
  deriving DecidableEq, Repr

/-- Interlock modes (R51). -/
inductive Ilk where
  | trust | check | lock
  deriving DecidableEq, Repr

/-- A stack entry or a slot: value, slice cycle from which it is ready (R49), presence bit clear (R50), PC of its
producer (R53), the releases on which it depends (R291), and whether it comes from a load or an atomic. -/
structure Entry where
  val   : Word := 0
  ready : Nat := 0
  pend  : Bool := false
  src   : Nat := 0
  deps  : List Nat := []
  acc   : Bool := false          -- the result of a load or an atomic, whose arrival R301 waits for
  soft  : Bool := false          -- its place in a stack block, or in the trap reserve, has a persistent parity error (R351)
  deriving DecidableEq, Repr

/-- A value that a position has held or that a thread left in a block (R52, R121), with the releases on which it depends
(R291). -/
structure Left where
  val  : Word
  deps : List Nat := []
  deriving DecidableEq, Repr

/-- `TSTAT` (R129), by field. -/
structure TStat where
  tlvl : Nat := 0
  cute : Bool := false
  dzt  : Bool := false
  dz   : Bool := false
  prb  : Bool := false
  prbm : Bool := false
  ilk  : Ilk := .trust
  mode : Mode := .u
  deriving DecidableEq, Repr

/-- A saved (`MPC`, D0, group) entry of a meeting chain (R132). -/
structure Meet where
  mpc   : Word
  d0    : Nat
  group : Option Nat
  rel   : Bool := false          -- that group was released with this thread held
  deriving DecidableEq, Repr

/-- Link chain and meeting state of one thread in one mode (R132). `group` is none for a thread that belongs to no
open group, that is gone from it, or whose group was released (R141). -/
structure Chain where
  links : List Word := []
  mpc   : Word := BitVec.allOnes 64
  d0    : Nat := 0
  group : Option Nat := none
  rel   : Bool := false          -- the group was released with this thread held (R142)
  outer : List Meet := []
  deriving DecidableEq, Repr

/-- One request of a `cpyl` list, or the operands of a `cpy` (R232, R236). -/
structure CopyReq where
  srow : Nat
  scol : Nat
  drow : Nat
  dcol : Nat
  stid : Nat
  dtid : Nat
  ctr  : Nat
  fo   : Bool
  stg  : Nat
  nb   : Bool
  deriving DecidableEq, Repr

/-- In what a lane waits, with its PC at the instruction (R134, R141, R178, R324). -/
inductive Wait where
  | none
  | claim (k : Nat)
  | cwait (c : Nat)
  | bar (b phase : Nat)
  | barw (b phase : Nat)
  | waitb (n : Nat)
  | mwait (line : Nat) (since : Nat)
  | waitgp (t : Nat)
  | whey
  | copySlot (i : Instr) (rest : List CopyReq) (begun : Bool)
  | mQueue (i : Instr)
  | gate (i : Instr)
  | stage (k : Nat)
  | reel                         -- for a producer that is slow to publish a segment (R369)
  | results
  | bin                          -- for the earlier wakes of its wave (R264)
  | tensor (tid : Nat)
  | frameEdit (tid : Nat)
  | parked
  | stopped
  deriving DecidableEq, Repr

/-- One thread on a lane of a wave. -/
structure Lane where
  thx    : Nat
  pc     : Word
  chip   : List Entry := []      -- entries on chip, top first (R81)
  g      : Nat := 0              -- entries in backing store (R81)
  hchip  : List Entry := []      -- the current handler's stack (R342)
  hg     : Nat := 0
  frame  : List Entry := []      -- level-1 trap frame, 8 slots (R343)
  ts     : TStat := {}
  fctl   : Word := 0
  chU    : Chain := {}
  chS    : Chain := {}
  chH    : Chain := {}
  epc    : Word := 0
  estat  : Word := 0
  ecg    : Word := 0
  edw0   : Word := 0
  edw1   : Word := 0
  edw2   : Word := 0
  efh    : Nat := 0
  bases  : List Nat := []        -- bases of the mode areas of its trap levels, innermost first (R340)
  watch  : Option (Nat × Nat) := none   -- line, and the writes before it (R166)
  openSet : List Nat := []       -- copies (R240)
  batches : Map (List Nat) := []
  tokens : Map Nat := []         -- barrier, phase of the last `bara` (R243)
  resv   : Option (Nat × Nat) := none   -- frame row reserved (R252)
  qg     : Nat := 0              -- R299
  passive : Bool := false        -- R300
  wait   : Wait := .none
  during : Option Instr := none  -- the instruction in which it waits: its next PC lies behind it (R134)
  stamp  : Nat := 0              -- order of issue of the waiting instruction
  next   : Nat := 0              -- slice cycle of the next issue (R48)
  view   : Map Nat := []         -- byte, the newest write the thread must respect (R287)
  seen   : Map Nat := []         -- byte, the newest write it has read (R285)
  ord    : Nat := 0              -- the point of its last boundary: writes and releases with a lower number came before it
  past   : Map (List Left) := []    -- prior occupants, with what they depend on, by `Lane.posKey`, or 2 × slot + 1 (R52)
  under  : Map (List Nat) := []  -- what entries in backing store and records depend on (R291), by `Lane.posKey`
  integ  : Option Cause := none  -- a refill met poison or an error (R87)
  cutDue : Bool := false         -- a CUT trap is pending (R180)
  deriving DecidableEq, Repr

/-- A wave on a wave place (R171). -/
structure Wave where
  uid    : Nat                   -- identity of the wave, kept over saves
  task   : Nat
  num    : Nat
  sb     : Nat
  nlb    : Nat
  slots  : Map Entry := []       -- slot n of lane l at 32 × n + l; unlisted: zero-filled
  was    : Map Left := []   -- what its task last wrote in blocks it was granted, before the grant (R121)
  cls    : Nat := 0              -- own class (R174)
  age    : Nat := 0
  floorPc : Nat := 0             -- R134
  run    : Nat := 0
  last   : List Nat := []        -- lanes of the strand of the last turn
  stall  : Nat := 0              -- the wave issues nothing before this slice cycle (R86)
  pauses : List (Nat × Nat) := []        -- slice cycles, from and until, in which it will issue nothing (R344)
  copies : List Nat := []        -- copies the wave has issued (R242, R271)
  deriving DecidableEq, Repr

/-- An operand box or array line that a copy moves in one request (R237). -/
inductive ReqKind where
  | elem | scale | zpt | map
  deriving DecidableEq, Repr

structure Req where
  id    : Nat
  kind  : ReqKind
  line  : Nat                    -- the line's number in the destination (or source) array
  issued : Bool := false
  done  : Bool := false
  pair  : Option Nat := none     -- the NVMe queue pair that carries its command (R370)
  part  : Nat := 0               -- bits it has counted down
  stamp : Nat := 0               -- when it parked, or was released and kept back: the order of such requests (R237)
  deriving DecidableEq, Repr

/-- A flash block as a copy has read it: its bytes, and its poisoned lines; true: by a failed tag (R377). -/
structure Block where
  bytes  : List Byte
  spoilt : Map Bool := []
  deriving DecidableEq, Repr

/-- A copy in a copy slot (R227). -/
structure Copy where
  id    : Nat
  task  : Option Nat             -- none: made by a COPY packet
  vf    : Nat
  asid  : Nat
  user  : Bool                   -- issued in U mode
  hyp   : Bool                   -- issued in H mode
  src   : List Word              -- tensor entries as they were at issue (R226)
  dst   : List Word
  stid  : Nat
  dtid  : Nat
  srow  : Nat
  scol  : Nat
  drow  : Nat
  dcol  : Nat
  rows  : Nat                    -- the box (R229)
  cols  : Nat
  ctr   : Option Nat
  reqs  : List Req
  counted : Nat := 0             -- bytes counted down so far (R234)
  failed : Option Nat := none    -- reason of the first failure (R237)
  packet : Option (Nat × Nat × Nat) := none   -- VF, reel, index
  wrote : Map Nat := []          -- the writes it has made, by byte
  floor : Map Nat := []          -- what its reads must respect (R233)
  blocks : Map Block := []       -- flash blocks as it has read them, whole (R377)
  out   : Map (Byte × Nat) := [] -- bytes gathered for flash, by place; 1, 2: of poison, of a failed tag; 4 more: of an element (R371, R377)
  deriving DecidableEq, Repr

/-- A copy that has landed: what it wrote, for `waitb` (R241), and its failure, for what it gates (R242). -/
structure Landed where
  wrote : Map Nat := []
  failed : Option Nat := none
  slice : Nat := 0               -- where it landed, and the slice cycle of its landing
  at_   : Nat := 0
  deriving DecidableEq, Repr

/-- A matrix command (R267, R271, R275). -/
structure MCmd where
  id    : Nat
  task  : Nat
  thx   : Nat
  sparse : Bool                  -- `mms`
  acc   : Bool
  tag   : Nat
  ta    : Nat
  tb    : Nat
  tc    : Nat
  ctr   : Nat
  fzim  : Bool
  fzrm  : Bool
  who   : Nat                    -- author: 32 × wave identity + lane of E
  gates : List Nat := []         -- copies that must land first
  running : Bool := false
  ready : Nat := 0               -- cluster cycle at which the window ends
  windowed : Bool := false
  due   : Nat := 0               -- slice cycle at which the body has ended (R270)
  until_ : Nat := 0              -- cluster cycle before which it does not complete
  mates : List (Nat × Nat) := [] -- slices of the commands that started with it, and their identities (R272)
  amount : Nat := 0              -- what its counter counts down by (R273)
  floor : Map Nat := []          -- what its reads must respect (R274)
  pub   : Map Nat := []          -- the writes to C that its fall makes visible
  bad   : Option (Nat × Bool) := none    -- R273: reason 16 or 18; a failed tag
  sati  : Bool := false
  deriving DecidableEq, Repr

/-- A staging slot: its command, and the copy that binds it (R275). -/
structure Stage where
  cmd  : MCmd
  copy : Option Nat := none
  gates : List Nat := []         -- the copies that the wave issued before it (R242)
  deriving DecidableEq, Repr

/-- A cached translation (R320): address space, first virtual page (64 KiB), pages, middle index entry only or a
leaf, the table entry, and the level of the entry. -/
structure TlbEnt where
  space : Nat
  page  : Nat
  npg   : Nat
  level : Nat                    -- 1: a middle entry, 2: a leaf
  ent   : Word
  deriving DecidableEq, Repr

/-- A slot-block pool of one task on one slice, block by block, with the values left in it (R120, R121) and what they depend
on (R291). -/
abbrev Pool := List (Map Left)

structure Slice where
  cycle  : Nat
  ratio  : Nat := 0              -- R179
  last0  : Option Nat := none    -- wave place chosen last by each port (R174)
  last1  : Option Nat := none
  lsu    : List Nat := []        -- cycles in which requests hold the load-store port (R148)
  pools  : Map Pool := []
  copies : List Copy := []
  replay : List (Nat × Nat) := []        -- copy, request: parking order (R237)
  held   : Option (Nat × Nat) := none
  again  : List (Nat × Nat) := []        -- requests that a replay has released and a spent budget keeps back (R228)
  mq     : List MCmd := []
  gates  : List MCmd := []
  stages : Map Stage := []
  accBy  : Option Nat := none    -- task that holds the accumulator buffers (R195)
  tlb    : List TlbEnt := []
  thermal : Nat := 0             -- thermal code (R383)
  slow   : Bool := false         -- the cluster exceeded its peak in the last interval (R379)
  deriving DecidableEq, Repr

structure Cluster where
  budget : Nat := 0              -- nJ per interval (R378)
  peak   : Nat := 0              -- units of 10 mA
  intv   : Nat := 0              -- R382
  since  : Nat := 0              -- the cluster cycle in which its interval began (R16)
  owedE  : Nat := 0              -- charges of retired tasks, in eighths, until the next interval (R205)
  owedI  : Nat := 0
  cellCap : Nat := 0             -- cellar bytes per interval (R382)
  refreshCap : Nat := 0          -- HBM refresh and scrub slots per interval
  regCap : Nat := 0              -- firmware register accesses per interval
  refresh : Nat := 0             -- refresh and scrub slots used in the last interval
  regs   : Nat := 0              -- register accesses made in this interval
  hold   : List Nat := []        -- the launches for whose next task freed budget is kept (R380)
  deriving DecidableEq, Repr

/-- A fault record (R326). -/
structure FaultRec where
  space  : Nat
  page   : Nat
  lanes  : Nat
  eng    : Bool
  slice  : Nat
  reason : Nat
  level  : Nat
  kinds  : Nat
  deriving DecidableEq, Repr

structure Sector where
  recs    : List FaultRec := []  -- oldest first (R327)
  dropped : Bool := false
  tlb     : List TlbEnt := []
  deriving DecidableEq, Repr

/-- A counter (R238), the writes counted by the parts that have fallen (R293), and by issuing thread those of matrix
commands (R274). -/
structure Counter where
  val : Int := 0
  status : Nat := 0
  pub : Map Nat := []
  own : Map (Map Nat) := []
  deriving DecidableEq, Repr

structure Barrier where
  n     : Nat := 0
  a     : Nat := 0
  phase : Nat := 0
  scope : Scope := .cluster
  deriving DecidableEq, Repr

/-- The record of an occupied frame row (R260), its grace state (R302) and the cluster cycle of its suspend. -/
structure RowRec where
  thx  : Nat
  fctl : Word
  ts   : TStat
  since : Nat
  qg   : Nat
  kept : Bool                    -- written by `suspendk`
  stall : Nat := 0               -- what its stall count asks of the first instruction after the resume (R48)
  seen : Map Nat := []           -- of the thread (R285)
  view : Map Nat := []           -- of the thread (R287), for the commands that it has staged (R275)
  past : Map (List Left) := []      -- of the thread (R52)
  floor : Map Nat := []          -- the row's own writes, and what was visible when it was made ready (R261)
  aged : Bool := false           -- its age limit has passed, and its tile has been flushed (R257)
  deps : List (List Nat) := []
  deriving DecidableEq, Repr

/-- What a mode area holds of one trap level (R341): the backing of its handler's stack and, from level 2 on, its record; and
which of these lines are poisoned. -/
structure Area where
  level  : Nat
  bytes  : List Byte
  spoilt : Map Bool := []
  deriving DecidableEq, Repr

/-- A lane at the spawn-wait site (R202), whose `next` counts from its wake, with the moment of its suspension and its mode areas. -/
structure SpawnLane where
  lane : Lane
  reel : Nat
  since : Nat := 0               -- pushes onto the pool count from this write on
  areas : List Area := []
  deriving DecidableEq, Repr

/-- A pre-translated extent (R198): first page, whether it serves writes, the place of each page, and the level of the entry that
maps it (R330). -/
structure Extent where
  page  : Nat
  w     : Bool
  frames : List Nat
  levels : List Nat := []
  deriving DecidableEq, Repr

/-- An operation of the cluster's bank engines (R224). `mask` holds the rows of an edit: for `.all`, those occupied
when it reached the banks. -/
inductive BankKind where
  | fill (v : Word) | col (all : Bool) (op : TColOp) (v mask : Word) (c : Nat) | move (src : Nat)
  deriving DecidableEq, Repr

/-- `who` is the author of its writes: 32 × wave identity + lane. -/
structure BankOp where
  id    : Nat
  tid   : Nat
  kind  : BankKind
  slice : Nat
  who   : Nat
  deriving DecidableEq, Repr

structure Task where
  launch : Nat
  taskx  : Nat
  vf     : Nat
  asid   : Nat
  nth    : Nat
  argp   : Word
  entry  : Word
  depth  : Nat
  sb     : Nat
  slots  : Nat
  prio   : Nat
  ilk    : Ilk
  members : List Nat
  acc    : Bool
  scratch : Nat                  -- first byte of the reservation in its cluster (R213)
  nscratch : Nat                 -- its length in bytes
  nctr   : Nat
  nbar   : Nat
  energy : Nat
  current : Nat
  back   : Word                  -- B (R82)
  roles  : List (Nat × Nat)      -- FIRST, COUNT
  extents : List Extent
  formed : Nat := 0              -- waves formed (R197)
  counters : Map Counter := []
  barriers : Map Barrier := []
  tens   : Map (List Word) := [] -- tids 128 to 255, eight words each (R208)
  rows   : Map RowRec := []      -- frame rows, at 64 × tid + row
  due    : Map Nat := []         -- tile, rows covered by a flush
  dueAt  : Map Nat := []         -- tile, cluster cycle in which its resume fell due (R258)
  before : Map (Nat × Nat × Nat) := []   -- tile, cycle of a change of THR or AGE, and the two as they were (R249)
  satf   : Bool := false
  sati   : Bool := false
  arm    : Bool := false
  spawned : List SpawnLane := []
  woken  : List SpawnLane := []  -- spawn-wait lanes that have been woken
  banks  : List BankOp := []
  tcode  : Nat := 0              -- R378
  draw   : Nat := 0              -- D of the last interval
  calm   : Nat := 0              -- intervals in a row with low draw (R379)
  trickle : Bool := false        -- R381
  lent : Bool := false           -- a borrower's charge counts as 0 (R380)
  deriving DecidableEq, Repr

structure Launch where
  vf     : Nat
  asid   : Nat
  slate  : Nat
  argp   : Word
  ntask  : Nat
  depth  : Nat
  rnum   : Nat
  idx    : Nat
  next   : Nat := 0
  retired : Nat := 0
  checked : Bool := false
  words  : List Word := []       -- the slate as read (R186)
  frames : List (List Word) := []
  since  : Nat := 0              -- the write that enqueued it: later changes of its slate may or may not count (R186)
  deriving DecidableEq, Repr

structure Whey where
  addr : Word
  size : Word
  list : Word
  gen  : Nat
  deriving DecidableEq, Repr

/-- A saved wave (R182, R183): the wave, its lanes, and the slice it was saved from. One without lanes holds engine state of
the context on the slice that belongs to no wave left. -/
structure Saved where
  wave  : Wave
  lanes : Map Lane
  slice : Nat
  areas : Map (List Area) := []  -- the mode areas of its lanes (R353)
  copies : List Copy := []       -- the engine state of the wave (R183)
  replay : List (Nat × Nat) := []
  held   : Option (Nat × Nat) := none
  again  : List (Nat × Nat) := []
  gates  : List MCmd := []
  stages : Map Stage := []
  deriving DecidableEq, Repr

/-- A context: one ASID of one virtual function. -/
structure Ctx where
  root   : Word := 0             -- `PTB` (R322)
  fmTrap : Bool := false         -- `ASIDX.FM` (R323)
  stvec  : Word := 0
  ssbase : Word := 0
  cutdl  : Nat := 65536          -- R181
  tens   : Map (List Word) := [] -- tids 0 to 127
  gBegun : Nat := 0              -- G (R299)
  gDone  : Nat := 0              -- D
  whey   : List Whey := []
  wheyHeld : Bool := false
  thr    : Option Cause := none  -- posted context causes (R352)
  dead   : Option Cause := none
  mc     : Option Cause := none
  cut    : Bool := false         -- a cut is raised (R180)
  arrived : Map Nat := []        -- slices it has reached, with the slice cycle of the deadline
  saved  : List Saved := []
  boost  : Bool := false         -- it had a grace boost when the take began, and is restored first (R303, R366)
  torn   : Bool := false
  deriving DecidableEq, Repr

structure Vf where
  htvec  : Word := 0
  hsbase : Word := 0
  tdeleg : Word := 0x777FE#64
  hroot  : Word := 0             -- hypervisor root (R336)
  grant  : List (Nat × Nat) := []        -- ranges of HBM: base, length (R317)
  exports : List (Nat × Nat × Nat) := [] -- windows: device, base, length
  quantum : Nat := 0             -- µs per take (R366)
  share  : Map Nat := []         -- nJ per interval, by cluster (R378)
  event  : Nat := 0              -- EVENT (R384)
  thermal : Bool := false        -- VFSTAT.THERMAL
  copyCap : Nat := 0             -- bytes per interval (R382)
  trapCap : Nat := 0
  left   : Nat := 0              -- cluster cycle in which its last take ended: ages stand still from then on (R262)
  msix   : List Nat := []        -- vectors raised
  keys   : List (List Byte) := []        -- public keys that the monitor trusts for it (R375)
  reports : List (List Byte) := []       -- attestation reports made (R387)
  deriving DecidableEq, Repr

/-- A registered reel (R358, R363) with its queue control block (R364). -/
structure Reel where
  vf     : Nat
  asid   : Nat
  rnum   : Nat
  header : Nat
  prio   : Nat
  head   : Nat := 0              -- copy of HEAD
  slot   : Option Nat := none
  pending : Bool := false        -- R363
  since  : Nat := 0              -- µs at which AGE counts from
  eff    : Nat := 0              -- R365
  waitOn : Option (Nat × Word × Bool) := none  -- WAIT pending: address, value, at-least
  infl   : Map Word := []        -- indices started and not complete, with their CMPL
  results : Map Nat := []        -- of packets that have completed, until reported
  barrier : Bool := false        -- BARRIER pending
  seg    : Nat := 0              -- the segment that holds HEAD, from segment 1 on, and its number
  segNo  : Nat := 0
  quiesce : Option Nat := none   -- a QUIESCE that has started
  waitPkt : List Word := []      -- body of a pending WAIT (R364)
  block  : List Byte := []       -- its queue control block, as the scheduler last saved it
  deriving DecidableEq, Repr

structure Wheel where
  drive : Nat
  ns    : Nat
  base  : Nat
  nseg  : Nat
  wkey  : List Byte
  closing : Bool := false
  deriving DecidableEq, Repr

/-- What is posted to the firmware (R308, R327, R363, R383). -/
inductive Note where
  | faultRecord (sector : Nat) | dropped (sector : Nat) | wheyDiscarded (vf asid : Nat)
  | thermal (code : Nat) | kick (vf rnum : Nat) | contextCause (vf asid : Nat)
  deriving DecidableEq, Repr

/-- A write in the location order (R285): its bytes before and after, its kind and author. -/
structure WriteRec where
  id    : Nat
  addr  : Nat
  old   : List Byte
  new   : List Byte
  slice : Nat
  who   : Nat                    -- author: 32 × wave identity + lane, or 0 for an engine
  strong : Option Scope          -- strong store or atomic, at this scope
  rel   : Option Nat             -- the release it is, if any
  point : Nat                    -- the point at which an atomic executed (R160)
  deriving DecidableEq, Repr

/-- A release (R286): where it was made, its scope, and what it publishes. What an engine makes visible at a scope is
kept in the same form: a boundary of any scope takes it in (R287). -/
structure RelRec where
  id    : Nat
  engine : Bool := false
  slice : Nat
  scope : Scope
  pub   : Map Nat
  deriving DecidableEq, Repr

/-- An invalidation of instruction caches (R158): fetches of the address space by slices inside the scope return no
write older than the view. -/
structure IcRec where
  slice : Nat
  scope : Scope
  space : Nat
  view  : Map Nat
  deriving DecidableEq, Repr

/-- The strand that issues (R134): slice, wave place, active lanes. -/
structure Iss where
  slice : Nat := 0
  place : Nat := 0
  lanes : List Nat := []
  late  : Bool := false          -- it drains first, and issues 4 cycles later (R86)
  deriving DecidableEq, Repr

/-- The machine. -/
structure State where
  -- memory of every space, newest values, in canonical form
  mem      : List Host.Cell := []
  poison   : Map Bool := []      -- poisoned lines; true: written by a failed tag (R351)
  ecc      : Map Unit := []      -- lines with an uncorrectable error (R152)
  parity   : Map Unit := []      -- slot-file and trap-reserve entries with a persistent parity error (R351): `softKey`
  log      : List WriteRec := [] -- newest first
  rels     : List RelRec := []   -- newest first
  icinvs   : List IcRec := []
  landed   : Map Landed := []    -- copies that have landed
  -- units
  lanes    : Map Lane := []
  waves    : Map Wave := []
  slices   : Map Slice := []
  clusters : Map Cluster := []
  sectors  : Map Sector := []
  dieTlbs  : Map (List TlbEnt) := []
  dieHot   : Map Nat := []       -- thermal code of a die (R383)
  stackHot : Map Nat := []       -- HBM stacks above their limit
  -- software objects
  tasks    : Map Task := []
  launches : Map Launch := []
  ctxs     : Map Ctx := []
  vfs      : Map Vf := []
  reels    : Map Reel := []
  wheels   : Map Wheel := []
  budget   : Map (Nat × Nat × Nat) := [] -- spent in this interval: copy, cellar, trap (R382)
  -- device
  ready    : Bool := false       -- READY (R384, R386)
  device   : Nat := 0            -- device number (R386)
  linksDown : Map Unit := []     -- R385
  retries  : Map Nat := []
  take     : Option Nat := none  -- the virtual function that holds the take (R366)
  ending   : Bool := false       -- the take has ended, and its cuts are not complete
  lastTake : Nat := 15           -- the one that had it last
  takeAt   : Nat := 0            -- µs at which it began
  micros   : Nat := 0            -- the scheduler's own clock (R16), in µs
  notes    : List Note := []     -- posted to the firmware
  -- the model's own
  nextId   : Nat := 1
  free     : Nat := 0
  inputs   : List Instr := []
  now      : Nat := 0            -- cluster cycles since reset
  cursor   : Nat := 0            -- how far the issue ports are in this cycle: 3 × slice, and which of its ports has issued
  iss      : Iss := {}
  kicked   : Map Unit := []      -- pending bits of reels that are not registered yet (R363, R386), by `reelKey`
  bad      : Option Nat := none  -- HBM address that does not exist
  deriving DecidableEq, Repr

/-- The machine right after reset: nothing is resident, nothing is listed, and bring-up has not run (R386).
DESIGN CHOICE: log entry 4. -/
def State.reset : State := {}

end Sys2Proof.Machine
end

