-- ==== Sys2Proof/Machine/Mem.lean ====
section
/-! DEFINITION. Maps, memory in canonical form, the spaces that one memory holds, and the location order with the
views of R285 to R292. -/

namespace Sys2Proof.Machine

/-- The value at a key. -/
def mget {α : Type} : Map α → Nat → Option α
  | [], _ => none
  | (k, v) :: r, x => if x = k then some v else mget r x

/-- Keys strictly rising. -/
def mapWf {α : Type} : Map α → Bool
  | [] => true
  | [_] => true
  | (a, _) :: (b, y) :: r => a < b && mapWf ((b, y) :: r)

/-- Set a key, keeping the keys rising. -/
def mset {α : Type} : Map α → Nat → α → Map α
  | [], x, v => [(x, v)]
  | (k, u) :: r, x, v =>
    if x < k then (x, v) :: (k, u) :: r else if x = k then (x, v) :: r else (k, u) :: mset r x v

/-- Remove a key. -/
def mdel {α : Type} : Map α → Nat → Map α
  | [], _ => []
  | (k, u) :: r, x => if x = k then mdel r x else (k, u) :: mdel r x

/-- The value at a key, or a default. -/
def mgetD {α : Type} (m : Map α) (x : Nat) (d : α) : α := (mget m x).getD d

/-- Set the value at a key, with the default unlisted. -/
def msetD {α : Type} [DecidableEq α] (m : Map α) (x : Nat) (v d : α) : Map α := if v = d then mdel m x else mset m x v

/-- Change the value at a key that is listed. -/
def mmod {α : Type} (m : Map α) (x : Nat) (f : α → α) : Map α :=
  match mget m x with
  | some v => mset m x (f v)
  | none => m

/-- Memory: an unlisted byte reads as zero. DESIGN CHOICE: log entry 3. -/
abbrev Memory := List Host.Cell

/-- The canonical form: addresses strictly rising, and no byte that reads as an unlisted one. -/
def Memory.wf (m : Memory) : Bool := mapWf m && m.all (fun c => c.2 != 0)

def peek (m : Memory) (a : Nat) : Byte := mgetD m a 0

def poke (m : Memory) (a : Nat) (b : Byte) : Memory := if b = 0 then mdel m a else mset m a b

def pokes (m : Memory) (a : Nat) : List Byte → Memory
  | [] => m
  | b :: r => pokes (poke m a b) (a + 1) r

def peeks (m : Memory) (a : Nat) : Nat → List Byte
  | 0 => []
  | n + 1 => peek m a :: peeks m (a + 1) n

/-- Little-endian bytes of a number. -/
def leBytes : Nat → Nat → List Byte
  | 0, _ => []
  | n + 1, x => BitVec.ofNat 8 x :: leBytes n (x / 256)

def leNat : List Byte → Nat
  | [] => 0
  | b :: r => b.toNat + 256 * leNat r

-- The spaces (R9, R38, R208, R317, R371): HBM at its physical addresses, then the others above it.
def hbmSize : Nat := 2 ^ 39
def hostKey (a : Nat) : Nat := 2 ^ 52 + a
def remoteKey (dev a : Nat) : Nat := 2 ^ 60 + dev * 2 ^ 52 + a
def padKey (cluster off : Nat) : Nat := 2 ^ 70 + cluster * 2 ^ 22 + off
def accKey (slice off : Nat) : Nat := 2 ^ 71 + slice * 2 ^ 17 + off
def flashKey (drive ns byte : Nat) : Nat := 2 ^ 90 + (drive * 4096 + ns) * 2 ^ 60 + byte

def lineOf (key : Nat) : Nat := key / 64

/-- The lines that a range touches. -/
def linesOf (key n : Nat) : List Nat :=
  (List.range ((key + n - 1) / 64 + 1 - key / 64)).map (· + key / 64)

/-- An open choice among `n` outcomes (R8): the next free value, reduced. With one outcome nothing is consumed.
DESIGN CHOICE: log entry 1. -/
def choose (s : State) (n : Nat) : Nat × State :=
  if n ≤ 1 then (0, s) else (Config.freeNat s.free % n, { s with free := s.free + 1 })

/-- A free natural number, for a latency that the specification does not give (R49, R149).
DESIGN CHOICE: log entry 1. -/
def freeDelay (s : State) : Nat × State := (Config.freeNat s.free, { s with free := s.free + 1 })

/-- DESIGN CHOICE: log entry 10. -/
def fresh (s : State) : Nat × State := (s.nextId, { s with nextId := s.nextId + 1 })

/-- Whether two slices lie in one unit of a scope's level (R10, R13). Slice 576 stands for an agent of the device that
belongs to no slice: only device and system scope include it. Slice 577 stands for the host and other devices, which only
system scope includes. -/
def scopeJoins (sc : Scope) (x y : Nat) : Bool :=
  match sc with
  | .slice => x == y
  | .cluster => x / 6 == y / 6
  | .sector => x / 18 == y / 18
  | .pillar => x / 72 == y / 72
  | .device => (x < 577 && y < 577) || x == y
  | .system => true

def noSlice : Nat := 576
def hostSlice : Nat := 577

/-- Later of two views, byte by byte. -/
def viewJoin : Map Nat → Map Nat → Map Nat
  | [], b => b
  | (k, v) :: r, b => viewJoin r (mset b k (Nat.max v (mgetD b k 0)))

def viewRange (a : Nat) (id : Nat) : Nat → Map Nat → Map Nat
  | 0, m => m
  | n + 1, m => viewRange (a + 1) id n (mset m a (Nat.max id (mgetD m a 0)))

/-- A write into the location order (R285): the newest value of its bytes. DEDUCED: log entry 19. -/
def State.write (s : State) (a : Nat) (bytes : List Byte) (slice who : Nat) (strong : Option Scope)
    (rel : Option Nat) (point : Nat) : State :=
  { s with
    mem := pokes s.mem a bytes
    log := { id := s.nextId, addr := a, old := peeks s.mem a bytes.length, new := bytes, slice := slice,
             who := who, strong := strong, rel := rel, point := point } :: s.log
    nextId := s.nextId + 1 }

/-- A release at a scope (R286): it publishes a view to the agents of its scope. -/
def State.addRel (s : State) (slice : Nat) (sc : Scope) (pub : Map Nat) : State :=
  { s with
    rels := { id := s.nextId, slice := slice, scope := sc, pub := pub } :: s.rels
    nextId := s.nextId + 1 }

/-- What an engine on `slice` makes visible at a scope (R234, R273). -/
def State.addEngine (s : State) (slice : Nat) (sc : Scope) (pub : Map Nat) : State :=
  { s with
    rels := { id := s.nextId, engine := true, slice := slice, scope := sc, pub := pub } :: s.rels
    nextId := s.nextId + 1 }

/-- What a boundary of an agent on `slice` at scope `b` takes into its view (R287): what releases in both scopes
have published, and what engines have made visible to it. -/
def boundaryView (rels : List RelRec) (slice : Nat) (b : Scope) (v : Map Nat) : Map Nat :=
  rels.foldl (fun v r => if (r.engine || scopeJoins b slice r.slice) && scopeJoins r.scope r.slice slice then viewJoin r.pub v else v) v

/-- What the releases that an address depends on have published to an agent on `slice` (R291). -/
def depsView (rels : List RelRec) (slice : Nat) (deps : List Nat) : Map Nat :=
  rels.foldl (fun v r => if deps.contains r.id && scopeJoins r.scope r.slice slice then viewJoin r.pub v else v) []

def WriteRec.covers (w : WriteRec) (a : Nat) : Bool := w.addr ≤ a && a < w.addr + w.new.length

/-- The bytes that an access shares with a write. -/
def WriteRec.shared (w : WriteRec) (a n : Nat) : List Nat := ((List.range n).map (a + ·)).filter w.covers

/-- The shared bytes in which a reader may miss a write: it is newer than what the reader must respect there. -/
def WriteRec.open_ (w : WriteRec) (floor : Map Nat) (must : WriteRec → Bool) (a n : Nat) : List Nat :=
  if must w then [] else (w.shared a n).filter (fun b => mgetD floor b 0 < w.id)

/-- An access of at most 16 bytes that wholly covers a write sees all of it or none (R155). -/
def WriteRec.whole (w : WriteRec) (a n : Nat) : Bool := n ≤ 16 && a ≤ w.addr && w.addr + w.new.length ≤ a + n

/-- A choice for each byte: those that are missed. -/
def pickBytes (s : State) : List Nat → List Nat × State
  | [] => ([], s)
  | b :: r =>
    let (h, s1) := choose s 2
    let (t, s2) := pickBytes s1 r
    (if h = 1 then b :: t else t, s2)

/-- The reader is bound to see this write in one of the shared bytes. -/
def WriteRec.bound (w : WriteRec) (floor : Map Nat) (must : WriteRec → Bool) (a n : Nat) : Bool :=
  must w || (w.shared a n).any (fun b => mgetD floor b 0 == w.id)

/-- The bytes of a write that a reader misses: a free choice (R288, R289), made once for a write that the access wholly
covers, and byte by byte for one that it covers in part (R155). In bytes where the reader respects a newer write, that one shows. -/
def WriteRec.missed (w : WriteRec) (s : State) (floor : Map Nat) (must : WriteRec → Bool) (a n : Nat) : List Nat × State :=
  let free := w.open_ floor must a n
  if w.whole a n then
    if w.bound floor must a n || free.isEmpty then ([], s)
    else
      let (h, s1) := choose s 2
      (if h = 1 then free else [], s1)
  else pickBytes s free

/-- Each write that overlaps the access, newest first, with the bytes in which the reader misses it. -/
def pickHidden (s : State) (floor : Map Nat) (must : WriteRec → Bool) (a n : Nat) :
    List WriteRec → List (WriteRec × List Nat) × State
  | [] => ([], s)
  | w :: r =>
    if w.addr < a + n && a < w.addr + w.new.length then
      let (h, s1) := w.missed s floor must a n
      let (t, s2) := pickHidden s1 floor must a n r
      ((w, h) :: t, s2)
    else pickHidden s floor must a n r

/-- The byte an access sees: the newest write it does not miss, or what lay there before those it misses.
DEDUCED: log entry 19. -/
def byteSeen (m : Memory) (ws : List (WriteRec × List Nat)) (a : Nat) : Byte × Nat × Option Nat :=
  match ws.find? (fun p => p.1.covers a && !p.2.contains a) with
  | some (w, _) => (w.new.getD (a - w.addr) 0, w.id, w.rel)
  | none =>
    match ws.reverse.find? (fun p => p.1.covers a) with
    | some (w, _) => (w.old.getD (a - w.addr) 0, 0, none)
    | none => (peek m a, 0, none)

structure Seen where
  bytes : List Byte
  ids   : List Nat
  rels  : List Nat
  deriving DecidableEq, Repr

/-- A read of `n` bytes: which version of each byte, the writes read, and the releases among them. -/
def State.readVer (s : State) (floor : Map Nat) (must : WriteRec → Bool) (a n : Nat) : Seen × State :=
  let (ws, s1) := pickHidden s floor must a n s.log
  let bs := (List.range n).map (fun i => byteSeen s.mem ws (a + i))
  ({ bytes := bs.map (·.1), ids := bs.map (·.2.1), rels := bs.filterMap (·.2.2) }, s1)

/-- The part of a write that lies in a range. -/
def WriteRec.clip (w : WriteRec) (a n : Nat) : WriteRec :=
  let lo := Nat.max w.addr a
  let cut (b : List Byte) : List Byte := (b.drop (lo - w.addr)).take (a + n - lo)
  { w with addr := lo, old := cut w.old, new := cut w.new }

/-- How many of the newest writes to an entry a reader may miss together: it need not respect any of them, and the write before
them has another author. -/
def entryCuts (floor : Map Nat) (must : WriteRec → Bool) (a n : Nat) (ws : List WriteRec) : List Nat :=
  let free := (ws.takeWhile (fun w => (w.open_ floor must a n).length == (w.shared a n).length)).length
  (List.range (free + 1)).filter (fun j => j == 0 || (ws[j]?).map (·.who) != (ws[j - 1]?).map (·.who))
/-- A read of an entry in backing store or of a record: whole, as it stood after all that one author wrote to it (R87, R341). Which
author's value it is is a free choice among those that the reader may see. -/
def State.readEntry (s : State) (floor : Map Nat) (must : WriteRec → Bool) (a n : Nat) : Seen × State :=
  let ws := (s.log.filter (fun w => w.addr < a + n && a < w.addr + w.new.length)).map (·.clip a n)
  let cuts := entryCuts floor must a n ws
  let (i, s1) := choose s cuts.length
  let hidden := ws.zipIdx.map (fun p => (p.1, if p.2 < cuts.getD i 0 then p.1.shared a n else []))
  let bs := (List.range n).map (fun j => byteSeen s.mem hidden (a + j))
  ({ bytes := bs.map (·.1), ids := bs.map (·.2.1), rels := bs.filterMap (·.2.2) }, s1)

/-- A read by an agent of the device, which is no choice of a thread: read number n of the run. -/
def State.peekVer (s : State) (n : Nat) (floor : Map Nat) (must : WriteRec → Bool) (a len : Nat) : List Byte :=
  let ws := (s.log.filter (fun w => !(w.shared a len).isEmpty)).map (fun w =>
    let free := w.open_ floor must a len
    (w, if w.whole a len then (if !w.bound floor must a len && Config.missed n w.id 0 then free else [])
        else free.filter (fun b => Config.missed n w.id b)))
  (List.range len).map (fun i => (byteSeen s.mem ws (a + i)).1)

def seenUpdate (a : Nat) : List Nat → Map Nat → Map Nat
  | [], m => m
  | i :: r, m => seenUpdate (a + 1) r (if i = 0 then m else mset m a (Nat.max i (mgetD m a 0)))

def State.isPoison (s : State) (key n : Nat) : Bool := (linesOf key n).any (fun l => (mget s.poison l).isSome)
def State.isEcc (s : State) (key n : Nat) : Bool := (linesOf key n).any (fun l => (mget s.ecc l).isSome)
/-- Whether the first poisoned line of a range was poisoned by a failed tag (R351). -/
def State.isTag (s : State) (key n : Nat) : Bool := ((linesOf key n).findSome? (fun l => mget s.poison l)).getD false
def State.setPoison (s : State) (line : Nat) (tag : Bool) : State := { s with poison := mset s.poison line tag }
/-- A line that is written whole is no longer poisoned (R153, R216). An uncorrectable error in it stays. DESIGN CHOICE: log entry 48. -/
def State.clean (s : State) (line : Nat) : State := { s with poison := mdel s.poison line }

/-- A link reaches the other devices (R385). -/
def State.linked (s : State) : Bool := (List.range 18).any (fun l => (mget s.linksDown l).isNone)

def isHost (key : Nat) : Bool := 2 ^ 52 ≤ key && key < 2 ^ 53
def isRemote (key : Nat) : Bool := 2 ^ 60 ≤ key && key < 2 ^ 70
/-- The byte lies on a device that no link reaches: what is read there is poison, what is stored is discarded (R385). -/
def State.cutOff (s : State) (key : Nat) : Bool := isRemote key && !s.linked

end Sys2Proof.Machine
end

