-- ==== Sys2Proof/Machine/Access.lean ====
section
/-! DEFINITION. Keys of the maps of the state, and one accessor for each of its records. -/

namespace Sys2Proof.Machine

-- Keys (R9, R10).
def placeKey (slice place : Nat) : Nat := slice * 48 + place
def laneKey (slice place lane : Nat) : Nat := (slice * 48 + place) * 32 + lane
def laneIdKey (l : LaneId) : Nat := laneKey l.slice l.place l.lane
def waveOf (k : Nat) : Nat := k / 32
def sliceOf (k : Nat) : Nat := k / 1536
def laneNo (k : Nat) : Nat := k % 32
def spaceKey (vf asid : Nat) : Nat := vf * 16384 + asid
def budgetKey (vf cluster : Nat) : Nat := vf * 96 + cluster
def reelKey (vf rnum : Nat) : Nat := vf * 4096 + rnum

/-- A slice's record. One that is not listed has run at ratio 1/1 since reset. The spec promises no relation between the
counts of two slices (R16): here every slice's cycles are taken from the one clock `now`, which starts at 0.
DESIGN CHOICE: log entry 38. -/
def State.slice (s : State) (x : Nat) : Slice := mgetD s.slices x { cycle := s.now }
def State.setSlice (s : State) (x : Nat) (v : Slice) : State := { s with slices := mset s.slices x v }
def State.modSlice (s : State) (x : Nat) (f : Slice → Slice) : State := s.setSlice x (f (s.slice x))
def State.cycle (s : State) (x : Nat) : Nat := (s.slice x).cycle

def State.lane (s : State) (k : Nat) : Option Lane := mget s.lanes k
def State.setLane (s : State) (k : Nat) (l : Lane) : State := { s with lanes := mset s.lanes k l }
def State.modLane (s : State) (k : Nat) (f : Lane → Lane) : State :=
  match s.lane k with
  | some l => s.setLane k (f l)
  | none => s

def State.wave (s : State) (w : Nat) : Option Wave := mget s.waves w
def State.setWave (s : State) (w : Nat) (v : Wave) : State := { s with waves := mset s.waves w v }
def State.modWave (s : State) (w : Nat) (f : Wave → Wave) : State := { s with waves := mmod s.waves w f }

def State.task (s : State) (t : Nat) : Option Task := mget s.tasks t
def State.setTask (s : State) (t : Nat) (v : Task) : State := { s with tasks := mset s.tasks t v }
def State.modTask (s : State) (t : Nat) (f : Task → Task) : State := { s with tasks := mmod s.tasks t f }

def State.ctx (s : State) (c : Nat) : Ctx := mgetD s.ctxs c {}
def State.modCtx (s : State) (c : Nat) (f : Ctx → Ctx) : State := { s with ctxs := mset s.ctxs c (f (s.ctx c)) }
def State.vf (s : State) (v : Nat) : Vf := mgetD s.vfs v {}
def State.modVf (s : State) (v : Nat) (f : Vf → Vf) : State := { s with vfs := mset s.vfs v (f (s.vf v)) }
def State.cluster (s : State) (c : Nat) : Cluster := mgetD s.clusters c {}
def State.modCluster (s : State) (c : Nat) (f : Cluster → Cluster) : State :=
  { s with clusters := mset s.clusters c (f (s.cluster c)) }
def State.sector (s : State) (c : Nat) : Sector := mgetD s.sectors c {}
def State.modSector (s : State) (c : Nat) (f : Sector → Sector) : State :=
  { s with sectors := mset s.sectors c (f (s.sector c)) }
def State.modReel (s : State) (r : Nat) (f : Reel → Reel) : State := { s with reels := mmod s.reels r f }
def State.modLaunch (s : State) (r : Nat) (f : Launch → Launch) : State := { s with launches := mmod s.launches r f }
def State.note (s : State) (n : Note) : State := { s with notes := s.notes ++ [n] }

/-- The task number and the task of a lane's wave. -/
def State.taskNo (s : State) (k : Nat) : Nat := ((s.wave (waveOf k)).map (·.task)).getD 0
def State.taskOf (s : State) (k : Nat) : Option Task := s.task (s.taskNo k)
/-- The address space of a task, as a key of `ctxs`. -/
def Task.space (t : Task) : Nat := spaceKey t.vf t.asid
def State.spaceOf (s : State) (k : Nat) : Nat := ((s.taskOf k).map Task.space).getD 0
/-- The author number of a lane's writes. -/
def State.who (s : State) (k : Nat) : Nat := ((s.wave (waveOf k)).map (·.uid)).getD 0 * 32 + laneNo k

/-- The lanes of a wave, by key, in increasing lane order. -/
def State.waveLanes (s : State) (w : Nat) : List (Nat × Lane) := s.lanes.filter (fun p => waveOf p.1 == w)

def bit (b : Bool) : Nat := if b then 1 else 0
-- Words of a tensor entry (R209, R247).
def wordOf (e : List Word) (i : Nat) : Nat := (e.getD i 0).toNat
def setWord (e : List Word) (i : Nat) (v : Nat) : List Word := e.set i (BitVec.ofNat 64 v)
def setBit (n i : Nat) : Nat := n ||| 2 ^ i
def clearBit (n i : Nat) : Nat := if n.testBit i then n - 2 ^ i else n
def modTens (t : Task) (tid : Nat) (f : List Word → List Word) : Task := { t with tens := mmod t.tens tid f }


end Sys2Proof.Machine
end

