-- ==== Sys2Proof/Machine/Geometry.lean ====
section
/-! DEFINITION. Tensor entries (R208 to R211, R247, R248): fields, checks, the places of elements, groups and blocks,
allocation (R213, R214), and the bank engines (R222 to R224). -/

namespace Sys2Proof.Machine

/-- The fields of an entry that its geometry needs (for a FRAME entry with SP = 1 the bitmap base reads as 0: DESIGN CHOICE, log
entry 56); an entry made for a COPY packet has its second extent in a ninth word,
for `LEN` may be any length (R359). In a FRAME entry words 2, 3, 4, 6 and 7 are the frame header
(R247), so its strides are dense and it has two dimensions. -/
structure Geom where
  kind : Nat
  fmt  : Nat
  ndm1 : Nat
  gsz  : Nat
  gax  : Nat
  sp   : Bool
  rdo  : Bool
  trows : Nat                    -- tile rows and columns
  tcols : Nat
  e    : List Nat                -- extents of dimensions 0 to 3
  st   : List Nat                -- strides
  base : Nat
  map  : Nat
  scl  : Nat
  zpt  : Nat
  deriving DecidableEq, Repr

def geomOf (w : List Word) : Geom :=
  let c := wordOf w 0
  let fr := c % 8 = 3
  let e0 := wordOf w 1 % 2 ^ 32
  let e1 := match w[8]? with
    | some n => n.toNat
    | none => wordOf w 1 / 2 ^ 32
  { kind := c % 8, fmt := c / 16 % 16, ndm1 := c / 2 ^ 8 % 4, gsz := c / 2 ^ 12 % 4, gax := c / 2 ^ 10 % 4
    sp := c.testBit 14, rdo := c.testBit 15, trows := c / 2 ^ 16 % 4096 + 1, tcols := c / 2 ^ 28 % 4096 + 1
    e := if fr then [e0, e1, 1, 1] else [e0, e1, wordOf w 2 % 2 ^ 16, wordOf w 2 / 2 ^ 16 % 2 ^ 16]
    st := if fr then [1, e0, e0 * e1, e0 * e1]
      else [1, wordOf w 2 / 2 ^ 32, wordOf w 3 % 2 ^ 32, wordOf w 3 / 2 ^ 32]
    base := wordOf w 5
    map := if fr then 0 else wordOf w 4
    scl := if fr then 0 else wordOf w 6
    zpt := if fr then 0 else wordOf w 7 }

def fmtBits (f : Nat) : Nat :=
  if f = 0 || f = 2 then 8 else if f = 1 || f = 3 then 4 else if f = 4 || f = 5 then 16 else if f = 8 then 64 else 32
def Geom.bits (g : Geom) : Nat := fmtBits g.fmt
def Geom.ext (g : Geom) (d : Nat) : Nat := g.e.getD d 1
def Geom.rows (g : Geom) : Nat := g.ext 1 * g.ext 2 * g.ext 3
def Geom.count (g : Geom) : Nat := g.ext 0 * g.rows
def ceilDiv (a b : Nat) : Nat := (a + b - 1) / b
/-- Group size of a grouped tensor (R209). -/
def Geom.gsize (g : Geom) : Nat := 16 * 2 ^ g.gsz
/-- Indices of the element (row, col) (R220). -/
def Geom.split (g : Geom) (row col : Nat) : List Nat :=
  [col, row % g.ext 1, row / g.ext 1 % g.ext 2, row / g.ext 1 / g.ext 2]

/-- Group of an element (R25). -/
def Geom.group (g : Geom) (i : List Nat) : Nat :=
  let other := ((List.range 4).filter (· != g.gax)).foldr (fun d p => i.getD d 0 + g.ext d * p) 0
  i.getD g.gax 0 / g.gsize + ceilDiv (g.ext g.gax) g.gsize * other
def Geom.groups (g : Geom) : Nat :=
  if g.gsz = 0 then 0 else g.count / g.ext g.gax * ceilDiv (g.ext g.gax) g.gsize

/-- Blocks in a plane row, and the number of an element's 8 × 8 block (R211). -/
def Geom.block (g : Geom) (i : List Nat) : Nat :=
  ((i.getD 2 0 + g.ext 2 * i.getD 3 0) * ceilDiv (g.ext 1) 8 + i.getD 1 0 / 8) * ceilDiv (g.ext 0) 8 + i.getD 0 0 / 8
def Geom.blocks (g : Geom) : Nat := ceilDiv (g.ext 0) 8 * ceilDiv (g.ext 1) 8 * g.ext 2 * g.ext 3

/-- Bytes of the element area, the scale array, the zero-point array and the bitmap (R213). The blocks of a sparse tensor with padded
edges may need more than the element area: they are stored behind it. DESIGN CHOICE: log entry 56. -/
def Geom.sizes (g : Geom) : List Nat :=
  [ceilDiv (g.count * g.bits) 8, 2 * g.groups, if g.fmt = 2 then g.groups else ceilDiv g.groups 2,
   if g.sp then ceilDiv g.blocks 8 else 0]

def bitOf (bytes : List Byte) (i : Nat) : Bool := (bytes.getD (i / 8) 0).getLsbD (i % 8)
def countBits (bytes : List Byte) (n : Nat) : Nat := ((List.range n).filter (bitOf bytes)).length

/-- Where an element lies among the stored elements: none in an absent block (R211). `bm` is the bitmap. -/
def Geom.index (g : Geom) (bm : List Byte) (i : List Nat) : Option Nat :=
  if g.sp then
    if bitOf bm (g.block i) then some (countBits bm (g.block i) * 64 + i.getD 1 0 % 8 * 8 + i.getD 0 0 % 8) else none
  else some (i.getD 0 0 + g.st.getD 1 0 * i.getD 1 0 + g.st.getD 2 0 * i.getD 2 0 + g.st.getD 3 0 * i.getD 3 0)

/-- Bytes in front of an element, the bytes it lies in, and whether it is the upper nibble (R19). -/
def Geom.byteOf (g : Geom) (idx : Nat) : Nat := idx * g.bits / 8
def Geom.nbytes (g : Geom) : Nat := ceilDiv g.bits 8
def Geom.take (g : Geom) (idx : Nat) (bytes : List Byte) : Nat :=
  if g.bits = 4 then leNat bytes / 16 ^ (idx % 2) % 16 else leNat bytes
/-- The bytes of an element with a new value: the other nibble of its byte is kept (R220). -/
def Geom.put (g : Geom) (idx v : Nat) (old : List Byte) : List Byte :=
  if g.bits = 4 then
    [BitVec.ofNat 8 (if idx % 2 = 0 then leNat old / 16 * 16 + v % 16 else leNat old % 16 + v % 16 * 16)]
  else leBytes g.nbytes (v % 2 ^ g.bits)

-- The check of a descriptor (R210, R248): word by word.
def okWord0 (c : Nat) : Bool :=
  let kind := c % 8
  let fmt := c / 16 % 16
  let gsz := c / 2 ^ 12 % 4
  c / 2 ^ 40 == 0 && !c.testBit 3 && kind ≤ 4 && fmt ≤ 8 &&
  (gsz == 0 || ((fmt == 2 || fmt == 3) && c / 2 ^ 10 % 4 ≤ c / 2 ^ 8 % 4)) &&
  (kind != 2 || ((fmt == 6 || fmt == 7) && !c.testBit 14)) &&
  (kind != 3 || (fmt == 8 && c / 2 ^ 8 % 4 == 1))
/-- Extents up to NDM1 are nonzero, and those above it are 1 (R209, R210). A size that spans words is checked with word 1. DESIGN
CHOICE: log entry 56. -/
def okExt (ndm1 d e : Nat) : Bool := if d ≤ ndm1 then e != 0 else e == 1
def okWord1 (g : Geom) : Bool :=
  if g.kind = 3 then 1 ≤ g.ext 0 && g.ext 0 ≤ 16 && 1 ≤ g.ext 1 && g.ext 1 ≤ 64
  else okExt g.ndm1 0 (g.ext 0) && okExt g.ndm1 1 (g.ext 1) &&
    (g.kind != 2 || g.count * g.bits ≤ 8 * 32768)
def frWord2 (v : Nat) : Bool :=
  v / 2 ^ 12 % 64 == 0 && v / 2 ^ 28 % 16 ≤ 8 && v / 2 ^ 24 % 16 ≤ 8 && 1 ≤ v / 2 ^ 18 % 64 && v / 2 ^ 18 % 64 ≤ 32 &&
  (v / 2 ^ 32 % 256 == 0 || 128 ≤ v / 2 ^ 32 % 256)
def frWord3 (v : Nat) : Bool := v / 2 ^ 56 == 0 && v % 2 == 0
def oddStrides (g : Geom) : Bool := (g.kind = 0 || g.kind = 4) && (g.fmt = 1 || g.fmt = 3)
def okWord2 (g : Geom) (v : Nat) : Bool :=
  if g.kind = 3 then frWord2 v
  else okExt g.ndm1 2 (g.ext 2) && okExt g.ndm1 3 (g.ext 3) && !(oddStrides g && v.testBit 32)
def okWord3 (g : Geom) (v : Nat) : Bool :=
  if g.kind = 3 then frWord3 v else !(oddStrides g && (v.testBit 0 || v.testBit 32))
/-- BASE (R209). -/
def okBase (kind v : Nat) : Bool :=
  if kind = 0 then v / 2 ^ 56 == 0 && v % 64 == 0
  else if kind = 4 then v / 2 ^ 60 < 8 && v / 2 ^ 48 % 4096 != 0
  else v == 0
/-- MAP, SCL and ZPT (R209): set where the tensor uses them; 0 in a MEMORY tensor that does not.
DEDUCED: log entry 28. -/
def okSide (kind base v : Nat) (used must : Bool) : Bool :=
  if kind = 0 then v / 2 ^ 56 == 0 && v % 64 == 0 && (used || v == 0) && (!must || v != 0)
  else if kind = 4 then (v == 0 && !must) || v / 2 ^ 48 == base / 2 ^ 48
  else v == 0
/-- First word of a descriptor that fails (R210, R248). -/
def badWord (w : List Word) : Option Nat :=
  let g := geomOf w
  let grouped := g.gsz != 0
  if !okWord0 (wordOf w 0) then some 0
  else if !okWord1 g then some 1
  else if !okWord2 g (wordOf w 2) then some 2
  else if !okWord3 g (wordOf w 3) then some 3
  else if !okSide g.kind g.base (wordOf w 4) g.sp (g.sp && g.kind == 4) then some 4
  else if !okBase g.kind g.base then some 5
  else if !okSide g.kind g.base (wordOf w 6) grouped grouped then some 6
  else if !okSide g.kind g.base (wordOf w 7) grouped grouped then some 7
  else none

-- The frame header (R247).
def frAge (e : List Word) : Nat := wordOf e 2 / 2 ^ 40
def frChain (e : List Word) : Nat := wordOf e 2 / 2 ^ 32 % 256
def frRslots (e : List Word) : Nat := wordOf e 2 / 2 ^ 28 % 16
def frRsb (e : List Word) : Nat := wordOf e 2 / 2 ^ 24 % 16
def frThr (e : List Word) : Nat := wordOf e 2 / 2 ^ 18 % 64
def frSite (e : List Word) : Nat := wordOf e 2 % 4096
def frHeld (e : List Word) : Nat := wordOf e 4
def frWake (e : List Word) : Nat := wordOf e 6
def frOcc (e : List Word) : Nat := wordOf e 7
/-- The rows that are ready, lowest first. -/
def readyRows (e : List Word) : List Nat :=
  (List.range 64).filter (fun r => (frOcc e).testBit r && (frWake e).testBit r)

/-- THR and AGE of a tile: a change applies from the cluster cycle after it (R249). -/
def Task.frLimits (t : Task) (tid now : Nat) (e : List Word) : Nat × Nat :=
  match mget t.before tid with
  | some (c, old) => if now ≤ c then old else (frThr e, frAge e)
  | none => (frThr e, frAge e)

/-- A tile's bin is due (R257): the rows that the threshold or the flush covers, at most 32, lowest first (R258). -/
def dueRows (t : Task) (tid now : Nat) : List Nat :=
  match mget t.tens tid with
  | none => []
  | some e =>
    if (geomOf e).kind != 3 then []
    else
      let ready := readyRows e
      if (t.frLimits tid now e).1 ≤ ready.length then ready.take 32
      else (ready.filter (fun r => (mgetD t.due tid 0).testBit r)).take 32

-- Allocation.
def up256 (n : Nat) : Nat := ceilDiv n 256 * 256
def Geom.span (g : Geom) : Nat := (g.sizes.map up256).sum
/-- Where an on-chip tensor lies in its reservation or in the accumulator buffers (buffer 1 follows buffer 0). -/
def chipStart (g : Geom) : Nat := if g.kind = 2 then g.base / 65536 % 2 * 32768 + g.base % 65536 else g.base
/-- The ranges in use, of the accumulator buffers or of the reservation. -/
def spans (t : Task) (acc : Bool) : List (Nat × Nat) :=
  (t.tens.map (fun p => geomOf p.2)).filterMap (fun g => if (g.kind == 2) == acc then some (chipStart g, g.span) else none)
/-- The lowest granule at or above `p` from which n bytes are free (R213). -/
def firstFit (used : List (Nat × Nat)) (n hi : Nat) : Nat → Nat → Option Nat
  | 0, _ => none
  | f + 1, p =>
    if hi < p + n then none
    else
      match used.find? (fun u => u.1 < p + n && p < u.1 + u.2) with
      | some u => firstFit used n hi f (u.1 + u.2)
      | none => some p

/-- Each range in use is passed at most once, so as many tries as there are ranges, and one more, find a place that exists. -/
def fitIn (used : List (Nat × Nat)) (n hi p : Nat) : Option Nat := firstFit used n hi (used.length + 1) p

/-- The entry with its bases and dense strides filled in (R210, R213, R214). -/
def fillEntry (w : List Word) (at_ : Nat) : List Word :=
  let g := geomOf w
  let z := g.sizes.map up256
  let off (i : Nat) : Nat := at_ + (z.take i).sum
  let w0 := setWord w 0 (setBit (wordOf w 0) 63)
  if g.kind = 2 then
    let b := setWord w0 5 (at_ / 32768 * 65536 + at_ % 32768)
    setWord (setWord b 2 (g.ext 0 * 2 ^ 32 + wordOf w 2 % 2 ^ 32)) 3
      (g.ext 0 * g.ext 1 * g.ext 2 % 2 ^ 32 * 2 ^ 32 + g.ext 0 * g.ext 1 % 2 ^ 32)
  else if g.kind = 3 then setWord w0 5 at_
  else
    let b := setWord w0 5 at_
    let b := if g.gsz = 0 then b else setWord (setWord b 6 (off 1)) 7 (off 2)
    let b := if g.sp then setWord b 4 (off 3) else b
    setWord (setWord b 2 (g.ext 0 * 2 ^ 32 + wordOf w 2 % 2 ^ 32)) 3
      (g.ext 0 * g.ext 1 * g.ext 2 % 2 ^ 32 * 2 ^ 32 + g.ext 0 * g.ext 1 % 2 ^ 32)

/-- Where an on-chip tensor of the task would be placed. -/
def placeFor (t : Task) (g : Geom) : Option Nat :=
  if g.kind = 2 then
    if !t.acc then none
    else
      match fitIn (spans t true) g.span 32768 0 with
      | some a => some a
      | none => fitIn (spans t true) g.span 65536 32768
  else fitIn (spans t false) g.span (t.scratch + t.nscratch) t.scratch

/-- The cluster of a task. -/
def Task.cluster (t : Task) : Nat := t.members.headD 0 / 6
/-- Key of a byte of an on-chip tensor: the scratchpad of the cluster, or the accumulator buffers of a slice. -/
def chipKey (kind slice off : Nat) : Nat := if kind = 2 then accKey slice off else padKey (slice / 6) off
/-- Offset of the elements from the start of their storage. -/
def Geom.start (g : Geom) : Nat := if g.kind = 2 then chipStart g else g.base

/-- Each byte that is not zero may be kept or may read as zero (R216). -/
def clearSome (s : State) : List Host.Cell → State
  | [] => s
  | c :: r =>
    let (i, s1) := choose s 2
    clearSome (if i = 1 then s1.write c.1 [0] noSlice 0 none none 0 else s1) r

/-- DEDUCED: log entry 27. -/
def State.freshStorage (s : State) (key n : Nat) : State :=
  clearSome s (s.mem.filter (fun c => key ≤ c.1 && c.1 < key + n))

/-- Allocate a descriptor that passed the check at a task-level tid (R218): none when nothing fits. -/
def State.allocAt (s : State) (tn tid : Nat) (w : List Word) : Option State :=
  match s.task tn with
  | none => none
  | some t =>
    match placeFor t (geomOf w) with
    | none => none
    | some a =>
      let g := geomOf w
      let s1 := s.setTask tn { t with tens := mset t.tens tid (fillEntry w a) }
      let keys := if g.kind = 2 then t.members.map (fun m => chipKey 2 m a) else [chipKey 1 (6 * t.cluster) a]
      some (keys.foldl (fun s k => s.freshStorage k g.span) s1)

/-- A tensor's entry as a thread of a task names it (R208). -/
def State.entryOf (s : State) (tn tid : Nat) : Option (List Word) :=
  match s.task tn with
  | none => none
  | some t => if tid < 128 then mget (s.ctx t.space).tens tid else if tid < 256 then mget t.tens tid else none

-- The bank engines.
/-- The lane that is the author of engine writes, while it lives. -/
def State.laneOfWho (s : State) (who : Nat) : Option Nat :=
  (s.waves.find? (fun p => p.2.uid == who / 32)).map (fun p => p.1 * 32 + who % 32)

/-- A plain write that an engine makes for a thread (R224). -/
def State.writeAs (s : State) (who slice key : Nat) (bytes : List Byte) : State :=
  let id := s.nextId
  let s1 := s.write key bytes slice who none none 0
  match s1.laneOfWho who with
  | some k => s1.modLane k (fun l => { l with view := viewRange key id bytes.length l.view })
  | none => s1

def State.bytesAt (s : State) (key n : Nat) : List Byte := peeks s.mem key n
def State.broken (s : State) (key n : Nat) : Bool := s.isPoison key n || s.isEcc key n

/-- Lines that lie wholly inside a range become clean (R216). -/
def State.cleanRange (s : State) (key n : Nat) : State :=
  ((linesOf key n).filter (fun l => key ≤ 64 * l && 64 * l + 64 ≤ key + n)).foldl (fun s l => s.clean l) s

def allIndices (g : Geom) : List (Nat × Nat) :=
  (List.range g.rows).flatMap (fun r => (List.range (g.ext 0)).map (fun c => (r, c)))

/-- `tfill` (R222). -/
def State.bankFill (s : State) (who slice : Nat) (g : Geom) (v : Word) : State :=
  let z := g.sizes
  if g.sp then
    let n := z.getD 3 0
    let k := chipKey g.kind slice g.map
    (s.writeAs who slice k (List.replicate n 0)).cleanRange k n
  else
    let k := chipKey g.kind slice g.start
    ((List.range g.count).foldl (fun s i =>
      let a := k + g.byteOf i
      s.writeAs who slice a (g.put i (v.toNat % 2 ^ g.bits) (s.bytesAt a g.nbytes))) s).cleanRange k (z.getD 0 0)

/-- The operation of `tcol` (R223) on w-bit numbers. -/
def colVal (op : TColOp) (w old v : Nat) : Nat :=
  let sg (x : Nat) : Int := if x.testBit (w - 1) then (x : Int) - 2 ^ w else x
  match op with
  | .set => v
  | .add => (old + v) % 2 ^ w
  | .and => old &&& v
  | .or => old ||| v
  | .max => if sg old < sg v then v else old

/-- `tcol` (R223): a broken element is written as zero and its line is poisoned (R216). -/
def State.bankCol (s : State) (who slice : Nat) (g : Geom) (op : TColOp) (v mask : Word) (c : Nat) : State :=
  let rows := (List.range (Nat.min 64 g.rows)).filter (fun r => mask.getLsbD r)
  rows.foldl (fun s r =>
    match g.index [] (g.split r c) with
    | none => s
    | some i =>
      let a := chipKey g.kind slice g.start + g.byteOf i
      if s.broken a g.nbytes then
        (s.writeAs who slice a (List.replicate g.nbytes 0)).setPoison (lineOf a) (s.isTag a 1)
      else
        s.writeAs who slice a (g.put i (colVal op g.bits (leNat (s.bytesAt a g.nbytes)) (v.toNat % 2 ^ g.bits)) [])) s

/-- Copy bytes one by one, as `tcopy` moves a packed array; broken sources become zero and poison the line written. -/
def State.moveBytes (s : State) (who slice src dst step : Nat) (n : Nat) : State :=
  (List.range (ceilDiv n step)).foldl (fun s j =>
    let m := Nat.min step (n - j * step)
    let a := src + j * step
    let b := dst + j * step
    if s.broken a m then (s.writeAs who slice b (List.replicate m 0)).setPoison (lineOf b) (s.isTag a m)
    else s.writeAs who slice b (s.bytesAt a m)) s

/-- `tcopy` (R222): elements, with scales, zero points and bitmap. Both tensors are dense or packed alike. -/
def State.bankMove (s : State) (who slice : Nat) (f g : Geom) : State :=
  let z := f.sizes
  let bm := s.bytesAt (chipKey f.kind slice f.map) (z.getD 3 0)
  let n := if f.sp then countBits bm f.blocks * 8 * f.bits else z.getD 0 0
  let s1 := s.moveBytes who slice (chipKey f.kind slice f.start) (chipKey g.kind slice g.start) g.nbytes n
  let s2 := s1.moveBytes who slice (chipKey f.kind slice f.scl) (chipKey g.kind slice g.scl) 2 (z.getD 1 0)
  let s3 := s2.moveBytes who slice (chipKey f.kind slice f.zpt) (chipKey g.kind slice g.zpt) 1 (if f.gsz = 0 then 0 else z.getD 2 0)
  s3.moveBytes who slice (chipKey f.kind slice f.map) (chipKey g.kind slice g.map) 1 (z.getD 3 0)

/-- A bank operation of a task completes: its writes are plain stores of the issuing thread (R224).
DEDUCED: log entry 26. -/
def State.bankDone (s : State) (tn : Nat) (b : BankOp) : State :=
  let s1 := s.modTask tn (fun t => { t with banks := t.banks.filter (fun x => x.id != b.id) })
  match s.entryOf tn b.tid with
  | none => s1
  | some e =>
    let g := geomOf e
    match b.kind with
    | .fill v => s1.bankFill b.who b.slice g v
    | .col _ op v mask c => s1.bankCol b.who b.slice g op v mask c
    | .move src =>
      match s.entryOf tn src with
      | some f => s1.bankMove b.who b.slice (geomOf f) g
      | none => s1

/-- The operations that a thread has issued complete before a release of it takes effect (R224, R286). -/
def State.flushBanks (s : State) (tn who : Nat) : State :=
  match s.task tn with
  | none => s
  | some t => (t.banks.filter (fun b => b.who == who)).foldl (fun s b => s.bankDone tn b) s

def BankOp.names (b : BankOp) (tid : Nat) : Bool :=
  b.tid == tid || (match b.kind with
    | .move src => src == tid
    | _ => false)

/-- An instruction of a wave that names a tensor waits for the wave's bank operations on it (R224), and for the wave's
matrix commands that have it as C or, where it writes the tensor, as A or B (R274). `mm` is exempt for C. -/
def State.waveHolds (s : State) (tn w tid : Nat) (writes c : Bool) : Bool :=
  match s.task tn, s.wave w with
  | some t, some v =>
    t.banks.any (fun b => b.names tid && b.who / 32 == v.uid) ||
    (((s.slice (w / 48)).mq ++ (s.slice (w / 48)).gates).any (fun m =>
      m.task == tn && m.who / 32 == v.uid && ((c && m.tc == tid) || (writes && (m.ta == tid || m.tb == tid)))))
  | _, _ => false

/-- A copy names a tensor of a task. -/
def Copy.names (c : Copy) (tn space tid : Nat) : Bool :=
  (c.stid == tid || c.dtid == tid) && spaceKey c.vf c.asid == space && (tid < 128 || c.task == some tn)
def MCmd.names (m : MCmd) (tn tid : Nat) : Bool := m.task == tn && (m.ta == tid || m.tb == tid || m.tc == tid)
/-- A lane waits for slots for the rest of a list, some of which has started, that names the tensor (R236). -/
def Wait.names (w : Wait) (tid : Nat) : Bool :=
  match w with
  | .copySlot _ r true => r.any (fun q => q.stid == tid || q.dtid == tid)
  | _ => false

/-- Every engine command naming the tid has completed (R218, R219): bank operations, copies, and matrix commands, gated and
staged ones included (R275), and those that a save has put aside (R183). -/
def State.engineNames (s : State) (tn tid : Nat) : Bool :=
  match s.task tn with
  | none => false
  | some t =>
    t.banks.any (fun b => b.names tid) ||
    s.slices.any (fun p =>
      p.2.copies.any (fun c => c.names tn t.space tid) ||
      (p.2.mq ++ p.2.gates ++ p.2.stages.map (fun x => x.2.cmd)).any (fun m => m.names tn tid)) ||
    (s.ctx t.space).saved.any (fun v =>
      v.copies.any (fun c => c.names tn t.space tid) || (v.gates ++ v.stages.map (fun x => x.2.cmd)).any (fun m => m.names tn tid)) ||
    s.lanes.any (fun p => p.2.wait.names tid && (s.taskNo p.1 == tn || (tid < 128 && s.spaceOf p.1 == t.space)))

/-- A request of a copy is parked, in the replay queue or held in the engine (R237). -/
def Slice.parked (x : Slice) (id req : Nat) : Bool := x.replay.contains (id, req) || x.held == some (id, req)
/-- Requests of a copy that are on their way to flash: they complete before a save (R377). -/
def Slice.flashBusy (x : Slice) (c : Copy) : Bool :=
  ((geomOf c.src).kind == 4 || (geomOf c.dst).kind == 4) && c.reqs.any (fun q => q.issued && !q.done && !x.parked c.id q.id)
/-- The held request enters the queue when an entry has become free (R237). -/
def Slice.settleHeld (x : Slice) : Slice :=
  match x.held with
  | some p => if x.replay.length < 16 then { x with replay := x.replay ++ [p], held := none } else x
  | none => x

/-- A `tcol.all` on the tile is in progress (R223). -/
def Task.editing (t : Task) (tid : Nat) : Bool :=
  t.banks.any (fun b => b.tid == tid && (match b.kind with
    | .col all _ _ _ _ => all
    | _ => false))

end Sys2Proof.Machine
end

