-- ==== Sys2Proof/Machine/Ops.lean ====
section
/-! DEFINITION. The named operations over threads and memory: the expression stack (R81 to R89), taking a trap (R344)
and returning from one (R346), the end of a thread, and the events of a virtual function. -/

namespace Sys2Proof.Machine

/-- Keys of the strand that issues, in increasing lane order. -/
def State.active (s : State) : List Nat := s.iss.lanes.map (laneKey s.iss.slice s.iss.place)

-- TSTAT, FCTL, ESTAT (R29, R129, R339).
def Mode.code : Mode → Nat
  | .u => 0 | .s => 1 | .h => 2
def Mode.ofCode (n : Nat) : Mode := if n = 0 then .u else if n = 1 then .s else .h
def Ilk.code : Ilk → Nat
  | .trust => 0 | .check => 1 | .lock => 2
def Ilk.ofCode (n : Nat) : Ilk := if n = 0 then .trust else if n = 1 then .check else .lock
def TStat.nat (t : TStat) : Nat :=
  t.tlvl * 1024 + bit t.cute * 512 + bit t.dzt * 256 + bit t.dz * 64 + bit t.prb * 32 + bit t.prbm * 16 +
    t.ilk.code * 4 + t.mode.code
def TStat.word (t : TStat) : Word := BitVec.ofNat 64 t.nat
def fctlMask : Word := 0x3F3#64

/-- Interlock mode in force: S and H run under LOCK (R51). -/
def Lane.ilk (l : Lane) : Ilk := if l.ts.mode = .u then l.ts.ilk else .lock

def Lane.chain (l : Lane) (m : Mode) : Chain :=
  match m with
  | .u => l.chU | .s => l.chS | .h => l.chH
def Lane.setChain (l : Lane) (m : Mode) (c : Chain) : Lane :=
  match m with
  | .u => { l with chU := c } | .s => { l with chS := c } | .h => { l with chH := c }
def Lane.cur (l : Lane) : Chain := l.chain l.ts.mode
def Lane.setCur (l : Lane) (c : Chain) : Lane := l.setChain l.ts.mode c

-- The stack in use (R94, R342).
def Lane.stk (l : Lane) : List Entry := if l.ts.tlvl = 0 then l.chip else l.hchip
def Lane.back (l : Lane) : Nat := if l.ts.tlvl = 0 then l.g else l.hg
def Lane.setStk (l : Lane) (c : List Entry) (g : Nat) : Lane :=
  if l.ts.tlvl = 0 then { l with chip := c, g := g } else { l with hchip := c, hg := g }
def Lane.depth (l : Lane) : Nat := l.stk.length + l.back
/-- The place of the entry with a bottom index: the stack of each trap level has places of its own. -/
def Lane.posKey (l : Lane) (i : Nat) : Nat := 2 * (i + 2048 * l.ts.tlvl)
/-- The place of a slot of the level-k record (R343). -/
def recKey (lvl i : Nat) : Nat := 2 * (1024 + 2048 * lvl + i)
/-- The depth limit of R89 and R342. -/
def Lane.limit (l : Lane) : Nat := if l.ts.mode = .u then 1024 else 128
/-- On-chip capacity C of the stack in use (R80, R342). -/
def State.cap (s : State) (k : Nat) (l : Lane) : Nat :=
  if l.ts.tlvl = 0 then 8 + 8 * ((s.wave (waveOf k)).map (·.sb)).getD 0 else 8

/-- Where an extent of the task serves an address (R198): the key of the byte, and the level of the entry that maps it. -/
def extentAt (es : List Extent) (write : Bool) (va : Nat) : Option (Nat × Nat) :=
  es.findSome? (fun e =>
    let i := va / 65536 - e.page
    if e.page ≤ va / 65536 && va / 65536 < e.page + e.frames.length && (e.w || !write) then
      (e.frames[i]?).map (fun f => (f + va % 65536, e.levels.getD i 2))
    else none)
def extentKey (es : List Extent) (write : Bool) (va : Nat) : Option Nat := (extentAt es write va).map (·.1)

/-- Base of the mode areas of a mode (R340). -/
def baseAddr (w : Word) : Nat := w.toNat / 4096 % 2 ^ 40 * 4096
def State.modeBase (s : State) (k : Nat) (m : Mode) : Nat :=
  match m with
  | .h => baseAddr (s.vf (s.spaceOf k / 16384)).hsbase
  | _ => baseAddr (s.ctx (s.spaceOf k)).ssbase
/-- A lane's mode area under a base (R341): (48 × s + p) × 32 + l is the lane's key. -/
def areaAt (base k : Nat) : Nat := base + 4096 * k
/-- The mode area of a lane's trap level: a write to `SSBASE` or `HSBASE` counts from the next trap entry on, and each level
keeps the base with which it was entered (R340). DEDUCED: log entry 55. -/
def Lane.area (l : Lane) (k : Nat) : Nat := areaAt (l.bases.headD 0) k

/-- Where the backing entry with bottom index i lies (R82, R341). R193 puts the backing area of a thread inside an
extent with W = 1, so the last case of the lookup does not arise for a placed task. -/
def State.backKey (s : State) (k : Nat) (l : Lane) (i : Nat) : Nat :=
  if l.ts.tlvl = 0 then
    match s.taskOf k with
    | some t => (extentKey t.extents true (t.back.toNat + l.thx * 8192 + 8 * i)).getD (2 ^ 100 + 8 * i)
    | none => 2 ^ 100 + 8 * i
  else l.area k + 1024 * (l.ts.tlvl - 1) + 8 * i

/-- HBM ends at 512 GiB (R9). -/
def State.touch (s : State) (key : Nat) : State :=
  if hbmSize ≤ key && key < 2 ^ 52 then { s with bad := some key } else s

/-- A write by a thread: it enters the location order and the thread's own view (R288). -/
def State.laneWrite (s : State) (k : Nat) (a : Nat) (bytes : List Byte) (strong : Option Scope)
    (rel : Option Nat) (point : Nat) : State :=
  let id := s.nextId
  ((s.touch a).write a bytes (sliceOf k) (s.who k) strong rel point).modLane k
    (fun l => { l with view := viewRange a id bytes.length l.view })

def State.storeWord (s : State) (k : Nat) (a : Nat) (v : Word) : State :=
  s.laneWrite k a (leBytes 8 v.toNat) none none 0

/-- What a thread must respect at an address (R288), with the releases the address depends on (R291). -/
def State.floorOf (s : State) (k : Nat) (l : Lane) (deps : List Nat) : Map Nat :=
  viewJoin l.view (viewJoin l.seen (depsView s.rels (sliceOf k) deps))

/-- A read by a thread: `floor` is what it must respect besides its own view, `must` says which writes it cannot miss. -/
def State.laneReadAt (s : State) (k : Nat) (deps : List Nat) (floor : Map Nat) (must : WriteRec → Bool) (a n : Nat) :
    Seen × State :=
  match s.lane k with
  | none => ({ bytes := peeks s.mem a n, ids := [], rels := [] }, s)
  | some l =>
    let (v, s1) := (s.touch a).readVer (viewJoin floor (s.floorOf k l deps)) must a n
    (v, s1.modLane k (fun l => { l with seen := seenUpdate a v.ids l.seen }))

/-- A load: the stores of its wave are served by the same L1 in issue order (R155). -/
def State.laneReadBy (s : State) (k : Nat) (deps : List Nat) (must : WriteRec → Bool) (a n : Nat) : Seen × State :=
  s.laneReadAt k deps [] (fun w => w.who / 32 == s.who k / 32 || must w) a n

/-- A plain read by a thread (R288). DEDUCED: log entry 20. -/
def State.laneRead (s : State) (k : Nat) (deps : List Nat) (a n : Nat) : Seen × State :=
  s.laneReadBy k deps (fun _ => false) a n

/-- A read of one entry in backing store by its thread (R87). -/
def State.laneEntry (s : State) (k a : Nat) : Seen × State :=
  match s.lane k with
  | none => ({ bytes := peeks s.mem a 8, ids := [], rels := [] }, s)
  | some l =>
    let (v, s1) := (s.touch a).readEntry (s.floorOf k l []) (fun w => w.who / 32 == s.who k / 32) a 8
    (v, s1.modLane k (fun l => { l with seen := seenUpdate a v.ids l.seen }))

/-- n entries of a record, one after another: each is one author's value (R341). -/
def State.laneEntries (s : State) (k a : Nat) : Nat → List (List Byte) × State
  | 0 => ([], s)
  | n + 1 =>
    let (v, s1) := s.laneEntry k a
    let (vs, s2) := s1.laneEntries k (a + 8) n
    (v.bytes :: vs, s2)

/-- A release by a thread (R286): its own writes and its view. -/
def State.release (s : State) (k : Nat) (sc : Scope) : State :=
  let s1 := s.flushBanks (s.taskNo k) (s.who k)
  match s1.lane k with
  | some l => s1.addRel (sliceOf k) sc l.view
  | none => s1

/-- A strong store or atomic that an access at scope `sc` on `slice` cannot miss: each scope includes the other agent
(R156, R292). -/
def strongTo (sc : Scope) (slice : Nat) (w : WriteRec) : Bool :=
  match w.strong with
  | some t => scopeJoins t w.slice slice && scopeJoins sc slice w.slice
  | none => false

/-- A strong write by a thread at a scope: no strong access there misses it (R156, `strongTo`). With `rel` it is a release, which
boundaries take in; without, they do not (R286, R287). DEDUCED: log entry 18. -/
def State.strongWrite (s : State) (k : Nat) (a : Nat) (bytes : List Byte) (sc : Scope) (rel : Bool) (point : Nat) :
    State :=
  let s0 := if rel then s.flushBanks (s.taskNo k) (s.who k) else s
  let relId := s0.nextId
  let s1 := if rel then s0.release k sc else s0
  let id := s1.nextId
  let s2 := s1.laneWrite k a bytes (some sc) (if rel then some relId else none) point
  if rel then s2.addRel (sliceOf k) sc (viewRange a id bytes.length []) else s2

/-- A phase boundary of a thread (R287), now. -/
def State.boundary (s : State) (k : Nat) (sc : Scope) : State :=
  s.modLane k (fun l => { l with view := boundaryView s.rels (sliceOf k) sc l.view, ord := s.nextId })

/-- A boundary that took effect before the writes and releases numbered m and above: an acquire may be satisfied earlier
than it issues, though not before the thread's last boundary (R292, R294). -/
def State.boundaryAt (s : State) (k : Nat) (sc : Scope) (m : Nat) : State :=
  s.modLane k (fun l => { l with
    view := boundaryView (s.rels.filter (fun r => r.id < m)) (sliceOf k) sc l.view, ord := m })

/-- A quiescent point (R301): only at trap level 0, and once the bank operations of the thread have completed. Its loads,
stores and atomics have their place in the location order from their issue on. DEDUCED: log entry 36. -/
def State.quiesce (s : State) (k : Nat) : State :=
  match s.lane k with
  | some l =>
    if l.ts.tlvl = 0 then
      ((s.flushBanks (s.taskNo k) (s.who k)).modLane k (fun l => { l with qg := (s.ctx (s.spaceOf k)).gBegun })).boundary k .device
    else s
  | none => s

/-- The slice cycle of what happens now: a strand whose lanes drain issues 4 cycles after its turn (R83, R86). -/
def State.time (s : State) (slice : Nat) : Nat :=
  s.cycle slice + (if s.iss.late && slice == s.iss.slice then 4 else 0)

/-- The whole wave issues nothing for n cycles (R86). DEDUCED: log entry 45. -/
def State.stallWave (s : State) (w n : Nat) : State :=
  s.modWave w (fun v => { v with stall := Nat.max v.stall (s.time (w / 48) + 1 + n) })

/-- The same, n cycles from a later cycle on; till then other strands of the wave issue (R344). -/
def State.stallFrom (s : State) (w T n : Nat) : State :=
  if T ≤ s.time (w / 48) then s.stallWave w n
  else s.modWave w (fun v => { v with pauses := v.pauses ++ [(T + 1, T + 1 + n)] })

/-- The whole wave issues nothing until what it reads or writes is there, and for at least 4 cycles (R86, R344): how long
is a free value. -/
def State.stallMore (s : State) (w : Nat) : State :=
  let (d, s1) := freeDelay s
  s1.stallWave w (4 + d)
def State.stallMoreFrom (s : State) (w T : Nat) : State :=
  let (d, s1) := freeDelay s
  s1.stallFrom w T (4 + d)

/-- The values that a position has held are kept under TRUST (R52). -/
def notePast (l : Lane) (key : Nat) (v : Word) (deps : List Nat) : Lane :=
  if l.ts.ilk = .trust then
    let old := mgetD l.past key []
    if old.contains ⟨v, deps⟩ then l else { l with past := mset l.past key (⟨v, deps⟩ :: old) }
  else l

/-- Push an entry; the on-chip room was made by `drain`. -/
def Lane.push (l : Lane) (e : Entry) : Lane :=
  let l := notePast l (l.posKey l.depth) e.val e.deps
  l.setStk (e :: l.stk) l.back

/-- Pop n entries: those in backing store are popped by lowering g (R85). -/
def Lane.popN (l : Lane) (n : Nat) : Lane :=
  l.setStk (l.stk.drop n) (l.back - (n - l.stk.length))

/-- An entry is kept in backing store: its value, and what it depends on (R85, R291). A store over no link is discarded (R385). -/
def State.storeDeep (s : State) (k : Nat) (l : Lane) (i : Nat) (v : Word) (deps : List Nat) : State :=
  let key := s.backKey k l i
  (if s.cutOff key then s else s.storeWord k key v).modLane k (fun x => { x with under := msetD x.under (l.posKey i) deps [] })

/-- Cause with detail words. -/
def mkCause (g a b c : Nat) : Cause :=
  { group := g, w0 := BitVec.ofNat 32 a, w1 := BitVec.ofNat 32 b, w2 := BitVec.ofNat 32 c, asy := false }

/-- SOFT_ERROR at entry or slot i of the slot file or of the trap reserve: the error persists after retry (R351). DESIGN CHOICE:
log entry 48. -/
def softErr (i : Nat) : Cause := mkCause 15 (3 * 256 + 2) i 0

/-- A drain reads an entry whose parity is in error: the lane takes SOFT_ERROR before its next instruction. DESIGN CHOICE: log
entry 48. -/
def Lane.drainSoft (l : Lane) (base : Nat) (out : List Entry) : Lane :=
  match out.zipIdx.find? (fun p => p.1.soft) with
  | some p => { l with integ := some (softErr (base + p.2)) }
  | none => l

/-- The 4 on-chip entries with the lowest bottom indices go to backing store (R83). -/
def drainOnce (s : State) (k : Nat) : State :=
  match s.lane k with
  | none => s
  | some l =>
    let n := l.stk.length
    let out := (l.stk.drop (n - 4)).reverse
    let s1 := s.setLane k ((l.setStk (l.stk.take (n - 4)) (l.back + out.length)).drainSoft l.back out)
    (out.zipIdx).foldl (fun s p => s.storeDeep k l (l.back + p.2) p.1.val p.1.deps) s1

def drainTo (s : State) (k net : Nat) : Nat → State
  | 0 => s
  | f + 1 =>
    match s.lane k with
    | none => s
    | some l => if s.cap k l < l.stk.length + net then drainTo (drainOnce s k) k net f else s

/-- Drain until h + net ≤ C (R83). -/
def State.drain (s : State) (k net : Nat) : State := drainTo s k net 20


/-- INTEGRITY or HARDWARE on memory (R351); INTEGRITY too where no link reaches it (R385). -/
def memCause (s : State) (key n va : Nat) : Option Cause :=
  if s.cutOff key then some (mkCause 14 1 va (va / 2 ^ 32 % 2 ^ 24))
  else if s.isPoison key n then some (mkCause 14 (if s.isTag key n then 2 else 1) va (va / 2 ^ 32 % 2 ^ 24))
  else if s.isEcc key n then some (mkCause 15 1 va (va / 2 ^ 32 % 2 ^ 24))
  else none

/-- Virtual address of a backing entry of the thread's own stack; 0 in a mode area (R82). -/
def State.backVa (s : State) (k : Nat) (l : Lane) (i : Nat) : Nat :=
  if l.ts.tlvl = 0 then ((s.taskOf k).map (fun t => t.back.toNat)).getD 0 + l.thx * 8192 + 8 * i else 0

/-- Poison or an error met in backing store: the lane takes the cause before its next instruction (R87). -/
def State.backCause (s : State) (k : Nat) (l : Lane) (i : Nat) : Option Cause :=
  (memCause s (s.backKey k l i) 8 (s.backVa k l i)).map (fun c => { c with w0 := c.w0 ||| 0x200#32 })

/-- The entry at a position below the on-chip ones (R85). -/
def State.deepRead (s : State) (k : Nat) (l : Lane) (p : Nat) : Entry × State :=
  let i := l.depth - 1 - p
  let (v, s1) := s.laneEntry k (s.backKey k l i)
  let s2 := match s.backCause k l i with
    | some c => s1.modLane k (fun x => { x with integ := some c })
    | none => s1
  ({ val := BitVec.ofNat 64 (leNat v.bytes), deps := mgetD l.under (l.posKey i) [] }, s2.stallMore (waveOf k))

/-- The entry at a position (R81). -/
def State.pos (s : State) (k : Nat) (l : Lane) (p : Nat) : Entry × State :=
  match l.stk[p]? with
  | some e => (e, s)
  | none => s.deepRead k l p

def sat32 (n : Nat) : Nat := Nat.min n (2 ^ 32 - 1)

/-- Code of a cause (R350): bits 7:0 of `EDW0` where the group has codes; the reason or kind otherwise. -/
def causeCode (c : Cause) : Nat :=
  if c.group = 4 || c.group = 5 || c.group = 6 then c.w2.toNat % 256
  else if c.group = 1 || c.group = 10 || c.group = 11 || c.group = 12 || c.group = 13 then 0
  else c.w0.toNat % 256

/-- Route of a trap (R338). -/
def route (deleg : Word) (sEn : Bool) (m : Mode) (group code : Nat) : Mode :=
  if group = 11 || (group = 15 && code = 3) then .h
  else if m = .h then .h
  else if deleg.getLsbD group && sEn then .s
  else .h

def State.routeOf (s : State) (k : Nat) (l : Lane) (c : Cause) : Mode :=
  let sp := s.spaceOf k
  route (s.vf (sp / 16384)).tdeleg ((s.ctx sp).ssbase.getLsbD 0) l.ts.mode c.group (causeCode c)
def State.hypOn (s : State) (k : Nat) : Bool := (s.vf (s.spaceOf k / 16384)).hsbase.getLsbD 0

/-- Set a bit of EVENT, which raises MSI-X vector 0 (R384). -/
def State.raise (s : State) (v bitNo : Nat) : State :=
  s.modVf v (fun f => { f with event := f.event ||| 2 ^ bitNo, msix := f.msix ++ [0] })

/-- Drop the frame row a thread has reserved: HELD and WAKE clear (R252). -/
def State.dropResv (s : State) (k : Nat) : State :=
  match s.lane k with
  | some l =>
    match l.resv with
    | some (t, r) =>
      (s.modTask (s.taskNo k) (fun x => modTens x t (fun e =>
        setWord (setWord e 4 (clearBit (wordOf e 4) r)) 6 (clearBit (wordOf e 6) r)))).modLane k
        (fun l => { l with resv := none })
    | none => s
  | none => s

/-- The values that the task last wrote in local block j of a wave, slot by slot (R121). -/
def blockOf (w : Wave) (j : Nat) : Map Left :=
  (w.slots.filter (fun p => p.1 / 256 == j)).foldl (fun m p => mset m (p.1 % 256) ⟨p.2.val, p.2.deps⟩)
    ((w.was.filter (fun p => p.1 / 256 == j)).map (fun p => (p.1 % 256, p.2)))

/-- Pending or restorable work of a virtual function (R366). -/
def State.hasWork (s : State) (v : Nat) : Bool :=
  s.reels.any (fun p => p.2.vf == v && p.2.pending) || s.launches.any (fun p => p.2.vf == v) ||
  s.tasks.any (fun p => p.2.vf == v) || s.ctxs.any (fun p => p.1 / 16384 == v && !p.2.saved.isEmpty)

/-- The ages of a task's rows stood still for n cluster cycles (R262). -/
def Task.heldBack (t : Task) (n : Nat) : Task := { t with rows := t.rows.map (fun r => (r.1, { r.2 with since := r.2.since + n })) }

/-- Blockers of a period that has begun, force-saved or saved at a trap level above 0, give their context a boost (R303). -/
def Ctx.boostDue (c : Ctx) : Bool :=
  decide (c.gDone < c.gBegun) && c.saved.any (fun v => v.lanes.any (fun p => !p.2.passive && p.2.qg < c.gBegun))
/-- A context had a boost when the take of its virtual function began, and is not restored yet. -/
def Ctx.owed (c : Ctx) : Bool := c.boost && !c.saved.isEmpty
/-- A virtual function has such a context. DESIGN CHOICE: log entry 33. -/
def State.owes (s : State) (v : Nat) : Bool := s.ctxs.any (fun p => p.1 / 16384 == v && p.2.owed)
/-- The context takes no place while a boosted one waits for its own (R366). -/
def State.behind (s : State) (sp : Nat) : Bool := s.owes (sp / 16384) && !(s.ctx sp).owed

/-- The next take, round-robin (R366); the contexts that have a boost are restored first in it (R303). -/
def State.grantTake (s : State) : State :=
  if s.take.isSome then s
  else
    match ((List.range 16).map (fun i => (s.lastTake + 1 + i) % 16)).find? (fun v => (s.vf v).quantum != 0 && s.hasWork v) with
    | some v => { s with
        take := some v, lastTake := v, takeAt := s.micros
        ctxs := s.ctxs.map (fun p => if p.1 / 16384 = v then (p.1, { p.2 with boost := p.2.boostDue }) else p)
        tasks := s.tasks.map (fun p => if p.2.vf = v then (p.1, p.2.heldBack (s.now - (s.vf v).left)) else p) }
    | none => s

/-- A copy or a command belongs to a context. -/
def Copy.of (c : Copy) (sp : Nat) : Bool := spaceKey c.vf c.asid == sp
def State.mOf (s : State) (sp : Nat) (m : MCmd) : Bool := (s.task m.task).map Task.space == some sp
def pairOf (cs : List Copy) (q : Nat × Nat) : Bool := cs.any (fun c => c.id == q.1)

/-- The engines of a slice have something of a context that completes before a save: a matrix command in the queue (R183), or
a flash request on its way (R377). -/
def State.engineBusy (s : State) (sp : Nat) (x : Slice) : Bool :=
  x.mq.any (s.mOf sp) || x.copies.any (fun c => c.of sp && x.flashBusy c)

/-- The number that stands for the maker of a packet's copies, which are no task's. -/
def noTask : Nat := 2 ^ 64
/-- What the engines of a slice hold for a context whose waves are gone is saved with it (R183): for each task a record without
lanes, which counts as one of its task's, and one for the copies of packets. -/
def State.engineSaved (s : State) (sp slice : Nat) (x : Slice) : List Saved :=
  let cs := x.copies.filter (fun c => c.of sp)
  let gs := x.gates.filter (s.mOf sp)
  let ss := x.stages.filter (fun p => s.mOf sp p.2.cmd)
  (cs.map (fun c => c.task.getD noTask) ++ gs.map (·.task) ++ ss.map (fun p => p.2.cmd.task)).dedup.map (fun tn =>
    let cs := cs.filter (fun c => c.task.getD noTask == tn)
    { wave := { uid := 0, task := tn, num := 0, sb := 0, nlb := 0 }
      lanes := [], slice := slice, copies := cs, replay := x.replay.filter (pairOf cs), held := x.held.filter (pairOf cs)
      again := x.again.filter (pairOf cs)
      gates := gs.filter (fun m => m.task == tn), stages := ss.filter (fun p => p.2.cmd.task == tn) })
def Slice.without (x : Slice) (cs : List Copy) (gs : List MCmd) (ks : List Nat) : Slice :=
  ({ x with
    copies := x.copies.filter (fun c => !cs.any (fun d => d.id == c.id))
    replay := x.replay.filter (fun q => !pairOf cs q), held := x.held.filter (fun q => !pairOf cs q)
    again := x.again.filter (fun q => !pairOf cs q)
    gates := x.gates.filter (fun m => !gs.any (fun d => d.id == m.id))
    stages := x.stages.filter (fun p => !ks.contains p.1) } : Slice).settleHeld
def State.saveEngines (s : State) (sp : Nat) : State :=
  s.slices.foldl (fun s p => (s.engineSaved sp p.1 p.2).foldl (fun s v =>
    (s.modSlice p.1 (fun x => x.without v.copies v.gates (v.stages.map (·.1)))).modCtx sp
      (fun c => { c with saved := c.saved ++ [v] })) s) s

/-- The cuts that are complete (R184): no wave of the context is left on the device, and its engines are drained. -/
def State.cutsDone (s : State) : List Nat :=
  (s.ctxs.filter (fun p => p.2.cut && !s.waves.any (fun w => ((s.task w.2.task).map Task.space) == some p.1) &&
    !s.slices.any (fun x => s.engineBusy p.1 x.2))).map (·.1)

/-- A cut is complete: what is left of the context in the engines is saved with it, and a QUIESCE packet that waits for the
cut completes (R359). When no cut of the virtual function is left, its take is over, and the next one begins (R366). -/
def State.settleCuts (s : State) : State :=
  let done := s.cutsDone
  let reel (r : Reel) : Reel :=
    match r.quiesce with
    | some i => if done.contains (spaceKey r.vf r.asid) then { r with quiesce := none, results := mset r.results i 0 } else r
    | none => r
  let s0 := done.foldl (fun s sp => s.saveEngines sp) s
  let s1 : State := { s0 with
    ctxs := s0.ctxs.map (fun p => if done.contains p.1 then (p.1, { p.2 with cut := false, arrived := [] }) else p)
    reels := s0.reels.map (fun p => (p.1, reel p.2)) }
  match s1.take with
  | some v =>
    if s1.ending && !s1.ctxs.any (fun p => p.2.cut && p.1 / 16384 == v) then
      ({ s1.modVf v (fun f => { f with left := s.now }) with take := none, ending := false } : State).grantTake
    else s1
  | none => s1

/-- A wave ends: its local blocks go to its task's pool, its stack blocks become free (R120). -/
def State.endWave (s : State) (w : Nat) : State :=
  match s.wave w with
  | none => s
  | some v =>
    let bs := (List.range v.nlb).map (blockOf v)
    { s.modSlice (w / 48) (fun x => { x with pools := mset x.pools v.task (mgetD x.pools v.task [] ++ bs) }) with
      waves := mdel s.waves w }.settleCuts

/-- A thread leaves its wave; the last one ends the wave (R145, R205). -/
def State.leave (s : State) (k : Nat) : State :=
  let s1 := s.dropResv k
  let s2 := { s1 with lanes := mdel s1.lanes k }
  if (s2.waveLanes (waveOf k)).isEmpty then s2.endWave (waveOf k) else s2

/-- A lane is stopped (R348): it ends, DEAD_THREAD is posted to its context and set in EVENT. -/
def State.stopLane (s : State) (k : Nat) (c : Cause) : State :=
  match s.lane k with
  | none => s
  | some l =>
    let sp := s.spaceOf k
    let d := mkCause 15 3 l.thx (causeCode c * 256 + c.group)
    let post : Ctx → Ctx := fun x => if x.dead.isSome then x else { x with dead := some { d with asy := true } }
    ((((s.release k .device).leave k).modCtx sp post).raise (sp / 16384) 1).note (.contextCause (sp / 16384) (sp % 16384))

/-- What a thread has written to its slots. -/
def State.slotsOf (s : State) (k : Nat) : List Entry :=
  ((s.wave (waveOf k)).map (fun w => (w.slots.filter (fun p => p.1 % 32 == laneNo k)).map (·.2))).getD []
/-- The cycle from which every result of a thread is ready, on its stacks and in its slots (R49, R54). -/
def State.readyAt (s : State) (k : Nat) (l : Lane) : Nat := (l.chip ++ l.hchip ++ s.slotsOf k).foldl (fun m e => Nat.max m e.ready) 0
def Entry.arrived (e : Entry) : Entry := { e with pend := false, ready := 0 }
/-- Every result of a thread is ready at a slice cycle (R54). -/
def State.settledBy (s : State) (k : Nat) (l : Lane) (t : Nat) : Bool :=
  (l.chip ++ l.hchip ++ s.slotsOf k).all (fun e => !e.pend && e.ready ≤ t)
/-- The results of a thread's loads and atomics are there. -/
def Lane.loadsBy (l : Lane) (t : Nat) : Bool := (l.chip ++ l.hchip).all (fun e => !e.acc || (!e.pend && e.ready ≤ t))

/-- At trap level 0, the results of its loads and atomics are there (R301). -/
def Lane.quietBy (l : Lane) (t : Nat) : Bool := l.ts.tlvl != 0 || l.chip.all (fun e => !e.acc || (!e.pend && e.ready ≤ t))

/-- A level-k record (R343): frame, then the state of level k − 1. -/
def recordBytes (l : Lane) (fr : List Entry) : List Byte :=
  (List.range 8).flatMap (fun i => leBytes 8 ((fr.getD i ({} : Entry)).val.toNat)) ++
  leBytes 8 l.epc.toNat ++ leBytes 8 l.estat.toNat ++
  leBytes 8 (l.ecg.toNat % 32 + l.efh * 256 + l.hg * 65536) ++
  leBytes 8 (l.edw0.toNat % 2 ^ 32 + l.edw1.toNat % 2 ^ 32 * 2 ^ 32) ++
  leBytes 8 (l.edw2.toNat % 2 ^ 32) ++ List.replicate 24 0

def recordOff (lvl : Nat) : Nat := if lvl = 2 then 0xC00 else 0xC80

/-- Where a parity error of the slot file (n below 64) or of the trap reserve (64 + entry) of a lane is noted (R351). -/
def softKey (k n : Nat) : Nat := 128 * k + n
/-- A write puts it right. -/
def State.mendSoft (s : State) (k n : Nat) : State := { s with parity := mdel s.parity (softKey k n) }
/-- All of a range of lanes, from key `lo` up to `hi`. -/
def State.mendAll (s : State) (lo hi : Nat) : State := { s with parity := s.parity.filter (fun p => p.1 < lo || hi ≤ p.1) }
def State.softCause (s : State) (k n i : Nat) : Option Cause :=
  if (mget s.parity (softKey k n)).isSome then some (softErr i) else none

/-- The record of an entry at level 2 or 3 keeps what its frame depends on. -/
def Lane.keepDeps (l : Lane) (lvl : Nat) (fr : List Entry) : Lane :=
  { l with under := fr.zipIdx.foldl (fun m p => msetD m (recKey lvl p.2) p.1.deps []) l.under }

/-- A lane takes a trap (R344). One that waited passively is passive no longer (R300). What the lane owes from a deep read
of the instruction that traps is dropped (R87). DEDUCED: log entry 25. -/
def State.enterTrap (s : State) (k : Nat) (c : Cause) : State :=
  match s.lane k with
  | none => s
  | some l =>
    let target := s.routeOf k l c
    if l.ts.tlvl = 3 || (target = .h && !s.hypOn k) then s.stopLane k c
    else
      let lvl := l.ts.tlvl + 1
      let e := Nat.min 8 l.stk.length
      let fr := ((l.stk.take e).reverse).map Entry.arrived
      let sp := s.spaceOf k
      let vec := if target = .s then (s.ctx sp).stvec else (s.vf (sp / 16384)).htvec
      let s1 := if lvl = 1 then s.mendAll (softKey k 64) (softKey k (64 + e))
        else s.laneWrite k (areaAt (s.modeBase k target) k + recordOff lvl) (recordBytes l fr) none none 0
      let at_ := Nat.max (s.readyAt k l) (s.time (sliceOf k))
      let g := if l.passive then (s.ctx sp).gBegun else l.qg
      let s2 := s1.modLane k (fun x => { (if lvl = 1 then x else x.keepDeps lvl fr) with
        passive := false, qg := g
        chip := (if lvl = 1 then x.chip.drop e else x.chip).map Entry.arrived
        hchip := [], hg := 0
        frame := if lvl = 1 then fr ++ x.frame.drop e else x.frame
        epc := x.pc
        estat := BitVec.ofNat 64 (x.ts.nat % 4096 + bit c.asy * 32768)
        ecg := BitVec.ofNat 64 c.group
        edw0 := c.w0.setWidth 64, edw1 := c.w1.setWidth 64, edw2 := c.w2.setWidth 64
        efh := e
        ts := { x.ts with mode := target, tlvl := lvl, prbm := false }
        bases := s.modeBase k target :: l.bases
        watch := none
        wait := .none
        integ := none
        next := Nat.max l.next (at_ + 1)
        pc := vec })
      if lvl = 1 then s2.stallFrom (waveOf k) at_ 4 else s2.stallMoreFrom (waveOf k) at_

/-- Frame slots of the current level, from the trap reserve or from the record (R343, R349). -/
def State.frameOf (s : State) (k : Nat) (l : Lane) : List Entry × State :=
  if l.ts.tlvl ≤ 1 then (l.frame, s)
  else
    let (vs, s1) := s.laneEntries k (l.area k + recordOff l.ts.tlvl) 8
    (vs.zipIdx.map (fun v => { val := BitVec.ofNat 64 (leNat v.1), deps := mgetD l.under (recKey l.ts.tlvl v.2) [] }), s1)

/-- What a return restores besides the frame: the stack below it (R346). -/
def returnDepth (l : Lane) (rec : List Byte) : Nat :=
  if l.ts.tlvl = 1 then l.chip.length + l.g else leNat ((rec.drop 0x50).take 8) / 65536 % 256

/-- Bytes of the current level's record; empty at level 1. -/
def State.recordOf (s : State) (k : Nat) (l : Lane) : List Byte × State :=
  if l.ts.tlvl ≤ 1 then ([], s)
  else
    let (vs, s1) := s.laneEntries k (l.area k + recordOff l.ts.tlvl) 16
    (vs.flatten, s1)

def recWord (rec : List Byte) (off : Nat) : Nat := leNat ((rec.drop off).take 8)

/-- The bits of `ESTAT` that are not reserved (R7, R339). -/
def estatMask : Word := 0x8FFF#64

/-- A lane returns from its innermost frame (R346): the checks were made. -/
def State.leaveTrap (s : State) (k : Nat) : State :=
  match s.lane k with
  | none => s
  | some l =>
    let (fr, s1) := s.frameOf k l
    let (rec, s2) := s1.recordOf k l
    let prv := l.estat.toNat
    let lvl := l.ts.tlvl
    let up := ((fr ++ List.replicate 8 ({} : Entry)).take l.efh).reverse
    let at_ := Nat.max (s.readyAt k l) (s.time (sliceOf k))
    let ts : TStat := { l.ts with
      mode := Mode.ofCode (prv % 4), tlvl := lvl - 1, prbm := prv.testBit 4, dzt := prv.testBit 8,
      cute := prv.testBit 9 }
    let upd : Lane → Lane := fun x =>
      let x : Lane := { x with ts := ts, watch := none, next := Nat.max l.next (at_ + 1), pc := l.epc, hchip := [], hg := 0, bases := l.bases.tail }
      if lvl = 1 then up.reverse.foldl (fun x e => x.push e) { x with chip := l.chip }
      else up.reverse.foldl (fun x e => x.push e) { x with
        hg := recWord rec 0x50 / 65536 % 256
        epc := BitVec.ofNat 64 (recWord rec 0x40)
        estat := BitVec.ofNat 64 (recWord rec 0x48) &&& estatMask
        ecg := BitVec.ofNat 64 (recWord rec 0x50 % 32)
        efh := Nat.min 8 (recWord rec 0x50 / 256 % 16)
        edw0 := BitVec.ofNat 64 (recWord rec 0x58 % 2 ^ 32)
        edw1 := BitVec.ofNat 64 (recWord rec 0x58 / 2 ^ 32)
        edw2 := BitVec.ofNat 64 (recWord rec 0x60 % 2 ^ 32) }
    let s3 := ((s2.modLane k upd).drain k 0).boundary k .device
    if lvl = 1 then s3.stallFrom (waveOf k) at_ 4 else s3.stallMoreFrom (waveOf k) at_

/-- An instruction whose memory exists ends in its next state. -/
def finish (s : State) : Host.Outcome State Fault Refusal :=
  match s.bad with
  | some a => .fault (.noMemory a)
  | none => .next s

end Sys2Proof.Machine
end

