-- ==== Sys2Proof/Machine/Flags.lean ====
section
/-! DEFINITION. The flags that instructions set: the task's saturation flags (R33) and the thread's DZ and PRB
(R62, R99). -/

namespace Sys2Proof.Machine

/-- What an arithmetic instruction sets besides its results. -/
structure Flags where
  sati : Bool := false
  satf : Bool := false
  dz   : Bool := false
  deriving DecidableEq, Repr

/-- A set is an OR into the task's flags (R33); DZ is the thread's. -/
def State.setFlags (s : State) (k : Nat) (f : Flags) : State :=
  let s1 := if f.sati || f.satf then
      s.modTask (s.taskNo k) (fun t => { t with sati := t.sati || f.sati, satf := t.satf || f.satf })
    else s
  if f.dz then s1.modLane k (fun l => { l with ts := { l.ts with dz := true } }) else s1

/-- `TKSTAT` as `rsr` reads it (R130). -/
def tkWord (t : Task) : Word := BitVec.ofNat 64 (bit t.arm * 4 + bit t.satf * 2 + bit t.sati)

end Sys2Proof.Machine
end

