-- ==== Sys2Proof/Machine/Translate.lean ====
section
/-! DEFINITION. Address translation (R313 to R321), permissions (R317, R318), fault records (R325 to R327), and the
checks of a data access (R150 to R152) and of an instruction fetch (R40). -/

namespace Sys2Proof.Machine

/-- Kinds of access (R318, R326). -/
inductive AccKind where
  | read | write | atomic | fetch
  deriving DecidableEq, Repr

def AccKind.code : AccKind → Nat
  | .read => 0 | .write => 1 | .atomic => 2 | .fetch => 3

-- Fields of a table entry (R315).
def entV (e : Nat) : Bool := e.testBit 0
def entR (e : Nat) : Bool := e.testBit 1
def entW (e : Nat) : Bool := e.testBit 2
def entX (e : Nat) : Bool := e.testBit 3
def entU (e : Nat) : Bool := e.testBit 4
def entLg (e : Nat) : Bool := e.testBit 8
def entRun (e : Nat) : Bool := e.testBit 9
def entMem (e : Nat) : Nat := e / 1024 % 4
def entDev (e : Nat) : Nat := e / 2 ^ 56
def entPa (e : Nat) : Nat := e % 2 ^ 52 / 65536 * 65536
def entResv (e : Nat) : Bool := e / 2 ^ 52 % 16 == 0 && e / 4096 % 16 == 0 && e / 32 % 8 == 0

-- The forms of R316.
def isPointer (e : Nat) : Bool := e % 65536 == 1 && e / 2 ^ 52 == 0
def memOk (e : Nat) : Bool := entMem e != 3 && (entMem e == 2 || entDev e == 0) && entDev e < 192
def isLarge (e : Nat) : Bool :=
  entResv e && entV e && entLg e && !entRun e && memOk e && entPa e % 2 ^ 29 == 0
def isPage (e : Nat) : Bool := entResv e && entV e && !entLg e && memOk e

/-- Result of a translation: the key of the byte, for host memory with the level of the entry that maps it; a failed walk
(reason, level); or a refusal (reason, level). -/
inductive Xl where
  | ok (key : Nat)
  | host (key level : Nat)
  | fault (reason level : Nat)
  | prot (reason level : Nat)
  deriving DecidableEq, Repr

/-- A translation without the level of what maps host memory. -/
inductive Place where
  | ok (key : Nat)
  | fault (reason level : Nat)
  | prot (reason level : Nat)
  deriving DecidableEq, Repr

def Xl.plain (x : Xl) : Place :=
  match x with
  | .ok key | .host key _ => .ok key
  | .fault r l => .fault r l
  | .prot r l => .prot r l

/-- The bytes from a to e lie in the set that the ranges make up together: each range is left once. -/
def covered (rs : List (Nat × Nat)) : Nat → Nat → Nat → Bool
  | 0, a, e => decide (e ≤ a)
  | f + 1, a, e =>
    if e ≤ a then true
    else
      match rs.find? (fun r => r.1 ≤ a && a < r.1 + r.2) with
      | some r => covered rs f (r.1 + r.2) e
      | none => false
def inRange (rs : List (Nat × Nat)) (a n : Nat) : Bool := covered rs rs.length a (a + n)
/-- Inside the grant of a virtual function, which is a set of ranges of HBM of this device (R317). -/
def State.granted (s : State) (vf a n : Nat) : Bool := inRange (s.vf vf).grant a n && a + n ≤ hbmSize
/-- Inside what a device exports to a virtual function (R317). -/
def State.exported (s : State) (vf dev a n : Nat) : Bool :=
  inRange (((s.vf vf).exports.filter (fun w => w.1 == dev)).map (·.2)) a n

/-- A table entry, read as a strong load at device scope (R321): no older than what is visible there, while a write that is
not may be missed. The read has the number of the next free value, so each walk has its own. A poisoned line, or one in
error, is read as it is stored. DESIGN CHOICE: log entry 21. -/
def State.tableWord (s : State) (base i : Nat) : Nat :=
  leNat (s.peekVer s.free (boundaryView s.rels noSlice .device []) (strongTo .device noSlice) (base + 8 * i) 8)

/-- The lowest reason for which an entry forbids an access (R318, R330). -/
def permits (e : Nat) (kind : AccKind) (user : Bool) : Option Nat :=
  if (kind = .read || kind = .atomic) && !entR e then some 1
  else if (kind = .write || kind = .atomic) && !entW e then some 2
  else if kind = .fetch && !entX e then some 3
  else if user && !entU e then some 4
  else none

/-- Judge an access by a leaf (level 2) or large-page (level 1) entry whose first page is `first`. A page of HBM lies whole in
the grant; a request to another device, of one line, lies in the window (R317). -/
def State.judge (s : State) (vf : Nat) (kind : AccKind) (user : Bool) (va first e level : Nat) : Xl :=
  let pa := entPa e + (va - first * 65536)
  let size := if level = 1 then 2 ^ 29 else 65536
  let inside :=
    if entMem e = 0 then s.granted vf (pa / size * size) size
    else if entMem e = 2 then s.exported vf (entDev e) (pa / 64 * 64) 64
    else true
  match permits e kind user with
  | some r => .prot r level
  | none =>
    if !inside then .prot 5 level
    else if entMem e = 0 then .ok pa
    else if entMem e = 1 then .host (hostKey pa) level
    else if entDev e = s.device then .ok pa
    else .ok (remoteKey (entDev e) pa)

/-- The leaf level of a walk, from the middle entry's leaf table. -/
def State.walkLeaf (s : State) (chk : Bool) (vf : Nat) (kind : AccKind) (user : Bool) (va m : Nat) :
    Xl × List TlbEnt :=
  let t := entPa m
  if chk && !s.granted vf t 65536 then (.prot 5 1, [])
  else
    let i := va / 65536 % 8192
    let e := s.tableWord t i
    if !entV e then (.fault 1 2, [])
    else if !isPage e then (.fault 2 2, [])
    else
      let base := i / 32 * 32
      let e0 := s.tableWord t base
      let run := entRun e && isPage e0 && entPa e0 % 2 ^ 21 == 0 &&
        (List.range 32).all (fun j => s.tableWord t (base + j) == e0 + 65536 * j)
      let first := if run then va / 65536 / 32 * 32 else va / 65536
      let ent := if run then e0 else e
      (s.judge vf kind user va first ent 2,
        [{ space := 0, page := first, npg := if run then 32 else 1, level := 2, ent := BitVec.ofNat 64 ent }])

/-- A walk from the root (R314, R316). `chk` is false for the hypervisor's own tables (R336). -/
def State.walk (s : State) (chk : Bool) (root vf : Nat) (kind : AccKind) (user : Bool) (va : Nat) :
    Xl × List TlbEnt :=
  if chk && !s.granted vf root 131072 then (.prot 5 0, [])
  else
    let r := s.tableWord root (va / 2 ^ 42 % 16384)
    if !entV r then (.fault 1 0, [])
    else if !isPointer r then (.fault 2 0, [])
    else if chk && !s.granted vf (entPa r) 65536 then (.prot 5 0, [])
    else
      let m := s.tableWord (entPa r) (va / 2 ^ 29 % 8192)
      let first := va / 2 ^ 29 * 8192
      let hot : TlbEnt := { space := 0, page := first, npg := 8192, level := 1, ent := BitVec.ofNat 64 m }
      if !entV m then (.fault 1 1, [])
      else if entLg m then
        if isLarge m then (s.judge vf kind user va first m 1, [hot]) else (.fault 2 1, [])
      else if !isPointer m then (.fault 2 1, [])
      else
        let (x, es) := s.walkLeaf chk vf kind user va m
        (x, if es.isEmpty then [] else hot :: es)

def TlbEnt.holds (t : TlbEnt) (space page : Nat) : Bool :=
  t.space == space && t.page ≤ page && page < t.page + t.npg

/-- What a cached entry makes of an access. -/
def State.byCached (s : State) (vf : Nat) (kind : AccKind) (user : Bool) (va : Nat) (t : TlbEnt) : Xl :=
  if t.level = 2 || entLg t.ent.toNat then s.judge vf kind user va t.page t.ent.toNat t.level
  else (s.walkLeaf true vf kind user va t.ent.toNat).1

def fillTlb (cap : Nat) (old new : List TlbEnt) : List TlbEnt :=
  (new.filter (fun t => !old.contains t) ++ old).take cap

/-- Translate an access of an address space from a slice. An access translates by an entry that a TLB still holds
or by a fresh walk: a free choice where they differ (R321). DEDUCED: log entry 21. -/
def State.translate (s : State) (space slice : Nat) (hyp user : Bool) (kind : AccKind) (va : Nat) : Xl × State :=
  let vf := space / 16384
  if hyp then ((s.walk false (entPa (s.vf vf).hroot.toNat) vf kind user va).1, s)
  else
    let root := (s.ctx space).root.toNat % 2 ^ 52 / 2 ^ 17 * 2 ^ 17
    let (x, es) := s.walk true root vf kind user va
    let sec := slice / 18
    let die := slice / 288
    let held := ((s.slice slice).tlb ++ (s.sector sec).tlb ++ mgetD s.dieTlbs die []).filter
      (fun t => t.holds space (va / 65536))
    let olds := (held.map (s.byCached vf kind user va)).filter (fun o => o != x)
    let (i, s1) := choose { s with free := s.free + 1 } (olds.length + 1)
    let y := (x :: olds).getD i x
    let tagged := es.map (fun t => { t with space := space })
    let leaf := tagged.filter (fun t => t.level = 2 || entLg t.ent.toNat)
    let mid := tagged.filter (fun t => t.level = 1)
    if es.isEmpty then (y, s1)
    else
      (y, { (s1.modSlice slice (fun v => { v with tlb := fillTlb 64 v.tlb leaf })).modSector sec
              (fun v => { v with tlb := fillTlb 4096 v.tlb leaf }) with
            dieTlbs := mset s1.dieTlbs die (fillTlb 2048 (mgetD s1.dieTlbs die []) mid) })

/-- Drop entries from every TLB of the device (R331). -/
def State.dropTlb (s : State) (p : TlbEnt → Bool) : State :=
  { s with
    slices := s.slices.map (fun x => (x.1, { x.2 with tlb := x.2.tlb.filter (fun t => !p t) }))
    sectors := s.sectors.map (fun x => (x.1, { x.2 with tlb := x.2.tlb.filter (fun t => !p t) }))
    dieTlbs := s.dieTlbs.map (fun x => (x.1, x.2.filter (fun t => !p t))) }

/-- Record a translation fault in the sector's buffer (R325 to R327). -/
def State.recordFault (s : State) (space slice va reason level : Nat) (kind : AccKind) (eng : Bool) : State :=
  let sec := slice / 18
  let b := s.sector sec
  let page := va / 65536 % 2 ^ 40
  if b.recs.any (fun r => r.space == space && r.page == page) then
    s.modSector sec (fun b => { b with recs := b.recs.map (fun r =>
      if r.space == space && r.page == page then
        { r with lanes := Nat.min 65535 (r.lanes + 1), kinds := r.kinds ||| 2 ^ kind.code, eng := r.eng || eng }
      else r) })
  else if b.recs.length < 8 then
    (s.modSector sec (fun b => { b with recs := b.recs ++
      [{ space := space, page := page, lanes := 1, eng := eng, slice := slice, reason := reason, level := level,
         kinds := 2 ^ kind.code }] })).note (.faultRecord sec)
  else
    ((s.modSector sec (fun b => { b with dropped := true })).note (.dropped sec)).raise (space / 16384) 3

-- The fault buffers as the firmware reads and writes them (R326, R327).
def FaultRec.w0 (r : FaultRec) : Word := BitVec.ofNat 64 (r.page * 2 ^ 16 + r.lanes)
def FaultRec.w1 (r : FaultRec) : Word :=
  BitVec.ofNat 64 (bit r.eng * 2 ^ 50 + r.slice * 2 ^ 40 + r.reason * 2 ^ 32 + r.level * 2 ^ 24 + r.kinds * 2 ^ 20 + r.space)
/-- `FBSTAT` as it is read: POP reads as zero. -/
def Sector.stat (b : Sector) : Word := BitVec.ofNat 64 (bit b.dropped * 2 ^ 8 + b.recs.length)
/-- A write to `FBSTAT`: POP removes the oldest record, DROPPED is cleared by a one. -/
def Sector.writeStat (b : Sector) (w : Word) : Sector :=
  { b with recs := if w.getLsbD 16 then b.recs.drop 1 else b.recs, dropped := b.dropped && !w.getLsbD 8 }
/-- The word at a firmware address: the buffer of sector s lies at 0x0400_0000 + 0x1000 × s, record slot i at 16 × i. -/
def State.firmwareWord (s : State) (addr : Nat) : Word :=
  let b := s.sector ((addr - 0x04000000) / 0x1000)
  let off := addr % 0x1000
  if addr < 0x04000000 || 0x04020000 ≤ addr then 0
  else if off = 0x100 then b.stat
  else if 128 ≤ off then 0
  else
    match b.recs[off / 16]? with
    | some r => if off % 16 = 0 then r.w0 else if off % 16 = 8 then r.w1 else 0
    | none => 0

/-- Outcome of the checks of one lane's access (R152). -/
inductive Acc where
  | ok (key : Nat)
  | trap (c : Cause)
  | park
  | noLink
  deriving DecidableEq, Repr

/-- Details of TRANSLATION and PROTECTION (R330). -/
def xlCause (group va : Nat) (kind : AccKind) (reason level : Nat) : Cause :=
  mkCause group va (va / 2 ^ 32 % 2 ^ 24) (kind.code * 4096 + level * 1024 + reason)

/-- ALIGNMENT (R138, R151). -/
def alignCause (va kind : Nat) : Cause := mkCause 6 va (va / 2 ^ 32) kind

/-- What an extent makes of an access that it serves: its page has been checked (R198), but host memory performs what it can
(R165), and another device accepts a line inside the window (R317). -/
def State.served (s : State) (vf key level : Nat) : Xl :=
  if isHost key then .host key level
  else if isRemote key && !s.exported vf ((key - 2 ^ 60) / 2 ^ 52) (key % 2 ^ 52 / 64 * 64) 64 then .prot 5 level
  else .ok key

/-- The place of a byte for a data access by a lane: from an extent (R198), or by translation. -/
def State.place (s : State) (k : Nat) (l : Lane) (kind : AccKind) (va : Nat) : Xl × State :=
  let ext :=
    if l.ts.mode = .h then none
    else (s.taskOf k).bind (fun t => extentAt t.extents (kind != .read) va)
  match ext with
  | some (key, lv) => (s.served (s.spaceOf k / 16384) key lv, s)
  | none => s.translate (s.spaceOf k) (sliceOf k) (l.ts.mode == .h) (l.ts.mode == .u) kind va

/-- The checks of R150 and R152 before any data is read: a place, a trap, or parking. `hostOk`: host memory can perform
the operation (R165). -/
def State.reach (s : State) (k : Nat) (l : Lane) (kind : AccKind) (hostOk : Bool) (va : Word) (size : Nat) :
    Acc × State :=
  let a := va.toNat
  if 2 ^ 56 ≤ a then (.trap (alignCause a 3), s)
  else if a % size ≠ 0 then (.trap (alignCause a 2), s)
  else
    match s.place k l kind a with
    | (.fault r lv, s1) =>
      if (s1.ctx (s1.spaceOf k)).fmTrap then (.trap (xlCause 4 a kind r lv), s1)
      else (.park, s1.recordFault (s1.spaceOf k) (sliceOf k) a r lv kind false)
    | (.prot r lv, s1) => (.trap (xlCause 5 a kind r lv), s1)
    | (.ok key, s1) => (.ok key, s1)
    | (.host key lv, s1) => if hostOk then (.ok key, s1) else (.trap (xlCause 5 a kind 6 lv), s1)

/-- All checks on one lane's access (R152): those of `reach`, the link (R385), and the data that it reads. -/
def State.access (s : State) (k : Nat) (l : Lane) (kind : AccKind) (hostOk : Bool) (va : Word) (size : Nat) :
    Acc × State :=
  let a := va.toNat
  match s.reach k l kind hostOk va size with
  | (.ok key, s1) =>
    if s1.cutOff key then
      (if kind = .write then .noLink else .trap (mkCause 14 1 a (a / 2 ^ 32 % 2 ^ 24)), s1)
    else if kind = .write then (.ok key, s1)
    else
      match memCause s1 key size a with
      | some c => (.trap c, s1)
      | none => (.ok key, s1)
  | r => r

/-- Outcome of a fetch: the halfword, a trap, or parking (R40, R324). -/
inductive Fetch where
  | half (h : List Byte)
  | trap (c : Cause)
  | park
  deriving DecidableEq, Repr

/-- What the invalidations that cover a slice make its fetches respect (R158). -/
def State.fetchFloor (s : State) (space slice : Nat) : Map Nat :=
  s.icinvs.foldl (fun v r => if r.space == space && scopeJoins r.scope r.slice slice then viewJoin r.view v else v) []

/-- Fetch one halfword: always translated, never served by an extent (R198); no older than the last `icinv` of the
address space that covers the slice (R158). -/
def State.fetchHalf (s : State) (k : Nat) (l : Lane) (va : Nat) : Fetch × State :=
  let space := s.spaceOf k
  let sl := sliceOf k
  let (x, s0) := s.translate space sl (l.ts.mode == .h) (l.ts.mode == .u) .fetch (va % 2 ^ 56)
  match x.plain, s0 with
  | .fault r lv, s1 =>
    if (s1.ctx space).fmTrap then (.trap (xlCause 4 va .fetch r lv), s1)
    else (.park, s1.recordFault space sl va r lv .fetch false)
  | .prot r lv, s1 => (.trap (xlCause 5 va .fetch r lv), s1)
  | .ok key, s1 =>
    match memCause s1 key 2 va with
    | some c => (.trap c, s1)
    | none =>
      let (v, s2) := s1.readVer (s1.fetchFloor space sl) (fun _ => false) key 2
      (.half v.bytes, s2)

/-- Fetch the n halfwords after the first ones. -/
def State.fetchMore (s : State) (k : Nat) (l : Lane) (va : Nat) : Nat → List Byte → (Fetch × State)
  | 0, acc => (.half acc, s)
  | n + 1, acc =>
    match s.fetchHalf k l va with
    | (.half h, s1) => s1.fetchMore k l (va + 2) n (acc ++ h)
    | r => r

end Sys2Proof.Machine
end

