-- ==== Sys2Proof/Machine/Operands.lean ====
section
/-! DEFINITION. What every instruction reads, pops and pushes; the checks before its own causes (R64); operands under
the interlock modes (R50 to R53); and the two ways a strand executes an instruction: in each lane, or once with the
operands of the elected lane (R217). -/

namespace Sys2Proof.Machine

/-- Latency classes (R49). -/
inductive Lat where
  | a | b | tracked | none
  deriving DecidableEq, Repr

def Lat.cycles : Lat → Nat
  | .a => 2 | .b => 4 | _ => 0

/-- The stack form of an instruction: bytes, stall count, positions it reads, entries it pops and pushes, the depth
it needs (R89), and the class of its results. -/
structure Shape where
  len   : Nat := 2
  stall : Nat := 0
  reads : List Nat := []
  pops  : Nat := 0
  pushes : Nat := 0
  need  : Nat := 0
  lat   : Lat := .none
  deriving DecidableEq, Repr

/-- An S instruction that reads all it pops. -/
def shS (w : StallS) (pops pushes : Nat) (lat : Lat) : Shape :=
  { len := 2, stall := w.toNat, reads := List.range pops, pops := pops, pushes := pushes, need := pops, lat := lat }
/-- An L instruction that reads all it pops. -/
def shL (w : StallL) (pops pushes : Nat) (lat : Lat) : Shape :=
  { len := 4, stall := w.toNat, reads := List.range pops, pops := pops, pushes := pushes, need := pops, lat := lat }
def shX (w : StallL) (pops pushes : Nat) : Shape :=
  { len := 6, stall := w.toNat, reads := List.range pops, pops := pops, pushes := pushes, need := pops, lat := .a }

/-- Stall count of an encoding (R41), which the probe no-operation honours too (R62). -/
def encStall (e : Enc) : Nat :=
  match e with
  | .s w => w.toNat / 2 ^ 13 % 4
  | .l w => w.toNat / 2 ^ 27 % 8
  | .x w => w.toNat / 2 ^ 43 % 8

/-- The stack form of each instruction (R49, R92, R97, R103, R122, R136, R154 to R167, R217, R251, R271, R304,
R331, R347). Events have none. -/
def shapeOf : Instr → Shape
  | .nop w => shS w 0 0 .none
  | .lit w _ => shS w 0 1 .a
  | .dup w => { shS w 0 1 .a with reads := [0], need := 1 }
  | .drop w => { shS w 1 0 .none with reads := [] }
  | .swap w => shS w 2 2 .a
  | .over w => { shS w 0 1 .a with reads := [1], need := 2 }
  | .rot w => shS w 3 3 .a
  | .nip w => { shS w 2 1 .a with reads := [0] }
  | .tuck w => shS w 2 3 .a
  | .pick w n => { shS w 0 1 .a with reads := [n.toNat], need := n.toNat + 1 }
  | .bury w n => { shS w 1 0 .a with need := n.toNat + 2 }
  | .dropn w n => { shS w n.toNat 0 .none with reads := [] }
  | .depth w => shS w 0 1 .a
  | .dup2 w => { shS w 0 2 .a with reads := [0, 1], need := 2 }
  | .swap2 w => shS w 4 4 .a
  | .litw w _ => shL w 0 1 .a
  | .litx w _ => shX w 0 1
  | .lith w _ => shX w 1 1
  | .litf w _ => shX w 0 1
  | .add w _ | .sub w _ | .min w _ | .max w _ | .adds w _ | .subs w _ | .and w _ | .or w _ | .xor w _
  | .shl w _ | .shr w _ | .rotl w _ | .eq w _ | .ne w _ | .lt w _ | .le w _ => shS w 2 1 .a
  | .mul w _ | .mulh w _ => shS w 2 1 .b
  | .mad w _ => shS w 3 1 .b
  | .div w _ | .rem w _ => shS w 2 1 .tracked
  | .neg w _ | .abs w _ | .not w _ | .popc w _ | .clz w _ | .ctz w _ | .brev w _ => shS w 1 1 .a
  | .clamp w _ | .bfx w _ | .sel w _ => shS w 3 1 .a
  | .bfi w _ => shS w 4 1 .a
  | .addi w _ | .shli w _ => shS w 1 1 .a
  | .fadd w | .fsub w | .fmul w => shS w 2 1 .b
  | .fma w => shS w 3 1 .b
  | .fdiv w => shS w 2 1 .tracked
  | .fsqrt w | .frcpa w | .frsqa w | .fexp2a w | .flog2a w => shS w 1 1 .tracked
  | .fneg w | .fabs w | .fclass w => shS w 1 1 .a
  | .fsgn w | .fmin w _ | .fmax w _ | .fcmp w _ => shS w 2 1 .a
  | .frnd w _ => shS w 1 1 .b
  | .cvt w _ _ _ => shL w 1 1 .b
  | .pack2F16 w _ | .pack2B16 w => shS w 2 1 .b
  | .unpk2 w _ => shS w 1 2 .b
  | .ext w _ _ => shS w 1 1 .a
  | .qnt w _ => shS w 3 1 .b
  | .dqnt w _ => shS w 3 1 .b
  | .ldl w _ => shS w 0 1 .a
  | .stl w _ => shS w 1 0 .a
  | .ldlx w => shS w 1 1 .a
  | .stlx w => shS w 2 0 .a
  | .give w _ | .claim w _ => shS w 0 0 .none
  | .rsr w _ => shL w 0 1 .a
  | .wsr w _ | .wsrTstat w | .wsrTkstat w | .wsrEfh w | .wsrSsbase w | .wsrPtb w | .wsrAsidx w | .wsrCutdl w =>
    shL w 1 0 .none
  | .br w _ | .call w _ | .meet w _ => shL w 0 0 .none
  | .brz w _ | .brnz w _ => shL w 1 0 .none
  | .ret w | .exit w | .join w _ | .yield w | .prio w _ => shS w 0 0 .none
  | .brx w | .callx w => shS w 1 0 .none
  | .ld w _ _ => shL w 1 1 .tracked
  | .st w _ _ => shL w 2 0 .none
  | .ld2 w _ => shL w 1 2 .tracked
  | .st2 w _ => shL w 3 0 .none
  | .lds w _ _ _ | .ldsAcq w _ _ _ => shL w 1 1 .tracked
  | .sts w _ _ _ | .stsRel w _ _ _ => shL w 2 0 .none
  | .phase w _ | .phaseP w _ | .phaseO w _ | .icinv w _ => shL w 0 0 .none
  | .pref w _ _ => shL w 1 0 .none
  | .atomAdd w _ _ _ _ | .atomAnd w _ _ _ _ | .atomOr w _ _ _ _ | .atomXor w _ _ _ _ | .atomMinS w _ _ _ _
  | .atomMinN w _ _ _ _ | .atomMaxS w _ _ _ _ | .atomMaxN w _ _ _ _ | .atomXchg w _ _ _ _ | .atomFadd w _ _ _
  | .atomFmin w _ _ _ | .atomFmax w _ _ _ => shL w 2 1 .tracked
  | .cas w _ _ _ _ => shL w 3 1 .tracked
  | .redAdd w _ _ _ _ | .redAnd w _ _ _ _ | .redOr w _ _ _ _ | .redXor w _ _ _ _ | .redMinS w _ _ _ _
  | .redMinN w _ _ _ _ | .redMaxS w _ _ _ _ | .redMaxN w _ _ _ _ | .redFadd w _ _ _ | .redFmin w _ _ _
  | .redFmax w _ _ _ => shL w 2 0 .none
  | .mwait w => shS w 1 0 .none
  | .unassignedEncoding e => { len := 2 * e.len, stall := encStall e }
  | .spawn w | .spawnw w => shL w 4 1 .tracked
  | .talloc w => shL w 1 1 .tracked
  | .tfree w => shL w 1 0 .none
  | .tdef w => shL w 2 0 .none
  | .tget w _ => shL w 1 1 .tracked
  | .tset w _ => shL w 2 0 .none
  | .atomt w op _ => shL w (if op = .cas then 5 else 4) 1 .tracked
  | .tfill w => shL w 2 0 .none
  | .tcol w _ _ => shL w 4 0 .none
  | .tcopy w => shL w 2 0 .none
  | .ldt w => shS w 3 1 .tracked
  | .stt w => shS w 4 0 .none
  | .cpy w _ _ _ _ _ => shL w 5 0 .none
  | .cpyl w => shL w 2 0 .none
  | .cinit w _ => shL w 1 0 .none
  | .cwait w _ => shL w 0 1 .tracked
  | .seal w _ | .waitb w _ | .bar w _ | .bara w _ | .barw w _ => shS w 0 0 .none
  | .barinit w _ _ => shL w 1 0 .none
  | .rowres w _ => shL w 0 1 .tracked
  | .suspend w _ | .suspendk w _ | .wakeSite w _ | .flush w _ => shL w 0 0 .none
  | .wakeRow w | .wakeThr w => shL w 1 0 .none
  | .mm w _ _ _ | .mms w _ _ _ | .mmstage w _ _ _ _ => shL w 4 0 .none
  | .mmflag w _ => shL w 0 1 .tracked
  | .mmflagDrop w _ => shL w 0 0 .none
  | .tlbinvPage w => shL w 1 0 .none
  | .tlbinvSpace w | .tlbinvVf w | .replay w | .syscall w _ | .hcall w _ => shL w 0 0 .none
  | .tlbinvSplit w => shL w 2 1 .tracked
  | .brk w | .sret w | .hret w | .qpoint w | .waitgp w => shS w 0 0 .none
  | .tfld w _ => shS w 0 1 .tracked
  | .tfst w _ => shS w 1 0 .none
  | .defer w => shS w 3 0 .none
  | .claimGrant _ _ | .mwaitWake _ _ | .trackedResultArrival _ _ | .refill _ _ | .spawnWaitWake _ _ _
  | .taskPlacement _ _ | .waveFormation _ _ | .taskRetire _ | .tearDown _ _ _ | .bankOperationComplete _ _
  | .copySlotGrant _ | .copyRequestIssue _ _ _ | .copyRequestComplete _ _ _ | .frameAgeExpiry _ _ _
  | .resumeLoad _ _ _ _ | .matrixQueueGrant _ | .gateEntryGrant _ | .gatedCommandEntry _ _
  | .stagedCommandEntry _ _ | .matrixCommandStart _ | .multicastWindowExpiry _ | .matrixCommandComplete _
  | .fbstatPop _ | .fbstatDroppedClear _ | .frplay _ _ | .trapEntry _ _ | .gracePeriodBegin _ _
  | .gracePeriodComplete _ _ | .wheyDelivery _ _ | .cutArrival _ _ _ | .cutDeadline _ _ _ | .waveSave _ _
  | .waveRestore _ _ _ _ _ | .clockRatioChange _ _ | .controlIntervalEnd _ _ _ | .launchPacket _
  | .copyPacket _ _ | .signalPacket _ | .waitPacket _ | .waitConditionMet _ | .splicePacket _
  | .quiescePacket _ | .nopPacket _ | .invalidPacket _ | .packetCompletion _ _ _ | .kick _ _ | .schedulerTick
  | .takeEnd | .contextCreate _ _ _ | .wheelOpen _ _ _ _ | .wheelClose _ | .nvmeTimeout _ _ _
  | .thermalEvent _ _ | .eventClear _ _ | .functionLevelReset _ | .flit _ _ _ | .linkDown _ | .deviceReset
  | .attestationReport _ _ | .machineCheck _ _ | .virtualFunctionEnable _ _ _ | .reelRegistration _ _ _ _ _ => {}

/-- The encoding of an instruction as a number, right-justified (R61). -/
def Enc.nat : Enc → Nat
  | .s w => w.toNat | .l w => w.toNat | .x w => w.toNat
def encNat (i : Instr) : Nat := ((encode i).map Enc.nat).getD 0

def privCause (i : Instr) (m : Mode) (code reg : Nat) : Cause :=
  mkCause 16 code (encNat i) (m.code + reg * 65536)

/-- May a mode read and write a register (R128)? -/
def sregOpen (r : SReg) (m : Mode) : Bool :=
  match r with
  | .epc | .estat | .ecg | .edw0 | .edw1 | .edw2 | .efh | .stvec | .ssbase | .ptb | .asidx | .cutdl => m != .u
  | .htvec | .tdeleg | .hsbase => m == .h
  | _ => true

/-- PRIVILEGE of an instruction in a mode (R128, R252, R253, R331, R333, R346, R347): ahead of every stack check. -/
def privOf (i : Instr) (m : Mode) : Option Cause :=
  let instr (bad : Bool) : Option Cause := if bad then some (privCause i m 1 0) else none
  let reg (r : SReg) : Option Cause := if sregOpen r m then none else some (privCause i m 2 r.id)
  match i with
  | .sret _ | .tfld _ _ | .tfst _ _ | .tlbinvPage _ | .tlbinvSpace _ | .tlbinvSplit _ | .replay _ => instr (m == .u)
  | .hret _ | .tlbinvVf _ => instr (m != .h)
  | .rowres _ _ | .suspend _ _ | .suspendk _ _ => instr (m != .u)
  | .rsr _ r | .wsr _ r => reg r
  | .wsrEfh _ => reg .efh
  | .wsrSsbase _ => reg .ssbase
  | .wsrPtb _ => reg .ptb
  | .wsrAsidx _ => reg .asidx
  | .wsrCutdl _ => reg .cutdl
  | _ => none

/-- The slot an instruction reads as an operand (R49, R53). -/
def slotRead (i : Instr) (l : Lane) : Option Nat :=
  match i with
  | .ldl _ n => some n.toNat
  | .ldlx _ => some ((l.stk.head?.map (·.val.toNat)).getD 64)
  | _ => none

def State.slot (s : State) (k n : Nat) : Entry :=
  ((s.wave (waveOf k)).bind (fun w => mget w.slots (32 * n + laneNo k))).getD {}
def State.nlb (s : State) (k : Nat) : Nat := ((s.wave (waveOf k)).map (·.nlb)).getD 0

/-- Operands that are early: position (64 + n for a slot), shortfall, producer (R53). -/
def State.early (s : State) (k : Nat) (l : Lane) (i : Instr) : List (Nat × Nat × Nat) :=
  let t := s.time (sliceOf k)
  let ofEntry (p : Nat) (e : Entry) : List (Nat × Nat × Nat) :=
    if !e.pend && t < e.ready then [(p, e.ready - t, e.src)] else []
  (shapeOf i).reads.flatMap (fun p => match l.stk[p]? with
    | some e => ofEntry p e
    | none => []) ++
  (match slotRead i l with
   | some n => if n < 8 * s.nlb k then ofEntry (64 + n) (s.slot k n) else []
   | none => [])

def worse (a b : Nat × Nat × Nat) : Nat × Nat × Nat :=
  if a.2.1 < b.2.1 || (a.2.1 == b.2.1 && b.1 < a.1) then b else a

/-- STALLCHECK (R53): the largest shortfall, and among equals the lowest position. -/
def stallCause (l : Lane) : List (Nat × Nat × Nat) → Option Cause
  | [] => none
  | e :: r =>
    let w := r.foldl worse e
    some (mkCause 13 (w.1 * 256 + Nat.min 255 w.2.1) (l.pc.toNat + 2 ^ 64 - w.2.2) 0)

/-- The group of this thread was released with it held, and it is about to execute (R142). -/
def Lane.atMeet (l : Lane) : Bool := l.cur.group.isSome && l.pc == l.cur.mpc

def isJoin : Instr → Bool
  | .join _ _ => true
  | _ => false

/-- JOIN_MISMATCH (R144). -/
def joinCause (l : Lane) (reason : Nat) : Cause :=
  mkCause 3 (reason * 256 + 1) l.cur.mpc.toNat (l.cur.mpc.toNat / 2 ^ 32)

/-- STORAGE UNDERFLOW and OVERFLOW (R89). -/
def depthCause (l : Lane) (sh : Shape) : Option Cause :=
  if l.depth < sh.need then some (mkCause 2 1 l.depth sh.need)
  else if l.limit < l.depth + sh.pushes - sh.pops then some (mkCause 2 2 l.depth (l.depth + sh.pushes - sh.pops))
  else none

/-- An instruction that R64's fifth place never traps: `pref` reports nothing after the fourth (R159). -/
def neverEarly : Instr → Bool
  | .pref _ _ _ => true
  | _ => false

/-- The checks that come before a drain: those of R142, and R64's third and fourth places. -/
def Lane.firstCheck (l : Lane) (i : Instr) : Option Cause :=
  if l.atMeet && !isJoin i then some (joinCause l 1)
  else (privOf i l.ts.mode).orElse fun _ => depthCause l (shapeOf i)

/-- An operand lies in a stack block, or comes from one, where its parity is in error (R80, R351); `suspend` reads the whole stack
(R253). DESIGN CHOICE: log entry 48. -/
def Lane.softOperand (l : Lane) (i : Instr) : Option Cause :=
  let ps : List Nat := match i with
    | .suspend _ _ | .suspendk _ _ => List.range l.stk.length
    | _ => (shapeOf i).reads
  ps.findSome? (fun p =>
    if ((l.stk[p]?).map (·.soft)).getD false then some (softErr (l.depth - 1 - p)) else none)

/-- The checks of R64 before an instruction's own causes, and the check of R142 before them. -/
def State.check (s : State) (k : Nat) (l : Lane) (i : Instr) : Option Cause :=
  ((l.firstCheck i).orElse fun _ =>
    if l.ilk = .check && !neverEarly i then stallCause l (s.early k l i) else none).orElse fun _ =>
      if neverEarly i then none else l.softOperand i

/-- An operand of a consumer that issues early under TRUST: the producer's value, a prior occupant, or zero (R52).
DESIGN CHOICE: log entry 17. -/
def State.latch (s : State) (k : Nat) (l : Lane) (key : Nat) (e : Entry) : Entry × State :=
  if l.ilk = .trust && !e.pend && s.time (sliceOf k) < e.ready then
    let own : Left := ⟨e.val, e.deps⟩
    let alts := ((mgetD l.past key [] ++ [({ val := 0 } : Left)]).filter (· != own)).dedup
    let (i, s1) := choose s (alts.length + 1)
    let v := (own :: alts).getD i own
    ({ e with val := v.val, deps := v.deps }, s1)
  else (e, s)

/-- The operands at the given positions. -/
def State.operands (s : State) (k : Nat) (l : Lane) : List Nat → List Entry × State
  | [] => ([], s)
  | p :: r =>
    let (e, s1) := s.pos k l p
    let (e1, s2) := s1.latch k l (l.posKey (l.depth - 1 - p)) e
    let (es, s3) := s2.operands k l r
    (e1 :: es, s3)

/-- Outcome of an instruction in one lane. -/
inductive LOut where
  /-- a trap of its own -/
  | trap (c : Cause)
  /-- completes: the results, first pushed first, with what they depend on (R291) -/
  | go (vals : List (Word × List Nat))
  /-- completes and continues at another PC -/
  | jump (pc : Word) (vals : List (Word × List Nat))
  /-- waits at the instruction -/
  | hold (w : Wait)
  /-- the thread has left its wave, or its PC and stack are already as they must be -/
  | left
  deriving DecidableEq, Repr

/-- A tracked result: its presence bit is clear until it arrives (R49, R50). -/
def isTracked (i : Instr) (vals : List (Word × List Nat)) : Bool := (shapeOf i).lat = .tracked && !vals.isEmpty

/-- Loads and atomics that have a result. -/
def loads : Instr → Bool
  | .ld _ _ _ | .ld2 _ _ | .lds _ _ _ _ | .ldsAcq _ _ _ _ | .ldt _ | .atomt _ _ _ | .cas _ _ _ _ _
  | .atomAdd _ _ _ _ _ | .atomAnd _ _ _ _ _ | .atomOr _ _ _ _ _ | .atomXor _ _ _ _ _ | .atomMinS _ _ _ _ _
  | .atomMinN _ _ _ _ _ | .atomMaxS _ _ _ _ _ | .atomMaxN _ _ _ _ _ | .atomXchg _ _ _ _ _ | .atomFadd _ _ _ _
  | .atomFmin _ _ _ _ | .atomFmax _ _ _ _ => true
  | _ => false

/-- A lane whose instruction has completed: it has popped and pushed, and it moves on (R48, R49). `t` is the cycle of
issue, `d` the delay of a tracked result. -/
def Lane.after (l : Lane) (i : Instr) (t d : Nat) (vals : List (Word × List Nat)) (pc : Option Word) : Lane :=
  let sh := shapeOf i
  let ready := if isTracked i vals then t + 1 + d else t + sh.lat.cycles
  let l1 := vals.foldl
    (fun l v => l.push { val := v.1, ready := ready, pend := isTracked i vals, src := l.pc.toNat, deps := v.2, acc := loads i })
    (l.popN sh.pops)
  { l1 with
    pc := pc.getD (l.pc + BitVec.ofNat 64 sh.len)
    next := t + 1 + (if l.ilk = .lock then 0 else sh.stall)
    wait := .none }

/-- A lane completes and moves on; it has drained where it had to (R83). -/
def State.retire (s : State) (k : Nat) (i : Instr) (t : Nat) (vals : List (Word × List Nat)) (pc : Option Word) :
    State :=
  match s.lane k with
  | none => s
  | some l =>
    let (d, s2) := if isTracked i vals then freeDelay s else (0, s)
    s2.setLane k (l.after i t d vals pc)

/-- A wait in which a lane leaves its strand: it parks, or its thread has stopped (R134, R167, R324). Its PC is that of the
instruction to come. -/
def Wait.apart (w : Wait) : Bool :=
  match w with
  | .mwait _ _ | .parked | .stopped => true
  | _ => false

/-- The address of a lane's next instruction (R132): that of a lane which waits lies behind the instruction in which it waits
(R134). The PC itself stays at the instruction, where a trap or a save finds it (R125, R126, R245). DEDUCED: log entry 11. -/
def Lane.nextPc (l : Lane) : Word :=
  match l.during with
  | some i => if l.wait = .none || l.wait.apart then l.pc else l.pc + BitVec.ofNat 64 (shapeOf i).len
  | none => l.pc

/-- The instruction of a lane that waits so has issued, and its stall count runs from its issue, also where the lane traps in the
wait (R48). -/
def Wait.issued (w : Wait) : Bool :=
  match w with
  | .claim _ | .cwait _ | .bar _ _ | .barw _ _ | .copySlot _ _ _ | .mQueue _ | .gate _ => true
  | _ => false

/-- A lane whose instruction had issued, and waited, completes (R48): its next one issues no earlier than that issue allows. -/
def State.passOn (s : State) (k : Nat) (i : Instr) : State :=
  let n := ((s.lane k).map (·.next)).getD 0
  (s.retire k i (s.cycle (sliceOf k)) [] none).modLane k (fun l => { l with next := Nat.max n (s.cycle (sliceOf k) + 1) })

/-- A lane waits in its instruction; the order of issue is kept while it waits. -/
def State.holdLane (s : State) (k : Nat) (i : Instr) (w : Wait) (stamp : Nat) : State :=
  s.modLane k (fun l => { l with
    wait := w, during := if w.apart then none else some i
    stamp := if l.wait = .none || l.wait = .parked then stamp else l.stamp
    next := if w.issued then s.time s.iss.slice + 1 + (if l.ilk = .lock then 0 else (shapeOf i).stall) else l.next })

/-- Mark a thread whose group was released (R142): it is never held by that group again. -/
def State.mark (s : State) (k : Nat) : State :=
  match s.lane k with
  | some l => if l.atMeet then s.setLane k (l.setCur { l.cur with rel := true }) else s
  | none => s

/-- The cycle in which the strand issues (R15). -/
def State.issueCycle (s : State) : Nat := s.time s.iss.slice

/-- The trap of an instruction. What comes next, the handler's first instruction, keeps the instruction's stall count (R48). -/
def State.takeTrap (s : State) (k : Nat) (i : Instr) (c : Cause) : State :=
  (s.modLane k (fun l => { l with
    next := Nat.max l.next (s.issueCycle + 1 + (if l.ilk = .lock then 0 else (shapeOf i).stall)) })).enterTrap k c

/-- A trap of one lane; the check of R142 closes the group and leaves the chain. -/
def State.trapLane (s : State) (k : Nat) (l : Lane) (i : Instr) (c : Cause) : State :=
  if l.atMeet && !isJoin i then
    (s.modLane k (fun l => l.setCur { l.cur with group := none, rel := false })).takeTrap k i c
  else s.takeTrap k i c

/-- A lane must drain before an instruction (R83): it passes the checks before a drain, and its results do not fit. -/
def State.mustDrain (s : State) (i : Instr) (k : Nat) : Bool :=
  match s.lane k with
  | some l =>
    (shapeOf i).pops < (shapeOf i).pushes && s.cap k l < l.stk.length + ((shapeOf i).pushes - (shapeOf i).pops) &&
      (l.firstCheck i).isNone
  | none => false

/-- Where lanes of the strand must drain, the instruction issues 4 cycles later, for all of them (R86). -/
def State.readied (s : State) (ks : List Nat) (i : Instr) : State :=
  if ks.any (s.mustDrain i) then { s with iss := { s.iss with late := true } }.stallWave (placeKey s.iss.slice s.iss.place) 0
  else s

/-- The instruction is over. -/
def State.settled (s : State) : State := if s.iss.late then { s with iss := { s.iss with late := false } } else s

/-- What an instruction comes to in a lane. -/
def State.conclude (s : State) (k : Nat) (i : Instr) (t stamp : Nat) (o : LOut) : State :=
  match o with
  | .trap c => s.takeTrap k i c
  | .go vals => s.retire k i t vals none
  | .jump pc vals => s.retire k i t vals (some pc)
  | .hold w => s.holdLane k i w stamp
  | .left => s

/-- A lane before its instruction's own part: it takes the trap that comes first, or it drains and has its operands. A lane
that must drain has done so whatever the instruction then comes to in it; one that traps by R142 or by R64's first five
places has not. DEDUCED: log entry 45. -/
def State.begin_ (s : State) (i : Instr) (k : Nat) : State × Option (List Entry) :=
  let s0 := s.mark k
  match s0.lane k with
  | none => (s0, none)
  | some l0 =>
    match s0.check k l0 i with
    | some c => (s0.trapLane k l0 i c, none)
    | none =>
      let s1 := s0.drain k ((shapeOf i).pushes - (shapeOf i).pops)
      match s1.lane k with
      | none => (s1, none)
      | some l =>
        let (ops, s2) := s1.operands k l (shapeOf i).reads
        (s2, some ops)

/-- One lane of an instruction that acts in each lane. -/
def laneRun (i : Instr) (t stamp : Nat) (body : State → Nat → List Entry → State × LOut) (s : State) (k : Nat) :
    State :=
  match s.begin_ i k with
  | (s1, none) => s1
  | (s1, some ops) =>
    let (s2, o) := body s1 k ops
    s2.conclude k i t stamp o

/-- A stamp has been used. -/
def State.bump (s : State) : State := { s with nextId := s.nextId + 1 }

/-- Execute an instruction in each active lane, in increasing lane order. -/
def runEach (i : Instr) (body : State → Nat → List Entry → State × LOut) (s : State) : State :=
  let s0 := s.readied s.active i
  (s.active.foldl (laneRun i s0.issueCycle s.nextId body) s0).bump.settled

/-- A lane that has made its request: the place it reaches (none: behind no link, or not asked for), its address, its operands,
and what a check after the address's own has come to in it. -/
structure Reached where
  lane : Nat
  key  : Option Nat
  ea   : Word
  ops  : List Entry
  stop : Option LOut := none
  deriving DecidableEq, Repr

/-- One lane of a memory instruction, up to its access. -/
def laneReach (i : Instr) (t stamp : Nat) (reach : State → Nat → List Entry → State × (LOut ⊕ Reached))
    (a : State × List Reached) (k : Nat) : State × List Reached :=
  match a.1.begin_ i k with
  | (s1, none) => (s1, a.2)
  | (s1, some ops) =>
    match reach s1 k ops with
    | (s2, .inl o) => (s2.conclude k i t stamp o, a.2)
    | (s2, .inr r) => (r.stop.elim s2 (s2.conclude k i t stamp), a.2 ++ [r])

/-- The first cycle from `t` on in which the port is free. -/
def firstFree (busy : List Nat) : Nat → Nat → Nat
  | 0, t => t
  | f + 1, t => if busy.contains t then firstFree busy f (t + 1) else t
/-- n requests, one in each of the first cycles from `t` on in which the port is free. -/
def takePort (busy : List Nat) (t : Nat) : Nat → List Nat
  | 0 => busy
  | n + 1 => takePort (busy ++ [firstFree busy (busy.length + 1) t]) t n

/-- The lines that lanes touch hold the load-store port one cycle each, whatever becomes of their accesses (R148), from the cycle of
issue on. DEDUCED: log entry 57. -/
def State.holdPort (s : State) (rs : List Reached) (size t : Nat) : State :=
  let ls := (rs.flatMap (fun r => linesOf r.ea.toNat size)).dedup
  s.modSlice s.iss.slice (fun x => { x with lsu := takePort (x.lsu.filter (x.cycle ≤ ·)) t ls.length })

/-- The lanes of an instruction are checked one by one, those that pass act together, and each comes to its end. The answer names
the lanes that have made a request. -/
def together (i : Instr) (reach : State → Nat → List Entry → State × (LOut ⊕ Reached))
    (act : State → List Reached → State × List (Nat × LOut)) (s : State) : State × List Reached :=
  let s0 := s.readied s.active i
  let t := s0.issueCycle
  let (s1, rs) := s.active.foldl (laneReach i t s.nextId reach) (s0, [])
  let (s2, os) := act s1 (rs.filter (·.stop.isNone))
  ((os.foldl (fun s o => s.conclude o.1 i t s.nextId o.2) s2).bump.settled, rs)

/-- Execute a memory instruction; its requests hold the port. -/
def runAccess (i : Instr) (size : Nat) (reach : State → Nat → List Entry → State × (LOut ⊕ Reached))
    (act : State → List Reached → State × List (Nat × LOut)) (s : State) : State :=
  let (s1, rs) := together i reach act s
  s1.holdPort rs size (s.readied s.active i).issueCycle

/-- Lanes act one after the other, in increasing lane order (R162). -/
def eachLane (f : State → Reached → State × LOut) : State → List Reached → State × List (Nat × LOut)
  | s, [] => (s, [])
  | s, r :: rest =>
    let (s1, o) := f s r
    let (s2, os) := eachLane f s1 rest
    (s2, (r.lane, o) :: os)

/-- Outcome of an engine command. -/
inductive EOut where
  /-- every active lane traps with the elected lane's detail -/
  | refuse (c : Cause)
  /-- every lane receives these results -/
  | all (vals : List (Word × List Nat))
  | hold (w : Wait)
  /-- the lanes are already as they must be -/
  | done
  deriving DecidableEq, Repr

/-- The lanes that pass the checks of R64; the others take their traps. -/
def passing (i : Instr) (s : State) : List Nat → State × List Nat
  | [] => (s, [])
  | k :: r =>
    let s0 := s.mark k
    match s0.lane k with
    | none => passing i s0 r
    | some l =>
      match s0.check k l i with
      | some c => passing i (s0.trapLane k l i c) r
      | none =>
        let (s1, ks) := passing i (s0.drain k ((shapeOf i).pushes - (shapeOf i).pops)) r
        (s1, k :: ks)

/-- Execute an engine command once: E is the lowest-numbered active lane that does not trap by R64. -/
def runElected (i : Instr) (body : State → List Nat → Nat → List Entry → State × EOut) (s : State) : State :=
  let s0 := s.readied s.active i
  let t := s0.issueCycle
  let (s0, ks) := passing i s0 s.active
  let s9 : State := match ks with
  | [] => s0
  | e :: _ =>
    match s0.lane e with
    | none => s0
    | some l =>
      let (ops, s1) := s0.operands e l (shapeOf i).reads
      match body s1 ks e ops with
      | (s2, .refuse c) => ks.foldl (fun s k => s.takeTrap k i c) s2
      | (s2, .all vals) => ks.foldl (fun s k => s.retire k i t vals none) s2
      | (s2, .hold w) => ks.foldl (fun st k => st.holdLane k i w s.nextId) s2
      | (s2, .done) => s2
  s9.bump.settled

def depsOf (ops : List Entry) : List Nat := (ops.flatMap (·.deps)).dedup

/-- Results of a lane instruction on values: the results depend on all operands (R291). -/
structure Pure where
  push  : List Word
  flags : Flags := {}
  trap  : Option Cause := none
  deriving DecidableEq, Repr

/-- A lane instruction that computes on its operands and the lane's control state only. -/
def runPure (i : Instr) (f : Lane → List Word → Pure) (s : State) : State :=
  runEach i (fun s k ops =>
    match s.lane k with
    | none => (s, .left)
    | some l =>
      let r := f l (ops.map (·.val))
      let s1 := s.setFlags k r.flags
      match r.trap with
      | some c => (s1, .trap c)
      | none => (s1, .go (r.push.map (fun v => (v, depsOf ops))))) s

/-- A stack instruction moves entries with what they depend on. -/
def runMove (i : Instr) (f : List Entry → List Entry) (s : State) : State :=
  runEach i (fun s _ ops => (s, .go ((f ops).map (fun e => (e.val, e.deps))))) s

end Sys2Proof.Machine
end

