-- ==== Sys2Proof/Machine/Stack.lean ====
section
/-! DEFINITION. The stack and constant instructions (R91 to R94), and the refill (R84). -/

namespace Sys2Proof.Machine

abbrev Res := Host.Outcome State Fault Refusal

def execNop (w : StallS) (s : State) : Res := finish (runMove (.nop w) (fun _ => []) s)
def execLit (w : StallS) (v : BitVec 6) (s : State) : Res :=
  finish (runPure (.lit w v) (fun _ _ => { push := [v.signExtend 64] }) s)
def execDup (w : StallS) (s : State) : Res := finish (runMove (.dup w) (fun o => o) s)
def execDrop (w : StallS) (s : State) : Res := finish (runMove (.drop w) (fun _ => []) s)
/-- ( a b -- b a ): operands are listed from the top. -/
def execSwap (w : StallS) (s : State) : Res := finish (runMove (.swap w) (fun o => o) s)
def execOver (w : StallS) (s : State) : Res := finish (runMove (.over w) (fun o => o) s)
/-- ( a b c -- b c a ) -/
def execRot (w : StallS) (s : State) : Res :=
  finish (runMove (.rot w) (fun o => match o with
    | [c, b, a] => [b, c, a]
    | _ => []) s)
def execNip (w : StallS) (s : State) : Res := finish (runMove (.nip w) (fun o => o) s)
/-- ( a b -- b a b ) -/
def execTuck (w : StallS) (s : State) : Res :=
  finish (runMove (.tuck w) (fun o => match o with
    | [b, a] => [b, a, b]
    | _ => []) s)
def execPick (w : StallS) (n : BitVec 6) (s : State) : Res := finish (runMove (.pick w n) (fun o => o) s)

/-- Write the entry at a position: on chip, or as a deep write (R85). -/
def State.setPos (s : State) (k : Nat) (p t : Nat) (v : Word) (deps : List Nat) : State :=
  match s.lane k with
  | none => s
  | some l =>
    if p < l.stk.length then
      let e : Entry := { val := v, ready := t + Lat.a.cycles, src := l.pc.toNat, deps := deps }
      s.setLane k (notePast (l.setStk (l.stk.set p e) l.back) (l.posKey (l.depth - 1 - p)) v deps)
    else
      ((s.storeDeep k l (l.depth - 1 - p) v deps).modLane k (fun x => notePast x (l.posKey (l.depth - 1 - p)) v deps)).stallWave
        (waveOf k) 4

/-- n is counted after the pop of v. -/
def execBury (w : StallS) (n : BitVec 6) (s : State) : Res :=
  finish (runEach (.bury w n) (fun s k ops =>
    match ops with
    | [v] => (s.setPos k (n.toNat + 1) s.issueCycle v.val v.deps, .go [])
    | _ => (s, .go [])) s)
def execDropn (w : StallS) (n : BitVec 6) (s : State) : Res := finish (runMove (.dropn w n) (fun _ => []) s)
def execDepth (w : StallS) (s : State) : Res :=
  finish (runPure (.depth w) (fun l _ => { push := [BitVec.ofNat 64 l.depth] }) s)
/-- ( a b -- a b a b ) -/
def execDup2 (w : StallS) (s : State) : Res := finish (runMove (.dup2 w) (fun o => o.reverse) s)
/-- ( a b c d -- c d a b ) -/
def execSwap2 (w : StallS) (s : State) : Res :=
  finish (runMove (.swap2 w) (fun o => match o with
    | [d, c, b, a] => [c, d, a, b]
    | _ => []) s)
def execLitw (w : StallL) (v : BitVec 18) (s : State) : Res :=
  finish (runPure (.litw w v) (fun _ _ => { push := [v.signExtend 64] }) s)
def execLitx (w : StallL) (v : BitVec 32) (s : State) : Res :=
  finish (runPure (.litx w v) (fun _ _ => { push := [v.signExtend 64] }) s)
def execLith (w : StallL) (v : BitVec 32) (s : State) : Res :=
  finish (runPure (.lith w v) (fun _ o => { push := [v ++ (o.getD 0 0).setWidth 32] }) s)
def execLitf (w : StallL) (v : BitVec 32) (s : State) : Res :=
  finish (runPure (.litf w v) (fun _ _ => { push := [v.setWidth 64] }) s)

/-- One lane's refill: the min(4, g) backing entries with the highest bottom indices come back (R84). Poison or an
error leaves h and g, and the lane takes the cause before its next instruction (R87). -/
def refillLane (s : State) (k : Nat) : State :=
  match s.lane k with
  | none => s
  | some l =>
    if 4 ≤ l.stk.length || l.back = 0 || l.integ.isSome then s
    else
      let n := Nat.min 4 l.back
      let idx := (List.range n).map (fun j => l.back - 1 - j)
      match idx.findSome? (s.backCause k l) with
      | some c => s.setLane k { l with integ := some c }
      | none =>
        let (es, s1) := idx.foldl (fun (a : List Entry × State) i =>
          let (v, s2) := a.2.laneEntry k (a.2.backKey k l i)
          (a.1 ++ [{ val := BitVec.ofNat 64 (leNat v.bytes), deps := mgetD l.under (l.posKey i) [] }], s2)) ([], s)
        s1.modLane k (fun x => x.setStk (x.stk ++ es) (x.back - n))

/-- A lane that must refill before its next instruction. -/
def Lane.wantsRefill (l : Lane) : Bool := l.stk.length < 4 && l.back != 0 && l.integ.isNone

/-- All lanes of the wave that must refill do so, and the wave stalls at least 4 cycles (R86). -/
def execRefill (slice place : Nat) (s : State) : Res :=
  let w := placeKey slice place
  let ks := ((s.waveLanes w).filter (fun p => p.2.wantsRefill)).map (·.1)
  if ks.isEmpty then .next s
  else finish ((ks.foldl refillLane s).stallMore w)

end Sys2Proof.Machine
end

