-- ==== Sys2Proof/Machine/Integer.lean ====
section
/-! DEFINITION. The integer instructions (R97 to R102), on exact integers reduced at the end. -/

namespace Sys2Proof.Machine

def tyBits (t : ITy) : Nat :=
  match t with
  | .s32 | .n32 => 32
  | .s64 | .n64 => 64
/-- nat(x) of R97. -/
def tyNat (t : ITy) (x : Word) : Nat := x.toNat % 2 ^ tyBits t
/-- val(x) of R97. -/
def tyVal (t : ITy) (x : Word) : Int :=
  if t.signed && (2 ^ (tyBits t - 1) : Nat) ≤ tyNat t x then (tyNat t x : Int) - 2 ^ tyBits t else tyNat t x
/-- put of R97, as a value: reduce, then extend a 32-bit pattern by the type's signedness (R18). -/
def tyPut (t : ITy) (v : Int) : Word :=
  match t with
  | .s32 => (BitVec.ofInt 32 v).signExtend 64
  | .n32 => (BitVec.ofInt 32 v).setWidth 64
  | .s64 | .n64 => BitVec.ofInt 64 v
def tyMin (t : ITy) : Int := if t.signed then -(2 ^ (tyBits t - 1)) else 0
def tyMax (t : ITy) : Int := if t.signed then 2 ^ (tyBits t - 1) - 1 else 2 ^ tyBits t - 1

/-- The top operand. -/
def op0 (o : List Word) : Word := o.getD 0 0
def op1 (o : List Word) : Word := o.getD 1 0
def op2 (o : List Word) : Word := o.getD 2 0
def op3 (o : List Word) : Word := o.getD 3 0

/-- ( a b -- f a b ) on val. -/
def binVal (t : ITy) (f : Int → Int → Int) (_ : Lane) (o : List Word) : Pure :=
  { push := [tyPut t (f (tyVal t (op1 o)) (tyVal t (op0 o)))] }
/-- ( a b -- f a b ) on nat. -/
def binNat (t : ITy) (f : Nat → Nat → Nat) (_ : Lane) (o : List Word) : Pure :=
  { push := [tyPut t (f (tyNat t (op1 o)) (tyNat t (op0 o)) : Nat)] }
def unNat (t : ITy) (f : Nat → Nat) (_ : Lane) (o : List Word) : Pure :=
  { push := [tyPut t (f (tyNat t (op0 o)) : Nat)] }
def unVal (t : ITy) (f : Int → Int) (_ : Lane) (o : List Word) : Pure :=
  { push := [tyPut t (f (tyVal t (op0 o)))] }
/-- A compare pushes 1 or 0 (R102). -/
def cmpVal (t : ITy) (f : Int → Int → Bool) (_ : Lane) (o : List Word) : Pure :=
  { push := [if f (tyVal t (op1 o)) (tyVal t (op0 o)) then 1 else 0] }

/-- Saturating result (R98). -/
def satPut (t : ITy) (v : Int) : Pure :=
  if tyMax t < v then { push := [tyPut t (tyMax t)], flags := { sati := true } }
  else if v < tyMin t then { push := [tyPut t (tyMin t)], flags := { sati := true } }
  else { push := [tyPut t v] }

/-- Detail of DIVZERO (R99). -/
def divCause (t : ITy) (opcode : Nat) (a : Word) : Cause :=
  mkCause 7 (t.code * 65536 + opcode * 256 + 2) a.toNat (if tyBits t = 64 then a.toNat / 2 ^ 32 else 0)

/-- Quotient and remainder of R99; the division truncates towards zero. -/
def divRem (t : ITy) (a b : Int) : Int × Int :=
  if b = 0 then (-1, a)
  else if t.signed && a = tyMin t && b = -1 then (tyMin t, 0)
  else (Int.tdiv a b, Int.tmod a b)

def divPure (t : ITy) (opcode : Nat) (pick : Int × Int → Int) (l : Lane) (o : List Word) : Pure :=
  let a := tyVal t (op1 o)
  let b := tyVal t (op0 o)
  if b = 0 && l.ts.dzt then
    { push := [], flags := { dz := true }, trap := some (divCause t opcode (op1 o)) }
  else { push := [tyPut t (pick (divRem t a b))], flags := { dz := b = 0 } }

def execAdd (w : StallS) (t : ITy) (s : State) : Res := finish (runPure (.add w t) (binVal t (· + ·)) s)
def execSub (w : StallS) (t : ITy) (s : State) : Res := finish (runPure (.sub w t) (binVal t (· - ·)) s)
def execMul (w : StallS) (t : ITy) (s : State) : Res := finish (runPure (.mul w t) (binVal t (· * ·)) s)
def execMulh (w : StallS) (t : ITy) (s : State) : Res :=
  finish (runPure (.mulh w t) (binVal t (fun a b => a * b / 2 ^ tyBits t)) s)
def execMad (w : StallS) (t : ITy) (s : State) : Res :=
  finish (runPure (.mad w t) (fun _ o =>
    { push := [tyPut t (tyVal t (op2 o) * tyVal t (op1 o) + tyVal t (op0 o))] }) s)
def execDiv (w : StallS) (t : ITy) (s : State) : Res := finish (runPure (.div w t) (divPure t 0x15 (·.1)) s)
def execRem (w : StallS) (t : ITy) (s : State) : Res := finish (runPure (.rem w t) (divPure t 0x16 (·.2)) s)
def execNeg (w : StallS) (t : ITy) (s : State) : Res := finish (runPure (.neg w t) (unVal t (fun a => -a)) s)
def execAbs (w : StallS) (t : ITy) (s : State) : Res :=
  finish (runPure (.abs w t) (unVal t (fun a => if a < 0 then -a else a)) s)
def execMin (w : StallS) (t : ITy) (s : State) : Res :=
  finish (runPure (.min w t) (binVal t (fun a b => if a ≤ b then a else b)) s)
def execMax (w : StallS) (t : ITy) (s : State) : Res :=
  finish (runPure (.max w t) (binVal t (fun a b => if b ≤ a then a else b)) s)
def execAdds (w : StallS) (t : ITy) (s : State) : Res :=
  finish (runPure (.adds w t) (fun _ o => satPut t (tyVal t (op1 o) + tyVal t (op0 o))) s)
def execSubs (w : StallS) (t : ITy) (s : State) : Res :=
  finish (runPure (.subs w t) (fun _ o => satPut t (tyVal t (op1 o) - tyVal t (op0 o))) s)
/-- ( v lo hi -- v' ): with lo > hi the result is hi. -/
def execClamp (w : StallS) (t : ITy) (s : State) : Res :=
  finish (runPure (.clamp w t) (fun _ o =>
    let m := if tyVal t (op1 o) ≤ tyVal t (op2 o) then tyVal t (op2 o) else tyVal t (op1 o)
    { push := [tyPut t (if m ≤ tyVal t (op0 o) then m else tyVal t (op0 o))] }) s)
def execAnd (w : StallS) (t : ITy) (s : State) : Res := finish (runPure (.and w t) (binNat t (· &&& ·)) s)
def execOr (w : StallS) (t : ITy) (s : State) : Res := finish (runPure (.or w t) (binNat t (· ||| ·)) s)
def execXor (w : StallS) (t : ITy) (s : State) : Res := finish (runPure (.xor w t) (binNat t (· ^^^ ·)) s)
def execNot (w : StallS) (t : ITy) (s : State) : Res :=
  finish (runPure (.not w t) (unNat t (fun a => 2 ^ tyBits t - 1 - a)) s)
def execShl (w : StallS) (t : ITy) (s : State) : Res :=
  finish (runPure (.shl w t) (binNat t (fun a n => if tyBits t ≤ n then 0 else a * 2 ^ n)) s)
def execShr (w : StallS) (t : ITy) (s : State) : Res :=
  finish (runPure (.shr w t) (fun _ o =>
    let n := tyNat t (op0 o)
    let a := tyVal t (op1 o)
    { push := [tyPut t (if tyBits t ≤ n then (if t.signed && a < 0 then -1 else 0) else a / 2 ^ n)] }) s)
def execRotl (w : StallS) (t : ITy) (s : State) : Res :=
  finish (runPure (.rotl w t) (binNat t (fun a n =>
    (a * 2 ^ (n % tyBits t) + a / 2 ^ (tyBits t - n % tyBits t)) % 2 ^ tyBits t)) s)

/-- The bits of a number, bit 0 first. -/
def bitsOf (n a : Nat) : List Bool := (List.range n).map (fun i => a.testBit i)
def ofBits : List Bool → Nat
  | [] => 0
  | b :: r => bit b + 2 * ofBits r

def execPopc (w : StallS) (t : ITy) (s : State) : Res :=
  finish (runPure (.popc w t) (unNat t (fun a => ((bitsOf (tyBits t) a).filter id).length)) s)
def execClz (w : StallS) (t : ITy) (s : State) : Res :=
  finish (runPure (.clz w t) (unNat t (fun a => ((bitsOf (tyBits t) a).reverse.takeWhile (! ·)).length)) s)
def execCtz (w : StallS) (t : ITy) (s : State) : Res :=
  finish (runPure (.ctz w t) (unNat t (fun a => ((bitsOf (tyBits t) a).takeWhile (! ·)).length)) s)

/-- bfx of R101. -/
def bfxVal (t : ITy) (a p n0 : Nat) : Int :=
  let n := Nat.min n0 (tyBits t)
  let f := if tyBits t ≤ p || n = 0 then 0 else a / 2 ^ p % 2 ^ n
  if t.signed && 0 < n && f.testBit (n - 1) then (f : Int) - 2 ^ n else f
def execBfx (w : StallS) (t : ITy) (s : State) : Res :=
  finish (runPure (.bfx w t) (fun _ o =>
    { push := [tyPut t (bfxVal t (tyNat t (op2 o)) (tyNat t (op1 o)) (tyNat t (op0 o)))] }) s)

/-- bfi of R101. -/
def bfiVal (t : ITy) (a f p n0 : Nat) : Nat :=
  let w := tyBits t
  let n := Nat.min n0 w
  if w ≤ p || n = 0 then a
  else
    let m := (2 ^ n - 1) * 2 ^ p % 2 ^ w
    (a &&& (2 ^ w - 1 - m)) ||| (f * 2 ^ p &&& m)
def execBfi (w : StallS) (t : ITy) (s : State) : Res :=
  finish (runPure (.bfi w t) (fun _ o =>
    { push := [tyPut t (bfiVal t (tyNat t (op3 o)) (tyNat t (op2 o)) (tyNat t (op1 o)) (tyNat t (op0 o)) : Nat)] }) s)
def execBrev (w : StallS) (t : ITy) (s : State) : Res :=
  finish (runPure (.brev w t) (unNat t (fun a => ofBits (bitsOf (tyBits t) a).reverse)) s)
/-- ( a b c -- c?a:b ) -/
def execSel (w : StallS) (t : ITy) (s : State) : Res :=
  finish (runPure (.sel w t) (fun _ o =>
    { push := [tyPut t (if tyNat t (op0 o) ≠ 0 then tyVal t (op2 o) else tyVal t (op1 o))] }) s)
def execEq (w : StallS) (t : ITy) (s : State) : Res := finish (runPure (.eq w t) (cmpVal t (fun a b => a = b)) s)
def execNe (w : StallS) (t : ITy) (s : State) : Res := finish (runPure (.ne w t) (cmpVal t (fun a b => a ≠ b)) s)
def execLt (w : StallS) (t : ITy) (s : State) : Res := finish (runPure (.lt w t) (cmpVal t (fun a b => a < b)) s)
def execLe (w : StallS) (t : ITy) (s : State) : Res := finish (runPure (.le w t) (cmpVal t (fun a b => a ≤ b)) s)
def execAddi (w : StallS) (n : BitVec 6) (s : State) : Res :=
  finish (runPure (.addi w n) (fun _ o => { push := [op0 o + n.signExtend 64] }) s)
def execShli (w : StallS) (n : BitVec 6) (s : State) : Res :=
  finish (runPure (.shli w n) (fun _ o => { push := [op0 o <<< n.toNat] }) s)

end Sys2Proof.Machine
end

