-- ==== Sys2Proof/Machine/FloatOps.lean ====
section
/-! DEFINITION. The F32 lane instructions, approximations and conversions (R103 to R115). -/

namespace Sys2Proof.Machine

-- FCTL (R29).
def fctlRm (l : Lane) : Rm := Rm.ofCode (l.fctl.toNat % 4)
def fzis (l : Lane) : Bool := l.fctl.getLsbD 4
def fzrs (l : Lane) : Bool := l.fctl.getLsbD 5
def fzih (l : Lane) : Bool := l.fctl.getLsbD 6
def fzrh (l : Lane) : Bool := l.fctl.getLsbD 7

def lo32 (x : Word) : Nat := x.toNat % 2 ^ 32
def lo16 (x : Word) : Nat := x.toNat % 2 ^ 16

/-- fin of R103. -/
def fin32 (l : Lane) (x : Word) : Ex := (f32.read (fzis l) (lo32 x)).exact
/-- fout of R103. -/
def fout32 (l : Lane) (v : Ex) : Word := BitVec.ofNat 64 (f32.out (fctlRm l) (fzrs l) v)

def fbin (f : Rm → Ex → Ex → Ex) (l : Lane) (o : List Word) : Pure :=
  { push := [fout32 l (f (fctlRm l) (fin32 l (op1 o)) (fin32 l (op0 o)))] }

def execFadd (w : StallS) (s : State) : Res := finish (runPure (.fadd w) (fbin addEx) s)
def execFsub (w : StallS) (s : State) : Res :=
  finish (runPure (.fsub w) (fbin (fun rm a b => addEx rm a (negEx b))) s)
def execFmul (w : StallS) (s : State) : Res := finish (runPure (.fmul w) (fbin (fun _ => mulEx)) s)
/-- The product and the sum are exact and rounded once (R104). -/
def execFma (w : StallS) (s : State) : Res :=
  finish (runPure (.fma w) (fun l o =>
    { push := [fout32 l (addEx (fctlRm l) (mulEx (fin32 l (op2 o)) (fin32 l (op1 o))) (fin32 l (op0 o)))] }) s)
def execFdiv (w : StallS) (s : State) : Res := finish (runPure (.fdiv w) (fbin (fun _ => divEx)) s)
def execFsqrt (w : StallS) (s : State) : Res :=
  finish (runPure (.fsqrt w) (fun l o => { push := [fout32 l (sqrtEx (fin32 l (op0 o)))] }) s)

def nan32 (x : Nat) : Bool := f32.infBits < x % f32.signBit
/-- `fneg`, `fabs` and `fsgn` act on bits; a NaN becomes the canonical NaN (R105). -/
def signOp (a r : Nat) : Word := BitVec.ofNat 64 (if nan32 a then f32.nanBits else r)
def execFneg (w : StallS) (s : State) : Res :=
  finish (runPure (.fneg w) (fun _ o => { push := [signOp (lo32 (op0 o)) (lo32 (op0 o) ^^^ 2 ^ 31)] }) s)
def execFabs (w : StallS) (s : State) : Res :=
  finish (runPure (.fabs w) (fun _ o => { push := [signOp (lo32 (op0 o)) (lo32 (op0 o) % 2 ^ 31)] }) s)
def execFsgn (w : StallS) (s : State) : Res :=
  finish (runPure (.fsgn w) (fun _ o =>
    { push := [signOp (lo32 (op1 o)) (lo32 (op1 o) % 2 ^ 31 + lo32 (op0 o) / 2 ^ 31 * 2 ^ 31)] }) s)

/-- The result is one of the flushed operands, or the canonical NaN (R106). -/
def pick32 (v : Ex) : Word := BitVec.ofNat 64 (f32.out .rne false v)
def execFmin (w : StallS) (m : Bool) (s : State) : Res :=
  finish (runPure (.fmin w m) (fun l o =>
    { push := [pick32 (minMax false m (fin32 l (op1 o)) (fin32 l (op0 o)))] }) s)
def execFmax (w : StallS) (m : Bool) (s : State) : Res :=
  finish (runPure (.fmax w m) (fun l o =>
    { push := [pick32 (minMax true m (fin32 l (op1 o)) (fin32 l (op0 o)))] }) s)

/-- R107. -/
def fcmpVal (c : FCond) (a b : Ex) : Bool :=
  match c with
  | .uno => isNanEx a || isNanEx b
  | .eq => !(isNanEx a || isNanEx b) && !ltEx false a b && !ltEx false b a
  | .lt => ltEx false a b
  | .le => !(isNanEx a || isNanEx b) && !ltEx false b a
def execFcmp (w : StallS) (c : FCond) (s : State) : Res :=
  finish (runPure (.fcmp w c) (fun l o =>
    { push := [if fcmpVal c (fin32 l (op1 o)) (fin32 l (op0 o)) then 1 else 0] }) s)

/-- The class of an F32 pattern (R107). -/
def fclassBit (x : Nat) : Nat :=
  let neg := x.testBit 31
  let m := x % 2 ^ 31
  if f32.infBits < m then (if m.testBit 22 then 9 else 8)
  else if m = f32.infBits then (if neg then 0 else 7)
  else if m = 0 then (if neg then 3 else 4)
  else if m < 2 ^ 23 then (if neg then 2 else 5)
  else (if neg then 1 else 6)
def execFclass (w : StallS) (s : State) : Res :=
  finish (runPure (.fclass w) (fun _ o => { push := [BitVec.ofNat 64 (2 ^ fclassBit (lo32 (op0 o)))] }) s)

/-- Rounding code of an instruction (R28). -/
def rmOf (l : Lane) (r : RCode) : Rm :=
  match r with
  | .rne => .rne | .rtz => .rtz | .rdn => .rdn | .rup => .rup | .dyn => fctlRm l

/-- R108. -/
def frndEx (rm : Rm) (a : Ex) : Ex :=
  match a with
  | .rat s n d e =>
    let v := roundInt rm s n d e
    if v = 0 then .zero s else .rat s v.natAbs 1 0
  | x => x
def execFrnd (w : StallS) (r : RCode) (s : State) : Res :=
  finish (runPure (.frnd w r) (fun l o => { push := [pick32 (frndEx (rmOf l r) (fin32 l (op0 o)))] }) s)

-- Approximations (R109, R110).
def one32 : Nat := 0x3F800000
/-- Is the value ±2^k, and what is k? -/
def powerOf (m : Nat) (e : Int) : Option Int := if m = 2 ^ Nat.log2 m then some (Nat.log2 m + e) else none

/-- A result whose magnitude lies below 2^−126 is flushed to zero of its sign when FZRS is 1 (R109). -/
def flushApprox (fz : Bool) (bits : Nat) : Nat := if fz && f32.isSub bits then bits / 2 ^ 31 * 2 ^ 31 else bits

/-- |x − y| ≤ b, as fractions of naturals. DESIGN CHOICE: log entry 15. -/
def within (x y b : Nat × Nat) : Bool :=
  let l := x.1 * y.2
  let r := y.1 * x.2
  decide ((if l ≤ r then r - l else l - r) * b.2 ≤ b.1 * (x.2 * y.2))

def fracOf (m : Nat) (e : Int) : Nat × Nat := scaleUp m 1 e

/-- The implementation's value of a positive number's reciprocal where it keeps the bound of R109, else the rounded one. -/
def rcpaVal (fz : Bool) (m : Nat) (e : Int) (x : Nat) : Nat :=
  let exact := f32.out .rne false (.rat false 1 m (-e))
  if (powerOf m e).any (fun k => -126 ≤ k && k ≤ 126) then exact
  else if f32.infBits ≤ exact then f32.infBits
  else if fz && f32.isSub exact then 0
  else
    let r := (Config.rcpApprox fz (BitVec.ofNat 32 x)).toNat
    let a := fracOf m e
    let ok := match f32.dec r with
      | .num t n g =>
        !t && (
          if f32.isSub exact || f32.isSub r || n = 0 then within (fracOf n g) (a.2, a.1) (1, 2 ^ 149)
          else within ((fracOf n g).1 * a.1, (fracOf n g).2 * a.2) (1, 1) (1, 2 ^ 23))
      | _ => false
    if ok then r else exact

def frcpaBits (l : Lane) (x : Word) : Nat :=
  match f32.read (fzis l) (lo32 x) with
  | .nan => f32.nanBits
  | .inf s => f32.signed s 0
  | .num s m e => 
    if m = 0 then f32.signed s f32.infBits else flushApprox (fzrs l) (f32.signed s (rcpaVal (fzrs l) m e (lo32 x % 2 ^ 31)))

/-- The implementation's value of 1/√a where it keeps the bound, else the rounded one. Only the even powers of two that the
table of R110 names are exact: every other operand, a subnormal or very large power of two among them, takes the
implementation's value. -/
def rsqaVal (fz : Bool) (m : Nat) (e : Int) (x : Nat) : Nat :=
  let exact := f32.out .rne false (divEx (.rat false 1 1 0) (sqrtEx (.rat false m 1 e)))
  if (powerOf m e).any (fun k => -126 ≤ k && k ≤ 126 && k % 2 == 0) then exact
  else
    let r := (Config.rsqApprox fz (BitVec.ofNat 32 x)).toNat
    let a := fracOf m e
    let ok := match f32.dec r with
      | .num t n g =>
        let v := fracOf n g
        let sq := (v.1 * v.1 * a.1, v.2 * v.2 * a.2)
        !t && decide ((2 ^ 22 - 1) ^ 2 * sq.2 ≤ sq.1 * 2 ^ 44) && decide (sq.1 * 2 ^ 44 ≤ (2 ^ 22 + 1) ^ 2 * sq.2)
      | _ => false
    if ok then r else exact

def frsqaBits (l : Lane) (x : Word) : Nat :=
  match f32.read (fzis l) (lo32 x) with
  | .nan => f32.nanBits
  | .inf s => if s then f32.nanBits else 0
  | .num s m e =>
    if m = 0 then f32.signed s f32.infBits
    else if s then f32.nanBits
    else flushApprox (fzrs l) (rsqaVal (fzrs l) m e (lo32 x))

/-- 2^(2^−j) for j = 1, 2, …, in units of 2^−64, from below and from above. -/
def rootPairs : Nat → Nat × Nat → List (Nat × Nat)
  | 0, _ => []
  | n + 1, (lo, hi) =>
    let a := isqrt (lo * 2 ^ 64) 130 0
    let b := isqrt (hi * 2 ^ 64) 130 0 + 1
    (a, b) :: rootPairs n (a, b)

/-- 2^(p ÷ 2^48) for p below 2^48, in units of 2^−64, from below and from above; `more`: the exponent is up to 1 greater
in its last place. -/
def exp2Frac (p : Nat) (more : Bool) : Nat × Nat :=
  let r := ((rootPairs 48 (2 ^ 65, 2 ^ 65)).zipIdx).foldl (fun (x : Nat × Nat) q =>
    if p.testBit (47 - q.2) then (x.1 * q.1.1 / 2 ^ 64, x.2 * q.1.2 / 2 ^ 64 + 1) else x) (2 ^ 64, 2 ^ 64)
  if more then (r.1, r.2 + r.2 / 2 ^ 48 + 1) else r

/-- The implementation's 2^a where it keeps the bound of R109, else the rounded value. The exponent is i + p ÷ 2^48, i an
integer. The exact result lies from lo to hi, and a value is taken only where it keeps the bound for every real of that
range, so that nothing beyond the bound passes (log entry 15). -/
def exp2Val (fz : Bool) (i : Int) (p : Nat) (more : Bool) (x : Nat) : Nat :=
  let (lo, hi) := exp2Frac p more
  let near := f32.out .rne false (.rat false lo 1 (i - 64))
  if fz && i < -126 then 0
  else
    let r := (Config.exp2Approx fz (BitVec.ofNat 32 x)).toNat
    let ulps : Nat := if i < -126 then 1 else 2
    -- in units of 2^(−149 − 64)
    let up (n : Nat) (e : Int) : Nat := n * 2 ^ (e + 213).toNat
    let bound := up ulps (max i (-126) - 23)
    let ok := match f32.dec r with
      | .num t n g => (!t || n = 0) && up hi (i - 64) ≤ up n g + bound && up n g ≤ up lo (i - 64) + bound
      | _ => false
    if ok then r else near

def fexp2Bits (l : Lane) (x : Word) : Nat :=
  match f32.read (fzis l) (lo32 x) with
  | .nan => f32.nanBits
  | .inf s => if s then 0 else f32.infBits
  | .num s m e =>
    let (a, b) := fracOf m e
    if m = 0 then one32
    else if !s && 128 * b ≤ a then f32.infBits
    else if s && 149 * b < a then 0
    else if a % b = 0 then
      flushApprox (fzrs l) (f32.out .rne false (.rat false 1 1 (if s then -(a / b : Nat) else (a / b : Nat))))
    else if f32.isSub (lo32 x) then one32
    else
      -- the exponent in units of 2^−48, rounded down
      let v : Int := if s then -((a * 2 ^ 48 + b - 1) / b : Nat) else (a * 2 ^ 48 / b : Nat)
      flushApprox (fzrs l) (exp2Val (fzrs l) (v / 2 ^ 48) (v % 2 ^ 48).toNat (a * 2 ^ 48 % b != 0) (lo32 x))

/-- 40 binary digits of log2 z, rounded down, for z from 1 to 2 in units of 2^−128: repeated squaring. -/
def log2Digits : Nat → Nat → Nat → Nat
  | 0, _, d => d
  | n + 1, z, d =>
    let w := z * z / 2 ^ 128
    if 2 ^ 129 ≤ w then log2Digits n (w / 2) (2 * d + 1) else log2Digits n w (2 * d)

/-- The implementation's log2 of m × 2^e where it keeps the bound of R109, else a value of the right size. The exact
result lies from y to y + 2, in units of 2^−40, and a value is taken only where it keeps the bound for every real of that
range (log entry 15). -/
def log2Val (fz : Bool) (m : Nat) (e : Int) (x : Nat) : Nat :=
  let k := Nat.log2 m
  let y : Int := ((k : Int) + e) * 2 ^ 40 + (log2Digits 40 (m * 2 ^ (128 - k)) 0 : Nat)
  let size := (if y < 0 then -y - 2 else y).toNat
  -- a lies from 0.5 to 2 where |log2 a| ≤ 1
  let bound : Nat := if size < 2 ^ 40 then 2 ^ 18 else 2 ^ (Nat.log2 size - 22)
  let near := f32.out .rne false (.rat (decide (y + 1 < 0)) (y + 1).natAbs 1 (-40))
  let r := (Config.log2Approx fz (BitVec.ofNat 32 x)).toNat
  let ok := match f32.dec r with
    | .num t n g =>
      let v : Int := (if t then -1 else 1) * (n * 2 ^ (g + 149).toNat : Nat)
      let at_ (z : Int) : Int := z * 2 ^ 109
      decide (at_ (y + 2 - bound) ≤ v) && decide (v ≤ at_ (y + bound))
    | _ => false
  if ok then r else near

def flog2Bits (l : Lane) (x : Word) : Nat :=
  match f32.read (fzis l) (lo32 x) with
  | .nan => f32.nanBits
  | .inf s => if s then f32.nanBits else f32.infBits
  | .num s m e =>
    if m = 0 then f32.signed true f32.infBits
    else if s then f32.nanBits
    else
      match powerOf m e with
      | some k =>
        if -126 ≤ k && k ≤ 126 then
          f32.out .rne false (if k = 0 then .zero false else .rat (decide (k < 0)) k.natAbs 1 0)
        else flushApprox (fzrs l) (log2Val (fzrs l) m e (lo32 x))
      | none => flushApprox (fzrs l) (log2Val (fzrs l) m e (lo32 x))

def approx (f : Lane → Word → Nat) (l : Lane) (o : List Word) : Pure := { push := [BitVec.ofNat 64 (f l (op0 o))] }
def execFrcpa (w : StallS) (s : State) : Res := finish (runPure (.frcpa w) (approx frcpaBits) s)
def execFrsqa (w : StallS) (s : State) : Res := finish (runPure (.frsqa w) (approx frsqaBits) s)
def execFexp2a (w : StallS) (s : State) : Res := finish (runPure (.fexp2a w) (approx fexp2Bits) s)
def execFlog2a (w : StallS) (s : State) : Res := finish (runPure (.flog2a w) (approx flog2Bits) s)

-- Conversions (R111, R112).
/-- The source of a conversion: an exact value. -/
def cvtSrc (l : Lane) (t : CvtTy) (x : Word) : Ex :=
  let ofInt (v : Int) : Ex := if v = 0 then .zero false else .rat (decide (v < 0)) v.natAbs 1 0
  match t with
  | .s32 => ofInt (tyVal .s32 x)
  | .n32 => ofInt (tyVal .n32 x)
  | .f32 => (f32.read (fzis l) (lo32 x)).exact
  | .f16 => (f16.read (fzih l) (lo16 x)).exact
  | .b16 => (b16.read (fzih l) (lo16 x)).exact

/-- An integer target: saturation is judged on the rounded value. -/
def cvtInt (t : ITy) (rm : Rm) (x : Ex) : Pure :=
  match x with
  | .nan => { push := [0], flags := { sati := true } }
  | .inf s => { push := [tyPut t (if s then tyMin t else tyMax t)], flags := { sati := true } }
  | .zero _ => { push := [0] }
  | .rat s n d e => satPut t (roundInt rm s n d e)

def cvtFloat (l : Lane) (t : CvtTy) (rm : Rm) (x : Ex) : Nat × Bool :=
  match t with
  | .f16 => f16.conv rm (fzrh l) x
  | .b16 => b16.conv .rne (fzrh l) x
  | _ => f32.conv rm (fzrs l) x

def cvtPure (src dst : CvtTy) (r : RCode) (l : Lane) (o : List Word) : Pure :=
  let x := cvtSrc l src (op0 o)
  match dst with
  | .s32 => cvtInt .s32 (rmOf l r) x
  | .n32 => cvtInt .n32 (rmOf l r) x
  | t =>
    let (b, sat) := cvtFloat l t (rmOf l r) x
    { push := [BitVec.ofNat 64 b], flags := { satf := sat } }
def execCvt (w : StallL) (src dst : CvtTy) (r : RCode) (s : State) : Res :=
  finish (runPure (.cvt w src dst r) (cvtPure src dst r) s)

/-- pack2 of R113: both halves converted from F32. -/
def packPure (t : CvtTy) (r : RCode) (l : Lane) (o : List Word) : Pure :=
  let (lo, s1) := cvtFloat l t (rmOf l r) (cvtSrc l .f32 (op1 o))
  let (hi, s2) := cvtFloat l t (rmOf l r) (cvtSrc l .f32 (op0 o))
  { push := [BitVec.ofNat 64 (hi * 65536 + lo)], flags := { satf := s1 || s2 } }
def execPack2F16 (w : StallS) (r : RCode) (s : State) : Res := finish (runPure (.pack2F16 w r) (packPure .f16 r) s)
def execPack2B16 (w : StallS) (s : State) : Res := finish (runPure (.pack2B16 w) (packPure .b16 .rne) s)

def cvtOf16 (f : Fmt16) : CvtTy :=
  match f with
  | .f16 => .f16
  | .b16 => .b16
def execUnpk2 (w : StallS) (f : Fmt16) (s : State) : Res :=
  finish (runPure (.unpk2 w f) (fun l o =>
    let half (x : Word) : Word := BitVec.ofNat 64 (cvtFloat l .f32 .rne (cvtSrc l (cvtOf16 f) x)).1
    { push := [half (op0 o), half (op0 o >>> 16)] }) s)

def extBits (k : ExtW) : Nat :=
  match k with
  | .w8 => 8 | .w16 => 16 | .w32 => 32
/-- R114. -/
def extVal (sgn : Bool) (k : ExtW) (x : Word) : Word :=
  let v := x.toNat % 2 ^ extBits k
  if sgn && v.testBit (extBits k - 1) then BitVec.ofInt 64 ((v : Int) - 2 ^ extBits k) else BitVec.ofNat 64 v
def execExt (w : StallS) (sgn : Bool) (k : ExtW) (s : State) : Res :=
  finish (runPure (.ext w sgn k) (fun _ o => { push := [extVal sgn k (op0 o)] }) s)

-- Quantization (R26, R27, R115).
def qBits (q : QFmt) : Nat :=
  match q with
  | .q8 => 8
  | .q4 => 4

/-- The code of R27 for v, scale bits and zero point; the flag is SATF. -/
def quantize (q : QFmt) (v : Ex) (sc : Ex) (z : Nat) : Nat × Bool :=
  let qmax : Nat := 2 ^ qBits q - 1
  match v, sc with
  | .inf s, _ => (if s then 0 else qmax, true)
  | .nan, _ => (z, true)
  | _, .zero _ | _, .inf _ | _, .nan => (z, true)
  | .zero _, .rat _ _ _ _ => (z, false)
  | .rat s n d e, .rat t m c g =>
    let r := roundInt .rne (s != t) (n * c) (d * m) (e - g) + z
    if r < 0 then (0, true) else if (qmax : Int) < r then (qmax, true) else (r.toNat, false)

/-- s × (q − z), exact (R26). A zero has the sign of the scale where q = z, as IEEE 754 multiplies (the difference of equal
codes is +0). DEDUCED: log entry 54. -/
def dequant (sc : Ex) (q z : Nat) : Ex :=
  let d : Int := (q : Int) - z
  mulEx sc (if d = 0 then .zero false else .rat (decide (d < 0)) d.natAbs 1 0)

def execQnt (w : StallS) (q : QFmt) (s : State) : Res :=
  finish (runPure (.qnt w q) (fun l o =>
    let (c, sat) := quantize q (fin32 l (op2 o)) (f16.dec (lo16 (op1 o))).exact ((op0 o).toNat % 2 ^ qBits q)
    { push := [BitVec.ofNat 64 c], flags := { satf := sat } }) s)
def execDqnt (w : StallS) (q : QFmt) (s : State) : Res :=
  finish (runPure (.dqnt w q) (fun _ o =>
    { push := [pick32 (dequant (f16.dec (lo16 (op1 o))).exact ((op2 o).toNat % 2 ^ qBits q)
        ((op0 o).toNat % 2 ^ qBits q))] }) s)

end Sys2Proof.Machine
end

