-- ==== Sys2Proof/Machine/Slots.lean ====
section
/-! DEFINITION. Local slots (R122, R123), `give` and `claim` (R124, R125) and the grant of a claim. -/

namespace Sys2Proof.Machine

/-- SLOT_RANGE (R123). -/
def slotCause (opcode idx n : Nat) : Cause := mkCause 2 (opcode * 256 + 4) (sat32 idx) n

/-- Write a slot: ready two cycles after the store issues (R49). -/
def State.setSlot (s : State) (k n : Nat) (v : Word) (deps : List Nat) : State :=
  let src := ((s.lane k).map (fun l => l.pc.toNat)).getD 0
  let e : Entry := { val := v, ready := s.time (sliceOf k) + 2, src := src, deps := deps }
  (((s.mendSoft k n).modWave (waveOf k) (fun w => { w with slots := mset w.slots (32 * n + laneNo k) e })).modLane k
    (fun l => notePast (notePast l (2 * n + 1) (s.slot k n).val (s.slot k n).deps) (2 * n + 1) v deps))

/-- What a slot holds depends on its writer; one that an index chooses, on the index too (R291). -/
def slotLoad (opcode n : Nat) (by_ : List Nat) (s : State) (k : Nat) : State × LOut :=
  if 8 * s.nlb k ≤ n then (s, .trap (slotCause opcode n (s.nlb k)))
  else
    match s.softCause k n n, s.lane k with
    | some c, _ => (s, .trap c)
    | none, none => (s, .left)
    | none, some l =>
      let (e, s1) := s.latch k l (2 * n + 1) (s.slot k n)
      (s1, .go [(e.val, (e.deps ++ by_).dedup)])

def slotStore (opcode n : Nat) (v : Word) (deps : List Nat) (s : State) (k : Nat) : State × LOut :=
  if 8 * s.nlb k ≤ n then (s, .trap (slotCause opcode n (s.nlb k)))
  else (s.setSlot k n v deps, .go [])

def execLdl (w : StallS) (n : BitVec 6) (s : State) : Res :=
  finish (runEach (.ldl w n) (fun s k _ => slotLoad 0x49 n.toNat [] s k) s)
def execStl (w : StallS) (n : BitVec 6) (s : State) : Res :=
  finish (runEach (.stl w n) (fun s k ops => slotStore 0x4A n.toNat (ops.getD 0 {}).val (ops.getD 0 {}).deps s k) s)
def execLdlx (w : StallS) (s : State) : Res :=
  finish (runEach (.ldlx w) (fun s k ops => slotLoad 0x4B (ops.getD 0 {}).val.toNat (ops.getD 0 {}).deps s k) s)
/-- ( v i -- ) -/
def execStlx (w : StallS) (s : State) : Res :=
  finish (runEach (.stlx w) (fun s k ops =>
    slotStore 0x4C (ops.getD 0 {}).val.toNat (ops.getD 1 {}).val ((ops.getD 1 {}).deps ++ (ops.getD 0 {}).deps).dedup s k) s)

/-- The highest-numbered local blocks go to the task's pool on the slice (R124). -/
def State.giveBlocks (s : State) (w k : Nat) : State :=
  match s.wave w with
  | none => s
  | some v =>
    let js := (List.range k).map (· + (v.nlb - k))
    let bs := js.map (blockOf v)
    (s.modSlice (w / 48) (fun x => { x with pools := mset x.pools v.task (mgetD x.pools v.task [] ++ bs) })).setWave w
      { v with nlb := v.nlb - k, slots := v.slots.filter (fun p => p.1 / 256 < v.nlb - k)
               was := v.was.filter (fun p => p.1 / 256 < v.nlb - k) }

def execGive (w : StallS) (k : BitVec 4) (s : State) : Res :=
  finish (runElected (.give w k) (fun s _ e _ =>
    if s.nlb e < k.toNat then (s, .refuse (slotCause 0x4D k.toNat (s.nlb e)))
    else (s.giveBlocks (waveOf e) k.toNat, .all [])) s)

def Wait.claimOf (w : Wait) : Option Nat :=
  match w with
  | .claim k => some k
  | _ => Option.none

/-- The waiting claims of a list of lanes, one per strand: stamp and blocks asked for. -/
def claimsOf (ls : List (Nat × Lane)) : List (Nat × Nat) :=
  (ls.filterMap (fun p => p.2.wait.claimOf.map (fun k => (p.2.stamp, k)))).dedup

/-- Lanes of one task on one slice. -/
def State.taskLanesOn (s : State) (t slice : Nat) : List (Nat × Lane) :=
  s.lanes.filter (fun p => sliceOf p.1 == slice && s.taskNo p.1 == t)

/-- The slot values a granted block may show: what a thread of the task last wrote there, or zero (R121).
DEDUCED: log entry 27. -/
def chooseSlots (s : State) : Map Left → Map Left × State
  | [] => ([], s)
  | (n, v) :: r =>
    let (i, s1) := choose s 2
    let (t, s2) := chooseSlots s1 r
    (if i = 1 then t else (n, v) :: t, s2)

/-- Blocks of the pool become local blocks of a wave, above those it has (R124). -/
def grantInto (w : Nat) : State → Pool → State
  | s, [] => s
  | s, b :: r =>
    let (vs, s1) := chooseSlots s b
    grantInto w (s1.modWave w (fun v =>
      { v with nlb := v.nlb + 1, slots := vs.foldl (fun m p => mset m (256 * v.nlb + p.1) { val := p.2.val, deps := p.2.deps }) v.slots
               was := b.foldl (fun m p => mset m (256 * v.nlb + p.1) p.2) v.was })) r

def State.poolOf (s : State) (t slice : Nat) : Pool := mgetD (s.slice slice).pools t []

/-- A claim is served with the blocks that have been in the pool longest, which become the wave's next local blocks.
DEDUCED: log entry 27. -/
def State.grantClaim (s : State) (t w k : Nat) : State :=
  let p := s.poolOf t (w / 48)
  grantInto w (s.modSlice (w / 48) (fun x => { x with pools := mset x.pools t (p.drop k) })) (p.take k)

/-- A claim is judged once, against NLB and what the wave's waiting claims have asked for (R124). -/
def execClaim (w : StallS) (k : BitVec 4) (s : State) : Res :=
  finish (runElected (.claim w k) (fun s _ e _ =>
    let wv := waveOf e
    let asked := ((claimsOf (s.waveLanes wv)).map (·.2)).sum
    if 8 < s.nlb e + asked + k.toNat then (s, .refuse (slotCause 0x4E k.toNat (s.nlb e)))
    else
      let t := s.taskNo e
      if (claimsOf (s.taskLanesOn t (sliceOf e))).isEmpty && k.toNat ≤ (s.poolOf t (sliceOf e)).length then
        (s.grantClaim t wv k.toNat, .all [])
      else (s, .hold (.claim k.toNat))) s)

/-- The least element by stamp. DEDUCED: log entry 13. -/
def oldest : List (Nat × Nat) → Option (Nat × Nat)
  | [] => none
  | a :: r =>
    match oldest r with
    | none => some a
    | some b => some (if a.1 ≤ b.1 then a else b)

/-- The strand of a wave that waits with a claim since stamp `stamp` continues after it. -/
def State.passClaim (s : State) (w k stamp : Nat) : State :=
  { s with lanes := s.lanes.map (fun p =>
      if waveOf p.1 == w && p.2.stamp == stamp && p.2.wait.claimOf == some k then
        (p.1, { p.2 with wait := .none, pc := p.2.pc + 2, next := Nat.max p.2.next (s.cycle (w / 48) + 1) })
      else p) }

/-- The oldest waiting claim of the task is granted whole when the pool can satisfy it (R125). -/
def execClaimGrant (slice task : Nat) (s : State) : Res :=
  let ls := s.taskLanesOn task slice
  match oldest (claimsOf ls) with
  | none => .next s
  | some (st, k) =>
    if k ≤ (s.poolOf task slice).length then
      match ls.find? (fun p => p.2.stamp == st && p.2.wait.claimOf == some k) with
      | some (key, _) => finish ((s.grantClaim task (waveOf key) k).passClaim (waveOf key) k st)
      | none => .next s
    else .next s

end Sys2Proof.Machine
end

