-- ==== Sys2Proof/Machine/Special.lean ====
section
/-! DEFINITION. The special registers (R127 to R131, R181, R322, R323, R337, R339, R340, R382). -/

namespace Sys2Proof.Machine

/-- The role of a thread index (R131). -/
def roleOf (t : Task) (thx : Nat) : Nat :=
  (((t.roles.zipIdx).find? (fun p => p.1.1 ≤ thx && thx < p.1.1 + p.1.2)).map (·.2)).getD 0

/-- The ratio code at which a slice runs (R179). -/
def State.ratioOf (s : State) (slice : Nat) : Nat := (s.slice slice).ratio

/-- Cellar bytes that a cluster has spent in this interval (R382). -/
def State.cellSpent (s : State) (c : Nat) : Nat := ((s.budget.filter (fun p => p.1 % 96 == c)).map (fun p => p.2.2.1)).sum

/-- What is left in this interval (R382): copy bytes and trap-service cycles to a virtual function, cellar bytes to the
cluster. -/
def State.budgetLeft (s : State) (vf slice : Nat) : Nat × Nat × Nat :=
  let used := mgetD s.budget (budgetKey vf (slice / 6)) (0, 0, 0)
  let f := s.vf vf
  (f.copyCap - used.1, (s.cluster (slice / 6)).cellCap - s.cellSpent (slice / 6), f.trapCap - used.2.2)

/-- `rsr` (R127, R128). -/
def State.readReg (s : State) (k : Nat) (l : Lane) (r : SReg) : Word :=
  let sp := s.spaceOf k
  let c := s.ctx sp
  let f := s.vf (sp / 16384)
  let ofTask (g : Task → Word) : Word := ((s.taskOf k).map g).getD 0
  let left := s.budgetLeft (sp / 16384) (sliceOf k)
  match r with
  | .tstat => l.ts.word
  | .fctl => l.fctl
  | .tkstat => ofTask tkWord
  | .mpc => l.cur.mpc
  | .lane => BitVec.ofNat 64 (laneNo k)
  | .thx => BitVec.ofNat 64 l.thx
  | .taskx => ofTask (fun t => BitVec.ofNat 64 t.taskx)
  | .role => ofTask (fun t => BitVec.ofNat 64 (roleOf t l.thx))
  | .argp => ofTask (fun t => t.argp)
  | .nth => ofTask (fun t => BitVec.ofNat 64 t.nth)
  | .nlb => BitVec.ofNat 64 (s.nlb k)
  | .cycle => BitVec.ofNat 64 (s.time (sliceOf k))
  | .ratio => BitVec.ofNat 64 (s.ratioOf (sliceOf k))
  | .energy => ofTask (fun t => BitVec.ofNat 64 t.energy)
  | .draw => ofTask (fun t => BitVec.ofNat 64 t.draw)
  | .intv => BitVec.ofNat 64 (s.cluster (sliceOf k / 6)).intv
  | .copyB => BitVec.ofNat 64 left.1
  | .cellB => BitVec.ofNat 64 left.2.1
  | .trapB => BitVec.ofNat 64 left.2.2
  | .tcode => ofTask (fun t => BitVec.ofNat 64 t.tcode)
  | .epc => l.epc
  | .estat => l.estat
  | .ecg => l.ecg
  | .edw0 => l.edw0
  | .edw1 => l.edw1
  | .edw2 => l.edw2
  | .efh => BitVec.ofNat 64 l.efh
  | .stvec => c.stvec
  | .ssbase => c.ssbase
  | .ptb => c.root
  | .asidx => BitVec.ofNat 64 (sp / 16384 * 2 ^ 18 + bit c.fmTrap * 2 ^ 17 + sp % 16384)
  | .cutdl => BitVec.ofNat 64 c.cutdl
  | .htvec => f.htvec
  | .tdeleg => f.tdeleg
  | .hsbase => f.hsbase

-- Writable bits (R29, R337, R339, R340).
def vecMask : Word := 0x00FFFFFFFFFFFFFE#64
def baseMask : Word := 0x000FFFFFFFFFF001#64
def delegMask : Word := 0x7F7FE#64
def rootMask : Word := 0x000FFFFFFFFE0000#64

/-- `wsr` of the registers without a row of their own. The others keep their own meanings. -/
def State.writeReg (s : State) (k : Nat) (r : SReg) (v : Word) : State :=
  let sp := s.spaceOf k
  match r with
  | .fctl => s.modLane k (fun l => { l with fctl := v &&& fctlMask })
  | .epc => s.modLane k (fun l => { l with epc := v })
  | .estat => s.modLane k (fun l => { l with estat := v &&& estatMask })
  | .ecg => s.modLane k (fun l => { l with ecg := v &&& 0x1F#64 })
  | .edw0 => s.modLane k (fun l => { l with edw0 := v &&& 0xFFFFFFFF#64 })
  | .edw1 => s.modLane k (fun l => { l with edw1 := v &&& 0xFFFFFFFF#64 })
  | .edw2 => s.modLane k (fun l => { l with edw2 := v &&& 0xFFFFFFFF#64 })
  | .stvec => s.modCtx sp (fun c => { c with stvec := v &&& vecMask })
  | .htvec => s.modVf (sp / 16384) (fun f => { f with htvec := v &&& vecMask })
  | .tdeleg => s.modVf (sp / 16384) (fun f => { f with tdeleg := v &&& delegMask })
  | .hsbase => s.modVf (sp / 16384) (fun f => { f with hsbase := v &&& baseMask })
  | _ => s

def execRsr (w : StallL) (r : SReg) (s : State) : Res :=
  finish (runEach (.rsr w r) (fun s k _ =>
    match s.lane k with
    | none => (s, .left)
    | some l => (s, .go [(s.readReg k l r, [])])) s)

def execWsr (w : StallL) (r : SReg) (s : State) : Res :=
  finish (runEach (.wsr w r) (fun s k ops => (s.writeReg k r (ops.getD 0 {}).val, .go [])) s)

/-- CUTE, DZT and PRBM are written; a 1 in DZ or PRB clears it (R129). -/
def tstatWrite (t : TStat) (v : Word) : TStat :=
  { t with cute := v.getLsbD 9, dzt := v.getLsbD 8, prbm := v.getLsbD 4,
           dz := t.dz && !v.getLsbD 6, prb := t.prb && !v.getLsbD 5 }
def execWsrTstat (w : StallL) (s : State) : Res :=
  finish (runEach (.wsrTstat w) (fun s k ops =>
    (s.modLane k (fun l => { l with ts := tstatWrite l.ts (ops.getD 0 {}).val }), .go [])) s)

/-- All three fields are written (R130). A clear that is not ordered with another thread's set takes its place by issue (R34).
DESIGN CHOICE: log entry 52. -/
def execWsrTkstat (w : StallL) (s : State) : Res :=
  finish (runEach (.wsrTkstat w) (fun s k ops =>
    let v := (ops.getD 0 {}).val
    (s.modTask (s.taskNo k) (fun t =>
      { t with arm := v.getLsbD 2, satf := v.getLsbD 1, sati := v.getLsbD 0 }), .go [])) s)

/-- Write a slot of the current frame (R343, R349). -/
def State.setFrame (s : State) (k i : Nat) (e : Entry) : State :=
  match s.lane k with
  | none => s
  | some l =>
    if l.ts.tlvl ≤ 1 then
      (s.setLane k { l with frame := ((l.frame ++ List.replicate (8 - l.frame.length) ({} : Entry)).set i e) }).mendSoft k (64 + i)
    else
      ((s.storeWord k (l.area k + recordOff l.ts.tlvl + 8 * i) e.val).modLane k
        (fun x => { x with under := msetD x.under (recKey l.ts.tlvl i) e.deps [] })).stallMore (waveOf k)

/-- Each slot added to the frame holds an entry that it held earlier, or zero (R349). -/
def raiseFrame (k : Nat) : State → List Nat → State
  | s, [] => s
  | s, i :: r =>
    let (c, s1) := choose s 2
    raiseFrame k (if c = 1 then s1.setFrame k i {} else s1) r

/-- A write above 8 stores 8 (R128, R339, R349). DEDUCED: log entry 44. -/
def execWsrEfh (w : StallL) (s : State) : Res :=
  finish (runEach (.wsrEfh w) (fun s k ops =>
    match s.lane k with
    | none => (s, .left)
    | some l =>
      let n := Nat.min 8 ((ops.getD 0 {}).val.toNat % 16)
      let s1 := raiseFrame k s ((List.range (n - l.efh)).map (· + l.efh))
      (s1.modLane k (fun l => { l with efh := n }), .go [])) s)

/-- The mode areas of one base (R341): 576 × 48 × 32 areas of 4 KiB. -/
def areaBytes : Nat := 576 * 48 * 32 * 4096

/-- With EN = 1 the areas must lie inside the grant, or PROTECTION GRANT (R340). -/
def execWsrSsbase (w : StallL) (s : State) : Res :=
  finish (runEach (.wsrSsbase w) (fun s k ops =>
    let v := (ops.getD 0 {}).val &&& baseMask
    let sp := s.spaceOf k
    let base := baseAddr v
    if v.getLsbD 0 && !s.granted (sp / 16384) base areaBytes then
      (s, .trap (mkCause 5 base (base / 2 ^ 32) 5))
    else (s.modCtx sp (fun c => { c with ssbase := v }), .go [])) s)

/-- A new root acts as `tlbinv.space` before the next instruction (R322). -/
def execWsrPtb (w : StallL) (s : State) : Res :=
  finish (runEach (.wsrPtb w) (fun s k ops =>
    let sp := s.spaceOf k
    (((s.modCtx sp (fun c => { c with root := (ops.getD 0 {}).val &&& rootMask })).release k .device).dropTlb
      (fun t => t.space == sp), .go [])) s)

def execWsrAsidx (w : StallL) (s : State) : Res :=
  finish (runEach (.wsrAsidx w) (fun s k ops =>
    (s.modCtx (s.spaceOf k) (fun c => { c with fmTrap := (ops.getD 0 {}).val.getLsbD 17 }), .go [])) s)

def execWsrCutdl (w : StallL) (s : State) : Res :=
  finish (runEach (.wsrCutdl w) (fun s k ops =>
    (s.modCtx (s.spaceOf k) (fun c => { c with cutdl := lo32 (ops.getD 0 {}).val }), .go [])) s)

end Sys2Proof.Machine
end

