-- ==== Sys2Proof/Machine/Control.lean ====
section
/-! DEFINITION. Branches, calls and meeting (R132 to R147); `exit`, `yield` and `prio` (R145, R176 to R178). -/

namespace Sys2Proof.Machine

/-- check of R137: an even target with bits 63:56 zero. -/
def badTarget (x : Word) : Bool := x.getLsbD 0 || 2 ^ 56 ≤ x.toNat
def targetCause (x : Word) : Cause := alignCause x.toNat 1

/-- The L.B target: P + 2 × off (R42). -/
def lbTarget (p : Word) (off : BitVec 18) : Word := p + (off.signExtend 64) <<< 1

/-- LINK_OVERFLOW (R139). -/
def linkCause (opcode n : Nat) : Cause := mkCause 2 (opcode * 256 + 5) n 0

/-- Run a control instruction that decides by the lane and its operands. -/
def runLane (i : Instr) (f : Lane → List Word → LOut) (s : State) : State :=
  runEach i (fun s k ops =>
    match s.lane k with
    | none => (s, .left)
    | some l => (s, f l (ops.map (·.val)))) s

def jumpTo (x : Word) : LOut := if badTarget x then .trap (targetCause x) else .jump x []

def execBr (w : StallL) (off : BitVec 18) (s : State) : Res :=
  finish (runLane (.br w off) (fun l _ => jumpTo (lbTarget l.pc off)) s)

/-- All 64 bits of the condition are tested; the target is checked whether the branch is taken or not (R137). -/
def condJump (onZero : Bool) (off : BitVec 18) (l : Lane) (o : List Word) : LOut :=
  let x := lbTarget l.pc off
  if badTarget x then .trap (targetCause x)
  else if (op0 o == 0) == onZero then .jump x [] else .go []
def execBrz (w : StallL) (off : BitVec 18) (s : State) : Res := finish (runLane (.brz w off) (condJump true off) s)
def execBrnz (w : StallL) (off : BitVec 18) (s : State) : Res :=
  finish (runLane (.brnz w off) (condJump false off) s)
def execBrx (w : StallS) (s : State) : Res := finish (runLane (.brx w) (fun _ o => jumpTo (op0 o)) s)

/-- Push a return address and go (R137). -/
def callTo (opcode len : Nat) (x : Word) (s : State) (k : Nat) (l : Lane) : State × LOut :=
  if badTarget x then (s, .trap (targetCause x))
  else if 16 ≤ l.cur.links.length then (s, .trap (linkCause opcode l.cur.links.length))
  else
    (s.modLane k (fun l => l.setCur { l.cur with links := (l.pc + BitVec.ofNat 64 len) :: l.cur.links }),
      .jump x [])

def execCall (w : StallL) (off : BitVec 18) (s : State) : Res :=
  finish (runEach (.call w off) (fun s k _ =>
    match s.lane k with
    | none => (s, .left)
    | some l => callTo 0x03 4 (lbTarget l.pc off) s k l) s)
def execCallx (w : StallS) (s : State) : Res :=
  finish (runEach (.callx w) (fun s k ops =>
    match s.lane k with
    | none => (s, .left)
    | some l => callTo 0x52 2 (ops.getD 0 {}).val s k l) s)
def execRet (w : StallS) (s : State) : Res :=
  finish (runEach (.ret w) (fun s k _ =>
    match s.lane k with
    | none => (s, .left)
    | some l =>
      match l.cur.links with
      | [] => (s, .trap (linkCause 0x4F 0))
      | a :: r => (s.modLane k (fun l => l.setCur { l.cur with links := r }), .jump a [])) s)

/-- Membership of a meet group (R140, R141). -/
def Lane.memberOf (l : Lane) (m : Mode) (g : Nat) : Bool :=
  ((l.chain m).group == some g && !(l.chain m).rel) || (l.chain m).outer.any (fun e => e.group == some g && !e.rel)
/-- The member has arrived at the meeting address of its innermost group. -/
def Lane.arrivedAt (l : Lane) (m : Mode) (g : Nat) : Bool :=
  l.ts.mode == m && l.wait == .none && (l.chain m).group == some g && l.pc == (l.chain m).mpc

/-- A thread is held while its group waits for a member (R141). When every member is held or gone the group is
released (R142). -/
def State.held (s : State) (k : Nat) (l : Lane) : Bool :=
  match l.cur.group with
  | none => false
  | some g =>
    !l.cur.rel && l.arrivedAt l.ts.mode g &&
      (s.waveLanes (waveOf k)).any (fun p => p.2.memberOf l.ts.mode g && !p.2.arrivedAt l.ts.mode g)

def Lane.groupsIn (l : Lane) (m : Mode) : List Nat :=
  (if (l.chain m).rel then [] else (l.chain m).group.toList) ++
    ((l.chain m).outer.filter (fun e => !e.rel)).filterMap (·.group)

/-- The open groups of a wave in a mode (R140). DEDUCED: log entry 12. -/
def State.openGroups (s : State) (w : Nat) (m : Mode) : List Nat :=
  let ls := s.waveLanes w
  (((ls.flatMap (fun p => p.2.groupsIn m)).dedup).filter (fun g =>
    ls.any (fun p => p.2.memberOf m g && !p.2.arrivedAt m g)))

/-- CHAIN_OVERFLOW (R140). -/
def chainCause (which entries groups : Nat) : Cause := mkCause 3 (which * 256 + 2) entries groups

/-- The new group's tag is a fresh number; its members are the lanes that do not trap. The open groups are counted once, before
the new one opens. -/
def execMeet (w : StallL) (off : BitVec 18) (s : State) : Res :=
  let tag := s.nextId
  finish (runEach (.meet w off) (fun st k _ =>
    match st.lane k with
    | none => (st, .left)
    | some l =>
      let x := lbTarget l.pc off
      let c := l.cur
      let n := (s.openGroups (waveOf k) l.ts.mode).length
      if badTarget x then (st, .trap (targetCause x))
      else if 16 ≤ n then (st, .trap (chainCause 1 c.outer.length n))
      else if 16 ≤ c.outer.length then (st, .trap (chainCause 0 c.outer.length n))
      else
        (st.modLane k (fun l => l.setCur { l.cur with
          outer := { mpc := c.mpc, d0 := c.d0, group := c.group, rel := c.rel } :: c.outer
          mpc := x, d0 := l.depth, group := some tag, rel := false }), .go [])) s)

/-- UNEQUAL_DEPTH (R143). -/
def unequalCause (l : Lane) (d : BitVec 6) : Cause :=
  mkCause 2 ((d.signExtend 8).toNat * 256 + 3) l.depth
    (((l.cur.d0 : Int) + d.toInt).emod 65536).toNat

/-- `join` (R142): the lane's own checks, then its chain is popped. A lane that fails the depth check is gone from
its group and keeps its chain. -/
def execJoin (w : StallS) (d : BitVec 6) (s : State) : Res :=
  finish (runEach (.join w d) (fun s k _ =>
    match s.lane k with
    | none => (s, .left)
    | some l =>
      let gone := s.modLane k (fun l => l.setCur { l.cur with group := none, rel := false })
      if l.cur.mpc ≠ l.pc then (s, .trap (joinCause l 0))
      else if (l.depth : Int) ≠ l.cur.d0 + d.toInt then (gone, .trap (unequalCause l d))
      else
        match l.cur.outer with
        | [] => (s.modLane k (fun l => l.setCur { links := l.cur.links }), .go [])
        | e :: r =>
          (s.modLane k (fun l => l.setCur
            { l.cur with mpc := e.mpc, d0 := e.d0, group := e.group, rel := e.rel, outer := r }), .go [])) s)

/-- The thread ends: a quiescent point and a release at device scope (R145, R286, R300). -/
def execExit (w : StallS) (s : State) : Res :=
  finish (runEach (.exit w) (fun s k _ => ((s.release k .device).leave k, .left)) s)

/-- A cut has reached this slice (R180). -/
def State.cutHere (s : State) (k : Nat) : Bool := ((mget (s.ctx (s.spaceOf k)).arrived) (sliceOf k)).isSome

/-- A quiescent point; with a cut pending at the slice the lane stops after the `yield` (R178). -/
def execYield (w : StallS) (s : State) : Res :=
  finish (runEach (.yield w) (fun s k _ =>
    let s1 := s.quiesce k
    if s.cutHere k then
      ((s1.retire k (.yield w) s.issueCycle [] none).modLane k (fun l => { l with wait := .stopped }), .left)
    else (s1, .go [])) s)

/-- One execution by a strand makes one change; the slate's field is the ceiling in U mode (R177). -/
def execPrio (w : StallS) (n : BitVec 2) (s : State) : Res :=
  finish (runElected (.prio w n) (fun s _ e _ =>
    let cap := ((s.taskOf e).map (·.prio)).getD 0
    let user := ((s.lane e).map (fun l => l.ts.mode == .u)).getD true
    let c := if user && cap < n.toNat then cap else n.toNat
    (s.modWave (waveOf e) (fun v => { v with cls := c }), .all [])) s)

end Sys2Proof.Machine
end

