-- ==== Sys2Proof/Machine/Memory.lean ====
section
/-! DEFINITION. Loads, stores, phases, `icinv`, `pref` and `mwait` (R148 to R159, R166 to R168), the arrival of a
tracked result (R50), and unassigned encodings (R61, R62). -/

namespace Sys2Proof.Machine

/-- Effective address (R150). -/
def effAddr (a : Word) (off : BitVec 12) : Word := a + off.signExtend 64

def ldSize (wt : LdW) : Nat :=
  match wt with
  | .s8 | .n8 => 1
  | .s16 | .n16 | .h => 2
  | .s32 | .n32 => 4
  | .w64 => 8

/-- A number of n bits read as two's complement. -/
def sextNat (n x : Nat) : Word := if x.testBit (n - 1) then BitVec.ofInt 64 ((x : Int) - 2 ^ n) else BitVec.ofNat 64 x

/-- What a plain load pushes (R154). -/
def ldVal (l : Lane) (wt : LdW) (x : Nat) : Word :=
  match wt with
  | .s8 => sextNat 8 x
  | .s16 => sextNat 16 x
  | .s32 => sextNat 32 x
  | .n8 | .n16 | .n32 | .w64 => BitVec.ofNat 64 x
  | .h => BitVec.ofNat 64 (f32.out .rne (fzrs l) (f16.read (fzih l) x).exact)

/-- The watch names the line read, and the point at which the load was satisfied: writes with a lower number came before it
(R166, R167). -/
def State.watchFrom (s : State) (k key m : Nat) : State := s.modLane k (fun l => { l with watch := some (lineOf key, m) })
/-- The same, of a load that is satisfied now. -/
def State.setWatch (s : State) (k key : Nat) : State := s.watchFrom k key s.nextId

/-- A lane stops in its access: at an address that is misaligned or out of range it has made no request. -/
def stopAt (r : Reached) (o : LOut) : LOut ⊕ Reached :=
  match o with
  | .trap c => if c.group = 6 then .inl o else .inr { r with stop := some o }
  | _ => .inr { r with stop := some o }

/-- The checks of R152 on one lane's access. -/
def reachLane (kind : AccKind) (hostOk : Bool) (off : BitVec 12) (size : Nat) (s : State) (k : Nat) (ops : List Entry) :
    State × (LOut ⊕ Reached) :=
  match s.lane k with
  | none => (s, .inl .left)
  | some l =>
    let ea := effAddr (ops.getD 0 {}).val off
    let r : Reached := { lane := k, key := none, ea := ea, ops := ops }
    match s.access k l kind hostOk ea size with
    | (.trap c, s1) => (s1, stopAt r (.trap c))
    | (.park, s1) => (s1, stopAt r (.hold .parked))
    | (.noLink, s1) => (s1, .inr r)
    | (.ok key, s1) => (s1, .inr { r with key := some key })

/-- The point at which a strong load is satisfied (R156, R292, R294): now, or before some strong write to its bytes, or for
an acquire before some release, that came after the point `lo`. DEDUCED: log entry 18. -/
def State.moment (s : State) (k : Nat) (sc : Scope) (acq : Bool) (lo a n : Nat) : Nat × State :=
  let x := sliceOf k
  let ids := (s.log.filter (fun w => lo ≤ w.id && strongTo sc x w && !(w.shared a n).isEmpty)).map (·.id) ++
    (if acq then (s.rels.filter (fun r => lo ≤ r.id && scopeJoins sc x r.slice && scopeJoins r.scope r.slice x)).map (·.id)
     else [])
  let (i, s1) := choose s (ids.length + 1)
  (if i = 0 then s.nextId else ids.getD (i - 1) s.nextId, s1)

/-- Strong writes at a scope that a strong load satisfied at a point cannot miss. -/
def strongBefore (sc : Scope) (slice m : Nat) (w : WriteRec) : Bool := strongTo sc slice w && w.id < m

/-- The lanes that load the same bytes receive the same value (R155): it respects what each of them must respect. -/
def State.mateFloor (s : State) (all : List Reached) (k key : Nat) : Map Nat :=
  (all.filter (fun r => r.key == some key && r.lane != k)).foldl (fun m r =>
    match s.lane r.lane with
    | some l => viewJoin m (s.floorOf r.lane l (r.ops.getD 0 {}).deps)
    | none => m) []

/-- The last boundary of any of those lanes. -/
def State.mateOrd (s : State) (all : List Reached) (k key : Nat) : Nat :=
  (all.filter (fun r => r.key == some key && r.lane != k)).foldl (fun m r =>
    Nat.max m (((s.lane r.lane).map (·.ord)).getD 0)) (((s.lane k).map (·.ord)).getD 0)

/-- One read for a lane and those that load the same bytes: the value, and the point at which it was satisfied. An acquire
that reads a release comes after it (R287). -/
def State.loadOnce (s : State) (all : List Reached) (k : Nat) (deps : List Nat) (strong : Option Scope) (acq : Bool)
    (key size : Nat) : Seen × Nat × State :=
  let floor := s.mateFloor all k key
  let own (w : WriteRec) : Bool := w.who / 32 == s.who k / 32
  match strong with
  | none =>
    let (v, s1) := s.laneReadAt k deps floor own key size
    (v, s1.nextId, s1)
  | some sc =>
    let (m, s0) := s.moment k sc acq (s.mateOrd all k key) key size
    let (v, s1) := s0.laneReadAt k deps floor (fun w => own w || strongBefore sc (sliceOf k) m w) key size
    (v, (v.ids.map (· + 1)).foldl Nat.max m, s1)

/-- The loads of a strand: the reads, the watches, and the boundaries of an acquire. `strong` gives the scope of a strong
load. -/
def loadAll (size : Nat) (strong : Option Scope) (acq : Bool) (res : Lane → List Byte → List Word) (all : List Reached) :
    State → List (Nat × Seen × Nat) → List Reached → State × List (Nat × LOut)
  | s, _, [] => (s, [])
  | s, c, r :: rest =>
    match r.key, s.lane r.lane with
    | some key, some l =>
      let deps := (r.ops.getD 0 {}).deps
      let (v, m, s1) := match c.find? (fun x => x.1 == key) with
        | some (_, v, m) => (v, m, s.modLane r.lane (fun l => { l with seen := seenUpdate key v.ids l.seen }))
        | none => s.loadOnce all r.lane deps strong acq key size
      let s2 := s1.watchFrom r.lane key m
      let s3 := match strong, acq with
        | some sc, true => s2.boundaryAt r.lane sc m
        | _, _ => s2
      let (s4, os) := loadAll size strong acq res all s3 ((key, v, m) :: c) rest
      (s4, (r.lane, .go ((res l v.bytes).map (fun x => (x, (v.rels ++ deps).dedup)))) :: os)
    | _, _ =>
      let (s4, os) := loadAll size strong acq res all s c rest
      (s4, (r.lane, .go []) :: os)

/-- A load in each active lane. -/
def runLoad (i : Instr) (size : Nat) (off : BitVec 12) (strong : Option Scope) (acq : Bool)
    (res : Lane → List Byte → List Word) (s : State) : Res :=
  finish (runAccess i size (reachLane .read true off size) (fun s rs => loadAll size strong acq res rs s [] rs) s)

/-- One lane's store. `strong` gives a strong store's scope and whether it is a release. A store that no link can carry is
discarded (R385). -/
def storeLane (strong : Option (Scope × Bool)) (bytes : List Entry → List Byte) (s : State) (r : Reached) : State × LOut :=
  match r.key with
  | none => (s, .go [])
  | some key =>
    match strong with
    | none => (s.laneWrite r.lane key (bytes r.ops) none none 0, .go [])
    | some (sc, rel) => (s.strongWrite r.lane key (bytes r.ops) sc rel 0, .go [])

/-- A store in each active lane, in increasing lane order (R155). -/
def runStore (i : Instr) (size : Nat) (off : BitVec 12) (strong : Option (Scope × Bool)) (bytes : List Entry → List Byte)
    (s : State) : Res :=
  finish (runAccess i size (reachLane .write true off size) (eachLane (storeLane strong bytes)) s)

def execLd (w : StallL) (wt : LdW) (off : BitVec 12) (s : State) : Res :=
  runLoad (.ld w wt off) (ldSize wt) off none false (fun l b => [ldVal l wt (leNat b)]) s

def stSize (wt : StW) : Nat :=
  match wt with
  | .w8 => 1 | .w16 => 2 | .w32 => 4 | .w64 => 8
/-- The low bytes of the operand below the address. -/
def lowBytes (n : Nat) (ops : List Entry) : List Byte := leBytes n (ops.getD 1 {}).val.toNat
/-- ( v addr -- ) -/
def execSt (w : StallL) (wt : StW) (off : BitVec 12) (s : State) : Res :=
  runStore (.st w wt off) (stSize wt) off none (lowBytes (stSize wt)) s

/-- ( addr -- lo hi ) -/
def execLd2 (w : StallL) (off : BitVec 12) (s : State) : Res :=
  runLoad (.ld2 w off) 16 off none false (fun _ b =>
    [BitVec.ofNat 64 (leNat (b.take 8)), BitVec.ofNat 64 (leNat (b.drop 8))]) s
/-- ( lo hi addr -- ) -/
def execSt2 (w : StallL) (off : BitVec 12) (s : State) : Res :=
  runStore (.st2 w off) 16 off none
    (fun o => leBytes 8 (o.getD 2 {}).val.toNat ++ leBytes 8 (o.getD 1 {}).val.toNat) s

def ldsWt (wt : LdsW) : LdW :=
  match wt with
  | .s32 => .s32 | .n32 => .n32 | .w64 => .w64
def execLds (w : StallL) (sc : Scope) (wt : LdsW) (off : BitVec 12) (s : State) : Res :=
  runLoad (.lds w sc wt off) (ldSize (ldsWt wt)) off (some sc) false (fun l b => [ldVal l (ldsWt wt) (leNat b)]) s
def execLdsAcq (w : StallL) (sc : Scope) (wt : LdsW) (off : BitVec 12) (s : State) : Res :=
  runLoad (.ldsAcq w sc wt off) (ldSize (ldsWt wt)) off (some sc) true (fun l b => [ldVal l (ldsWt wt) (leNat b)]) s

def atSize (wt : AtW) : Nat :=
  match wt with
  | .w32 => 4
  | .w64 => 8
def execSts (w : StallL) (sc : Scope) (wt : AtW) (off : BitVec 12) (s : State) : Res :=
  runStore (.sts w sc wt off) (atSize wt) off (some (sc, false)) (lowBytes (atSize wt)) s
def execStsRel (w : StallL) (sc : Scope) (wt : AtW) (off : BitVec 12) (s : State) : Res :=
  runStore (.stsRel w sc wt off) (atSize wt) off (some (sc, true)) (lowBytes (atSize wt)) s

def wideScope (sc : Scope) : Bool := sc = .device || sc = .system

/-- Publishes, then opens a phase; at device and system scope a quiescent point (R157, R300). -/
def execPhase (w : StallL) (sc : Scope) (s : State) : Res :=
  finish (runEach (.phase w sc) (fun s k _ =>
    let s1 := (s.release k sc).boundary k sc
    (if wideScope sc then s1.quiesce k else s1, .go [])) s)
def execPhaseP (w : StallL) (sc : Scope) (s : State) : Res :=
  finish (runEach (.phaseP w sc) (fun s k _ => (s.release k sc, .go [])) s)
def execPhaseO (w : StallL) (sc : Scope) (s : State) : Res :=
  finish (runEach (.phaseO w sc) (fun s k _ => (s.boundary k sc, .go [])) s)

/-- Fetches by slices inside the scope return nothing older than what is published there (R158). -/
def execIcinv (w : StallL) (sc : Scope) (s : State) : Res :=
  finish (runEach (.icinv w sc) (fun s k _ =>
    ({ s with icinvs := { slice := sliceOf k, scope := sc, space := s.spaceOf k,
                          view := boundaryView s.rels (sliceOf k) sc [] } :: s.icinvs }, .go [])) s)

/-- `pref` pops its operand; no later access returns a different value because of it (R159). -/
def execPref (w : StallL) (lvl : PLvl) (off : BitVec 12) (s : State) : Res :=
  finish (runAccess (.pref w lvl off) 1
    (fun s k ops => (s, .inr { lane := k, key := none, ea := effAddr (ops.getD 0 {}).val off, ops := ops }))
    (eachLane (fun s _ => (s, .go []))) s)

/-- A write of another agent to the line, made since the thread's load, is visible at device scope (R167, R168): a strong
store or an atomic at that scope, a write that a release at device or system scope has published, or one that an engine has
made visible there. -/
def State.lineVisible (s : State) (k line since : Nat) : Bool :=
  let wide (sc : Scope) : Bool := sc == .device || sc == .system
  s.log.any (fun w => since ≤ w.id && w.who != s.who k && w.addr / 64 ≤ line && line * 64 < w.addr + w.new.length &&
    ((w.strong.map wide).getD false || (5000 ≤ w.point && w.point < 6000) ||
      s.rels.any (fun r => wide r.scope && (w.shared (64 * line) 64).any (fun b => w.id ≤ mgetD r.pub b 0))))

/-- A write to a line by an agent other than the thread, made since its load (R167). -/
def State.lineWritten (s : State) (k line since : Nat) : Bool :=
  s.log.any (fun w => since ≤ w.id && w.who != s.who k && w.addr / 64 ≤ line && line * 64 < w.addr + w.new.length)

/-- The checks of `mwait` on its address, which reads no data and meets no poison (R152). DEDUCED: log entry 23. -/
def reachMwait (s : State) (k : Nat) (ops : List Entry) : State × (LOut ⊕ Reached) :=
  match s.lane k with
  | none => (s, .inl .left)
  | some l =>
    let a := (ops.getD 0 {}).val
    let r : Reached := { lane := k, key := none, ea := a, ops := ops }
    match s.reach k l .read true a 1 with
    | (.trap c, s1) => (s1, stopAt r (.trap c))
    | (.park, s1) => (s1, stopAt r (.hold .parked))
    | (.noLink, s1) => (s1, .inr r)
    | (.ok key, s1) => (s1, .inr { r with key := some key })

/-- `mwait` (R167) in a lane: without a watch on the line, when the line was written meanwhile (R168), or with a cut pending at
the slice (R180), it continues at once. A waiting lane has popped its operand and stands after the instruction. -/
def mwaitLane (w : StallS) (s : State) (r : Reached) : State × LOut :=
  match r.key, (s.lane r.lane).bind (·.watch) with
  | some key, some (line, since) =>
    if line = lineOf key && !s.lineWritten r.lane line since && !s.cutHere r.lane then
      ((s.retire r.lane (.mwait w) s.issueCycle [] none).modLane r.lane (fun l => { l with wait := .mwait line since }),
        .left)
    else (s, .go [])
  | _, _ => (s, .go [])

def execMwait (w : StallS) (s : State) : Res :=
  finish (runAccess (.mwait w) 1 reachMwait (eachLane (mwaitLane w)) s)

/-- A parked `mwait` ends. -/
def State.wakeLane (s : State) (k : Nat) : State := s.modLane k (fun l => { l with wait := .none })

/-- One reason for which a parked `mwait` ends (R167). A wake that names the lane acts in `wake.thr` itself. -/
def execMwaitWake (l : LaneId) (why : WakeWhy) (s : State) : Res :=
  let k := laneIdKey l
  match s.lane k with
  | none => .next s
  | some x =>
    match x.wait with
    | .mwait line since =>
      let ok := match why with
        | .write => s.lineWritten k line since
        | .wake => false
        | .cut => s.cutHere k
        | .spurious => true
      if ok then .next (s.wakeLane k) else .next s
    | _ => .next s

/-- The presence bit of the entry with a bottom index is set (R50). -/
def execTrackedResultArrival (l : LaneId) (bix : Nat) (s : State) : Res :=
  let k := laneIdKey l
  .next (s.modLane k (fun x =>
    x.setStk (x.stk.zipIdx.map (fun p =>
      if p.2 + bix + 1 = x.depth && p.1.pend then { p.1 with pend := false, ready := s.cycle (sliceOf k) } else p.1))
      x.back))

/-- ILLEGAL (R61). -/
def illegalCause (e : Enc) : Cause :=
  mkCause 1 (Enc.nat e) (e.len * 65536 + (if e.len = 3 then Enc.nat e / 2 ^ 32 else 0)) 0

/-- An unassigned encoding traps, or runs as the probe no-operation and sets PRB (R61, R62). -/
def execUnassignedEncoding (e : Enc) (s : State) : Res :=
  finish (runEach (.unassignedEncoding e) (fun s k _ =>
    match s.lane k with
    | none => (s, .left)
    | some l =>
      if l.ts.prbm then (s.modLane k (fun l => { l with ts := { l.ts with prb := true } }), .go [])
      else (s, .trap (illegalCause e))) s)

end Sys2Proof.Machine
end

