-- ==== Sys2Proof/Machine/Atomics.lean ====
section
/-! DEFINITION. Atomics (R160 to R165): each executes at one point chosen by its scope. -/

namespace Sys2Proof.Machine

def atBits (wt : AtW) : Nat := 8 * atSize wt

/-- A w-bit number read as two's complement. -/
def sgn (w x : Nat) : Int := if x.testBit (w - 1) then (x : Int) - 2 ^ w else x

/-- A float operation of R161: no flush, no flags, nearest even. -/
def floatOp (f : Ex → Ex → Ex) (old v : Nat) : Nat := f32.out .rne false (f (f32.dec old).exact (f32.dec v).exact)

/-- The functions f of R161 on w-bit numbers. `cas` chooses its new value itself. -/
def aopVal (op : AOp) (w old v : Nat) : Nat :=
  match op with
  | .add => (old + v) % 2 ^ w
  | .and => old &&& v
  | .or => old ||| v
  | .xor => old ^^^ v
  | .minS => if sgn w v < sgn w old then v else old
  | .maxS => if sgn w old < sgn w v then v else old
  | .minN => Nat.min old v
  | .maxN => Nat.max old v
  | .xchg => v
  | .fadd => floatOp (addEx .rne) old v
  | .fmin => floatOp (minMax false false) old v
  | .fmax => floatOp (minMax true false) old v
  | .cas => v

def aopFloat (op : AOp) : Bool := op = .fadd || op = .fmin || op = .fmax
/-- Host memory performs FetchAdd, Swap and CAS (R165). -/
def aopHost (op : AOp) : Bool := op = .add || op = .xchg || op = .cas

def acqOf (o : AOrd) : Bool := o = .acq || o = .ar
def relOf (o : AOrd) : Bool := o = .rel || o = .ar

/-- The home pillar of an address of HBM (R11): the 8 KiB units go round the 8 pillars. -/
def homePillar (key : Nat) : Nat := key / 8192 % 8

/-- The point at which an atomic executes (R160, R165), as a number: a slice's L1, a sector's L2, the home pillar, the host,
or the device at which the address is homed. -/
def pointOf (sc : Scope) (slice key : Nat) : Nat :=
  if isHost key then 5100
  else if isRemote key then 5200 + (key - 2 ^ 60) / 2 ^ 52
  else
    match sc with
    | .slice => 1 + slice
    | .cluster | .sector => 1000 + slice / 18
    | .pillar | .device | .system => 5000 + homePillar key

/-- The read, the write and the ordering of one atomic at a key: `new` gives the value to store, or none. A plain
release is left to a `cas` that fails. It cannot miss what was written at its own point, nor what `own` names; of a store or an atomic at another point that
is not ordered before it, it acts on the value before or after (R164). The answer is the old value and what it depends on.
DEDUCED: log entry 18. -/
def State.atomicAt (s : State) (k key size point : Nat) (own : WriteRec → Bool) (sc : Scope) (o : AOrd) (deps : List Nat)
    (new : Nat → Option Nat) : (Nat × List Nat) × State :=
  let (v, s1) := s.laneReadAt k deps [] (fun w => w.point == point || own w) key size
  let old := leNat v.bytes
  let s2 := match new old with
    | some x => s1.strongWrite k key (leBytes size x) sc (relOf o) point
    | none => if (relOf o) then s1.release k sc else s1
  ((old, (v.rels ++ deps).dedup), if (acqOf o) then s2.boundary k sc else s2)

/-- What an atomic stores, from its operands below the address (R161). -/
def atomNew (op : AOp) (size : Nat) (vals : List Entry) (old : Nat) : Option Nat :=
  let w := 8 * size
  let v := (vals.getD 0 {}).val.toNat % 2 ^ w
  if op = .cas then (if (vals.getD 1 {}).val.toNat % 2 ^ w = old then some v else none)
  else some (aopVal op w old v)

/-- One lane of `atom`, `cas` (which arm the watch and push the old value) or `red`. -/
def atomLane (op : AOp) (o : AOrd) (sc : Scope) (size : Nat) (red : Bool) (s : State) (r : Reached) : State × LOut :=
  match r.key with
  | none => (s, .go [])
  | some key =>
    let sc' := if isHost key then .system else sc
    let (v, s1) := s.atomicAt r.lane key size (pointOf sc (sliceOf r.lane) key) (fun _ => false) sc' o (r.ops.getD 0 {}).deps
      (atomNew op size r.ops.tail)
    if red then (s1, .go []) else (s1.setWatch r.lane key, .go [(BitVec.ofNat 64 v.1, v.2)])

/-- An atomic in each active lane, in increasing lane order (R162). -/
def runAtomic (i : Instr) (op : AOp) (o : AOrd) (sc : Scope) (size : Nat) (off : BitVec 12) (red : Bool)
    (s : State) : Res :=
  finish (runAccess i size (reachLane .atomic (aopHost op) off size) (eachLane (atomLane op o sc size red)) s)

def execAtomAdd (w : StallL) (o : AOrd) (sc : Scope) (wt : AtW) (off : BitVec 12) (s : State) : Res :=
  runAtomic (.atomAdd w o sc wt off) .add o sc (atSize wt) off false s
def execAtomAnd (w : StallL) (o : AOrd) (sc : Scope) (wt : AtW) (off : BitVec 12) (s : State) : Res :=
  runAtomic (.atomAnd w o sc wt off) .and o sc (atSize wt) off false s
def execAtomOr (w : StallL) (o : AOrd) (sc : Scope) (wt : AtW) (off : BitVec 12) (s : State) : Res :=
  runAtomic (.atomOr w o sc wt off) .or o sc (atSize wt) off false s
def execAtomXor (w : StallL) (o : AOrd) (sc : Scope) (wt : AtW) (off : BitVec 12) (s : State) : Res :=
  runAtomic (.atomXor w o sc wt off) .xor o sc (atSize wt) off false s
def execAtomMinS (w : StallL) (o : AOrd) (sc : Scope) (wt : AtW) (off : BitVec 12) (s : State) : Res :=
  runAtomic (.atomMinS w o sc wt off) .minS o sc (atSize wt) off false s
def execAtomMinN (w : StallL) (o : AOrd) (sc : Scope) (wt : AtW) (off : BitVec 12) (s : State) : Res :=
  runAtomic (.atomMinN w o sc wt off) .minN o sc (atSize wt) off false s
def execAtomMaxS (w : StallL) (o : AOrd) (sc : Scope) (wt : AtW) (off : BitVec 12) (s : State) : Res :=
  runAtomic (.atomMaxS w o sc wt off) .maxS o sc (atSize wt) off false s
def execAtomMaxN (w : StallL) (o : AOrd) (sc : Scope) (wt : AtW) (off : BitVec 12) (s : State) : Res :=
  runAtomic (.atomMaxN w o sc wt off) .maxN o sc (atSize wt) off false s
def execAtomXchg (w : StallL) (o : AOrd) (sc : Scope) (wt : AtW) (off : BitVec 12) (s : State) : Res :=
  runAtomic (.atomXchg w o sc wt off) .xchg o sc (atSize wt) off false s
def execAtomFadd (w : StallL) (o : AOrd) (sc : Scope) (off : BitVec 12) (s : State) : Res :=
  runAtomic (.atomFadd w o sc off) .fadd o sc 4 off false s
def execAtomFmin (w : StallL) (o : AOrd) (sc : Scope) (off : BitVec 12) (s : State) : Res :=
  runAtomic (.atomFmin w o sc off) .fmin o sc 4 off false s
def execAtomFmax (w : StallL) (o : AOrd) (sc : Scope) (off : BitVec 12) (s : State) : Res :=
  runAtomic (.atomFmax w o sc off) .fmax o sc 4 off false s
/-- ( e n addr -- old ) -/
def execCas (w : StallL) (o : AOrd) (sc : Scope) (wt : AtW) (off : BitVec 12) (s : State) : Res :=
  runAtomic (.cas w o sc wt off) .cas o sc (atSize wt) off false s
def execRedAdd (w : StallL) (o : AOrd) (sc : Scope) (wt : AtW) (off : BitVec 12) (s : State) : Res :=
  runAtomic (.redAdd w o sc wt off) .add o sc (atSize wt) off true s
def execRedAnd (w : StallL) (o : AOrd) (sc : Scope) (wt : AtW) (off : BitVec 12) (s : State) : Res :=
  runAtomic (.redAnd w o sc wt off) .and o sc (atSize wt) off true s
def execRedOr (w : StallL) (o : AOrd) (sc : Scope) (wt : AtW) (off : BitVec 12) (s : State) : Res :=
  runAtomic (.redOr w o sc wt off) .or o sc (atSize wt) off true s
def execRedXor (w : StallL) (o : AOrd) (sc : Scope) (wt : AtW) (off : BitVec 12) (s : State) : Res :=
  runAtomic (.redXor w o sc wt off) .xor o sc (atSize wt) off true s
def execRedMinS (w : StallL) (o : AOrd) (sc : Scope) (wt : AtW) (off : BitVec 12) (s : State) : Res :=
  runAtomic (.redMinS w o sc wt off) .minS o sc (atSize wt) off true s
def execRedMinN (w : StallL) (o : AOrd) (sc : Scope) (wt : AtW) (off : BitVec 12) (s : State) : Res :=
  runAtomic (.redMinN w o sc wt off) .minN o sc (atSize wt) off true s
def execRedMaxS (w : StallL) (o : AOrd) (sc : Scope) (wt : AtW) (off : BitVec 12) (s : State) : Res :=
  runAtomic (.redMaxS w o sc wt off) .maxS o sc (atSize wt) off true s
def execRedMaxN (w : StallL) (o : AOrd) (sc : Scope) (wt : AtW) (off : BitVec 12) (s : State) : Res :=
  runAtomic (.redMaxN w o sc wt off) .maxN o sc (atSize wt) off true s
def execRedFadd (w : StallL) (o : AOrd) (sc : Scope) (off : BitVec 12) (s : State) : Res :=
  runAtomic (.redFadd w o sc off) .fadd o sc 4 off true s
def execRedFmin (w : StallL) (o : AOrd) (sc : Scope) (off : BitVec 12) (s : State) : Res :=
  runAtomic (.redFmin w o sc off) .fmin o sc 4 off true s
def execRedFmax (w : StallL) (o : AOrd) (sc : Scope) (off : BitVec 12) (s : State) : Res :=
  runAtomic (.redFmax w o sc off) .fmax o sc 4 off true s

end Sys2Proof.Machine
end

