-- ==== Sys2Proof/Machine/Crypto.lean ====
section
/-! DEFINITION. The functions that the specification names by their standards (R374, R387): SHAKE256 and KMAC256 (FIPS 202,
SP 800-185) and Ed448 with an empty context (RFC 8032). PRESUMED: log entry 16. -/

namespace Sys2Proof.Machine.Crypto

def bytesLe : Nat → Nat → List Byte
  | 0, _ => []
  | n + 1, x => BitVec.ofNat 8 x :: bytesLe n (x / 256)
def natLe : List Byte → Nat
  | [] => 0
  | b :: r => b.toNat + 256 * natLe r

-- Keccak-f[1600] on 25 lanes; lane x, y stands at 5 × y + x.
abbrev Lanes := List (BitVec 64)
def lane (a : Lanes) (x y : Nat) : BitVec 64 := a.getD (5 * (y % 5) + x % 5) 0
def lanes (f : Nat → Nat → BitVec 64) : Lanes := (List.range 25).map (fun i => f (i % 5) (i / 5))

def theta (a : Lanes) : Lanes :=
  let c := (List.range 5).map (fun x => (List.range 5).foldl (fun v y => v ^^^ lane a x y) 0)
  let d := (List.range 5).map (fun x => c.getD ((x + 4) % 5) 0 ^^^ (c.getD ((x + 1) % 5) 0).rotateLeft 1)
  lanes (fun x y => lane a x y ^^^ d.getD x 0)
/-- The rotation counts of rho, lane by lane. -/
def rotations : List Nat :=
  [0, 1, 62, 28, 27, 36, 44, 6, 55, 20, 3, 10, 43, 25, 39, 41, 45, 15, 21, 8, 18, 2, 61, 56, 14]
def rhoPi (a : Lanes) : Lanes :=
  lanes (fun x y => (lane a (x + 3 * y) x).rotateLeft (rotations.getD (5 * x + (x + 3 * y) % 5) 0))
def chi (a : Lanes) : Lanes := lanes (fun x y => lane a x y ^^^ (~~~lane a (x + 1) y &&& lane a (x + 2) y))
def roundConstants : Lanes :=
  [0x0000000000000001#64, 0x0000000000008082#64, 0x800000000000808A#64, 0x8000000080008000#64, 0x000000000000808B#64,
   0x0000000080000001#64, 0x8000000080008081#64, 0x8000000000008009#64, 0x000000000000008A#64, 0x0000000000000088#64,
   0x0000000080008009#64, 0x000000008000000A#64, 0x000000008000808B#64, 0x800000000000008B#64, 0x8000000000008089#64,
   0x8000000000008003#64, 0x8000000000008002#64, 0x8000000000000080#64, 0x000000000000800A#64, 0x800000008000000A#64,
   0x8000000080008081#64, 0x8000000000008080#64, 0x0000000080000001#64, 0x8000000080008008#64]
def iota (a : Lanes) (rc : BitVec 64) : Lanes := a.set 0 (a.getD 0 0 ^^^ rc)
def keccakF (a : Lanes) : Lanes := roundConstants.foldl (fun a rc => iota (chi (rhoPi (theta a))) rc) a

/-- Bytes per block of the 256-bit functions. -/
def rate : Nat := 136
def absorb (a : Lanes) (block : List Byte) : Lanes :=
  keccakF (a.zipIdx.map (fun v => v.1 ^^^ BitVec.ofNat 64 (natLe ((block.drop (8 * v.2)).take 8))))
/-- The message with its domain byte and the last bit of the padding. -/
def padTo (dom : Byte) (m : List Byte) : List Byte :=
  let z := rate - 1 - m.length % rate
  if z = 0 then m ++ [dom ||| 0x80] else m ++ dom :: List.replicate (z - 1) 0 ++ [0x80]
def absorbAll (a : Lanes) (m : List Byte) : Nat → Lanes
  | 0 => a
  | n + 1 => absorbAll (absorb a (m.take rate)) (m.drop rate) n
def squeeze (a : Lanes) : Nat → List Byte
  | 0 => []
  | n + 1 => (a.flatMap (fun v => bytesLe 8 v.toNat)).take rate ++ squeeze (keccakF a) n
def sponge (dom : Byte) (n : Nat) (m : List Byte) : List Byte :=
  let p := padTo dom m
  (squeeze (absorbAll (List.replicate 25 0) p (p.length / rate)) ((n + rate - 1) / rate)).take n

/-- SHAKE256: output length in bytes, message. -/
def shake256 (n : Nat) (m : List Byte) : List Byte := sponge 0x1F n m

/-- A number in as few bytes as hold it, most significant first. -/
def bytesBe (x : Nat) : List Byte :=
  ((bytesLe 16 x).reverse.dropWhile (· == 0)) ++ (if x = 0 then [0] else [])
def leftEncode (x : Nat) : List Byte := BitVec.ofNat 8 (bytesBe x).length :: bytesBe x
def rightEncode (x : Nat) : List Byte := bytesBe x ++ [BitVec.ofNat 8 (bytesBe x).length]
def encodeString (s : List Byte) : List Byte := leftEncode (8 * s.length) ++ s
def bytepad (m : List Byte) : List Byte :=
  let p := leftEncode rate ++ m
  p ++ List.replicate ((rate - p.length % rate) % rate) 0
/-- KMAC256: key, customization string, output length in bytes, message. -/
def kmac256 (key custom : List Byte) (n : Nat) (m : List Byte) : List Byte :=
  sponge 0x04 n (bytepad (encodeString [0x4B, 0x4D, 0x41, 0x43] ++ encodeString custom) ++
    bytepad (encodeString key) ++ m ++ rightEncode (8 * n))

-- Ed448: arithmetic modulo p, on points (x, y, z) of the curve x² + y² = 1 + d x² y².
def p : Nat := 2 ^ 448 - 2 ^ 224 - 1
/-- The order of the base point. -/
def order : Nat := 2 ^ 446 - 13818066809895115352007386748515426880336692474882178609894547503885
def d : Nat := p - 39081
def sub (a b : Nat) : Nat := (a + (p - b % p)) % p
/-- b to the power whose n low bits are those of e. -/
def power (b e : Nat) : Nat → Nat
  | 0 => 1
  | n + 1 =>
    let h := power (b * b % p) (e / 2) n
    if e % 2 = 1 then b * h % p else h
def inverse (a : Nat) : Nat := power (a % p) (p - 2) 448

abbrev Point := Nat × Nat × Nat
def zero : Point := (0, 1, 1)
def add (u v : Point) : Point :=
  let a := u.2.2 * v.2.2 % p
  let b := a * a % p
  let c := u.1 * v.1 % p
  let dd := u.2.1 * v.2.1 % p
  let e := d * (c * dd % p) % p
  let f := sub b e
  let g := (b + e) % p
  let h := (u.1 + u.2.1) * (v.1 + v.2.1) % p
  (a * f % p * sub h (c + dd) % p, a * g % p * sub dd c % p, f * g % p)
/-- k times a point, by the n low bits of k. -/
def mul (u : Point) (k : Nat) : Nat → Point
  | 0 => zero
  | n + 1 =>
    let h := mul (add u u) (k / 2) n
    if k % 2 = 1 then add u h else h
def same (u v : Point) : Bool := u.1 * v.2.2 % p == v.1 * u.2.2 % p && u.2.1 * v.2.2 % p == v.2.1 * u.2.2 % p
def base : Point :=
  (224580040295924300187604334099896036246789641632564134246125461686950415467406032909029192869357953282578032075146446173674602635247710,
   298819210078481492676017930443930673437544040154080242095928241372331506189835876003536878655418784733982303233503462500531545062832660, 1)

/-- A point in 57 bytes: y, and the low bit of x in the top bit. -/
def encodePoint (u : Point) : List Byte :=
  let i := inverse u.2.2
  bytesLe 57 (u.2.1 * i % p + u.1 * i % p % 2 * 2 ^ 455)
def decodePoint (b : List Byte) : Option Point :=
  let v := natLe b
  let y := v % 2 ^ 455
  let s := v / 2 ^ 455 % 2
  if b.length ≠ 57 ∨ p ≤ y then none
  else
    let u := sub (y * y % p) 1
    let w := sub (d * (y * y % p) % p) 1
    let x := u * u % p * u % p * w % p * power (u * u % p * u % p * (u * u % p) % p * (w * w % p * w % p) % p) ((p - 3) / 4) 448 % p
    if w * (x * x % p) % p != u then none
    else if x = 0 ∧ s = 1 then none
    else some (if x % 2 = s then x else p - x, y, 1)

/-- The hash of Ed448 with an empty context. -/
def hash448 (m : List Byte) : Nat :=
  natLe (shake256 114 ([0x53, 0x69, 0x67, 0x45, 0x64, 0x34, 0x34, 0x38, 0, 0] ++ m))
/-- Verification of a signature by a public key of 57 bytes. -/
def ed448Verify (key msg sig : List Byte) : Bool :=
  match decodePoint key, decodePoint (sig.take 57) with
  | some a, some r =>
    let s := natLe (sig.drop 57)
    let k := hash448 (sig.take 57 ++ key ++ msg) % order
    sig.length == 114 && s < order &&
      same (mul (mul base s 448) 4 3) (mul (add r (mul a k 448)) 4 3)
  | _, _ => false
/-- The secret scalar and the prefix of a secret key of 57 bytes. -/
def secretOf (key : List Byte) : Nat × List Byte :=
  let h := shake256 114 key
  let a := natLe (h.take 57)
  (a % 2 ^ 447 / 4 * 4 + 2 ^ 447, h.drop 57)
def publicOf (key : List Byte) : List Byte := encodePoint (mul base (secretOf key).1 448)
/-- The signature of a message. -/
def ed448Sign (key msg : List Byte) : List Byte :=
  let (a, pre) := secretOf key
  let pub := publicOf key
  let r := hash448 (pre ++ msg) % order
  let rp := encodePoint (mul base r 448)
  let k := hash448 (rp ++ pub ++ msg) % order
  rp ++ bytesLe 57 ((r + k * a) % order)

end Sys2Proof.Machine.Crypto
end

