-- ==== Sys2Proof/Machine/Tensors.lean ====
section
/-! DEFINITION. The tensor instructions (R208 to R226). -/

namespace Sys2Proof.Machine

/-- Detail of a tensor fault (R212). -/
def tensCause (reason tid row col : Nat) : Cause :=
  mkCause 8 (256 + reason) (Nat.min col 0xFFFFFF * 256 + tid % 256) (sat32 row)

/-- INTEGRITY or HARDWARE on an on-chip element (R216, R351). The byte offset of an accumulator element counts over both buffers, of
which buffer 1 follows buffer 0. DESIGN CHOICE: log entry 56. -/
def chipCause (s : State) (kind key n off : Nat) : Option Cause :=
  let wh := (if kind = 2 then 4 else 1) * 256
  if s.isPoison key n then some (mkCause 14 (wh + (if s.isTag key n then 2 else 1)) off 0)
  else if s.isEcc key n then some (mkCause 15 (wh + 1) off 0)
  else none

/-- The eight words of a descriptor in memory (R218). -/
def toWords (bytes : List Byte) (n : Nat) : List Word :=
  (List.range n).map (fun i => BitVec.ofNat 64 (leNat ((bytes.drop (8 * i)).take 8)))

/-- Read n bytes for an engine command as a plain load of E (R150, R152). -/
def engineRead (s : State) (e : Nat) (addr : Word) (n : Nat) (deps : List Nat) : (EOut ⊕ List Byte) × State :=
  match s.lane e with
  | none => (.inl .done, s)
  | some l =>
    match s.access e l .read true addr n with
    | (.trap c, s1) => (.inl (.refuse c), s1)
    | (.park, s1) => (.inl (.hold .parked), s1)
    | (.noLink, s1) => (.inl .done, s1)
    | (.ok key, s1) =>
      let (v, s2) := s1.laneRead e deps key n
      (.inr v.bytes, s2)

def State.userMode (s : State) (k : Nat) : Bool := ((s.lane k).map (fun l => l.ts.mode == .u)).getD true
def State.modeOf (s : State) (k : Nat) : Mode := ((s.lane k).map (·.ts.mode)).getD .u
/-- PRIVILEGE TENSOR (R218, R219). -/
def flashCause (i : Instr) (m : Mode) : Cause := privCause i m 4 0

/-- The lowest tid that is not valid. -/
def freeTid (m : Map (List Word)) (lo : Nat) : Option Nat :=
  ((List.range 128).map (· + lo)).find? (fun t => (mget m t).isNone)

/-- Allocate: the tid, or −1 on a shortage (R218). -/
def State.alloc (s : State) (tn space : Nat) (d : List Word) : Word × State :=
  let kind := (geomOf d).kind
  if kind = 0 || kind = 4 then
    match freeTid (s.ctx space).tens 0 with
    | some t => (BitVec.ofNat 64 t, s.modCtx space (fun c =>
        { c with tens := mset c.tens t (setWord d 0 (setBit (wordOf d 0) 63)) }))
    | none => (BitVec.allOnes 64, s)
  else
    match (s.task tn).bind (fun t => freeTid t.tens 128) with
    | some t =>
      match s.allocAt tn t d with
      | some s1 => (BitVec.ofNat 64 t, s1)
      | none => (BitVec.allOnes 64, s)
    | none => (BitVec.allOnes 64, s)

def execTalloc (w : StallL) (s : State) : Res :=
  finish (runElected (.talloc w) (fun s _ e ops =>
    let a := ops.getD 0 {}
    match engineRead s e a.val 64 a.deps with
    | (.inl o, s1) => (s1, o)
    | (.inr b, s1) =>
      let d := toWords b 8
      match badWord d with
      | some n => (s1, .refuse (tensCause 2 0 n 0))
      | none =>
        if (geomOf d).kind = 4 && s.userMode e then (s1, .refuse (flashCause (.talloc w) .u))
        else
          let (t, s2) := s1.alloc (s.taskNo e) (s.spaceOf e) d
          (s2, .all [(t, [])])) s)

/-- A reservation in a freed tile is dropped (R252). -/
def Lane.dropTile (l : Lane) (tid : Nat) : Lane :=
  match l.resv with
  | some (t, _) => if t = tid then { l with resv := none } else l
  | none => l

def Saved.dropTile (v : Saved) (tn tid : Nat) : Saved :=
  if v.wave.task = tn then { v with lanes := v.lanes.map (fun p => (p.1, p.2.dropTile tid)) } else v

/-- A task-level tile is freed: reservations of its rows are dropped wherever their threads are. -/
def State.dropTile (s : State) (tn space tid : Nat) : State :=
  let f (x : SpawnLane) : SpawnLane := { x with lane := x.lane.dropTile tid }
  let s1 := s.modTask tn (fun t => { t with spawned := t.spawned.map f, woken := t.woken.map f })
  let s2 := s1.modCtx space (fun c => { c with saved := c.saved.map (fun v => v.dropTile tn tid) })
  { s2 with lanes := s2.lanes.map (fun p => if s.taskNo p.1 = tn then (p.1, p.2.dropTile tid) else p) }

def State.freeTensor (s : State) (tn space tid : Nat) : State :=
  if tid < 128 then s.modCtx space (fun c => { c with tens := mdel c.tens tid })
  else (s.modTask tn (fun t => { t with tens := mdel t.tens tid, due := mdel t.due tid })).dropTile tn space tid

def execTfree (w : StallL) (s : State) : Res :=
  finish (runElected (.tfree w) (fun s _ e ops =>
    let tid := (ops.getD 0 {}).val.toNat
    let tn := s.taskNo e
    match s.entryOf tn tid with
    | none => (s, .refuse (tensCause 1 tid 0 0))
    | some en =>
      let fr := (geomOf en).kind = 3
      if fr && !((s.task tn).map (fun t => (dueRows t tid s.now).isEmpty)).getD true then (s, .hold (.tensor tid))
      else if fr && frOcc en != 0 then (s, .refuse (tensCause 7 tid 0 0))
      else if s.engineNames tn tid then (s, .hold (.tensor tid))
      else (s.freeTensor tn (s.spaceOf e) tid, .all [])) s)

/-- ( daddr tid -- ) -/
def execTdef (w : StallL) (s : State) : Res :=
  finish (runElected (.tdef w) (fun s _ e ops =>
    let a := ops.getD 1 {}
    let tid := (ops.getD 0 {}).val.toNat
    match engineRead s e a.val 64 a.deps with
    | (.inl o, s1) => (s1, o)
    | (.inr b, s1) =>
      let d := toWords b 8
      if 256 ≤ tid then (s1, .refuse (tensCause 1 tid 0 0))
      else
        match badWord d with
        | some n => (s1, .refuse (tensCause 2 tid n 0))
        | none =>
          let kind := (geomOf d).kind
          if 128 ≤ tid || (kind != 0 && kind != 4) then (s1, .refuse (tensCause 3 tid 0 0))
          else if kind = 4 && s.userMode e then (s1, .refuse (flashCause (.tdef w) .u))
          else if s.engineNames (s.taskNo e) tid then (s, .hold (.tensor tid))
          else (s1.modCtx (s.spaceOf e) (fun c =>
            { c with tens := mset c.tens tid (setWord d 0 (setBit (wordOf d 0) 63)) }), .all [])) s)

/-- The whole strand waits while a tensor that one of its lanes names is held (R134, R224). -/
def State.strandHolds (s : State) (at_ : Nat) (writes : Bool) : Option Nat :=
  s.active.findSome? (fun k =>
    match (s.lane k).bind (fun l => l.stk[at_]?) with
    | some e => if s.waveHolds (s.taskNo k) (waveOf k) e.val.toNat writes true then some e.val.toNat else none
    | none => none)

/-- All lanes of the strand wait. -/
def State.strandWaits (s : State) (i : Instr) (w : Wait) : State := (s.active.foldl (fun t k => t.holdLane k i w s.nextId) s).bump

/-- Run an instruction of each lane, or wait for the tensors it names. DEDUCED: log entry 43. -/
def runTensor (i : Instr) (writes : Bool) (body : State → Nat → List Entry → State × LOut) (s : State) : Res :=
  match s.strandHolds 0 writes with
  | some tid => .next (s.strandWaits i (.tensor tid))
  | none => finish (runEach i body s)

def execTget (w : StallL) (i : BitVec 3) (s : State) : Res :=
  runTensor (.tget w i) false (fun s k ops =>
    let tid := (ops.getD 0 {}).val.toNat
    match s.entryOf (s.taskNo k) tid with
    | none => (s, .trap (tensCause 1 tid 0 0))
    | some en => (s, .go [(en.getD i.toNat 0, [])])) s

/-- The words that `tset` may write (R219, R249). -/
def tsetAllows (en : List Word) (i : Nat) (v : Word) : Bool :=
  let kind := (geomOf en).kind
  if kind = 0 || kind = 4 then i != 0
  else if kind = 3 then
    i == 3 || i == 6 || (i == 2 && (v.toNat % 4096 == frSite en || (frHeld en == 0 && frOcc en == 0)))
  else false

/-- The check of an entry with a new word i (R210, R219, R249). `talloc` has filled in the bases of an on-chip tensor, and a
frame header has rules of its own. -/
def tsetBad (en : List Word) (i : Nat) (v : Word) : Option Nat :=
  let new := en.set i v
  let bad := badWord (setWord new 0 (clearBit (wordOf new 0) 63))
  let kind := (geomOf en).kind
  if kind = 3 then
    if i = 2 then (if frWord2 v.toNat then none else some 2)
    else if i = 3 then (if frWord3 v.toNat then none else some 3)
    else if i ≤ 1 then bad.filter (· ≤ 1) else none
  else if kind = 1 || kind = 2 then (if i ≤ 3 then bad.filter (· ≤ 3) else none)
  else bad

/-- An operation of the bin unit: those of one wave apply in its order of issue (R264). -/
def isBinOp : Instr → Bool
  | .wakeRow _ | .wakeSite _ _ | .flush _ _ => true
  | .tset _ i => i == 6
  | _ => false
/-- Another strand of the wave waits in such an operation that it issued earlier. -/
def State.binBusy (s : State) (ks : List Nat) : Bool :=
  match ks with
  | [] => false
  | k :: _ =>
    let mine := (s.lane k).bind (fun l => if l.wait = .none then none else some l.stamp)
    (s.waveLanes (waveOf k)).any (fun p => !ks.contains p.1 && p.2.wait != .none && !p.2.wait.apart && p.2.during.any isBinOp &&
      mine.all (fun n => p.2.stamp < n))

/-- A change of THR or AGE applies from the next cluster cycle: till then the two are as they were (R249). A row may reach a
longer age limit in its turn. -/
def Task.noteLimits (t : Task) (tid now : Nat) (en new : List Word) : Task :=
  { t with
    before := mset t.before tid (now, t.frLimits tid now en)
    rows := t.rows.map (fun r =>
      if r.1 / 64 = tid then (r.1, { r.2 with aged := r.2.aged && r.2.since + frAge new ≤ now }) else r) }

/-- Rows of a tile are made ready: what is visible at cluster scope by now, their load must see (R261). -/
def State.seeRows (s : State) (tn tid mask : Nat) : State :=
  s.modTask tn (fun t =>
    let v := boundaryView s.rels (t.members.headD 0) .cluster []
    { t with rows := t.rows.map (fun r =>
      if r.1 / 64 = tid && mask.testBit (r.1 % 64) then (r.1, { r.2 with floor := viewJoin v r.2.floor }) else r) })

/-- A header word of a frame tile is replaced. A `tset 6` is a release at cluster scope, and a wake of each row whose bit becomes
1; a row whose bit becomes 0 is covered by no flush any longer (R249, R257, R261). -/
def State.setHeader (s : State) (e tid i : Nat) (en new : List Word) : State :=
  let tn := s.taskNo e
  if i = 6 then
    ((s.release e .cluster).modTask tn (fun t => { t with
      tens := mset t.tens tid new, due := mset t.due tid (mgetD t.due tid 0 &&& frWake new) })).seeRows tn tid
      (frWake new &&& ((2 ^ 64 - 1) ^^^ frWake en))
  else s.modTask tn (fun t => { (if i = 2 then t.noteLimits tid s.now en new else t) with tens := mset t.tens tid new })

/-- ( v tid -- ) -/
def execTset (w : StallL) (i : BitVec 3) (s : State) : Res :=
  finish (runElected (.tset w i) (fun s ks e ops =>
    let tid := (ops.getD 0 {}).val.toNat
    let v := (ops.getD 1 {}).val
    let tn := s.taskNo e
    match s.entryOf tn tid with
    | none => (s, .refuse (tensCause 1 tid 0 0))
    | some en =>
      let kind := (geomOf en).kind
      let fr := kind = 3
      let nv := if fr && i.toNat = 6 then v &&& ((en.getD 4 0) ||| (en.getD 7 0)) else v
      let new := en.set i.toNat nv
      if kind = 4 && s.userMode e then (s, .refuse (flashCause (.tset w i) .u))
      else if s.engineNames tn tid then (s, .hold (.tensor tid))
      else
        match tsetBad en i.toNat v with
        | some n => (s, .refuse (tensCause 2 tid n 0))
        | none =>
          if !tsetAllows en i.toNat v then (s, .refuse (tensCause 3 tid 0 0))
          else if fr && i.toNat = 6 && s.binBusy ks then (s, .hold .bin)
          else if tid < 128 then (s.modCtx (s.spaceOf e) (fun c => { c with tens := mset c.tens tid new }), .all [])
          else (s.setHeader e tid i.toNat en new, .all [])) s)

/-- The lowest-numbered refusal of an element access (R212, R220). -/
def elemRefusal (en : Option (List Word)) (kindOk : Geom → Bool) (writes : Bool) (tid row col : Nat) :
    Cause ⊕ Geom :=
  match en with
  | none => .inl (tensCause 1 tid row col)
  | some e =>
    let g := geomOf e
    if !kindOk g then .inl (tensCause 3 tid row col)
    else if g.ext 0 ≤ col || g.rows ≤ row then .inl (tensCause 4 tid row col)
    else if writes && g.rdo then .inl (tensCause 5 tid row col)
    else if writes && g.sp then .inl (tensCause 6 tid row col)
    else .inr g

def onChip (g : Geom) : Bool := g.kind = 1 || g.kind = 2 || g.kind = 3

/-- What `ldt` pushes (R220). -/
def elemVal (fmt x : Nat) : Word :=
  if fmt = 0 then sextNat 8 x else if fmt = 1 then sextNat 4 x else if fmt = 7 then sextNat 32 x else BitVec.ofNat 64 x

/-- One read for all of a strand's lanes that read the same bytes (R155, R225): it respects what each of them must respect, and
what their wave has written. The lanes come with what their addresses depend on. -/
def State.readFor (s : State) (ls : List (Nat × List Nat)) (key n : Nat) : Seen × State :=
  let floor := ls.foldl (fun m p => ((s.lane p.1).map (fun l => viewJoin (s.floorOf p.1 l p.2) m)).getD m) []
  let (v, s1) := s.readVer floor (fun w => w.who / 32 == s.who (ls.headD (0, [])).1 / 32) key n
  (v, ls.foldl (fun s p => s.modLane p.1 (fun l => { l with seen := seenUpdate key v.ids l.seen })) s1)

/-- The reads of a strand, each made once: (lane, dependencies, key, length), and what was read, by key. -/
def State.readsFor (s : State) (rs : List (Nat × List Nat × Nat × Nat)) : List (Nat × Seen) × State :=
  rs.foldl (fun a r =>
    if a.1.any (fun x => x.1 == r.2.2.1) then a
    else
      let ls := (rs.filter (fun q => q.2.2.1 == r.2.2.1)).map (fun q => (q.1, q.2.1))
      let (v, s1) := a.2.readFor ls r.2.2.1 r.2.2.2
      (a.1 ++ [(r.2.2.1, v)], s1)) ([], s)
def seenAt (vs : List (Nat × Seen)) (key : Nat) : Seen :=
  ((vs.find? (fun x => x.1 == key)).map (·.2)).getD { bytes := [], ids := [], rels := [] }

/-- What a lane's `ldt` reads of a tensor's storage: an element, the zero point of its group where its block is absent (R211), or
nothing. -/
inductive Cell where
  | elem (i off : Nat)
  | zeroPoint (n : Nat)
  | zero
  deriving DecidableEq, Repr

def Geom.cell (g : Geom) (bm : List Byte) (ix : List Nat) : Cell :=
  match g.index bm ix with
  | some i => .elem i (g.start + g.byteOf i)
  | none => if g.gsz = 0 then .zero else .zeroPoint (g.group ix)
/-- Its bytes: offset and length. -/
def Geom.cellAt (g : Geom) (c : Cell) : Nat × Nat :=
  match c with
  | .elem _ off => (off, g.nbytes)
  | .zeroPoint n => (g.zpt + (if g.fmt = 2 then n else n / 2), 1)
  | .zero => (0, 0)
def Geom.cellVal (g : Geom) (c : Cell) (b : List Byte) : Nat :=
  match c with
  | .elem i _ => g.take i b
  | .zeroPoint n => if g.fmt = 2 then leNat b else leNat b / 16 ^ (n % 2) % 16
  | .zero => 0

/-- One lane's `ldt`, before anything is read: its tensor and the element. -/
structure Ldt where
  lane : Nat
  g    : Geom
  ix   : List Nat
  deps : List Nat
  deriving DecidableEq, Repr

def State.ldtOf (s : State) (k : Nat) (ops : List Entry) : Cause ⊕ Ldt :=
  let tid := (ops.getD 0 {}).val.toNat
  let col := (ops.getD 1 {}).val.toNat
  let row := (ops.getD 2 {}).val.toNat
  match elemRefusal (s.entryOf (s.taskNo k) tid) onChip false tid row col with
  | .inl c => .inl c
  | .inr g => .inr { lane := k, g := g, ix := g.split row col, deps := depsOf ops }

/-- The lanes of an `ldt` together: the bitmaps, then an error met on an element's line (R216), then the elements. A bitmap or a
zero point that is poisoned or in error is read as it is stored. DESIGN CHOICE: log entry 26. -/
def ldtAll (s : State) (rs : List Reached) : State × List (Nat × LOut) :=
  let ls := rs.filterMap (fun r => match s.ldtOf r.lane r.ops with
    | .inr l => some l
    | .inl _ => none)
  let key (l : Ldt) (off : Nat) : Nat := chipKey l.g.kind (sliceOf l.lane) off
  let (ms, s1) := s.readsFor ((ls.filter (·.g.sp)).map (fun l => (l.lane, l.deps, key l l.g.map, l.g.sizes.getD 3 0)))
  let cell (l : Ldt) : Cell := l.g.cell (seenAt ms (key l l.g.map)).bytes l.ix
  let bad (l : Ldt) : Option Cause := match cell l with
    | .elem _ off => chipCause s1 l.g.kind (key l off) l.g.nbytes off
    | _ => none
  let (vs, s2) := s1.readsFor ((ls.filter (fun l => (bad l).isNone && cell l != .zero)).map (fun l =>
    (l.lane, l.deps, key l (l.g.cellAt (cell l)).1, (l.g.cellAt (cell l)).2)))
  (s2, ls.map (fun l => (l.lane, match bad l with
    | some c => .trap c
    | none =>
      let v := seenAt vs (key l (l.g.cellAt (cell l)).1)
      .go [(elemVal l.g.fmt (l.g.cellVal (cell l) v.bytes), (v.rels ++ l.deps).dedup)])))

/-- ( row col tid -- v ) -/
def execLdt (w : StallS) (s : State) : Res :=
  match s.strandHolds 0 false with
  | some tid => .next (s.strandWaits (.ldt w) (.tensor tid))
  | none => finish (together (.ldt w) (fun s k ops =>
      match s.ldtOf k ops with
      | .inl c => (s, .inl (.trap c))
      | .inr _ => (s, .inr { lane := k, key := none, ea := 0, ops := ops })) ldtAll s).1

/-- ( v row col tid -- ) -/
def execStt (w : StallS) (s : State) : Res :=
  runTensor (.stt w) true (fun s k ops =>
    let tid := (ops.getD 0 {}).val.toNat
    let col := (ops.getD 1 {}).val.toNat
    let row := (ops.getD 2 {}).val.toNat
    match elemRefusal (s.entryOf (s.taskNo k) tid) onChip true tid row col with
    | .inl c => (s, .trap c)
    | .inr g =>
      match g.index [] (g.split row col) with
      | none => (s, .go [])
      | some i =>
        let key := chipKey g.kind (sliceOf k) (g.start + g.byteOf i)
        (s.laneWrite k key (g.put i (ops.getD 3 {}).val.toNat (s.bytesAt key g.nbytes)) none none 0, .go [])) s

/-- Tensors on which `atomt` acts (R221). -/
def atomtKind (op : AOp) (g : Geom) : Bool :=
  (g.kind = 1 || g.kind = 3) && (g.fmt = 6 || (!aopFloat op && (g.fmt = 7 || g.fmt = 8)))

/-- ( v row col tid -- old ), for `cas` ( e n row col tid -- old ): an atomic of the bank's ALU at cluster scope
(R221, R225), behind what its wave has done in the bank (R215). -/
def execAtomt (w : StallL) (op : AOp) (o : AOrd) (s : State) : Res :=
  runTensor (.atomt w op o) true (fun s k ops =>
    let tid := (ops.getD 0 {}).val.toNat
    let col := (ops.getD 1 {}).val.toNat
    let row := (ops.getD 2 {}).val.toNat
    match elemRefusal (s.entryOf (s.taskNo k) tid) (atomtKind op) true tid row col with
    | .inl c => (s, .trap c)
    | .inr g =>
      match g.index [] (g.split row col) with
      | none => (s, .go [])
      | some i =>
        let off := g.start + g.byteOf i
        let key := chipKey g.kind (sliceOf k) off
        match chipCause s g.kind key g.nbytes off with
        | some c => (s, .trap c)
        | none =>
          let (r, s1) := s.atomicAt k key g.nbytes 6000 (fun w => w.who / 32 == s.who k / 32) .cluster o (depsOf (ops.take 3))
            (atomNew op g.nbytes (ops.drop 3))
          (s1, .go [(BitVec.ofNat 64 r.1, r.2)])) s

/-- Hand an operation to the bank engines (R224). -/
def State.bankStart (s : State) (e tid : Nat) (kind : BankKind) : State :=
  let (id, s1) := fresh s
  s1.modTask (s.taskNo e) (fun t => { t with banks := t.banks ++
    [{ id := id, tid := tid, kind := kind, slice := sliceOf e, who := s.who e }] })

/-- ( v tid -- ) -/
def execTfill (w : StallL) (s : State) : Res :=
  finish (runElected (.tfill w) (fun s _ e ops =>
    let tid := (ops.getD 0 {}).val.toNat
    let v := (ops.getD 1 {}).val
    match s.entryOf (s.taskNo e) tid with
    | none => (s, .refuse (tensCause 1 tid 0 0))
    | some en =>
      let g := geomOf en
      if !onChip g then (s, .refuse (tensCause 3 tid 0 0))
      else if g.rdo then (s, .refuse (tensCause 5 tid 0 0))
      else if g.sp && v.toNat % 2 ^ g.bits != 0 then (s, .refuse (tensCause 6 tid 0 0))
      else if s.waveHolds (s.taskNo e) (waveOf e) tid true true then (s, .hold (.tensor tid))
      else (s.bankStart e tid (.fill v), .all [])) s)

/-- ( v mask col tid -- ) -/
def execTcol (w : StallL) (all : Bool) (op : TColOp) (s : State) : Res :=
  finish (runElected (.tcol w all op) (fun s _ e ops =>
    let tid := (ops.getD 0 {}).val.toNat
    let col := (ops.getD 1 {}).val.toNat
    match elemRefusal (s.entryOf (s.taskNo e) tid)
        (fun g => (g.kind = 3 || (g.kind = 1 && !all)) && (g.fmt = 7 || g.fmt = 8)) true tid 0 col with
    | .inl c => (s, .refuse c)
    | .inr _ =>
      if s.waveHolds (s.taskNo e) (waveOf e) tid true true then (s, .hold (.tensor tid))
      else
        let occ := ((s.entryOf (s.taskNo e) tid).map (fun en => en.getD 7 0)).getD 0
        let mask := if all then occ else (ops.getD 2 {}).val
        (s.bankStart e tid (.col all op (ops.getD 3 {}).val mask col), .all [])) s)

/-- The shapes that `tcopy` requires (R222). -/
def tcopyFits (f g : Geom) : Bool :=
  f.fmt == g.fmt && f.e == g.e && f.sp == g.sp && f.gsz == g.gsz && (f.gsz == 0 || f.gax == g.gax)

/-- ( stid dtid -- ): of two tids that are not valid, stid is the one reported; SHAPE reports dtid, also where stid is not on chip.
DESIGN CHOICE: log entry 56. -/
def execTcopy (w : StallL) (s : State) : Res :=
  finish (runElected (.tcopy w) (fun s _ e ops =>
    let dtid := (ops.getD 0 {}).val.toNat
    let stid := (ops.getD 1 {}).val.toNat
    let tn := s.taskNo e
    match s.entryOf tn stid, s.entryOf tn dtid with
    | none, _ => (s, .refuse (tensCause 1 stid 0 0))
    | _, none => (s, .refuse (tensCause 1 dtid 0 0))
    | some a, some b =>
      let f := geomOf a
      let g := geomOf b
      if g.rdo then (s, .refuse (tensCause 5 dtid 0 0))
      else if !onChip f || !onChip g || !tcopyFits f g then (s, .refuse (tensCause 8 dtid 0 0))
      else if s.waveHolds tn (waveOf e) stid false true then (s, .hold (.tensor stid))
      else if s.waveHolds tn (waveOf e) dtid true true then (s, .hold (.tensor dtid))
      else (s.bankStart e dtid (.move stid), .all [])) s)

def BankOp.tids (b : BankOp) : List Nat :=
  b.tid :: (match b.kind with
    | .move src => [src]
    | _ => [])

/-- An operation of the bank engines completes, after the earlier ones on its tensors (R215). -/
def execBankOperationComplete (task op : Nat) (s : State) : Res :=
  let bs := ((s.task task).map (·.banks)).getD []
  match bs.find? (fun b => b.id == op) with
  | some b =>
    if (bs.takeWhile (fun x => x.id != op)).any (fun x => b.tids.any x.names) then .next s
    else finish (s.bankDone task b)
  | none => .next s

end Sys2Proof.Machine
end

