-- ==== Sys2Proof/Machine/Reels.lean ====
section
/-! DEFINITION. Reels in memory as the device reads and writes them (R358 to R362): headers, segments, the segment
pool, and the append that `spawn` makes. -/

namespace Sys2Proof.Machine

/-- The place of a byte for an agent of the device that acts for an address space: a walk of its own, judged as an
access of a mode that needs no U. -/
def State.devPlace (s : State) (space : Nat) (kind : AccKind) (va : Nat) : Place :=
  if 2 ^ 56 ≤ va then .fault 2 0
  else (s.walk true ((s.ctx space).root.toNat % 2 ^ 52 / 2 ^ 17 * 2 ^ 17) (space / 16384) kind false va).1.plain

/-- An aligned word in memory; none on a fault, a broken line, or a device that no link reaches (R385). -/
def State.devWord (s : State) (space va : Nat) : Option Nat :=
  match s.devPlace space .read va with
  | .ok key => if s.broken key 8 || s.cutOff key then none else some (leNat (peeks s.mem key 8))
  | _ => none

/-- n words in memory. -/
def State.devWords (s : State) (space va : Nat) : Nat → Option (List Word)
  | 0 => some []
  | n + 1 =>
    match s.devWord space va, s.devWords space (va + 8) n with
    | some x, some r => some (BitVec.ofNat 64 x :: r)
    | _, _ => none

/-- A write by an agent of the device that is a release at a scope: a store, or with `atom` part of an operation that is
indivisible at the address's home pillar (R160, R164). -/
def State.devStore (s : State) (key : Nat) (bytes : List Byte) (sc : Scope) (atom : Bool := false) : State :=
  let id := s.nextId
  (s.write key bytes noSlice 0 (some sc) none (if atom then pointOf .device noSlice key else 0)).addRel noSlice sc
    (viewRange key id bytes.length [])

def State.devPut (s : State) (space va : Nat) (v : Nat) (sc : Scope) (atom : Bool := false) : Option State :=
  match s.devPlace space .write va with
  | .ok key => some (if s.cutOff key then s else s.devStore key (leBytes 8 v) sc atom)
  | _ => none

/-- Write words one after another, of one indivisible operation. -/
def State.devPuts (s : State) (space va : Nat) (sc : Scope) : List Nat → Option State
  | [] => some s
  | v :: r =>
    match s.devPut space va v sc true with
    | some s1 => s1.devPuts space (va + 8) sc r
    | none => none

-- A reel's header (R358).
def State.reelTail (s : State) (space h : Nat) : Option Nat := s.devWord space h
def State.reelHead (s : State) (space h : Nat) : Option Nat := s.devWord space (h + 8)
def State.reelPool (s : State) (space h : Nat) : Option Nat := s.devWord space (h + 16)
/-- The address of a segment, when its RING entry names it. -/
def State.segment (s : State) (space h seg : Nat) : Option Nat :=
  match s.devWord space (h + 64 + seg % 8 * 16), s.devWord space (h + 72 + seg % 8 * 16) with
  | some a, some n => if n = seg then some a else none
  | _, _ => none
/-- Address of a packet slot. -/
def packetVa (seg slot : Nat) : Nat := seg + 64 * slot

/-- The next word of a pool's head: address in bits 63:12, tag in bits 11:0 (R361). -/
def poolHead (addr old : Nat) : Nat := addr / 4096 * 4096 + (old + 1) % 4096

/-- Pop a segment from the pool: its address. -/
def State.popSegment (s : State) (space pool : Nat) : Option (Nat × State) :=
  match s.devWord space pool with
  | none => none
  | some h =>
    let seg := h / 4096 * 4096
    if seg = 0 then none
    else
      match s.devWord space seg with
      | none => none
      | some next => (s.devPut space pool (poolHead next h) .device true).map (fun s1 => (seg, s1))

/-- Push a finished segment onto the pool (R361). -/
def State.pushSegment (s : State) (space pool seg : Nat) : Option State :=
  match s.devWord space pool with
  | none => none
  | some h => (s.devPut space seg h .device).bind (fun s1 => s1.devPut space pool (poolHead seg h) .device true)

/-- What an append comes to (R201, R362, R369). -/
inductive Append where
  | ok (s : State)
  | full
  | wait
  deriving DecidableEq, Repr

/-- The segment of packet index i for the device as a producer: a new one is taken from the pool, entered in RING and
published in the splice of the one before it (R362); its own splice is cleared. Where another producer has not yet published the
segment, the device waits until its splice is nonzero (R369). -/
def State.reserveSegment (s : State) (space h i : Nat) : (Append ⊕ Nat) × State :=
  let n := i / 63
  if i % 63 = 0 && i != 0 then
    match s.reelPool space h, s.segment space h (n - 1) with
    | some pool, some prev =>
      match s.popSegment space pool with
      | none => (.inl .full, s)
      | some (seg, s1) =>
        match ((s1.devPut space (packetVa seg 63 + 8) 0 .device true).bind
          (fun t => t.devPuts space (h + 64 + n % 8 * 16) .device [seg, n])).bind
          (fun t => t.devPut space (packetVa prev 63 + 8) seg .device true) with
        | some t => (.inr seg, t)
        | none => (.inl .full, s)
    | some _, none => (.inl .wait, s)
    | none, _ => (.inl .full, s)
  else
    match (if n = 0 then s.segment space h 0 else (s.segment space h (n - 1)).bind (fun p => s.devWord space (packetVa p 63 + 8))) with
    | some a => (if a = 0 then .inl .wait else .inr a, s)
    | none => (.inl .wait, s)

/-- Append a LAUNCH packet in one step (R201, R362): FULL when 378 packets are unread, or the pool is empty at a segment
boundary. The registered reel with this header becomes pending. -/
def State.appendLaunch (s : State) (space h slate argp nt depth : Nat) : Append :=
  match s.reelTail space h, s.reelHead space h with
  | some tail, some head =>
    if 378 ≤ tail - head then .full
    else
      match s.reserveSegment space h tail with
      | (.inl a, _) => a
      | (.inr seg, s1) =>
        let a := packetVa seg (tail % 63)
        match ((s1.devPuts space (a + 8) .device [slate, argp, nt, depth, 0, 0, 0]).bind
          (fun t => t.devPut space a (1 + tail % 2 ^ 32 * 2 ^ 32) .device true)).bind
          (fun t => t.devPut space h (tail + 1) .device true) with
        | some t => .ok { t with reels := t.reels.map (fun p =>
            if spaceKey p.2.vf p.2.asid == space && p.2.header == h then (p.1, { p.2 with pending := true }) else p) }
        | none => .full
  | _, _ => .full

/-- Every lane that waits at the spawn-wait site for a reel that draws from this pool is woken (R202). -/
def State.wakeSpawned (s : State) (space pool : Nat) : State :=
  { s with tasks := s.tasks.map (fun p =>
      if p.2.space == space then
        let hit (x : SpawnLane) : Bool := s.reelPool space x.reel == some pool
        (p.1, { p.2 with
          spawned := p.2.spawned.filter (fun x => !hit x)
          woken := p.2.woken ++ p.2.spawned.filter hit })
      else p) }

/-- Bytes at a key as they were before a write. -/
def WriteRec.undo (w : WriteRec) (key : Nat) (cur : List Byte) : List Byte :=
  cur.zipIdx.map (fun b => if w.covers (key + b.2) then w.old.getD (key + b.2 - w.addr) 0 else b.1)
/-- The bytes at a key before each write from a moment on that overlaps them, with the bytes after it, newest first. -/
def State.changes (s : State) (key n since : Nat) : List (Nat × Nat × Nat) :=
  ((s.log.filter (fun w => since ≤ w.id && w.addr < key + n && key < w.addr + w.new.length)).foldl
    (fun (r : List (Nat × Nat × Nat) × List Byte) w =>
      let old := w.undo key r.2
      (r.1 ++ [(w.id, leNat old, leNat r.2)], old)) ([], peeks s.mem key n)).1
/-- What an aligned word of memory held just before a moment. -/
def State.wordAt (s : State) (key since : Nat) : Nat := ((s.changes key 8 since).getLast?.map (·.2.1)).getD (leNat (peeks s.mem key 8))
/-- From a moment on, a segment has come back to the pool that a reel draws from (R361): a write has made it the head, with the old
head as its first word. -/
def State.pushedOn (s : State) (space reel since : Nat) : Bool :=
  match (s.reelPool space reel).map (s.devPlace space .read) with
  | some (.ok key) => (s.changes key 8 since).any (fun c => c.2.1 != c.2.2 && c.2.2 / 4096 != 0 &&
      (match s.devPlace space .read (c.2.2 / 4096 * 4096) with
       | .ok seg => s.wordAt seg c.1 == c.2.1
       | _ => false))
  | _ => false
/-- The lanes of a task at the spawn-wait site whose pool has got a segment back, by whatever agent, are woken (R202). -/
def State.watchPools (s : State) (t : Task) : Task :=
  let hit (x : SpawnLane) : Bool := s.pushedOn t.space x.reel x.since
  { t with spawned := t.spawned.filter (fun x => !hit x), woken := t.woken ++ t.spawned.filter hit }

end Sys2Proof.Machine
end

