-- ==== Sys2Proof/Machine/Tasks.lean ====
section
/-! DEFINITION. Slates (R186 to R193), placement (R194 to R198), the formation of waves, device-side launch (R200 to
R204), retire and tear-down (R205 to R207). -/

namespace Sys2Proof.Machine

-- The slate by field (R187 to R192): 32 words.
def slEntry (w : List Word) : Nat := wordOf w 0
def slNth (w : List Word) : Nat := wordOf w 1 / 2 ^ 32 + 1
def slStep (w : List Word) : Nat := wordOf w 1 / 2 ^ 16 % 2 ^ 16
def slSb (w : List Word) : Nat := wordOf w 1 / 2 ^ 12 % 16
def slSlots (w : List Word) : Nat := wordOf w 1 / 2 ^ 8 % 16
def slIlk (w : List Word) : Nat := wordOf w 1 / 2 ^ 6 % 4
def slPrio (w : List Word) : Nat := wordOf w 1 / 2 ^ 4 % 4
def slGang (w : List Word) : Nat := wordOf w 1 / 2 % 8
def slAcc (w : List Word) : Bool := (wordOf w 1).testBit 0
def slBack (w : List Word) : Nat := wordOf w 2
def slScratch (w : List Word) : Nat := wordOf w 3 / 2 ^ 32 % 1024
def slNctr (w : List Word) : Nat := wordOf w 3 / 2 ^ 16 % 512
def slNbar (w : List Word) : Nat := wordOf w 3 / 2 ^ 8 % 64
def slEnergy (w : List Word) : Nat := wordOf w 4 / 2 ^ 24 % 2 ^ 24
def slCurrent (w : List Word) : Nat := wordOf w 4 % 2 ^ 16
def slNfr (w : List Word) : Nat := wordOf w 5 % 64
def slFrames (w : List Word) : Nat := wordOf w 5 % 2 ^ 56 / 64 * 64
/-- FIRST and COUNT of the eight roles (R191). -/
def slRoles (w : List Word) : List (Nat × Nat) :=
  (List.range 8).map (fun i => (wordOf w (8 + i) % 2 ^ 32, wordOf w (8 + i) / 2 ^ 32))
/-- First page, W and length of the used extents (R191). -/
def slExtents (w : List Word) : List (Nat × Bool × Nat) :=
  ((List.range 16).map (fun i => wordOf w (16 + i))).filterMap (fun v =>
    if v % 2 ^ 23 = 0 then none else some (v / 2 ^ 24, v.testBit 23, v % 2 ^ 23))

/-- No two ranges overlap. -/
def apart : List (Nat × Nat) → Bool
  | [] => true
  | (a, n) :: r => r.all (fun x => a + n ≤ x.1 || x.1 + x.2 ≤ a) && apart r

/-- The fields that reason 2 of R193 judges. -/
def slateForm (w : List Word) (fr : List (List Word)) : Bool :=
  wordOf w 6 == 0 && wordOf w 7 == 0 && wordOf w 3 / 2 ^ 42 == 0 && wordOf w 3 / 2 ^ 25 % 2 ^ 7 == 0 &&
  wordOf w 3 / 2 ^ 14 % 4 == 0 && wordOf w 3 % 256 == 0 && wordOf w 4 / 2 ^ 48 == 0 && wordOf w 4 / 2 ^ 16 % 256 == 0 &&
  wordOf w 5 / 2 ^ 56 == 0 && slSb w ≤ 8 && slSlots w ≤ 8 && slIlk w != 3 && 1 ≤ slGang w && slGang w ≤ 6 &&
  slScratch w ≤ 768 && slNctr w ≤ 256 && slNbar w ≤ 32 && slEntry w % 2 == 0 && slEntry w / 2 ^ 56 == 0 &&
  slBack w % 8192 == 0 && fr.all (fun d => wordOf d 0 % 8 == 3 && (badWord d).isNone) &&
  (fr.map (fun d => (geomOf d).span)).sum ≤ slScratch w * 4096

/-- Reason 3 of R193. -/
def rolesForm (w : List Word) : Bool :=
  let us := (slRoles w).filter (fun r => r.2 != 0)
  us.all (fun r => r.1 % 32 == 0 && r.2 % 32 == 0 && r.1 + r.2 ≤ slNth w) && apart us

/-- The place of each page of an extent, and the level of the entry that maps it (R193, R198). A page outside the grant, or whose
first line lies outside the export window, fails. DESIGN CHOICE: log entry 56. -/
def State.extentFrames (s : State) (space page : Nat) (w : Bool) : Nat → Option (List (Nat × Nat))
  | 0 => some []
  | n + 1 =>
    let root := (s.ctx space).root.toNat % 2 ^ 52 / 2 ^ 17 * 2 ^ 17
    let go (kind : AccKind) : Xl × List TlbEnt := s.walk true root (space / 16384) kind true (page * 65536)
    let lv := if (go .read).2.any (fun t => t.level == 2) then 2 else 1
    match (go .read).1.plain, (if w then (go .write).1.plain else (go .read).1.plain), s.extentFrames space (page + 1) w n with
    | .ok key, .ok _, some r => some ((key, lv) :: r)
    | _, _, _ => none

def State.extentTable (s : State) (space : Nat) : List (Nat × Bool × Nat) → Option (List Extent)
  | [] => some []
  | (p, w, n) :: r =>
    match s.extentFrames space p w n, s.extentTable space r with
    | some fs, some t => some ({ page := p, w := w, frames := fs.map (·.1), levels := fs.map (·.2) } :: t)
    | _, _ => none

-- What the device reads of a slate (R186).
/-- The fields of a slate: word, lowest bit, width (R187 to R192). -/
def slateFields : List (Nat × Nat × Nat) :=
  [(0, 0, 64), (1, 32, 32), (1, 16, 16), (1, 12, 4), (1, 8, 4), (1, 6, 2), (1, 4, 2), (1, 1, 3), (1, 0, 1), (2, 0, 64),
   (3, 42, 22), (3, 32, 10), (3, 25, 7), (3, 16, 9), (3, 14, 2), (3, 8, 6), (3, 0, 8), (4, 48, 16), (4, 24, 24),
   (4, 16, 8), (4, 0, 16), (5, 56, 8), (5, 6, 50), (5, 0, 6), (6, 0, 64), (7, 0, 64)] ++
  (List.range 8).flatMap (fun i => [(8 + i, 0, 32), (8 + i, 32, 32)]) ++
  (List.range 16).flatMap (fun i => [(16 + i, 24, 40), (16 + i, 23, 1), (16 + i, 0, 23)])
def bitsAt (n lo width : Nat) : Nat := n / 2 ^ lo % 2 ^ width

/-- The write that enqueued a packet: the newest to its word 0 (R360). -/
def State.enqueuedAt (s : State) (space va : Nat) : Nat :=
  match s.devPlace space .read va with
  | .ok key => ((s.log.find? (·.covers key)).map (·.id)).getD 0
  | _ => 0
/-- What word j at an address has held from a moment on. -/
def State.wordsSince (s : State) (space va since j : Nat) : List Nat :=
  match s.devPlace space .read (va + 8 * j) with
  | .ok key => (s.changes key 8 (since + 1)).map (·.2.1)
  | _ => []

/-- A field that software has changed since the enqueue is used as it is or as it was at some time, each for itself (R186). -/
def mixFields (s : State) (was : Nat → List Nat) (new : List Word) : List (Nat × Nat × Nat) → List Word × State
  | [] => (new, s)
  | (w, lo, n) :: r =>
    let b := bitsAt (wordOf new w) lo n
    let olds := (((was w).map (fun x => bitsAt x lo n)).filter (· != b)).dedup
    let (i, s1) := choose s (olds.length + 1)
    let a := (b :: olds).getD i b
    mixFields s1 was (if i = 0 then new else setWord new w (wordOf new w - b * 2 ^ lo + a * 2 ^ lo)) r

/-- Read and check a slate (R193) that was enqueued by the write `since`: a reason, or its words and those of its FRAMES array. Of
several reasons the lowest is reported. DESIGN CHOICE: log entry 56. -/
def State.checkSlate (s : State) (space va since : Nat) : (Nat ⊕ (List Word × List (List Word))) × State :=
  if va % 64 != 0 then (.inl 1, s)
  else
    match s.devWords space va 32 with
    | none => (.inl 1, s)
    | some w0 =>
      let (w, s1) := mixFields s (s.wordsSince space va since) w0 slateFields
      match s1.devWords space (slFrames w) (8 * slNfr w) with
      | none => (.inl 1, s1)
      | some fw0 =>
        let (fw, s2) := mixFields s1 (s1.wordsSince space (slFrames w) since) fw0
          ((List.range fw0.length).map (fun i => (i, 0, 64)))
        let fr := (List.range (slNfr w)).map (fun j => (fw.drop (8 * j)).take 8)
        let xs := slExtents w
        let lo := slBack w
        let hi := lo + slNth w * 8192
        if !slateForm w fr then (.inl 2, s2)
        else if !rolesForm w then (.inl 3, s2)
        else if !apart (xs.map (fun x => (x.1, x.2.2))) || xs.any (fun x => 2 ^ 40 < x.1 + x.2.2) ||
            (s.extentTable space xs).isNone then (.inl 4, s2)
        else if !xs.any (fun x => x.2.1 && x.1 * 65536 ≤ lo && hi ≤ (x.1 + x.2.2) * 65536) then (.inl 5, s2)
        else if (List.range 96).all (fun c => (s.cluster c).budget < slEnergy w || (s.cluster c).peak < slCurrent w) then
          (.inl 6, s2)
        else (.inr (w, fr), s2)

-- What is held (R195).
/-- Slice cycles per window of a ratio code (R179). -/
def ratioN (code : Nat) : Nat :=
  if code = 0 then 8 else if code = 1 then 6 else if code = 2 then 4 else if code = 3 then 3 else 2
/-- A task's charge, in eighths of a nJ (R378, R380). -/
def Task.charge8 (t : Task) : Nat := if t.lent then 0 else t.energy * ratioN t.tcode
def State.tasksOn (s : State) (slice : Nat) : List Task := (s.tasks.map (·.2)).filter (fun t => t.members.contains slice)
def State.tasksIn (s : State) (c : Nat) : List Task := (s.tasks.map (·.2)).filter (fun t => t.cluster == c)
def State.energyUsed (s : State) (c : Nat) : Nat := ((s.tasksIn c).map Task.charge8).sum + (s.cluster c).owedE
def State.currentUsed (s : State) (c : Nat) : Nat := ((s.tasksIn c).map (·.current)).sum + (s.cluster c).owedI
/-- The wave place and blocks granted to a task on a slice at placement and not yet used (R196). -/
def Task.granted (t : Task) (slice : Nat) : Bool :=
  t.members.zipIdx.any (fun m => m.1 == slice && t.formed ≤ m.2)
def State.placesFree (s : State) (slice : Nat) : Nat :=
  48 - (s.waves.filter (fun p => p.1 / 48 == slice)).length - ((s.tasksOn slice).filter (fun t => t.granted slice)).length
def State.blocksFree (s : State) (slice : Nat) : Nat :=
  208 - ((s.waves.filter (fun p => p.1 / 48 == slice)).map (fun p => p.2.nlb + p.2.sb)).sum -
    ((s.slice slice).pools.map (fun p => p.2.length)).sum -
    (((s.tasksOn slice).filter (fun t => t.granted slice)).map (fun t => t.slots + t.sb)).sum

/-- Pool blocks that a new wave of a task may take on a slice: none while a claim waits there (R197, R258). -/
def State.poolFor (s : State) (tn slice n : Nat) : Nat :=
  if (claimsOf (s.taskLanesOn tn slice)).isEmpty then Nat.min n (s.poolOf tn slice).length else 0
/-- A wave of `slots` local and `sb` stack blocks fits on a wave place. -/
def State.fitsWave (s : State) (tn w slots sb : Nat) : Bool :=
  (s.wave w).isNone && 1 ≤ s.placesFree (w / 48) && slots + sb ≤ s.blocksFree (w / 48) + s.poolFor tn (w / 48) slots

/-- The slots of a wave place are written: no parity error is left in them. -/
def State.mendSlots (s : State) (w : Nat) : State :=
  (List.range 32).foldl (fun s l => s.mendAll (softKey (w * 32 + l) 0) (softKey (w * 32 + l) 64)) s

/-- Form a wave from lanes (R171, R197): its local blocks are zero-filled. -/
def State.putWave (s : State) (tn w num slots sb cls : Nat) (ls : List (Nat × Lane)) : State :=
  let n := s.poolFor tn (w / 48) slots
  let s1 := if n = 0 then s
    else s.modSlice (w / 48) (fun x => { x with pools := mset x.pools tn ((mgetD x.pools tn []).drop n) })
  let (uid, s2) := fresh s1
  let s3 := (s2.mendSlots w).setWave w { uid := uid, task := tn, num := num, sb := sb, nlb := slots, cls := cls }
  ls.foldl (fun s p => s.setLane (w * 32 + p.1) p.2) s3

/-- A thread of a forming wave (R129, R132, R171): task start is a boundary at system scope and a quiescent point
(R287, R300). -/
def State.startLane (s : State) (t : Task) (slice thx : Nat) : Lane :=
  { thx := thx, pc := t.entry, ts := { ilk := t.ilk }, qg := (s.ctx t.space).gBegun
    view := boundaryView s.rels slice .system [], ord := s.nextId }

/-- The virtual function holds the take, and no cut of the context is pending (R180, R366). -/
def State.mayRun (s : State) (space : Nat) : Bool :=
  s.take == some (space / 16384) && !s.ending && !(s.ctx space).cut && !(s.ctx space).torn

/-- Wave `formed` of a task is formed on a wave place of its member slice (R197). -/
def execWaveFormation (task place : Nat) (s : State) : Res :=
  match s.task task with
  | none => .next s
  | some t =>
    let slice := t.members.getD (t.formed % Nat.max 1 t.members.length) 0
    let w := placeKey slice place
    let own := t.formed < t.members.length
    let s1 := s.setTask task { t with formed := t.formed + 1 }
    if t.nth ≤ 32 * t.formed || 48 ≤ place || !s.mayRun t.space || (s.wave w).isSome ||
        !(own || s.fitsWave task w t.slots t.sb) then .next s
    else
      let thxs := (List.range 32).filter (fun l => 32 * t.formed + l < t.nth)
      .next (s1.putWave task w t.formed t.slots t.sb t.prio
        (thxs.map (fun l => (l, s.startLane t slice (32 * t.formed + l)))))

/-- The bytes of a range that are not zero, or that a write of the location order covers: some agent may see a value there. -/
def State.usedBytes (s : State) (key n : Nat) : List Nat :=
  ((s.mem.map (·.1)) ++ s.log.flatMap (fun w => (List.range w.new.length).map (· + w.addr))).dedup.filter
    (fun a => key ≤ a && a < key + n)

/-- Bytes of a space become zero, for every agent. -/
def State.zeroBytes (s : State) (key n : Nat) : State := (s.usedBytes key n).foldl (fun s a => s.devStore a [0] .system) s
/-- Bytes of a space become zero, and lines become clean (R213, R216). -/
def State.zeroFill (s : State) (key n : Nat) : State :=
  let s1 := s.zeroBytes key n
  { s1 with
    poison := s1.poison.filter (fun p => !(key ≤ 64 * p.1 && 64 * p.1 < key + n))
    ecc := s1.ecc.filter (fun p => !(key ≤ 64 * p.1 && 64 * p.1 < key + n)) }

/-- Member slices of a task: in increasing order, of one cluster (R196). -/
def membersOk (ms : List Nat) (gang : Nat) : Bool :=
  ms.length == gang && ms.all (fun m => m < 576 && m / 6 == ms.headD 0 / 6) &&
  (ms.zip ms.tail).all (fun p => p.1 < p.2)

/-- The footprint of R195 is free on the members. -/
def State.fitsTask (s : State) (w : List Word) (ms : List Nat) : Bool :=
  let c := ms.headD 0 / 6
  ms.all (fun m =>
    1 ≤ s.placesFree m && slSlots w + slSb w ≤ s.blocksFree m &&
    ((s.tasksOn m).map (·.nbar)).sum + slNbar w ≤ 32 && (!slAcc w || (s.slice m).accBy.isNone)) &&
  ((s.tasksIn c).map (·.nctr)).sum + slNctr w ≤ 256 &&
  (fitIn ((s.tasksIn c).map (fun t => (t.scratch, t.nscratch))) (slScratch w * 4096) (3 * 2 ^ 20) 0).isSome &&
  s.energyUsed c + 8 * slEnergy w ≤ 8 * (s.cluster c).budget && s.currentUsed c + slCurrent w ≤ (s.cluster c).peak

/-- Grant the whole footprint of one task (R196, R198), and its frame tiles (R192). Its reservation lies at the lowest place that
fits. DESIGN CHOICE: log entry 56. The accumulator buffers are zero, and a poisoned line of them stays so (R216). -/
def State.placeTask (s : State) (lk : Nat) (l : Launch) (ms : List Nat) (xs : List Extent) : State :=
  let w := l.words
  let c := ms.headD 0 / 6
  let at_ := (fitIn ((s.tasksIn c).map (fun t => (t.scratch, t.nscratch))) (slScratch w * 4096) (3 * 2 ^ 20) 0).getD 0
  let (tn, s1) := fresh s
  let t : Task := {
    launch := lk, taskx := l.next, vf := l.vf, asid := l.asid, nth := slNth w, argp := l.argp
    entry := BitVec.ofNat 64 (slEntry w), depth := l.depth, sb := slSb w, slots := slSlots w, prio := slPrio w
    ilk := if slStep w = 0x00B0 then Ilk.ofCode (slIlk w) else .lock
    members := ms, acc := slAcc w, scratch := at_, nscratch := slScratch w * 4096, nctr := slNctr w, nbar := slNbar w
    energy := slEnergy w, current := slCurrent w, back := BitVec.ofNat 64 (slBack w), roles := slRoles w, extents := xs }
  let s2 := ((s1.setTask tn t).modLaunch lk (fun x => { x with next := x.next + 1 })).zeroFill (padKey c at_) (slScratch w * 4096)
  let s3 := if slAcc w then
      ms.foldl (fun s m => (s.modSlice m (fun x => { x with accBy := some tn })).zeroBytes (accKey m 0) 65536) s2
    else s2
  (l.frames.zipIdx).foldl (fun s d => (s.allocAt tn (255 - d.2) d.1).getD s) s3

/-- A launch completes: its packet gets a result (R206). -/
def State.launchDone (s : State) (lk result : Nat) : State :=
  match mget s.launches lk with
  | none => s
  | some l =>
    { s.modReel (reelKey l.vf l.rnum) (fun r => { r with results := mset r.results l.idx result }) with
      launches := mdel s.launches lk }

/-- The launch heads the pool of its reel (R194). -/
def State.headsPool (s : State) (lk : Nat) (l : Launch) : Bool :=
  !s.launches.any (fun p => p.1 < lk && p.2.vf == l.vf && p.2.rnum == l.rnum && p.2.next < p.2.ntask)

/-- The slate of a launch at the head of its queue is read and checked, once; one that fails refuses the launch (R186,
R193). -/
def State.judgeLaunch (s : State) (lk : Nat) (l : Launch) : State :=
  if l.checked then s
  else
    match s.checkSlate (spaceKey l.vf l.asid) l.slate l.since with
    | (.inl r, s1) => s1.launchDone lk r
    | (.inr (w, fr), s1) => s1.modLaunch lk (fun x => { x with checked := true, words := w, frames := fr })

/-- The charge, in eighths, of a launch's next task at full speed. -/
def Launch.need (l : Launch) : Nat := 8 * slEnergy l.words
/-- The charges of the owners' tasks for which a cluster keeps what a reclaim frees, but those of one launch. -/
def State.keptFor (s : State) (c lk : Nat) : Nat :=
  (((s.cluster c).hold.filter (· != lk)).map (fun p => ((mget s.launches p).map Launch.need).getD 0)).sum
/-- A task would take what a reclaim has freed for others (R380). -/
def State.keptFrom (s : State) (c lk need : Nat) : Bool :=
  s.keptFor c lk != 0 && decide (8 * (s.cluster c).budget < s.energyUsed c + need + s.keptFor c lk)

/-- The next task of a launch is placed on the given slices, where its footprint is free (R196). -/
def execTaskPlacement (launch : Nat) (members : List Nat) (s : State) : Res :=
  match mget s.launches launch with
  | none => .next s
  | some l0 =>
    if !s.headsPool launch l0 || !s.mayRun (spaceKey l0.vf l0.asid) then .next s
    else
      let s1 := s.judgeLaunch launch l0
      match mget s1.launches launch with
      | none => .next s1
      | some l =>
        if l.ntask ≤ l.next || !membersOk members (slGang l.words) || !s1.fitsTask l.words members ||
            s1.keptFrom (members.headD 0 / 6) launch l.need then .next s1
        else
          match s1.extentTable (spaceKey l.vf l.asid) (slExtents l.words) with
          | none => .next s1
          | some xs => .next ((s1.placeTask launch l members xs).modCluster (members.headD 0 / 6) (fun c => { c with hold := c.hold.filter (· != launch) }))

-- Device-side launch.
/-- NEST_DEPTH and TASK_COUNT (R203). -/
def spawnCause (code depth nt : Nat) : Cause := mkCause 9 (depth * 256 + code) nt (nt / 2 ^ 32)

/-- Where lines of a trap level lie in its mode area (R341): those of its backing, then those of its record. -/
def levelLines (level area : Nat) : List Nat :=
  (List.range 16).map (· + (area + 1024 * (level - 1)) / 64) ++
  (if level = 1 then [] else (List.range 2).map (· + (area + recordOff level) / 64))
/-- The mode areas of a lane, level by level. -/
def State.areasAt (s : State) (k : Nat) (l : Lane) : List Area :=
  l.bases.reverse.zipIdx.map (fun b =>
    let ls := levelLines (b.2 + 1) (areaAt b.1 k)
    { level := b.2 + 1, bytes := ls.flatMap (fun n => peeks s.mem (64 * n) 64)
      spoilt := ls.zipIdx.filterMap (fun n => (mget s.poison n.1).map (fun t => (n.2, t))) })
/-- Put a lane's mode area back. What was poisoned is poisoned, and a poisoned line stays so: this is no copy (R153). -/
def State.putArea (s : State) (k : Nat) (l : Lane) (a : Area) : State :=
  let ls := levelLines a.level (areaAt (l.bases.reverse.getD (a.level - 1) 0) k)
  ls.zipIdx.foldl (fun s n =>
    let s1 := s.laneWrite k (64 * n.1) ((a.bytes.drop (64 * n.2)).take 64) none none 0
    match mget a.spoilt n.2 with
    | some t => s1.setPoison n.1 t
    | none => s1) s

/-- The entries of a stack go to their places in backing store; one whose parity is in error is found there (R351). -/
def State.storeAll (s : State) (k : Nat) (l : Lane) (chip : List Entry) (g : Nat) : State :=
  (chip.reverse.zipIdx).foldl (fun s p => s.storeDeep k l (g + p.2) p.1.val p.1.deps)
    (s.modLane k (fun x => x.drainSoft g chip.reverse))

/-- A lane moves to the spawn-wait site (R202): its stack, and that of its thread below a handler, go to their backing
areas. DEDUCED: log entry 35. -/
def State.spawnWait (s : State) (k reel stall : Nat) : State :=
  let s0 := (s.quiesce k).release k .device
  match s0.lane k with
  | none => s0
  | some l =>
    let tn := s0.taskNo k
    let low : Lane := { l with ts := { l.ts with tlvl := 0 } }
    let s1 := (s0.storeAll k low l.chip l.g).storeAll k l (if l.ts.tlvl = 0 then [] else l.hchip) l.hg
    let s2 := s1.release k .device
    let l1 : Lane := { (s2.lane k).getD l with
      chip := [], g := l.g + l.chip.length, hchip := [], hg := l.hg + l.hchip.length, chU := {}, chS := {}, chH := {}
      watch := none, tokens := [], openSet := [], batches := [], wait := .none, during := none, cutDue := false
      next := if l.ilk = .lock then 0 else stall }
    let x : SpawnLane := { lane := l1, reel := reel, since := s2.nextId, areas := s2.areasAt k l }
    let s3 := { s2 with lanes := mdel s2.lanes k }
    let s4 := s3.modTask tn (fun t => { t with spawned := t.spawned ++ [x] })
    if (s4.waveLanes (waveOf k)).isEmpty then s4.endWave (waveOf k) else s4

/-- The checks and the append of `spawn` and `spawnw` (R201): an outcome, or whether the packet was enqueued. -/
def State.spawnTry (s : State) (ks : List Nat) (e : Nat) (ops : List Entry) : (EOut ⊕ Bool) × State :=
  let rl := (ops.getD 0 {}).val
  let sl := (ops.getD 1 {}).val.toNat
  let nt := (ops.getD 2 {}).val.toNat
  let ap := (ops.getD 3 {}).val.toNat
  let d := ((s.taskOf e).map (·.depth)).getD 0
  if d = 7 then (.inl (.refuse (spawnCause 3 d 0)), s)
  else if nt = 0 || 2 ^ 32 < nt then (.inl (.refuse (spawnCause 5 d nt)), s)
  else
    match s.lane e with
    | none => (.inl .done, s)
    | some l =>
      match s.access e l .atomic true rl 64 with
      | (.trap c, s1) => (.inl (.refuse c), s1)
      | (.park, s1) => (.inl (.hold .parked), s1)
      | (_, s1) =>
        let s2 := ks.foldl (fun s k => s.release k .device) s1
        match s2.appendLaunch (s2.spaceOf e) rl.toNat sl ap nt (d + 1) with
        | .ok s3 => (.inr true, s3)
        | .full => (.inr false, s2)
        | .wait => (.inl (.hold .reel), s2)

/-- ( argp nt slate reel -- st ) -/
def execSpawn (w : StallL) (s : State) : Res :=
  finish (runElected (.spawn w) (fun s ks e ops =>
    match s.spawnTry ks e ops with
    | (.inl o, s1) => (s1, o)
    | (.inr ok, s1) => (s1, .all [(if ok then 0 else 1, [])])) s)

/-- As `spawn`, but a full reel suspends the strand (R202), once every result of its lanes is ready (R54). -/
def execSpawnw (w : StallL) (s : State) : Res :=
  finish (runElected (.spawnw w) (fun s ks e ops =>
    match s.spawnTry ks e ops with
    | (.inl o, s1) => (s1, o)
    | (.inr true, s1) => (s1, .all [(0, [])])
    | (.inr false, s1) =>
      if ks.any (fun k => ((s1.lane k).map (fun l => !s1.settledBy k l (s1.cycle (sliceOf k)))).getD false) then (s1, .hold .results)
      else (ks.foldl (fun s k => s.spawnWait k (ops.getD 0 {}).val.toNat w.toNat) s1, .done)) s)

/-- Woken lanes of a task form a fresh wave at their `spawnw` (R202), on a member slice: the first 32 in the order in which they
were woken, from lane 0 on. DESIGN CHOICE: log entry 56. -/
def execSpawnWaitWake (task slice place : Nat) (s : State) : Res :=
  match s.task task with
  | none => .next s
  | some t =>
    let w := placeKey slice place
    if t.woken.isEmpty || 48 ≤ place || !t.members.contains slice || !s.mayRun t.space ||
        !s.fitsWave task w t.slots t.sb then .next s
    else
      let ls := (t.woken.take 32).map (fun x => { x.lane with
        qg := (s.ctx t.space).gBegun
        next := s.cycle slice + 1 + x.lane.next
        view := boundaryView s.rels slice .device x.lane.view, ord := s.nextId })
      let s1 := (s.setTask task { t with woken := t.woken.drop 32 }).putWave task w 0 t.slots t.sb t.prio
        (ls.zipIdx.map (fun p => (p.2, p.1)))
      finish ((t.woken.take 32).zipIdx.foldl (fun s p =>
        p.1.areas.foldl (fun s a => s.putArea (w * 32 + p.2) p.1.lane a) s) s1)

-- Retire and tear-down.
/-- A copy or a matrix command of the task is still in the engines of a slice (R205). -/
def Slice.busyFor (x : Slice) (tn : Nat) : Bool :=
  x.copies.any (fun c => c.task == some tn) || (x.mq ++ x.gates ++ x.stages.map (fun p => p.2.cmd)).any (fun m => m.task == tn)

/-- Saved waves of a task. -/
def State.savedOf (s : State) (t : Task) (tn : Nat) : List Saved := (s.ctx t.space).saved.filter (fun x => x.wave.task == tn)

/-- The conditions of R205. -/
def State.mayRetire (s : State) (tn : Nat) (t : Task) : Bool :=
  t.nth ≤ 32 * t.formed && !s.waves.any (fun p => p.2.task == tn) && t.rows.isEmpty && t.spawned.isEmpty &&
  t.woken.isEmpty && (s.savedOf t tn).isEmpty && !s.slices.any (fun p => p.2.busyFor tn)

/-- Everything a task holds returns (R205). Charges return from the next control interval. -/
def State.returnTask (s : State) (tn : Nat) (t : Task) : State :=
  let s1 := t.members.foldl (fun s m => s.modSlice m (fun x =>
    { x with pools := mdel x.pools tn, accBy := if x.accBy = some tn then none else x.accBy })) s
  { s1.modCluster t.cluster (fun c => { c with owedE := c.owedE + t.charge8, owedI := c.owedI + t.current }) with
    tasks := mdel s1.tasks tn }

/-- A task retires; with its last task the launch completes (R206). -/
def execTaskRetire (task : Nat) (s : State) : Res :=
  match s.task task with
  | none => .next s
  | some t =>
    if !s.mayRetire task t then .next s
    else
      let s1 := (s.returnTask task t).modLaunch t.launch (fun l => { l with retired := l.retired + 1 })
      match mget s1.launches t.launch with
      | some l => .next (if l.ntask ≤ l.retired then s1.launchDone t.launch 0 else s1)
      | none => .next s1

/-- Packets of a reel that the device has not read: their indices, lowest first. -/
def State.unread (s : State) (r : Reel) : List Nat :=
  let sp := spaceKey r.vf r.asid
  match s.reelTail sp r.header, s.reelHead sp r.header with
  | some t, some h => (List.range (Nat.min 504 (t - h))).map (· + h)
  | _, _ => []

/-- Word j of the packet with index i. -/
def State.packetWord (s : State) (r : Reel) (i j : Nat) : Option Nat :=
  let sp := spaceKey r.vf r.asid
  (s.segment sp r.header (i / 63)).bind (fun seg => s.devWord sp (packetVa seg (i % 63) + 8 * j))

/-- The status word of a packet goes to its CMPL, as a release at system scope (R360). -/
def State.writeStatus (s : State) (space idx : Nat) (cmpl : Word) (result : Nat) : State :=
  if cmpl = 0 then s
  else (s.devPut space cmpl.toNat (idx % 2 ^ 32 * 2 ^ 32 + result % 256) .system).getD s

/-- A LAUNCH packet that has been written and not read. -/
def State.launchAt (s : State) (r : Reel) (i : Nat) : Bool :=
  match s.packetWord r i 0 with
  | some w => w % 256 == 1 && w / 2 ^ 32 == i % 2 ^ 32
  | none => false

/-- Tear-down drops the launches of a reel: those in flight that are not complete, and those not read, with result 7 (R207,
R369). -/
def State.dropReel (s : State) (rk : Nat) (r : Reel) : State :=
  let sp := spaceKey r.vf r.asid
  let s1 := r.infl.foldl (fun s p => s.writeStatus sp p.1 p.2 ((mget r.results p.1).getD 7)) s
  let s2 := ((s.unread r).filter (s.launchAt r)).foldl (fun st i =>
    st.writeStatus sp i (BitVec.ofNat 64 ((s.packetWord r i 7).getD 0)) 7) s1
  { s2 with reels := mdel s2.reels rk }

/-- Threads of an address space that a tear-down stops, resident or saved. -/
def State.threadsOf (s : State) (space : Nat) : Nat :=
  (s.lanes.filter (fun p => s.spaceOf p.1 == space)).length + ((s.ctx space).saved.map (fun v => v.lanes.length)).sum

def popCount (n : Nat) : Nat := ((List.range 64).filter n.testBit).length

/-- Stop and reclaim everything of a context (R207). -/
def State.tearDown (s : State) (vf asid : Nat) : State :=
  let space := spaceKey vf asid
  let mine := s.tasks.filter (fun p => p.2.space == space)
  let has (tn : Nat) : Bool := mine.any (fun p => p.1 == tn)
  let dead := s.waves.filter (fun p => has p.2.task)
  let s1 : State := { s with
    lanes := s.lanes.filter (fun p => !dead.any (fun w => w.1 == waveOf p.1))
    waves := s.waves.filter (fun p => !has p.2.task)
    slices := s.slices.map (fun p => (p.1, {
      (p.2.without (p.2.copies.filter (fun c => c.of space)) (p.2.gates.filter (fun m => has m.task))
        ((p.2.stages.filter (fun m => has m.2.cmd.task)).map (·.1))) with
      mq := p.2.mq.filter (fun m => !has m.task) }))
    launches := s.launches.filter (fun p => !(p.2.vf == vf && p.2.asid == asid)) }
  let s2 := mine.foldl (fun s p => s.returnTask p.1 p.2) s1
  let s3 := (s2.reels.filter (fun p => p.2.vf == vf && p.2.asid == asid)).foldl (fun s p => s.dropReel p.1 p.2) s2
  let s4 : State := { s3.modCtx space (fun _ => { torn := true }) with
    slices := s3.slices.map (fun p => (p.1, { p.2 with tlb := p.2.tlb.filter (fun t => t.space != space) }))
    sectors := s3.sectors.map (fun p => (p.1, { p.2 with
      tlb := p.2.tlb.filter (fun t => t.space != space), recs := p.2.recs.filter (fun r => r.space != space) }))
    dieTlbs := s3.dieTlbs.map (fun p => (p.1, p.2.filter (fun t => t.space != space))) }
  s4.settleCuts

/-- The tear-down report (R368): 64 bytes. It counts what the context has in the engines and in its saved waves alike. -/
def State.reportOf (s : State) (vf asid : Nat) : List Byte :=
  let space := spaceKey vf asid
  let ls := s.launches.filter (fun p => p.2.vf == vf && p.2.asid == asid)
  let ts := s.tasks.filter (fun p => p.2.space == space)
  let rs := s.reels.filter (fun p => p.2.vf == vf && p.2.asid == asid)
  let unread := rs.flatMap (fun p => ((s.unread p.2).filter (s.launchAt p.2)).map (fun i => (s.packetWord p.2 i 3).getD 0))
  let rows := (ts.map (fun p => p.2.rows.length + p.2.spawned.length + p.2.woken.length)).sum
  let cmds := (s.slices.map (fun p =>
    (p.2.copies.filter (fun c => c.of space)).length +
    ((p.2.mq ++ p.2.gates ++ p.2.stages.map (fun x => x.2.cmd)).filter (fun m => ts.any (fun t => t.1 == m.task))).length)).sum
  let kept := ((s.ctx space).saved.map (fun v => v.copies.length + v.gates.length + v.stages.length)).sum
  leBytes 4 space ++ leBytes 4 0 ++ leBytes 8 (ls.length + unread.length) ++
  leBytes 8 ((ls.map (fun p => p.2.ntask - p.2.next)).sum + unread.sum) ++ leBytes 8 (s.threadsOf space) ++ leBytes 8 rows ++
  leBytes 8 (cmds + kept) ++ List.replicate 16 0

/-- Tear-down of a context, and its report at a physical address (R207, R368). -/
def execTearDown (vf asid report : Nat) (s : State) : Res :=
  let b := s.reportOf vf asid
  finish (((s.tearDown vf asid).touch report).devStore report b .system)

end Sys2Proof.Machine
end

