-- ==== Sys2Proof/Machine/Engine.lean ====
section
/-! DEFINITION. The copy engine (R227 to R231, R234, R237, R371, R376): the places of a box's elements, the requests of
a copy, what one request moves, parking and landing. -/

namespace Sys2Proof.Machine

/-- A byte as an engine names it: a virtual address, a byte of on-chip storage, or a byte of flash. One that would lie beyond
every namespace is a byte of no drive: the command for it fails (R377). -/
inductive Loc where
  | va (a : Nat)
  | chip (key : Nat)
  | flash (key : Nat)
  deriving DecidableEq, Repr

def Loc.add (l : Loc) (n : Nat) : Loc :=
  match l with
  | .va a => .va (a + n)
  | .chip k => .chip (k + n)
  | .flash k => if (k - 2 ^ 90) % 2 ^ 60 + n < 2 ^ 60 then .flash (k + n) else .flash (flashKey 8 0 0)
def Loc.line (l : Loc) : Nat :=
  match l with
  | .va a => a / 64
  | .chip k => k / 64
  | .flash k => k / 64

/-- Start of an array of a tensor, for the engine of a slice (R209, R214, R371). -/
def Geom.locOf (g : Geom) (slice : Nat) (area : ReqKind) : Loc :=
  let b := match area with
    | .elem => g.base
    | .scale => g.scl
    | .zpt => g.zpt
    | .map => g.map
  if g.kind = 0 then .va b
  else if g.kind = 4 then .flash (flashKey (g.base / 2 ^ 60) (g.base / 2 ^ 48 % 4096) (b % 2 ^ 48 * 4096))
  else .chip (chipKey g.kind slice (if area = .elem then g.start else b))

/-- What an engine finds at a place: bytes; a translation fault; or a failure of R237, by its status reason. -/
inductive Got where
  | ok (b : List Byte)
  | park (va reason level : Nat)
  | fail (reason : Nat) (tag : Bool)
  deriving DecidableEq, Repr

/-- Translation for the issuer of a copy: its extents, or the tables (R198, R237). -/
def State.copyPlace (s : State) (c : Copy) (slice : Nat) (kind : AccKind) (va : Nat) : Place × State :=
  let ext := if c.hyp then none
    else (c.task.bind s.task).bind (fun t => extentAt t.extents (kind != .read) va)
  match ext with
  | some (key, lv) => ((s.served c.vf key lv).plain, s)
  | none =>
    let (x, s1) := s.translate (spaceKey c.vf c.asid) slice c.hyp c.user kind va
    (x.plain, s1)

/-- Source bytes, no older than what the issuer had to see (R233, R274); INTEGRITY or HARDWARE on them (R237). -/
def State.sound (s : State) (floor : Map Nat) (key n : Nat) : Got × State :=
  if s.isPoison key n then (.fail 16 (s.isTag key n), s)
  else if s.isEcc key n then (.fail 18 false, s)
  else
    let (v, s1) := s.readVer floor (fun _ => false) key n
    (.ok v.bytes, s1)

/-- Change a copy of a slice. -/
def State.modCopy (s : State) (slice id : Nat) (f : Copy → Copy) : State :=
  s.modSlice slice (fun x => { x with copies := x.copies.map (fun c => if c.id = id then f c else c) })
def State.copyAt (s : State) (slice id : Nat) : Option Copy := (s.slice slice).copies.find? (fun c => c.id == id)

-- Flash.
def flashDrive (key : Nat) : Nat := (key - 2 ^ 90) / 2 ^ 60 / 4096
def flashNs (key : Nat) : Nat := (key - 2 ^ 90) / 2 ^ 60 % 4096
def flashByte (key : Nat) : Nat := (key - 2 ^ 90) % 2 ^ 60
/-- A drive and namespace that bring-up found usable (R370). -/
def flashOk (key : Nat) : Bool := flashDrive key < 8 && flashNs key != 0 && Config.nsPresent (flashDrive key) (flashNs key)
def Wheel.covers (w : Wheel) (key lo : Nat) : Bool :=
  w.drive == flashDrive key && w.ns == flashNs key && w.base * 4096 + lo ≤ flashByte key &&
  flashByte key < w.base * 4096 + 2 ^ 20 * (w.nseg + 1)
/-- The message of a segment's tag (R374). -/
def segMessage (s : State) (w : Wheel) (i : Nat) : List Byte :=
  leBytes 8 i ++ peeks s.mem (flashKey w.drive w.ns (w.base * 4096 + 2 ^ 20 * (i + 1))) (2 ^ 20)
/-- "OLUPRA WHEEL". -/
def tagCustom : List Byte := [0x4F, 0x4C, 0x55, 0x50, 0x52, 0x41, 0x20, 0x57, 0x48, 0x45, 0x45, 0x4C]
/-- The tag of a segment matches its table entry (R374, R376). -/
def State.segOk (s : State) (w : Wheel) (i : Nat) : Bool :=
  Crypto.kmac256 w.wkey tagCustom 32 (segMessage s w i) == peeks s.mem (flashKey w.drive w.ns (w.base * 4096 + 0x1000 + 32 * i)) 32
/-- A 4,096-byte block of flash as it is now. -/
def State.blockNow (s : State) (b : Nat) : Block :=
  { bytes := peeks s.mem (4096 * b) 4096, spoilt := s.poison.filter (fun p => p.1 / 64 == b) }
/-- A block of flash, as the copy has read it: whole, and once (R377), unless it is read `anew`. -/
def State.flashBlock (s : State) (c : Copy) (slice b : Nat) (anew : Bool) : Block × State :=
  match (if anew then none else (s.copyAt slice c.id).bind (fun x => mget x.blocks b)) with
  | some x => (x, s)
  | none => (s.blockNow b, s.modCopy slice c.id (fun x => { x with blocks := mset x.blocks b (s.blockNow b) }))
/-- Bytes of a block, or its poison. -/
def Block.read (x : Block) (key n : Nat) : Got :=
  match (linesOf key n).findSome? (fun l => mget x.spoilt l) with
  | some t => .fail 16 t
  | none => .ok ((x.bytes.drop (key % 4096)).take n)

/-- A flash read of an element: in an open wheel the whole segment is read each time and checked, and what is delivered is what has
passed (R376). The medium may return different bits at any reading of a segment, which then fails (R377); a reading that passes has the
bits that match the tag. DESIGN CHOICE: log entry 40. -/
def State.flashRead (s : State) (c : Copy) (slice key n : Nat) : Got × State :=
  let block (s : State) (anew : Bool) : Got × State :=
    let (x, s1) := s.flashBlock c slice (key / 4096) anew
    (x.read key n, s1)
  if !flashOk key || s.isEcc key n then (.fail 18 false, s)
  else
    match (s.wheels.map (·.2)).find? (fun w => w.covers key (2 ^ 20)) with
    | some w =>
      if !s.segOk w ((flashByte key - w.base * 4096) / 2 ^ 20 - 1) then (.fail 16 true, s)
      else
        let (h, s1) := choose s 2
        if h = 1 then (.fail 16 true, s1) else block s1 true
    | none => block s false

def State.getBytes (s : State) (c : Copy) (slice : Nat) (l : Loc) (n : Nat) : Got × State :=
  match l with
  | .chip key => s.sound c.floor key n
  | .flash key => s.flashRead c slice key n
  | .va a =>
    match s.copyPlace c slice .read a with
    | (.fault r lv, s1) => (.park a r lv, s1)
    | (.prot _ _, s1) => (.fail 17 false, s1)
    | (.ok key, s1) =>
      if isRemote key && !s1.linked then (.fail 18 false, s1) else s1.sound c.floor key n

/-- Where a write would go. -/
inductive PutAt where
  | ok (key : Nat)
  | park (va reason level : Nat)
  | fail (reason : Nat)
  deriving DecidableEq, Repr

def State.putPlace (s : State) (c : Copy) (slice : Nat) (l : Loc) : PutAt × State :=
  match l with
  | .chip key => (.ok key, s)
  | .flash key =>
    if !flashOk key then (.fail 18, s)
    else if s.wheels.any (fun p => p.2.covers key 0) then (.fail 17, s)
    else (.ok key, s)
  | .va a =>
    match s.copyPlace c slice .write a with
    | (.fault r lv, s1) => (.park a r lv, s1)
    | (.prot _ _, s1) => (.fail 17, s1)
    | (.ok key, s1) => if isRemote key && !s1.linked then (.fail 18, s1) else (.ok key, s1)

-- Positions of the box.
/-- Indices of a row and column that may lie outside: the highest dimension takes what is left (R229). -/
def Geom.splitFar (g : Geom) (row col : Nat) : List Nat :=
  if g.ndm1 ≤ 1 then [col, row, 0, 0]
  else if g.ndm1 = 2 then [col, row % g.ext 1, row / g.ext 1, 0]
  else [col, row % g.ext 1, row / g.ext 1 % g.ext 2, row / g.ext 1 / g.ext 2]
def Geom.clampTo (g : Geom) (i : List Nat) : List Nat :=
  (List.range 4).map (fun d => Nat.min (i.getD d 0) (g.ext d - 1))
def Geom.inside (g : Geom) (row col : Nat) : Bool := col < g.ext 0 && row < g.rows

def box (c : Copy) : List (Nat × Nat) :=
  (List.range c.rows).flatMap (fun i => (List.range c.cols).map (fun j => (i, j)))

/-- The bitmap of a sparse tensor, as the engine reads it. -/
def State.mapBytes (s : State) (c : Copy) (slice : Nat) (g : Geom) : Nat → Got × State
  | 0 => (.ok [], s)
  | n + 1 =>
    match s.mapBytes c slice g n with
    | (.ok b, s1) =>
      match s1.getBytes c slice ((g.locOf slice .map).add n) 1 with
      | (.ok x, s2) => (.ok (b ++ x), s2)
      | r => r
    | r => r

/-- Both tensors are sparse: blocks are moved packed (R231). -/
def packedCopy (c : Copy) : Bool := (geomOf c.src).sp && (geomOf c.dst).sp

/-- Where a block starts in its plane: column and row (R211). -/
def Geom.blockAt (g : Geom) (b : Nat) : Nat × Nat :=
  (b % ceilDiv (g.ext 0) 8 * 8, b / ceilDiv (g.ext 0) 8 % ceilDiv (g.ext 1) 8 * 8)
/-- The row of a plane and block row at which an element of a block lies, and its column, held inside the extents; and whether it is an
element of the tensor, not padding (R211). -/
def Geom.elemAt (g : Geom) (b e : Nat) : Nat × Nat × Bool :=
  let at_ := g.blockAt b
  let i0 := at_.1 + e % 8
  let i1 := at_.2 + e / 8
  (Nat.min i1 (g.ext 1 - 1) + b / ceilDiv (g.ext 0) 8 / ceilDiv (g.ext 1) 8 * g.ext 1, Nat.min i0 (g.ext 0 - 1),
    decide (i0 < g.ext 0) && decide (i1 < g.ext 1))
/-- The source blocks that hold elements of a destination block of a packed copy. A plane of the source that is no whole number of
blocks high may shift the rows, and then there are several. -/
def srcBlocks (c : Copy) (b : Nat) : List Nat :=
  let f := geomOf c.src
  ((List.range 64).filterMap (fun e =>
    let p := (geomOf c.dst).elemAt b e
    let row := c.srow + p.1
    let col := c.scol + p.2.1
    if p.2.2 && f.inside row col then some (f.block (f.split row col)) else none)).dedup

/-- Destination blocks that will be present: those with an element of a present block (R231). DEDUCED: log entry 29. -/
def presentBlocks (c : Copy) (bm : List Byte) : List Nat :=
  (List.range (geomOf c.dst).blocks).filter (fun b => (srcBlocks c b).any (bitOf bm))

/-- Element index in the destination's storage of a box element (never sparse here). -/
def dstIndex (c : Copy) (i j : Nat) : Nat := ((geomOf c.dst).index [] ((geomOf c.dst).split (c.drow + i) (c.dcol + j))).getD 0

/-- Source of a box element: an element of the source's storage, or a constant: the zero point of a group (by its
number), or zero (R211, R229). -/
inductive Src where
  | at_ (idx : Nat)
  | zeroPoint (g : Nat)
  | zero
  deriving DecidableEq, Repr

def srcOf (c : Copy) (bm : List Byte) (i j : Nat) : Src :=
  let f := geomOf c.src
  let row := c.srow + i
  let col := c.scol + j
  let out (ix : List Nat) : Src := if f.gsz = 0 then .zero else .zeroPoint (f.group ix)
  if f.inside row col then
    match f.index bm (f.split row col) with
    | some n => .at_ n
    | none => out (f.split row col)
  else out (f.clampTo (f.splitFar row col))

/-- Source of element e of destination block b of a packed copy: that of the box's element (R229), or the zero of padding (R211). -/
def packedSrc (c : Copy) (bm : List Byte) (b e : Nat) : Src :=
  let f := geomOf c.src
  let p := (geomOf c.dst).elemAt b e
  if p.2.2 then srcOf c bm p.1 p.2.1
  else if f.gsz = 0 then .zero
  else .zeroPoint (f.group (f.clampTo (f.splitFar (c.srow + p.1) (c.scol + p.2.1))))

/-- The elements that one request moves, as (index in the destination, source). -/
structure Move where
  dst : Nat
  src : Src
  deriving DecidableEq, Repr

/-- All moves of a copy's elements, with the source's bitmap. -/
def moves (c : Copy) (bm : List Byte) : List Move :=
  if packedCopy c then
    (presentBlocks c bm).zipIdx.flatMap (fun p => (List.range 64).map (fun e =>
      { dst := p.2 * 64 + e, src := packedSrc c bm p.1 e }))
  else (box c).map (fun p => { dst := dstIndex c p.1 p.2, src := srcOf c bm p.1 p.2 })

/-- The line by which a move belongs to a request (R237): of the destination, or of the source where the destination is
flash. A move without a source line goes with line 2^100. -/
def moveLine (c : Copy) (slice : Nat) (m : Move) : Nat :=
  let f := geomOf c.src
  let g := geomOf c.dst
  if g.kind = 4 then
    match m.src with
    | .at_ n => ((f.locOf slice .elem).add (f.byteOf n)).line
    | _ => 2 ^ 100
  else ((g.locOf slice .elem).add (g.byteOf m.dst)).line

/-- Destination groups that the box touches, with the source group that fills each (R231). -/
def groupPairs (c : Copy) : List (Nat × Nat) :=
  let f := geomOf c.src
  let g := geomOf c.dst
  if g.gsz = 0 then []
  else
    (box c).foldl (fun acc p =>
      let a := g.group (g.split (c.drow + p.1) (c.dcol + p.2))
      if acc.any (fun x => x.1 == a) then acc
      else acc ++ [(a, f.group (f.clampTo (f.splitFar (c.srow + p.1) (c.scol + p.2))))]) []

/-- No source block. -/
def noBlock : Nat := 2 ^ 60
/-- Byte of group n in a scale or zero-point array. -/
def sideByte (g : Geom) (k : ReqKind) (n : Nat) : Nat :=
  if k = .scale then 2 * n else if k = .map then n / 8 else if g.fmt = 2 then n else n / 2

/-- Line of a scale, zero-point or bitmap item: of the destination's array, or of the source's where the destination is
flash. -/
def sideLine (c : Copy) (slice : Nat) (k : ReqKind) (p : Nat × Nat) : Nat :=
  let f := geomOf c.src
  let g := geomOf c.dst
  if g.kind = 4 then ((f.locOf slice k).add (sideByte f k p.2)).line
  else ((g.locOf slice k).add (sideByte g k p.1)).line

/-- Destination and source numbers of the items of a side array that a copy moves. A bit of the bitmap is first cleared, from `noBlock`,
and then set for each source block that is present; to flash it starts clear. -/
def sidePairs (c : Copy) (k : ReqKind) : List (Nat × Nat) :=
  match k with
  | .scale | .zpt => groupPairs c
  | .map =>
    if packedCopy c then (List.range (geomOf c.dst).blocks).flatMap (fun b =>
      let xs := (srcBlocks c b).map (fun x => (b, x))
      if (geomOf c.dst).kind = 4 && !xs.isEmpty then xs else (b, noBlock) :: xs)
    else []
  | .elem => []

/-- The source's bitmap as it stands at issue, where it can be read; otherwise every block may be present. -/
def State.mapNow (s : State) (c : Copy) (slice : Nat) : List Byte :=
  let f := geomOf c.src
  let n := if f.sp then f.sizes.getD 3 0 else 0
  match (s.mapBytes c slice f n).1 with
  | .ok b => b
  | _ => List.replicate n 0xFF#8

/-- The lines that a copy's elements lie in (R237). DEDUCED: log entry 29. -/
def elemLines (c : Copy) (slice : Nat) (bm : List Byte) : List Nat := ((moves c bm).map (moveLine c slice)).dedup

/-- The requests of a copy (R237). -/
def requestsOf (c : Copy) (slice : Nat) (bm : List Byte) : List Req :=
  let side (k : ReqKind) : List (ReqKind × Nat) := (((sidePairs c k).map (sideLine c slice k)).dedup).map (fun l => (k, l))
  let all := (elemLines c slice bm).map (fun l => (ReqKind.elem, l)) ++ side .scale ++ side .zpt ++ side .map
  all.zipIdx.map (fun p => { id := p.2, kind := p.1.1, line := p.1.2 })

-- One request.
/-- What a request found: it parks, it fails leaving the destination as it is, or it writes bytes at keys; with `bad`
they are zero and poisoned. -/
inductive ReqOut where
  | park (va reason level : Nat) (kind : AccKind)
  | fail (reason : Nat)
  | write (ws : List (Nat × List Byte)) (bad : Option (Nat × Bool))
  deriving DecidableEq, Repr

/-- Add one item to what a request writes. -/
def ReqOut.join (o : ReqOut) (key : Nat) (bytes : List Byte) (bad : Option (Nat × Bool)) : ReqOut :=
  match o with
  | .write ws b => .write (ws ++ [(key, bytes)]) (if b.isSome then b else bad)
  | x => x

/-- The bytes of an element that another move may share (two 4-bit elements of a byte, eight bits of a bitmap): of the request itself; in
a copy to flash, which writes every bit of its bytes, of an earlier request, or zero; else as they lie in memory. -/
def oldBytes (s : State) (c : Copy) (slice : Nat) (o : ReqOut) (key n : Nat) : List Byte :=
  let held := if (geomOf c.dst).kind = 4 then
      (List.range n).map (fun i => (((s.copyAt slice c.id).bind (fun x => mget x.out (key + i))).map (·.1)).getD 0)
    else peeks s.mem key n
  match o with
  | .write ws _ => ((ws.reverse.find? (fun w => w.1 == key)).map (·.2)).getD held
  | _ => held

def takeNibble (n : Nat) (b : List Byte) : Nat := leNat b / 16 ^ (n % 2) % 16

/-- Zero point of a source group, as the engine reads it. -/
def State.zeroPointOf (s : State) (c : Copy) (slice n : Nat) : Got × Nat × State :=
  let f := geomOf c.src
  let (g, s1) := s.getBytes c slice ((f.locOf slice .zpt).add (sideByte f .zpt n)) 1
  match g with
  | .ok b => (.ok b, if f.fmt = 2 then leNat b else takeNibble n b, s1)
  | x => (x, 0, s1)

/-- The value of a move's source. -/
def State.srcVal (s : State) (c : Copy) (slice : Nat) (m : Src) : Got × Nat × State :=
  let f := geomOf c.src
  match m with
  | .zero => (.ok [], 0, s)
  | .zeroPoint n => s.zeroPointOf c slice n
  | .at_ n =>
    let (g, s1) := s.getBytes c slice ((f.locOf slice .elem).add (f.byteOf n)) f.nbytes
    match g with
    | .ok b => (.ok b, f.take n b, s1)
    | x => (x, 0, s1)

/-- Gather the elements of a request. -/
def State.gatherElems (s : State) (c : Copy) (slice : Nat) (o : ReqOut) : List Move → ReqOut × State
  | [] => (o, s)
  | m :: r =>
    let g := geomOf c.dst
    match s.srcVal c slice m.src with
    | (.park va rs lv, _, s1) => (.park va rs lv .read, s1)
    | (.fail 17 _, _, s1) => (.fail 17, s1)
    | (got, v, s1) =>
      match s1.putPlace c slice ((g.locOf slice .elem).add (g.byteOf m.dst)) with
      | (.park va rs lv, s2) => (.park va rs lv .write, s2)
      | (.fail rs, s2) => (.fail rs, s2)
      | (.ok key, s2) =>
        let bad := match got with
          | .fail rs t => some (rs, t)
          | _ => none
        s2.gatherElems c slice (o.join key (g.put m.dst v (oldBytes s2 c slice o key g.nbytes)) bad) r

/-- One item of a side array: two bytes of a scale, a zero point, or a bitmap bit. -/
def sidePut (f g : Geom) (k : ReqKind) (p : Nat × Nat) (src old : List Byte) : List Byte :=
  match k with
  | .scale | .elem => src
  | .zpt =>
    if g.fmt = 2 then src
    else [BitVec.ofNat 8 (if p.1 % 2 = 0 then leNat old / 16 * 16 + takeNibble p.2 src
      else leNat old % 16 + takeNibble p.2 src * 16)]
  | .map =>
    [BitVec.ofNat 8 (if p.2 = noBlock then clearBit (leNat old) (p.1 % 8)
      else if f.sp && (leNat src).testBit (p.2 % 8) then setBit (leNat old) (p.1 % 8) else leNat old)]

def State.gatherSide (s : State) (c : Copy) (slice : Nat) (k : ReqKind) (o : ReqOut) : List (Nat × Nat) → ReqOut × State
  | [] => (o, s)
  | p :: r =>
    let f := geomOf c.src
    let g := geomOf c.dst
    let n := if k = .scale then 2 else 1
    let (got, s1) := if k = .map && p.2 = noBlock then (Got.ok [0], s)
      else s.getBytes c slice ((f.locOf slice k).add (sideByte f k p.2)) n
    match got with
    | .park va rs lv => (.park va rs lv .read, s1)
    | .fail 17 _ => (.fail 17, s1)
    | got =>
      match s1.putPlace c slice ((g.locOf slice k).add (sideByte g k p.1)) with
      | (.park va rs lv, s2) => (.park va rs lv .write, s2)
      | (.fail rs, s2) => (.fail rs, s2)
      | (.ok key, s2) =>
        let (b, bad) := match got with
          | .ok b => (b, none)
          | .fail rs t => (List.replicate n 0, some (rs, t))
          | .park _ _ _ => ([], none)
        s2.gatherSide c slice k (o.join key (sidePut f g k p b (oldBytes s2 c slice o key n)) bad) r

/-- What a request has found, with a failure of the bitmap that it needed: it carries over to what it writes.
DEDUCED: log entry 29. -/
def ReqOut.spoil (o : ReqOut) (reason : Nat) (tag : Bool) : ReqOut :=
  match o with
  | .write ws none => .write ws (some (reason, tag))
  | x => x

/-- An NVMe command exceeds the timeout, or fails, or there is no drive to take it (R370, R377): whatever the request found, its
status is 0x0212, and its destination bytes, where they are mapped, are zero and poisoned. `blank` are those of a request that found
nothing to write. -/
def ReqOut.timedOut (o : ReqOut) (blank : List (Nat × List Byte)) : ReqOut :=
  match o with
  | .write ws _ => .write ws (some (18, false))
  | .fail _ | .park _ _ _ _ => if blank.isEmpty then .fail 18 else .write blank (some (18, false))
/-- What a request of a copy that no drive can serve has found (R370). -/
def ReqOut.noDrive (o : ReqOut) : ReqOut :=
  match o with
  | .park _ _ _ _ => o
  | x => x.timedOut []

/-- The moves of one request. Those whose line no request concerns, since the bitmap could not be read when the requests were made,
go with the first. -/
def reqMoves (c : Copy) (slice : Nat) (bm : List Byte) (q : Req) : List Move :=
  let ls := (c.reqs.filter (·.kind == .elem)).map (·.line)
  (moves c bm).filter (fun m =>
    let l := moveLine c slice m
    l == q.line || (ls.head? == some q.line && !ls.contains l))

/-- The destination bytes of a request to flash, whatever it finds of its source (R377). -/
def State.flashBytes (s : State) (c : Copy) (slice : Nat) (q : Req) : List (Nat × List Byte) :=
  let g := geomOf c.dst
  let put (l : Loc) (n : Nat) : Option (Nat × List Byte) :=
    match (s.putPlace c slice l).1 with
    | .ok key => some (key, List.replicate n 0)
    | _ => none
  if g.kind != 4 then []
  else
    match q.kind with
    | .elem => (reqMoves c slice (s.mapNow c slice) q).filterMap (fun m => put ((g.locOf slice .elem).add (g.byteOf m.dst)) g.nbytes)
    | k => ((sidePairs c k).filter (fun p => sideLine c slice k p == q.line)).filterMap (fun p =>
        put ((g.locOf slice k).add (sideByte g k p.1)) (if k = .scale then 2 else 1))

/-- What a request has found, how many elements it moves, and how many bytes of the source it reads. -/
structure Tried where
  out   : ReqOut
  moved : Nat := 0
  read  : Nat := 0
  deriving DecidableEq, Repr

/-- Source bytes of moves: elements, and zero points. -/
def readOf (c : Copy) (ms : List Move) : Nat :=
  let f := geomOf c.src
  ((ms.flatMap (fun m => match m.src with
    | .at_ n => (List.range f.nbytes).map (· + f.byteOf n)
    | _ => [])).dedup).length +
  ((ms.filterMap (fun m => match m.src with
    | .zeroPoint n => some (sideByte f .zpt n)
    | _ => none)).dedup).length
/-- Source bytes of the items of a side array. -/
def sideRead (c : Copy) (k : ReqKind) (ps : List (Nat × Nat)) : Nat :=
  (((ps.filter (fun p => p.2 != noBlock)).map (fun p => sideByte (geomOf c.src) k p.2)).dedup).length * (if k = .scale then 2 else 1)

/-- A copy names a drive or a namespace that is not usable: its requests fail with reason 18 (R370). -/
def Copy.lost (c : Copy) : Bool :=
  [geomOf c.src, geomOf c.dst].any (fun f => f.kind == 4 && !flashOk (flashKey (f.base / 2 ^ 60) (f.base / 2 ^ 48 % 4096) 0))

/-- Try one request of a copy. A bitmap that is poisoned or in error counts as all present, and the request writes zero and
poison (R237). The bitmap of a copy that is not packed is read once, with the first request. -/
def State.tryReq (s : State) (c : Copy) (slice : Nat) (q : Req) : Tried × State :=
  let f := geomOf c.src
  let n := if f.sp then f.sizes.getD 3 0 else 0
  let own (o : ReqOut) : ReqOut := if c.lost then o.noDrive else o
  match q.kind with
  | .elem =>
    match s.mapBytes c slice f n with
    | (.park va r lv, s1) => ({ out := .park va r lv .read }, s1)
    | (.fail 17 _, s1) => ({ out := own (.fail 17) }, s1)
    | (.fail r t, s1) =>
      let ms := reqMoves c slice (List.replicate n 0xFF#8) q
      let (o, s2) := s1.gatherElems c slice (.write [] none) ms
      ({ out := own (o.spoil r t), moved := ms.length, read := readOf c ms }, s2)
    | (.ok bm, s1) =>
      let ms := reqMoves c slice bm q
      let (o, s2) := s1.gatherElems c slice (.write [] none) ms
      ({ out := own o, moved := ms.length, read := readOf c ms + (if q.id = 0 && !packedCopy c then n else 0) }, s2)
  | k =>
    let ps := (sidePairs c k).filter (fun p => sideLine c slice k p == q.line)
    let (o, s1) := s.gatherSide c slice k (.write [] none) ps
    ({ out := own o, read := sideRead c k ps }, s1)

/-- Bits that a request counts down (R234): those of its elements; a packed copy counts in one part. -/
def partOf (c : Copy) (moved : Nat) : Nat := if packedCopy c then 0 else moved * (geomOf c.dst).bits
def Copy.dense (c : Copy) : Nat := c.rows * c.cols * (geomOf c.dst).bits / 8

/-- Park a request (R237): in the replay queue, or held when that is full; one that finds both taken goes back to be
issued again. Its fault is recorded, whatever the fault mode. -/
def State.parkReq (s : State) (c : Copy) (slice req va reason level : Nat) (kind : AccKind) : State :=
  let x := s.slice slice
  let s1 :=
    if x.replay.length < 16 then s.setSlice slice { x with replay := x.replay ++ [(c.id, req)] }
    else if x.held.isNone then s.setSlice slice { x with held := some (c.id, req) }
    else s.modCopy slice c.id (fun y => { y with
      reqs := y.reqs.map (fun q => if q.id = req then { q with issued := false } else q) })
  let (n, s1) := fresh s1
  let s1 := s1.modCopy slice c.id (fun y => { y with
    reqs := y.reqs.map (fun q => if q.id = req then { q with pair := none, stamp := n } else q) })
  s1.recordFault (spaceKey c.vf c.asid) slice va reason level kind true

/-- Scope at which a copy's bytes become visible (R234). -/
def dstScope (kind : Nat) : Scope := if kind = 1 then .cluster else if kind = 2 then .slice else .device

/-- Make a request's writes, visible at the destination's scope. A line that is written whole from clean data becomes
clean; broken data poison it (R216, R234, R237). -/
def State.commitReq (s : State) (slice : Nat) (kind : Nat) (ws : List (Nat × List Byte)) (bad : Option (Nat × Bool)) :
    Map Nat × State :=
  let (pub, s1) := ws.foldl (fun (a : Map Nat × State) w =>
    let bytes := if bad.isSome then List.replicate w.2.length 0 else w.2
    (viewRange w.1 a.2.nextId bytes.length a.1, a.2.write w.1 bytes slice 0 none none 0)) ([], s)
  let lines := (pub.map (fun (p : Nat × Nat) => p.1 / 64)).dedup
  let s2 := match bad with
    | some (_, t) => lines.foldl (fun (s : State) l => s.setPoison l t) s1
    | none => (lines.filter (fun l => (pub.filter (fun (p : Nat × Nat) => p.1 / 64 == l)).length == 64)).foldl (fun (s : State) l => s.clean l) s1
  (pub, s2.addEngine slice (dstScope kind) pub)

/-- Count a counter down (R238, R273), in 64-bit signed arithmetic; a failure is recorded once. `by_` is the thread that
issued a matrix command (R274). -/
def State.countDown (s : State) (tn c n : Nat) (status : Option Nat) (pub : Map Nat) (by_ : Option Nat) : State :=
  s.modTask tn (fun t =>
    let x := mgetD t.counters c {}
    let own := match by_ with
      | some thx => mset x.own thx (viewJoin pub (mgetD x.own thx []))
      | none => x.own
    let y : Counter := {
      val := (BitVec.ofInt 64 (x.val - n)).toInt, status := if x.status = 0 then status.getD 0 else x.status
      pub := viewJoin pub x.pub, own := own }
    { t with counters := mset t.counters c y })

/-- A copy lands: its slot is free (R227), and a COPY packet completes. -/
def State.landCopy (s : State) (slice : Nat) (c : Copy) : State :=
  let s1 := { s.modSlice slice (fun x => { x with copies := x.copies.filter (fun y => y.id != c.id) }) with
    landed := mset s.landed c.id { wrote := c.wrote, failed := c.failed, slice := slice, at_ := s.cycle slice } }
  match c.packet with
  | some (vf, rnum, idx) => s1.modReel (reelKey vf rnum) (fun r => { r with results := mset r.results idx 0 })
  | none => s1

/-- Count down what has fallen, and land the copy after its last request (R234). -/
def State.settleCopy (s : State) (slice id : Nat) (pub : Map Nat) (status : Option Nat) : State :=
  match s.copyAt slice id with
  | none => s
  | some c =>
    let all := c.reqs.all (·.done)
    let sum := ((c.reqs.filter (·.done)).map (·.part)).sum / 8
    let now := if all then c.dense else if c.dense ≤ sum then c.counted else sum
    let c1 : Copy := { c with
      counted := now, wrote := viewJoin pub c.wrote, failed := if c.failed.isSome then c.failed else status }
    let s1 := s.modCopy slice id (fun _ => c1)
    let s2 := match c.ctr, c.task with
      | some k, some tn => s1.countDown tn k (now - c.counted) (status.map (fun r => 512 + r)) pub none
      | _, _ => s1
    if all then s2.landCopy slice c1 else s2

def markReq (c : Copy) (req : Nat) (f : Req → Req) : Copy := { c with reqs := c.reqs.map (fun q => if q.id = req then f q else q) }

-- What holds a request back.
def State.spent (s : State) (vf cluster : Nat) : Nat × Nat × Nat := mgetD s.budget (budgetKey vf cluster) (0, 0, 0)
/-- The budgets that a copy charges are not spent (R228): memory bytes go to the virtual function, flash bytes to the cluster
(R382). -/
def State.mayCharge (s : State) (c : Copy) (slice : Nat) : Bool :=
  let has (k : Nat) : Bool := (geomOf c.src).kind == k || (geomOf c.dst).kind == k
  (!has 0 || (s.spent c.vf (slice / 6)).1 < (s.vf c.vf).copyCap) &&
  (!has 4 || s.cellSpent (slice / 6) < (s.cluster (slice / 6)).cellCap)
/-- What a request charges: bytes of memory, and bytes of flash (R228, R371). -/
def reqCharge (c : Copy) (read written : Nat) : Nat × Nat :=
  let k (x : Nat) : Nat := (if (geomOf c.src).kind = x then read else 0) + (if (geomOf c.dst).kind = x then written else 0)
  (k 0, k 4)
def ReqOut.written (o : ReqOut) : Nat :=
  match o with
  | .write ws _ => ((ws.flatMap (fun w => (List.range w.2.length).map (· + w.1))).dedup).length
  | _ => 0
def State.charge (s : State) (c : Copy) (slice : Nat) (x : Tried) : State :=
  let (m, f) := reqCharge c x.read x.out.written
  let b := s.spent c.vf (slice / 6)
  { s with budget := mset s.budget (budgetKey c.vf (slice / 6)) (b.1 + m, b.2.1 + f, b.2.2) }

/-- The drive that a copy reads or writes. -/
def Copy.drive (c : Copy) : Option Nat :=
  if (geomOf c.src).kind = 4 then some ((geomOf c.src).base / 2 ^ 60)
  else if (geomOf c.dst).kind = 4 then some ((geomOf c.dst).base / 2 ^ 60)
  else none
/-- Commands in an I/O queue pair: pair p of drive d is number 8 × d + p. -/
def State.pairLoad (s : State) (p : Nat) : Nat :=
  ((s.slices.flatMap (fun x => x.2.copies)).map (fun c => (c.reqs.filter (fun q => q.pair == some p && !q.done)).length)).sum
/-- The pairs of a drive with room: 8 pairs of depth 1,024 (R370). -/
def State.pairsOpen (s : State) (d : Nat) : List Nat := ((List.range 8).map (· + 8 * d)).filter (fun p => s.pairLoad p < 1024)
/-- A request of the copy may issue now. -/
def State.mayIssue (s : State) (c : Copy) (slice : Nat) : Bool :=
  s.mayCharge c slice && (c.drive.elim true (fun d => !(s.pairsOpen d).isEmpty))

/-- Issue a request: it parks, or it is on its way (R237), in one of the drive's queue pairs where it concerns flash. -/
def State.issueReq (s : State) (slice : Nat) (c : Copy) (q : Req) : State :=
  let (pair, s0) : Option Nat × State := match c.drive with
    | some d =>
      let ps := s.pairsOpen d
      let (i, s0) := choose s ps.length
      (ps[i]?, s0)
    | none => (none, s)
  let s1 := s0.modCopy slice c.id (fun c => markReq c q.id (fun x => { x with issued := true, pair := pair }))
  match s1.tryReq c slice q with
  | (x, s2) =>
    match x.out with
    | .park va r lv kind => s2.parkReq c slice q.id va r lv kind
    | _ => s2.charge c slice x

/-- A 4,096-byte block of which every byte has been gathered. -/
def wholeBlock (out : Map (Byte × Nat)) (b : Nat) : Bool := ((out.filter (fun p => p.1 / 4096 == b)).length == 4096)

/-- Write gathered blocks to flash: each at once, whole (R377), with the poison of its lines. -/
def State.writeBlocks (s : State) (slice : Nat) (out : Map (Byte × Nat)) : Map Nat × State :=
  ((out.map (fun p => p.1 / 4096)).dedup).foldl (fun (a : Map Nat × State) b =>
    let ps := out.filter (fun p => p.1 / 4096 == b)
    let old := peeks a.2.mem (4096 * b) 4096
    let new := ps.foldl (fun m p => m.set (p.1 % 4096) p.2.1) old
    let s1 := a.2.write (4096 * b) new slice 0 none none 0
    let lines := (ps.map (fun p => p.1 / 64)).dedup
    let s2 := lines.foldl (fun (s : State) l =>
      let here := ps.filter (fun p => p.1 / 64 == l)
      match here.foldl (fun m p => Nat.max m (p.2.2 % 4)) 0 with
      | 0 => if here.length = 64 then s.clean l else s
      | n => s.setPoison l (n == 2)) s1
    (viewRange (4096 * b) a.2.nextId 4096 a.1, s2)) ([], s)

/-- A request to flash has its bytes: they wait in the engine until their block is whole, and what is left goes to flash
with the last request. A block's elements count when its write has completed (R234, R371). Into a wheel that has been opened meanwhile
nothing is written (R376). -/
def State.gatherOut (s : State) (slice : Nat) (c : Copy) (q : Req) (ws : List (Nat × List Byte)) (bad : Option (Nat × Bool)) :
    State :=
  let mark : Nat := (match bad with
    | some (_, t) => if t then 2 else 1
    | none => 0) + (if q.kind = .elem then 4 else 0)
  let add (m : Map (Byte × Nat)) (w : Nat × List Byte) : Map (Byte × Nat) :=
    (w.2.zipIdx).foldl (fun m b => mset m (w.1 + b.2) (if bad.isSome then 0 else b.1, mark)) m
  match s.copyAt slice c.id with
  | none => s
  | some x =>
    let out := ws.foldl add x.out
    let last := x.reqs.all (fun r => r.done || r.id == q.id)
    let go := if last then out else out.filter (fun p => wholeBlock out (p.1 / 4096))
    let shut (p : Nat × Byte × Nat) : Bool := s.wheels.any (fun w => w.2.covers p.1 0)
    let (pub, s1) := s.writeBlocks slice (go.filter (fun p => !shut p))
    let n := (go.filter (fun p => p.2.2 / 4 == 1)).length
    let s2 := s1.modCopy slice c.id (fun y => { markReq y q.id (fun r => { r with
        done := true, part := if packedCopy c then 0 else 8 * n }) with
      out := out.filter (fun p => !go.any (fun g => g.1 == p.1)) })
    (s2.addEngine slice .device pub).settleCopy slice c.id pub
      ((bad.map (·.1)).orElse fun _ => if go.any shut then some 17 else none)

/-- Complete a request with what it found. -/
def State.completeReq (s : State) (slice : Nat) (c : Copy) (q : Req) (o : ReqOut) (moved : Nat) : State :=
  let kind := (geomOf c.dst).kind
  let fin (s : State) : State := s.modCopy slice c.id (fun c => markReq c q.id (fun x => { x with done := true, part := partOf c moved }))
  match o with
  | .park va r lv k => s.parkReq c slice q.id va r lv k
  | .fail r => if kind = 4 then s.gatherOut slice c q [] (some (r, false)) else (fin s).settleCopy slice c.id [] (some r)
  | .write ws bad =>
    if kind = 4 then s.gatherOut slice c q ws bad
    else
      let (pub, s1) := (fin s).commitReq slice kind ws bad
      s1.settleCopy slice c.id pub (bad.map (·.1))

/-- A replayed request issues again, or waits until the budgets allow it (R228). -/
def State.reissue (s : State) (slice : Nat) (p : Nat × Nat) : State :=
  match s.copyAt slice p.1 with
  | some c =>
    match c.reqs.find? (fun r => r.id == p.2) with
    | some r =>
      if s.mayIssue c slice then s.issueReq slice c r
      else
        let (n, s1) := fresh s
        (s1.modCopy slice c.id (fun c => markReq c r.id (fun x => { x with issued := false, stamp := n }))).modSlice slice
          (fun x => { x with again := x.again ++ [p] })
    | none => s
  | none => s

/-- Replay-all reissues the parked requests of an address space on one slice, in parking order, then the held one; the
held request of another space enters an entry that has been freed (R237, R328). -/
def State.replaySlice (s : State) (space slice : Nat) : State :=
  let x := s.slice slice
  let mine (p : Nat × Nat) : Bool := x.copies.any (fun c => c.id == p.1 && c.of space)
  let go := x.replay.filter mine ++ x.held.toList.filter mine
  let s1 := s.setSlice slice ({ x with replay := x.replay.filter (fun p => !mine p), held := x.held.filter (fun p => !mine p) } : Slice).settleHeld
  go.foldl (fun s p => s.reissue slice p) s1

/-- Requests that a replay has released keep their order within a virtual function (R237). -/
def Slice.turnOf (x : Slice) (c : Copy) (req : Nat) : Bool :=
  !x.again.contains (c.id, req) ||
  (x.again.find? (fun p => x.copies.any (fun d => d.id == p.1 && d.vf == c.vf))) == some (c.id, req)

end Sys2Proof.Machine
end

