-- ==== Sys2Proof/Machine/Copies.lean ====
section
/-! DEFINITION. `cpy`, `cpyl`, copy slots and requests (R227 to R237), counters (R238) and batches (R240, R241). -/

namespace Sys2Proof.Machine

/-- Detail of a refusal by the copy engine (R235). -/
def copyCause (reason index id row : Nat) : Cause := mkCause 8 (512 + reason) (index * 256 + id % 256) (sat32 row)

/-- The pairs of kinds of R230. -/
def pairOk (user : Bool) (f g : Nat) : Bool :=
  if f = 0 || f = 1 then g = 0 || g = 1 || g = 2 || (g = 4 && !user)
  else if f = 2 then g = 0 || g = 1 || g = 2
  else if f = 4 then g = 0 || g = 1
  else false

/-- The copy that a request describes, before its requests are made. -/
def State.copyOf (s : State) (e id : Nat) (q : CopyReq) (a b : List Word) : Copy :=
  let sp := s.spaceOf e
  let g := geomOf b
  { id := id, task := some (s.taskNo e), vf := sp / 16384, asid := sp % 16384, user := s.modeOf e == .u
    hyp := s.modeOf e == .h, src := a, dst := b, stid := q.stid, dtid := q.dtid, srow := q.srow, scol := q.scol
    drow := q.drow, dcol := q.dcol, rows := g.trows, cols := g.tcols, ctr := some q.ctr, reqs := [] }

/-- Rows from one index of a dimension to the next. -/
def Geom.step (g : Geom) (d : Nat) : Nat := if d = 1 then 1 else if d = 2 then g.ext 1 else g.ext 1 * g.ext 2

/-- Row i of the box stands where its group allows, along an axis above 0: at a group boundary of both tensors, or behind
the row before it in both; and before the next row, unless it ends its group or the source (R231). -/
def rowFits (c : Copy) (i : Nat) : Bool :=
  let f := geomOf c.src
  let g := geomOf c.dst
  let n := f.step f.gax
  let a := (f.splitFar (c.srow + i) 0).getD f.gax 0
  let d := (g.splitFar (c.drow + i) 0).getD f.gax 0
  a % f.gsize == d % f.gsize &&
  (a % f.gsize == 0 ||
    (n ≤ i && g.splitFar (c.drow + (i - n)) 0 == (g.splitFar (c.drow + i) 0).set f.gax (d - 1))) &&
  ((a + 1) % f.gsize == 0 || a + 1 == f.ext f.gax || i + n < c.rows)

/-- The box starts at a group boundary in both tensors, and spans whole groups or ends at the source's last element
along the group axis (R231). -/
def groupsFit (c : Copy) : Bool :=
  let f := geomOf c.src
  f.gsz == 0 ||
  (if f.gax = 0 then
    c.scol % f.gsize == 0 && c.dcol % f.gsize == 0 && (c.cols % f.gsize == 0 || c.scol + c.cols == f.ext 0)
  else (List.range c.rows).all (rowFits c))

/-- Items of `width` bits, by number, fill every block of 4,096 bytes that they touch. -/
def fillsBlocks (width : Nat) (ix : List Nat) : Bool :=
  let bs := ix.dedup.map (fun n => n * width / 32768)
  bs.dedup.all (fun b => (bs.filter (· == b)).length * width == 32768)
/-- A copy to flash writes whole blocks of 4,096 bytes (R371): of elements, packed where the destination is sparse, and of scales, zero
points and bitmap. `bm` is the source's bitmap. DEDUCED: log entry 29. -/
def blocksFit (c : Copy) (bm : List Byte) : Bool :=
  let g := geomOf c.dst
  g.kind != 4 ||
  (fillsBlocks g.bits ((moves c bm).map (·.dst)) && fillsBlocks 16 ((groupPairs c).map (·.1)) &&
    fillsBlocks (if g.fmt = 2 then 8 else 4) ((groupPairs c).map (·.1)) && fillsBlocks 1 ((sidePairs c .map).map (·.1)))

/-- R231. -/
def shapeOk (c : Copy) (bm : List Byte) : Bool :=
  let f := geomOf c.src
  let g := geomOf c.dst
  f.fmt == g.fmt && (f.bits != 4 || (c.scol % 2 == 0 && c.dcol % 2 == 0 && c.cols % 2 == 0)) &&
  f.gsz == g.gsz && (f.gsz == 0 || f.gax == g.gax) && groupsFit c &&
  (!g.sp || (f.sp && c.drow == 0 && c.dcol == 0 && c.rows == g.rows && c.cols == g.ext 0 && c.srow % 8 == 0 &&
    c.scol % 8 == 0)) && blocksFit c bm

/-- The refusals of R235, in their order; `taken` holds the staging slots that earlier requests of the list bind, and
`resv` tells of a nonzero reserved field. Where either operand may be at fault, the destination's tid is named, and for RANGE and SHAPE
its row. DESIGN CHOICE: log entry 56. -/
def State.copyRefusal (s : State) (e index : Nat) (q : CopyReq) (resv : Bool) (taken : List Nat) : Option Cause :=
  let tn := s.taskNo e
  match s.entryOf tn q.stid, s.entryOf tn q.dtid with
  | none, _ => some (copyCause 1 index q.stid 0)
  | _, none => some (copyCause 1 index q.dtid 0)
  | some a, some b =>
    let c := s.copyOf e 0 q a b
    let f := geomOf a
    let g := geomOf b
    let nctr := ((s.task tn).map (·.nctr)).getD 0
    let st := mget (s.slice (sliceOf e)).stages q.stg
    if !pairOk c.user f.kind g.kind then some (copyCause 2 index q.dtid 0)
    else if g.rows < q.drow + c.rows || g.ext 0 < q.dcol + c.cols then some (copyCause 3 index q.dtid q.drow)
    else if resv || !shapeOk c (if g.kind = 4 then s.mapNow c (sliceOf e) else []) then some (copyCause 4 index q.dtid q.drow)
    else if g.rdo then some (copyCause 5 index q.dtid 0)
    else if nctr ≤ q.ctr then some (copyCause 6 index q.ctr 0)
    else if q.fo && (((st.map (fun x => x.copy.isSome)).getD true) || taken.contains q.stg) then
      some (copyCause 7 index q.dtid 0)
    else none

/-- Every copy that the wave has issued, landed or not: they gate what is issued after them (R242, R271).
DEDUCED: log entry 30. -/
def State.copiesOf (s : State) (w : Nat) : List Nat := ((s.wave w).map (·.copies)).getD []

/-- A copy takes a slot (R233): it joins the open set of each lane, and binds its staging slot. -/
def State.startCopy (s : State) (ks : List Nat) (e : Nat) (q : CopyReq) : State :=
  let tn := s.taskNo e
  let sl := sliceOf e
  match s.entryOf tn q.stid, s.entryOf tn q.dtid with
  | some a, some b =>
    let (id, s1) := fresh s
    let c0 := s1.copyOf e id q a b
    let c := { c0 with reqs := requestsOf c0 sl (s1.mapNow c0 sl), floor := (s1.lane e).elim [] (fun l => s1.floorOf e l []) }
    let before := s1.copiesOf (waveOf e)
    let s2 := s1.modSlice sl (fun x => { x with
      copies := x.copies ++ [c]
      stages := if q.fo then mmod x.stages q.stg (fun y => { y with copy := some id, gates := before }) else x.stages })
    let s3 := s2.modWave (waveOf e) (fun v => { v with copies := v.copies ++ [id] })
    let s4 := if q.nb then s3 else ks.foldl (fun s k => s.modLane k (fun l => { l with openSet := l.openSet ++ [id] })) s3
    if c.reqs.isEmpty then s4.settleCopy sl id [] none else s4
  | _, _ => s

/-- The staging slot of a request is bound to another copy (R242). -/
def State.stageBound (s : State) (e : Nat) (q : CopyReq) : Bool :=
  q.fo && ((mget (s.slice (sliceOf e)).stages q.stg).map (·.copy.isSome)).getD false
/-- Start requests in list order, as far as n slots go; the rest of a list that has begun waits for a staging slot that has been bound
meanwhile (R236). DEDUCED: log entry 29. -/
def State.startCopies (s : State) (ks : List Nat) (e : Nat) : Nat → List CopyReq → List CopyReq × State
  | _, [] => ([], s)
  | 0, q => (q, s)
  | n + 1, q :: r => if s.stageBound e q then (q :: r, s) else (s.startCopy ks e q).startCopies ks e n r

def Wait.copyOf (w : Wait) : Option (Instr × List CopyReq × Bool) :=
  match w with
  | .copySlot i r b => some (i, r, b)
  | _ => Option.none
/-- A strand of the slice waits for copy slots. -/
def State.copyWaiters (s : State) (slice : Nat) : List (Nat × Lane) :=
  s.lanes.filter (fun p => sliceOf p.1 == slice && p.2.wait.copyOf.isSome)
def State.slotsFree (s : State) (slice : Nat) : Nat := 48 - (s.slice slice).copies.length

/-- Start what the free slots allow; wait for the rest, behind strands that wait already (R227, R236). -/
def State.takeSlots (s : State) (i : Instr) (ks : List Nat) (e : Nat) (qs : List CopyReq) : State × EOut :=
  let sl := sliceOf e
  if !(s.copyWaiters sl).isEmpty || s.slotsFree sl = 0 then (s, .hold (.copySlot i qs false))
  else
    match s.startCopies ks e (s.slotsFree sl) qs with
    | ([], s1) => (s1, .all [])
    | (r, s1) => (s1, .hold (.copySlot i r true))

/-- The earlier bank operations and matrix commands of the wave for which a copy waits (R224, R274). -/
def State.copyHolds (s : State) (e : Nat) (q : CopyReq) : Option Nat :=
  let tn := s.taskNo e
  if s.waveHolds tn (waveOf e) q.stid false true then some q.stid
  else if s.waveHolds tn (waveOf e) q.dtid true true then some q.dtid
  else none

/-- ( srow scol drow dcol counter -- ) -/
def execCpy (w : StallL) (fo : Bool) (stg : BitVec 2) (nb : Bool) (stid dtid : BitVec 8) (s : State) : Res :=
  let i : Instr := .cpy w fo stg nb stid dtid
  finish (runElected i (fun s ks e ops =>
    let v (n : Nat) : Nat := (ops.getD n {}).val.toNat
    let q : CopyReq := { srow := v 4, scol := v 3, drow := v 2, dcol := v 1, ctr := v 0, stid := stid.toNat
                         dtid := dtid.toNat, fo := fo, stg := stg.toNat, nb := nb }
    match s.copyRefusal e 0 q false [] with
    | some c => (s, .refuse c)
    | none =>
      match s.copyHolds e q with
      | some tid => (s, .hold (.tensor tid))
      | none => s.takeSlots i ks e [q]) s)

/-- One request of a `cpyl` list (R236), and whether a reserved field of it is nonzero. -/
def listReq (b : List Byte) : CopyReq × Bool :=
  let f (off n : Nat) : Nat := leNat ((b.drop off).take n)
  let fl := f 0x1A 1
  ({ srow := f 0 8, scol := f 8 4, dcol := f 12 4, drow := f 16 8, stid := f 0x18 1, dtid := f 0x19 1
     ctr := f 0x1C 2, fo := fl.testBit 5, stg := fl / 8 % 4, nb := fl.testBit 2 },
   fl / 64 != 0 || fl % 4 != 0 || (!fl.testBit 5 && fl / 8 % 4 != 0) || f 0x1B 1 != 0 || f 0x1E 2 != 0)

/-- Read a list, line by line, as plain loads of E (R236). -/
def readList (s : State) (e : Nat) (addr : Word) (deps : List Nat) : Nat → List Byte → (EOut ⊕ List Byte) × State
  | 0, acc => (.inr acc, s)
  | n + 1, acc =>
    match engineRead s e (addr + BitVec.ofNat 64 acc.length) 64 deps with
    | (.inl o, s1) => (.inl o, s1)
    | (.inr b, s1) => readList s1 e addr deps n (acc ++ b)

/-- The first request of a list that is refused. -/
def State.listRefusal (s : State) (e : Nat) : Nat → List Nat → List (CopyReq × Bool) → Option Cause
  | _, _, [] => none
  | index, taken, q :: r =>
    match s.copyRefusal e index q.1 q.2 taken with
    | some c => some c
    | none => s.listRefusal e (index + 1) (if q.1.fo then q.1.stg :: taken else taken) r

/-- ( laddr n -- ) -/
def execCpyl (w : StallL) (s : State) : Res :=
  let i : Instr := .cpyl w
  finish (runElected i (fun s ks e ops =>
    let n := (ops.getD 0 {}).val.toNat
    let a := ops.getD 1 {}
    if n = 0 || 64 < n then (s, .refuse (copyCause 8 0 0 0))
    else
      match readList s e a.val a.deps (ceilDiv n 2) [] with
      | (.inl o, s1) => (s1, o)
      | (.inr b, s1) =>
        let qs := (List.range n).map (fun j => listReq ((b.drop (32 * j)).take 32))
        match s1.listRefusal e 0 [] qs with
        | some c => (s1, .refuse c)
        | none =>
          match (qs.map (·.1)).findSome? (s1.copyHolds e) with
          | some tid => (s1, .hold (.tensor tid))
          | none => s1.takeSlots i ks e (qs.map (·.1))) s)

/-- Free slots go to the strand of the slice that has waited longest (R227). A strand of which no copy has started is checked
again (R226, R233): it may be refused now. DEDUCED: log entry 29. -/
def execCopySlotGrant (slice : Nat) (s : State) : Res :=
  let ls := s.copyWaiters slice
  match oldest (ls.map (fun p => (p.2.stamp, p.1))) with
  | none => .next s
  | some (st, _) =>
    let ks := (ls.filter (fun p => p.2.stamp == st)).map (·.1)
    match ks, (ls.find? (fun p => p.2.stamp == st)).bind (fun p => p.2.wait.copyOf) with
    | e :: _, some (i, qs, begun) =>
      if s.slotsFree slice = 0 then .next s
      else
        match (if begun then none else s.listRefusal e 0 [] (qs.map (fun q => (q, false)))) with
        | some c => finish (ks.foldl (fun s k => s.enterTrap k c) s)
        | none =>
          match s.startCopies ks e (s.slotsFree slice) qs with
          | ([], s1) => finish (ks.foldl (fun s k => s.passOn k i) s1)
          | (r, s1) => finish (ks.foldl (fun s k => s.modLane k (fun l => { l with wait := .copySlot i r true })) s1)
    | _, _ => .next s

/-- The engine issues a request of a copy, within its budgets and queue pairs, while no request is held (R228, R237, R370). -/
def execCopyRequestIssue (slice copy req : Nat) (s : State) : Res :=
  match s.copyAt slice copy with
  | none => .next s
  | some c =>
    match c.reqs.find? (fun q => q.id == req) with
    | none => .next s
    | some q =>
      if q.issued || (s.slice slice).held.isSome || !s.mayIssue c slice || !(s.slice slice).turnOf c req then .next s
      else finish ((s.modSlice slice (fun x => { x with again := x.again.filter (fun p => p != (copy, req)) })).issueReq slice c q)

/-- A request that is on its way lands, fails or parks (R234, R237). -/
def execCopyRequestComplete (slice copy req : Nat) (s : State) : Res :=
  match s.copyAt slice copy with
  | none => .next s
  | some c =>
    match c.reqs.find? (fun q => q.id == req) with
    | none => .next s
    | some q =>
      if !q.issued || q.done || (s.slice slice).parked copy req then .next s
      else
        let (x, s1) := s.tryReq c slice q
        finish (s1.completeReq slice c q x.out x.moved)

/-- COUNTER of `cinit` and `cwait` (R235, R238). -/
def counterCause (c : Nat) : Cause := copyCause 6 0 c 0
def State.nctr (s : State) (k : Nat) : Nat := ((s.taskOf k).map (·.nctr)).getD 0
def State.counter (s : State) (k c : Nat) : Counter := ((s.taskOf k).map (fun t => mgetD t.counters c {})).getD {}

/-- ( v -- ) -/
def execCinit (w : StallL) (c : BitVec 12) (s : State) : Res :=
  finish (runElected (.cinit w c) (fun s _ e ops =>
    if s.nctr e ≤ c.toNat then (s, .refuse (counterCause c.toNat))
    else
      (s.modTask (s.taskNo e) (fun t =>
        let x := mgetD t.counters c.toNat {}
        { t with counters := mset t.counters c.toNat { x with val := (ops.getD 0 {}).val.toInt, status := 0 } }),
       .all [])) s)

/-- What `cwait` makes the lane's later loads respect (R238, R293), and, of the matrix commands that the thread itself has
issued, what becomes its own stores (R274). -/
def State.observeCounter (s : State) (k : Nat) (x : Counter) : State :=
  let mine := mgetD x.own (((s.lane k).map (·.thx)).getD 0) []
  s.modLane k (fun l => { l with seen := viewJoin x.pub l.seen, view := viewJoin mine l.view })

/-- ( -- st ): the lane waits until the value is at most 0. -/
def execCwait (w : StallL) (c : BitVec 12) (s : State) : Res :=
  finish (runEach (.cwait w c) (fun s k _ =>
    if s.nctr k ≤ c.toNat then (s, .trap (counterCause c.toNat))
    else
      let x := s.counter k c.toNat
      if 0 < x.val then (s, .hold (.cwait c.toNat))
      else (s.observeCounter k x, .go [(BitVec.ofNat 64 x.status, [])])) s)

def execSeal (w : StallS) (n : BitVec 3) (s : State) : Res :=
  finish (runEach (.seal w n) (fun s k _ =>
    (s.modLane k (fun l => { l with
      batches := mset l.batches n.toNat (mgetD l.batches n.toNat [] ++ l.openSet), openSet := [] }), .go [])) s)

/-- Every copy of a batch has landed. -/
def State.batchLanded (s : State) (l : Lane) (n : Nat) : Bool :=
  (mgetD l.batches n []).all (fun c => (mget s.landed c).isSome)

/-- When the batch has landed, its bytes are the thread's own plain stores (R241). -/
def execWaitb (w : StallS) (n : BitVec 3) (s : State) : Res :=
  finish (runEach (.waitb w n) (fun s k _ =>
    match s.lane k with
    | none => (s, .left)
    | some l =>
      if s.batchLanded l n.toNat then
        let v := (mgetD l.batches n.toNat []).foldl (fun v c => viewJoin ((mgetD s.landed c {}).wrote) v) l.view
        (s.setLane k { l with batches := mdel l.batches n.toNat, view := v }, .go [])
      else (s, .hold (.waitb n.toNat))) s)

end Sys2Proof.Machine
end

