-- ==== Sys2Proof/Machine/Barriers.lean ====
section
/-! DEFINITION. Named barriers (R243, R244) and the saturation trap of `bar` (R34). -/

namespace Sys2Proof.Machine

/-- Detail of a refusal by the barrier engine (R244). -/
def barCause (reason b : Nat) : Cause := mkCause 8 (768 + reason) b 0
/-- ARITHMETIC SATURATE (R34, R351). -/
def satCause (t : Task) (b : Nat) : Cause := mkCause 7 (bit t.satf * 512 + bit t.sati * 256 + 1) b 0

def State.barrier (s : State) (tn b : Nat) : Barrier := ((s.task tn).map (fun t => mgetD t.barriers b {})).getD {}
def State.setBarrier (s : State) (tn b : Nat) (x : Barrier) : State :=
  s.modTask tn (fun t => { t with barriers := mset t.barriers b x })
def State.nbar (s : State) (k : Nat) : Nat := ((s.taskOf k).map (·.nbar)).getD 0

/-- The barrier and phase on which a lane waits. -/
def Wait.barOf (w : Wait) : Option (Nat × Nat) :=
  match w with
  | .bar b p | .barw b p => some (b, p)
  | _ => Option.none

/-- A departure (R244): an acquire and a boundary at the barrier's scope, and a quiescent point. -/
def State.depart (s : State) (k : Nat) (sc : Scope) : State := (s.boundary k sc).quiesce k

/-- A lane that waits at a barrier departs, and continues after its instruction. -/
def State.departWaiter (s : State) (k b : Nat) (sc : Scope) : State :=
  (s.depart k sc).modLane k (fun l => { l with
    wait := .none, pc := l.pc + 2, next := Nat.max l.next (s.cycle (sliceOf k) + 1)
    tokens := match l.wait with
      | .barw _ _ => mdel l.tokens b
      | _ => l.tokens })

/-- Every lane that waits for a phase up to `p` departs. -/
def State.completePhase (s : State) (tn b p : Nat) (sc : Scope) : State :=
  ((s.lanes.filter (fun x => s.taskNo x.1 == tn && (match x.2.wait.barOf with
    | some (b', p') => b' == b && p' ≤ p
    | none => false))).map (·.1)).foldl (fun s k => s.departWaiter k b sc) s

/-- One arrival (R244): the phase in which it arrived, and the state after it. -/
def State.arrive (s : State) (k b : Nat) : Nat × State :=
  let tn := s.taskNo k
  let x := s.barrier tn b
  let s1 := s.release k x.scope
  if x.n ≤ x.a + 1 then
    (x.phase, (s1.setBarrier tn b { x with a := 0, phase := x.phase + 1 }).completePhase tn b x.phase x.scope)
  else (x.phase, s1.setBarrier tn b { x with a := x.a + 1 })

/-- BAD_ID and UNINIT of `bar`, `bara` and `barw`. -/
def State.barRefusal (s : State) (k b : Nat) : Option Cause :=
  if s.nbar k ≤ b then some (barCause 1 b)
  else if (s.barrier (s.taskNo k) b).n = 0 then some (barCause 2 b)
  else none

/-- A lane of the task waits on the barrier, here or saved. -/
def State.barWaiters (s : State) (tn b : Nat) : Bool :=
  let on (l : Lane) : Bool := match l.wait.barOf with
    | some (b', _) => b' == b
    | none => false
  s.lanes.any (fun p => s.taskNo p.1 == tn && on p.2) ||
  ((s.task tn).map (fun t => (s.savedOf t tn).any (fun v => v.lanes.any (fun p => on p.2)))).getD false

/-- ( count -- ) -/
def execBarinit (w : StallL) (sc : Scope) (b : BitVec 5) (s : State) : Res :=
  finish (runElected (.barinit w sc b) (fun s _ e ops =>
    let n := (ops.getD 0 {}).val.toNat
    let tn := s.taskNo e
    let x := s.barrier tn b.toNat
    match s.task tn with
    | none => (s, .done)
    | some t =>
      if t.nbar ≤ b.toNat then (s, .refuse (barCause 1 b.toNat))
      else if x.a != 0 || s.barWaiters tn b.toNat then (s, .refuse (barCause 3 b.toNat))
      else if n = 0 || t.nth < n || (sc = .slice && 1 < t.members.length) then (s, .refuse (barCause 4 b.toNat))
      else (s.setBarrier tn b.toNat { x with n := n, a := 0, scope := sc }, .all [])) s)

/-- The next `bar` of a thread's task traps (R34). -/
def State.armed (s : State) (k : Nat) : Bool := ((s.taskOf k).map (fun t => t.arm && (t.sati || t.satf))).getD false

/-- SATURATE is taken by one thread, and clears ARM (R34). -/
def execBar (w : StallS) (b : BitVec 5) (s : State) : Res :=
  finish (runEach (.bar w b) (fun s k _ =>
    match s.taskOf k with
    | none => (s, .left)
    | some t =>
      if t.arm && (t.sati || t.satf) then
        (s.modTask (s.taskNo k) (fun t => { t with arm := false }), .trap (satCause t b.toNat))
      else
        match s.barRefusal k b.toNat with
        | some c => (s, .trap c)
        | none =>
          let sc := (s.barrier (s.taskNo k) b.toNat).scope
          let (p, s1) := s.arrive k b.toNat
          if p < (s1.barrier (s1.taskNo k) b.toNat).phase then (s1.depart k sc, .go [])
          else (s1, .hold (.bar b.toNat p))) s)

def execBara (w : StallS) (b : BitVec 5) (s : State) : Res :=
  finish (runEach (.bara w b) (fun s k _ =>
    match s.barRefusal k b.toNat with
    | some c => (s, .trap c)
    | none =>
      let (p, s1) := s.arrive k b.toNat
      (s1.modLane k (fun l => { l with tokens := mset l.tokens b.toNat p }), .go [])) s)

def execBarw (w : StallS) (b : BitVec 5) (s : State) : Res :=
  finish (runEach (.barw w b) (fun s k _ =>
    match s.barRefusal k b.toNat, s.lane k with
    | some c, _ => (s, .trap c)
    | none, none => (s, .left)
    | none, some l =>
      let x := s.barrier (s.taskNo k) b.toNat
      let past : Bool := ((mget l.tokens b.toNat).map (fun p => decide (p < x.phase))).getD false
      if past then
        ((s.depart k x.scope).modLane k (fun l => { l with tokens := mdel l.tokens b.toNat }), .go [])
      else (s, .hold (.barw b.toNat x.phase))) s)

end Sys2Proof.Machine
end

