-- ==== Sys2Proof/Machine/MatrixMath.lean ====
section
/-! DEFINITION. What a matrix command computes (R33 to R36, R268 to R270): operands, block sums, groups, and the values
that each element of C takes on the way. -/

namespace Sys2Proof.Machine

/-- C's format and T8 of an operand mix (R268). -/
def mixOf (a b : Nat) : Option (Nat × Nat) :=
  match a, b with
  | 0, 0 => some (7, 8)
  | 0, 1 => some (7, 4)
  | 2, 2 => some (6, 8)
  | 2, 3 => some (6, 4)
  | 4, 2 | 5, 2 | 4, 3 | 5, 3 | 4, 4 => some (6, 16)
  | _, _ => none

def intEx (x : Int) : Ex := if x = 0 then .zero false else .rat (decide (x < 0)) x.natAbs 1 0
def exInt (x : Ex) : Int :=
  match x with
  | .rat s n _ _ => if s then -(n : Int) else n
  | _ => 0
def signedOf (w n : Nat) : Int := if n.testBit (w - 1) then (n : Int) - 2 ^ w else n

/-- The factor that an element contributes: its number, its code less the zero point, or its float (R35). -/
def elemEx (fmt : Nat) (fzim : Bool) (raw z : Nat) : Ex :=
  if fmt = 0 then intEx (signedOf 8 raw)
  else if fmt = 1 then intEx (signedOf 4 raw)
  else if fmt = 4 then (f16.read fzim raw).exact
  else if fmt = 5 then (b16.read fzim raw).exact
  else intEx ((raw : Int) - z)

/-- Poison first, then an uncorrectable error (R273). -/
def worseBad (a b : Option (Nat × Bool)) : Option (Nat × Bool) :=
  match a, b with
  | none, b => b
  | some x, some y => if y.1 < x.1 then some y else some x
  | a, none => a

/-- Bytes of an operand on chip, with what is wrong with them. -/
def State.opBytes (s : State) (floor : Map Nat) (key n : Nat) : List Byte × Option (Nat × Bool) × State :=
  let bad := if s.isPoison key n then some (16, s.isTag key n) else if s.isEcc key n then some (18, false) else none
  let (v, s1) := s.readVer floor (fun _ => false) key n
  (v.bytes, bad, s1)

/-- The bitmap of an operand: where its line is poisoned or in error, the command fails. DESIGN CHOICE: log entry 31. -/
def State.opMap (s : State) (floor : Map Nat) (slice : Nat) (g : Geom) : List Byte × Option (Nat × Bool) × State :=
  if g.sp then s.opBytes floor (chipKey g.kind slice g.map) (g.sizes.getD 3 0) else ([], none, s)

/-- One element as it is read (R211, R267): its code and its zero point; none in an absent block, which contributes zero. -/
abbrev Raw := Option (Nat × Nat)
def Raw.ex (r : Raw) (fmt : Nat) (fzim : Bool) : Ex :=
  match r with
  | some (v, z) => elemEx fmt fzim v z
  | none => .zero false

def State.opElem (s : State) (floor : Map Nat) (slice : Nat) (g : Geom) (bm : List Byte) (row col : Nat) :
    Raw × Option (Nat × Bool) × State :=
  let ix := g.split row col
  match g.index bm ix with
  | none => (none, none, s)
  | some i =>
    let (b, w, s1) := s.opBytes floor (chipKey g.kind slice (g.start + g.byteOf i)) g.nbytes
    if g.gsz = 0 then (some (g.take i b, 0), w, s1)
    else
      let n := g.group ix
      let (zb, w2, s2) := s1.opBytes floor (chipKey g.kind slice (g.zpt + sideByte g .zpt n)) 1
      (some (g.take i b, if g.fmt = 2 then leNat zb else takeNibble n zb), worseBad w w2, s2)

/-- Elements at the given places, in order. -/
def State.opElems (s : State) (floor : Map Nat) (slice : Nat) (g : Geom) (bm : List Byte) :
    List (Nat × Nat) → List Raw × Option (Nat × Bool) × State
  | [] => ([], none, s)
  | p :: r =>
    let (x, w, s1) := s.opElem floor slice g bm p.1 p.2
    let (xs, v, s2) := s1.opElems floor slice g bm r
    (x :: xs, worseBad w v, s2)

/-- Scales of the groups that hold the given places (R25, R35). -/
def State.opScales (s : State) (floor : Map Nat) (slice : Nat) (g : Geom) :
    List (Nat × Nat) → List Ex × Option (Nat × Bool) × State
  | [] => ([], none, s)
  | p :: r =>
    let n := g.group (g.split p.1 p.2)
    let (b, w, s1) := s.opBytes floor (chipKey g.kind slice (g.scl + 2 * n)) 2
    let (xs, v, s2) := s1.opScales floor slice g r
    ((f16.dec (leNat b)).exact :: xs, worseBad w v, s2)

/-- The exact sum of the eight products of a K block (R35): a zero sum has no sign. -/
def blockSum (a b : Nat → Ex) (kb : Nat) : Ex :=
  match (List.range 8).foldl (fun x j => addEx .rne x (mulEx (a (8 * kb + j)) (b (8 * kb + j)))) (.zero false) with
  | .zero _ => .zero false
  | x => x

/-- Add to an S32 sum: it saturates, and the flag tells (R35). -/
def addS32 (c : Int) (x : Int) : Int × Bool :=
  if 2 ^ 31 - 1 < c + x then (2 ^ 31 - 1, true) else if c + x < -2 ^ 31 then (-2 ^ 31, true) else (c + x, false)

/-- Add to an F32 sum with one rounding of the exact value (R35). -/
def addF32 (fzrm : Bool) (c : Nat) (x : Ex) : Nat := f32.out .rne fzrm (addEx .rne (f32.dec c).exact x)

/-- The values that an element of C takes in the integer mixes: after each K block (R35), newest first. -/
def intSteps (a b : Nat → Ex) : List Nat → Int → List Int × Bool
  | [], _ => ([], false)
  | kb :: r, c =>
    let (c1, f) := addS32 c (exInt (blockSum a b kb))
    let (vs, g) := intSteps a b r c1
    (vs ++ [c1], f || g)

/-- In the F16 × F16 mix, after each K block. -/
def floatSteps (fzrm : Bool) (a b : Nat → Ex) : List Nat → Nat → List Nat
  | [], _ => []
  | kb :: r, c =>
    let c1 := addF32 fzrm c (blockSum a b kb)
    floatSteps fzrm a b r c1 ++ [c1]

/-- In the quantized mixes, after each group: its K blocks that take part, and its scale. DESIGN CHOICE: log entry 31. -/
def groupSteps (fzrm : Bool) (a b : Nat → Ex) : List (List Nat × Ex) → Nat → List Nat
  | [], _ => []
  | (kbs, sc) :: r, c =>
    let g := kbs.foldl (fun g kb => addF32 fzrm g (blockSum a b kb)) 0
    let c1 := addF32 fzrm c (mulEx sc (f32.dec g).exact)
    groupSteps fzrm a b r c1 ++ [c1]

def Geom.mBlocks (k n : Nat) : List (Nat × Nat) :=
  (List.range (k / 8)).flatMap (fun i => (List.range (ceilDiv n 8)).map (fun j => (i, j)))
/-- Whether a command processes a block (R36, R270). -/
def blockTaken (sparse : Bool) (b : Geom) (bm : List Byte) (kb cb : Nat) : Bool :=
  !(sparse && b.sp) || bitOf bm (b.block [8 * cb, 8 * kb, 0, 0])
/-- Length of the body in slice cycles (R270). -/
def bodyCycles (sparse : Bool) (a b : Geom) (bm : List Byte) : Nat :=
  let p := ((Geom.mBlocks (a.ext 0) (b.ext 0)).filter (fun x => blockTaken sparse b bm x.1 x.2)).length
  ceilDiv (((mixOf a.fmt b.fmt).map (·.2)).getD 0 * p) 16

/-- K blocks of each group (R35, R268): the smaller group size where both are grouped. -/
def groupBlocks (a b : Geom) : Nat :=
  if b.gsz = 0 then 1 else (if a.gsz = 0 then b.gsize else Nat.min a.gsize b.gsize) / 8

/-- What a command found and computed: for each element of C's M × N part, the values that it takes, newest first. -/
structure MOut where
  vals : List (Nat × Nat × List Nat)     -- row, column, values
  bad  : Option (Nat × Bool)
  sati : Bool
  deriving DecidableEq, Repr

/-- The values of one element. -/
def elemSteps (c : MCmd) (a b : Geom) (bm : List Byte) (ra rb sa sb : List Ex) (col init : Nat) : List Nat × Bool :=
  let fa (i : Nat) : Ex := ra.getD i .nan
  let fb (i : Nat) : Ex := rb.getD i .nan
  let kbs := (List.range (a.ext 0 / 8)).filter (fun kb => blockTaken c.sparse b bm kb (col / 8))
  if a.fmt = 0 then
    let (vs, f) := intSteps fa fb kbs (signedOf 32 init)
    (vs.map (fun x => (BitVec.ofInt 32 x).toNat), f)
  else if b.gsz = 0 then (floatSteps c.fzrm fa fb kbs init, false)
  else
    let gb := groupBlocks a b
    let gs := (List.range (ceilDiv (a.ext 0 / 8) gb)).map (fun j =>
      (kbs.filter (fun kb => kb / gb == j), mulEx (sa.getD j (intEx 1)) (sb.getD j .nan)))
    (groupSteps c.fzrm fa fb gs init, false)

/-- First places of the groups along K. -/
def groupStarts (a b : Geom) : List Nat :=
  (List.range (ceilDiv (a.ext 0 / 8) (groupBlocks a b))).map (fun j => 8 * groupBlocks a b * j)

/-- Read lists of elements or scales, row by row. -/
def State.opRows {α : Type} (s : State) (f : State → Nat → List α × Option (Nat × Bool) × State) :
    List Nat → List (List α) × Option (Nat × Bool) × State
  | [] => ([], none, s)
  | i :: r =>
    let (x, w, s1) := f s i
    let (xs, v, s2) := s1.opRows f r
    (x :: xs, worseBad w v, s2)

/-- B as its banks deliver it, once for all the members of a group (R272): bitmap, elements by column, and the scales of its
groups along K. -/
structure BRead where
  map    : List Byte := []
  cols   : List (List Raw) := []
  scales : List (List Ex) := []
  bad    : Option (Nat × Bool) := none
  deriving DecidableEq, Repr

def State.readB (s : State) (floor : Map Nat) (slice : Nat) (b : Geom) : BRead × State :=
  let k := b.ext 1
  let n := List.range (b.ext 0)
  let (bm, w1, s1) := s.opMap floor slice b
  let (cs, w2, s2) := s1.opRows (fun s i => s.opElems floor slice b bm ((List.range k).map (fun j => (j, i)))) n
  let (sc, w3, s3) := s2.opRows (fun s i => if b.gsz = 0 then ([], none, s)
    else s.opScales floor slice b ((List.range (ceilDiv k b.gsize)).map (fun j => (j * b.gsize, i)))) n
  ({ map := bm, cols := cs, scales := sc, bad := worseBad w1 (worseBad w2 w3) }, s3)

/-- Key of an element of C on a slice. -/
def cKey (slice : Nat) (g : Geom) (row col : Nat) : Nat :=
  chipKey 2 slice (g.start + g.byteOf ((g.index [] (g.split row col)).getD 0))

/-- C's contents before the command: zero under the set flag (R269). -/
def State.cInit (s : State) (acc : Bool) (slice : Nat) (g : Geom) (row col : Nat) : Nat × Option (Nat × Bool) :=
  if acc then
    let k := cKey slice g row col
    (leNat (peeks s.mem k 4),
      if s.isPoison k 4 then some (16, s.isTag k 4) else if s.isEcc k 4 then some (18, false) else none)
  else (0, none)

/-- Read A and C's contents, and form C with what was read of B (R269). -/
def State.formC (s : State) (slice : Nat) (c : MCmd) (a b g : Geom) (r : BRead) : MOut × State :=
  let m := a.ext 1
  let k := a.ext 0
  let n := b.ext 0
  let (am, w0, s0) := s.opMap c.floor slice a
  let (ra, w1, s1) := s0.opRows (fun s i => s.opElems c.floor slice a am ((List.range k).map (fun j => (i, j)))) (List.range m)
  let gs := groupStarts a b
  let (sa, w2, s2) := s1.opRows (fun s i => if a.gsz = 0 then ([], none, s)
    else s.opScales c.floor slice a (gs.map (fun j => (i, j)))) (List.range m)
  let row (i : Nat) : List Ex := (ra.getD i []).map (fun x => x.ex a.fmt c.fzim)
  let col (j : Nat) : List Ex := (r.cols.getD j []).map (fun x => x.ex b.fmt c.fzim)
  let sb (j : Nat) : List Ex := gs.map (fun p => (r.scales.getD j []).getD (p / b.gsize) .nan)
  let cells := (List.range m).flatMap (fun i => (List.range n).map (fun j => (i, j)))
  let out := cells.map (fun p =>
    let x := s2.cInit c.acc slice g p.1 p.2
    let v := elemSteps c a b r.map (row p.1) (col p.2) (sa.getD p.1 []) (sb p.2) p.2 x.1
    (p.1, p.2, v.1 ++ [x.1], v.2, x.2))
  ({ vals := out.map (fun o => (o.1, o.2.1, o.2.2.1))
     bad := out.foldl (fun w o => worseBad w o.2.2.2.2) ([w0, w1, w2, r.bad].foldl worseBad none)
     sati := out.any (fun o => o.2.2.2.1) }, s2)

end Sys2Proof.Machine
end

