-- ==== Sys2Proof/Machine/Matrix.lean ====
section
/-! DEFINITION. `mm`, `mms`, `mmstage`, `mmflag` (R271 to R278); the matrix queue, the gate list and the staging slots;
multicast groups (R272); completion and failures (R273). -/

namespace Sys2Proof.Machine

/-- Detail of a refusal by the matrix array (R278). -/
def matCause (reason operand id : Nat) : Cause := mkCause 8 (1280 + reason) (operand * 256 + id % 256) 0

/-- The entries of a command's operands, or the first refusal of R278 with its operand and identifier. -/
def State.mEntries (s : State) (tn ta tb tc ctr : Nat) : Cause ⊕ (Geom × Geom × Geom) :=
  match s.entryOf tn ta, s.entryOf tn tb, s.entryOf tn tc with
  | none, _, _ => .inl (matCause 1 0 ta)
  | _, none, _ => .inl (matCause 1 1 tb)
  | _, _, none => .inl (matCause 1 2 tc)
  | some ea, some eb, some ec =>
    let a := geomOf ea
    let b := geomOf eb
    let c := geomOf ec
    let q (g : Geom) (ax : Nat) : Bool := !(g.fmt == 2 || g.fmt == 3) || (g.gsz != 0 && g.gax == ax)
    let nctr := ((s.task tn).map (·.nctr)).getD 0
    if a.kind != 1 then .inl (matCause 2 0 ta)
    else if b.kind != 1 then .inl (matCause 2 1 tb)
    else if c.kind != 2 then .inl (matCause 2 2 tc)
    else if (mixOf a.fmt b.fmt).map (·.1) != some c.fmt then .inl (matCause 3 1 tb)
    else if a.ndm1 != 1 || 64 < a.ext 1 || a.ext 0 % 8 != 0 || !q a 0 then .inl (matCause 4 0 ta)
    else if b.ndm1 != 1 || 128 < b.ext 0 || b.ext 1 != a.ext 0 || !q b 1 then .inl (matCause 4 1 tb)
    else if c.ndm1 != 1 || c.ext 1 < a.ext 1 || c.ext 0 < b.ext 0 then .inl (matCause 4 2 tc)
    else if c.rdo then .inl (matCause 5 2 tc)
    else if nctr ≤ ctr then .inl (matCause 6 3 ctr)
    else .inr (a, b, c)

/-- The command that E's operands describe (R271, R275). -/
def State.makeCmd (s : State) (e : Nat) (sparse acc : Bool) (tag : Nat) (ops : List Entry) (a b : Geom) : MCmd × State :=
  let v (n : Nat) : Nat := (ops.getD n {}).val.toNat
  let (id, s1) := fresh s
  let l := s.lane e
  let fctl := (l.map (·.fctl)).getD 0
  ({ id := id, task := s.taskNo e, thx := (l.map (·.thx)).getD 0, sparse := sparse, acc := acc, tag := tag
     ta := v 3, tb := v 2, tc := v 1, ctr := v 0, fzim := fctl.getLsbD 8, fzrm := fctl.getLsbD 9, who := s.who e
     amount := a.ext 1 * b.ext 0 * 4, floor := (l.map (fun l => s.floorOf e l [])).getD [] }, s1)

/-- The tensor for which a command waits: bank operations on its operands (R224), and an earlier command that has A or B as its
C. For its own C the queue's order suffices, where the command is `mm` or `mms` (R274). -/
def State.mHolds (s : State) (e ta tb tc : Nat) (staged : Bool) : Option Nat :=
  let tn := s.taskNo e
  let w := waveOf e
  if s.waveHolds tn w ta false true then some ta
  else if s.waveHolds tn w tb false true then some tb
  else if s.waveHolds tn w tc false staged then some tc
  else none

def Wait.mQueueOf (w : Wait) : Option Instr :=
  match w with
  | .mQueue i => some i
  | _ => Option.none
def Wait.gateOf (w : Wait) : Option Instr :=
  match w with
  | .gate i => some i
  | _ => Option.none
/-- Lanes of a slice that wait for a queue entry, or for a gate entry. -/
def State.mWaiters (s : State) (slice : Nat) (fo : Bool) : List (Nat × Lane) :=
  s.lanes.filter (fun p => sliceOf p.1 == slice && (if fo then p.2.wait.gateOf.isSome else p.2.wait.mQueueOf.isSome))

/-- A command takes its queue entry, or its gate entry with the copies that gate it. -/
def State.enterCmd (s : State) (e : Nat) (fo : Bool) (c : MCmd) : State :=
  let gates := s.copiesOf (waveOf e)
  s.modSlice (sliceOf e) (fun x =>
    if fo then { x with gates := x.gates ++ [{ c with gates := gates }] } else { x with mq := x.mq ++ [c] })
def Slice.mRoom (x : Slice) (fo : Bool) : Bool := if fo then x.gates.length < 8 else x.mq.length < 8

/-- `mm` and `mms` (R271); `granted`: the strand has waited longest, and an entry is free. -/
def runMm (i : Instr) (sparse acc fo : Bool) (tag : BitVec 3) (granted : Bool) (s : State) : State :=
  runElected i (fun s _ e ops =>
    let v (n : Nat) : Nat := (ops.getD n {}).val.toNat
    match s.mEntries (s.taskNo e) (v 3) (v 2) (v 1) (v 0) with
    | .inl c => (s, .refuse c)
    | .inr (a, b, _) =>
      match s.mHolds e (v 3) (v 2) (v 1) false with
      | some tid => (s, .hold (.tensor tid))
      | none =>
        let x := s.slice (sliceOf e)
        if (granted || (s.mWaiters (sliceOf e) fo).isEmpty) && x.mRoom fo then
          let (c, s1) := s.makeCmd e sparse acc tag.toNat ops a b
          (s1.enterCmd e fo c, .all [])
        else (s, .hold (if fo then .gate i else .mQueue i))) s

/-- ( a b c counter -- ) -/
def execMm (w : StallL) (acc fo : Bool) (tag : BitVec 3) (s : State) : Res :=
  finish (runMm (.mm w acc fo tag) false acc fo tag false s)
/-- ( a b c counter -- ) -/
def execMms (w : StallL) (acc fo : Bool) (tag : BitVec 3) (s : State) : Res :=
  finish (runMm (.mms w acc fo tag) true acc fo tag false s)

/-- Run the waiting instruction of the strand that has waited longest. -/
def State.grantMm (s : State) (slice : Nat) (fo : Bool) : State :=
  let ls := s.mWaiters slice fo
  match oldest (ls.map (fun p => (p.2.stamp, p.1))) with
  | none => s
  | some (st, _) =>
    let mine := ls.filter (fun p => p.2.stamp == st)
    let i := (mine.head?).bind (fun p => if fo then p.2.wait.gateOf else p.2.wait.mQueueOf)
    match mine, i with
    | (k, _) :: _, some i =>
      let s1 : State := { s with iss := { slice := slice, place := waveOf k % 48, lanes := mine.map (fun p => laneNo p.1) } }
      -- a lane that completes issues its next instruction no earlier than its issue allows (R48)
      let pass (s : State) (p : Nat × Lane) : State := s.modLane p.1 (fun l =>
        if l.wait = .none && l.ts.tlvl = p.2.ts.tlvl then { l with next := Nat.max p.2.next (s.cycle slice + 1) } else l)
      match i with
      | .mm _ acc fo tag => mine.foldl pass (runMm i false acc fo tag true s1)
      | .mms _ acc fo tag => mine.foldl pass (runMm i true acc fo tag true s1)
      | _ => s
    | _, _ => s

/-- A queue entry is granted (R266). -/
def execMatrixQueueGrant (slice : Nat) (s : State) : Res :=
  if (s.slice slice).mRoom false then finish (s.grantMm slice false) else .next s
/-- A gate entry is granted (R271). -/
def execGateEntryGrant (slice : Nat) (s : State) : Res :=
  if (s.slice slice).mRoom true then finish (s.grantMm slice true) else .next s

/-- ( a b c counter -- ): stage a command (R275). -/
def execMmstage (w : StallL) (acc sp : Bool) (tag : BitVec 3) (k : BitVec 2) (s : State) : Res :=
  finish (runElected (.mmstage w acc sp tag k) (fun s _ e ops =>
    let v (n : Nat) : Nat := (ops.getD n {}).val.toNat
    match s.mEntries (s.taskNo e) (v 3) (v 2) (v 1) (v 0) with
    | .inl c => (s, .refuse c)
    | .inr (a, b, _) =>
      match s.mHolds e (v 3) (v 2) (v 1) true, mget (s.slice (sliceOf e)).stages k.toNat with
      | _, some st => if st.copy.isNone then (s, .refuse (matCause 7 4 k.toNat)) else (s, .hold (.stage k.toNat))
      | some tid, none => (s, .hold (.tensor tid))
      | none, none =>
        let (c, s1) := s.makeCmd e sp acc tag.toNat ops a b
        (s1.modSlice (sliceOf e) (fun x => { x with stages := mset x.stages k.toNat { cmd := c } }), .all [])) s)

/-- The status of a staging slot (R277). -/
def flagWord (tn : Nat) (st : Option Stage) : Word :=
  match st with
  | none => 0
  | some x =>
    if x.cmd.task = tn then
      BitVec.ofNat 64 (x.cmd.tc % 256 * 65536 + x.cmd.ctr % 256 * 256 + (if x.copy.isSome then 2 else 1))
    else 3

/-- ( -- st ) -/
def execMmflag (w : StallL) (k : BitVec 2) (s : State) : Res :=
  finish (runElected (.mmflag w k) (fun s _ e _ =>
    (s, .all [(flagWord (s.taskNo e) (mget (s.slice (sliceOf e)).stages k.toNat), [])])) s)

/-- A command ends without running: its counter counts down with a status (R242, R273). -/
def State.dropCmd (s : State) (c : MCmd) (status : Nat) : State :=
  s.countDown c.task c.ctr c.amount (some status) [] (some c.thx)

def State.clearStage (s : State) (slice k : Nat) : State :=
  s.modSlice slice (fun x => { x with stages := mdel x.stages k })

/-- Discard a command that the thread's task has staged and no copy has bound (R277). -/
def execMmflagDrop (w : StallL) (k : BitVec 2) (s : State) : Res :=
  finish (runElected (.mmflagDrop w k) (fun s _ e _ =>
    match mget (s.slice (sliceOf e)).stages k.toNat with
    | some st =>
      if st.copy.isNone && st.cmd.task == s.taskNo e then
        ((s.clearStage (sliceOf e) k.toNat).dropCmd st.cmd 0x0514, .all [])
      else (s, .all [])
    | none => (s, .all [])) s)

/-- Copies have landed; their first failure; what they wrote (R242). -/
def State.allLanded (s : State) (cs : List Nat) : Bool := cs.all (fun c => (mget s.landed c).isSome)
def State.gateFailure (s : State) (cs : List Nat) : Option Nat := cs.findSome? (fun c => (mget s.landed c).bind (·.failed))
def State.gateFloor (s : State) (cs : List Nat) (v : Map Nat) : Map Nat :=
  cs.foldl (fun v c => viewJoin (mgetD s.landed c {}).wrote v) v

/-- A gated command whose copies have landed enters the queue, or is discarded with the copy's status (R271, R242). -/
def execGatedCommandEntry (slice : Nat) (idx : Nat) (s : State) : Res :=
  let x := s.slice slice
  match x.gates[idx]? with
  | none => .next s
  | some c =>
    if !s.allLanded c.gates then .next s
    else
      let s1 := s.modSlice slice (fun x => { x with gates := x.gates.eraseIdx idx })
      match s.gateFailure c.gates with
      | some r => .next (s1.dropCmd c (512 + r))
      | none =>
        if !x.mRoom false then .next s
        else .next (s1.modSlice slice (fun x => { x with mq := x.mq ++ [{ c with floor := s.gateFloor c.gates c.floor }] }))

/-- The lane on which the thread of a command is, whatever wave it has come to since (R253, R259). -/
def State.threadLane (s : State) (c : MCmd) : Option (Nat × Lane) :=
  s.lanes.find? (fun p => s.taskNo p.1 == c.task && p.2.thx == c.thx)
/-- What the thread of a command sees: on its lane, saved, in a frame row, or at the spawn-wait site. -/
def State.threadView (s : State) (c : MCmd) : Map Nat :=
  let of (l : Lane) : Map Nat := viewJoin l.view l.seen
  match s.threadLane c, s.task c.task with
  | some p, _ => of p.2
  | none, some t =>
    let away := ((s.savedOf t c.task).flatMap (fun v => v.lanes.map (·.2))) ++ (t.spawned ++ t.woken).map (·.lane)
    match away.find? (fun l => l.thx == c.thx), t.rows.find? (fun r => r.2.thx == c.thx) with
    | some l, _ => of l
    | none, some r => viewJoin r.2.view r.2.seen
    | none, none => []
  | none, none => []
/-- Bank operations on the operands, of the wave that staged the command or of that in which its thread is now, are not over
(R224, R275). -/
def State.stageWaits (s : State) (c : MCmd) : Bool :=
  let us := (c.who / 32) :: ((s.threadLane c).map (fun p => s.who p.1 / 32)).toList
  ((s.task c.task).map (fun t => t.banks.any (fun b =>
    us.contains (b.who / 32) && (b.names c.ta || b.names c.tb || b.names c.tc)))).getD false
/-- What the reads of a staged command respect when it enters: what its thread sees then, and every store that it had made in
the wave that staged it (R274). -/
def State.stageFloor (s : State) (c : MCmd) : Map Nat :=
  let own := (s.log.filter (fun w => w.who == c.who)).foldl (fun v w => viewRange w.addr w.id w.new.length v) []
  viewJoin own (viewJoin (s.threadView c) c.floor)

/-- The author for whose wave a staged command counts when it enters: the thread where it is now, if it is on a lane (R274, R275). -/
def State.stageWho (s : State) (c : MCmd) : Nat := ((s.threadLane c).map (fun p => s.who p.1)).getD c.who

/-- A bound command whose copies have landed enters the queue as if its thread issued it then; its tids are checked
again (R242, R275). DEDUCED: log entry 30. -/
def execStagedCommandEntry (slice slot : Nat) (s : State) : Res :=
  match mget (s.slice slice).stages slot with
  | none => .next s
  | some st =>
    let cs := st.copy.toList ++ st.gates
    let c := st.cmd
    if st.copy.isNone || !s.allLanded cs then .next s
    else
      match s.gateFailure cs with
      | some r => .next ((s.clearStage slice slot).dropCmd c (512 + r))
      | none =>
        if !(s.slice slice).mRoom false || s.stageWaits c then .next s
        else
          match s.mEntries c.task c.ta c.tb c.tc c.ctr with
          | .inl _ => .next ((s.clearStage slice slot).dropCmd c 0x0513)
          | .inr _ =>
            .next ((s.clearStage slice slot).modSlice slice (fun x =>
              { x with mq := x.mq ++ [{ c with who := s.stageWho c, floor := s.gateFloor cs (s.stageFloor c) }] }))

/-- The writes to C: each value that an element takes, the newest last (R274). What is written is visible to nobody
before the counter falls, but a reader may see it. -/
def State.writeC (s : State) (slice : Nat) (g : Geom) (vals : List (Nat × Nat × List Nat)) : Map Nat × State :=
  vals.foldl (fun (a : Map Nat × State) v =>
    let k := cKey slice g v.1 v.2.1
    let s1 := v.2.2.reverse.foldl (fun (s : State) x => s.write k (leBytes 4 x) slice 0 none none 0) a.2
    (viewRange k (s1.nextId - 1) 4 a.1, s1)) ([], s)

/-- Begin the command at the head of a slice's queue with what was read of B: its body ends no earlier than its slice has
run through R270's cycles. SATI is set early, or with the end; a command that fails sets none.
DESIGN CHOICE: log entry 31 (R33). -/
def State.beginHead (s : State) (slice till : Nat) (mates : List (Nat × Nat)) (rb : BRead) : State :=
  match (s.slice slice).mq with
  | [] => s
  | c :: r =>
    let c1 : MCmd := { c with running := true, due := s.cycle slice, until_ := till, mates := mates }
    match s.mEntries c.task c.ta c.tb c.tc c.ctr with
    | .inl _ => s.modSlice slice (fun x => { x with mq := c1 :: r })
    | .inr (a, b, g) =>
      let (o, s1) := s.formC slice c a b g rb
      let (pub, s2) := match o.bad with
        | some _ => ([], s1)
        | none => s1.writeC slice g o.vals
      let (early, s3) := if o.sati && o.bad.isNone then choose s2 2 else (0, s2)
      let s4 := if early = 1 then s3.modTask c.task (fun t => { t with sati := true }) else s3
      s4.modSlice slice (fun x => { x with mq := { c1 with
        due := s.cycle slice + bodyCycles c.sparse a b rb.map, pub := pub, bad := o.bad
        sati := o.sati && o.bad.isNone && early == 0 } :: r })

/-- The first member whose operands stand gives B. -/
def State.groupB (s : State) (heads : List (Nat × MCmd)) : BRead × State :=
  let floor := heads.foldl (fun v p => viewJoin p.2.floor v) []
  match heads.findSome? (fun p => match s.mEntries p.2.task p.2.ta p.2.tb p.2.tc p.2.ctr with
    | .inr (_, b, _) => some (p.1, b)
    | .inl _ => none) with
  | some (m, b) => s.readB floor m b
  | none => ({}, s)

/-- Commands of a group start: each block of B is read once for all of them (R272). How long they take beyond R270 is a free
value. -/
def State.beginGroup (s : State) (slices : List Nat) : State :=
  let (d, s1) := freeDelay s
  let heads := slices.filterMap (fun m => ((s1.slice m).mq.head?).map (fun c => (m, c)))
  let (r, s2) := s1.groupB heads
  slices.foldl (fun s x => s.beginHead x (s1.now + d) (heads.map (fun p => (p.1, p.2.id))) r) s2

/-- The body of a command of a group is over on its slice, or the command is gone. -/
def State.mateOver (s : State) (p : Nat × Nat) : Bool :=
  match (s.slice p.1).mq with
  | c :: _ => c.id != p.2 || !c.running || c.due ≤ s.cycle p.1
  | [] => true
/-- The bodies of a group end together (R272). -/
def State.bodyOver (s : State) (c : MCmd) : Bool := decide (c.until_ ≤ s.now) && c.mates.all s.mateOver

/-- Two commands may share their reads of B (R272). -/
def MCmd.mate (c d : MCmd) : Bool := c.task == d.task && c.sparse == d.sparse && c.tag == d.tag && c.tb == d.tb
/-- Member slices whose head waits in a window that this command can join. -/
def State.openMates (s : State) (c : MCmd) (members : List Nat) : List Nat :=
  members.filter (fun m => ((s.slice m).mq.head?).any (fun d => d.windowed && !d.running && s.now < d.ready && c.mate d))

/-- The command at the head of a queue starts, or waits for the other members of its gang (R266, R272). -/
def execMatrixCommandStart (slice : Nat) (s : State) : Res :=
  match (s.slice slice).mq with
  | [] => .next s
  | c :: r =>
    let members := ((s.task c.task).map (·.members)).getD []
    if c.running || c.windowed then .next s
    else if c.tag = 0 || members.length ≤ 1 then .next (s.beginGroup [slice])
    else
      let mates := s.openMates c members
      let ready := ((mates.head?).bind (fun m => ((s.slice m).mq.head?).map (·.ready))).getD (s.now + 64)
      let s1 := s.modSlice slice (fun x => { x with mq := { c with windowed := true, ready := ready } :: r })
      if members.length ≤ mates.length + 1 then .next (s1.beginGroup (members.filter (fun m => m == slice || mates.contains m)))
      else .next s1

/-- A window ends: the members that have joined start (R272). -/
def execMulticastWindowExpiry (slice : Nat) (s : State) : Res :=
  match (s.slice slice).mq with
  | [] => .next s
  | c :: _ =>
    if c.running || !c.windowed || s.now < c.ready then .next s
    else
      let members := ((s.task c.task).map (·.members)).getD []
      .next (s.beginGroup (members.filter (fun m =>
        ((s.slice m).mq.head?).any (fun d => d.windowed && !d.running && d.ready == c.ready && c.mate d))))

/-- A failed command writes zero and poison to every element of C's M × N part (R273). -/
def State.spoilC (s : State) (slice : Nat) (c : MCmd) (tag : Bool) : Map Nat × State :=
  match s.mEntries c.task c.ta c.tb c.tc c.ctr with
  | .inl _ => ([], s)
  | .inr (a, b, g) =>
    let cells := (List.range (a.ext 1)).flatMap (fun i => (List.range (b.ext 0)).map (fun j => (i, j, [0])))
    let (pub, s1) := s.writeC slice g cells
    (pub, ((pub.map (fun (p : Nat × Nat) => p.1 / 64)).dedup).foldl (fun (s : State) l => s.setPoison l tag) s1)

/-- Lines of which every byte is in a set of writes become clean (R216). -/
def State.cleanWhole (s : State) (pub : Map Nat) : State :=
  let lines := (pub.map (fun (p : Nat × Nat) => p.1 / 64)).dedup
  (lines.filter (fun l => (pub.filter (fun (p : Nat × Nat) => p.1 / 64 == l)).length == 64)).foldl
    (fun (s : State) l => s.clean l) s

/-- A command completes: C is visible at slice scope, SATI is set, then the counter falls (R273). -/
def execMatrixCommandComplete (slice : Nat) (s : State) : Res :=
  match (s.slice slice).mq with
  | [] => .next s
  | c :: r =>
    if !c.running || !s.bodyOver c then .next s
    else
      let s0 := s.modSlice slice (fun x => { x with mq := r })
      let (pub, s1) := match c.bad with
        | some (_, t) => s0.spoilC slice c t
        | none => (c.pub, s0.cleanWhole c.pub)
      let s2 := s1.addEngine slice .slice pub
      let s3 := if c.sati then s2.modTask c.task (fun t => { t with sati := true }) else s2
      .next (s3.countDown c.task c.ctr c.amount (c.bad.map (fun b => 1280 + b.1)) pub (some c.thx))

end Sys2Proof.Machine
end

