-- ==== Sys2Proof/Machine/Invalidate.lean ====
section
/-! DEFINITION. Invalidation, splintering and replay (R327, R328, R331 to R333). -/

namespace Sys2Proof.Machine

/-- A TLB entry is named by an invalidation of the page of `va` (R331): leaf or large-page entries that cover it, and
the last-level entry of its middle index. -/
def coversVa (space : Nat) (va : Word) (t : TlbEnt) : Bool := t.holds space (va.toNat / 65536 % 2 ^ 40)

/-- Release E's accesses, drop the entries, everywhere (R331). -/
def State.invalidate (s : State) (e : Nat) (p : TlbEnt → Bool) : State := (s.release e .device).dropTlb p

/-- ( va -- ) -/
def execTlbinvPage (w : StallL) (s : State) : Res :=
  finish (runElected (.tlbinvPage w) (fun s _ e ops =>
    (s.invalidate e (coversVa (s.spaceOf e) (ops.getD 0 {}).val), .all [])) s)

def execTlbinvSpace (w : StallL) (s : State) : Res :=
  finish (runElected (.tlbinvSpace w) (fun s _ e _ =>
    (s.invalidate e (fun t => t.space == s.spaceOf e), .all [])) s)

def execTlbinvVf (w : StallL) (s : State) : Res :=
  finish (runElected (.tlbinvVf w) (fun s _ e _ =>
    (s.invalidate e (fun t => t.space / 16384 == s.spaceOf e / 16384), .all [])) s)

/-- Where the middle entry of an address lies (R314, R316); the level at which a table lies outside the grant (R317). -/
def State.middleOf (s : State) (space va : Nat) : Nat ⊕ Option Nat :=
  let root := (s.ctx space).root.toNat % 2 ^ 52 / 2 ^ 17 * 2 ^ 17
  let vf := space / 16384
  if !s.granted vf root 131072 then .inl 0
  else
    let r := s.tableWord root (va / 2 ^ 42 % 16384)
    if !isPointer r then .inr none
    else if !s.granted vf (entPa r) 65536 then .inl 0
    else .inr (some (entPa r + 8 * (va / 2 ^ 29 % 8192)))

/-- Leaf i of a splintered large page (R332): V and RUN set, LG clear, the rest from the entry. -/
def splitLeaf (m i : Nat) : Nat := m - 256 + 512 + 65536 * i

/-- An entry that names the frame at a key, by its MEM and DEV (R315): outside HBM it is malformed as a pointer (R316). -/
def frameEntry (key : Nat) : Nat :=
  if isHost key then key % 2 ^ 52 + 0x400 + 1
  else if isRemote key then key % 2 ^ 52 + (key - 2 ^ 60) / 2 ^ 52 * 2 ^ 56 + 0x800 + 1
  else key + 1
/-- A line of a 64 KiB page on another device that lies outside the window exported to the virtual function (R317, R332). -/
def State.pageCause (s : State) (e : Nat) (l : Lane) (a : Nat) : Option Cause :=
  (List.range 1024).findSome? (fun j =>
    match (s.place e l .write (a + 64 * j)).1 with
    | .prot r lv => some (xlCause 5 (a + 64 * j) .write r lv)
    | _ => none)

/-- The frame of a splintered page is written and published at device scope (R332); over no link the stores are discarded (R385). -/
def State.writeFrame (s : State) (e key m : Nat) : State :=
  if s.cutOff key then s
  else
    let id := s.nextId
    (s.strongWrite e key ((List.range 8192).flatMap (fun i => leBytes 8 (splitLeaf m i))) .device false 0).addRel (sliceOf e)
      .device (viewRange key id 65536 [])

/-- The steps of R332 after the check of `tbl`, whose frame is at `key`: the status. The middle entry is read as a strong load
at device scope, and the `cas` acts on its newest value. Both are of the context's tables, in H mode too. DEDUCED: log entry 42. -/
def State.split (s0 : State) (e : Nat) (va : Word) (key : Nat) : EOut × State :=
  let sp := s0.spaceOf e
  let a56 := va.toNat % 2 ^ 56
  let s : State := { s0 with free := s0.free + 1 }
  match s0.middleOf sp a56 with
  | .inl lv => (.refuse (xlCause 5 a56 .read 5 lv), s)
  | .inr none => (.all [(1, [])], s)
  | .inr (some a) =>
    let m := s0.tableWord a 0
    if !isLarge m then (.all [(1, [])], s)
    else
      let s1 := s.writeFrame e key m
      if leNat (peeks s1.mem a 8) = m then
        let s2 := s1.strongWrite e a (leBytes 8 (frameEntry key)) .device false (pointOf .device (sliceOf e) a)
        (.all [(0, [])], s2.invalidate e (coversVa sp va))
      else (.all [(2, [])], s1)

/-- ( va tbl -- st ): in H mode `tbl` is an address under the hypervisor's root, while va names the context's. DEDUCED: log
entry 42. -/
def execTlbinvSplit (w : StallL) (s : State) : Res :=
  finish (runElected (.tlbinvSplit w) (fun s _ e ops =>
    match s.lane e with
    | none => (s, .done)
    | some l =>
      match s.reach e l .write true (ops.getD 0 {}).val 65536 with
      | (.trap c, s1) => (s1, .refuse c)
      | (.park, s1) | (.noLink, s1) => (s1, .hold .parked)
      | (.ok key, s1) =>
        match (if isRemote key then s1.pageCause e l (ops.getD 0 {}).val.toNat else none) with
        | some c => (s1, .refuse c)
        | none =>
          let (o, s2) := s1.split e (ops.getD 1 {}).val key
          (s2, o)) s)

/-- Replay-all (R328): parked lanes of the address space execute their instruction again, parked copy requests are
reissued, and a held whey record is tried again. -/
def State.replayAll (s : State) (space : Nat) : State :=
  let s1 : State := { s with lanes := s.lanes.map (fun p =>
    if p.2.wait == .parked && s.spaceOf p.1 == space then (p.1, { p.2 with wait := .none }) else p) }
  let s2 := (s1.slices.map (·.1)).foldl (fun (s : State) x => s.replaySlice space x) s1
  s2.modCtx space (fun c => { c with wheyHeld := false })

/-- ( -- ): a release at device scope of the issuer's earlier stores, once per strand (R333). -/
def execReplay (w : StallL) (s : State) : Res :=
  finish (runElected (.replay w) (fun s _ e _ =>
    ((s.release e .device).replayAll (s.spaceOf e), .all [])) s)

/-- A firmware register access is charged to a cluster (R382). -/
def State.chargeReg (s : State) (c : Nat) : State := s.modCluster c (fun x => { x with regs := x.regs + 1 })

/-- Where the leaf entry of a page lies, if its tables are there (R314). -/
def State.leafOf (s : State) (space page : Nat) : Option Nat :=
  match s.middleOf space (page * 65536) with
  | .inr (some a) =>
    let m := s.tableWord a 0
    if isPointer m && s.granted (space / 16384) (entPa m) 65536 then some (entPa m + 8 * (page % 8192)) else none
  | _ => none
/-- A leaf entry that the monitor lets the firmware write for a virtual function (R317, R367): none of its memory lies outside the
grant, or outside a window exported to the function. -/
def State.leafAllowed (s : State) (vf : Nat) (e : Word) : Bool :=
  let n := e.toNat
  !entV n || (isPage n && (entMem n != 0 || s.granted vf (entPa n) 65536) &&
    (entMem n != 2 || s.exported vf (entDev n) (entPa n) 65536))
/-- The scheduler maps a page by a monitor call, with the entry that the tenant's plug-in has chosen; an answer outside the grant is
no mapping (R367). DESIGN CHOICE: log entry 47. -/
def State.mapPage (s : State) (space page : Nat) (e : Word) : State :=
  match s.leafOf space page with
  | some a => if s.leafAllowed (space / 16384) e then s.devStore a (leBytes 8 e.toNat) .device else s
  | none => s

/-- The firmware pops the oldest record of a sector's fault buffer (R327), and may map its page (R367). -/
def execFbstatPop (pop : RecordPop) (s : State) : Res :=
  let s1 := match (s.sector pop.sector).recs.head?, pop.leaf with
    | some r, some e => s.mapPage r.space r.page e
    | _, _ => s
  .next ((s1.modSector pop.sector (fun b => b.writeStat 0x10000#64)).chargeReg (3 * pop.sector))

/-- The firmware clears DROPPED (R327). -/
def execFbstatDroppedClear (sector : Nat) (s : State) : Res :=
  .next ((s.modSector sector (fun b => b.writeStat 0x100#64)).chargeReg (3 * sector))

/-- The firmware writes `FRPLAY` (R328). -/
def execFrplay (vf asid : Nat) (s : State) : Res := .next ((s.replayAll (spaceKey vf asid)).chargeReg 0)

end Sys2Proof.Machine
end

