-- ==== Sys2Proof/Machine/System.lean ====
section
/-! DEFINITION. System calls, breakpoints, returns from traps and the frame of a trap (R346 to R351), and the traps
that are posted to a lane (R352). -/

namespace Sys2Proof.Machine

/-- SYSCALL, HCALL and BREAK (R351). -/
def callCause (group c : Nat) (m : Mode) : Cause := mkCause group c m.code 0

def execSyscall (w : StallL) (c : BitVec 12) (s : State) : Res :=
  finish (runLane (.syscall w c) (fun l _ => .trap (callCause 10 c.toNat l.ts.mode)) s)
def execHcall (w : StallL) (c : BitVec 12) (s : State) : Res :=
  finish (runLane (.hcall w c) (fun l _ => .trap (callCause 11 c.toNat l.ts.mode)) s)
def execBrk (w : StallS) (s : State) : Res :=
  finish (runLane (.brk w) (fun l _ => .trap (callCause 12 0 l.ts.mode)) s)

/-- INTEGRITY or HARDWARE on a record in a mode area, or a soft error of the level-1 frame in the trap reserve (R351). -/
def State.recordCause (s : State) (k : Nat) (l : Lane) (off n : Nat) : Option Cause :=
  if l.ts.tlvl ≤ 1 then
    (List.range (Nat.min 8 (off / 8 + n / 8))).findSome? (fun i => if off / 8 ≤ i then
      if (l.frame.getD i {}).soft then some (softErr i) else s.softCause k (64 + i) i else none)
  else (memCause s (l.area k + recordOff l.ts.tlvl + off) n 0).map (fun c => { c with w0 := c.w0 ||| 0x200#32 })

/-- The limit of the stack that a return uncovers (R346). -/
def returnLimit (prv : Nat) : Nat := if prv % 4 = 0 then 1024 else 128

/-- The checks of a return, and the return (R346, R348). -/
def returnBody (i : Instr) (sret : Bool) (s : State) (k : Nat) (l : Lane) : State × LOut :=
  let m := l.estat.toNat % 4
  if l.ts.mode.code < m || (sret && m == 2) then (s, .trap (privCause i l.ts.mode 3 0))
  else if badTarget l.epc then (s, .trap (targetCause l.epc))
  else
    let (rec, s1) := s.recordOf k l
    let d := returnDepth l rec
    if returnLimit l.estat.toNat < d + l.efh then (s1, .trap (mkCause 2 2 d (d + l.efh)))
    else
      match s.recordCause k l 0 (if l.ts.tlvl ≤ 1 then 8 * l.efh else 128) with
      | some c => if l.ts.tlvl ≤ 1 then (s1, .trap c) else (s1.stopLane k c, .left)
      | none => (s1.leaveTrap k, .left)

def runReturn (i : Instr) (sret : Bool) (s : State) : State :=
  runEach i (fun s k _ =>
    match s.lane k with
    | none => (s, .left)
    | some l => returnBody i sret s k l) s

def execSret (w : StallS) (s : State) : Res := finish (runReturn (.sret w) true s)
def execHret (w : StallS) (s : State) : Res := finish (runReturn (.hret w) false s)

/-- ( -- v ): entry n below the top of the frame (R349). -/
def execTfld (w : StallS) (n : BitVec 3) (s : State) : Res :=
  finish (runEach (.tfld w n) (fun s k _ =>
    match s.lane k with
    | none => (s, .left)
    | some l =>
      if l.efh ≤ n.toNat then (s, .trap (slotCause 0x5C n.toNat l.efh))
      else
        let i := l.efh - 1 - n.toNat
        match s.recordCause k l (8 * i) 8 with
        | some c => (s, .trap c)
        | none =>
          let (fr, s1) := s.frameOf k l
          let s2 := if l.ts.tlvl ≤ 1 then s1 else s1.stallMore (waveOf k)
          let e := fr.getD i {}
          (s2, .go [(e.val, e.deps)])) s)

/-- ( v -- ) -/
def execTfst (w : StallS) (n : BitVec 3) (s : State) : Res :=
  finish (runEach (.tfst w n) (fun s k ops =>
    match s.lane k with
    | none => (s, .left)
    | some l =>
      if l.efh ≤ n.toNat then (s, .trap (slotCause 0x5D n.toNat l.efh))
      else (s.setFrame k (l.efh - 1 - n.toNat) (ops.getD 0 {}).arrived, .go [])) s)

/-- What has been delivered is no longer posted (R352). -/
def State.unpost (s : State) (k : Nat) (c : Cause) : State :=
  let f (x : Ctx) : Ctx :=
    if c.group = 17 then { x with thr := none }
    else if c.group = 15 && causeCode c = 3 then { x with dead := none }
    else if c.group = 15 && causeCode c = 4 then { x with mc := none }
    else x
  let s1 := s.modCtx (s.spaceOf k) f
  if c.group = 18 then s1.modLane k (fun l => { l with cutDue := false }) else s1

/-- A trap that an agent other than the lane's own instruction delivers to it. A thread at TLVL 1 or above takes no
asynchronous cause, and one with the target H waits while `HSBASE.EN` is 0 (R352). -/
def execTrapEntry (l : LaneId) (c : Cause) (s : State) : Res :=
  let k := laneIdKey l
  match s.lane k with
  | none => .next s
  | some x =>
    if c.asy && (x.ts.tlvl != 0 || (s.routeOf k x c == .h && !s.hypOn k)) then .next s
    else finish ((if c.asy then s.unpost k c else s).enterTrap k c)

end Sys2Proof.Machine
end

