-- ==== Sys2Proof/Machine/Grace.lean ====
section
/-! DEFINITION. Grace generations (R299 to R306) and the whey queue (R307, R308). -/

namespace Sys2Proof.Machine

def execQpoint (w : StallS) (s : State) : Res :=
  finish (runEach (.qpoint w) (fun s k _ => (s.quiesce k, .go [])) s)

/-- SELF_WAIT (R309). -/
def selfCause (what lvl : Nat) : Cause := mkCause 9 (what * 256 + 6) lvl 0

/-- A waiting lane is over with grace period t: it has completed, and the records up to it are dealt with (R306). -/
def Ctx.graceOver (c : Ctx) (t : Nat) : Bool := t ≤ c.gDone && c.whey.all (fun r => t < r.gen)

/-- A lane is no longer passive: its QG was taken as G at every moment (R300). -/
def State.endPassive (s : State) (k : Nat) : State :=
  s.modLane k (fun l => { l with passive := false, qg := (s.ctx (s.spaceOf k)).gBegun })

/-- G rises once per strand execution; each lane waits for the period that this begins (R306). A waiting lane tests
again. -/
def execWaitgp (w : StallS) (s : State) : Res :=
  let t := ((s.active.head?).map (fun k => (s.ctx (s.spaceOf k)).gBegun + 1)).getD 0
  finish (runEach (.waitgp w) (fun s k _ =>
    match s.lane k with
    | none => (s, .left)
    | some l =>
      match l.wait with
      | .waitgp u =>
        if (s.ctx (s.spaceOf k)).graceOver u then ((s.endPassive k).boundary k .device, .go [])
        else (s, .hold (.waitgp u))
      | _ =>
        if l.ts.tlvl != 0 then (s, .trap (selfCause 0 l.ts.tlvl))
        else
          let s1 := (s.release k .device).modCtx (s.spaceOf k) (fun c => { c with gBegun := t })
          ((s1.quiesce k).modLane k (fun l => { l with passive := true }), .hold (.waitgp t))) s)

/-- Append a record, and begin a grace period where none is in progress (R307). -/
def Ctx.append (c : Ctx) (a n l : Word) : Ctx :=
  { c with
    whey := c.whey ++ [{ addr := a, size := n, list := l, gen := c.gBegun + 1 }]
    gBegun := if c.gDone = c.gBegun then c.gBegun + 1 else c.gBegun }

/-- ( addr size list -- ) -/
def execDefer (w : StallS) (s : State) : Res :=
  finish (runEach (.defer w) (fun s k ops =>
    let a := (ops.getD 2 {}).val
    let n := (ops.getD 1 {}).val
    let lst := (ops.getD 0 {}).val
    let s := match s.lane k with
      | some l => if l.wait = .whey then s.endPassive k else s
      | none => s
    match s.lane k with
    | none => (s, .left)
    | some l =>
      match s.access k l .write true a 16 with
      | (.trap c, s1) => (s1, .trap c)
      | (.park, s1) => (s1, .hold .parked)
      | (_, s1) =>
        match s1.access k l .atomic (aopHost .cas) lst 8 with
        | (.trap c, s2) => (s2, .trap c)
        | (.park, s2) => (s2, .hold .parked)
        | (_, s2) =>
          let sp := s2.spaceOf k
          if 4096 ≤ (s2.ctx sp).whey.length then
            if l.ts.tlvl != 0 then (s2, .trap (selfCause 1 l.ts.tlvl))
            else ((s2.quiesce k).modLane k (fun l => { l with passive := true }), .hold .whey)
          else ((s2.release k .device).modCtx sp (fun c => c.append a n lst), .go [])) s)

/-- A record is pending beyond G, and no grace period is in progress: the device begins one (R307). -/
def execGracePeriodBegin (vf asid : Nat) (s : State) : Res :=
  let sp := spaceKey vf asid
  let c := s.ctx sp
  if c.gDone = c.gBegun && c.whey.any (fun r => c.gBegun < r.gen) then
    .next (s.modCtx sp (fun c => { c with gBegun := c.gBegun + 1 }))
  else .next s

/-- A blocker of grace period g in an address space (R302): a thread that is not passive, resident or saved, or a row
that `suspendk` wrote. -/
def State.blocked (s : State) (sp g : Nat) : Bool :=
  s.lanes.any (fun p => s.spaceOf p.1 == sp && !p.2.passive && p.2.qg < g) ||
  (s.ctx sp).saved.any (fun v => v.lanes.any (fun p => !p.2.passive && p.2.qg < g)) ||
  s.tasks.any (fun t => t.2.space == sp && t.2.rows.any (fun r => r.2.kept && r.2.qg < g))

/-- The next grace period completes when it has no blockers (R302). -/
def execGracePeriodComplete (vf asid : Nat) (s : State) : Res :=
  let sp := spaceKey vf asid
  let c := s.ctx sp
  if c.gDone < c.gBegun && !s.blocked sp (c.gDone + 1) then
    .next (s.modCtx sp (fun c => { c with gDone := c.gDone + 1 }))
  else .next s

/-- The first record leaves the queue, or is held there (R308). -/
def State.dropWhey (s : State) (sp : Nat) : State := s.modCtx sp (fun c => { c with whey := c.whey.drop 1 })
def State.holdWhey (s : State) (sp va reason level : Nat) (kind : AccKind) : State :=
  let (slice, s1) := choose s 576
  (s1.modCtx sp (fun c => { c with wheyHeld := true })).recordFault sp slice va reason level kind true

/-- Push a block onto its list: a release at device scope (R308). -/
def State.pushBlock (s : State) (ka kl : Nat) (r : Whey) : State :=
  let old := peeks s.mem kl 8
  let id := s.nextId
  let s1 := s.write ka (old ++ leBytes 8 r.size.toNat) noSlice 0 none none 0
  let rel := s1.nextId
  let s2 := s1.addRel noSlice .device (viewRange ka id 16 [])
  let id2 := s2.nextId
  (s2.write kl (leBytes 8 r.addr.toNat) noSlice 0 (some .device) (some rel) (pointOf .device noSlice kl)).addRel noSlice .device
    (viewRange kl id2 8 [])

/-- A line that cannot be had: poisoned, in error, or on a device that no link reaches. -/
def State.gone (s : State) (key n : Nat) : Bool := s.broken key n || s.cutOff key

/-- Deliver the record at the head of an address space's queue (R308): both pages must admit reads and writes (R318). The spec leaves
these open: a line in error, or of a device that no link reaches, has the fate of a poisoned one; the fault record of either page names an
atomic; and the page of a is judged before that of lst. DESIGN CHOICE: log entry 56. -/
def execWheyDelivery (vf asid : Nat) (s : State) : Res :=
  let sp := spaceKey vf asid
  let c := s.ctx sp
  match c.whey with
  | [] => .next s
  | r :: _ =>
    if c.wheyHeld || c.gDone < r.gen then .next s
    else
      match s.devPlace sp .atomic r.addr.toNat, s.devPlace sp .atomic r.list.toNat with
      | .fault rs lv, _ => .next (s.holdWhey sp r.addr.toNat rs lv .atomic)
      | .prot _ _, _ => .next ((s.dropWhey sp).note (.wheyDiscarded vf asid))
      | .ok _, .fault rs lv => .next (s.holdWhey sp r.list.toNat rs lv .atomic)
      | .ok _, .prot _ _ => .next ((s.dropWhey sp).note (.wheyDiscarded vf asid))
      | .ok ka, .ok kl =>
        if s.gone ka 16 || s.gone kl 8 then .next ((s.dropWhey sp).note (.wheyDiscarded vf asid))
        else .next ((s.pushBlock ka kl r).dropWhey sp)

end Sys2Proof.Machine
end

