-- ==== Sys2Proof/Machine/Cuts.lean ====
section
/-! DEFINITION. Cuts, saves and restores (R180 to R185), and the clock ratio of a slice (R179). -/

namespace Sys2Proof.Machine

def Lane.atMwait (l : Lane) : Bool :=
  match l.wait with
  | .mwait _ _ => true
  | _ => false

/-- A cut reaches a slice (R180, R181): the deadline runs, every `mwait` of the context ends, and each
thread owes a CUT trap, which it takes once, in U mode outside a handler, if it has CUTE set. DESIGN CHOICE: log entry 34. -/
def execCutArrival (vf asid slice : Nat) (s : State) : Res :=
  let sp := spaceKey vf asid
  let c := s.ctx sp
  if !c.cut || (mget c.arrived slice).isSome then .next s
  else
    let here := (s.lanes.filter (fun p => sliceOf p.1 == slice && s.spaceOf p.1 == sp)).map (·.1)
    let s1 := s.modCtx sp (fun c => { c with arrived := mset c.arrived slice (s.cycle slice + c.cutdl) })
    .next (here.foldl (fun s k =>
      let s1 := if ((s.lane k).map Lane.atMwait).getD false then s.wakeLane k else s
      s1.modLane k (fun l => { l with cutDue := true })) s1)

/-- The deadline has passed: from now on the remaining threads of the context on the slice stop at the next instruction
boundary (R182). -/
def execCutDeadline (vf asid slice : Nat) (s : State) : Res :=
  let sp := spaceKey vf asid
  match mget (s.ctx sp).arrived slice with
  | none => .next s
  | some d =>
    if s.cycle slice < d then .next s
    else .next (s.modCtx sp (fun c => { c with arrived := mset c.arrived slice 0 }))

/-- The threads of a context on a slice issue nothing more (R182). -/
def State.cutOver (s : State) (sp slice : Nat) : Bool :=
  ((mget (s.ctx sp).arrived slice).map (fun d => decide (d ≤ s.cycle slice))).getD false

/-- A thread stands where its wave may be saved before the deadline (R182, and R306 for `waitgp`). DESIGN CHOICE: log entry 32. -/
def State.savePoint (s : State) (k : Nat) (l : Lane) : Bool :=
  match l.wait with
  | .stopped | .parked | .claim _ | .bar _ _ | .barw _ _ | .cwait _ | .waitb _ | .waitgp _ => true
  | .none => s.held k l
  | _ => false

/-- What a save waits for (R54, R182, R183, R185): every result of the wave's threads and slots, their stall counts, a movement that stalls the
wave, its matrix commands in the queue, and its requests on their way to flash. -/
def State.drained (s : State) (w : Nat) (v : Wave) : Bool :=
  let x := s.slice (w / 48)
  let t := s.cycle (w / 48)
  (s.waveLanes w).all (fun p => s.settledBy p.1 p.2 t && p.2.next ≤ t) && v.slots.all (fun p => !p.2.pend && p.2.ready ≤ t) &&
  v.stall ≤ t && v.pauses.all (fun p => p.2 ≤ t) &&
  !x.mq.any (fun m => m.who / 32 == v.uid) && !x.copies.any (fun c => v.copies.contains c.id && x.flashBusy c)

/-- How a wait is kept by a save: an instruction that waits for an entry executes again; a `yield` and an `mwait` are
past (R125, R168, R178, R227, R266, R324). -/
def keptWait (w : Wait) : Wait :=
  match w with
  | .bar b p => .bar b p
  | .barw b p => .barw b p
  | .cwait c => .cwait c
  | .waitb n => .waitb n
  | .waitgp t => .waitgp t
  | .whey => .whey
  | .stopped => .stopped
  | _ => .none

/-- An entry that a restore writes to its place again. -/
def Entry.rewritten (e : Entry) : Entry := { e.arrived with soft := false }

/-- A save reads all the entries, the slots and the trap reserve of a thread: a parity error that it finds is taken before the thread's
next instruction, after the restore (R351). DESIGN CHOICE: log entry 48. -/
def State.saveSoft (s : State) (k : Nat) (l : Lane) : Option Cause :=
  let bad (g : Nat) (es : List Entry) : Option Cause :=
    es.reverse.zipIdx.findSome? (fun p => if p.1.soft then some (softErr (g + p.2)) else none)
  (bad l.g l.chip).orElse fun _ => (bad l.hg l.hchip).orElse fun _ =>
  ((List.range (8 * ((s.wave (waveOf k)).map (·.nlb)).getD 0)).findSome? (fun n => s.softCause k n n)).orElse fun _ =>
  if l.ts.tlvl = 0 then none
  else (List.range 8).findSome? (fun i => if (l.frame.getD i {}).soft then some (softErr i) else s.softCause k (64 + i) i)

/-- A saved thread (R182, R183): all its results are there; a lane that stopped at a `yield` is quiescent and passive,
at trap level 0. -/
def savedLane (g : Nat) (soft : Option Cause) (l : Lane) : Lane :=
  let quiet := l.wait == .stopped && l.ts.tlvl == 0
  { l with
    integ := l.integ.orElse fun _ => soft
    chip := l.chip.map Entry.rewritten, hchip := l.hchip.map Entry.rewritten, frame := l.frame.map Entry.rewritten
    watch := none, cutDue := false, wait := keptWait l.wait
    qg := if quiet then g else l.qg, passive := l.passive || quiet }

/-- Save a wave (R182 to R184): every thread publishes its plain stores at device scope; the engine state of the wave
goes with it. Each thread keeps the split of its stack (R88); the wave keeps its floor, and its run starts anew (R134).
DESIGN CHOICE: log entry 32. -/
def State.saveWave (s : State) (w : Nat) : State :=
  match s.wave w with
  | none => s
  | some v =>
    let sl := w / 48
    let sp := ((s.task v.task).map Task.space).getD 0
    let s1 := ((s.waveLanes w).map (·.1)).foldl (fun s k => s.release k .device) s
    let ls := s1.waveLanes w
    let x := s1.slice sl
    let cs := x.copies.filter (fun c => v.copies.contains c.id)
    let gs := x.gates.filter (fun m => m.who / 32 == v.uid)
    let ss := x.stages.filter (fun m => m.2.cmd.who / 32 == v.uid)
    let rec_ : Saved := {
      wave := { v with slots := v.slots.map (fun p => (p.1, p.2.arrived)), was := [], last := [], run := 0, stall := 0, pauses := [] }
      lanes := ls.map (fun p => (laneNo p.1, savedLane (s1.ctx sp).gBegun (s1.saveSoft p.1 p.2) p.2))
      slice := sl
      areas := ls.map (fun p => (laneNo p.1, s1.areasAt p.1 p.2))
      copies := cs, replay := x.replay.filter (pairOf cs), held := x.held.filter (pairOf cs)
      again := x.again.filter (pairOf cs), gates := gs, stages := ss }
    let s2 := s1.setSlice sl (x.without cs gs (ss.map (·.1)))
    let s3 : State := { s2 with lanes := s2.lanes.filter (fun p => waveOf p.1 != w), waves := mdel s2.waves w }
    (s3.modCtx sp (fun c => { c with saved := c.saved ++ [rec_] })).settleCuts

/-- A wave of a cut context may be saved: the cut has reached it, what a save waits for is over, and each of its threads has
stopped, or the deadline has passed (R182). -/
def State.maySave (s : State) (w : Nat) (v : Wave) : Bool :=
  let sp := ((s.task v.task).map Task.space).getD 0
  (mget (s.ctx sp).arrived (w / 48)).isSome && s.drained w v &&
    (s.cutOver sp (w / 48) || (s.waveLanes w).all (fun p => s.savePoint p.1 p.2))

/-- The waves that are saved together: those of a gang as one (R196). -/
def State.savedWith (s : State) (w : Nat) (v : Wave) : List (Nat × Wave) :=
  if ((s.task v.task).map (fun t => t.members.length)).getD 1 ≤ 1 then [(w, v)]
  else s.waves.filter (fun p => p.2.task == v.task)

def execWaveSave (slice place : Nat) (s : State) : Res :=
  let w := placeKey slice place
  match s.wave w with
  | none => .next s
  | some v =>
    let ws := s.savedWith w v
    if 48 ≤ place || !ws.all (fun p => s.maySave p.1 p.2) then .next s
    else finish (ws.foldl (fun s p => s.saveWave p.1) s)

/-- A slice has room for the engine state of a saved wave; its staging slots are empty (R279). -/
def Slice.roomFor (x : Slice) (v : Saved) : Bool :=
  x.copies.length + v.copies.length ≤ 48 && x.gates.length + v.gates.length ≤ 8 &&
  x.replay.length + v.replay.length ≤ 16 && (x.held.isNone || v.held.isNone) &&
  v.stages.all (fun p => (mget x.stages p.1).isNone)

/-- A task of one member slice may move within its cluster, while nothing of it is left on the slice: its barriers and its
accumulator buffers fit there, and the engine state saved of it (R279). Blocks never pass between slices (R117). -/
def State.mayMove (s : State) (tn slice : Nat) (t : Task) : Bool :=
  let old := t.members.headD 0
  t.members.length == 1 && slice < 576 && slice / 6 == old / 6 && !s.waves.any (fun p => p.2.task == tn) &&
  !(s.slice old).busyFor tn && (s.savedOf t tn).all (fun v => !v.lanes.isEmpty || (s.slice slice).roomFor v) && ((s.tasksOn slice).map (·.nbar)).sum + t.nbar ≤ 32 &&
  (!t.acc || (s.slice slice).accBy.isNone)

/-- Bytes of a space move to another place, for every agent. -/
def State.moveSpace (s : State) (src dst n : Nat) : State :=
  let cs := s.mem.filter (fun c => src ≤ c.1 && c.1 < src + n)
  let s1 := cs.foldl (fun s c => s.devStore (c.1 - src + dst) [c.2] .system) (s.zeroFill dst n)
  let ls := s1.poison.filter (fun p => src ≤ 64 * p.1 && 64 * p.1 < src + n)
  ls.foldl (fun s p => s.setPoison (p.1 - src / 64 + dst / 64) p.2) s1

/-- The task moves to a slice of its cluster, with its accumulator contents and the engine state saved of it (R279); the blocks of
its pool become free. -/
def State.moveTask (s : State) (tn slice : Nat) (t : Task) : State :=
  let old := t.members.headD 0
  let s1 := ((s.setTask tn { t with members := [slice] }).modSlice old (fun x =>
    { x with pools := mdel x.pools tn, accBy := if t.acc then none else x.accBy })).modCtx t.space (fun c =>
    { c with saved := c.saved.map (fun v => if v.wave.task = tn && v.lanes.isEmpty then { v with slice := slice } else v) })
  if t.acc then (s1.modSlice slice (fun x => { x with accBy := some tn })).moveSpace (accKey old 0) (accKey slice 0) 65536 else s1

/-- Where a saved wave may be placed again: on its slice, on another member slice where no accumulator buffers are
concerned, or with its whole task. DEDUCED: log entry 33. -/
def State.mayLand (s : State) (tn slice : Nat) (t : Task) (v : Saved) : Bool :=
  (t.members.contains slice && (slice == v.slice || !t.acc || t.members.length == 1)) || s.mayMove tn slice t

/-- A restored thread: a yield-saved one is no longer passive; its loads return nothing older than what was visible at
device scope (R184). -/
def State.restoredLane (s : State) (sp slice : Nat) (l : Lane) : Lane :=
  let quiet := l.wait == .stopped && l.passive
  { l with
    next := s.cycle slice + 1
    wait := if l.wait = .stopped then .none else l.wait
    passive := l.passive && !quiet
    qg := if quiet then (s.ctx sp).gBegun else l.qg
    view := boundaryView s.rels slice .device l.view, ord := s.nextId }

/-- A lane whose phase completed while it was saved departs. -/
def State.departLate (s : State) (k : Nat) : State :=
  match (s.lane k).bind (fun l => l.wait.barOf) with
  | some (b, p) =>
    let x := s.barrier (s.taskNo k) b
    if p < x.phase then s.departWaiter k b x.scope else s
  | none => s

/-- The stamp of a request of a slice's copies. -/
def Slice.stampOf (x : Slice) (p : Nat × Nat) : Nat :=
  ((x.copies.find? (fun c => c.id == p.1)).bind (fun c => c.reqs.find? (fun q => q.id == p.2))).elim 0 (·.stamp)
def Slice.insertPair (x : Slice) (p : Nat × Nat) : List (Nat × Nat) → List (Nat × Nat)
  | [] => [p]
  | q :: r => if x.stampOf p < x.stampOf q then p :: q :: r else q :: x.insertPair p r
/-- Requests in the order of their stamps (R237). -/
def Slice.inOrder (x : Slice) (ps : List (Nat × Nat)) : List (Nat × Nat) := ps.foldl (fun r p => x.insertPair p r) []
/-- Put the engine state of a saved wave back (R183): its parked requests take their places in the parking order. -/
def State.putEngines (s : State) (sl : Nat) (v : Saved) : State :=
  s.modSlice sl (fun x0 =>
    let x : Slice := { x0 with copies := x0.copies ++ v.copies }
    ({ x with
      replay := x.inOrder (x.replay ++ v.replay), again := x.inOrder (x.again ++ v.again)
      held := if x.held.isSome then x.held else v.held
      gates := x.gates ++ v.gates, stages := v.stages.foldl (fun m p => mset m p.1 p.2) x.stages } : Slice).settleHeld)

/-- Put a saved wave on a wave place (R183, R184, R353). Its slots and trap reserves are written: no parity error is left. -/
def State.putBack (s : State) (sp w : Nat) (v : Saved) : State :=
  let sl := w / 48
  let ks := v.lanes.map (fun p => w * 32 + p.1)
  let s0 := (s.mendAll (softKey (w * 32) 0) (softKey (w * 32 + 32) 0)).setWave w v.wave
  let s1 := v.lanes.foldl (fun s p => s.setLane (w * 32 + p.1) (s.restoredLane sp sl p.2)) s0
  let s2 := s1.putEngines sl v
  let s4 := v.lanes.foldl (fun s p => (mgetD v.areas p.1 []).foldl (fun s a => s.putArea (w * 32 + p.1) p.2 a) s) s2
  let s5 : State := if sl = v.slice then s4 else { s4 with
    icinvs := { slice := sl, scope := .slice, space := sp, view := boundaryView s4.rels sl .device [] } :: s4.icinvs }
  ks.foldl (fun s k => s.departLate k) s5

/-- A saved record is taken out; with the last one the context is restored. -/
def State.dropSaved (s : State) (sp idx : Nat) : State := s.modCtx sp (fun c =>
  { c with saved := c.saved.eraseIdx idx, boost := c.boost && !(c.saved.eraseIdx idx).isEmpty })

/-- Place one saved wave again, where it fits (R184). -/
def State.restoreAt (s : State) (sp idx slice place : Nat) : Option State :=
  let w := placeKey slice place
  match (s.ctx sp).saved[idx]? with
  | none => none
  | some v =>
    match s.task v.wave.task with
    | none => none
    | some t =>
      let n := v.wave.nlb + v.wave.sb
      if 48 ≤ place || !s.mayRun sp || (s.wave w).isSome || s.placesFree slice = 0 || s.blocksFree slice < n ||
          !s.mayLand v.wave.task slice t v || !(s.slice slice).roomFor v then none
      else
        let s1 := if t.members.contains slice then s else s.moveTask v.wave.task slice t
        some ((s1.dropSaved sp idx).putBack sp w v)

/-- The other saved waves of a gang come back with the first (R196), each to its own slice, at its lowest free place; all of
them, or none. -/
def State.restoreRest (s : State) (sp tn : Nat) : Nat → Option State
  | 0 => some s
  | n + 1 =>
    match (s.ctx sp).saved.zipIdx.find? (fun p => p.1.wave.task == tn && !p.1.lanes.isEmpty) with
    | none => some s
    | some (v, i) =>
      match (List.range 48).find? (fun x => (s.wave (placeKey v.slice x)).isNone) with
      | some x => (s.restoreAt sp i v.slice x).bind (fun t => t.restoreRest sp tn n)
      | none => none

/-- A saved wave is placed again (R184): with the rest of its gang. A record without lanes is engine state, which goes back to
its own slice, or to that to which its task has moved. -/
def State.restore (s : State) (sp idx slice place : Nat) : Option State :=
  match (s.ctx sp).saved[idx]? with
  | none => none
  | some v =>
    if v.lanes.isEmpty then
      if s.mayRun sp && slice == v.slice && place == 0 && (s.slice slice).roomFor v then
        some ((s.dropSaved sp idx).putEngines slice v)
      else none
    else
      (s.restoreAt sp idx slice place).bind (fun t =>
        if ((s.task v.wave.task).map (fun x => x.members.length)).getD 1 ≤ 1 then some t
        else t.restoreRest sp v.wave.task (s.ctx sp).saved.length)

/-- The ways in which a saved record of a context may be placed again (R184). -/
def State.restorePlaces (s : State) (sp : Nat) : List Instr :=
  (s.ctx sp).saved.zipIdx.flatMap (fun v =>
    (if v.1.lanes.isEmpty then [(v.1.slice, 0)]
     else
      (((s.task v.1.wave.task).map (fun t => (List.range 6).map (· + 6 * t.cluster))).getD []).flatMap
        (fun m => (List.range 48).map (fun x => (m, x)))).filterMap (fun p =>
      if (s.restore sp v.2 p.1 p.2).isSome then some (.waveRestore (sp / 16384) (sp % 16384) v.2 p.1 p.2) else none))

/-- Saved waves of contexts with a grace boost that may be placed again in the take of their virtual function (R303, R366). -/
def State.boosted (s : State) : List Instr :=
  ((s.ctxs.filter (fun c => c.2.owed)).map (fun c => s.restorePlaces c.1)).find? (fun r => !r.isEmpty) |>.getD []

def execWaveRestore (vf asid idx slice place : Nat) (s : State) : Res :=
  match s.restore (spaceKey vf asid) idx slice place with
  | some t => finish t
  | none => .next s

/-- The ratio code at which a slice runs (R378, R379, R383). -/
def State.ratioFor (s : State) (slice : Nat) : Nat :=
  let x := s.slice slice
  Nat.min 4 (((s.tasksOn slice).map (·.tcode)).foldl Nat.max x.thermal + bit x.slow)

/-- A slice's ratio changes at the start of a window (R179). -/
def execClockRatioChange (slice code : Nat) (s : State) : Res :=
  if s.now % 8 = 0 && code = s.ratioFor slice then .next (s.modSlice slice (fun x => { x with ratio := code })) else .next s

end Sys2Proof.Machine
end

