-- ==== Sys2Proof/Machine/Frames.lean ====
section
/-! DEFINITION. Frame tiles and bins (R246 to R263). -/

namespace Sys2Proof.Machine

def isFrame (e : List Word) : Bool := (geomOf e).kind == 3
/-- k, the live count, and the capacity in rows. -/
def frK (e : List Word) : Nat := wordOf e 1 % 2 ^ 32
def frRows (e : List Word) : Nat := wordOf e 1 / 2 ^ 32

/-- Head of a site (R246). -/
def siteHead (t : Task) (n : Nat) : Option Nat :=
  let fs := t.tens.filter (fun p => isFrame p.2)
  (fs.find? (fun p => frSite p.2 == n && !fs.any (fun q => frChain q.2 == p.1))).map (·.1)

/-- The chain from a tile, without the tiles already visited (R246). -/
def chainFrom (t : Task) (site k : Nat) : Nat → List Nat → Nat → List Nat
  | 0, seen, _ => seen
  | f + 1, seen, tid =>
    match mget t.tens tid with
    | some e =>
      if isFrame e && frSite e == site && frK e == k && !seen.contains tid then chainFrom t site k f (seen ++ [tid]) (frChain e)
      else seen
    | none => seen

def siteChain (t : Task) (n : Nat) : List Nat :=
  match siteHead t n with
  | some h => chainFrom t n (frK ((mget t.tens h).getD [])) 128 [] h
  | none => []

/-- Lowest free row of a tile: no HELD, OCC or WAKE (R247). -/
def freeRow (e : List Word) : Option Nat :=
  (List.range (frRows e)).find? (fun r => !(frHeld e).testBit r && !(frOcc e).testBit r)
/-- The first free row along a chain (R252, R253). -/
def freeInChain (t : Task) (ch : List Nat) : Option (Nat × Nat) :=
  ch.findSome? (fun tid => (mget t.tens tid).bind (fun e => (freeRow e).map (fun r => (tid, r))))

/-- Details of R254 and R255. -/
def siteCause (group code site mid low value : Nat) : Cause := mkCause group (site * 256 + code) (mid * 256 + low) value
def frameFull (t : Task) (site value : Nat) : Cause :=
  let ch := siteChain t site
  siteCause 9 1 site ch.length (ch.getLastD 0) value
def binCause (reason tid row site : Nat) : Cause := mkCause 8 (1024 + reason) (row % 256 * 256 + tid % 256) site

def tileSet (s : State) (tn tid i v : Nat) : State := s.modTask tn (fun t => modTens t tid (fun e => setWord e i v))
def tileOf (s : State) (tn tid : Nat) : List Word := ((s.task tn).bind (fun t => mget t.tens tid)).getD []

/-- Reserve a row for a thread (R252). -/
def execRowres (w : StallL) (n : BitVec 12) (s : State) : Res :=
  finish (runEach (.rowres w n) (fun s k _ =>
    let tn := s.taskNo k
    match s.task tn with
    | none => (s, .left)
    | some t =>
      if (siteHead t n.toNat).isNone then (s, .trap (binCause 1 0 0 n.toNat))
      else
        let s1 := s.dropResv k
        match (s1.task tn).bind (fun t => freeInChain t (siteChain t n.toNat)) with
        | none => (s, .trap (frameFull t n.toNat 0))
        | some (tid, r) =>
          ((tileSet s1 tn tid 4 (setBit (frHeld (tileOf s1 tn tid)) r)).modLane k (fun l => { l with resv := some (tid, r) }),
            .go [(BitVec.ofNat 64 (tid * 256 + r), [])])) s)

/-- The row that a suspend takes: the one reserved, or the lowest free one along the chain. -/
def suspendRow (t : Task) (l : Lane) (n : Nat) : Option (Nat × Nat) :=
  match l.resv with
  | some p => some p
  | none => freeInChain t (siteChain t n)

/-- Value of the entry with a bottom index, on chip or in backing store. -/
def State.bottomEntry (s : State) (k : Nat) (l : Lane) (j : Nat) : Entry × State := s.pos k l (l.depth - 1 - j)

/-- Column by column, a thread's entries become a row (R253). -/
def State.writeRow (s : State) (k : Nat) (l : Lane) (e : List Word) (r : Nat) : Nat → State × List (List Nat)
  | 0 => (s, [])
  | j + 1 =>
    let (s1, ds) := s.writeRow k l e r j
    let (x, s2) := s1.bottomEntry k l j
    let key := chipKey 3 (sliceOf k) ((geomOf e).base + 8 * (frK e * r + j))
    (s2.laneWrite k key (leBytes 8 x.val.toNat) (some .cluster) none 0, ds ++ [x.deps])

/-- The bytes of a row. -/
def inRow (slice : Nat) (e : List Word) (r key : Nat) : Bool :=
  let a := chipKey 3 slice ((geomOf e).base + 8 * frK e * r)
  a ≤ key && key < a + 8 * frK e

/-- The thread becomes a row of a tile (R253, R260): a release at device scope, and for `suspend` a quiescent point. `live` is
the site's live count; a tile that holds the thread's reservation though its own count differs takes as many columns as it
has. An INTEGRITY or HARDWARE that the lane owes from its backing store goes with the lane (DESIGN CHOICE: log entry 25).
DEDUCED: log entry 53. -/
def State.becomeRow (s : State) (k tid r live stall : Nat) (kept : Bool) : State :=
  let tn := s.taskNo k
  let s0 := if kept then s else s.quiesce k
  match s0.lane k with
  | none => s0
  | some l =>
    let e := tileOf s0 tn tid
    let (sw, ds) := s0.writeRow k l e r (Nat.min live (frK e))
    let s1 := sw.release k .device
    let seen := viewJoin (boundaryView s1.rels (sliceOf k) .cluster []) (((s1.lane k).map (·.view)).getD [])
    let rec_ : RowRec := {
      thx := l.thx, fctl := l.fctl, ts := l.ts, since := s.now, qg := l.qg, kept := kept, stall := stall, deps := ds
      seen := l.seen, view := ((s1.lane k).map (·.view)).getD [], past := l.past
      floor := seen.filter (fun p => inRow (sliceOf k) e r p.1) }
    let s2 := tileSet (tileSet s1 tn tid 4 (clearBit (frHeld e) r)) tn tid 7 (setBit (frOcc e) r)
    let s3 := s2.modTask tn (fun t => { t with rows := mset t.rows (64 * tid + r) rec_ })
    let s4 := s3.modLane k (fun l => { l with resv := none })
    s4.leave k

/-- `suspend` and `suspendk`: the checks of R253 in order. -/
def suspendLane (n stall : Nat) (kept : Bool) (s : State) (k : Nat) : State × LOut :=
  match s.taskOf k, s.lane k with
  | some t, some l =>
    match siteHead t n with
    | none => (s, .trap (binCause 1 0 0 n))
    | some h =>
      let live := frK ((mget t.tens h).getD [])
      let wrong := match l.resv with
        | some (x, _) => (mget t.tens x).map frSite != some n
        | none => false
      if l.depth ≠ live then (s, .trap (siteCause 2 6 n 0 live l.depth))
      else if wrong then (s, .trap (binCause 2 ((l.resv.map (·.1)).getD 0) ((l.resv.map (·.2)).getD 0) n))
      else
        match suspendRow t l n with
        | none => (s, .trap (frameFull t n (if kept then 2 else 1)))
        | some (tid, r) =>
          if t.editing tid then (s, .hold (.frameEdit tid)) else (s.becomeRow k tid r live (if l.ilk = .lock then 0 else stall) kept, .left)
  | _, _ => (s, .left)

/-- ( x(k−1) … x0 -- ) -/
def execSuspend (w : StallL) (n : BitVec 12) (s : State) : Res :=
  finish (runEach (.suspend w n) (fun s k _ => suspendLane n.toNat w.toNat false s k) s)
def execSuspendk (w : StallL) (n : BitVec 12) (s : State) : Res :=
  finish (runEach (.suspendk w n) (fun s k _ => suspendLane n.toNat w.toNat true s k) s)

/-- Set WAKE for rows of a tile that are reserved or occupied (R256). -/
def wakeRows (s : State) (tn tid : Nat) (mask : Nat) : State :=
  let e := tileOf s tn tid
  let new := mask &&& (frHeld e ||| frOcc e)
  (tileSet s tn tid 6 (frWake e ||| new)).seeRows tn tid (new &&& ((2 ^ 64 - 1) ^^^ frWake e))

/-- A valid row handle (R250). -/
def handleOk (t : Task) (x : Nat) : Bool :=
  x / 65536 == 0 && ((mget t.tens (x / 256)).map (fun e => isFrame e && x % 256 < frRows e)).getD false

/-- The whole strand waits while its wave's bank operations on a tile that one of its handles names are in progress (R134,
R224, R256). -/
def State.wakeHolds (s : State) : Option Nat :=
  s.active.findSome? (fun k =>
    match (s.lane k).bind (fun l => l.stk.head?), s.taskOf k with
    | some e, some t =>
      let x := e.val.toNat
      if handleOk t x && s.waveHolds (s.taskNo k) (waveOf k) (x / 256) false false then some (x / 256) else none
    | _, _ => none)

/-- ( h -- ) DEDUCED: log entry 43. -/
def execWakeRow (w : StallL) (s : State) : Res :=
  match s.wakeHolds with
  | some tid => .next (s.strandWaits (.wakeRow w) (.tensor tid))
  | none => if s.binBusy s.active then .next (s.strandWaits (.wakeRow w) .bin) else finish (runEach (.wakeRow w) (fun s k ops =>
    let x := (ops.getD 0 {}).val.toNat
    match s.taskOf k with
    | none => (s, .left)
    | some t =>
      if !handleOk t x then (s, .trap (binCause 3 (x / 256) x 0))
      else (wakeRows (s.release k .cluster) (s.taskNo k) (x / 256) (2 ^ (x % 256)), .go [])) s)

def execWakeSite (w : StallL) (n : BitVec 12) (s : State) : Res :=
  finish (runElected (.wakeSite w n) (fun s ks e _ =>
    if s.binBusy ks then (s, .hold .bin)
    else
    let tn := s.taskNo e
    let ch := ((s.task tn).map (fun t => siteChain t n.toNat)).getD []
    (ch.foldl (fun s tid => wakeRows s tn tid (2 ^ 64 - 1)) (s.release e .cluster), .all [])) s)

/-- A parked `mwait` of the named thread of the task ends; nothing is remembered (R256). -/
def execWakeThr (w : StallL) (s : State) : Res :=
  finish (runEach (.wakeThr w) (fun s k ops =>
    let x := (ops.getD 0 {}).val.toNat
    let hit := s.lanes.find? (fun p => s.taskNo p.1 == s.taskNo k && p.2.thx == x && (match p.2.wait with
      | .mwait _ _ => true
      | _ => false))
    match hit with
    | some (j, _) => (s.wakeLane j, .go [])
    | none => (s, .go [])) s)

/-- A tile is flushed: the rows that are ready now resume whatever THR says (R257). -/
def flushTile (s : State) (tn tid : Nat) : State :=
  let rows := (readyRows (tileOf s tn tid)).foldl (fun m r => setBit m r) 0
  s.modTask tn (fun t => { t with due := mset t.due tid (mgetD t.due tid 0 ||| rows) })

def execFlush (w : StallL) (n : BitVec 12) (s : State) : Res :=
  finish (runElected (.flush w n) (fun s ks e _ =>
    if s.binBusy ks then (s, .hold .bin)
    else
    let tn := s.taskNo e
    let ch := ((s.task tn).map (fun t => siteChain t n.toNat)).getD []
    (ch.foldl (fun s tid => flushTile s tn tid) (s.release e .cluster), .all [])) s)

/-- A row has slept for AGE cluster cycles, and this has not been acted on: ages stand still while the context is saved
(R257, R262). -/
def rowAged (s : State) (t : Task) (tid row : Nat) : Bool :=
  match mget t.tens tid, mget t.rows (64 * tid + row) with
  | some e, some r =>
    let age := (t.frLimits tid s.now e).2
    isFrame e && age != 0 && !r.aged && r.since + age ≤ s.now && s.take == some t.vf
  | _, _ => false

/-- The row is woken, and its tile is flushed (R257). -/
def execFrameAgeExpiry (task tid row : Nat) (s : State) : Res :=
  match s.task task with
  | none => .next s
  | some t =>
    if rowAged s t tid row then
      .next (flushTile (wakeRows (s.modTask task (fun t =>
        { t with rows := mmod t.rows (64 * tid + row) (fun r => { r with aged := true }) })) task tid (2 ^ row)) task tid)
    else .next s

/-- The loaded row reads each element no older than what was visible at cluster scope when the row was made ready; of a write
that is not ordered so it has the value before or after, each element by itself (R261). The first n columns, lowest first. A
poisoned line, or one in error, is loaded as it is stored. DESIGN CHOICE: log entry 26. -/
def State.loadRow (s : State) (slice : Nat) (e : List Word) (r : Nat) (x : RowRec) : Nat → List Entry × State
  | 0 => ([], s)
  | n + 1 =>
    let (es, s1) := s.loadRow slice e r x n
    let key := chipKey 3 slice ((geomOf e).base + 8 * (frK e * r + n))
    let (v, s2) := s1.readVer x.floor (fun _ => false) key 8
    (es ++ [{ val := BitVec.ofNat 64 (leNat v.bytes), deps := x.deps.getD n [] }], s2)

/-- A resumed thread (R259): nothing of it is in backing store when it fits on chip, else its lowest entries are. It is
quiescent from its `suspend` on, and as its row was after a `suspendk` (R300, R302). -/
def State.resumeLane (s : State) (t : Task) (slice : Nat) (e : List Word) (r : Nat) (x : RowRec) : Lane × State :=
  let (es, s1) := s.loadRow slice e r x (frK e)
  let l : Lane := {
    thx := x.thx, pc := (e.getD 3 0) &&& 0x00FFFFFFFFFFFFFF#64, fctl := x.fctl
    ts := { x.ts with mode := .u, tlvl := 0, ilk := t.ilk }
    qg := if x.kept then x.qg else (s.ctx t.space).gBegun
    view := boundaryView s.rels slice .device [], seen := x.seen, ord := s.nextId, past := x.past
    next := s.cycle slice + 1 + x.stall }
  (es.foldl (fun l e => l.push e) l, s1)

/-- The threads of a list of rows. -/
def State.resumeLanes (s : State) (t : Task) (tid slice : Nat) (e : List Word) : List Nat → List Lane × State
  | [] => ([], s)
  | r :: rs =>
    let (l, s1) := s.resumeLane t slice e r ((mget t.rows (64 * tid + r)).getD
      { thx := 0, fctl := 0, ts := {}, since := 0, qg := 0, kept := false })
    let (ls, s2) := s1.resumeLanes t tid slice e rs
    (l :: ls, s2)

/-- Entries beyond the on-chip capacity go to backing store. -/
def State.spill (s : State) (k : Nat) : State :=
  match s.lane k with
  | some l => if s.cap k l < l.stk.length then (s.drain k 0).stallWave (waveOf k) 4 else s
  | none => s

/-- A due resume forms a fresh wave from at most 32 ready rows; the others are considered again in the next cluster cycle
(R258, R259). -/
def execResumeLoad (task tid slice place : Nat) (s : State) : Res :=
  match s.task task with
  | none => .next s
  | some t =>
    let rows := dueRows t tid s.now
    let e := (mget t.tens tid).getD []
    let w := placeKey slice place
    if rows.isEmpty || 48 ≤ place || !t.members.contains slice || !s.mayRun t.space || t.editing tid ||
        !s.fitsWave task w (frRslots e) (frRsb e) then .next s
    else
      let mask := rows.foldl (fun m r => setBit m r) 0
      let clear (n : Nat) : Nat := n - (n &&& mask)
      let (lanes, s0) := s.resumeLanes t tid slice e rows
      let s1 := tileSet (tileSet s0 task tid 6 (clear (frWake e))) task tid 7 (clear (frOcc e))
      let s2 := s1.modTask task (fun t => { t with
        rows := rows.foldl (fun m r => mdel m (64 * tid + r)) t.rows
        due := mset t.due tid (clear (mgetD t.due tid 0))
        dueAt := mset t.dueAt tid (s.now + 1) })
      let s3 := s2.putWave task w 0 (frRslots e) (frRsb e) t.prio
        (lanes.zipIdx.map (fun p => (p.2, p.1)))
      finish ((List.range rows.length).foldl (fun s l => s.spill (w * 32 + l)) s3)

end Sys2Proof.Machine
end

