-- ==== Sys2Proof/Machine/Power.lean ====
section
/-! DEFINITION. The gaffer (R378 to R382), thermal safety (R383), machine checks (R351) and the EVENT word (R384). -/

namespace Sys2Proof.Machine

/-- THROTTLE OVERDRAW (R351): the slice's ratio code is that of the slice on which it is delivered. -/
def throttleCause (cluster : Nat) : Cause := { mkCause 17 1 cluster 0 with asy := true }

/-- A cause posted while its bit is set merges into it (R352); a context cause wakes the firmware (R363). -/
def State.postThrottle (s : State) (sp cluster : Nat) : State :=
  (s.modCtx sp (fun c => if c.thr.isSome then c else { c with thr := some (throttleCause cluster) })).note
    (.contextCause (sp / 16384) (sp % 16384))

/-- A task's draw is above its charge, or at most three quarters of it, in eighths (R379). DESIGN CHOICE: log entry 39. -/
def overdrawn (t : Task) (d : Nat) : Bool := t.energy * ratioN t.tcode < 8 * d
def lowDraw (t : Task) (d : Nat) : Bool := 32 * d ≤ 3 * (t.energy * ratioN t.tcode)

/-- The charge at one code less fits the remaining budget (R379). -/
def State.fitsFaster (s : State) (c : Nat) (t : Task) : Bool :=
  s.energyUsed c - t.charge8 + t.energy * ratioN (t.tcode - 1) ≤ 8 * (s.cluster c).budget

/-- A task at the end of an interval with draw d (R379). -/
def State.judgeDraw (s : State) (c tn d : Nat) : State :=
  match s.task tn with
  | none => s
  | some t =>
    let u : Task := { t with draw := d, trickle := t.lent, calm := 0 }
    if overdrawn t d then
      if t.tcode < 4 then (s.setTask tn { u with tcode := t.tcode + 1 }).postThrottle t.space c
      else (s.setTask tn { u with trickle := true }).postThrottle t.space c
    else if lowDraw t d then
      if 15 ≤ t.calm && 0 < t.tcode && s.fitsFaster c t then
        s.setTask tn { u with tcode := t.tcode - 1, lent := false, trickle := false }
      else s.setTask tn { u with calm := t.calm + 1 }
    else s.setTask tn u

-- Reclaim (R380).
/-- Admitted charges of a virtual function in a cluster, in eighths. -/
def State.chargesOf (s : State) (c vf : Nat) : Nat :=
  (((s.tasksIn c).filter (fun t => t.vf == vf)).map Task.charge8).sum
/-- The share of a virtual function in a cluster's budget (R378). -/
def State.shareOf (s : State) (c vf : Nat) : Nat := mgetD (s.vf vf).share c 0
def State.borrows (s : State) (c vf : Nat) : Bool := 8 * s.shareOf c vf < s.chargesOf c vf

/-- A launch whose next task waits at the head of a pool. -/
def State.waits (s : State) (lk : Nat) : Bool :=
  (mget s.launches lk).any (fun l => l.checked && l.next < l.ntask && s.headsPool lk l)
/-- The owners' tasks that wait, fit what their functions' shares of the cluster leave unused, and do not fit the remaining budget. -/
def State.owed (s : State) (c : Nat) : List Nat :=
  s.launches.foldl (fun r p =>
    let mine := ((r.filterMap (mget s.launches)).filter (fun l => l.vf == p.2.vf)).map Launch.need
    if s.waits p.1 && s.chargesOf c p.2.vf + mine.sum + p.2.need ≤ 8 * s.shareOf c p.2.vf &&
        8 * (s.cluster c).budget < s.energyUsed c + p.2.need then r ++ [p.1] else r) []

/-- Raise T of borrowing tasks by 1, youngest first, until the owner's charge fits; one at code 4 is capped and counts
as 0. -/
def State.reclaimFrom (s : State) (c e : Nat) : List Nat → State
  | [] => s
  | tn :: r =>
    if s.energyUsed c + e ≤ 8 * (s.cluster c).budget then s
    else
      (s.modTask tn (fun t =>
        if t.tcode < 3 then { t with tcode := t.tcode + 1 } else { t with tcode := 4, lent := true, trickle := true })).reclaimFrom c e r

/-- The gaffer reclaims for the owners' tasks, and keeps what it frees for them until they are placed (R380). -/
def State.reclaim (s : State) (c : Nat) : State :=
  let old := (s.cluster c).hold.filter s.waits
  let new := old ++ (s.owed c).filter (fun p => !old.contains p)
  let s1 := s.modCluster c (fun x => { x with hold := new })
  let bs := (s.tasks.filter (fun p => p.2.cluster == c && s.borrows c p.2.vf && !p.2.lent)).map (·.1)
  if new.isEmpty then s1 else s1.reclaimFrom c ((new.filterMap (mget s.launches)).map Launch.need).sum bs.reverse

/-- Cluster cycles of a control interval: 1 µs at 1.2 GHz (R3, R16). -/
def intervalCycles : Nat := 1200

/-- A control interval of a cluster ends (R379): charges of retired tasks return (R205), draws are judged, and the
activity budgets start again (R382). An interval is 1 µs of the cluster clock (R16). The free values that the gaffer's estimates
may be are used up; how many refresh and scrub slots it used, up to their cap, is the memory's own (R382, R383). -/
def execControlIntervalEnd (cluster : Nat) (draws : List (Nat × Nat)) (overCurrent : Bool) (s : State) : Res :=
  if s.now < (s.cluster cluster).since + intervalCycles then .next s
  else
  let s1 := s.modCluster cluster (fun c => { c with
    intv := c.intv + 1, owedE := 0, owedI := 0, since := c.since + intervalCycles, regs := 0
    refresh := Config.freeNat (s.free + draws.length + 1) % (c.refreshCap + 1) })
  let ts := (s1.tasks.filter (fun p => p.2.cluster == cluster)).map (·.1)
  let s2 := ts.foldl (fun s tn => s.judgeDraw cluster tn (mgetD draws tn 0)) s1
  let s3 := (s2.reclaim cluster)
  let s4 := (List.range 6).foldl (fun s i => s.modSlice (6 * cluster + i) (fun x => { x with slow := overCurrent })) s3
  .next { s4 with budget := s4.budget.filter (fun p => p.1 % 96 != cluster), free := s4.free + draws.length + 2 }

/-- A thermal limit is in force somewhere (R383, R384). -/
def State.hot (s : State) : Bool := s.dieHot.any (fun p => p.2 != 0) || s.stackHot.any (fun p => p.2 != 0)

/-- THERMAL is set for every virtual function, and posted to the firmware (R383). DESIGN CHOICE: log entry 39. -/
def State.raiseThermal (s : State) (code : Nat) : State :=
  ((s.vfs.map (·.1)).foldl (fun s v => (s.raise v 0).modVf v (fun f => { f with thermal := s.hot })) s).note (.thermal code)

/-- A die sets its thermal code, or an HBM stack goes above or below its limit (R383). -/
def execThermalEvent (at_ : ThermalAt) (code : Nat) (s : State) : Res :=
  match at_ with
  | .die d =>
    let c := Nat.min 4 code
    let s1 : State := { s with dieHot := mset s.dieHot d c }
    .next (((List.range 288).foldl (fun s i => s.modSlice (288 * d + i) (fun x => { x with thermal := c })) s1).raiseThermal c)
  | .stack p => .next (({ s with stackHot := mset s.stackHot p code } : State).raiseThermal code)

def Unit4.code : Unit4 → Nat
  | .copyEngine => 0 | .matrixArray => 1 | .binUnit => 2 | .bankEngine => 3

/-- A unit fails: MACHINE_CHECK is posted to each context with waves on the slice, and set in EVENT (R351, R352). -/
def execMachineCheck (slice : Nat) (unit : Unit4) (s : State) : Res :=
  let sps := ((s.waves.filter (fun p => p.1 / 48 == slice)).filterMap (fun p => (s.task p.2.task).map Task.space)).dedup
  let c := { mkCause 15 (Unit4.code unit * 256 + 4) (slice % 1024) 0 with asy := true }
  .next (sps.foldl (fun s sp =>
    ((s.modCtx sp (fun x => if x.mc.isSome then x else { x with mc := some c })).raise (sp / 16384) 2).note
      (.contextCause (sp / 16384) (sp % 16384))) s)

/-- The host writes ones to EVENT (R384). -/
def execEventClear (vf : Nat) (mask : BitVec 4) (s : State) : Res :=
  if (mget s.vfs vf).isNone then .next s
  else .next (s.modVf vf (fun f => { f with event := ((BitVec.ofNat 4 f.event) &&& ~~~mask).toNat }))

end Sys2Proof.Machine
end

