-- ==== Sys2Proof/Machine/Queues.lean ====
section
/-! DEFINITION. Packets of the queue slots (R358 to R362), kicks (R363), the scheduler (R364 to R366), and what it sets up
for software (R340, R358, R181). -/

namespace Sys2Proof.Machine

/-- Everything that the device has observed is published with what it writes (R359, R360). -/
def State.devRelease (s : State) (key : Nat) (bytes : List Byte) (sc : Scope) (atom : Bool) : State :=
  (s.addRel noSlice sc (boundaryView s.rels noSlice sc [])).devStore key bytes sc atom

/-- The reel that a queue slot serves. -/
def State.slotReel (s : State) (slot : Nat) : Option (Nat × Reel) := s.reels.find? (fun p => p.2.slot == some slot)

def Reel.space (r : Reel) : Nat := spaceKey r.vf r.asid
/-- The segment that holds HEAD. -/
def State.headSeg (s : State) (r : Reel) : Option Nat :=
  if r.segNo = 0 then s.segment r.space r.header 0 else some r.seg

/-- A slot reads at HEAD: its reel has been kicked, no WAIT is pending, and the segment is known (R359, R363). -/
def Reel.reads (r : Reel) : Bool := r.pending && r.waitOn.isNone && r.head / 63 == r.segNo

/-- The packet at HEAD, when its word 0 carries the index (R360): nothing is read behind a WAIT (R359), before the splice
has been read, or before a kick. -/
def State.packetAt (s : State) (r : Reel) : Option (List Word) :=
  if !r.reads then none
  else
    match (s.headSeg r).bind (fun seg => s.devWords r.space (packetVa seg (r.head % 63)) 8) with
    | some ws => if wordOf ws 0 / 2 ^ 32 = r.head % 2 ^ 32 then some ws else none
    | none => none

/-- Words from i on, up to CMPL, are zero. -/
def zeroFrom (ws : List Word) (i : Nat) : Bool := ((ws.take 7).drop i).all (· == 0)

/-- The TYPE of a packet that is valid (R359, R360). -/
def packetType (ws : List Word) : Option Nat :=
  let w := wordOf ws 0
  let ty := w % 256
  let ok :=
    if ty = 0 || ty = 6 then zeroFrom ws 1
    else if ty = 1 then 1 ≤ wordOf ws 3 && wordOf ws 3 ≤ 2 ^ 32 && wordOf ws 4 ≤ 7 && zeroFrom ws 5
    else if ty = 2 then wordOf ws 1 % 64 == 0 && wordOf ws 2 % 64 == 0 && wordOf ws 3 % 64 == 0 && zeroFrom ws 4
    else if ty = 3 || ty = 4 then wordOf ws 3 ≤ 1 && zeroFrom ws 4
    else false
  if ok && w / 256 % 256 ≤ 1 && w / 65536 % 65536 = 0 then some ty else none

/-- BARRIER: the flag, or a packet that always has it (R359). -/
def hasBarrier (ws : List Word) : Bool :=
  let w := wordOf ws 0
  (w / 256).testBit 0 || w % 256 == 3 || w % 256 == 6

/-- A packet starts: HEAD moves on, here and in the header. -/
def State.takePacket (s : State) (rk : Nat) (r : Reel) (ws : List Word) : State :=
  let s1 := s.modReel rk (fun r => { r with
    head := r.head + 1, barrier := false, infl := mset r.infl r.head (ws.getD 7 0) })
  (s1.devPut r.space (r.header + 8) (r.head + 1) .device).getD s1

/-- Process the packet at the head of a slot's reel, if it is of this kind (none: an invalid one). A packet with BARRIER
waits for every earlier one (R359). Where no packet has been released, the slot reads again on the next kick (R369). -/
def State.runPacket (s : State) (slot : Nat) (kind : Option Nat) (f : State → Nat → Reel → List Word → State) : State :=
  match s.slotReel slot with
  | none => s
  | some (rk, r) =>
    match s.packetAt r with
    | none => if r.reads then s.modReel rk (fun r => { r with pending := false }) else s
    | some ws =>
      if packetType ws != kind then s
      else if kind.isSome && hasBarrier ws && !r.infl.isEmpty then s.modReel rk (fun r => { r with barrier := true })
      else f (s.takePacket rk r ws) rk r ws

/-- A packet has its result (R360). -/
def State.setResult (s : State) (rk idx result : Nat) : State :=
  s.modReel rk (fun r => { r with results := mset r.results idx result })

/-- A launch is enqueued for placement (R194, R359). -/
def execLaunchPacket (slot : Nat) (s : State) : Res :=
  finish (s.runPacket slot (some 1) (fun s _ r ws =>
    let (id, s1) := fresh s
    let seg := (s.headSeg r).getD 0
    { s1 with launches := mset s1.launches id {
        since := s.enqueuedAt r.space (packetVa seg (r.head % 63)), vf := r.vf, asid := r.asid, slate := wordOf ws 1, argp := ws.getD 2 0, ntask := wordOf ws 3, depth := wordOf ws 4
        rnum := r.rnum, idx := r.head } }))

/-- A MEMORY tensor of 64-byte lines, for a COPY packet: a ninth word holds their number. DEDUCED: log entry 29. -/
def lineTensor (va n : Nat) : List Word :=
  [BitVec.ofNat 64 (2 ^ 63 + 8 * 16 + 2 ^ 8), 8#64, BitVec.ofNat 64 (8 * 2 ^ 32 + 2 ^ 16 + 1), 0, 0, BitVec.ofNat 64 va, 0, 0,
   BitVec.ofNat 64 n]

/-- The copy engine of a slice takes a copy (R227, R359). -/
def execCopyPacket (slot slice : Nat) (s : State) : Res :=
  if 48 ≤ (s.slice slice).copies.length then .next s
  else
    finish (s.runPacket slot (some 2) (fun s rk r ws =>
      let n := wordOf ws 3 / 64
      if n = 0 then s.setResult rk r.head 0
      else
        let (id, s1) := fresh s
        let c0 : Copy := {
          id := id, task := none, vf := r.vf, asid := r.asid, user := false, hyp := false
          src := lineTensor (wordOf ws 1) n, dst := lineTensor (wordOf ws 2) n, stid := 256, dtid := 256
          srow := 0, scol := 0, drow := 0, dcol := 0, rows := n, cols := 8, ctr := none, reqs := []
          packet := some (r.vf, r.rnum, r.head), floor := boundaryView s1.rels noSlice .system [] }
        s1.modSlice slice (fun x => { x with copies := x.copies ++ [{ c0 with reqs := requestsOf c0 slice [] }] })))

/-- A store or an addition, as a release at system scope (R359). DESIGN CHOICE: log entry 37. -/
def execSignalPacket (slot : Nat) (s : State) : Res :=
  finish (s.runPacket slot (some 3) (fun s rk r ws =>
    let op := wordOf ws 3
    let s1 := match s.devPlace r.space (if op = 0 then .write else .atomic) (wordOf ws 1) with
      | .ok key =>
        let v := if op = 0 then wordOf ws 2 else (leNat (peeks s.mem key 8) + wordOf ws 2) % 2 ^ 64
        if s.cutOff key then s else s.devRelease key (leBytes 8 v) .system (op != 0)
      | _ => s
    s1.setResult rk r.head 0))

/-- The queue reads nothing further until the condition holds (R359). -/
def execWaitPacket (slot : Nat) (s : State) : Res :=
  finish (s.runPacket slot (some 4) (fun s rk _ ws =>
    s.modReel rk (fun r => { r with waitOn := some (wordOf ws 1, ws.getD 2 0, wordOf ws 3 == 1), waitPkt := (ws.drop 1).take 6 })))

/-- M[ADDR] meets the condition of a WAIT (R359). -/
def execWaitConditionMet (slot : Nat) (s : State) : Res :=
  match s.slotReel slot with
  | none => .next s
  | some (rk, r) =>
    match r.waitOn with
    | none => .next s
    | some (a, v, ge) =>
      match s.devWord r.space a with
      | none => .next s
      | some x =>
        if if ge then v.toNat ≤ x else x = v.toNat then
          .next ((s.modReel rk (fun r => { r with waitOn := none, waitPkt := [] })).setResult rk (r.head - 1) 0)
        else .next s

/-- HEAD has passed slot 62 and the splice names the next segment: the finished one goes to the pool (R358, R361), and
lanes that wait for it are woken (R202). -/
def execSplicePacket (slot : Nat) (s : State) : Res :=
  match s.slotReel slot with
  | none => .next s
  | some (rk, r) =>
    if r.head / 63 = r.segNo then .next s
    else
      match s.headSeg r with
      | none => .next s
      | some seg =>
        match s.devWord r.space (packetVa seg 63 + 8) with
        | none => .next s
        | some next =>
          if next = 0 then .next s
          else
            let s1 := s.modReel rk (fun r => { r with seg := next, segNo := r.segNo + 1 })
            let s2 := match s1.reelPool r.space r.header with
              | some pool =>
                match s1.pushSegment r.space pool seg with
                | some s2 => s2.wakeSpawned r.space pool
                | none => s1
              | none => s1
            finish s2

/-- A cut is raised for a context (R180). -/
def State.raiseCut (s : State) (sp : Nat) : State := (s.modCtx sp (fun c => { c with cut := true })).settleCuts

/-- A cut for the reel's context; the packet completes with it (R359). -/
def execQuiescePacket (slot : Nat) (s : State) : Res :=
  finish (s.runPacket slot (some 6) (fun s rk r _ =>
    (s.modReel rk (fun x => { x with quiesce := some r.head })).raiseCut r.space))

def execNopPacket (slot : Nat) (s : State) : Res :=
  finish (s.runPacket slot (some 0) (fun s rk r _ => s.setResult rk r.head 0))

/-- An invalid packet completes with result 8 (R360). -/
def execInvalidPacket (slot : Nat) (s : State) : Res :=
  finish (s.runPacket slot none (fun s rk r _ => s.setResult rk r.head 8))

/-- The saved block of a waiting reel gives its AGE, in µs since it was unmapped or registered, and counts the packets in flight
(R364). -/
def Reel.recount (r : Reel) (now : Nat) : Reel :=
  if r.slot.isSome || r.block.length != 256 then r
  else { r with block := r.block.take 0x18 ++ leBytes 8 (now - r.since) ++ leBytes 8 r.infl.length ++ r.block.drop 0x28 }

/-- A packet completes: its status word is written where CMPL is nonzero (R360). -/
def execPacketCompletion (vf rnum idx : Nat) (s : State) : Res :=
  match mget s.reels (reelKey vf rnum) with
  | none => .next s
  | some r =>
    match mget r.results idx, mget r.infl idx with
    | some res, some cmpl =>
      let s1 := (s.addRel noSlice .system (boundaryView s.rels noSlice .system [])).writeStatus r.space idx cmpl res
      finish (s1.modReel (reelKey vf rnum) (fun r => ({ r with results := mdel r.results idx, infl := mdel r.infl idx } : Reel).recount s.micros))
    | _, _ => .next s

/-- A kick sets the reel's pending bit; if no slot serves it, a firmware core is woken (R363), for a reel that is not registered yet
too, for which the bit is kept (R386). -/
def execKick (vf rnum : Nat) (s : State) : Res :=
  match mget s.reels (reelKey vf rnum) with
  | none => .next (({ s with kicked := mset s.kicked (reelKey vf rnum) () } : State).note (.kick vf rnum))
  | some r =>
    let s1 := s.modReel (reelKey vf rnum) (fun r => { r with pending := true })
    .next (if r.slot.isNone then s1.note (.kick vf rnum) else s1)

-- The scheduler.
/-- Classes of a waiting and of a mapped reel (R365). -/
def Reel.waitClass (r : Reel) (now : Nat) : Nat := Nat.min 3 (r.prio + (now - r.since) / 200)
def Reel.curClass (r : Reel) (now : Nat) : Nat := r.eff - (now - r.since) / 200

/-- The order of step 2: descending class, then greatest AGE, then lowest reel number. -/
def Reel.before (now : Nat) (a b : Reel) : Bool :=
  b.waitClass now < a.waitClass now ||
  (a.waitClass now == b.waitClass now && (a.since < b.since || (a.since == b.since && a.rnum < b.rnum)))
def insertReel (now : Nat) (x : Reel) : List Reel → List Reel
  | [] => [x]
  | y :: r => if x.before now y then x :: y :: r else y :: insertReel now x r
def sortReels (now : Nat) (l : List Reel) : List Reel := l.foldr (insertReel now) []

/-- The mapped reel that step 3 would replace first: lowest current class, mapped longest, highest reel number. -/
def Reel.yields (now : Nat) (a b : Reel) : Bool :=
  a.curClass now < b.curClass now ||
  (a.curClass now == b.curClass now && (a.since < b.since || (a.since == b.since && b.rnum < a.rnum)))
def weakest (now : Nat) : List Reel → Option Reel
  | [] => none
  | a :: r =>
    match weakest now r with
    | none => some a
    | some b => some (if b.yields now a then b else a)

def Reel.key (r : Reel) : Nat := reelKey r.vf r.rnum
/-- The reels of the virtual function that holds the take. -/
def State.myReels (s : State) : List Reel := (s.reels.map (·.2)).filter (fun r => s.take == some r.vf && !s.ending)
/-- Exactly n bytes. -/
def fit (n : Nat) (b : List Byte) : List Byte := (b ++ List.replicate n 0).take n
/-- The queue control block of a reel: 256 bytes (R364). Its device state is where HEAD's segment lies.
DESIGN CHOICE: log entry 37. -/
def Reel.qcb (r : Reel) (now : Nat) : List Byte :=
  leBytes 8 r.header ++ leBytes 8 r.head ++ leBytes 4 r.space ++ leBytes 1 r.prio ++ leBytes 1 r.eff ++
  leBytes 2 (bit r.waitOn.isSome + 2 * bit r.barrier) ++ leBytes 8 (now - r.since) ++ leBytes 8 r.infl.length ++
  fit 88 (r.waitPkt.flatMap (fun w => leBytes 8 w.toNat)) ++ fit 128 (leBytes 8 r.seg ++ leBytes 8 r.segNo)
/-- The reel with its block saved. -/
def Reel.save (r : Reel) (now : Nat) : Reel := { r with block := r.qcb now }
/-- Bytes of its block as a number. -/
def Reel.field (r : Reel) (off n : Nat) : Nat := leNat ((r.block.drop off).take n)
/-- The slot's state as its block gives it: header, HEAD, SPACE, PRIO, a pending WAIT or BARRIER, and the segment. -/
def Reel.load (r : Reel) : Reel :=
  { r with
    header := r.field 0 8, head := r.field 8 8, vf := r.field 0x10 4 / 16384, asid := r.field 0x10 4 % 16384
    prio := r.field 0x14 1, barrier := (r.field 0x16 2).testBit 1, seg := r.field 0x80 8, segNo := r.field 0x88 8
    waitPkt := if (r.field 0x16 2).testBit 0 then (List.range 6).map (fun j => BitVec.ofNat 64 (r.field (0x28 + 8 * j) 8)) else []
    waitOn := if (r.field 0x16 2).testBit 0 then
        some (r.field 0x28 8, BitVec.ofNat 64 (r.field 0x30 8), r.field 0x38 8 == 1) else none }
/-- A map loads the reel's block into the slot (R364, R365). -/
def State.mapReel (s : State) (r : Reel) (slot : Nat) : State :=
  s.modReel r.key (fun x =>
    let y := if x.block.isEmpty then x else x.load
    { y with slot := some slot, eff := y.waitClass s.micros, since := s.micros })
/-- An unmap saves the reel's block; it waits from now on. -/
def State.unmapReel (s : State) (r : Reel) : State :=
  s.modReel r.key (fun x => ({ x with slot := none, since := s.micros } : Reel).save s.micros)

/-- Step 1 (R365): reels with HEAD = TAIL and no pending WAIT are unmapped, and nothing is pending in them. -/
def State.tickUnmap (s : State) : State :=
  (s.myReels.filter (fun r => r.slot.isSome && r.waitOn.isNone && s.reelTail r.space r.header == some r.head)).foldl
    (fun s r => (s.unmapReel r).modReel r.key (fun x => { x with pending := false })) s

def State.freeSlot (s : State) : Option Nat := (List.range 64).find? (fun i => (s.slotReel i).isNone)
/-- Step 2. -/
def tickMap : List Reel → State → State
  | [], s => s
  | r :: rs, s =>
    match s.freeSlot with
    | some i => tickMap rs (s.mapReel r i)
    | none => s
/-- Step 3. -/
def tickReplace : List Reel → State → State
  | [], s => s
  | r :: rs, s =>
    match weakest s.micros (s.myReels.filter (·.slot.isSome)) with
    | some b =>
      if (mget s.reels r.key).any (fun x => x.slot.isNone) && b.curClass s.micros < r.waitClass s.micros then
        tickReplace rs ((s.unmapReel b).mapReel r (b.slot.getD 0))
      else tickReplace rs s
    | none => s

/-- Contexts that the scheduler may cut, to make room for one of a higher priority (R180). -/
def State.cuttable (s : State) : List Nat :=
  (s.ctxs.filter (fun p => s.take == some (p.1 / 16384) && !s.ending && !p.2.cut &&
    s.waves.any (fun w => ((s.task w.2.task).map Task.space) == some p.1))).map (·.1)
/-- It makes room, or it does not: which context has the higher priority is the firmware's own. DESIGN CHOICE: log entry 34. -/
def State.makeRoom (s : State) : State :=
  let cs := s.cuttable
  let (i, s1) := choose s (cs.length + 1)
  match cs[i]? with
  | some sp => s1.raiseCut sp
  | none => s1

/-- The scheduler's tick, every 50 µs (R365): served after bring-up (R386). DESIGN CHOICE: log entry 38. -/
def execSchedulerTick (s : State) : Res :=
  let s0 : State := { s with micros := s.micros + 50 }
  if !s.ready then .next s0
  else
    let s1 := ({ s0 with reels := s0.reels.map (fun p => (p.1, p.2.recount s0.micros)) } : State).grantTake.tickUnmap
    let ws := sortReels s1.micros (s1.myReels.filter (fun r => r.slot.isNone && r.pending))
    .next (tickReplace ws (tickMap ws s1)).makeRoom

/-- A take expires (R366), once the contexts with a grace boost have been restored in it (R303): a cut is raised for every context of
the virtual function, and its reels are unmapped. -/
def execTakeEnd (s : State) : Res :=
  match s.take with
  | none => .next s
  | some v =>
    if s.ending || s.micros < s.takeAt + (s.vf v).quantum || s.owes v then .next s
    else
      let s1 := (s.myReels.filter (·.slot.isSome)).foldl (fun s r => s.unmapReel r) s
      let s2 : State := { s1 with
        ending := true
        ctxs := s1.ctxs.map (fun p => if p.1 / 16384 == v then (p.1, { p.2 with cut := true }) else p) }
      .next s2.settleCuts

-- What the firmware sets up.
/-- The firmware creates a context: root, PARK mode, CUTDL 65,536, S-mode registers zero, and `TDELEG` as R337 gives (R181,
R299, R322, R323, R340). -/
def execContextCreate (vf asid root : Nat) (s : State) : Res :=
  let sp := spaceKey vf asid
  if (mget s.vfs vf).isNone || 16384 ≤ asid || s.tasks.any (fun p => p.2.space == sp) then .next s
  else .next ({ s with ctxs := mset s.ctxs sp { root := BitVec.ofNat 64 root &&& rootMask } }.modVf vf
    (fun f => { f with tdeleg := 0x777FE#64 }))

/-- A virtual function is enabled (R340): `HSBASE` has EN = 1 and its mode areas lie inside the grant; its grant,
export windows, hypervisor root, share and caps are the firmware's and the monitor's (R317, R336, R366, R367, R378,
R382). DESIGN CHOICE: log entry 14. -/
def execVirtualFunctionEnable (vf htvec hsbase : Nat) (s : State) : Res :=
  let b := BitVec.ofNat 64 hsbase &&& baseMask
  if 16 ≤ vf || !b.getLsbD 0 || !inRange (Config.vfGrant vf) (baseAddr b) areaBytes then .next s
  else .next { s with vfs := mset s.vfs vf {
    htvec := BitVec.ofNat 64 htvec &&& vecMask, hsbase := b, hroot := Config.vfRoot vf, grant := Config.vfGrant vf
    exports := Config.vfExports vf, quantum := Config.vfQuantum vf, share := (List.range 96).map (fun c => (c, Config.vfShare vf c))
    copyCap := Config.vfCopyCap vf, trapCap := Config.vfTrapCap vf
    thermal := s.hot, keys := Config.trustedKeys vf } }

/-- Software registers a reel under a reel number: its AGE starts, its control block is made, and a kick that came before counts
(R358, R363, R364). -/
def execReelRegistration (vf asid header rnum prio : Nat) (s : State) : Res :=
  let key := reelKey vf rnum
  if (mget s.ctxs (spaceKey vf asid)).isNone || 4096 ≤ rnum || header % 256 != 0 || (mget s.reels key).isSome then .next s
  else
    let r : Reel := { vf := vf, asid := asid, header := header, prio := Nat.min 3 prio, rnum := rnum, since := s.micros
                      pending := (mget s.kicked key).isSome }
    .next { s with reels := mset s.reels key (r.save s.micros), kicked := mdel s.kicked key }

end Sys2Proof.Machine
end

