-- ==== Sys2Proof/Machine/Host.lean ====
section
/-! DEFINITION. Wheels (R372 to R377), Function Level Reset (R384), domain links (R385), bring-up (R386) and attestation
(R387). -/

namespace Sys2Proof.Machine

-- The rind by field (R373).
def rdField (rind : List Byte) (off n : Nat) : List Byte := (rind.drop off).take n
def rdNat (rind : List Byte) (off n : Nat) : Nat := leNat (rdField rind off n)
def rdZero (rind : List Byte) (off n : Nat) : Bool := (rdField rind off n).all (· == 0)

/-- The first refusal of R375, or none. -/
def State.wheelRefusal (s : State) (vf drive ns base : Nat) : Option Nat :=
  let rind := peeks s.mem (flashKey drive ns (base * 4096)) 4096
  let nseg := rdNat rind 0x40 4
  let table := peeks s.mem (flashKey drive ns (base * 4096 + 0x1000)) (32 * nseg)
  let keyid := rdField rind 0x80 32
  let blank := rind.take 0xA0 ++ List.replicate 114 0 ++ rind.drop 0x112
  if rdNat rind 0 8 != 0x004C454548574C4F || rdNat rind 0x3E 1 != 1 || !rdZero rind 0x0E 2 || !rdZero rind 0x3F 1 ||
      !rdZero rind 0x44 4 || !rdZero rind 0x112 238 || nseg = 0 || 32640 < nseg then some 1
  else if rdNat rind 0x08 2 != 1 then some 2
  else
  match (s.vf vf).keys.find? (fun k => Crypto.shake256 32 k == keyid) with
  | none => some 3
  | some key =>
  if !Crypto.ed448Verify key (Crypto.shake256 64 (blank ++ table)) (rdField rind 0xA0 114) then some 4
  else if 256 ≤ s.wheels.length then some 5
  else none

/-- A wheel that passes every check enters the table at its lowest free entry; a refused open enters nothing (R375). -/
def execWheelOpen (vf drive ns base : Nat) (s : State) : Res :=
  if 8 ≤ drive || ns = 0 || 4095 < ns || !Config.nsPresent drive ns then .next s
  else
    match s.wheelRefusal vf drive ns base, (List.range 256).find? (fun i => (mget s.wheels i).isNone) with
    | none, some i =>
      let rind := peeks s.mem (flashKey drive ns (base * 4096)) 4096
      .next { s with wheels := mset s.wheels i {
        drive := drive, ns := ns, base := base, nseg := rdNat rind 0x40 4, wkey := rdField rind 0x60 32 } }
    | _, _ => .next s

/-- A place is a byte of the wheel. -/
def Wheel.has (w : Wheel) (l : Loc) : Bool :=
  match l with
  | .flash key => w.covers key 0
  | _ => false
/-- A copy on a slice reads bytes that lie in a wheel: elements, scales, zero points or the bitmap of its box (R229, R231). -/
def State.readsWheel (s : State) (slice : Nat) (c : Copy) (w : Wheel) : Bool :=
  let f := geomOf c.src
  let side (k : ReqKind) (n : Nat) : Bool := w.has ((f.locOf slice k).add (sideByte f k n))
  f.kind == 4 && (
    (moves c (s.mapNow c slice)).any (fun m => match m.src with
      | .at_ n => w.has ((f.locOf slice .elem).add (f.byteOf n))
      | .zeroPoint n => side .zpt n
      | .zero => false) ||
    (groupPairs c).any (fun p => side .scale p.2 || side .zpt p.2) ||
    (f.sp && (List.range (f.sizes.getD 3 0)).any (fun n => w.has ((f.locOf slice .map).add n))))
/-- DEDUCED: log entry 40. -/
def State.wheelBusy (s : State) (w : Wheel) : Bool :=
  s.slices.any (fun p => p.2.copies.any (fun c => s.readsWheel p.1 c w)) ||
  s.ctxs.any (fun p => p.2.saved.any (fun v => v.copies.any (fun c => s.readsWheel v.slice c w)))

/-- A close removes the entry once every copy that reads the wheel has completed (R375). -/
def execWheelClose (idx : Nat) (s : State) : Res :=
  match mget s.wheels idx with
  | none => .next s
  | some w =>
    if s.wheelBusy w then .next { s with wheels := mset s.wheels idx { w with closing := true } }
    else .next { s with wheels := mdel s.wheels idx }

/-- An NVMe command exceeds the timeout, or fails: the request completes with what `timedOut` makes of it (R377). -/
def execNvmeTimeout (slice copy req : Nat) (s : State) : Res :=
  match s.copyAt slice copy with
  | none => .next s
  | some c =>
    match c.reqs.find? (fun q => q.id == req) with
    | none => .next s
    | some q =>
      if !q.issued || q.done || (s.slice slice).parked copy req || c.drive.isNone then .next s
      else
        let (x, s1) := s.tryReq c slice q
        finish (s1.completeReq slice c q (x.out.timedOut (s1.flashBytes c slice q)) x.moved)

/-- The words of a virtual function's context window (R384): VFSTAT and EVENT; what lies beyond reads as zero. -/
def State.windowWord (s : State) (vf off : Nat) : Word :=
  let f := s.vf vf
  if off = 0 then BitVec.ofNat 64 (4 * bit (s.take == some vf) + 2 * bit f.thermal + bit s.ready)
  else if off = 8 then BitVec.ofNat 64 (f.event % 16)
  else 0

/-- Every context of the virtual function is torn down (R384). -/
def execFunctionLevelReset (vf : Nat) (s : State) : Res :=
  .next (((s.ctxs.map (·.1)).filter (fun sp => sp / 16384 == vf)).foldl (fun s sp => s.tearDown vf (sp % 16384)) s)

/-- What an atomic of another agent stores (R161). -/
def outerNew (op : AOp) (size : Nat) (v expected : Word) (old : Nat) : Option Nat :=
  if op = .cas then (if expected.toNat % 2 ^ (8 * size) = old then some (v.toNat % 2 ^ (8 * size)) else none)
  else some (aopVal op (8 * size) old (v.toNat % 2 ^ (8 * size)))
/-- A write of another device or of the host, at system scope. -/
def State.outerWrite (s : State) (a : Nat) (bytes : List Byte) (point : Nat) : State :=
  let id := s.nextId
  (s.write a bytes hostSlice 0 (some .system) none point).addRel hostSlice .system (viewRange a id bytes.length [])
/-- What another device or the host (`port`) asks of this device's memory: a store, or an atomic, which executes at the home
pillar (R160); the host's are the AtomicOps of R165 (R384). An atomic on a broken line changes nothing. -/
def State.outer (s : State) (port : Bool) (a : Nat) (ask : OuterOp) : State :=
  match ask with
  | .store b => s.outerWrite a [b] 0
  | .atomic op wt v expected =>
    let n := atSize wt
    let point := pointOf .system hostSlice a
    if a % n != 0 || s.broken a n || (port && !aopHost op) then s
    else
      let (old, s1) := s.readVer [] (fun w => w.point == point) a n
      match outerNew op n v expected (leNat old.bytes) with
      | some x => s1.outerWrite a (leBytes n x) point
      | none => s1

/-- A flit on a link (R385): taken, with what another device asks inside a window exported to it, or refused
and resent; a link that fails 64 times in a row goes down. Number 18 stands for the host port (R384), whose window is that of
device 192. DESIGN CHOICE: log entry 48. -/
def execFlit (link : Nat) (ask : Option (Nat × Nat × OuterOp)) (taken : Bool) (s : State) : Res :=
  if 19 ≤ link || (mget s.linksDown link).isSome then .next s
  else if !taken then
    let n := mgetD s.retries link 0 + 1
    if link = 18 then .next s
    else if 64 ≤ n then .next { s with retries := mdel s.retries link, linksDown := mset s.linksDown link () }
    else .next { s with retries := mset s.retries link n }
  else
    let s1 : State := { s with retries := mdel s.retries link }
    match ask with
    | some (dev, a, x) =>
      if a < hbmSize && inRange (Config.deviceExports (if link = 18 then 192 else dev)) a 1 then
        .next (s1.outer (link == 18) a x)
      else .next s1
    | none => .next s1

def execLinkDown (link : Nat) (s : State) : Res :=
  if 18 ≤ link then .next s else .next { s with linksDown := mset s.linksDown link () }

/-- Reset and bring-up (R386): HBM and the on-chip memories are zero and clean, the device number is assigned, and READY
is set, where every image has passed its verification (R367). Host memory, the other devices and flash keep their bytes, and kicks
that came before are kept (R363). DESIGN CHOICE: log entry 41. -/
def execDeviceReset (s : State) : Res :=
  let keep (k : Nat) : Bool := hbmSize ≤ k && !(2 ^ 70 ≤ k && k < 2 ^ 90)
  .next { State.reset with
    mem := s.mem.filter (fun c => keep c.1)
    ready := Config.imagesVerified
    device := Config.deviceNumber % 192
    clusters := (List.range 96).map (fun c => (c, {
      budget := Config.clusterBudget c, peak := Config.clusterPeak c, cellCap := Config.clusterCellCap c
      refreshCap := Config.clusterRefreshCap c, regCap := Config.clusterRegCap c }))
    kicked := (s.reels.filter (·.2.pending)).foldl (fun m r => mset m r.1 ()) s.kicked
    nextId := s.nextId, free := s.free, inputs := s.inputs }

/-- The measurement: SHAKE256 with 64 bytes of output, extended with each image in turn (R387). That it is taken over the
measurement before and the image, and starts empty, is the model's. PRESUMED: log entry 16. -/
def measurement : List Byte := Config.images.foldl (fun m i => Crypto.shake256 64 (m ++ i)) []

/-- The monitor makes an attestation report of 256 bytes (R387). PRESUMED: log entry 16. -/
def execAttestationReport (vf : Nat) (nonce : List Byte) (s : State) : Res :=
  let body := fit 32 nonce ++ leBytes 2 0x00B0 ++ leBytes 2 vf ++ List.replicate 42 0 ++ fit 64 measurement
  if (mget s.vfs vf).isNone then .next s
  else .next (s.modVf vf (fun f => { f with reports := f.reports ++ [body ++ Crypto.ed448Sign Config.identityKey body] }))

end Sys2Proof.Machine
end

