-- ==== Sys2Proof/Machine/Dispatch.lean ====
section
/-! DEFINITION. One arm for each instruction and event: a direct call of its meaning. -/

namespace Sys2Proof.Machine

def exec (i : Instr) (s : State) : Host.Outcome State Fault Refusal :=
  match i with
  | .nop w => Sys2Proof.Machine.execNop w s
  | .lit w v => Sys2Proof.Machine.execLit w v s
  | .dup w => Sys2Proof.Machine.execDup w s
  | .drop w => Sys2Proof.Machine.execDrop w s
  | .swap w => Sys2Proof.Machine.execSwap w s
  | .over w => Sys2Proof.Machine.execOver w s
  | .rot w => Sys2Proof.Machine.execRot w s
  | .nip w => Sys2Proof.Machine.execNip w s
  | .tuck w => Sys2Proof.Machine.execTuck w s
  | .pick w n => Sys2Proof.Machine.execPick w n s
  | .bury w n => Sys2Proof.Machine.execBury w n s
  | .dropn w n => Sys2Proof.Machine.execDropn w n s
  | .depth w => Sys2Proof.Machine.execDepth w s
  | .dup2 w => Sys2Proof.Machine.execDup2 w s
  | .swap2 w => Sys2Proof.Machine.execSwap2 w s
  | .litw w v => Sys2Proof.Machine.execLitw w v s
  | .litx w v => Sys2Proof.Machine.execLitx w v s
  | .lith w v => Sys2Proof.Machine.execLith w v s
  | .litf w v => Sys2Proof.Machine.execLitf w v s
  | .add w t => Sys2Proof.Machine.execAdd w t s
  | .sub w t => Sys2Proof.Machine.execSub w t s
  | .mul w t => Sys2Proof.Machine.execMul w t s
  | .mulh w t => Sys2Proof.Machine.execMulh w t s
  | .mad w t => Sys2Proof.Machine.execMad w t s
  | .div w t => Sys2Proof.Machine.execDiv w t s
  | .rem w t => Sys2Proof.Machine.execRem w t s
  | .neg w t => Sys2Proof.Machine.execNeg w t s
  | .abs w t => Sys2Proof.Machine.execAbs w t s
  | .min w t => Sys2Proof.Machine.execMin w t s
  | .max w t => Sys2Proof.Machine.execMax w t s
  | .adds w t => Sys2Proof.Machine.execAdds w t s
  | .subs w t => Sys2Proof.Machine.execSubs w t s
  | .clamp w t => Sys2Proof.Machine.execClamp w t s
  | .and w t => Sys2Proof.Machine.execAnd w t s
  | .or w t => Sys2Proof.Machine.execOr w t s
  | .xor w t => Sys2Proof.Machine.execXor w t s
  | .not w t => Sys2Proof.Machine.execNot w t s
  | .shl w t => Sys2Proof.Machine.execShl w t s
  | .shr w t => Sys2Proof.Machine.execShr w t s
  | .rotl w t => Sys2Proof.Machine.execRotl w t s
  | .popc w t => Sys2Proof.Machine.execPopc w t s
  | .clz w t => Sys2Proof.Machine.execClz w t s
  | .ctz w t => Sys2Proof.Machine.execCtz w t s
  | .bfx w t => Sys2Proof.Machine.execBfx w t s
  | .bfi w t => Sys2Proof.Machine.execBfi w t s
  | .brev w t => Sys2Proof.Machine.execBrev w t s
  | .sel w t => Sys2Proof.Machine.execSel w t s
  | .eq w t => Sys2Proof.Machine.execEq w t s
  | .ne w t => Sys2Proof.Machine.execNe w t s
  | .lt w t => Sys2Proof.Machine.execLt w t s
  | .le w t => Sys2Proof.Machine.execLe w t s
  | .addi w n => Sys2Proof.Machine.execAddi w n s
  | .shli w n => Sys2Proof.Machine.execShli w n s
  | .fadd w => Sys2Proof.Machine.execFadd w s
  | .fsub w => Sys2Proof.Machine.execFsub w s
  | .fmul w => Sys2Proof.Machine.execFmul w s
  | .fma w => Sys2Proof.Machine.execFma w s
  | .fdiv w => Sys2Proof.Machine.execFdiv w s
  | .fsqrt w => Sys2Proof.Machine.execFsqrt w s
  | .fneg w => Sys2Proof.Machine.execFneg w s
  | .fabs w => Sys2Proof.Machine.execFabs w s
  | .fsgn w => Sys2Proof.Machine.execFsgn w s
  | .fmin w m => Sys2Proof.Machine.execFmin w m s
  | .fmax w m => Sys2Proof.Machine.execFmax w m s
  | .fcmp w c => Sys2Proof.Machine.execFcmp w c s
  | .fclass w => Sys2Proof.Machine.execFclass w s
  | .frnd w r => Sys2Proof.Machine.execFrnd w r s
  | .frcpa w => Sys2Proof.Machine.execFrcpa w s
  | .frsqa w => Sys2Proof.Machine.execFrsqa w s
  | .fexp2a w => Sys2Proof.Machine.execFexp2a w s
  | .flog2a w => Sys2Proof.Machine.execFlog2a w s
  | .cvt w src dst r => Sys2Proof.Machine.execCvt w src dst r s
  | .pack2F16 w r => Sys2Proof.Machine.execPack2F16 w r s
  | .pack2B16 w => Sys2Proof.Machine.execPack2B16 w s
  | .unpk2 w f => Sys2Proof.Machine.execUnpk2 w f s
  | .ext w sgn k => Sys2Proof.Machine.execExt w sgn k s
  | .qnt w q => Sys2Proof.Machine.execQnt w q s
  | .dqnt w q => Sys2Proof.Machine.execDqnt w q s
  | .ldl w n => Sys2Proof.Machine.execLdl w n s
  | .stl w n => Sys2Proof.Machine.execStl w n s
  | .ldlx w => Sys2Proof.Machine.execLdlx w s
  | .stlx w => Sys2Proof.Machine.execStlx w s
  | .give w k => Sys2Proof.Machine.execGive w k s
  | .claim w k => Sys2Proof.Machine.execClaim w k s
  | .claimGrant slice task => Sys2Proof.Machine.execClaimGrant slice task s
  | .rsr w r => Sys2Proof.Machine.execRsr w r s
  | .wsr w r => Sys2Proof.Machine.execWsr w r s
  | .wsrTstat w => Sys2Proof.Machine.execWsrTstat w s
  | .wsrTkstat w => Sys2Proof.Machine.execWsrTkstat w s
  | .wsrEfh w => Sys2Proof.Machine.execWsrEfh w s
  | .wsrSsbase w => Sys2Proof.Machine.execWsrSsbase w s
  | .wsrPtb w => Sys2Proof.Machine.execWsrPtb w s
  | .wsrAsidx w => Sys2Proof.Machine.execWsrAsidx w s
  | .wsrCutdl w => Sys2Proof.Machine.execWsrCutdl w s
  | .br w off => Sys2Proof.Machine.execBr w off s
  | .brz w off => Sys2Proof.Machine.execBrz w off s
  | .brnz w off => Sys2Proof.Machine.execBrnz w off s
  | .call w off => Sys2Proof.Machine.execCall w off s
  | .meet w off => Sys2Proof.Machine.execMeet w off s
  | .ret w => Sys2Proof.Machine.execRet w s
  | .exit w => Sys2Proof.Machine.execExit w s
  | .brx w => Sys2Proof.Machine.execBrx w s
  | .callx w => Sys2Proof.Machine.execCallx w s
  | .join w d => Sys2Proof.Machine.execJoin w d s
  | .yield w => Sys2Proof.Machine.execYield w s
  | .prio w n => Sys2Proof.Machine.execPrio w n s
  | .ld w wt off => Sys2Proof.Machine.execLd w wt off s
  | .st w wt off => Sys2Proof.Machine.execSt w wt off s
  | .ld2 w off => Sys2Proof.Machine.execLd2 w off s
  | .st2 w off => Sys2Proof.Machine.execSt2 w off s
  | .lds w sc wt off => Sys2Proof.Machine.execLds w sc wt off s
  | .ldsAcq w sc wt off => Sys2Proof.Machine.execLdsAcq w sc wt off s
  | .sts w sc wt off => Sys2Proof.Machine.execSts w sc wt off s
  | .stsRel w sc wt off => Sys2Proof.Machine.execStsRel w sc wt off s
  | .phase w sc => Sys2Proof.Machine.execPhase w sc s
  | .phaseP w sc => Sys2Proof.Machine.execPhaseP w sc s
  | .phaseO w sc => Sys2Proof.Machine.execPhaseO w sc s
  | .icinv w sc => Sys2Proof.Machine.execIcinv w sc s
  | .pref w lvl off => Sys2Proof.Machine.execPref w lvl off s
  | .atomAdd w o sc wt off => Sys2Proof.Machine.execAtomAdd w o sc wt off s
  | .atomAnd w o sc wt off => Sys2Proof.Machine.execAtomAnd w o sc wt off s
  | .atomOr w o sc wt off => Sys2Proof.Machine.execAtomOr w o sc wt off s
  | .atomXor w o sc wt off => Sys2Proof.Machine.execAtomXor w o sc wt off s
  | .atomMinS w o sc wt off => Sys2Proof.Machine.execAtomMinS w o sc wt off s
  | .atomMinN w o sc wt off => Sys2Proof.Machine.execAtomMinN w o sc wt off s
  | .atomMaxS w o sc wt off => Sys2Proof.Machine.execAtomMaxS w o sc wt off s
  | .atomMaxN w o sc wt off => Sys2Proof.Machine.execAtomMaxN w o sc wt off s
  | .atomXchg w o sc wt off => Sys2Proof.Machine.execAtomXchg w o sc wt off s
  | .atomFadd w o sc off => Sys2Proof.Machine.execAtomFadd w o sc off s
  | .atomFmin w o sc off => Sys2Proof.Machine.execAtomFmin w o sc off s
  | .atomFmax w o sc off => Sys2Proof.Machine.execAtomFmax w o sc off s
  | .cas w o sc wt off => Sys2Proof.Machine.execCas w o sc wt off s
  | .redAdd w o sc wt off => Sys2Proof.Machine.execRedAdd w o sc wt off s
  | .redAnd w o sc wt off => Sys2Proof.Machine.execRedAnd w o sc wt off s
  | .redOr w o sc wt off => Sys2Proof.Machine.execRedOr w o sc wt off s
  | .redXor w o sc wt off => Sys2Proof.Machine.execRedXor w o sc wt off s
  | .redMinS w o sc wt off => Sys2Proof.Machine.execRedMinS w o sc wt off s
  | .redMinN w o sc wt off => Sys2Proof.Machine.execRedMinN w o sc wt off s
  | .redMaxS w o sc wt off => Sys2Proof.Machine.execRedMaxS w o sc wt off s
  | .redMaxN w o sc wt off => Sys2Proof.Machine.execRedMaxN w o sc wt off s
  | .redFadd w o sc off => Sys2Proof.Machine.execRedFadd w o sc off s
  | .redFmin w o sc off => Sys2Proof.Machine.execRedFmin w o sc off s
  | .redFmax w o sc off => Sys2Proof.Machine.execRedFmax w o sc off s
  | .mwait w => Sys2Proof.Machine.execMwait w s
  | .mwaitWake l why => Sys2Proof.Machine.execMwaitWake l why s
  | .trackedResultArrival l bix => Sys2Proof.Machine.execTrackedResultArrival l bix s
  | .refill slice place => Sys2Proof.Machine.execRefill slice place s
  | .unassignedEncoding e => Sys2Proof.Machine.execUnassignedEncoding e s
  | .spawn w => Sys2Proof.Machine.execSpawn w s
  | .spawnw w => Sys2Proof.Machine.execSpawnw w s
  | .spawnWaitWake task slice place => Sys2Proof.Machine.execSpawnWaitWake task slice place s
  | .taskPlacement launch members => Sys2Proof.Machine.execTaskPlacement launch members s
  | .waveFormation task place => Sys2Proof.Machine.execWaveFormation task place s
  | .taskRetire task => Sys2Proof.Machine.execTaskRetire task s
  | .tearDown vf asid report => Sys2Proof.Machine.execTearDown vf asid report s
  | .talloc w => Sys2Proof.Machine.execTalloc w s
  | .tfree w => Sys2Proof.Machine.execTfree w s
  | .tdef w => Sys2Proof.Machine.execTdef w s
  | .tget w n => Sys2Proof.Machine.execTget w n s
  | .tset w n => Sys2Proof.Machine.execTset w n s
  | .atomt w op o => Sys2Proof.Machine.execAtomt w op o s
  | .tfill w => Sys2Proof.Machine.execTfill w s
  | .tcol w all op => Sys2Proof.Machine.execTcol w all op s
  | .tcopy w => Sys2Proof.Machine.execTcopy w s
  | .ldt w => Sys2Proof.Machine.execLdt w s
  | .stt w => Sys2Proof.Machine.execStt w s
  | .bankOperationComplete task op => Sys2Proof.Machine.execBankOperationComplete task op s
  | .cpy w fo stg nb stid dtid => Sys2Proof.Machine.execCpy w fo stg nb stid dtid s
  | .cpyl w => Sys2Proof.Machine.execCpyl w s
  | .copySlotGrant slice => Sys2Proof.Machine.execCopySlotGrant slice s
  | .copyRequestIssue slice copy req => Sys2Proof.Machine.execCopyRequestIssue slice copy req s
  | .copyRequestComplete slice copy req => Sys2Proof.Machine.execCopyRequestComplete slice copy req s
  | .cinit w c => Sys2Proof.Machine.execCinit w c s
  | .cwait w c => Sys2Proof.Machine.execCwait w c s
  | .seal w n => Sys2Proof.Machine.execSeal w n s
  | .waitb w n => Sys2Proof.Machine.execWaitb w n s
  | .barinit w sc b => Sys2Proof.Machine.execBarinit w sc b s
  | .bar w b => Sys2Proof.Machine.execBar w b s
  | .bara w b => Sys2Proof.Machine.execBara w b s
  | .barw w b => Sys2Proof.Machine.execBarw w b s
  | .rowres w n => Sys2Proof.Machine.execRowres w n s
  | .suspend w n => Sys2Proof.Machine.execSuspend w n s
  | .suspendk w n => Sys2Proof.Machine.execSuspendk w n s
  | .wakeRow w => Sys2Proof.Machine.execWakeRow w s
  | .wakeSite w n => Sys2Proof.Machine.execWakeSite w n s
  | .wakeThr w => Sys2Proof.Machine.execWakeThr w s
  | .flush w n => Sys2Proof.Machine.execFlush w n s
  | .frameAgeExpiry task tid row => Sys2Proof.Machine.execFrameAgeExpiry task tid row s
  | .resumeLoad task tid slice place => Sys2Proof.Machine.execResumeLoad task tid slice place s
  | .mm w acc fo tag => Sys2Proof.Machine.execMm w acc fo tag s
  | .mms w acc fo tag => Sys2Proof.Machine.execMms w acc fo tag s
  | .mmstage w acc sp tag k => Sys2Proof.Machine.execMmstage w acc sp tag k s
  | .mmflag w k => Sys2Proof.Machine.execMmflag w k s
  | .mmflagDrop w k => Sys2Proof.Machine.execMmflagDrop w k s
  | .matrixQueueGrant slice => Sys2Proof.Machine.execMatrixQueueGrant slice s
  | .gateEntryGrant slice => Sys2Proof.Machine.execGateEntryGrant slice s
  | .gatedCommandEntry slice idx => Sys2Proof.Machine.execGatedCommandEntry slice idx s
  | .stagedCommandEntry slice slot => Sys2Proof.Machine.execStagedCommandEntry slice slot s
  | .matrixCommandStart slice => Sys2Proof.Machine.execMatrixCommandStart slice s
  | .multicastWindowExpiry slice => Sys2Proof.Machine.execMulticastWindowExpiry slice s
  | .matrixCommandComplete slice => Sys2Proof.Machine.execMatrixCommandComplete slice s
  | .tlbinvPage w => Sys2Proof.Machine.execTlbinvPage w s
  | .tlbinvSpace w => Sys2Proof.Machine.execTlbinvSpace w s
  | .tlbinvVf w => Sys2Proof.Machine.execTlbinvVf w s
  | .tlbinvSplit w => Sys2Proof.Machine.execTlbinvSplit w s
  | .replay w => Sys2Proof.Machine.execReplay w s
  | .fbstatPop pop => Sys2Proof.Machine.execFbstatPop pop s
  | .fbstatDroppedClear sector => Sys2Proof.Machine.execFbstatDroppedClear sector s
  | .frplay vf asid => Sys2Proof.Machine.execFrplay vf asid s
  | .syscall w c => Sys2Proof.Machine.execSyscall w c s
  | .hcall w c => Sys2Proof.Machine.execHcall w c s
  | .brk w => Sys2Proof.Machine.execBrk w s
  | .sret w => Sys2Proof.Machine.execSret w s
  | .hret w => Sys2Proof.Machine.execHret w s
  | .tfld w n => Sys2Proof.Machine.execTfld w n s
  | .tfst w n => Sys2Proof.Machine.execTfst w n s
  | .trapEntry l c => Sys2Proof.Machine.execTrapEntry l c s
  | .qpoint w => Sys2Proof.Machine.execQpoint w s
  | .waitgp w => Sys2Proof.Machine.execWaitgp w s
  | .defer w => Sys2Proof.Machine.execDefer w s
  | .gracePeriodBegin vf asid => Sys2Proof.Machine.execGracePeriodBegin vf asid s
  | .gracePeriodComplete vf asid => Sys2Proof.Machine.execGracePeriodComplete vf asid s
  | .wheyDelivery vf asid => Sys2Proof.Machine.execWheyDelivery vf asid s
  | .cutArrival vf asid slice => Sys2Proof.Machine.execCutArrival vf asid slice s
  | .cutDeadline vf asid slice => Sys2Proof.Machine.execCutDeadline vf asid slice s
  | .waveSave slice place => Sys2Proof.Machine.execWaveSave slice place s
  | .waveRestore vf asid idx slice place => Sys2Proof.Machine.execWaveRestore vf asid idx slice place s
  | .clockRatioChange slice code => Sys2Proof.Machine.execClockRatioChange slice code s
  | .controlIntervalEnd cluster draws overCurrent => Sys2Proof.Machine.execControlIntervalEnd cluster draws overCurrent s
  | .launchPacket slot => Sys2Proof.Machine.execLaunchPacket slot s
  | .copyPacket slot slice => Sys2Proof.Machine.execCopyPacket slot slice s
  | .signalPacket slot => Sys2Proof.Machine.execSignalPacket slot s
  | .waitPacket slot => Sys2Proof.Machine.execWaitPacket slot s
  | .waitConditionMet slot => Sys2Proof.Machine.execWaitConditionMet slot s
  | .splicePacket slot => Sys2Proof.Machine.execSplicePacket slot s
  | .quiescePacket slot => Sys2Proof.Machine.execQuiescePacket slot s
  | .nopPacket slot => Sys2Proof.Machine.execNopPacket slot s
  | .invalidPacket slot => Sys2Proof.Machine.execInvalidPacket slot s
  | .packetCompletion vf rnum idx => Sys2Proof.Machine.execPacketCompletion vf rnum idx s
  | .wheelClose idx => Sys2Proof.Machine.execWheelClose idx s
  | .kick vf rnum => Sys2Proof.Machine.execKick vf rnum s
  | .schedulerTick => Sys2Proof.Machine.execSchedulerTick s
  | .takeEnd => Sys2Proof.Machine.execTakeEnd s
  | .contextCreate vf asid root => Sys2Proof.Machine.execContextCreate vf asid root s
  | .wheelOpen vf drive ns base => Sys2Proof.Machine.execWheelOpen vf drive ns base s
  | .nvmeTimeout slice copy req => Sys2Proof.Machine.execNvmeTimeout slice copy req s
  | .thermalEvent at_ code => Sys2Proof.Machine.execThermalEvent at_ code s
  | .eventClear vf mask => Sys2Proof.Machine.execEventClear vf mask s
  | .functionLevelReset vf => Sys2Proof.Machine.execFunctionLevelReset vf s
  | .flit link ask taken => Sys2Proof.Machine.execFlit link ask taken s
  | .linkDown link => Sys2Proof.Machine.execLinkDown link s
  | .deviceReset => Sys2Proof.Machine.execDeviceReset s
  | .attestationReport vf nonce => Sys2Proof.Machine.execAttestationReport vf nonce s
  | .machineCheck slice unit => Sys2Proof.Machine.execMachineCheck slice unit s
  | .virtualFunctionEnable vf htvec hsbase => Sys2Proof.Machine.execVirtualFunctionEnable vf htvec hsbase s
  | .reelRegistration vf asid header rnum prio => Sys2Proof.Machine.execReelRegistration vf asid header rnum prio s

end Sys2Proof.Machine
end

