-- ==== Sys2Proof/Machine/Events.lean ====
section
/-! DEFINITION. What happens without an instruction: the traps of starved claims (R126) and orphaned waits (R245), the events
that are due, and those whose time is open (R16). -/

namespace Sys2Proof.Machine

/-- Events that come from outside: the firmware, the host, the domain, the gaffer's measurements and failing units.
DESIGN CHOICE: log entry 5. -/
def outside : Instr → Bool
  | .tearDown _ _ _ | .fbstatPop _ | .fbstatDroppedClear _ | .frplay _ _ | .controlIntervalEnd _ _ _ | .kick _ _
  | .schedulerTick | .takeEnd | .contextCreate _ _ _ | .wheelOpen _ _ _ _ | .wheelClose _ | .nvmeTimeout _ _ _
  | .thermalEvent _ _ | .eventClear _ _ | .functionLevelReset _ | .flit _ _ _ | .linkDown _ | .deviceReset
  | .attestationReport _ _ | .machineCheck _ _ | .virtualFunctionEnable _ _ _ | .reelRegistration _ _ _ _ _ => true
  | _ => false

/-- A firmware register access waits: the cluster's budget for them is spent (R382). Those of a sector's fault buffer count at its
first cluster, `FRPLAY` at cluster 0. DESIGN CHOICE: log entry 38. -/
def State.regHeld (s : State) (i : Instr) : Bool :=
  let full (c : Nat) : Bool := (s.cluster c).regCap ≤ (s.cluster c).regs
  match i with
  | .fbstatPop ⟨x, _⟩ | .fbstatDroppedClear x => full (3 * x)
  | .frplay _ _ => full 0
  | _ => false

-- Starved claims (R126).
def Lane.claims (l : Lane) : Bool := l.wait.claimOf.isSome

/-- A held thread is held behind a claim, through any number of groups. -/
def State.heldBehind (s : State) : Nat → Nat → Lane → Bool
  | 0, _, _ => false
  | n + 1, k, l =>
    match l.cur.group with
    | none => false
    | some g =>
      s.held k l && (s.waveLanes (waveOf k)).any (fun p =>
        p.2.memberOf l.ts.mode g && !p.2.arrivedAt l.ts.mode g && (p.2.claims || s.heldBehind n p.1 p.2))

/-- Threads of the task that may come back on any member slice (R126, R245). -/
def State.away (s : State) (tn : Nat) (t : Task) : Bool :=
  !t.rows.isEmpty || !t.spawned.isEmpty || !t.woken.isEmpty || (s.savedOf t tn).any (fun v => !v.lanes.isEmpty)

def State.starved (s : State) (tn slice : Nat) (t : Task) : Bool :=
  let ls := s.taskLanesOn tn slice
  ls.any (fun p => p.2.claims) && ls.all (fun p => p.2.claims || s.heldBehind 33 p.1 p.2) &&
  ls.all (fun p => p.2.ts.tlvl == 0 && p.2.wait != .parked) && !s.away tn t &&
  (oldest (claimsOf ls)).any (fun c => (s.poolOf tn slice).length < c.2)

/-- CLAIM_STARVED (R126). -/
def starvedCause (k pool slice : Nat) : Cause := mkCause 9 (k * 256 + 2) pool slice

/-- Every lane of every waiting claim of a starved task traps. -/
def State.trapStarved (s : State) : Option State :=
  s.tasks.findSome? (fun p =>
    (p.2.members.find? (fun m => s.starved p.1 m p.2)).map (fun m =>
      (s.taskLanesOn p.1 m).foldl (fun st x =>
        match x.2.wait.claimOf with
        | some k => st.enterTrap x.1 (starvedCause k (s.poolOf p.1 m).length m)
        | none => st) s))

-- Orphaned waits (R245).
/-- A wait of R245: what, the counter or barrier, and the detail words. -/
def State.orphanWait (s : State) (tn : Nat) (l : Lane) : Option Cause :=
  let bar (what b p : Nat) : Option Cause :=
    let x := s.barrier tn b
    if p < x.phase then none else some (mkCause 9 (what * 256 + 4) (x.a * 256 + b) x.n)
  match l.wait with
  | .cwait c =>
    let v := (((s.task tn).map (fun t => mgetD t.counters c ({} : Counter))).getD {}).val
    if 0 < v then some (mkCause 9 4 (BitVec.ofInt 64 v).toNat ((BitVec.ofInt 64 v).toNat / 2 ^ 32)) else none
  | .bar b p => bar 1 b p
  | .barw b p => bar 2 b p
  | _ => none

/-- Copies, gated commands and staging slots hold one that is counted against a counter of a task. -/
def countedIn (tn c : Nat) (cs : List Copy) (ms : List MCmd) (ss : Map Stage) : Bool :=
  cs.any (fun x => x.task == some tn && x.ctr == some c) ||
  (ms ++ (ss.filter (fun q => q.2.copy.isSome)).map (fun q => q.2.cmd)).any (fun m => m.task == tn && m.ctr == c)

/-- A copy or matrix command counted against a counter is in flight, parked, or bound to a staging slot, or is saved so. -/
def State.producing (s : State) (tn c : Nat) : Bool :=
  s.slices.any (fun p => countedIn tn c p.2.copies (p.2.mq ++ p.2.gates) p.2.stages) ||
  s.ctxs.any (fun p => p.2.saved.any (fun v => countedIn tn c v.copies v.gates v.stages))

def Wait.counterOf (w : Wait) : Option Nat :=
  match w with
  | .cwait c => some c
  | _ => Option.none

def State.orphaned (s : State) (tn : Nat) (t : Task) : Bool :=
  let ls := s.lanes.filter (fun p => s.taskNo p.1 == tn)
  !ls.isEmpty && ls.all (fun p => (s.orphanWait tn p.2).isSome && p.2.ts.tlvl == 0) && !s.away tn t &&
  t.nth ≤ 32 * t.formed && (ls.filterMap (fun p => p.2.wait.counterOf)).all (fun c => !s.producing tn c)

/-- Every waiting lane of an orphaned task traps. -/
def State.trapOrphans (s : State) : Option State :=
  (s.tasks.find? (fun p => s.orphaned p.1 p.2)).map (fun p =>
    (s.lanes.filter (fun x => s.taskNo x.1 == p.1)).foldl (fun st x =>
      match s.orphanWait p.1 x.2 with
      | some c => st.enterTrap x.1 c
      | none => st) s)

-- Events that are due.
/-- A tracked result has arrived (R50). -/
def State.dueArrival (s : State) : Option Instr :=
  s.lanes.findSome? (fun p =>
    (p.2.stk.zipIdx.find? (fun e => e.1.pend && e.1.ready ≤ s.cycle (sliceOf p.1))).map (fun e =>
      .trackedResultArrival { slice := sliceOf p.1, place := waveOf p.1 % 48, lane := laneNo p.1 } (p.2.depth - 1 - e.2)))

/-- A lane must refill before its next instruction (R84). -/
def State.dueRefill (s : State) : Option Instr :=
  (s.lanes.find? (fun p => p.2.wantsRefill)).map (fun p => .refill (sliceOf p.1) (waveOf p.1 % 48))

/-- A ratio changes at the start of a window (R179). -/
def State.dueRatio (s : State) : Option Instr :=
  if s.now % 8 != 0 then none
  else
    ((s.slices.map (·.1)) ++ s.tasks.flatMap (fun p => p.2.members)).findSome? (fun x =>
      if s.ratioFor x != (s.slice x).ratio then some (.clockRatioChange x (s.ratioFor x)) else none)

/-- A cut's deadline passes (R182). -/
def State.dueDeadline (s : State) : Option Instr :=
  s.ctxs.findSome? (fun c => (c.2.arrived.find? (fun a => a.2 != 0 && a.2 ≤ s.cycle a.1)).map (fun a =>
    .cutDeadline (c.1 / 16384) (c.1 % 16384) a.1))

/-- A wave is saved as soon as each thread has stopped, or at the deadline (R182); a gang as one (R196). -/
def State.dueSave (s : State) : Option Instr :=
  (s.waves.find? (fun p => (s.savedWith p.1 p.2).all (fun q => s.maySave q.1 q.2))).map (fun p =>
    .waveSave (p.1 / 48) (p.1 % 48))

/-- The matrix array of a slice (R266, R272, R273). -/
def State.dueMatrix (s : State) (i : Nat) : Option Instr :=
  match (s.slice i).mq with
  | [] => none
  | c :: _ =>
    if c.running then (if s.bodyOver c then some (.matrixCommandComplete i) else none)
    else if c.windowed then (if c.ready ≤ s.now then some (.multicastWindowExpiry i) else none)
    else some (.matrixCommandStart i)

/-- Copies had all landed before this cycle of a slice, or on the slice from which their task has moved here: what they let in is then
taken in its own order (R3, R271, R283). -/
def State.longLanded (s : State) (i : Nat) (cs : List Nat) : Bool :=
  cs.all (fun c => (mget s.landed c).any (fun x => x.slice != i || x.at_ < s.cycle i))

/-- A gated command enters, or is discarded, in the order of issue (R242, R271). -/
def State.dueGate (s : State) (i : Nat) (x : Slice) : Option Instr :=
  (x.gates.zipIdx.find? (fun g => s.longLanded i g.1.gates && ((s.gateFailure g.1.gates).isSome || x.mRoom false))).map
    (fun g => .gatedCommandEntry i g.2)

/-- A bound command enters, or is discarded (R242): of all that are due, whatever the cycle in which each became so, the one with the
oldest copy (R283). DESIGN CHOICE: log entry 30. -/
def State.dueStage (s : State) (i : Nat) (x : Slice) : Option Instr :=
  let due := x.stages.filter (fun p => p.2.copy.isSome && s.longLanded i (p.2.copy.toList ++ p.2.gates))
  (oldest (due.map (fun p => (p.2.copy.getD 0, p.1)))).bind (fun p => (mget x.stages p.2).bind (fun st =>
    if (s.gateFailure (st.copy.toList ++ st.gates)).isSome || (x.mRoom false && !s.stageWaits st.cmd) then
      some (.stagedCommandEntry i p.2)
    else none))

/-- Grace periods begin and complete (R302, R307). DEDUCED: log entry 36. -/
def State.dueGrace (s : State) : Option Instr :=
  s.ctxs.findSome? (fun p =>
    let c := p.2
    if c.gDone < c.gBegun then
      (if s.blocked p.1 (c.gDone + 1) then none else some (.gracePeriodComplete (p.1 / 16384) (p.1 % 16384)))
    else if c.whey.any (fun r => c.gBegun < r.gen) then some (.gracePeriodBegin (p.1 / 16384) (p.1 % 16384))
    else none)

/-- A row has slept for AGE cycles (R257). -/
def State.dueAge (s : State) : Option Instr :=
  s.tasks.findSome? (fun p => (p.2.rows.find? (fun r => rowAged s p.2 (r.1 / 64) (r.1 % 64))).map (fun r =>
    .frameAgeExpiry p.1 (r.1 / 64) (r.1 % 64)))

/-- A parked `mwait` ends at the latest when the write to its line is visible at device scope (R168). -/
def State.dueWake (s : State) : Option Instr :=
  s.lanes.findSome? (fun p =>
    match p.2.wait with
    | .mwait line since =>
      if s.lineVisible p.1 line since then
        some (.mwaitWake { slice := sliceOf p.1, place := waveOf p.1 % 48, lane := laneNo p.1 } .write)
      else none
    | _ => none)

/-- A cluster's control interval is over (R16). What its gaffer estimates is free (R379). DESIGN CHOICE: log entry 39. -/
def State.dueInterval (s : State) : Option Instr :=
  (s.clusters.find? (fun c => c.2.since + intervalCycles ≤ s.now)).map (fun c =>
    let ts := (s.tasks.filter (fun p => p.2.cluster == c.1)).map (·.1)
    .controlIntervalEnd c.1 (ts.zipIdx.map (fun t => (t.1, Config.freeNat (s.free + t.2))))
      (Config.freeNat (s.free + ts.length) % 2 == 1))

/-- Increasing lists of g of the given slices. -/
def gangsOf : Nat → List Nat → List (List Nat)
  | 0, _ => [[]]
  | _ + 1, [] => []
  | n + 1, x :: r => (gangsOf n r).map (fun g => x :: g) ++ gangsOf (n + 1) r
/-- Member slices of a cluster on which the next task of a launch fits (R196). -/
def State.fitsIn (s : State) (lk : Nat) (l : Launch) (c : Nat) : List (List Nat) :=
  if s.keptFrom c lk l.need then []
  else (gangsOf (slGang l.words) ((List.range 6).map (· + 6 * c))).filter (fun ms => s.fitsTask l.words ms)

/-- The slate of a launch that reaches the head of its pool is read (R186): the member list of that event fits nowhere. -/
def State.dueJudge (s : State) : Option Instr :=
  (s.launches.find? (fun p => !p.2.checked && s.headsPool p.1 p.2 && s.mayRun (spaceKey p.2.vf p.2.asid))).map (fun p =>
    .taskPlacement p.1 [0, 6])
/-- The owner's task for which a gaffer has reclaimed is admitted as soon as it fits (R380), on the first members that fit.
DESIGN CHOICE: log entry 39. -/
def State.dueOwner (s : State) : Option Instr :=
  s.clusters.findSome? (fun c => c.2.hold.findSome? (fun lk =>
    (mget s.launches lk).bind (fun l =>
      if s.waits lk && s.mayRun (spaceKey l.vf l.asid) && !s.behind (spaceKey l.vf l.asid) then
        ((s.fitsIn lk l c.1).head?).map (fun ms => .taskPlacement lk ms)
      else none)))

/-- The first event that is due now, in a fixed order. DESIGN CHOICE: log entry 2. -/
def State.forced (s : State) : Option Instr :=
  s.dueArrival.orElse fun _ => s.dueRefill.orElse fun _ => s.dueRatio.orElse fun _ => s.dueInterval.orElse fun _ =>
  s.dueDeadline.orElse fun _ => s.dueSave.orElse fun _ => s.dueWake.orElse fun _ =>
  (s.slices.findSome? (fun p =>
    (s.dueMatrix p.1).orElse fun _ => (s.dueGate p.1 p.2).orElse fun _ => s.dueStage p.1 p.2)).orElse fun _ =>
  s.dueGrace.orElse fun _ => s.dueAge.orElse fun _ => s.dueJudge.orElse fun _ => s.dueOwner

-- Due resumes (R257, R258).
def places : List Nat := List.range 48
/-- The tiles of a task whose resume is due, with the cycle in which it fell due. -/
def Task.noteDue (t : Task) (now : Nat) : Map Nat :=
  (t.tens.filter (fun d => !(dueRows t d.1 now).isEmpty)).map (fun d => (d.1, mgetD t.dueAt d.1 now))

/-- Threads whose group has nobody left to wait for: it is released, and never holds them again (R141, R142). -/
def State.freed (s : State) (k : Nat) (l : Lane) : Bool :=
  match l.cur.group with
  | some g => !l.cur.rel && l.arrivedAt l.ts.mode g && !s.held k l
  | none => false
/-- What the bin units, the meet groups and the segment pools show is noted: what has fallen due, or is due no longer; the
groups that are released, all their lanes at once; the spawn-wait lanes that are woken. -/
def State.noted (s : State) : State :=
  { s with
    lanes := s.lanes.map (fun p => if s.freed p.1 p.2 then (p.1, p.2.setCur { p.2.cur with rel := true }) else p)
    tasks := s.tasks.map (fun p => (p.1, { s.watchPools p.2 with dueAt := p.2.noteDue s.now })) }
/-- Something is to be noted, or a cut is complete now that the engines have come to its end (R183, R184). -/
def State.noteDue (s : State) : Option State :=
  if !s.cutsDone.isEmpty then some s.settleCuts
  else if s.lanes.any (fun p => s.freed p.1 p.2) || s.tasks.any (fun p => p.2.noteDue s.now != p.2.dueAt ||
      p.2.spawned.any (fun x => s.pushedOn p.2.space x.reel x.since)) then some s.noted
  else none

/-- Due resumes in the order in which they are served: cycle, then tid. -/
def insertDue (x : Nat × Nat × Nat) : List (Nat × Nat × Nat) → List (Nat × Nat × Nat)
  | [] => [x]
  | y :: r => if x.1 < y.1 || (x.1 == y.1 && x.2.1 < y.2.1) then x :: y :: r else y :: insertDue x r
def State.dueOrder (s : State) : List (Nat × Nat × Nat) :=
  (s.tasks.flatMap (fun p => (p.2.dueAt.filter (fun d => d.2 ≤ s.now)).map (fun d => (d.2, d.1, p.1)))).foldl
    (fun r x => insertDue x r) []

/-- Where a due resume fits: any member slice with room (R258). -/
def State.resumePlaces (s : State) (tn tid : Nat) : List Instr :=
  match s.task tn with
  | none => []
  | some t =>
    let e := (mget t.tens tid).getD []
    if !s.mayRun t.space || s.behind t.space || t.editing tid then []
    else t.members.flatMap (fun m => places.filterMap (fun x =>
      if s.fitsWave tn (placeKey m x) (frRslots e) (frRsb e) then some (.resumeLoad tn tid m x) else none))

/-- The saved waves of a boosted context, ahead of all else (R303, R366); then the first due resume that fits, in each of the ways
in which it does. -/
def State.nextResume (s : State) : List Instr :=
  if !s.boosted.isEmpty then s.boosted
  else ((s.dueOrder.map (fun d => s.resumePlaces d.2.2 d.2.1)).find? (fun r => !r.isEmpty)).getD []

-- Events whose time is open.
/-- A parked `mwait` (R167). -/
def State.mayWake (s : State) : List Instr :=
  s.lanes.flatMap (fun p =>
    match p.2.wait with
    | .mwait line since =>
      let l : LaneId := { slice := sliceOf p.1, place := waveOf p.1 % 48, lane := laneNo p.1 }
      (if s.lineWritten p.1 line since then [.mwaitWake l .write] else []) ++ [.mwaitWake l .spurious]
    | _ => [])

/-- Claims (R125), copy slots (R227), queue and gate entries (R266, R271). -/
def State.mayGrant (s : State) : List Instr :=
  (s.tasks.flatMap (fun p => p.2.members.filterMap (fun m =>
    match oldest (claimsOf (s.taskLanesOn p.1 m)) with
    | some (_, k) => if k ≤ (s.poolOf p.1 m).length then some (.claimGrant m p.1) else none
    | none => none))) ++
  (((s.waves.map (fun p => p.1 / 48)).dedup).flatMap (fun m =>
    (if !(s.copyWaiters m).isEmpty && 0 < s.slotsFree m then [.copySlotGrant m] else []) ++
    (if !(s.mWaiters m false).isEmpty && (s.slice m).mRoom false then [.matrixQueueGrant m] else []) ++
    (if !(s.mWaiters m true).isEmpty && (s.slice m).mRoom true then [.gateEntryGrant m] else [])))

/-- Requests of the copy engines (R228, R237) and the bank engines (R215). -/
def State.mayMoveData (s : State) : List Instr :=
  (s.slices.flatMap (fun p => p.2.copies.flatMap (fun c => c.reqs.filterMap (fun q =>
    if !q.issued then
      (if p.2.held.isNone && s.mayIssue c p.1 && p.2.turnOf c q.id then some (.copyRequestIssue p.1 c.id q.id) else none)
    else if q.done || p.2.parked c.id q.id then none
    else some (.copyRequestComplete p.1 c.id q.id))))) ++
  s.tasks.flatMap (fun p => p.2.banks.filterMap (fun b =>
    if (p.2.banks.takeWhile (fun x => x.id != b.id)).any (fun x => b.tids.any x.names) then none
    else some (.bankOperationComplete p.1 b.id)))

/-- Waves that form, lanes that come back from a spawn, and tasks that retire (R197, R202, R205). -/
def State.mayForm (s : State) : List Instr :=
  s.tasks.flatMap (fun p =>
    let t := p.2
    (if s.mayRetire p.1 t then [.taskRetire p.1] else []) ++
    (if !s.mayRun t.space || s.behind t.space then []
     else
      (if t.nth ≤ 32 * t.formed then []
       else
        let m := t.members.getD (t.formed % Nat.max 1 t.members.length) 0
        places.filterMap (fun x =>
          if (s.wave (placeKey m x)).isNone && (t.formed < t.members.length || s.fitsWave p.1 (placeKey m x) t.slots t.sb)
          then some (.waveFormation p.1 x) else none)) ++
      (if t.woken.isEmpty then []
       else t.members.flatMap (fun m => places.filterMap (fun x =>
        if s.fitsWave p.1 (placeKey m x) t.slots t.sb then some (.spawnWaitWake p.1 m x) else none)))))

/-- Tasks that may be placed (R194 to R196). -/
def State.mayPlace (s : State) : List Instr :=
  s.launches.flatMap (fun p =>
    let l := p.2
    if !s.headsPool p.1 l || !s.mayRun (spaceKey l.vf l.asid) || s.behind (spaceKey l.vf l.asid) || !l.checked || l.ntask ≤ l.next then []
    else (List.range 96).flatMap (fun c => (s.fitsIn p.1 l c).map (fun ms => .taskPlacement p.1 ms)))

/-- Saved waves that may be placed again (R184). -/
def State.mayRestore (s : State) : List Instr := (s.ctxs.filter (fun c => !s.behind c.1)).flatMap (fun c => s.restorePlaces c.1)

/-- Cuts on their way to the slices (R180), each at the start of a cycle of the slice (R185), and whey records that are due
(R308). -/
def State.mayReach (s : State) : List Instr :=
  s.ctxs.flatMap (fun c =>
    (if !c.2.cut then []
     else
      (((s.waves.filter (fun p => ((s.task p.2.task).map Task.space) == some c.1)).map (fun p => p.1 / 48)).dedup).filterMap
        (fun m => if (mget c.2.arrived m).isNone && s.cursor ≤ 3 * m then some (.cutArrival (c.1 / 16384) (c.1 % 16384) m) else none)) ++
    (match c.2.whey with
     | r :: _ => if c.2.wheyHeld || c.2.gDone < r.gen then [] else [.wheyDelivery (c.1 / 16384) (c.1 % 16384)]
     | [] => []))

/-- What a queue slot may do next (R358 to R360). Where it finds no packet it reads again on the next kick (R369). -/
def State.slotEvents (s : State) (r : Reel) (i : Nat) : List Instr :=
  match r.waitOn with
  | some (a, v, ge) =>
    match s.devWord r.space a with
    | some x => if (if ge then v.toNat ≤ x else x = v.toNat) then [.waitConditionMet i] else []
    | none => []
  | none =>
    if r.head / 63 != r.segNo then
      match (s.headSeg r).bind (fun seg => s.devWord r.space (packetVa seg 63 + 8)) with
      | some n => if n = 0 then [] else [.splicePacket i]
      | none => []
    else
      match s.packetAt r with
      | none => if r.reads then [.nopPacket i] else []
      | some ws =>
        let kind := packetType ws
        if kind.isSome && hasBarrier ws && !r.infl.isEmpty && r.barrier then []
        else
          match kind with
          | some 0 => [.nopPacket i]
          | some 1 => [.launchPacket i]
          | some 2 =>
            (List.range 576).filterMap (fun m => if (s.slice m).copies.length < 48 then some (.copyPacket i m) else none)
          | some 3 => [.signalPacket i]
          | some 4 => [.waitPacket i]
          | some 6 => [.quiescePacket i]
          | _ => [.invalidPacket i]

/-- The queues (R358 to R360), and wheels that are closing (R375). -/
def State.mayServe (s : State) : List Instr :=
  s.reels.flatMap (fun p =>
    (match p.2.slot with
     | some i => s.slotEvents p.2 i
     | none => []) ++
    (p.2.results.filter (fun x => (mget p.2.infl x.1).isSome)).map (fun x => .packetCompletion p.2.vf p.2.rnum x.1)) ++
  s.wheels.filterMap (fun w => if w.2.closing && !s.wheelBusy w.2 then some (.wheelClose w.1) else none)

/-- Every event that may happen now, and may as well happen later. DESIGN CHOICE: log entry 2. -/
def State.elective (s : State) : List Instr :=
  s.mayWake ++ s.mayGrant ++ s.mayMoveData ++ s.mayForm ++ s.mayPlace ++ s.mayRestore ++ s.mayReach ++ s.mayServe

/-- Nothing more happens in this cluster cycle (R15, R179). -/
def State.tick (s : State) (edge : Nat → Bool) : State :=
  { s with
    now := s.now + 1, cursor := 0
    slices := s.slices.map (fun p => (p.1, if edge p.1 then { p.2 with cycle := p.2.cycle + 1 } else p.2)) }

end Sys2Proof.Machine
end

