-- ==== Sys2Proof/Machine/Issue.lean ====
section
/-! DEFINITION. Which strand issues (R133 to R135, R172 to R175), what it fetches (R40), and the asynchronous causes that a
lane takes first (R352). -/

namespace Sys2Proof.Machine

/-- The lanes of a wave at one PC in one mode (R133). -/
structure Strand where
  pc    : Word
  mode  : Mode
  lanes : List Nat               -- keys, in increasing order
  deriving DecidableEq, Repr

/-- What the fetch at a strand's PC gives. -/
inductive Fetched where
  | instr (i : Instr)
  | trap (c : Cause)
  | park
  deriving DecidableEq, Repr

/-- Fetch and decode at a lane's PC (R38 to R40). The words are as many as the first one asks for, so decoding them does
not fail. -/
def State.fetchInstr (s : State) (k : Nat) (l : Lane) : Fetched × State :=
  match s.fetchHalf k l l.pc.toNat with
  | (.trap c, s1) => (.trap c, s1)
  | (.park, s1) => (.park, s1)
  | (.half h, s1) =>
    match s1.fetchMore k l (l.pc.toNat + 2) (lengthOf (BitVec.ofNat 16 (leNat h)) - 1) h with
    | (.trap c, s2) => (.trap c, s2)
    | (.park, s2) => (.park, s2)
    | (.half bs, s2) =>
      match decode bs with
      | .ok (i, _) => (.instr i, s2)
      | .error _ => (.park, s2)

/-- A wait that is over when a condition on the state holds: the lane's instruction then comes to its end. -/
def State.waitOver (s : State) (k : Nat) (l : Lane) : Bool :=
  match l.wait with
  | .cwait c => (s.counter k c).val ≤ 0
  | .waitb n => s.batchLanded l n
  | .waitgp t => (s.ctx (s.spaceOf k)).graceOver t
  | .whey => (s.ctx (s.spaceOf k)).whey.length < 4096
  | .results => s.settledBy k l (s.cycle (sliceOf k))
  | _ => false

/-- A wait that ends when its instruction, executed again, would no longer wait in the same way (R224, R254, R275). -/
def Wait.retried (w : Wait) : Bool :=
  match w with
  | .tensor _ | .frameEdit _ | .stage _ | .reel | .bin => true
  | _ => false

/-- The lanes of a wave that issued together and wait together. -/
def State.waitMates (s : State) (w : Nat) (l : Lane) : List (Nat × Lane) :=
  (s.waveLanes w).filter (fun p =>
    p.2.pc == l.pc && p.2.ts.mode == l.ts.mode && p.2.during == l.during && p.2.stamp == l.stamp && p.2.wait != .none)

/-- The strand that issues becomes the one of these lanes. -/
def State.issuing (s : State) (w : Nat) (ks : List Nat) : State :=
  { s with iss := { slice := w / 48, place := w % 48, lanes := ks.map laneNo } }

/-- The instruction of lanes that wait in it comes to its end, or they go on waiting. They have issued, so nothing is fetched, and
no asynchronous cause comes between (R134, R306). -/
def State.goOn (s : State) (w : Nat) (i : Instr) (ks : List Nat) : Res := exec i (s.issuing w ks)

/-- Executed now, the instruction of a waiting lane would not wait as it does. -/
def State.retryOver (s : State) (k : Nat) (l : Lane) (i : Instr) (ks : List Nat) : Bool :=
  match s.goOn (waveOf k) i ks with
  | .next t => (t.lane k).all (fun x => x.pc != l.pc || x.wait != l.wait)
  | _ => true

/-- The lanes that go on when a lane's wait is over: itself with those that wait with it and whose waits are over too; or, where
the instruction is tried again, all that wait as it does. -/
def State.goers (s : State) (k : Nat) (l : Lane) : Option (Instr × List Nat) :=
  match l.during with
  | none => none
  | some i =>
    let ms := s.waitMates (waveOf k) l
    if s.waitOver k l then some (i, (ms.filter (fun p => s.waitOver p.1 p.2)).map (·.1))
    else if l.wait.retried then
      let ks := (ms.filter (fun p => p.2.wait == l.wait)).map (·.1)
      if s.retryOver k l i ks then some (i, ks) else none
    else none

/-- Lanes whose wait is over go on. -/
def State.waitEnd (s : State) : Option Res :=
  s.lanes.findSome? (fun p => (s.goers p.1 p.2).map (fun g => s.goOn (waveOf p.1) g.1 g.2))

/-- A lane that is part of its strand (R134): it is not held (R141). One that still waits in an earlier instruction is, and the
strand is not ready. DEDUCED: log entry 11. -/
def State.joins (s : State) (k : Nat) (l : Lane) : Bool := !s.held k l && !l.wait.apart

def insertStrand (k : Nat) (l : Lane) : List Strand → List Strand
  | [] => [{ pc := l.nextPc, mode := l.ts.mode, lanes := [k] }]
  | x :: r =>
    if x.pc = l.nextPc ∧ x.mode = l.ts.mode then { x with lanes := x.lanes ++ [k] } :: r else x :: insertStrand k l r

/-- The strands of a wave (R133). DEDUCED: log entry 11. -/
def State.strands (s : State) (w : Nat) : List Strand :=
  ((s.waveLanes w).filter (fun p => s.joins p.1 p.2)).foldl (fun r p => insertStrand p.1 p.2 r) []

/-- Instructions that use the slice's load-store port (R148). -/
def usesPort : Instr → Bool
  | .ld _ _ _ | .st _ _ _ | .ld2 _ _ | .st2 _ _ | .lds _ _ _ _ | .ldsAcq _ _ _ _ | .sts _ _ _ _ | .stsRel _ _ _ _
  | .pref _ _ _ | .mwait _ | .cas _ _ _ _ _
  | .atomAdd _ _ _ _ _ | .atomAnd _ _ _ _ _ | .atomOr _ _ _ _ _ | .atomXor _ _ _ _ _ | .atomMinS _ _ _ _ _
  | .atomMinN _ _ _ _ _ | .atomMaxS _ _ _ _ _ | .atomMaxN _ _ _ _ _ | .atomXchg _ _ _ _ _ | .atomFadd _ _ _ _
  | .atomFmin _ _ _ _ | .atomFmax _ _ _ _
  | .redAdd _ _ _ _ _ | .redAnd _ _ _ _ _ | .redOr _ _ _ _ _ | .redXor _ _ _ _ _ | .redMinS _ _ _ _ _
  | .redMinN _ _ _ _ _ | .redMaxS _ _ _ _ _ | .redMaxN _ _ _ _ _ | .redFadd _ _ _ _ | .redFmin _ _ _ _
  | .redFmax _ _ _ _ => true
  | _ => false

/-- An entry can be read: its presence bit is set (R50), and under LOCK its latency is over (R51). -/
def Entry.readable (e : Entry) (lock : Bool) (t : Nat) : Bool := !e.pend && (!lock || e.ready ≤ t)

/-- What an instruction waits for besides its operands: `suspend` and `suspendk` for every result of the thread (R54),
`give` for the writes to the slots it gives away (R124), and a quiescent point at trap level 0 for the results of its loads and
atomics (R301); the departure from a barrier is one, and `exit` is one at every trap level. One that traps does not wait: `first` says
that the lane is the one that takes the saturation trap of `bar` (R34). -/
def State.settledFor (s : State) (k : Nat) (l : Lane) (i : Instr) (first : Bool) : Bool :=
  let t := s.cycle (sliceOf k)
  match i with
  | .suspend _ _ | .suspendk _ _ => s.settledBy k l t
  | .qpoint _ | .phase _ .device | .phase _ .system | .yield _ | .waitgp _ | .defer _ => l.quietBy t
  | .exit _ => l.loadsBy t
  | .bar _ b => (s.barRefusal k b.toNat).isSome || (first && s.armed k) || l.quietBy t
  | .barw _ b => (s.barRefusal k b.toNat).isSome || l.quietBy t
  | .give _ n => ((s.wave (waveOf k)).map (fun v => v.nlb < n.toNat || v.slots.all (fun p => p.1 / 256 + n.toNat < v.nlb || p.2.ready ≤ t))).getD true
  | _ => true

/-- A lane is ready with an instruction (R134): its stall is over, and its operands can be read. -/
def State.laneReady (s : State) (i : Instr) (first : Bool) (k : Nat) : Bool :=
  match s.lane k with
  | none => false
  | some l =>
    let t := s.cycle (sliceOf k)
    let lock : Bool := l.ilk == .lock
    l.next ≤ t && s.settledFor k l i first &&
    (shapeOf i).reads.all (fun p => ((l.stk[p]?).map (fun e => e.readable lock t)).getD true) &&
    (match slotRead i l with
     | some n => (s.slot k n).readable lock t
     | none => true)

/-- A drain before the instruction would move an entry whose presence bit is clear (R50, R83). -/
def State.drainWaits (s : State) (k : Nat) (i : Instr) : Bool :=
  match s.lane k with
  | none => false
  | some l =>
    let excess := l.stk.length + ((shapeOf i).pushes - (shapeOf i).pops) - s.cap k l
    (l.stk.reverse.take (4 * ceilDiv excess 4)).any (·.pend)

/-- A handler strand whose virtual function has spent its trap-service budget (R382). -/
def State.trapSpent (s : State) (w : Nat) (ks : List Nat) : Bool :=
  let c := w / 48 / 6
  ks.any (fun k =>
    let vf := s.spaceOf k / 16384
    ((s.lane k).map (fun l => l.ts.tlvl != 0)).getD false &&
      (s.vf vf).trapCap ≤ (mgetD s.budget (budgetKey vf c) (0, 0, 0)).2.2)

/-- The cycle in which a capped wave or strand takes part (R381). -/
def trickleTurn (t : Nat) : Bool := t % 16 == 0

/-- What a strand would issue, or none where it is not ready (R134). -/
def State.strandReady (s : State) (w : Nat) (x : Strand) : Option (Fetched × State) :=
  match x.lanes with
  | [] => none
  | k :: _ =>
    match s.lane k with
    | none => none
    | some l =>
      let t := s.cycle (w / 48)
      let rested := x.lanes.all (fun k => ((s.lane k).map (fun l => decide (l.next ≤ t) && l.wait == .none)).getD false)
      if !rested || (s.trapSpent w x.lanes && !trickleTurn t) then none
      else
        match s.fetchInstr k l with
        | (.instr i, s1) =>
          let first := x.lanes.find? (fun k => ((s.lane k).bind (fun l => l.firstCheck i)).isNone)
          if x.lanes.all (fun k => s.laneReady i (first == some k) k) then some (.instr i, s1) else none
        | (f, s1) => some (f, s1)

/-- The strand that issues in a turn, what it issues, and the state after the fetch. -/
structure Turn where
  strand : Strand
  what   : Fetched
  after  : State

/-- Strands at one PC are ordered by mode (R134). -/
def Mode.rank : Mode → Nat
  | .u => 0 | .s => 1 | .h => 2
def Strand.before (a b : Strand) : Bool :=
  a.pc.toNat < b.pc.toNat || (a.pc.toNat == b.pc.toNat && a.mode.rank < b.mode.rank)
def lowest : List Turn → Option Turn
  | [] => none
  | x :: r =>
    match lowest r with
    | none => some x
    | some y => some (if y.strand.before x.strand then y else x)

/-- The choice of R134: the lowest PC from the floor on, else the lowest. -/
def chooseStrand (floorPc : Nat) (ts : List Turn) : Option Turn :=
  match lowest (ts.filter (fun t => floorPc ≤ t.strand.pc.toNat)) with
  | some t => some t
  | none => lowest ts

/-- The wave issues nothing in a cycle that an entry or return still to come takes (R344, R346). -/
def Wave.paused (v : Wave) (t : Nat) : Bool := v.pauses.any (fun p => p.1 ≤ t && t < p.2)

/-- The turn of a wave, where it is ready (R173): not stalled, not stopped by a cut (R182), not capped (R381), with
nothing to wait for before it drains, and with the load-store port free where the strand that R134 finds needs it. -/
def State.turn (s : State) (w : Nat) (v : Wave) : Option Turn :=
  let t := s.cycle (w / 48)
  let sp := ((s.task v.task).map Task.space).getD 0
  let capped := ((s.task v.task).map (·.trickle)).getD false
  if t < v.stall || v.paused t || s.cutOver sp (w / 48) || (capped && !trickleTurn t) then none
  else
    match chooseStrand v.floorPc ((s.strands w).filterMap (fun x =>
      (s.strandReady w x).map (fun p => ({ strand := x, what := p.1, after := p.2 } : Turn)))) with
    | none => none
    | some x =>
      match x.what with
      | .instr i =>
        if x.strand.lanes.any (fun k => s.drainWaits k i) || (usesPort i && (s.slice (w / 48)).lsu.contains t) then none else some x
      | _ => some x

/-- A wave after a turn (R134): its floor, its run count, and the lanes that issued. -/
def Wave.turned (v : Wave) (x : Strand) : Wave :=
  let ls := x.lanes.map laneNo
  let fl := if v.floorPc ≤ x.pc.toNat then v.floorPc else 0
  let run := if v.last = ls then v.run + 1 else 1
  if run = 64 then { v with floorPc := x.pc.toNat + 2, run := 0, last := ls } else { v with floorPc := fl, run := run, last := ls }

-- The choice of a wave (R174).
def Wave.eff (v : Wave) : Nat := Nat.min 3 (v.cls + v.age / 512)

/-- A slice has a slice cycle at this cluster cycle (R179). -/
def State.edge (s : State) (slice : Nat) : Bool :=
  let n := ratioN (s.slice slice).ratio
  (List.range n).any (fun i => 8 * i / n == s.now % 8)

/-- Resident waves of a port with their turns. -/
def State.readyOn (s : State) (slice port : Nat) : List (Nat × Wave × Turn) :=
  (s.waves.filter (fun p => p.1 / 48 == slice && p.1 % 48 % 2 == port)).filterMap (fun p =>
    (s.turn p.1 p.2).map (fun t => (p.1, p.2, t)))

def Slice.lastOf (x : Slice) (port : Nat) : Option Nat := if port = 0 then x.last0 else x.last1
def Slice.setLast (x : Slice) (port place : Nat) : Slice :=
  if port = 0 then { x with last0 := some place } else { x with last1 := some place }

/-- The wave a port chooses: the highest effective class, then round-robin after the last choice. -/
def State.portChoice (s : State) (slice port : Nat) : Option (Nat × Wave × Turn) :=
  let rs := s.readyOn slice port
  let top := (rs.map (fun r => r.2.1.eff)).foldl Nat.max 0
  let best := rs.filter (fun r => r.2.1.eff == top)
  match (s.slice slice).lastOf port with
  | some p =>
    match best.find? (fun r => p < r.1 % 48) with
    | some r => some r
    | none => best.head?
  | none => best.head?

/-- The ports of a slice that have not yet issued in this cycle. The cursor is 3 × slice: with 1 added once port 0 of the
slice has issued, or 2 once port 1 has. -/
def State.portsLeft (s : State) (slice : Nat) : List Nat :=
  if !s.edge slice || slice < s.cursor / 3 then []
  else if s.cursor / 3 < slice || s.cursor % 3 = 0 then [0, 1]
  else [2 - s.cursor % 3]

/-- The cursor once a port of a slice has issued. -/
def State.cursorAfter (s : State) (slice port : Nat) : Nat :=
  if s.cursor / 3 = slice && s.cursor % 3 != 0 then 3 * (slice + 1) else 3 * slice + 1 + port

/-- The choice of a slice's ports that issues first: the lower wave place. -/
def State.sliceTurn (s : State) (slice : Nat) : Option (Nat × Nat × Wave × Turn) :=
  (s.portsLeft slice).foldl (fun best p =>
    match best, s.portChoice slice p with
    | some b, some c => if c.1 < b.2.1 then some (2 * slice + p, c) else some b
    | none, some c => some (2 * slice + p, c)
    | best, none => best) none

/-- The next wave to issue in this cluster cycle: the lowest slice first, and then the lowest wave place (R34, R244,
R352). DESIGN CHOICE: log entry 2. -/
def State.nextTurn (s : State) : Option (Nat × Nat × Wave × Turn) :=
  ((s.waves.map (fun p => p.1 / 48)).dedup).findSome? s.sliceTurn

/-- Take the turn: ages (R174), floor and run count (R134), the trap-service charge (R382). -/
def State.takeTurn (s : State) (c w : Nat) (x : Turn) : State :=
  let rivals := (s.readyOn (c / 2) (c % 2)).map (fun (r : Nat × Wave × Turn) => r.1)
  let s1 : State := { x.after with
    cursor := s.cursorAfter (c / 2) (c % 2)
    waves := x.after.waves.map (fun p =>
      if p.1 = w then (p.1, { p.2.turned x.strand with age := 0, pauses := p.2.pauses.filter (fun q => s.cycle (w / 48) < q.2) })
      else if rivals.contains p.1 then (p.1, { p.2 with age := p.2.age + 1 }) else p) }
  let s2 := s1.modSlice (c / 2) (fun v => v.setLast (c % 2) (w % 48))
  let vf := ((x.strand.lanes.head?).map (fun k => s.spaceOf k / 16384)).getD 0
  let handler := x.strand.lanes.any (fun k => ((s.lane k).map (fun l => l.ts.tlvl != 0)).getD false)
  let key := budgetKey vf (c / 2 / 6)
  let b := mgetD s2.budget key (0, 0, 0)
  let s3 := if handler then { s2 with budget := mset s2.budget key (b.1, b.2.1, b.2.2 + 1) } else s2
  s3.issuing w x.strand.lanes

-- Causes that a lane takes before its next instruction.
def cutCause : Cause := { mkCause 18 1 0 0 with asy := true }
/-- The ratio code of the slice is filled in where THROTTLE is delivered (R351). -/
def State.filled (s : State) (k : Nat) (c : Cause) : Cause :=
  if c.group = 17 then { c with w0 := BitVec.ofNat 32 (s.ratioOf (sliceOf k) * 256 + 1) } else c
/-- A lane could take the cause: one with the target H stays posted while `HSBASE.EN` is 0 (R352). R352 says so of context causes;
that a CUT waits likewise is the model's choice. DESIGN CHOICE: log entry 34. -/
def State.takes (s : State) (k : Nat) (l : Lane) (c : Cause) : Bool := !(s.routeOf k l c == .h && !s.hypOn k)

/-- The context causes that are posted, in the order of R352. -/
def Ctx.posted (c : Ctx) : List Cause := c.dead.toList ++ c.mc.toList ++ c.thr.toList

/-- The cause that a lane of the strand takes first, with its lane: a refill's INTEGRITY or HARDWARE (R87), then a posted
context cause, in the lowest lane at TLVL 0, then CUT while it is pending (R180). DEDUCED: log entry 25. -/
def State.owedTrap (s : State) (ks : List Nat) : Option (Nat × Cause) :=
  let ls := ks.filterMap (fun k => (s.lane k).map (fun l => (k, l)))
  match ls.findSome? (fun p => p.2.integ.map (fun c => (p.1, c))) with
  | some r => some r
  | none =>
    let idle := ls.filter (fun p => p.2.ts.tlvl == 0)
    let posted := (idle.head?).bind (fun p =>
      ((s.ctx (s.spaceOf p.1)).posted.find? (s.takes p.1 p.2)).map (fun c => (p.1, s.filled p.1 c)))
    match posted with
    | some r => some r
    | none =>
      (idle.find? (fun p => p.2.cutDue && s.cutHere p.1 && p.2.ts.cute && p.2.ts.mode == .u && s.takes p.1 p.2 cutCause)).map
        (fun p => (p.1, cutCause))

def laneIdOf (k : Nat) : LaneId := { slice := sliceOf k, place := waveOf k % 48, lane := laneNo k }

/-- The lanes of a strand park at the instruction whose fetch has faulted; each of them is counted in the record (R40,
R324, R325). DEDUCED: log entry 24. -/
def State.parkStrand (s : State) (ks : List Nat) : State :=
  let s1 := ks.tail.foldl (fun s k => ((s.lane k).map (fun l => (s.fetchInstr k l).2)).getD s) s
  ks.foldl (fun st k => st.holdLane k (.nop 0) .parked s1.nextId) { s1 with nextId := s1.nextId + 1 }

/-- The turn of a strand: a lane takes the trap that it owes, or the strand's fetch traps or parks it, or its instruction
executes. -/
def State.issue (s : State) (c w : Nat) (x : Turn) : Res :=
  match s.owedTrap x.strand.lanes with
  | some (k, e) => exec (.trapEntry (laneIdOf k) e) s
  | none =>
    let s1 := s.takeTurn c w x
    match x.what with
    | .instr i => exec i s1
    | .trap e => finish (x.strand.lanes.foldl (fun s k => s.enterTrap k e) s1)
    | .park => .next (s1.parkStrand x.strand.lanes)

end Sys2Proof.Machine
end

