-- ==== Sys2Proof/Machine/Step.lean ====
section
/-! DEFINITION. One step of the machine: possibly an input from outside, else an event that is due, else possibly one whose time is
open, else the instruction of the next strand to issue in this cluster cycle, else the next cycle begins. -/

namespace Sys2Proof.Machine

/-- The strand that issues next runs; with none left in this cycle, time moves on. -/
def State.issueNext (s : State) : Res :=
  match s.nextTurn with
  | some (c, w, _, x) => s.issue c w x
  | none => .next (s.tick s.edge)

/-- An event whose time is open happens now, or does not (R8, R16). -/
def State.maybe (s : State) (es : List Instr) : Res :=
  let (i, s1) := choose s (es.length + 1)
  match es[i]? with
  | some e => exec e s1
  | none => s1.issueNext

/-- The bin units serve the due resumes that fit (R258). -/
def State.resume (s : State) : Res :=
  let es := s.nextResume
  let (i, s1) := choose s es.length
  match es[i]? with
  | some e => exec e s1
  | none => s.maybe s.elective

/-- What the machine does by itself. -/
def State.run (s : State) : Res :=
  match s.trapOrphans with
  | some t => finish t
  | none =>
    match s.trapStarved with
    | some t => finish t
    | none =>
      match s.noteDue with
      | some t => .next t
      | none =>
        match s.waitEnd with
        | some r => r
        | none =>
          match s.forced with
          | some e => exec e s
          | none => s.resume

/-- The next input lands now, or later. DESIGN CHOICE: log entries 2 and 5. -/
def step (s : State) : Host.Outcome State Fault Refusal :=
  match s.inputs with
  | i :: r =>
    let (n, s1) := choose s 2
    if n = 1 || s1.regHeld i then s1.run
    else if outside i then exec i { s1 with inputs := r }
    else .next { s1 with inputs := r }
  | [] => s.run

-- An instruction where the next step fetches. Every number below is a place that is free after reset.
def codePage : Nat := 0x100000
def backPage : Nat := 0x110000
/-- Page tables at 0x20000 (root), 0x40000 (middle) and 0x50000 (leaf): page 0 is the code, page 1 the stack backing. -/
def fetchTables (m : Memory) : Memory :=
  pokes (pokes (pokes (pokes m 0x20000 (leBytes 8 0x40001)) 0x40000 (leBytes 8 0x50001)) 0x50000
    (leBytes 8 (codePage + 0x1F))) 0x50008 (leBytes 8 (backPage + 0x1F))

def fetchTask : Task :=
  { launch := 0, taskx := 0, vf := 0, asid := 0, nth := 1, argp := 0, entry := 0, depth := 0, sb := 0, slots := 1
    prio := 0, ilk := .trust, members := [0], acc := false, scratch := 0, nscratch := 0, nctr := 0, nbar := 0
    energy := 0, current := 0, back := 0x10000, roles := [], formed := 1
    extents := [{ page := 1, w := true, frames := [backPage] }] }

/-- One thread in U mode on lane 0 of wave place 0 of slice 0 is about to issue the instruction at address 0.
DESIGN CHOICE: log entry 7. -/
def State.withFetchWord (s : State) (nbits w : Nat) : State :=
  { s with
    inputs := []
    mem := pokes (fetchTables s.mem) codePage ((tableBytes nbits w ++ List.replicate 6 0).take 6)
    vfs := mset s.vfs 0 { hsbase := 1, grant := [(0, hbmSize)], quantum := 1000 }
    ctxs := mset s.ctxs 0 { root := 0x20000 }
    take := some 0
    tasks := mset s.tasks 0 fetchTask
    waves := mset s.waves 0 { uid := 1, task := 0, num := 0, sb := 0, nlb := 1 }
    lanes := mset s.lanes 0 { thx := 0, pc := 0 }
    cursor := 0 }

end Sys2Proof.Machine
end

