-- ==== Sys2Proof/Safety.lean ====
section
/-! DEFINITION. The terms in which the statements speak: a lane that is ready to complete an instruction, what a strand
leaves as it is, and the invariants of a run. -/

namespace Sys2Proof.Machine

/-- The canonical form of memory. -/
def State.MemWf (s : State) : Prop := Memory.wf s.mem = true

/-- A byte of memory as it is read when nothing newer is in flight. -/
def State.byte (s : State) (a : Nat) : Byte := peek s.mem a

/-- An operand that an instruction of the lane may use now: it has arrived, or the interlock of the lane's mode has it
wait or trap otherwise (R50 to R53). -/
def State.arrived (s : State) (k : Nat) (l : Lane) (e : Entry) : Prop :=
  ¬ (l.ilk = .trust ∧ e.pend = false ∧ s.time (sliceOf k) < e.ready)

/-- A lane that may complete `i`: it passes the checks of R64, the operands it reads are on chip and have arrived, and
its results fit on chip (R83). -/
structure Ready (s : State) (i : Instr) (k : Nat) (l : Lane) : Prop where
  here : s.lane k = some l
  unmet : l.atMeet = false
  pass : s.check k l i = none
  onChip : ∀ p, p ∈ (shapeOf i).reads → ∃ e, l.stk[p]? = some e ∧ s.arrived k l e
  fits : l.stk.length + ((shapeOf i).pushes - (shapeOf i).pops) ≤ s.cap k l

/-- The operands of a lane, in the order in which the instruction reads them. -/
def Lane.ops (l : Lane) (i : Instr) : List Entry := (shapeOf i).reads.map (fun p => l.stk.getD p {})

/-- The value of operand n. -/
def Lane.operand (l : Lane) (i : Instr) (n : Nat) : Word := ((l.ops i).map (·.val)).getD n 0

/-- Everything of a lane but its stack, what its positions have held and what they depend on. -/
def Lane.rest (l : Lane) : Lane := { l with chip := [], g := 0, hchip := [], hg := 0, past := [], under := [] }

/-- The marks that an instruction leaves while it runs are clear: no byte that does not exist was touched, and no lane is
about to drain. So every instruction begins (`StepRunsInstruction`). -/
structure Begun (s : State) : Prop where
  bad : s.bad = none
  late : s.iss.late = false

/-- A strand whose lanes are all ready. -/
structure ReadyStrand (s : State) (i : Instr) : Prop where
  sound : Begun s
  some_ : s.active ≠ []
  once : s.active.Nodup
  ready : ∀ k, k ∈ s.active → ∃ l, Ready s i k l

/-- A strand of one lane, which is ready. -/
structure Alone (s : State) (i : Instr) (k : Nat) (l : Lane) : Prop where
  sound : Begun s
  only : s.active = [k]
  ready : Ready s i k l

/-- What an instruction's flags make of its lane: DZ is sticky (R99). -/
def Lane.flagged (l : Lane) (f : Flags) : Lane := if f.dz then { l with ts := { l.ts with dz := true } } else l

/-- A task without its saturation flags (R33). -/
def Task.noFlags (t : Task) : Task := { t with sati := false, satf := false }

/-- Nothing but lanes, saturation flags and the model's own counters differs. -/
structure Alike (s t : State) : Prop where
  same : t = { s with lanes := t.lanes, tasks := t.tasks, free := t.free, nextId := t.nextId }
  tasks : ∀ n, (t.task n).map Task.noFlags = (s.task n).map Task.noFlags

/-- Each lane of the strand has completed `i`: it was made `g`, it pushed `vals`, and it goes on at `pc` (none: at the
next instruction). -/
def EachDone (s t : State) (i : Instr) (g : Nat → Lane → Lane) (vals : Nat → Lane → List (Word × List Nat))
    (pc : Nat → Lane → Option Word) : Prop :=
  ∀ k, k ∈ s.active → ∀ l, s.lane k = some l →
    ∃ d, t.lane k = some ((g k l).after i s.issueCycle d (vals k l) (pc k l))

/-- Lanes outside the strand are as before. -/
def OthersSame (s t : State) : Prop := ∀ k, k ∉ s.active → t.lane k = s.lane k

/-- A lane has completed `i` from `u`, the state that the instruction's own effect has made: it pushes `vals` and goes
on at `pc` (none: at the next instruction). Nothing else differs from `u` but the model's own counters. -/
def Completes (s u t : State) (i : Instr) (k : Nat) (vals : List (Word × List Nat)) (pc : Option Word) : Prop :=
  ∃ m d n, u.lane k = some m ∧
    t = { u.setLane k (m.after i s.issueCycle d vals pc) with free := n, nextId := u.nextId + 1 }

/-- Each lane of the strand has completed `i` from `u`, all with the same results (R217). -/
structure AllComplete (s u t : State) (i : Instr) (vals : List (Word × List Nat)) : Prop where
  same : t = { u with lanes := t.lanes, free := t.free, nextId := u.nextId + 1 }
  lanes : ∀ k, k ∈ s.active → ∃ m d, u.lane k = some m ∧ t.lane k = some (m.after i s.issueCycle d vals none)
  others : ∀ k, k ∉ s.active → t.lane k = u.lane k

/-- The load-store port of the slice is held for the one line that a lane has touched, in the first free cycle from its issue on (R148). -/
def Ported (s t u : State) : Prop :=
  u = t.modSlice s.iss.slice (fun x => { x with lsu := takePort (x.lsu.filter (x.cycle ≤ ·)) s.issueCycle 1 })

/-- No operation of the bank engines that the lane has issued is in progress (R224). -/
def Quiet (s : State) (k : Nat) : Prop := ∀ t, s.taskOf k = some t → ∀ b, b ∈ t.banks → b.who ≠ s.who k

/-- A lane that runs alone, is not at its meeting address, and need not be ready. -/
structure Single (s : State) (k : Nat) (l : Lane) : Prop where
  sound : Begun s
  only : s.active = [k]
  here : s.lane k = some l
  unmet : l.atMeet = false

/-- A lane that runs a `join` alone, perhaps at the meeting address of its group (R142). -/
structure Joining (s : State) (i : Instr) (k : Nat) (l : Lane) : Prop where
  sound : Begun s
  only : s.active = [k]
  here : s.lane k = some l
  pass : s.check k l i = none
  fits : l.stk.length ≤ s.cap k l

/-- No write in the location order touches a range, so a reader has no choice among versions (R288). -/
def Uncontested (s : State) (a n : Nat) : Prop := ∀ w, w ∈ s.log → w.addr + w.new.length ≤ a ∨ a + n ≤ w.addr

/-- HBM or another space that exists (R9). -/
def keyExists (key : Nat) : Prop := key < hbmSize ∨ 2 ^ 52 ≤ key

end Sys2Proof.Machine
end

