-- ==== Sys2Proof/Certificates/Slice0/Obligations.lean ====
section
/-! DEFINITION. The statements about the model, for the provers. Each formalises a rule R<n> of the specification, or says
that it states a choice of the model. -/

namespace Sys2Proof.Claims

open Sys2Proof Sys2Proof.Machine

-- Results of the integer instructions, as operations on bit vectors (R18, R97).
/-- A w-bit function of two operands, its result extended to 64 bits by the signedness of the type. -/
def onBits (t : ITy) (f : (w : Nat) → BitVec w → BitVec w → BitVec w) (a b : Word) : Word :=
  match t with
  | .s32 => (f 32 (a.setWidth 32) (b.setWidth 32)).signExtend 64
  | .n32 => (f 32 (a.setWidth 32) (b.setWidth 32)).setWidth 64
  | .s64 | .n64 => f 64 a b

/-- A relation between w-bit patterns. -/
def bitsRel (t : ITy) (f : (w : Nat) → BitVec w → BitVec w → Bool) (a b : Word) : Bool :=
  match t with
  | .s32 | .n32 => f 32 (a.setWidth 32) (b.setWidth 32)
  | .s64 | .n64 => f 64 a b

/-- Less than, and at most, for a type. -/
def ltBits (t : ITy) (a b : Word) : Bool := bitsRel t (fun _ x y => if t.signed then x.slt y else x.ult y) a b
def leBits (t : ITy) (a b : Word) : Bool := bitsRel t (fun _ x y => if t.signed then x.sle y else x.ule y) a b

/-- An operand reduced to its type. -/
def ofType (t : ITy) (a : Word) : Word := onBits t (fun _ x _ => x) a a

/-- What an integer instruction that never saturates or divides pushes: the operands are listed from the top (R98, R100
to R102). -/
def intResult : Instr → Option (List Word → Word)
  | .add _ t => some fun o => onBits t (fun _ a b => a + b) (o.getD 1 0) (o.getD 0 0)
  | .sub _ t => some fun o => onBits t (fun _ a b => a - b) (o.getD 1 0) (o.getD 0 0)
  | .mul _ t => some fun o => onBits t (fun _ a b => a * b) (o.getD 1 0) (o.getD 0 0)
  | .mulh _ t => some fun o => onBits t (fun w a b =>
      if t.signed then ((a.signExtend (2 * w) * b.signExtend (2 * w)) >>> w).setWidth w
      else ((a.setWidth (2 * w) * b.setWidth (2 * w)) >>> w).setWidth w) (o.getD 1 0) (o.getD 0 0)
  | .mad _ t => some fun o =>
      onBits t (fun _ a b => a + b) (onBits t (fun _ a b => a * b) (o.getD 2 0) (o.getD 1 0)) (o.getD 0 0)
  | .neg _ t => some fun o => onBits t (fun _ a _ => -a) (o.getD 0 0) 0
  | .abs _ t => some fun o => onBits t (fun _ a _ => if a.msb then -a else a) (o.getD 0 0) 0
  | .min _ t => some fun o =>
      if leBits t (o.getD 1 0) (o.getD 0 0) then ofType t (o.getD 1 0) else ofType t (o.getD 0 0)
  | .max _ t => some fun o =>
      if leBits t (o.getD 0 0) (o.getD 1 0) then ofType t (o.getD 1 0) else ofType t (o.getD 0 0)
  | .clamp _ t => some fun o =>
      let m := if leBits t (o.getD 1 0) (o.getD 2 0) then o.getD 2 0 else o.getD 1 0
      if leBits t m (o.getD 0 0) then ofType t m else ofType t (o.getD 0 0)
  | .and _ t => some fun o => onBits t (fun _ a b => a &&& b) (o.getD 1 0) (o.getD 0 0)
  | .or _ t => some fun o => onBits t (fun _ a b => a ||| b) (o.getD 1 0) (o.getD 0 0)
  | .xor _ t => some fun o => onBits t (fun _ a b => a ^^^ b) (o.getD 1 0) (o.getD 0 0)
  | .not _ t => some fun o => onBits t (fun _ a _ => ~~~a) (o.getD 0 0) 0
  | .shl _ t => some fun o => onBits t (fun _ a n => a <<< n) (o.getD 1 0) (o.getD 0 0)
  | .shr _ t => some fun o => onBits t (fun _ a n => if t.signed then a.sshiftRight n.toNat else a >>> n) (o.getD 1 0)
      (o.getD 0 0)
  | .rotl _ t => some fun o => onBits t (fun _ a n => a.rotateLeft n.toNat) (o.getD 1 0) (o.getD 0 0)
  | .sel _ t => some fun o =>
      if onBits t (fun _ c _ => c) (o.getD 0 0) 0 = 0 then ofType t (o.getD 1 0) else ofType t (o.getD 2 0)
  | .eq _ t => some fun o => if ofType t (o.getD 1 0) = ofType t (o.getD 0 0) then 1 else 0
  | .ne _ t => some fun o => if ofType t (o.getD 1 0) = ofType t (o.getD 0 0) then 0 else 1
  | .lt _ t => some fun o => if ltBits t (o.getD 1 0) (o.getD 0 0) then 1 else 0
  | .le _ t => some fun o => if leBits t (o.getD 1 0) (o.getD 0 0) then 1 else 0
  | .addi _ n => some fun o => o.getD 0 0 + n.signExtend 64
  | .shli _ n => some fun o => o.getD 0 0 <<< n.toNat
  | .popc _ t => some fun o => tyPut t (((List.range (tyBits t)).countP (fun j => (o.getD 0 0).getLsbD j) : Nat) : Int)
  | .clz _ t => some fun o => tyPut t
      ((((List.range (tyBits t)).reverse.takeWhile (fun j => !(o.getD 0 0).getLsbD j)).length : Nat) : Int)
  | .ctz _ t => some fun o => tyPut t
      ((((List.range (tyBits t)).takeWhile (fun j => !(o.getD 0 0).getLsbD j)).length : Nat) : Int)
  | .brev _ t => some fun o => onBits t (fun _ a _ => a.reverse) (o.getD 0 0) 0
  | .bfx _ t => some fun o => tyPut t (bfxVal t (tyNat t (o.getD 2 0)) (tyNat t (o.getD 1 0)) (tyNat t (o.getD 0 0)))
  | .bfi _ t => some fun o => tyPut t
      ((bfiVal t (tyNat t (o.getD 3 0)) (tyNat t (o.getD 2 0)) (tyNat t (o.getD 1 0)) (tyNat t (o.getD 0 0)) : Nat) : Int)
  | _ => none

/-- What a float, conversion or quantization instruction computes from its operands, listed from the top (R103 to R115):
operands are read with the input flush, results are exact and rounded once. -/
def floatResult : Instr → Option (Lane → List Word → Pure)
  | .fadd _ => some fun l o => { push := [fout32 l (addEx (fctlRm l) (fin32 l (o.getD 1 0)) (fin32 l (o.getD 0 0)))] }
  | .fsub _ => some fun l o =>
      { push := [fout32 l (addEx (fctlRm l) (fin32 l (o.getD 1 0)) (negEx (fin32 l (o.getD 0 0))))] }
  | .fmul _ => some fun l o => { push := [fout32 l (mulEx (fin32 l (o.getD 1 0)) (fin32 l (o.getD 0 0)))] }
  | .fma _ => some fun l o => { push :=
      [fout32 l (addEx (fctlRm l) (mulEx (fin32 l (o.getD 2 0)) (fin32 l (o.getD 1 0))) (fin32 l (o.getD 0 0)))] }
  | .fdiv _ => some fun l o => { push := [fout32 l (divEx (fin32 l (o.getD 1 0)) (fin32 l (o.getD 0 0)))] }
  | .fsqrt _ => some fun l o => { push := [fout32 l (sqrtEx (fin32 l (o.getD 0 0)))] }
  | .fneg _ => some fun _ o => { push := [signOp (lo32 (o.getD 0 0)) (lo32 (o.getD 0 0) ^^^ 2 ^ 31)] }
  | .fabs _ => some fun _ o => { push := [signOp (lo32 (o.getD 0 0)) (lo32 (o.getD 0 0) % 2 ^ 31)] }
  | .fsgn _ => some fun _ o => { push :=
      [signOp (lo32 (o.getD 1 0)) (lo32 (o.getD 1 0) % 2 ^ 31 + lo32 (o.getD 0 0) / 2 ^ 31 * 2 ^ 31)] }
  | .fmin _ m => some fun l o => { push := [pick32 (minMax false m (fin32 l (o.getD 1 0)) (fin32 l (o.getD 0 0)))] }
  | .fmax _ m => some fun l o => { push := [pick32 (minMax true m (fin32 l (o.getD 1 0)) (fin32 l (o.getD 0 0)))] }
  | .fcmp _ c => some fun l o =>
      { push := [if fcmpVal c (fin32 l (o.getD 1 0)) (fin32 l (o.getD 0 0)) then 1 else 0] }
  | .fclass _ => some fun _ o => { push := [BitVec.ofNat 64 (2 ^ fclassBit (lo32 (o.getD 0 0)))] }
  | .frnd _ r => some fun l o => { push := [pick32 (frndEx (rmOf l r) (fin32 l (o.getD 0 0)))] }
  | .frcpa _ => some fun l o => { push := [BitVec.ofNat 64 (frcpaBits l (o.getD 0 0))] }
  | .frsqa _ => some fun l o => { push := [BitVec.ofNat 64 (frsqaBits l (o.getD 0 0))] }
  | .fexp2a _ => some fun l o => { push := [BitVec.ofNat 64 (fexp2Bits l (o.getD 0 0))] }
  | .flog2a _ => some fun l o => { push := [BitVec.ofNat 64 (flog2Bits l (o.getD 0 0))] }
  | .cvt _ src dst r => some (cvtPure src dst r)
  | .pack2F16 _ r => some (packPure .f16 r)
  | .pack2B16 _ => some (packPure .b16 .rne)
  | .unpk2 _ f => some fun l o => { push :=
      [BitVec.ofNat 64 (cvtFloat l .f32 .rne (cvtSrc l (cvtOf16 f) (o.getD 0 0))).1,
       BitVec.ofNat 64 (cvtFloat l .f32 .rne (cvtSrc l (cvtOf16 f) (o.getD 0 0 >>> 16))).1] }
  | .ext _ sgn k => some fun _ o => { push := [extVal sgn k (o.getD 0 0)] }
  | .qnt _ q => some fun l o =>
      let c := quantize q (fin32 l (o.getD 2 0)) (f16.dec (lo16 (o.getD 1 0))).exact ((o.getD 0 0).toNat % 2 ^ qBits q)
      { push := [BitVec.ofNat 64 c.1], flags := { satf := c.2 } }
  | .dqnt _ q => some fun _ o => { push := [pick32 (dequant (f16.dec (lo16 (o.getD 1 0))).exact
      ((o.getD 2 0).toNat % 2 ^ qBits q) ((o.getD 0 0).toNat % 2 ^ qBits q))] }
  | .adds _ t => some fun _ o => satPut t (tyVal t (o.getD 1 0) + tyVal t (o.getD 0 0))
  | .subs _ t => some fun _ o => satPut t (tyVal t (o.getD 1 0) - tyVal t (o.getD 0 0))
  | _ => none

-- Approximate functions (R109, R110).
/-- The value of finite F32 bits (R20). -/
def f32Of (b : Nat) : ℚ :=
  (if b / 2 ^ 31 % 2 = 1 then -1 else 1) *
  (if b / 2 ^ 23 % 256 = 0 then ((b % 2 ^ 23 : Nat) : ℚ) * 2 ^ (-149 : ℤ)
    else ((2 ^ 23 + b % 2 ^ 23 : Nat) : ℚ) * 2 ^ (((b / 2 ^ 23 % 256 : Nat) : ℤ) - 150))
/-- F32 bits that are neither infinite nor NaN. -/
def f32Fin (b : Nat) : Prop := b / 2 ^ 23 % 256 ≠ 255
/-- An operand as these instructions read it: bits 31:0, a subnormal as zero of its sign where FZIS is 1 (R103). -/
def f32In (l : Lane) (a : Word) : Nat :=
  if fzis l ∧ a.toNat % 2 ^ 31 < 2 ^ 23 then a.toNat % 2 ^ 32 / 2 ^ 31 * 2 ^ 31 else a.toNat % 2 ^ 32
/-- The special inputs of `frcpa`, `frsqa`, `fexp2a` and `flog2a`, and those whose result is exact (R110). -/
structure ApproxRows (l : Lane) (a : Word) (x sg m : Nat) (v : ℚ) : Prop where
  nan : 0x7F800000 < m → frcpaBits l a = 0x7FC00000 ∧ frsqaBits l a = 0x7FC00000 ∧ fexp2Bits l a = 0x7FC00000 ∧
    flog2Bits l a = 0x7FC00000
  zero : m = 0 → frcpaBits l a = sg + 0x7F800000 ∧ frsqaBits l a = sg + 0x7F800000 ∧ fexp2Bits l a = 0x3F800000 ∧
    flog2Bits l a = 0xFF800000
  posInf : x = 0x7F800000 → frcpaBits l a = 0 ∧ frsqaBits l a = 0 ∧ fexp2Bits l a = 0x7F800000 ∧ flog2Bits l a = 0x7F800000
  negInf : x = 0xFF800000 → frcpaBits l a = 0x80000000 ∧ frsqaBits l a = 0x7FC00000 ∧ fexp2Bits l a = 0 ∧
    flog2Bits l a = 0x7FC00000
  negative : 0 < m → m < 0x7F800000 → sg ≠ 0 → frsqaBits l a = 0x7FC00000 ∧ flog2Bits l a = 0x7FC00000 ∧
    frcpaBits l a = 2 ^ 31 + frcpaBits l (BitVec.ofNat 64 m)
  powers : ∀ n, 1 ≤ n → n ≤ 253 → m = n * 2 ^ 23 → frcpaBits l a = sg + (254 - n) * 2 ^ 23 ∧
    (sg = 0 → n % 2 = 1 → frsqaBits l a = (381 - n) / 2 * 2 ^ 23) ∧
    (sg = 0 → f32Fin (flog2Bits l a) ∧ f32Of (flog2Bits l a) = (n : ℚ) - 127) ∧ (sg = 0 → n = 127 → flog2Bits l a = 0)
  expLarge : m < 0x7F800000 → 128 ≤ v → fexp2Bits l a = 0x7F800000
  expSmall : m < 0x7F800000 → v < -149 → fexp2Bits l a = 0
  expInteger : m < 0x7F800000 → ∀ i : ℤ, v = i → -149 ≤ i → i ≤ 127 → fexp2Bits l a =
    if -126 ≤ i then (i + 127).toNat * 2 ^ 23 else if fzrs l then 0 else 2 ^ (i + 149).toNat
  expSubnormal : m < 2 ^ 23 → fexp2Bits l a = 0x3F800000
  rcpOverflow : 0 < m → m < 0x7F800000 → f32Of 0x7F7FFFFF < |1 / v| → frcpaBits l a = sg + 0x7F800000
/-- The bounds of R109 for a finite operand v that is not 0: an error of 2^-23 and of 2^-22 of the result for `frcpa` and
`frsqa`, 2 ulp for `fexp2a` and `flog2a` (2^-22 from 0.5 to 2); below 2^-126, 1 ulp, or zero where FZRS is 1. -/
structure ApproxBounds (l : Lane) (a : Word) (sg : Nat) (v : ℚ) : Prop where
  rcp : |1 / v| ≤ f32Of 0x7F7FFFFF → f32Fin (frcpaBits l a) ∧
    (2 ^ (-126 : ℤ) ≤ |1 / v| → |f32Of (frcpaBits l a) * v - 1| ≤ 2 ^ (-23 : ℤ)) ∧
    (|1 / v| < 2 ^ (-126 : ℤ) → fzrs l = true → frcpaBits l a = sg) ∧
    (|1 / v| < 2 ^ (-126 : ℤ) → fzrs l = false → |f32Of (frcpaBits l a) - 1 / v| ≤ 2 ^ (-149 : ℤ))
  rsq : 0 < v → f32Fin (frsqaBits l a) ∧ 0 < f32Of (frsqaBits l a) ∧
    (1 - 2 ^ (-22 : ℤ)) ^ 2 ≤ f32Of (frsqaBits l a) ^ 2 * v ∧ f32Of (frsqaBits l a) ^ 2 * v ≤ (1 + 2 ^ (-22 : ℤ)) ^ 2
  exp2 : -149 ≤ v → v < 128 → f32Fin (fexp2Bits l a) ∧
    (-126 ≤ v → |((f32Of (fexp2Bits l a) : ℚ) : ℝ) - (2 : ℝ) ^ (v : ℝ)| ≤ 2 ^ (⌊v⌋ - 22) ∨
      (fzrs l = true ∧ fexp2Bits l a = 0 ∧ (2 : ℝ) ^ (v : ℝ) < 2 ^ (-126 : ℤ) * (1 + 2 ^ (-22 : ℤ)))) ∧
    (v < -126 → fzrs l = true → fexp2Bits l a = 0) ∧
    (v < -126 → fzrs l = false → |((f32Of (fexp2Bits l a) : ℚ) : ℝ) - (2 : ℝ) ^ (v : ℝ)| ≤ 2 ^ (-149 : ℤ))
  log2 : 0 < v → f32Fin (flog2Bits l a) ∧
    (1 / 2 ≤ v → v ≤ 2 → |((f32Of (flog2Bits l a) : ℚ) : ℝ) - Real.logb 2 v| ≤ 2 ^ (-22 : ℤ)) ∧
    (v < 1 / 2 ∨ 2 < v → ∀ e : ℤ, 2 ^ e ≤ |Real.logb 2 v| → |Real.logb 2 v| < 2 ^ (e + 1) →
      |((f32Of (flog2Bits l a) : ℚ) : ℝ) - Real.logb 2 v| ≤ 2 ^ (e - 22))

/-- The quotient of R99 on w-bit patterns: towards zero; all ones for a divisor of zero. -/
def quotient (t : ITy) (a b : Word) : Word :=
  onBits t (fun w x y => if y = 0 then BitVec.allOnes w else if t.signed then x.sdiv y else x / y) a b
/-- The remainder of R99: of the sign of the dividend; the dividend for a divisor of zero. -/
def remainder (t : ITy) (a b : Word) : Word :=
  onBits t (fun _ x y => if y = 0 then x else if t.signed then x.srem y else x % y) a b

/-- `div` and `rem`, with their results. -/
def divResult : Instr → Option (ITy × (Word → Word → Word))
  | .div _ t => some (t, quotient t)
  | .rem _ t => some (t, remainder t)
  | _ => none

/-- The opcode in the detail of DIVZERO (R99). -/
def divOpcode : Instr → Nat
  | .div _ _ => 0x15
  | _ => 0x16

/-- What a stack or constant instruction makes of the entries on chip, listed from the top (R92, R93). -/
def stackResult : Instr → Option (Lane → List Word → List Word)
  | .nop _ => some fun _ o => o
  | .lit _ v => some fun _ o => v.signExtend 64 :: o
  | .dup _ => some fun _ o => o.getD 0 0 :: o
  | .drop _ => some fun _ o => o.drop 1
  | .swap _ => some fun _ o => o.getD 1 0 :: o.getD 0 0 :: o.drop 2
  | .over _ => some fun _ o => o.getD 1 0 :: o
  | .rot _ => some fun _ o => o.getD 2 0 :: o.getD 0 0 :: o.getD 1 0 :: o.drop 3
  | .nip _ => some fun _ o => o.getD 0 0 :: o.drop 2
  | .tuck _ => some fun _ o => o.getD 0 0 :: o.getD 1 0 :: o.getD 0 0 :: o.drop 2
  | .pick _ n => some fun _ o => o.getD n.toNat 0 :: o
  | .dropn _ n => some fun _ o => o.drop n.toNat
  | .depth _ => some fun l o => BitVec.ofNat 64 l.depth :: o
  | .dup2 _ => some fun _ o => o.getD 0 0 :: o.getD 1 0 :: o
  | .swap2 _ => some fun _ o => o.getD 2 0 :: o.getD 3 0 :: o.getD 0 0 :: o.getD 1 0 :: o.drop 4
  | .litw _ v => some fun _ o => v.signExtend 64 :: o
  | .litx _ v => some fun _ o => v.signExtend 64 :: o
  | .lith _ v => some fun _ o => (v ++ (o.getD 0 0).setWidth 32 : BitVec (32 + 32)) :: o.drop 1
  | .litf _ v => some fun _ o => v.setWidth 64 :: o
  | _ => none

/-- A branch target is even and has bits 63:56 zero (R137). -/
def goodTarget (x : Word) : Prop := x.getLsbD 0 = false ∧ x.toNat < 2 ^ 56

/-- Where a branch, a call or a return goes: none is the next instruction (R136, R137, R139). -/
def branchTo : Instr → Option (Lane → List Word → Option Word)
  | .br _ off => some fun l _ => some (l.pc + off.signExtend 64 + off.signExtend 64)
  | .brz _ off => some fun l o => if o.getD 0 0 = 0 then some (l.pc + off.signExtend 64 + off.signExtend 64) else none
  | .brnz _ off => some fun l o => if o.getD 0 0 = 0 then none else some (l.pc + off.signExtend 64 + off.signExtend 64)
  | .call _ off => some fun l _ => some (l.pc + off.signExtend 64 + off.signExtend 64)
  | .brx _ => some fun _ o => some (o.getD 0 0)
  | .callx _ => some fun _ o => some (o.getD 0 0)
  | .ret _ => some fun l _ => l.cur.links.head?
  | _ => none

/-- The target that R137 checks, taken or not: a return has none. -/
def branchTarget : Instr → Lane → Option Word
  | .br _ off, l | .brz _ off, l | .brnz _ off, l | .call _ off, l => some (l.pc + off.signExtend 64 + off.signExtend 64)
  | .brx _, l => some (l.operand (.brx 0) 0)
  | .callx _, l => some (l.operand (.callx 0) 0)
  | _, _ => none
def isCall : Instr → Bool
  | .call _ _ | .callx _ => true
  | _ => false
def isRet : Instr → Bool
  | .ret _ => true
  | _ => false

/-- What a call or a return makes of the link chain: a call pushes the address after it (R137, R139). -/
def linksAfter : Instr → Lane → List Word
  | .call _ _, l => (l.pc + 4) :: l.cur.links
  | .callx _, l => (l.pc + 2) :: l.cur.links
  | .ret _, l => l.cur.links.tail
  | _, l => l.cur.links

-- Slots (R122 to R124).
/-- The slot that an instruction names. -/
def slotIndex : Instr → Lane → Option Nat
  | .ldl _ n, _ | .stl _ n, _ => some n.toNat
  | .ldlx w, l => some (l.operand (.ldlx w) 0).toNat
  | .stlx w, l => some (l.operand (.stlx w) 0).toNat
  | _, _ => none
def isSlotLoad : Instr → Bool
  | .ldl _ _ | .ldlx _ => true
  | _ => false
/-- The opcode in the detail of SLOT_RANGE (R123). -/
def slotOpcode : Instr → Nat
  | .ldl _ _ => 0x49
  | .stl _ _ => 0x4A
  | .ldlx _ => 0x4B
  | _ => 0x4C
/-- What a store takes: the top; or the entry below the index, which carries what the index depends on too (R291). -/
def slotValue : Instr → Lane → Entry
  | .stl w n, l => (l.ops (.stl w n)).getD 0 {}
  | i, l => { (l.ops i).getD 1 {} with deps := (((l.ops i).getD 1 {}).deps ++ ((l.ops i).getD 0 {}).deps).dedup }
/-- What lies in a slot after a store (R49, R291). -/
def storedEntry (s : State) (k : Nat) (l : Lane) (e : Entry) : Entry :=
  { val := e.val, ready := s.cycle (sliceOf k) + 2, src := l.pc.toNat, deps := e.deps }
/-- The values that slot n has held, before a store and with it, are among those that a premature read may give (R52), each with
the releases that it carries (R291). -/
def heldIn (n : Nat) (old new : Entry) (l : Lane) : Lane :=
  notePast (notePast l (2 * n + 1) old.val old.deps) (2 * n + 1) new.val new.deps

-- Special registers (R29, R127 to R130, R181, R322, R323, R337, R339, R340).
/-- Fields of a word, from bit 0 up: each with its width in bits. -/
def fields : List (Nat × Nat) → Nat
  | [] => 0
  | (n, w) :: r => n % 2 ^ w + 2 ^ w * fields r
/-- What a register holds for a lane of a task (R127, R128, R130, R131, R382). -/
def holds (s : State) (k : Nat) (l : Lane) (x : Task) (r : SReg) : Word :=
  let c := s.ctx x.space
  let f := s.vf (x.space / 16384)
  let spent := mgetD s.budget (x.space / 16384 * 96 + sliceOf k / 6) (0, 0, 0)
  match r with
  | .tstat => BitVec.ofNat 64 (fields [(l.ts.mode.code, 2), (l.ts.ilk.code, 2), (bit l.ts.prbm, 1), (bit l.ts.prb, 1),
      (bit l.ts.dz, 1), (0, 1), (bit l.ts.dzt, 1), (bit l.ts.cute, 1), (l.ts.tlvl, 62)])
  | .fctl => l.fctl
  | .tkstat => BitVec.ofNat 64 (fields [(bit x.sati, 1), (bit x.satf, 1), (bit x.arm, 1)])
  | .mpc => l.cur.mpc
  | .lane => BitVec.ofNat 64 (k % 32)
  | .thx => BitVec.ofNat 64 l.thx
  | .taskx => BitVec.ofNat 64 x.taskx
  | .role => BitVec.ofNat 64 ((x.roles.findIdx? (fun p => p.1 ≤ l.thx && l.thx < p.1 + p.2)).getD 0)
  | .argp => x.argp
  | .nth => BitVec.ofNat 64 x.nth
  | .nlb => BitVec.ofNat 64 (((s.wave (waveOf k)).map (·.nlb)).getD 0)
  | .cycle => BitVec.ofNat 64 (s.cycle (sliceOf k))
  | .ratio => BitVec.ofNat 64 (s.slice (sliceOf k)).ratio
  | .energy => BitVec.ofNat 64 x.energy
  | .draw => BitVec.ofNat 64 x.draw
  | .intv => BitVec.ofNat 64 (s.cluster (sliceOf k / 6)).intv
  | .copyB => BitVec.ofNat 64 (f.copyCap - spent.1)
  | .cellB => BitVec.ofNat 64 ((s.cluster (sliceOf k / 6)).cellCap -
      ((s.budget.filter (fun p => p.1 % 96 == sliceOf k / 6)).map (fun p => p.2.2.1)).sum)
  | .trapB => BitVec.ofNat 64 (f.trapCap - spent.2.2)
  | .tcode => BitVec.ofNat 64 x.tcode
  | .epc => l.epc
  | .estat => l.estat
  | .ecg => l.ecg
  | .edw0 => l.edw0
  | .edw1 => l.edw1
  | .edw2 => l.edw2
  | .efh => BitVec.ofNat 64 l.efh
  | .stvec => c.stvec
  | .ssbase => c.ssbase
  | .ptb => c.root
  | .asidx => BitVec.ofNat 64 (fields [(x.space % 16384, 14), (0, 3), (bit c.fmTrap, 1), (x.space / 16384, 62)])
  | .cutdl => BitVec.ofNat 64 c.cutdl
  | .htvec => f.htvec
  | .tdeleg => f.tdeleg
  | .hsbase => f.hsbase

/-- A thread's own registers, with the bits that can be written. -/
def threadReg : Instr → Option (Lane → Word → Lane)
  | .wsr _ .fctl => some fun l v => { l with fctl := v &&& 0x3F3#64 }
  | .wsr _ .epc => some fun l v => { l with epc := v }
  | .wsr _ .estat => some fun l v => { l with estat := v &&& 0x8FFF#64 }
  | .wsr _ .ecg => some fun l v => { l with ecg := v &&& 0x1F#64 }
  | .wsr _ .edw0 => some fun l v => { l with edw0 := v &&& 0xFFFFFFFF#64 }
  | .wsr _ .edw1 => some fun l v => { l with edw1 := v &&& 0xFFFFFFFF#64 }
  | .wsr _ .edw2 => some fun l v => { l with edw2 := v &&& 0xFFFFFFFF#64 }
  | .wsrTstat _ => some fun l v => { l with ts := { l.ts with
      cute := v.getLsbD 9, dzt := v.getLsbD 8, prbm := v.getLsbD 4
      dz := if v.getLsbD 6 then false else l.ts.dz, prb := if v.getLsbD 5 then false else l.ts.prb } }
  | _ => none

/-- Registers that a context shares. -/
def contextReg : Instr → Option (Ctx → Word → Ctx)
  | .wsr _ .stvec => some fun c v => { c with stvec := v &&& 0x00FFFFFFFFFFFFFE#64 }
  | .wsrSsbase _ => some fun c v => { c with ssbase := v &&& 0x000FFFFFFFFFF001#64 }
  | .wsrAsidx _ => some fun c v => { c with fmTrap := v.getLsbD 17 }
  | .wsrCutdl _ => some fun c v => { c with cutdl := v.toNat % 2 ^ 32 }
  | _ => none

/-- Registers of a virtual function. -/
def functionReg : Instr → Option (Vf → Word → Vf)
  | .wsr _ .htvec => some fun f v => { f with htvec := v &&& 0x00FFFFFFFFFFFFFE#64 }
  | .wsr _ .tdeleg => some fun f v => { f with tdeleg := v &&& 0x7F7FE#64 }
  | .wsr _ .hsbase => some fun f v => { f with hsbase := v &&& 0x000FFFFFFFFFF001#64 }
  | _ => none

/-- What a write changes beyond its thread: the context, the virtual function or the task (R130). -/
def sharedReg : Instr → Option (State → Nat → Word → State)
  | .wsrTkstat _ => some fun s k v => s.modTask (s.taskNo k) (fun t => { t with
      arm := v.getLsbD 2, satf := v.getLsbD 1, sati := v.getLsbD 0 })
  | i =>
    match contextReg i, functionReg i with
    | some f, _ => some fun s k v => s.modCtx (s.spaceOf k) (fun c => f c v)
    | _, some f => some fun s k v => s.modVf (s.spaceOf k / 16384) (fun x => f x v)
    | _, _ => none

-- Memory (R47, R150, R154 to R165).
/-- A load: its bytes, its offset, the scope of a strong load and whether it acquires, and what it pushes. -/
structure LoadForm where
  size : Nat
  off : BitVec 12
  strong : Option Scope
  acq : Bool
  push : Lane → List Byte → List Word
/-- Little-endian bytes as a word, sign-extended from 8 × n bits. -/
def signedWord (n : Nat) (b : List Byte) : Word := ((BitVec.ofNat 64 (leNat b)).setWidth (8 * n)).signExtend 64
def plainWord (b : List Byte) : Word := BitVec.ofNat 64 (leNat b)
def loadForm : Instr → Option LoadForm
  | .ld _ .s8 o => some ⟨1, o, none, false, fun _ b => [signedWord 1 b]⟩
  | .ld _ .n8 o => some ⟨1, o, none, false, fun _ b => [plainWord b]⟩
  | .ld _ .s16 o => some ⟨2, o, none, false, fun _ b => [signedWord 2 b]⟩
  | .ld _ .n16 o => some ⟨2, o, none, false, fun _ b => [plainWord b]⟩
  | .ld _ .s32 o => some ⟨4, o, none, false, fun _ b => [signedWord 4 b]⟩
  | .ld _ .n32 o => some ⟨4, o, none, false, fun _ b => [plainWord b]⟩
  | .ld _ .w64 o => some ⟨8, o, none, false, fun _ b => [plainWord b]⟩
  | .ld _ .h o => some ⟨2, o, none, false,
      fun l b => [BitVec.ofNat 64 (f32.out .rne (fzrs l) (f16.read (fzih l) (leNat b)).exact)]⟩
  | .ld2 _ o => some ⟨16, o, none, false, fun _ b => [plainWord (b.take 8), plainWord (b.drop 8)]⟩
  | .lds _ sc .s32 o => some ⟨4, o, some sc, false, fun _ b => [signedWord 4 b]⟩
  | .lds _ sc .n32 o => some ⟨4, o, some sc, false, fun _ b => [plainWord b]⟩
  | .lds _ sc .w64 o => some ⟨8, o, some sc, false, fun _ b => [plainWord b]⟩
  | .ldsAcq _ sc .s32 o => some ⟨4, o, some sc, true, fun _ b => [signedWord 4 b]⟩
  | .ldsAcq _ sc .n32 o => some ⟨4, o, some sc, true, fun _ b => [plainWord b]⟩
  | .ldsAcq _ sc .w64 o => some ⟨8, o, some sc, true, fun _ b => [plainWord b]⟩
  | _ => none

/-- The address of an access: the operand and the signed offset (R150). -/
def address (a : Word) (off : BitVec 12) : Word := a + off.signExtend 64
/-- Which writes a load cannot miss: those of its own wave (R155), and for a strong load that is satisfied at point m the strong
writes before it that its scope joins (R156). -/
def mustSee (s : State) (k : Nat) (strong : Option Scope) (m : Nat) (w : WriteRec) : Bool :=
  w.who / 32 == s.who k / 32 ||
  match strong with
  | some sc => strongTo sc (sliceOf k) w && w.id < m
  | none => false

/-- A store: the bytes that it stores, from its operands, its offset, and the scope of a strong store, with whether it
releases. -/
structure StoreForm where
  bytes : (Nat → Word) → List Byte
  off : BitVec 12
  strong : Option (Scope × Bool)
def atBytes (wt : AtW) (v : Word) : List Byte :=
  match wt with
  | .w32 => leBytes 4 v.toNat
  | .w64 => leBytes 8 v.toNat
def storeForm : Instr → Option StoreForm
  | .st _ .w8 o => some ⟨fun p => leBytes 1 (p 1).toNat, o, none⟩
  | .st _ .w16 o => some ⟨fun p => leBytes 2 (p 1).toNat, o, none⟩
  | .st _ .w32 o => some ⟨fun p => leBytes 4 (p 1).toNat, o, none⟩
  | .st _ .w64 o => some ⟨fun p => leBytes 8 (p 1).toNat, o, none⟩
  | .st2 _ o => some ⟨fun p => leBytes 8 (p 2).toNat ++ leBytes 8 (p 1).toNat, o, none⟩
  | .sts _ sc wt o => some ⟨fun p => atBytes wt (p 1), o, some (sc, false)⟩
  | .stsRel _ sc wt o => some ⟨fun p => atBytes wt (p 1), o, some (sc, true)⟩
  | _ => none

/-- What an atomic stores for an old value (R161), as an operation on bit vectors; `cmp` is the expected value of `cas`. -/
def atomicResult (op : AOp) (w : Nat) (old v cmp : BitVec w) : Option (BitVec w) :=
  match op with
  | .add => some (old + v)
  | .and => some (old &&& v)
  | .or => some (old ||| v)
  | .xor => some (old ^^^ v)
  | .minS => some (if v.slt old then v else old)
  | .maxS => some (if old.slt v then v else old)
  | .minN => some (if v.ult old then v else old)
  | .maxN => some (if old.ult v then v else old)
  | .xchg => some v
  | .fadd => some (BitVec.ofNat w (floatOp (addEx .rne) old.toNat v.toNat))
  | .fmin => some (BitVec.ofNat w (floatOp (minMax false false) old.toNat v.toNat))
  | .fmax => some (BitVec.ofNat w (floatOp (minMax true false) old.toNat v.toNat))
  | .cas => if cmp = old then some v else none

/-- An atomic: operation, ordering, scope, bytes, offset, and whether it drops the old value (R161, R163). -/
structure AtomForm where
  op : AOp
  ord : AOrd
  sc : Scope
  size : Nat
  off : BitVec 12
  red : Bool
def widthOf (wt : AtW) : Nat :=
  match wt with
  | .w32 => 4
  | .w64 => 8
def atomForm : Instr → Option AtomForm
  | .atomAdd _ o sc wt f => some ⟨.add, o, sc, widthOf wt, f, false⟩
  | .atomAnd _ o sc wt f => some ⟨.and, o, sc, widthOf wt, f, false⟩
  | .atomOr _ o sc wt f => some ⟨.or, o, sc, widthOf wt, f, false⟩
  | .atomXor _ o sc wt f => some ⟨.xor, o, sc, widthOf wt, f, false⟩
  | .atomMinS _ o sc wt f => some ⟨.minS, o, sc, widthOf wt, f, false⟩
  | .atomMinN _ o sc wt f => some ⟨.minN, o, sc, widthOf wt, f, false⟩
  | .atomMaxS _ o sc wt f => some ⟨.maxS, o, sc, widthOf wt, f, false⟩
  | .atomMaxN _ o sc wt f => some ⟨.maxN, o, sc, widthOf wt, f, false⟩
  | .atomXchg _ o sc wt f => some ⟨.xchg, o, sc, widthOf wt, f, false⟩
  | .atomFadd _ o sc f => some ⟨.fadd, o, sc, 4, f, false⟩
  | .atomFmin _ o sc f => some ⟨.fmin, o, sc, 4, f, false⟩
  | .atomFmax _ o sc f => some ⟨.fmax, o, sc, 4, f, false⟩
  | .cas _ o sc wt f => some ⟨.cas, o, sc, widthOf wt, f, false⟩
  | .redAdd _ o sc wt f => some ⟨.add, o, sc, widthOf wt, f, true⟩
  | .redAnd _ o sc wt f => some ⟨.and, o, sc, widthOf wt, f, true⟩
  | .redOr _ o sc wt f => some ⟨.or, o, sc, widthOf wt, f, true⟩
  | .redXor _ o sc wt f => some ⟨.xor, o, sc, widthOf wt, f, true⟩
  | .redMinS _ o sc wt f => some ⟨.minS, o, sc, widthOf wt, f, true⟩
  | .redMinN _ o sc wt f => some ⟨.minN, o, sc, widthOf wt, f, true⟩
  | .redMaxS _ o sc wt f => some ⟨.maxS, o, sc, widthOf wt, f, true⟩
  | .redMaxN _ o sc wt f => some ⟨.maxN, o, sc, widthOf wt, f, true⟩
  | .redFadd _ o sc f => some ⟨.fadd, o, sc, 4, f, true⟩
  | .redFmin _ o sc f => some ⟨.fmin, o, sc, 4, f, true⟩
  | .redFmax _ o sc f => some ⟨.fmax, o, sc, 4, f, true⟩
  | _ => none
def acquires (o : AOrd) : Bool := o == .acq || o == .ar
def releases (o : AOrd) : Bool := o == .rel || o == .ar
/-- Host memory performs FetchAdd, Swap and CAS, and at system scope only (R165). -/
def hostDoes (op : AOp) : Bool := op == .add || op == .xchg || op == .cas
def scopeAt (sc : Scope) (key : Nat) : Scope := if isHost key then .system else sc

/-- What an atomic leaves besides its lane's result and its watch, from the state after its read (R160 to R164): the new value is
a strong write at its scope, a release where the ordering says so; a `cas` that fails writes nothing and still
orders; an acquire is a boundary. -/
def afterAtomic (f : AtomForm) (k key : Nat) (new : Option Nat) (s : State) : State :=
  let sc := scopeAt f.sc key
  let s1 := match new with
    | some x => s.strongWrite k key (leBytes f.size x) sc (releases f.ord) (pointOf f.sc (sliceOf k) key)
    | none => if releases f.ord then s.release k sc else s
  if acquires f.ord then s1.boundary k sc else s1

-- Checks of a lane (R64, R89, R128, R347).
/-- The stack, arithmetic, branch and slot instructions, whose only checks before their own are those of R64. -/
def plain (i : Instr) : Bool :=
  (stackResult i).isSome || (intResult i).isSome || (floatResult i).isSome || (divResult i).isSome ||
  (branchTo i).isSome || isSlotLoad i || (slotIndex i {thx := 0, pc := 0}).isSome
/-- The instructions and registers that a mode may not use: the code and the register of PRIVILEGE. A register below
0x40 is open to all modes, one below 0xC0 to S and H (R128). -/
def forbidden (i : Instr) (m : Mode) : Option (Nat × Nat) :=
  let reg (r : SReg) : Option (Nat × Nat) :=
    if r.id < 0x40 ∨ m = .h ∨ (r.id < 0xC0 ∧ m = .s) then none else some (2, r.id)
  match i with
  | .sret _ | .tfld _ _ | .tfst _ _ | .tlbinvPage _ | .tlbinvSpace _ | .tlbinvSplit _ | .replay _ =>
    if m = .u then some (1, 0) else none
  | .hret _ | .tlbinvVf _ => if m = .h then none else some (1, 0)
  | .rowres _ _ | .suspend _ _ | .suspendk _ _ => if m = .u then none else some (1, 0)
  | .rsr _ r | .wsr _ r => reg r
  | .wsrEfh _ => reg .efh
  | .wsrSsbase _ => reg .ssbase
  | .wsrPtb _ => reg .ptb
  | .wsrAsidx _ => reg .asidx
  | .wsrCutdl _ => reg .cutdl
  | _ => none

-- Traps (R338, R344, R346).
/-- The mode that a trap goes to (R338). -/
def trapTarget (s : State) (k : Nat) (l : Lane) (c : Cause) : Mode :=
  if c.group = 11 ∨ (c.group = 15 ∧ c.w0.toNat % 256 = 3) ∨ l.ts.mode = .h then .h
  else if (s.vf (s.spaceOf k / 16384)).tdeleg.getLsbD c.group = true ∧ (s.ctx (s.spaceOf k)).ssbase.getLsbD 0 = true then .s
  else .h
/-- A target H has its handler (R348, R352). -/
def handlerOn (s : State) (k : Nat) (m : Mode) : Prop :=
  m = .h → (s.vf (s.spaceOf k / 16384)).hsbase.getLsbD 0 = true
/-- The vector of a mode (R337). -/
def vectorOf (s : State) (k : Nat) (m : Mode) : Word :=
  if m = .s then (s.ctx (s.spaceOf k)).stvec else (s.vf (s.spaceOf k / 16384)).htvec
/-- The upper part of the stack, which a trap entry saves: at most 8 entries, the lowest first (R343). -/
def saved (l : Lane) : List Entry := (l.stk.take (Nat.min 8 l.stk.length)).reverse
/-- An entry whose result is taken as arrived (R344). -/
def settled (e : Entry) : Entry := { e with pend := false, ready := 0 }
/-- Where the record of a level lies in the mode area that starts from a base (R341, R343). -/
def recordAt (base k lvl : Nat) : Nat := base + 4096 * k + (if lvl = 2 then 0xC00 else 0xC80)
/-- The base of the mode areas that the next trap takes (R340). -/
def nextBase (s : State) (k : Nat) (l : Lane) (c : Cause) : Nat := s.modeBase k (trapTarget s k l c)
/-- The base that the trap entry of the lane's handler took: the registers as they were then (R340). -/
def handlerBase (l : Lane) : Nat := l.bases.headD 0
/-- A lane after its trap (R344), but for its stacks and its frame. -/
def trapped (s : State) (k : Nat) (l : Lane) (c : Cause) : Lane :=
  { l with
    epc := l.pc
    estat := (BitVec.ofNat 64 l.ts.nat &&& 0xFFF#64) ||| (if c.asy then 0x8000#64 else 0#64)
    ecg := BitVec.ofNat 64 c.group
    edw0 := c.w0.setWidth 64
    edw1 := c.w1.setWidth 64
    edw2 := c.w2.setWidth 64
    efh := (saved l).length
    ts := { l.ts with mode := trapTarget s k l c, tlvl := l.ts.tlvl + 1, prbm := false }
    watch := none
    wait := .none
    integ := none
    passive := false
    qg := if l.passive then (s.ctx (s.spaceOf k)).gBegun else l.qg
    next := Nat.max l.next (Nat.max (s.readyAt k l) (s.cycle (sliceOf k)) + 1)
    bases := nextBase s k l c :: l.bases
    pc := vectorOf s k (trapTarget s k l c)
    hchip := []
    hg := 0 }
/-- A lane whose instruction has issued: the stall count of the instruction runs, whatever comes next (R48). -/
def counted (s : State) (i : Instr) (l : Lane) : Lane :=
  { l with next := Nat.max l.next (s.issueCycle + 1 + (if l.ilk = .lock then 0 else (shapeOf i).stall)) }
/-- The wave of a lane issues nothing in the next 4 cycles (R86, R344). -/
def stalled (s : State) (k : Nat) : State :=
  s.modWave (waveOf k) (fun v => { v with stall := Nat.max v.stall (s.cycle (sliceOf k) + 5) })
/-- The wave of a lane issues nothing for at least 4 cycles, d more than that (R86, R344). -/
def stalledFor (s : State) (k d : Nat) : State :=
  s.modWave (waveOf k) (fun v => { v with stall := Nat.max v.stall (s.cycle (sliceOf k) + 5 + d) })
/-- An entry or a return waits for the results of its lane; from then on the wave issues nothing for n cycles (R86, R344, R346). -/
def movesAt (s : State) (k : Nat) (l : Lane) (n : Nat) : State :=
  let at_ := Nat.max (s.readyAt k l) (s.cycle (sliceOf k))
  s.modWave (waveOf k) (fun v =>
    if at_ ≤ s.cycle (sliceOf k) then { v with stall := Nat.max v.stall (s.cycle (sliceOf k) + 1 + n) }
    else { v with pauses := v.pauses ++ [(at_ + 1, at_ + 1 + n)] })
/-- A trap entry from level 0 writes e entries of the frame in the trap reserve, and their parity is right (R343, R351). -/
def frameWritten (s : State) (k e : Nat) : State :=
  { s with parity := s.parity.filter (fun p => p.1 < 128 * k + 64 || 128 * k + 64 + e ≤ p.1) }
/-- What the entries of a frame depend on is kept with its record (R291). -/
def recordDeps (m : Map (List Nat)) (lvl : Nat) (fr : List Entry) : Map (List Nat) :=
  fr.zipIdx.foldl (fun m p => msetD m (recKey lvl p.2) p.1.deps []) m
/-- The words of a record at level 2 or 3 (R343): the frame from its lowest slot, then the state of the level below. -/
def recordWords (l : Lane) : List Word :=
  ((List.range 8).map (fun j => ((saved l).getD j {}).val)) ++
  [l.epc, l.estat, BitVec.ofNat 64 (l.ecg.toNat % 32 + l.efh * 2 ^ 8 + l.hg * 2 ^ 16),
   (l.edw0 &&& 0xFFFFFFFF#64) ||| (l.edw1 <<< 32), l.edw2 &&& 0xFFFFFFFF#64, 0, 0, 0]
/-- A word of memory. -/
def wordAt (s : State) (a : Nat) : Nat := leNat (peeks s.mem a 8)

/-- `syscall`, `hcall` and `brk`: their groups and codes (R351). -/
def callGroup : Instr → Option (Nat × Nat)
  | .syscall _ c => some (10, c.toNat)
  | .hcall _ c => some (11, c.toNat)
  | .brk _ => some (12, 0)
  | _ => none

/-- `sret` and `hret`; whether the return is that of S (R346). -/
def returnForm : Instr → Option Bool
  | .sret _ => some true
  | .hret _ => some false
  | _ => none
/-- The mode, PRBM, DZT and CUTE come back from `ESTAT` (R346). -/
def restoredStat (l : Lane) : TStat :=
  { l.ts with
    mode := if l.estat.toNat % 4 = 0 then .u else if l.estat.toNat % 4 = 1 then .s else .h
    tlvl := l.ts.tlvl - 1
    prbm := l.estat.getLsbD 4
    dzt := l.estat.getLsbD 8
    cute := l.estat.getLsbD 9 }
/-- A return that passes its checks (R346, R348): it does not raise the mode, `sret` does not go to H, the address is
good, and the stack that it uncovers, of depth `d`, has room for the frame. -/
structure MayReturn (l : Lane) (sret : Bool) (d : Nat) : Prop where
  mode : l.estat.toNat % 4 ≤ l.ts.mode.code
  notH : sret = true → l.estat.toNat % 4 ≠ 2
  target : goodTarget l.epc
  frame : l.efh ≤ 8
  depth : d + l.efh ≤ if l.estat.toNat % 4 = 0 then 1024 else 128


-- Engine commands (R150, R152, R217).
/-- E has read `b` at the address of an operand, as a plain load; `u` is the state after it. -/
def EngineReads (s : State) (k : Nat) (l : Lane) (e : Entry) (n : Nat) (b : List Byte) (u : State) : Prop :=
  ∃ key s1, s.access k l .read true e.val n = (.ok key, s1) ∧ keyExists key ∧
    b = (s1.laneRead k e.deps key n).1.bytes ∧ u = (s1.laneRead k e.deps key n).2
/-- A lane waits in its instruction (R134). -/
def holding (s : State) (i : Instr) (l : Lane) (w : Wait) : Lane :=
  { l with wait := w, during := some i, stamp := if l.wait = .none ∨ l.wait = .parked then s.nextId else l.stamp }
/-- A lane whose instruction has issued waits in it: its stall count runs from that issue (R48). -/
def issued (s : State) (i : Instr) (l : Lane) (w : Wait) : Lane :=
  { holding s i l w with next := s.issueCycle + 1 + (if l.ilk = .lock then 0 else (shapeOf i).stall) }

-- Tensors (R208 to R226).
/-- A place where a tensor fits (R213, R214): inside the reservation of its task, or in one accumulator buffer, and apart from
every other tensor of the task there. -/
def fitsAt (x : Task) (g : Geom) (a : Nat) : Prop :=
  (if g.kind = 2 then x.acc = true ∧ (a + g.span ≤ 32768 ∨ (32768 ≤ a ∧ a + g.span ≤ 65536))
    else x.scratch ≤ a ∧ a + g.span ≤ x.scratch + x.nscratch) ∧
  ∀ p, p ∈ x.tens → ((geomOf p.2).kind = 2 ↔ g.kind = 2) →
    a + g.span ≤ chipStart (geomOf p.2) ∨ chipStart (geomOf p.2) + (geomOf p.2).span ≤ a
/-- The lowest free tid of 128, from `lo` on. -/
def lowestFree (s : State) (tn lo tid : Nat) : Prop :=
  lo ≤ tid ∧ tid < lo + 128 ∧ s.entryOf tn tid = none ∧ ∀ n, lo ≤ n → n < tid → s.entryOf tn n ≠ none
/-- A descriptor as an entry: V is set. -/
def valid (d : List Word) : List Word := setWord d 0 (setBit (wordOf d 0) 63)
/-- Only the entry of one tid has changed. -/
def entryChanged (s u : State) (tn tid : Nat) (e : Option (List Word)) : Prop :=
  u.entryOf tn tid = e ∧ ∀ n, n ≠ tid → u.entryOf tn n = s.entryOf tn n
/-- A dense on-chip tensor whose element (row, col) has its storage at `key` (R209, R211). -/
structure ElementAt (s : State) (k tid row col : Nat) (g : Geom) (i key : Nat) : Prop where
  entry : ∃ en, s.entryOf (s.taskNo k) tid = some en ∧ g = geomOf en
  chip : g.kind = 1 ∨ g.kind = 2 ∨ g.kind = 3
  dense : g.sp = false
  colIn : col < g.ext 0
  rowIn : row < g.rows
  index : g.index [] (g.split row col) = some i
  place : key = chipKey g.kind (sliceOf k) (g.start + g.byteOf i)
/-- An operation joins the queue of the bank engines (R224). -/
def queued (s : State) (k tid : Nat) (kind : BankKind) : State :=
  { s.modTask (s.taskNo k) (fun x => { x with
      banks := x.banks ++ [{ id := s.nextId, tid := tid, kind := kind, slice := sliceOf k, who := s.who k }] }) with
    nextId := s.nextId + 1 }
/-- The operation of `tcol` on w-bit elements (R223). -/
def colResult (op : TColOp) (w : Nat) (old v : BitVec w) : BitVec w :=
  match op with
  | .set => v
  | .add => old + v
  | .and => old &&& v
  | .or => old ||| v
  | .max => if old.slt v then v else old

-- Copies (R227 to R237).
/-- The request that the fields and operands of a `cpy` describe. -/
def cpyRequest (l : Lane) (w : StallL) (fo : Bool) (stg : BitVec 2) (nb : Bool) (stid dtid : BitVec 8) : CopyReq :=
  { srow := (l.operand (.cpy w fo stg nb stid dtid) 4).toNat
    scol := (l.operand (.cpy w fo stg nb stid dtid) 3).toNat
    drow := (l.operand (.cpy w fo stg nb stid dtid) 2).toNat
    dcol := (l.operand (.cpy w fo stg nb stid dtid) 1).toNat
    ctr := (l.operand (.cpy w fo stg nb stid dtid) 0).toNat
    stid := stid.toNat, dtid := dtid.toNat, fo := fo, stg := stg.toNat, nb := nb }
/-- Where element (row, col) of a dense on-chip tensor lies, for the engine of a slice. -/
def elemKey (g : Geom) (slice row col : Nat) : Nat :=
  chipKey g.kind slice g.start + g.byteOf ((g.index [] (g.split row col)).getD 0)
/-- A copy that a thread's request describes, as it enters its slot: its tensors as they are now, its box, its counter, and
requests that have not been issued: one for each line of the destination in which its elements lie (R226, R227, R237). -/
structure Copying (s : State) (k : Nat) (q : CopyReq) (id : Nat) (c : Copy) : Prop where
  entries : s.entryOf (s.taskNo k) q.stid = some c.src ∧ s.entryOf (s.taskNo k) q.dtid = some c.dst
  is : c.id = id ∧ c.task = some (s.taskNo k) ∧ c.failed = none ∧ c.counted = 0
  box : (c.srow, c.scol, c.drow, c.dcol, c.ctr) = (q.srow, q.scol, q.drow, q.dcol, some q.ctr)
  tile : (c.rows, c.cols) = ((geomOf c.dst).trows, (geomOf c.dst).tcols)
  fresh : ∀ r, r ∈ c.reqs → r.issued = false ∧ r.done = false
  once : (c.reqs.map (fun r => (r.kind, r.line))).Nodup
  lines : (geomOf c.dst).sp = false → (geomOf c.dst).kind = 1 ∨ (geomOf c.dst).kind = 2 → ∀ i j, i < c.rows → j < c.cols →
    ∃ r, r ∈ c.reqs ∧ r.kind = .elem ∧ r.line = elemKey (geomOf c.dst) (sliceOf k) (c.drow + i) (c.dcol + j) / 64

-- Barriers (R243, R244).
/-- A barrier after one arrival. -/
def afterArrival (x : Barrier) : Barrier :=
  if x.n ≤ x.a + 1 then { x with a := 0, phase := x.phase + 1 } else { x with a := x.a + 1 }
/-- No lane waits at a barrier. -/
def noneWait (s : State) : Prop := ∀ p, p ∈ s.lanes → p.2.wait.barOf = none

-- Frames (R246 to R263).
/-- A lane of the task of `k` is thread `n` and waits at `mwait` (R168, R256). -/
def atMwaitOf (s : State) (k n : Nat) (p : Nat × Lane) : Prop :=
  s.taskNo p.1 = s.taskNo k ∧ p.2.thx = n ∧ p.2.atMwait = true
/-- Where an element of a row lies (R247). -/
def rowKey (slice : Nat) (e : List Word) (r j : Nat) : Nat := chipKey 3 slice ((geomOf e).base + 8 * (frK e * r + j))

-- Matrix commands (R271, R275).
/-- `mm` and `mms`: sparse or not, accumulating or not, gated or not, and the tag. -/
def mmForm : Instr → Option (Bool × Bool × Bool × Nat)
  | .mm _ acc fo tag => some (false, acc, fo, tag.toNat)
  | .mms _ acc fo tag => some (true, acc, fo, tag.toNat)
  | _ => none
/-- The operands of a command: A, B, C and the counter. -/
def mOperands (i : Instr) (l : Lane) : Nat × Nat × Nat × Nat :=
  ((l.operand i 3).toNat, (l.operand i 2).toNat, (l.operand i 1).toNat, (l.operand i 0).toNat)
/-- A command that its strand has described. -/
def describes (s : State) (i : Instr) (k : Nat) (l : Lane) (sparse acc : Bool) (tag : Nat) (a b : Geom) (c : MCmd) : Prop :=
  c.task = s.taskNo k ∧ c.thx = l.thx ∧ c.sparse = sparse ∧ c.acc = acc ∧ c.tag = tag ∧
  (c.ta, c.tb, c.tc, c.ctr) = mOperands i l ∧ c.fzim = l.fctl.getLsbD 8 ∧ c.fzrm = l.fctl.getLsbD 9 ∧
  c.running = false ∧ c.amount = a.ext 1 * b.ext 0 * 4

/-- The bitmap of a sparse operand (R211). -/
def bitmapAt (s : State) (slice : Nat) (g : Geom) : List Byte :=
  if g.sp then peeks s.mem (chipKey g.kind slice g.map) (g.sizes.getD 3 0) else []
/-- The zero point of the group of an element (R24, R25). -/
def zeroAt (s : State) (slice : Nat) (g : Geom) (n : Nat) : Nat :=
  if g.gsz = 0 then 0
  else if g.fmt = 2 then leNat (peeks s.mem (chipKey g.kind slice (g.zpt + n)) 1)
  else leNat (peeks s.mem (chipKey g.kind slice (g.zpt + n / 2)) 1) / 16 ^ (n % 2) % 16
/-- The factor that an element contributes (R35): its number, its float, or its code less the zero point; zero in an absent block. -/
def factorAt (s : State) (slice : Nat) (g : Geom) (fz : Bool) (row col : Nat) : Ex :=
  match g.index (bitmapAt s slice g) (g.split row col) with
  | none => .zero false
  | some i => elemEx g.fmt fz (g.take i (peeks s.mem (chipKey g.kind slice (g.start + g.byteOf i)) g.nbytes))
      (zeroAt s slice g (g.group (g.split row col)))
/-- The scale of the group of an element; 1 where the operand has none (R25, R35). -/
def scaleAt (s : State) (slice : Nat) (g : Geom) (row col : Nat) : Ex :=
  if g.gsz = 0 then intEx 1
  else (f16.dec (leNat (peeks s.mem (chipKey g.kind slice (g.scl + 2 * g.group (g.split row col))) 2))).exact
/-- An S32 sum, saturated (R35). -/
def sum32 (c x : Int) : Int := max (-2 ^ 31) (min (2 ^ 31 - 1) (c + x))
/-- What a command makes of one element of C that was `init` (R35, R36, R269). The K blocks that take part are added in order: the
eight products of a block are summed exactly; an S32 sum saturates, an F32 sum is rounded once for each block; in the
quantized mixes each group has its own F32 sum, which enters with its scale. -/
def cellResult (c : MCmd) (a b : Geom) (bm : List Byte) (fa fb scale : Nat → Ex) (col init : Nat) : Nat :=
  let kbs := (List.range (a.ext 0 / 8)).filter (fun kb => !(c.sparse && b.sp) || bitOf bm (b.block [8 * (col / 8), 8 * kb, 0, 0]))
  let gb := groupBlocks a b
  if a.fmt = 0 then
    (BitVec.ofInt 32 (kbs.foldl (fun v kb => sum32 v ((List.range 8).map (fun j =>
      exInt (fa (8 * kb + j)) * exInt (fb (8 * kb + j)))).sum) (signedOf 32 init))).toNat
  else if b.gsz = 0 then kbs.foldl (fun v kb => addF32 c.fzrm v (blockSum fa fb kb)) init
  else (List.range (ceilDiv (a.ext 0 / 8) gb)).foldl (fun v n =>
    addF32 c.fzrm v (mulEx (scale n) (f32.dec ((kbs.filter (fun kb => kb / gb == n)).foldl
      (fun g kb => addF32 c.fzrm g (blockSum fa fb kb)) 0)).exact)) init
/-- The value that a command gives element (i, j) of C, from memory as it stands (R269). -/
def cellAt (s : State) (slice : Nat) (c : MCmd) (a b g : Geom) (i j : Nat) : Nat :=
  cellResult c a b (bitmapAt s slice b) (fun k => factorAt s slice a c.fzim i k) (fun k => factorAt s slice b c.fzim k j)
    (fun n => mulEx (scaleAt s slice a i (8 * groupBlocks a b * n))
      (scaleAt s slice b (8 * groupBlocks a b * n / b.gsize * b.gsize) j)) j
    (if c.acc then leNat (peeks s.mem (cKey slice g i j) 4) else 0)
/-- No write to on-chip memory is still contested, and no line of it is poisoned or in error. -/
structure ChipSettled (s : State) : Prop where
  log : ∀ w, w ∈ s.log → w.addr + w.new.length ≤ 2 ^ 70
  sound : ∀ n, 2 ^ 64 ≤ n → mget s.poison n = none ∧ mget s.ecc n = none
/-- The elements of C's M × N part do not overlap (R213). -/
def cellsApart (slice : Nat) (a b g : Geom) : Prop :=
  ∀ i j i' j', i < a.ext 1 → j < b.ext 0 → i' < a.ext 1 → j' < b.ext 0 → (i, j) ≠ (i', j') →
    cKey slice g i j + 4 ≤ cKey slice g i' j' ∨ cKey slice g i' j' + 4 ≤ cKey slice g i j
/-- The head of a member's queue waits in the window of a command and can share its reads of B (R272). -/
def joins (s : State) (members : List Nat) (c : MCmd) (m : Nat) : Prop :=
  m ∈ members ∧ ∃ d q, (s.slice m).mq = d :: q ∧ d.windowed = true ∧ d.running = false ∧ d.ready = c.ready ∧ c.mate d = true
/-- The head of a queue has begun, with the heads of the slices of `p`. -/
def begunWith (s t : State) (m : Nat) (p : Nat → Prop) : Prop :=
  ∀ d q, (s.slice m).mq = d :: q → ∃ d', (t.slice m).mq = d' :: q ∧ d'.id = d.id ∧ d'.running = true ∧
    ∀ n, n ∈ d'.mates.map (·.1) ↔ p n

-- Invalidations (R331).
/-- The table entry that names the frame at a place of memory: this device's, the host's or another device's (R320, R332). -/
def tablePointer (key : Nat) : Nat :=
  if isHost key then key % 2 ^ 52 + 0x401
  else if isRemote key then key % 2 ^ 52 + (key - 2 ^ 60) / 2 ^ 52 * 2 ^ 56 + 0x801
  else key + 1
/-- What an invalidation names: the page of an address, the address space, or the virtual function. -/
def invalidates (s : State) (k : Nat) (l : Lane) : Instr → Option (TlbEnt → Prop)
  | .tlbinvPage w => some fun e => e.space = s.spaceOf k ∧ e.page ≤ (l.operand (.tlbinvPage w) 0).toNat / 65536 % 2 ^ 40 ∧
      (l.operand (.tlbinvPage w) 0).toNat / 65536 % 2 ^ 40 < e.page + e.npg
  | .tlbinvSpace _ => some fun e => e.space = s.spaceOf k
  | .tlbinvVf _ => some fun e => e.space / 16384 = s.spaceOf k / 16384
  | _ => none

-- Grace (R299 to R306).
/-- A lane after a quiescent point (R301). -/
def quiet (s : State) (k : Nat) (l : Lane) : Lane :=
  if l.ts.tlvl = 0 then
    { l with qg := (s.ctx (s.spaceOf k)).gBegun, view := boundaryView s.rels (sliceOf k) .device l.view, ord := s.nextId }
  else l

-- Packets (R359, R360).
/-- The packets: their slot and their TYPE; none stands for an invalid one. -/
def packetForm : Instr → Option (Nat × Option Nat)
  | .nopPacket q => some (q, some 0)
  | .launchPacket q => some (q, some 1)
  | .copyPacket q _ => some (q, some 2)
  | .signalPacket q => some (q, some 3)
  | .waitPacket q => some (q, some 4)
  | .quiescePacket q => some (q, some 6)
  | .invalidPacket q => some (q, none)
  | _ => none
/-- A byte of this device's memory lies in the window exported to another device, or, on the host port, to the host (R384, R385). -/
def exportedAt (link dev a : Nat) : Bool :=
  decide (a < hbmSize) && inRange (Config.deviceExports (if link = 18 then 192 else dev)) a 1
/-- Everything that the device has observed is published at system scope (R359, R360). -/
def published (s : State) : State := s.addRel noSlice .system (boundaryView s.rels noSlice .system [])
/-- A copy of 64-byte lines that a COPY packet describes: from SRC to DST, for the reel's address space (R359). -/
structure LineCopy (r : Reel) (ws : List Word) (c : Copy) : Prop where
  owner : (c.task, c.vf, c.asid, c.ctr) = (none, r.vf, r.asid, none)
  packet : c.packet = some (r.vf, r.rnum, r.head)
  box : (c.srow, c.scol, c.drow, c.dcol, c.rows, c.cols) = (0, 0, 0, 0, wordOf ws 3 / 64, 8)
  memory : (geomOf c.src).kind = 0 ∧ (geomOf c.dst).kind = 0
  bases : ((geomOf c.src).base, (geomOf c.dst).base) = (wordOf ws 1, wordOf ws 2)
  fresh : ∀ q, q ∈ c.reqs → q.issued = false ∧ q.done = false
/-- A packet that its queue slot may start: what it serves, the reel and the words. -/
structure Startable (s : State) (i : Instr) (q rk : Nat) (ty : Option Nat) (r : Reel) (ws : List Word) : Prop where
  form : packetForm i = some (q, ty)
  sound : s.bad = none
  serves : s.slotReel q = some (rk, r)
  reel : mget s.reels rk = some r
  packet : s.packetAt r = some ws
  kind : packetType ws = ty
  first : ty = none ∨ hasBarrier ws = false ∨ r.infl = []
  room : ∀ m, i = .copyPacket q m → (s.slice m).copies.length < 48

-- Cuts and waves.
/-- A wave of an address space is on the device, or its engines have something of it that completes first (R183). -/
def spaceLive (s : State) (sp : Nat) : Prop :=
  (∃ p x, p ∈ s.waves ∧ s.task p.2.task = some x ∧ x.space = sp) ∨ ∃ p, p ∈ s.slices ∧ s.engineBusy sp p.2 = true
/-- The waves that are saved with a wave: itself, and those of its gang (R196). -/
def savedTogether (s : State) (w : Nat) (v : Wave) (x : Task) (p : Nat × Wave) : Prop :=
  p = (w, v) ∨ (1 < x.members.length ∧ p ∈ s.waves ∧ p.2.task = v.task)
/-- A saved wave of a gang that fits where it was saved, in place `q` of its slice (R184, R196). -/
structure ComesBack (s : State) (x : Task) (tn : Nat) (q : Nat → Nat) (r : Saved) : Prop where
  mine : r.wave.task = tn
  member : x.members.contains r.slice = true
  place : q r.slice < 48 ∧ s.wave (placeKey r.slice (q r.slice)) = none
  room : 0 < s.placesFree r.slice ∧ r.wave.nlb + r.wave.sb ≤ s.blocksFree r.slice ∧ (s.slice r.slice).roomFor r = true
  lanes : r.lanes ≠ [] ∧ (r.lanes.map (·.1)).Nodup ∧ ∀ p, p ∈ r.lanes → p.1 < 32 ∧ p.2.wait.barOf = none
  areas : r.areas = []
/-- A wave that a cut has reached, whose results and requests are in, and whose threads have stopped or the deadline has
passed (R182, R183). -/
structure SaveReady (s : State) (sp w : Nat) (v : Wave) : Prop where
  reached : mget (s.ctx sp).arrived (w / 48) ≠ none
  drained : s.drained w v = true
  quiet : ∀ k, waveOf k = w → Quiet s k
  stopped : s.cutOver sp (w / 48) = true ∨ ∀ p, p ∈ s.waveLanes w → s.savePoint p.1 p.2 = true


end Sys2Proof.Claims

open Sys2Proof Sys2Proof.Machine Sys2Proof.Claims

/-- R48, R49, R92, R93: a stack or constant instruction completes in every lane of its strand, and leaves the stack of the table;
nothing else of the lanes but the PC and the cycle of the next issue, no other lane, no byte of memory and no register
changes. -/
def Obligations.StackInstructionsComplete : Prop :=
  ∀ (i : Instr) (f : Lane → List Word → List Word) (s : State), stackResult i = some f → ReadyStrand s i →
    ∃ t, exec i s = .next t ∧ Alike s t ∧ t.tasks = s.tasks ∧ OthersSame s t ∧
      ∀ k, k ∈ s.active → ∀ l, s.lane k = some l → ∃ l', t.lane k = some l' ∧
        l'.stk.map (·.val) = f l (l.stk.map (·.val)) ∧
        l'.back = l.back - ((shapeOf i).pops - l.stk.length) ∧
        l'.rest = { l.rest with
          pc := l.pc + BitVec.ofNat 64 (shapeOf i).len
          next := s.issueCycle + 1 + (if l.ilk = .lock then 0 else (shapeOf i).stall)
          wait := .none }

/-- R18, R97, R98, R100 to R102: an integer instruction completes in every lane, with the result that the bit-vector
operations of its type give; nothing else changes. -/
def Obligations.IntegerInstructionsComplete : Prop :=
  ∀ (i : Instr) (f : List Word → Word) (s : State), i.wf = true → intResult i = some f → ReadyStrand s i →
    ∃ t, exec i s = .next t ∧ Alike s t ∧ t.tasks = s.tasks ∧ OthersSame s t ∧
      EachDone s t i (fun _ l => l) (fun _ l => [(f ((l.ops i).map (·.val)), depsOf (l.ops i))]) (fun _ _ => none)

/-- R20 to R31, R98, R103 to R115: a float, conversion, quantization or saturating instruction completes in every lane with the
results of the table. Saturation flags are set by OR (R33): without a saturation the task is as before. What `frcpa`, `frsqa`,
`fexp2a` and `flog2a` push is, within the rows and bounds that SaturationSetsTaskFlags states, the model's opaque choice (DESIGN
CHOICE: log entry 15), and the sign of a zero that `dqnt` pushes is DEDUCED (log entry 54). -/
def Obligations.FloatInstructionsComplete : Prop :=
  ∀ (i : Instr) (f : Lane → List Word → Pure) (s : State), floatResult i = some f → ReadyStrand s i →
    ∃ t, exec i s = .next t ∧ Alike s t ∧ OthersSame s t ∧
      EachDone s t i (fun _ l => l)
        (fun _ l => (f l ((l.ops i).map (·.val))).push.map (fun v => (v, depsOf (l.ops i)))) (fun _ _ => none) ∧
      ((∀ k, k ∈ s.active → ∀ l, s.lane k = some l → (f l ((l.ops i).map (·.val))).flags = {}) → t.tasks = s.tasks)

/-- R33, R109, R110: one lane that saturates sets the flags of its task, and nothing else of it; and the values that the approximate functions
push for an operand, in any mode of `FCTL`, are those of the rows of R110 and lie within the bounds of R109, whatever the
opaque values are that the model chooses within them (DESIGN CHOICE: log entry 15). -/
def Obligations.SaturationSetsTaskFlags : Prop :=
  (∀ (l : Lane) (a : Word) (x sg m : Nat) (v : ℚ), x = f32In l a → sg = x / 2 ^ 31 * 2 ^ 31 → m = x % 2 ^ 31 → v = f32Of x →
    ApproxRows l a x sg m v ∧ (0 < m → m < 0x7F800000 → ApproxBounds l a sg v)) ∧
  ∀ (i : Instr) (f : Lane → List Word → Pure) (s : State) (k : Nat) (l : Lane), floatResult i = some f → Alone s i k l →
    ∃ t, exec i s = .next t ∧
      ∀ n, t.task n = if n = s.taskNo k then (s.task n).map (fun x => { x with
          sati := x.sati || (f l ((l.ops i).map (·.val))).flags.sati
          satf := x.satf || (f l ((l.ops i).map (·.val))).flags.satf }) else s.task n

/-- R99: `div` and `rem` complete in every lane, with quotient or remainder, as tracked results; a zero divisor sets DZ of the
thread. With DZT set it traps with ARITHMETIC DIVZERO instead: DZ stays set, the operands stay on the stack, and the detail
gives the type, the opcode and the dividend. -/
def Obligations.DivisionCompletes : Prop :=
  (∀ (i : Instr) (t : ITy) (f : Word → Word → Word) (s : State), divResult i = some (t, f) → ReadyStrand s i →
    (∀ k, k ∈ s.active → ∀ l, s.lane k = some l → ofType t (l.operand i 0) = 0 → l.ts.dzt = false) →
    ∃ u, exec i s = .next u ∧ Alike s u ∧ u.tasks = s.tasks ∧ OthersSame s u ∧
      EachDone s u i (fun _ l => l.flagged { dz := decide (ofType t (l.operand i 0) = 0) })
        (fun _ l => [(f (l.operand i 1) (l.operand i 0), depsOf (l.ops i))]) (fun _ _ => none)) ∧
  (∀ (i : Instr) (t : ITy) (f : Word → Word → Word) (s : State) (k : Nat) (l : Lane), divResult i = some (t, f) →
    Alone s i k l → ofType t (l.operand i 0) = 0 → l.ts.dzt = true →
    ∃ c, exec i s = finish ((s.modLane k (fun l => { l with ts := { l.ts with dz := true } })).takeTrap k i c).bump ∧
      c.group = 7 ∧ c.asy = false ∧ c.w0 = BitVec.ofNat 32 (t.code * 65536 + divOpcode i * 256 + 2) ∧
      c.w1 = (l.operand i 1).setWidth 32 ∧
      c.w2 = if t = .s64 ∨ t = .n64 then ((l.operand i 1) >>> 32).setWidth 32 else 0)

/-- R136, R137, R139: a branch, call or return whose target is even and below 2^56 completes in every lane: it goes to the target, or to
the next instruction where a condition does not hold; a call pushes its return address, for which there must be room,
and a return pops one. -/
def Obligations.BranchesComplete : Prop :=
  ∀ (i : Instr) (f : Lane → List Word → Option Word) (s : State), branchTo i = some f → ReadyStrand s i →
    (∀ k, k ∈ s.active → ∀ l, s.lane k = some l →
      (∀ x, branchTarget i l = some x → goodTarget x) ∧
      (isCall i → l.cur.links.length < 16) ∧ (isRet i → l.cur.links ≠ [])) →
    ∃ t, exec i s = .next t ∧ Alike s t ∧ t.tasks = s.tasks ∧ OthersSame s t ∧
      EachDone s t i (fun _ l => l.setCur { l.cur with links := linksAfter i l }) (fun _ _ => [])
        (fun _ l => f l ((l.ops i).map (·.val)))

/-- R122, R351: a load of a slot that the wave has pushes the slot's value, with what it and the index depend on (R291); a slot with a parity error that
persists traps with HARDWARE SOFT_ERROR, and its detail names the slot. -/
def Obligations.SlotLoadsComplete : Prop :=
  ∀ (i : Instr) (s : State) (k : Nat) (l : Lane) (n : Nat), isSlotLoad i = true → slotIndex i l = some n →
    Alone s i k l → n < 8 * s.nlb k →
    (mget s.parity (128 * k + n) = none → s.arrived k l (s.slot k n) →
      ∃ t, exec i s = .next t ∧ Completes s s t i k
        [((s.slot k n).val, ((s.slot k n).deps ++ ((l.ops i).getD 0 {}).deps).dedup)] none) ∧
    (mget s.parity (128 * k + n) ≠ none → ∃ c, exec i s = finish (s.takeTrap k i c).bump ∧ c.group = 15 ∧ c.w0 = 0x302 ∧
      c.w1 = BitVec.ofNat 32 n)

/-- R122, R49: a store to a slot that the wave has leaves its value there, ready two cycles after the store issues, and puts a
parity error of it right; no other slot changes. -/
def Obligations.SlotStoresComplete : Prop :=
  ∀ (i : Instr) (s : State) (k : Nat) (l : Lane) (n : Nat), isSlotLoad i = false → slotIndex i l = some n →
    Alone s i k l → n < 8 * s.nlb k →
    ∃ t, exec i s = .next t ∧
      Completes s ((({ s with parity := mdel s.parity (128 * k + n) } : State).modWave (waveOf k) (fun w => { w with
          slots := mset w.slots (32 * n + laneNo k) (storedEntry s k l (slotValue i l)) })).modLane
        k (heldIn n (s.slot k n) (slotValue i l))) t i k [] none ∧
      (t.slot k n).val = (slotValue i l).val ∧
      ∀ j m, (32 * m + laneNo j ≠ 32 * n + laneNo k ∨ waveOf j ≠ waveOf k) → t.slot j m = s.slot j m

/-- R123: a slot index at or above 8 × NLB traps with STORAGE SLOT_RANGE: the opcode, the index, saturated to 32 bits, and NLB. -/
def Obligations.SlotRangeTraps : Prop :=
  ∀ (i : Instr) (s : State) (k : Nat) (l : Lane) (n : Nat), slotIndex i l = some n → Alone s i k l → 8 * s.nlb k ≤ n →
    exec i s = finish (s.takeTrap k i (mkCause 2 (slotOpcode i * 256 + 4) (Nat.min n (2 ^ 32 - 1)) (s.nlb k))).bump

/-- R124: `give` moves the wave's k highest-numbered local blocks to the pool of its task on the slice. -/
def Obligations.GiveCompletes : Prop :=
  ∀ (w : StallS) (n : BitVec 4) (s : State) (e : Nat) (r : List Nat) (v : Wave), ReadyStrand s (.give w n) →
    s.active = e :: r → s.wave (waveOf e) = some v → n.toNat ≤ v.nlb →
    ∃ t, exec (.give w n) s = .next t ∧
      AllComplete s ((s.modSlice (waveOf e / 48) (fun x => { x with
          pools := mset x.pools v.task (s.poolOf v.task (waveOf e / 48) ++
            (List.range n.toNat).map (fun j => blockOf v (v.nlb - n.toNat + j))) })).setWave (waveOf e)
          { v with nlb := v.nlb - n.toNat, slots := v.slots.filter (fun p => p.1 / 256 < v.nlb - n.toNat)
                   was := v.was.filter (fun p => p.1 / 256 < v.nlb - n.toNat) }) t (.give w n) []

/-- R124, R125: a claim that the pool can satisfy, with no claim of its task waiting on the slice, is granted at once: NLB rises by
k, and the pool's first k blocks are the wave's. Nothing else changes. R124 leaves open which blocks a claim takes: that they are the
pool's first k is the model's choice (DEDUCED: log entry 27). -/
def Obligations.ClaimCompletes : Prop :=
  ∀ (w : StallS) (n : BitVec 4) (s : State) (e : Nat) (r : List Nat) (v : Wave), ReadyStrand s (.claim w n) →
    s.active = e :: r → s.wave (waveOf e) = some v → v.nlb + n.toNat ≤ 8 →
    claimsOf (s.taskLanesOn v.task (sliceOf e)) = [] → claimsOf (s.waveLanes (waveOf e)) = [] →
    n.toNat ≤ (s.poolOf v.task (sliceOf e)).length →
    ∃ u t, exec (.claim w n) s = .next t ∧ AllComplete s u t (.claim w n) [] ∧
      u = { s with waves := u.waves, slices := u.slices, free := u.free } ∧ u.lanes = s.lanes ∧
      u.poolOf v.task (sliceOf e) = (s.poolOf v.task (sliceOf e)).drop n.toNat ∧
      (∃ v', u.wave (waveOf e) = some v' ∧ v' = { v with nlb := v.nlb + n.toNat, slots := v'.slots, was := v'.was }) ∧
      ∀ x, x ≠ waveOf e → u.wave x = s.wave x

/-- R125: the oldest waiting claim of a task on a slice is granted whole when the pool can satisfy it: the NLB of its wave rises by
what it asked for, those blocks leave the pool, and its strand continues after it; no other wave, no other lane and
no memory changes. R124 leaves open which blocks these are: that they are the first of the pool is the model's choice
(DEDUCED: log entry 27). -/
def Obligations.ClaimGrantCompletes : Prop :=
  ∀ (slice task st n : Nat) (s : State), s.bad = none → oldest (claimsOf (s.taskLanesOn task slice)) = some (st, n) →
    n ≤ (s.poolOf task slice).length →
    ∃ t p, exec (.claimGrant slice task) s = .next t ∧ p ∈ s.taskLanesOn task slice ∧ p.2.stamp = st ∧ p.2.wait = .claim n ∧
      (∀ q, q ∈ s.taskLanesOn task slice → ∀ m, q.2.wait = .claim m → st ≤ q.2.stamp) ∧
      t = { s with lanes := t.lanes, waves := t.waves, slices := t.slices, free := t.free } ∧
      t.poolOf task slice = (s.poolOf task slice).drop n ∧
      (∀ v, s.wave (waveOf p.1) = some v →
        ∃ v', t.wave (waveOf p.1) = some v' ∧ v' = { v with nlb := v.nlb + n, slots := v'.slots, was := v'.was }) ∧
      (∀ w, w ≠ waveOf p.1 → t.wave w = s.wave w) ∧
      ∀ k, t.lane k = (s.lane k).map (fun l =>
        if waveOf k = waveOf p.1 ∧ l.stamp = st ∧ l.wait = .claim n then
          { l with wait := .none, pc := l.pc + 2, next := Nat.max l.next (s.cycle slice + 1) }
        else l)

/-- R127, R128: `rsr` pushes what the register holds in every lane, of the lane itself, its task, its context, its virtual function,
its slice or its cluster; nothing else changes. -/
def Obligations.RegisterReadsComplete : Prop :=
  ∀ (w : StallL) (r : SReg) (s : State), ReadyStrand s (.rsr w r) → (∀ k, k ∈ s.active → s.taskOf k ≠ none) →
    ∃ t, exec (.rsr w r) s = .next t ∧ Alike s t ∧ t.tasks = s.tasks ∧ OthersSame s t ∧
      EachDone s t (.rsr w r) (fun _ l => l)
        (fun k l => ((s.taskOf k).map (fun x => [(holds s k l x r, [])])).getD []) (fun _ _ => none)

/-- R29, R127 to R129, R339: a write to a register of the thread changes its writable bits, in every lane; nothing else
changes. -/
def Obligations.ThreadRegisterWritesComplete : Prop :=
  ∀ (i : Instr) (f : Lane → Word → Lane) (s : State), threadReg i = some f → ReadyStrand s i →
    ∃ t, exec i s = .next t ∧ Alike s t ∧ t.tasks = s.tasks ∧ OthersSame s t ∧
      EachDone s t i (fun _ l => f l (l.operand i 0)) (fun _ _ => []) (fun _ _ => none)

/-- R130, R181, R323, R337, R340: a write to a register that a task, a context or a virtual function shares; `SSBASE` with EN = 1 names mode areas
inside the grant. -/
def Obligations.SharedRegisterWritesComplete : Prop :=
  ∀ (i : Instr) (f : State → Nat → Word → State) (s : State) (k : Nat) (l : Lane), sharedReg i = some f → Alone s i k l →
    (∀ w, i = .wsrSsbase w → (l.operand i 0).getLsbD 0 = true →
      s.granted (s.spaceOf k / 16384) (baseAddr (l.operand i 0)) areaBytes = true) →
    ∃ t, exec i s = .next t ∧ Completes s (f s k (l.operand i 0)) t i k [] none

/-- R128, R339, R349: a write to `EFH` stores at most 8; each slot that it adds to the frame of level 1 holds what it held earlier,
or zero, and no other slot changes. That a value whose bits 3:0 are below 8 is stored by those bits alone, whatever stands above
them, is the model's choice (DEDUCED: log entry 44). -/
def Obligations.FrameHeightWriteCompletes : Prop :=
  ∀ (w : StallL) (s : State) (k : Nat) (l : Lane), Alone s (.wsrEfh w) k l → l.ts.tlvl ≤ 1 →
    ∃ fr n p t, n = Nat.min 8 ((l.operand (.wsrEfh w) 0).toNat % 16) ∧ exec (.wsrEfh w) s = .next t ∧
      Completes s (({ s with parity := p } : State).modLane k (fun x => { x with frame := fr, efh := n })) t (.wsrEfh w) k []
        none ∧
      (∀ q, (∀ j, l.efh ≤ j → j < n → q ≠ 128 * k + 64 + j) → mget p q = mget s.parity q) ∧
      ∀ j, fr.getD j {} = l.frame.getD j {} ∨ (l.efh ≤ j ∧ j < n ∧ fr.getD j {} = {})

/-- R322: a new root takes effect with an invalidation of the address space: no TLB of the device keeps an entry of it. -/
def Obligations.RootWriteCompletes : Prop :=
  ∀ (w : StallL) (s : State) (k : Nat) (l : Lane), Alone s (.wsrPtb w) k l → Quiet s k →
    ∃ u t, exec (.wsrPtb w) s = .next t ∧ Completes s u t (.wsrPtb w) k [] none ∧
      u = { s with ctxs := u.ctxs, rels := u.rels, nextId := s.nextId + 1
                   slices := u.slices, sectors := u.sectors, dieTlbs := u.dieTlbs } ∧
      u.ctx (s.spaceOf k) = { s.ctx (s.spaceOf k) with root := l.operand (.wsrPtb w) 0 &&& 0x000FFFFFFFFE0000#64 } ∧
      (∀ p, p ∈ u.slices → ∀ e, e ∈ p.2.tlb → e.space ≠ s.spaceOf k) ∧
      (∀ p, p ∈ u.sectors → ∀ e, e ∈ p.2.tlb → e.space ≠ s.spaceOf k) ∧
      (∀ p, p ∈ u.dieTlbs → ∀ e, e ∈ p.2 → e.space ≠ s.spaceOf k)

/-- R136, R140: a `meet` opens a group, which is new, and pushes the thread's meeting state; the meeting address is the target, and D0 is the
thread's depth. -/
def Obligations.MeetCompletes : Prop :=
  ∀ (w : StallL) (off : BitVec 18) (s : State) (k : Nat) (l : Lane), Alone s (.meet w off) k l →
    goodTarget (l.pc + off.signExtend 64 + off.signExtend 64) →
    (s.openGroups (waveOf k) l.ts.mode).length < 16 → l.cur.outer.length < 16 →
    ∃ t, exec (.meet w off) s = .next t ∧
      Completes s (s.modLane k (fun x => x.setCur { x.cur with
        outer := { mpc := l.cur.mpc, d0 := l.cur.d0, group := l.cur.group, rel := l.cur.rel } :: l.cur.outer
        mpc := l.pc + off.signExtend 64 + off.signExtend 64
        d0 := l.depth
        group := some s.nextId
        rel := false })) t (.meet w off) k [] none

/-- R142: a `join` at the thread's meeting address, at depth D0 + d, pops its meeting chain. -/
def Obligations.JoinCompletes : Prop :=
  ∀ (w : StallS) (d : BitVec 6) (s : State) (k : Nat) (l : Lane), Joining s (.join w d) k l → l.cur.mpc = l.pc →
    (l.depth : Int) = l.cur.d0 + d.toInt →
    ∃ t, exec (.join w d) s = .next t ∧
      Completes s (s.modLane k (fun x => x.setCur
        (match l.cur.outer with
        | [] => { links := l.cur.links }
        | e :: r => { links := l.cur.links, mpc := e.mpc, d0 := e.d0, group := e.group, rel := e.rel, outer := r })))
        t (.join w d) k [] none

/-- R142 to R144: a `join` elsewhere traps with MEETING JOIN_MISMATCH; one at another depth traps with STORAGE UNEQUAL_DEPTH, and the
thread is gone from its group. -/
def Obligations.JoinTraps : Prop :=
  ∀ (w : StallS) (d : BitVec 6) (s : State) (k : Nat) (l : Lane), Joining s (.join w d) k l →
    (l.cur.mpc ≠ l.pc → ∃ c, exec (.join w d) s = finish (s.takeTrap k (.join w d) c).bump ∧ c.group = 3 ∧ c.w0 = 1 ∧
      c.w1 = l.cur.mpc.setWidth 32 ∧ c.w2 = (l.cur.mpc >>> 32).setWidth 32) ∧
    (l.cur.mpc = l.pc → (l.depth : Int) ≠ l.cur.d0 + d.toInt → ∃ c,
      exec (.join w d) s = finish ((s.modLane k (fun x => x.setCur { x.cur with group := none, rel := false })).takeTrap k (.join w d) c).bump ∧
      c.group = 2 ∧ c.w0.toNat % 256 = 3 ∧ c.w0.toNat / 256 = (d.signExtend 8).toNat ∧ c.w1 = BitVec.ofNat 32 l.depth ∧
      c.w2 = BitVec.ofNat 32 (((l.cur.d0 : Int) + d.toInt).emod 65536).toNat)

/-- R145, R205: `exit` ends the thread after a release at device scope; the last one ends its wave, and the local blocks that the wave
has go to the pool of its task on the slice. -/
def Obligations.ExitCompletes : Prop :=
  ∀ (w : StallS) (s : State) (k : Nat) (l : Lane), Alone s (.exit w) k l →
    ∃ t, exec (.exit w) s = .next t ∧ t.lane k = none ∧ t.mem = (s.release k .device).mem ∧
      (∀ j, j ≠ k → t.lane j = (s.release k .device).lane j) ∧
      ((∃ j m, j ≠ k ∧ waveOf j = waveOf k ∧ s.lane j = some m) → t.wave (waveOf k) = s.wave (waveOf k)) ∧
      ((∀ j, j ≠ k → waveOf j = waveOf k → s.lane j = none) → t.wave (waveOf k) = none ∧
        ∀ v, s.wave (waveOf k) = some v →
          t.poolOf v.task (sliceOf k) = s.poolOf v.task (sliceOf k) ++ (List.range v.nlb).map (blockOf v))

/-- R178, R224, R301: `yield` is a quiescent point, and completes where no cut has reached the slice; where one has, the lane
stops after it. That the thread's bank operations complete before the quiescent point is the model's reading, and no rule
(DEDUCED: log entry 36). -/
def Obligations.YieldCompletes : Prop :=
  ∀ (w : StallS) (s : State) (k : Nat) (l : Lane), Alone s (.yield w) k l →
    ∃ t, exec (.yield w) s = .next t ∧
      (s.cutHere k = false → Completes s (s.quiesce k) t (.yield w) k [] none) ∧
      (s.cutHere k = true → ∃ x, t.lane k = some x ∧ x.wait = .stopped ∧ x.pc = l.pc + 2) ∧
      (l.ts.tlvl = 0 → ∀ x, t.task (s.taskNo k) = some x → ∀ b, b ∈ x.banks → b.who ≠ s.who k)

/-- R177: `prio` sets the own class of the wave, once for its strand; in U mode the slate's field is the ceiling. -/
def Obligations.PrioCompletes : Prop :=
  ∀ (w : StallS) (n : BitVec 2) (s : State) (e : Nat) (r : List Nat) (l : Lane) (x : Task),
    ReadyStrand s (.prio w n) → s.active = e :: r → s.lane e = some l → s.taskOf e = some x →
    ∃ t, exec (.prio w n) s = .next t ∧
      AllComplete s (s.modWave (waveOf e) (fun v => { v with
        cls := if l.ts.mode = .u then Nat.min n.toNat x.prio else n.toNat })) t (.prio w n) []

/-- R154 to R156, R166, R285, R288: a load whose access is allowed pushes what its bytes say, remembers the writes that it has read, and
arms the watch on its line; an acquire is a boundary at its scope. It stores nothing. -/
def Obligations.LoadsComplete : Prop :=
  ∀ (i : Instr) (f : LoadForm) (s s1 : State) (k key : Nat) (l : Lane), loadForm i = some f → Alone s i k l →
    s.access k l .read true (address (l.operand i 0) f.off) f.size = (.ok key, s1) → keyExists key →
    ∃ n m p v u t0 t, (m = s.nextId ∨ l.ord ≤ m) ∧
      v = (({ s1 with free := n } : State).laneReadAt k ((l.ops i).getD 0 {}).deps [] (mustSee s k f.strong m) key f.size).1 ∧
      p = (if f.strong.isNone then s.nextId else (v.ids.map (· + 1)).foldl Nat.max m) ∧ exec i s = .next t ∧ Ported s t0 t ∧
      Completes s u t0 i k ((f.push l v.bytes).map (fun x => (x, (v.rels ++ ((l.ops i).getD 0 {}).deps).dedup))) none ∧
      u = { s1 with lanes := u.lanes, free := u.free } ∧ (∀ j, j ≠ k → u.lane j = s.lane j) ∧
      u.lane k = some (match f.strong, f.acq with
        | some sc, true => { l with
            seen := seenUpdate key v.ids l.seen, watch := some (lineOf key, p)
            view := boundaryView (s.rels.filter (fun r => r.id < p)) (sliceOf k) sc l.view, ord := p }
        | _, _ => { l with seen := seenUpdate key v.ids l.seen, watch := some (lineOf key, p) }) ∧
      (∀ a, t.byte a = s.byte a) ∧ (Uncontested s key f.size → v.bytes = peeks s.mem key f.size)

/-- R154, R156, R285, R286: a store whose access is allowed leaves its bytes at its address, little-endian, and no other byte changes;
it pushes nothing. -/
def Obligations.StoresComplete : Prop :=
  ∀ (i : Instr) (f : StoreForm) (s s1 : State) (k key : Nat) (l : Lane) (bs : List Byte), storeForm i = some f →
    Alone s i k l → Quiet s k → bs = f.bytes (l.operand i) →
    s.access k l .write true (address (l.operand i 0) f.off) bs.length = (.ok key, s1) → keyExists key →
    ∃ t0 t, exec i s = .next t ∧ Ported s t0 t ∧
      Completes s (match f.strong with
        | none => s1.laneWrite k key bs none none 0
        | some (sc, rel) => s1.strongWrite k key bs sc rel 0) t0 i k [] none ∧
      peeks t.mem key bs.length = bs ∧ (∀ a, a < key ∨ key + bs.length ≤ a → t.byte a = s.byte a) ∧
      (∀ j, j ≠ k → t.lane j = s.lane j) ∧ t.tasks = s.tasks ∧ t.waves = s.waves

/-- R160 to R165: an atomic whose access is allowed reads the old value, and stores the value that its operation gives at once with
it; `atom` and `cas` push the old value and arm the watch, `red` does neither. -/
def Obligations.AtomicsComplete : Prop :=
  ∀ (i : Instr) (f : AtomForm) (s s1 : State) (k key : Nat) (l : Lane), atomForm i = some f → Alone s i k l →
    Quiet s k → s.access k l .atomic (hostDoes f.op) (address (l.operand i 0) f.off) f.size = (.ok key, s1) →
    keyExists key →
    ∃ v r new u t0 t, (v, r) = s1.laneReadAt k ((l.ops i).getD 0 {}).deps []
        (fun w => w.point == pointOf f.sc (sliceOf k) key) key f.size ∧
      new = (atomicResult f.op (8 * f.size) (BitVec.ofNat _ (leNat v.bytes)) ((l.operand i 1).setWidth _)
        ((l.operand i 2).setWidth _)).map (·.toNat) ∧
      u = (if f.red then afterAtomic f k key new r else (afterAtomic f k key new r).setWatch k key) ∧
      exec i s = .next t ∧ Ported s t0 t ∧
      Completes s u t0 i k
        (if f.red then [] else [(BitVec.ofNat 64 (leNat v.bytes), (v.rels ++ ((l.ops i).getD 0 {}).deps).dedup)]) none ∧
      (∀ a, a < key ∨ key + f.size ≤ a → t.byte a = s.byte a) ∧
      peeks t.mem key f.size = (match new with
        | some x => leBytes f.size x
        | none => peeks s.mem key f.size)

/-- R148, R152, R165, R324, R385: an access that a rule forbids traps the lane with that cause; one that parks leaves the lane waiting
at its instruction; a store that no link can carry is discarded. None stores anything. All hold the port of the slice but one
that traps with ALIGNMENT, which has made no request: that is the model's reading (DEDUCED: log entry 57). -/
def Obligations.AccessesTrapOrPark : Prop :=
  ∀ (i : Instr) (kind : AccKind) (hostOk : Bool) (off : BitVec 12) (size : Nat) (s s1 : State) (k : Nat) (l : Lane),
    ((∃ f, loadForm i = some f ∧ kind = .read ∧ hostOk = true ∧ off = f.off ∧ size = f.size) ∨
     (∃ f, storeForm i = some f ∧ kind = .write ∧ hostOk = true ∧ off = f.off ∧ size = (f.bytes (l.operand i)).length) ∨
     (∃ f, atomForm i = some f ∧ kind = .atomic ∧ hostOk = hostDoes f.op ∧ off = f.off ∧ size = f.size)) →
    Alone s i k l →
    (∀ c, s.access k l kind hostOk (address (l.operand i 0) off) size = (.trap c, s1) →
      exec i s = finish ((s1.takeTrap k i c).bump.modSlice s.iss.slice (fun x => { x with
        lsu := takePort (x.lsu.filter (x.cycle ≤ ·)) s.issueCycle (if c.group = 6 then 0 else 1) }))) ∧
    (s.access k l kind hostOk (address (l.operand i 0) off) size = (.park, s1) →
      ∃ t0 t, exec i s = .next t ∧ Ported s t0 t ∧ (∀ a, t.byte a = s.byte a) ∧
        t.lane k = some { l with wait := .parked, during := none, stamp := if l.wait = .none ∨ l.wait = .parked then s.nextId else l.stamp }) ∧
    (s.access k l kind hostOk (address (l.operand i 0) off) size = (.noLink, s1) →
      ∃ t0 t, exec i s = .next t ∧ Ported s t0 t ∧ Completes s s1 t0 i k [] none)

/-- R285, R288: a read returns, of each byte, a write that is no older than any write that the reader must respect. -/
def Obligations.ReadsRespectTheView : Prop :=
  ∀ (s : State) (floor : Map Nat) (must : WriteRec → Bool) (a n j : Nat) (w : WriteRec) (pre post : List WriteRec), j < n →
    s.log = pre ++ w :: post → w.covers (a + j) = true → (must w = true ∨ w.id ≤ mgetD floor (a + j) 0) →
    ∃ x, x ∈ pre ++ [w] ∧ x.covers (a + j) = true ∧
      (s.readVer floor must a n).1.ids[j]? = some x.id ∧
      (s.readVer floor must a n).1.bytes[j]? = some (x.new.getD (a + j - x.addr) 0)

/-- R157, R286, R287, R300: a `phase` publishes and then opens, `phase.p` publishes, `phase.o` opens; at device and system scope `phase` is a
quiescent point. -/
def Obligations.PhasesComplete : Prop :=
  ∀ (w : StallL) (sc : Scope) (s : State) (k : Nat) (l : Lane),
    (Alone s (.phase w sc) k l → Quiet s k → ∃ t, exec (.phase w sc) s = .next t ∧
      Completes s (if sc = .device ∨ sc = .system
        then ((s.addRel (sliceOf k) sc l.view).boundary k sc).quiesce k
        else (s.addRel (sliceOf k) sc l.view).boundary k sc) t (.phase w sc) k [] none) ∧
    (Alone s (.phaseP w sc) k l → Quiet s k → ∃ t, exec (.phaseP w sc) s = .next t ∧
      Completes s (s.addRel (sliceOf k) sc l.view) t (.phaseP w sc) k [] none) ∧
    (Alone s (.phaseO w sc) k l → ∃ t, exec (.phaseO w sc) s = .next t ∧
      Completes s (s.modLane k (fun x => { x with view := boundaryView s.rels (sliceOf k) sc l.view, ord := s.nextId }))
        t (.phaseO w sc) k [] none)

/-- R158, R159: `icinv` makes later fetches of the address space within its scope respect what is published there: a fetch that an
`icinv` before it covers reads, of each byte, a write no older than one that the `icinv` observed. `pref` changes nothing
but its lane. -/
def Obligations.CacheInstructionsComplete : Prop :=
  ∀ (w : StallL) (sc : Scope) (lvl : PLvl) (off : BitVec 12) (s : State) (k : Nat) (l : Lane),
    (Alone s (.icinv w sc) k l → ∃ t, exec (.icinv w sc) s = .next t ∧
      Completes s { s with icinvs := ⟨sliceOf k, sc, s.spaceOf k, boundaryView s.rels (sliceOf k) sc []⟩ :: s.icinvs }
        t (.icinv w sc) k [] none) ∧
    (∀ r va key s1 x pre post j, r ∈ s.icinvs → r.space = s.spaceOf k → scopeJoins r.scope r.slice (sliceOf k) = true →
      s.translate (s.spaceOf k) (sliceOf k) (l.ts.mode == .h) (l.ts.mode == .u) .fetch (va % 2 ^ 56) = (.ok key, s1) →
      s.isPoison key 2 = false → s.isEcc key 2 = false → j < 2 → s.log = pre ++ x :: post → x.covers (key + j) = true →
      x.id ≤ mgetD r.view (key + j) 0 →
      ∃ bs t y, s.fetchHalf k l va = (.half bs, t) ∧ y ∈ pre ++ [x] ∧ y.covers (key + j) = true ∧
        bs[j]? = some (y.new.getD (key + j - y.addr) 0)) ∧
    (Alone s (.pref w lvl off) k l → ∃ t0 t, exec (.pref w lvl off) s = .next t ∧ Ported s t0 t ∧
      Completes s s t0 (.pref w lvl off) k [] none)

/-- R166 to R168, R180: `mwait` on the line of its watch, not written since, waits after the instruction; without such a watch, or with
a cut pending at the slice, it completes at once. A waiting lane wakes when its line is written or a cut has reached its slice, or spuriously. -/
def Obligations.MwaitCompletes : Prop :=
  ∀ (s : State), s.bad = none →
    (∀ (w : StallS) (s1 : State) (k key : Nat) (l : Lane), Alone s (.mwait w) k l →
      s.reach k l .read true (l.operand (.mwait w) 0) 1 = (.ok key, s1) →
      ∃ t0 t, exec (.mwait w) s = .next t ∧ Ported s t0 t ∧
        ((∀ n, l.watch = some (lineOf key, n) → s.lineWritten k (lineOf key) n = true ∨ s.cutHere k = true) →
          Completes s s1 t0 (.mwait w) k [] none) ∧
        (∀ n, l.watch = some (lineOf key, n) → s.lineWritten k (lineOf key) n = false → s.cutHere k = false →
          ∃ x, t.lane k = some x ∧ x.wait = .mwait (lineOf key) n ∧ x.pc = l.pc + 2 ∧ x.stk = l.stk.drop 1)) ∧
    (∀ (id : LaneId) (why : WakeWhy) (l : Lane) (line n : Nat), s.lane (laneIdKey id) = some l →
      l.wait = .mwait line n →
      (why = .spurious ∨ (why = .write ∧ s.lineWritten (laneIdKey id) line n = true) ∨
        (why = .cut ∧ s.cutHere (laneIdKey id) = true)) →
      exec (.mwaitWake id why) s = .next (s.setLane (laneIdKey id) { l with wait := .none }))

/-- R50: the arrival of a tracked result sets the presence bit of its entry, from the slice's present cycle on; no other entry
changes. -/
def Obligations.ArrivalCompletes : Prop :=
  ∀ (id : LaneId) (s : State) (l : Lane) (j : Nat) (e : Entry), s.lane (laneIdKey id) = some l → l.stk[j]? = some e →
    e.pend = true →
    exec (.trackedResultArrival id (l.depth - 1 - j)) s = .next (s.setLane (laneIdKey id)
      (l.setStk (l.stk.set j { e with pend := false, ready := s.cycle (sliceOf (laneIdKey id)) }) l.back))

/-- R84: a refill brings the entries with the highest bottom indices, at most 4, back from backing store, below those on
chip. -/
def Obligations.RefillCompletes : Prop :=
  ∀ (slice place k : Nat) (s : State) (l : Lane), s.bad = none → s.waveLanes (placeKey slice place) = [(k, l)] →
    s.lane k = some l → waveOf k = placeKey slice place → l.stk.length < 4 → 0 < l.back → l.integ = none →
    (∀ j, j < l.back → l.back ≤ j + 4 → keyExists (s.backKey k l j) ∧ s.backCause k l j = none ∧ Uncontested s (s.backKey k l j) 8) →
    ∃ t x, exec (.refill slice place) s = .next t ∧ t.lane k = some x ∧
      x.stk = l.stk ++ (List.range (Nat.min 4 l.back)).map (fun j =>
        { val := BitVec.ofNat 64 (leNat (peeks s.mem (s.backKey k l (l.back - 1 - j)) 8))
          deps := mgetD l.under (l.posKey (l.back - 1 - j)) [] }) ∧
      x.back = l.back - Nat.min 4 l.back ∧ x.pc = l.pc ∧ t.mem = s.mem

/-- R61, R62: an unassigned encoding traps with ILLEGAL in a thread without probe mode; with it, the thread sets PRB and goes
on after it. -/
def Obligations.UnassignedEncodingsCompleteOrTrap : Prop :=
  ∀ (e : Enc) (s : State) (k : Nat) (l : Lane), Alone s (.unassignedEncoding e) k l →
    (l.ts.prbm = true → ∃ t, exec (.unassignedEncoding e) s = .next t ∧
      Completes s (s.modLane k (fun x => { x with ts := { x.ts with prb := true } })) t (.unassignedEncoding e) k [] none) ∧
    (l.ts.prbm = false → ∃ c, exec (.unassignedEncoding e) s = finish (s.takeTrap k (.unassignedEncoding e) c).bump ∧ c.group = 1 ∧
      c.w0 = BitVec.ofNat 32 (Enc.nat e) ∧ c.w1.toNat / 65536 = e.len ∧
      (e.len = 3 → c.w1.toNat % 65536 = Enc.nat e / 2 ^ 32))


/-- R81, R83, R85, R92: below the entries on chip the stack goes on in backing store: `bury` writes it there, `pick` reads it there,
and a push onto a full chip first moves the 4 lowest entries there, and issues 4 cycles later (R86). -/
def Obligations.BackingStoreInstructionsComplete : Prop :=
  ∀ (w : StallS) (n : BitVec 6) (s : State) (k : Nat) (l : Lane),
    (∀ v, Alone s (.bury w n) k l → l.stk.head? = some v → n.toNat + 1 < l.stk.length →
      ∃ t, exec (.bury w n) s = .next t ∧
        Completes s (s.setLane k (notePast (l.setStk (l.stk.set (n.toNat + 1)
          { val := v.val, ready := s.issueCycle + 2, src := l.pc.toNat, deps := v.deps }) l.back)
          (l.posKey (l.depth - 2 - n.toNat)) v.val v.deps)) t (.bury w n) k [] none) ∧
    (∀ v key, Alone s (.bury w n) k l → l.stk.head? = some v → l.stk.length ≤ n.toNat + 1 →
      key = s.backKey k l (l.depth - 2 - n.toNat) → keyExists key →
      ∃ t, exec (.bury w n) s = .next t ∧
        Completes s (stalled ((s.laneWrite k key (leBytes 8 v.val.toNat) none none 0).modLane k (fun x =>
          notePast { x with under := msetD x.under (l.posKey (l.depth - 2 - n.toNat)) v.deps [] }
            (l.posKey (l.depth - 2 - n.toNat)) v.val v.deps)) k) t (.bury w n) k [] none ∧
        peeks t.mem key 8 = leBytes 8 v.val.toNat) ∧
    (∀ key, Single s k l → s.check k l (.pick w n) = none → l.stk.length < s.cap k l → l.stk.length ≤ n.toNat →
      key = s.backKey k l (l.depth - 1 - n.toNat) → keyExists key → s.backCause k l (l.depth - 1 - n.toNat) = none →
      Uncontested s key 8 →
      ∃ u x d t, exec (.pick w n) s = .next t ∧
        Completes s u t (.pick w n) k
          [(BitVec.ofNat 64 (wordAt s key), mgetD l.under (l.posKey (l.depth - 1 - n.toNat)) [])] none ∧
        u = { stalledFor s k d with lanes := u.lanes, free := u.free } ∧ u.lane k = some { l with seen := x } ∧
        ∀ j, j ≠ k → u.lane j = s.lane j) ∧
    (∀ v, Single s k l → s.check k l (.lit w v) = none → s.cap k l = l.stk.length →
      (∀ i, i < 4 → keyExists (s.backKey k l (l.back + i)) ∧
        ∀ j, j < i → s.backKey k l (l.back + j) + 8 ≤ s.backKey k l (l.back + i) ∨
          s.backKey k l (l.back + i) + 8 ≤ s.backKey k l (l.back + j)) →
      ∃ x t, exec (.lit w v) s = .next t ∧ t.lane k = some x ∧ t.tasks = s.tasks ∧ OthersSame s t ∧
        x.stk.map (·.val) = v.signExtend 64 :: (l.stk.take (l.stk.length - 4)).map (·.val) ∧
        x.back = l.back + 4 ∧ x.pc = l.pc + 2 ∧ s.issueCycle + 5 ≤ x.next ∧
        (∀ i, i < 4 → wordAt t (s.backKey k l (l.back + i)) = (l.stk.getD (l.stk.length - 1 - i) {}).val.toNat) ∧
        ∀ a, (∀ i, i < 4 → a < s.backKey k l (l.back + i) ∨ s.backKey k l (l.back + i) + 8 ≤ a) → t.byte a = s.byte a)

/-- R64, R89, R128, R253, R331, R333, R346: an instruction or a register that the mode may not use traps with PRIVILEGE ahead of every stack
check; too few entries trap with STORAGE UNDERFLOW, too many with STORAGE OVERFLOW, with the depth and the depth
needed. -/
def Obligations.ChecksTrap : Prop :=
  ∀ (i : Instr) (s : State) (k : Nat) (l : Lane), Single s k l →
    (∀ code reg, forbidden i l.ts.mode = some (code, reg) → ∃ c, exec i s = finish (s.takeTrap k i c).bump ∧
      c.group = 16 ∧ c.w0 = BitVec.ofNat 32 code ∧ c.w1 = BitVec.ofNat 32 (((encode i).map Enc.nat).getD 0) ∧
      c.w2 = BitVec.ofNat 32 (l.ts.mode.code + reg * 65536)) ∧
    (plain i = true → l.depth < (shapeOf i).need → ∃ c, exec i s = finish (s.takeTrap k i c).bump ∧
      c.group = 2 ∧ c.w0 = 1 ∧ c.w1 = BitVec.ofNat 32 l.depth ∧ c.w2 = BitVec.ofNat 32 (shapeOf i).need) ∧
    (plain i = true → (shapeOf i).need ≤ l.depth →
      (if l.ts.mode = .u then 1024 else 128) + (shapeOf i).pops < l.depth + (shapeOf i).pushes →
      ∃ c, exec i s = finish (s.takeTrap k i c).bump ∧ c.group = 2 ∧ c.w0 = 2 ∧ c.w1 = BitVec.ofNat 32 l.depth ∧
        c.w2 = BitVec.ofNat 32 (l.depth + (shapeOf i).pushes - (shapeOf i).pops))

/-- R338, R341, R343, R344: a trap entry saves the upper part of the stack in the frame, the PC in `EPC`, the status in `ESTAT` and the
cause in `ECG` and `EDW0` to `EDW2`, raises the level, and goes to the vector of its target; at level 1 the frame is on
chip, at levels 2 and 3 it and the state of the level below go to the record in the mode area, whose base is that of the
target's register now. Nothing else changes. That an INTEGRITY or HARDWARE which the lane owed is dropped is the model's choice
(DEDUCED: log entry 25), and so is that a passive thread takes the current G (log entry 36). -/
def Obligations.TrapEntryCompletes : Prop :=
  ∀ (id : LaneId) (c : Cause) (s : State) (k : Nat) (l : Lane), k = laneIdKey id → Begun s → s.lane k = some l →
    c.asy = false → handlerOn s k (trapTarget s k l c) →
    (l.ts.tlvl = 0 → exec (.trapEntry id c) s = .next (movesAt ((frameWritten s k (saved l).length).setLane k
      { trapped s k l c with
        chip := (l.chip.drop (saved l).length).map settled
        frame := (saved l).map settled ++ l.frame.drop (saved l).length }) k l 4)) ∧
    (l.ts.tlvl = 1 ∨ l.ts.tlvl = 2 → keyExists (recordAt (nextBase s k l c) k (l.ts.tlvl + 1)) →
      ∃ t d, exec (.trapEntry id c) s = .next t ∧
        t = { movesAt s k l (4 + d) with lanes := t.lanes, mem := t.mem, log := t.log, nextId := t.nextId, free := t.free } ∧
        (∃ v, t.lane k = some { trapped s k l c with
          chip := l.chip.map settled, view := v, under := recordDeps l.under (l.ts.tlvl + 1) ((saved l).map settled) }) ∧
        (∀ j, j ≠ k → t.lane j = s.lane j) ∧
        peeks t.mem (recordAt (nextBase s k l c) k (l.ts.tlvl + 1)) 128 =
          (recordWords l).flatMap (fun x => leBytes 8 x.toNat) ∧
        ∀ a, a < recordAt (nextBase s k l c) k (l.ts.tlvl + 1) ∨
          recordAt (nextBase s k l c) k (l.ts.tlvl + 1) + 128 ≤ a → t.byte a = s.byte a)

/-- R348, R352, R384: a trap at level 3, or with a target H that has no handler, stops its lane, posts DEAD_THREAD and sets bit 1 of
`EVENT`. A posted cause waits while its thread is in a trap; delivered, it sets ASY and is no longer posted. That an
asynchronous cause whose target has no handler leaves the state as it was, a CUT too, is the model's choice (DESIGN CHOICE:
log entry 34). -/
def Obligations.StopsAndPostedTrapsComplete : Prop :=
  ∀ (id : LaneId) (c : Cause) (s : State) (k : Nat) (l : Lane), k = laneIdKey id → s.bad = none → s.lane k = some l →
    (c.asy = false → (l.ts.tlvl = 3 ∨ ¬ handlerOn s k (trapTarget s k l c)) →
      ∃ t d, exec (.trapEntry id c) s = .next t ∧ t.lane k = none ∧
        (t.vf (s.spaceOf k / 16384)).event.testBit 1 = true ∧ (t.ctx (s.spaceOf k)).dead = some d ∧
        ((s.ctx (s.spaceOf k)).dead = none → d.group = 15 ∧ d.asy = true ∧ d.w0 = 3 ∧ d.w1 = BitVec.ofNat 32 l.thx ∧
          d.w2 = BitVec.ofNat 32 (causeCode c * 256 + c.group))) ∧
    (c.asy = true → (l.ts.tlvl ≠ 0 ∨ ¬ handlerOn s k (trapTarget s k l c)) → exec (.trapEntry id c) s = .next s) ∧
    (c.asy = true → l.ts.tlvl = 0 → handlerOn s k (trapTarget s k l c) →
      ∃ t x, exec (.trapEntry id c) s = .next t ∧ t.lane k = some x ∧ x.ts.tlvl = 1 ∧ x.epc = l.pc ∧
        x.estat.getLsbD 15 = true ∧ x.pc = vectorOf s k (trapTarget s k l c) ∧ x.ecg = BitVec.ofNat 64 c.group ∧
        (c.group = 17 → (t.ctx (s.spaceOf k)).thr = none) ∧
        (c.group = 15 → c.w0.toNat % 256 = 3 → (t.ctx (s.spaceOf k)).dead = none) ∧
        (c.group = 15 → c.w0.toNat % 256 = 4 → (t.ctx (s.spaceOf k)).mc = none) ∧
        (c.group = 18 → x.cutDue = false))

/-- R48, R344, R351: `syscall`, `hcall` and `brk` take their traps: group, code and mode; `EPC` is the instruction's own address, and its
stall count runs on. That an INTEGRITY or HARDWARE which the lane owed is dropped is the model's choice (DEDUCED: log entry
25), and so is that a passive thread takes the current G (log entry 36). -/
def Obligations.SystemCallsComplete : Prop :=
  ∀ (i : Instr) (s : State) (k : Nat) (l : Lane) (g n : Nat) (c : Cause), callGroup i = some (g, n) → Alone s i k l →
    c = { group := g, w0 := BitVec.ofNat 32 n, w1 := BitVec.ofNat 32 l.ts.mode.code, w2 := 0, asy := false } →
    l.ts.tlvl = 0 → handlerOn s k (trapTarget s k l c) →
    exec i s = .next (movesAt ((frameWritten s k (saved l).length).setLane k { trapped s k (counted s i l) c with
      chip := (l.chip.drop (saved l).length).map settled
      frame := (saved l).map settled ++ l.frame.drop (saved l).length }) k l 4).bump

/-- R346: `sret` and `hret` go to `EPC`, with the mode and status of `ESTAT`, one level lower, and with the frame's entries on the stack
that they uncover: from level 1 the thread's own stack; from levels 2 and 3 the handler's, whose registers come back
from the record. Each is a boundary at device scope. -/
def Obligations.ReturnsComplete : Prop :=
  ∀ (i : Instr) (sret : Bool) (s : State) (k : Nat) (l : Lane), returnForm i = some sret → Alone s i k l →
    (l.ts.tlvl = 1 → MayReturn l sret (l.chip.length + l.g) →
      l.efh + l.chip.length ≤ 8 + 8 * ((s.wave (waveOf k)).map (·.sb)).getD 0 →
      (∀ j, j < l.efh → mget s.parity (128 * k + 64 + j) = none ∧ (l.frame.getD j {}).soft = false) →
      ∃ past, exec i s = .next (movesAt (s.setLane k { l with
        ts := restoredStat l
        watch := none
        next := Nat.max l.next (Nat.max (s.readyAt k l) (s.cycle (sliceOf k)) + 1)
        bases := l.bases.tail
        pc := l.epc
        hchip := []
        hg := 0
        chip := (List.range l.efh).map (fun j => l.frame.getD (l.efh - 1 - j) {}) ++ l.chip
        view := boundaryView s.rels (sliceOf k) .device l.view
        ord := s.nextId
        past := past }) k l 4).bump ∧ (l.ts.ilk ≠ .trust → past = l.past)) ∧
    (∀ a, l.ts.tlvl = 2 ∨ l.ts.tlvl = 3 → a = recordAt (handlerBase l) k l.ts.tlvl → keyExists a → Uncontested s a 128 →
      s.isPoison a 128 = false → s.isEcc a 128 = false →
      MayReturn l sret (wordAt s (a + 0x50) / 2 ^ 16 % 256) →
      ∃ t x d, exec i s = .next t ∧ t.lane k = some x ∧
        t = { (movesAt s k l (4 + d)).bump with lanes := t.lanes, free := t.free } ∧ (∀ j, j ≠ k → t.lane j = s.lane j) ∧
        x = { l with
          ts := restoredStat l
          watch := none
          next := Nat.max l.next (Nat.max (s.readyAt k l) (s.cycle (sliceOf k)) + 1)
          bases := l.bases.tail
          pc := l.epc
          hchip := (List.range l.efh).map (fun j => {
            val := BitVec.ofNat 64 (wordAt s (a + 8 * (l.efh - 1 - j)))
            deps := mgetD l.under (recKey l.ts.tlvl (l.efh - 1 - j)) [] })
          hg := wordAt s (a + 0x50) / 2 ^ 16 % 256
          epc := BitVec.ofNat 64 (wordAt s (a + 0x40))
          estat := BitVec.ofNat 64 (wordAt s (a + 0x48)) &&& 0x8FFF#64
          ecg := BitVec.ofNat 64 (wordAt s (a + 0x50) % 32)
          efh := Nat.min 8 (wordAt s (a + 0x50) / 2 ^ 8 % 16)
          edw0 := BitVec.ofNat 64 (wordAt s (a + 0x58) % 2 ^ 32)
          edw1 := BitVec.ofNat 64 (wordAt s (a + 0x58) / 2 ^ 32)
          edw2 := BitVec.ofNat 64 (wordAt s (a + 0x60) % 2 ^ 32)
          view := x.view
          ord := s.nextId
          past := x.past
          seen := x.seen })

/-- R343, R349, R351: `tfld` pushes entry n of the frame, counted from its top, and `tfst` replaces it, on chip at level 1 and in the
record above; an entry that the frame does not have traps with STORAGE SLOT_RANGE, and one with a parity error that
persists with HARDWARE SOFT_ERROR. -/
def Obligations.FrameAccessesComplete : Prop :=
  ∀ (w : StallS) (n : BitVec 3) (s : State) (k : Nat) (l : Lane),
    (Alone s (.tfld w n) k l → l.ts.tlvl = 1 → n.toNat < l.efh → l.efh ≤ 8 →
      (mget s.parity (128 * k + 64 + (l.efh - 1 - n.toNat)) = none → (l.frame.getD (l.efh - 1 - n.toNat) {}).soft = false →
        ∃ t, exec (.tfld w n) s = .next t ∧ Completes s s t (.tfld w n) k
          [((l.frame.getD (l.efh - 1 - n.toNat) {}).val, (l.frame.getD (l.efh - 1 - n.toNat) {}).deps)] none) ∧
      (mget s.parity (128 * k + 64 + (l.efh - 1 - n.toNat)) ≠ none →
        ∃ c, exec (.tfld w n) s = finish (s.takeTrap k (.tfld w n) c).bump ∧ c.group = 15 ∧ c.w0 = 0x302 ∧
          c.w1 = BitVec.ofNat 32 (l.efh - 1 - n.toNat))) ∧
    (Alone s (.tfst w n) k l → l.ts.tlvl = 1 → n.toNat < l.efh → l.frame.length = 8 → l.efh ≤ 8 →
      ∃ t, exec (.tfst w n) s = .next t ∧ Completes s (({ s with
        parity := mdel s.parity (128 * k + 64 + (l.efh - 1 - n.toNat)) } : State).setLane k { l with
        frame := l.frame.set (l.efh - 1 - n.toNat) (settled ((l.ops (.tfst w n)).getD 0 {})) }) t (.tfst w n) k [] none) ∧
    (∀ a, Alone s (.tfld w n) k l → l.ts.tlvl = 2 ∨ l.ts.tlvl = 3 → n.toNat < l.efh → l.efh ≤ 8 →
      a = recordAt (handlerBase l) k l.ts.tlvl → keyExists a → Uncontested s a 64 → s.isPoison a 64 = false →
      s.isEcc a 64 = false →
      ∃ t x, exec (.tfld w n) s = .next t ∧ t.lane k = some x ∧ t.mem = s.mem ∧ x.pc = l.pc + 2 ∧
        x.stk.map (·.val) = BitVec.ofNat 64 (wordAt s (a + 8 * (l.efh - 1 - n.toNat))) :: l.stk.map (·.val)) ∧
    (∀ a v, Alone s (.tfst w n) k l → l.stk.head? = some v → l.ts.tlvl = 2 ∨ l.ts.tlvl = 3 → n.toNat < l.efh →
      a = recordAt (handlerBase l) k l.ts.tlvl + 8 * (l.efh - 1 - n.toNat) → keyExists a →
      ∃ t d, exec (.tfst w n) s = .next t ∧
        Completes s (stalledFor ((s.laneWrite k a (leBytes 8 v.val.toNat) none none 0).modLane k (fun x => { x with
          under := msetD x.under (recKey l.ts.tlvl (l.efh - 1 - n.toNat)) v.deps [] })) k d) t (.tfst w n) k [] none) ∧
    (∀ i, (i = .tfld w n ∨ i = .tfst w n) → Alone s i k l → l.efh ≤ n.toNat →
      ∃ c, exec i s = finish (s.takeTrap k i c).bump ∧ c.group = 2 ∧ c.w0.toNat % 256 = 4 ∧
        c.w0.toNat / 256 = (if i = .tfld w n then 0x5C else 0x5D) ∧ c.w1 = n.setWidth 32 ∧ c.w2 = BitVec.ofNat 32 l.efh)

/-- R210, R213, R214, R218, R219, R249, R264: `talloc` makes an entry of a descriptor at the lowest tid that is free, an on-chip one at the lowest
place where it fits, and pushes the tid; with no tid or no place it pushes −1 and changes nothing. `tfree` and `tdef`
free and define one entry, `tget` pushes a word of an entry, and `tset` writes one that its kind allows; they wait
while an engine command names the tid, and a `tset` of WAKE also while another strand of the wave waits in an earlier
operation on bins. No other entry changes. A bad descriptor, a tid without an entry, an occupied tile and a word that may
not be written trap with TENSOR, and `tset` on a FLASH entry in U mode with PRIVILEGE. The model's reading, and no rule:
that a PRIVILEGE comes before the wait, which comes before the other checks (DEDUCED: log entry 43); that the base of an
unused side array of a descriptor is 0 (DEDUCED: log entry 28); that an ACC descriptor of more than 32 KiB is refused with
word 1 (DESIGN CHOICE: log entry 56). -/
def Obligations.TensorEntriesComplete : Prop :=
  ∀ (w : StallL) (j : BitVec 3) (s : State) (k : Nat) (l : Lane) (x : Task), s.taskOf k = some x →
    (∀ b u d g lo, Alone s (.talloc w) k l → EngineReads s k l ((l.ops (.talloc w)).getD 0 {}) 64 b u → d = toWords b 8 →
      g = geomOf d → lo = (if g.kind = 0 ∨ g.kind = 4 then 0 else 128) →
      (∀ n, badWord d = some n → ∃ c, exec (.talloc w) s = finish (u.takeTrap k (.talloc w) c).bump ∧ c.group = 8 ∧ c.w0 = 0x102 ∧
        c.w2 = BitVec.ofNat 32 n) ∧
      (badWord d = none → (g.kind = 4 → l.ts.mode ≠ .u) → x.scratch + x.nscratch < 2 ^ 64 →
        (∀ tid, lowestFree s (s.taskNo k) lo tid → lo = 0 → ∃ r t, exec (.talloc w) s = .next t ∧
          Completes s r t (.talloc w) k [(BitVec.ofNat 64 tid, [])] none ∧ r = { u with ctxs := r.ctxs } ∧
          entryChanged s r (s.taskNo k) tid (some (valid d))) ∧
        (∀ tid a, lowestFree s (s.taskNo k) lo tid → lo = 128 → fitsAt x g a → (∀ y, fitsAt x g y → a ≤ y) →
          ∃ e r t, exec (.talloc w) s = .next t ∧ Completes s r t (.talloc w) k [(BitVec.ofNat 64 tid, [])] none ∧
            r = { u with tasks := r.tasks, mem := r.mem, log := r.log, nextId := r.nextId, free := r.free } ∧
            (∀ y, y < 2 ^ 70 → r.byte y = s.byte y) ∧ entryChanged s r (s.taskNo k) tid (some e) ∧
            wordOf e 0 = setBit (wordOf d 0) 63 ∧ e.getD 1 0 = d.getD 1 0 ∧ chipStart (geomOf e) = a ∧
            (geomOf e).span = g.span) ∧
        ((∀ tid, ¬ lowestFree s (s.taskNo k) lo tid) ∨ (lo = 128 ∧ ∀ a, ¬ fitsAt x g a) →
          ∃ t, exec (.talloc w) s = .next t ∧ Completes s u t (.talloc w) k [(BitVec.allOnes 64, [])] none))) ∧
    (∀ tid en, Alone s (.tfree w) k l → tid = (l.operand (.tfree w) 0).toNat → s.entryOf (s.taskNo k) tid = some en →
      ((geomOf en).kind = 3 → dueRows x tid s.now = []) →
      ((geomOf en).kind = 3 → frOcc en ≠ 0 → ∃ c, exec (.tfree w) s = finish (s.takeTrap k (.tfree w) c).bump ∧ c.group = 8 ∧
        c.w0 = 0x107 ∧ c.w1 = BitVec.ofNat 32 (tid % 256)) ∧
      (((geomOf en).kind = 3 → frOcc en = 0) →
        (s.engineNames (s.taskNo k) tid = true → exec (.tfree w) s = .next (s.setLane k (holding s (.tfree w) l (.tensor tid))).bump) ∧
        (s.engineNames (s.taskNo k) tid = false →
          ∃ r t, exec (.tfree w) s = .next t ∧ Completes s r t (.tfree w) k [] none ∧
            r = { s with ctxs := r.ctxs, tasks := r.tasks, lanes := r.lanes } ∧ entryChanged s r (s.taskNo k) tid none))) ∧
    (∀ tid b u d, Alone s (.tdef w) k l → tid = (l.operand (.tdef w) 0).toNat → tid < 128 →
      EngineReads s k l ((l.ops (.tdef w)).getD 1 {}) 64 b u → d = toWords b 8 → badWord d = none →
      ((geomOf d).kind = 0 ∨ ((geomOf d).kind = 4 ∧ l.ts.mode ≠ .u)) →
      (s.engineNames (s.taskNo k) tid = true → exec (.tdef w) s = .next (s.setLane k (holding s (.tdef w) l (.tensor tid))).bump) ∧
      (s.engineNames (s.taskNo k) tid = false →
        ∃ r t, exec (.tdef w) s = .next t ∧ Completes s r t (.tdef w) k [] none ∧ r = { u with ctxs := r.ctxs } ∧
          entryChanged s r (s.taskNo k) tid (some (valid d)))) ∧
    (∀ tid en, Alone s (.tget w j) k l → tid = (l.operand (.tget w j) 0).toNat → s.entryOf (s.taskNo k) tid = some en →
      (s.waveHolds (s.taskNo k) (waveOf k) tid false true = false →
        ∃ t, exec (.tget w j) s = .next t ∧ Completes s s t (.tget w j) k [(en.getD j.toNat 0, [])] none) ∧
      (s.waveHolds (s.taskNo k) (waveOf k) tid false true = true →
        exec (.tget w j) s = .next (s.setLane k (holding s (.tget w j) l (.tensor tid))).bump)) ∧
    (∀ tid en new, Alone s (.tset w j) k l → tid = (l.operand (.tset w j) 0).toNat →
      s.entryOf (s.taskNo k) tid = some en → new = en.set j.toNat (l.operand (.tset w j) 1) →
      ((geomOf en).kind = 4 → l.ts.mode = .u → ∃ c, exec (.tset w j) s = finish (s.takeTrap k (.tset w j) c).bump ∧ c.group = 16 ∧
        c.w0 = 4 ∧ c.w1 = BitVec.ofNat 32 (encNat (.tset w j)) ∧ c.w2 = 0) ∧
      (((geomOf en).kind = 4 → l.ts.mode ≠ .u) → s.engineNames (s.taskNo k) tid = true →
        exec (.tset w j) s = .next (s.setLane k (holding s (.tset w j) l (.tensor tid))).bump) ∧
      (s.engineNames (s.taskNo k) tid = false →
        (tid < 128 → ((geomOf en).kind = 0 ∨ ((geomOf en).kind = 4 ∧ l.ts.mode ≠ .u)) → j ≠ 0 →
          badWord (setWord new 0 (clearBit (wordOf new 0) 63)) = none →
          ∃ r t, exec (.tset w j) s = .next t ∧ Completes s r t (.tset w j) k [] none ∧ r = { s with ctxs := r.ctxs } ∧
            entryChanged s r (s.taskNo k) tid (some new)) ∧
        (128 ≤ tid → (geomOf en).kind = 3 → j = 2 ∨ j = 3 →
          (j = 2 → frWord2 (l.operand (.tset w j) 1).toNat = true ∧
            ((l.operand (.tset w j) 1).toNat % 4096 = frSite en ∨ (frHeld en = 0 ∧ frOcc en = 0))) →
          (j = 3 → frWord3 (l.operand (.tset w j) 1).toNat = true) →
          ∃ r t, exec (.tset w j) s = .next t ∧ Completes s r t (.tset w j) k [] none ∧ r = { s with tasks := r.tasks } ∧
            entryChanged s r (s.taskNo k) tid (some new)) ∧
        (128 ≤ tid → (geomOf en).kind = 3 → j = 6 → s.binBusy [k] = true →
          exec (.tset w j) s = .next (s.setLane k (holding s (.tset w j) l .bin)).bump) ∧
        (128 ≤ tid → (geomOf en).kind = 3 → j = 6 → s.binBusy [k] = false → Quiet s k →
          ∃ r t, exec (.tset w j) s = .next t ∧ Completes s r t (.tset w j) k [] none ∧
            r = { s with tasks := r.tasks, rels := r.rels, nextId := s.nextId + 1 } ∧
            entryChanged s r (s.taskNo k) tid (some (en.set 6
              (l.operand (.tset w j) 1 &&& ((en.getD 4 0) ||| (en.getD 7 0)))))) ∧
        ((geomOf en).kind = 1 ∨ (geomOf en).kind = 2 ∨ (geomOf en).kind = 3 → 4 ≤ j.toNat → j ≠ 6 →
          ∃ c, exec (.tset w j) s = finish (s.takeTrap k (.tset w j) c).bump ∧ c.group = 8 ∧ c.w0 = 0x103 ∧
            c.w1 = BitVec.ofNat 32 (tid % 256)))) ∧
    (∀ i tid, (i = .tfree w ∨ i = .tget w j ∨ i = .tset w j) → Alone s i k l → tid = (l.operand i 0).toNat →
      s.entryOf (s.taskNo k) tid = none → s.waveHolds (s.taskNo k) (waveOf k) tid false true = false →
      ∃ c, exec i s = finish (s.takeTrap k i c).bump ∧ c.group = 8 ∧ c.w0 = 0x101 ∧ c.w1 = BitVec.ofNat 32 (tid % 256))

/-- R209, R212, R220, R221: `ldt` pushes an element of a dense on-chip tensor, `stt` replaces one, and `atomt` does both at once at cluster
scope; no other byte changes. An index outside the extents traps with TENSOR. -/
def Obligations.ElementsComplete : Prop :=
  ∀ (w : StallS) (w3 : StallL) (s : State) (k : Nat) (l : Lane) (g : Geom) (i key : Nat),
    (Alone s (.ldt w) k l →
      ElementAt s k (l.operand (.ldt w) 0).toNat (l.operand (.ldt w) 2).toNat (l.operand (.ldt w) 1).toNat g i key →
      s.waveHolds (s.taskNo k) (waveOf k) (l.operand (.ldt w) 0).toNat false true = false →
      s.isPoison key g.nbytes = false → s.isEcc key g.nbytes = false → Uncontested s key g.nbytes →
      ∃ u x t, exec (.ldt w) s = .next t ∧
        Completes s u t (.ldt w) k [(elemVal g.fmt (g.take i (peeks s.mem key g.nbytes)), depsOf (l.ops (.ldt w)))] none ∧
        u = { s with lanes := u.lanes } ∧ u.lane k = some { l with seen := x } ∧ ∀ j, j ≠ k → u.lane j = s.lane j) ∧
    (Alone s (.stt w) k l →
      ElementAt s k (l.operand (.stt w) 0).toNat (l.operand (.stt w) 2).toNat (l.operand (.stt w) 1).toNat g i key →
      s.waveHolds (s.taskNo k) (waveOf k) (l.operand (.stt w) 0).toNat true true = false → g.rdo = false →
      ∃ t, exec (.stt w) s = .next t ∧
        Completes s (s.laneWrite k key (g.put i (l.operand (.stt w) 3).toNat (peeks s.mem key g.nbytes)) none none 0) t
          (.stt w) k [] none ∧
        peeks t.mem key (g.put i (l.operand (.stt w) 3).toNat (peeks s.mem key g.nbytes)).length =
          g.put i (l.operand (.stt w) 3).toNat (peeks s.mem key g.nbytes)) ∧
    (∀ op o, Alone s (.atomt w3 op o) k l →
      ElementAt s k (l.operand (.atomt w3 op o) 0).toNat (l.operand (.atomt w3 op o) 2).toNat
        (l.operand (.atomt w3 op o) 1).toNat g i key →
      s.waveHolds (s.taskNo k) (waveOf k) (l.operand (.atomt w3 op o) 0).toNat true true = false → g.rdo = false →
      (g.kind = 1 ∨ g.kind = 3) → (g.fmt = 6 ∨ ((op ≠ .fadd ∧ op ≠ .fmin ∧ op ≠ .fmax) ∧ (g.fmt = 7 ∨ g.fmt = 8))) →
      s.isPoison key g.nbytes = false → s.isEcc key g.nbytes = false →
      ∃ v r new u t, (v, r) = s.laneReadAt k (depsOf ((l.ops (.atomt w3 op o)).take 3)) []
          (fun w => w.point == 6000 || w.who / 32 == s.who k / 32) key g.nbytes ∧
        new = (atomicResult op (8 * g.nbytes) (BitVec.ofNat _ (leNat v.bytes)) ((l.operand (.atomt w3 op o) 3).setWidth _)
          ((l.operand (.atomt w3 op o) 4).setWidth _)).map (·.toNat) ∧
        u = (match new with
          | some x => r.strongWrite k key (leBytes g.nbytes x) .cluster (releases o) 6000
          | none => if releases o then r.release k .cluster else r) ∧
        exec (.atomt w3 op o) s = .next t ∧
        Completes s (if acquires o then u.boundary k .cluster else u) t (.atomt w3 op o) k
          [(BitVec.ofNat 64 (leNat v.bytes), (v.rels ++ depsOf ((l.ops (.atomt w3 op o)).take 3)).dedup)] none) ∧
    (∀ en, Alone s (.ldt w) k l → s.entryOf (s.taskNo k) (l.operand (.ldt w) 0).toNat = some en →
      ((geomOf en).kind = 1 ∨ (geomOf en).kind = 2 ∨ (geomOf en).kind = 3) →
      s.waveHolds (s.taskNo k) (waveOf k) (l.operand (.ldt w) 0).toNat false true = false →
      ((geomOf en).ext 0 ≤ (l.operand (.ldt w) 1).toNat ∨ (geomOf en).rows ≤ (l.operand (.ldt w) 2).toNat) →
      ∃ c, exec (.ldt w) s = finish (s.takeTrap k (.ldt w) c).bump ∧ c.group = 8 ∧ c.w0 = 0x104 ∧
        c.w1.toNat % 256 = (l.operand (.ldt w) 0).toNat % 256)

/-- R215, R222 to R224: `tfill`, `tcol` and `tcopy` hand an operation to the bank engines and go on; it completes after the earlier
ones on its tensors: a fill gives every element its value, a column edit gives the selected element what its operation
makes of it, and a move copies the elements. -/
def Obligations.BankOperationsComplete : Prop :=
  ∀ (w : StallL) (s : State) (k : Nat) (l : Lane),
    (∀ tid en, Alone s (.tfill w) k l → tid = (l.operand (.tfill w) 0).toNat → s.entryOf (s.taskNo k) tid = some en →
      ((geomOf en).kind = 1 ∨ (geomOf en).kind = 2 ∨ (geomOf en).kind = 3) → (geomOf en).rdo = false → (geomOf en).sp = false →
      s.waveHolds (s.taskNo k) (waveOf k) tid true true = false →
      ∃ t, exec (.tfill w) s = .next t ∧
        Completes s (queued s k tid (.fill (l.operand (.tfill w) 1))) t (.tfill w) k [] none) ∧
    (∀ all op tid en, Alone s (.tcol w all op) k l → tid = (l.operand (.tcol w all op) 0).toNat →
      s.entryOf (s.taskNo k) tid = some en → ((geomOf en).kind = 3 ∨ ((geomOf en).kind = 1 ∧ all = false)) →
      ((geomOf en).fmt = 7 ∨ (geomOf en).fmt = 8) → (geomOf en).rdo = false → (geomOf en).sp = false →
      (l.operand (.tcol w all op) 1).toNat < (geomOf en).ext 0 → 0 < (geomOf en).rows →
      s.waveHolds (s.taskNo k) (waveOf k) tid true true = false →
      ∃ t, exec (.tcol w all op) s = .next t ∧
        Completes s (queued s k tid (.col all op (l.operand (.tcol w all op) 3)
          (if all then en.getD 7 0 else l.operand (.tcol w all op) 2) (l.operand (.tcol w all op) 1).toNat)) t
          (.tcol w all op) k [] none) ∧
    (∀ stid dtid a b, Alone s (.tcopy w) k l → dtid = (l.operand (.tcopy w) 0).toNat → stid = (l.operand (.tcopy w) 1).toNat →
      s.entryOf (s.taskNo k) stid = some a → s.entryOf (s.taskNo k) dtid = some b → (geomOf b).rdo = false →
      onChip (geomOf a) = true → onChip (geomOf b) = true → tcopyFits (geomOf a) (geomOf b) = true →
      s.waveHolds (s.taskNo k) (waveOf k) stid false true = false → s.waveHolds (s.taskNo k) (waveOf k) dtid true true = false →
      ∃ t, exec (.tcopy w) s = .next t ∧ Completes s (queued s k dtid (.move stid)) t (.tcopy w) k [] none) ∧
    (∀ tn x op b en, s.bad = none → s.task tn = some x → x.banks.find? (fun y => y.id == op) = some b →
      (∀ y, y ∈ x.banks.takeWhile (fun y => y.id != op) → ∀ tid, tid ∈ b.tids → y.names tid = false) →
      s.entryOf tn b.tid = some en →
      ∃ t, exec (.bankOperationComplete tn op) s = .next t ∧
        (∃ y, t.task tn = some y ∧ ∀ z, z ∈ y.banks → z.id ≠ op) ∧
        (∀ v, b.kind = .fill v → (geomOf en).sp = false → (geomOf en).bits % 8 = 0 →
          ∀ i, i < (geomOf en).count →
            peeks t.mem (chipKey (geomOf en).kind b.slice (geomOf en).start + (geomOf en).byteOf i) (geomOf en).nbytes =
              leBytes (geomOf en).nbytes (v.toNat % 2 ^ (geomOf en).bits)) ∧
        (∀ all op v mask c r i key, b.kind = .col all op v mask c → r < 64 → r < (geomOf en).rows →
          (∀ q, mask.getLsbD q = true ↔ q = r) → (geomOf en).bits = 32 ∨ (geomOf en).bits = 64 →
          (geomOf en).index [] ((geomOf en).split r c) = some i →
          key = chipKey (geomOf en).kind b.slice (geomOf en).start + (geomOf en).byteOf i →
          s.broken key (geomOf en).nbytes = false →
          peeks t.mem key (geomOf en).nbytes = leBytes (geomOf en).nbytes (colResult op (geomOf en).bits
            (BitVec.ofNat _ (leNat (peeks s.mem key (geomOf en).nbytes))) (v.setWidth _)).toNat) ∧
        (∀ src ea a z n, b.kind = .move src → s.entryOf tn src = some ea → (geomOf ea).sp = false → (geomOf ea).gsz = 0 →
          (geomOf en).bits % 8 = 0 → 0 < (geomOf en).bits → n = (geomOf ea).sizes.getD 0 0 →
          a = chipKey (geomOf ea).kind b.slice (geomOf ea).start →
          z = chipKey (geomOf en).kind b.slice (geomOf en).start → (a + n ≤ z ∨ z + n ≤ a) →
          s.broken a n = false → peeks t.mem z n = peeks s.mem a n))

/-- R227, R228, R233 to R237: a copy that is not refused takes a free slot with its requests, joins the open set, binds its staging slot,
and the strand goes on; a list does so for each of its requests, in order. Without a slot, or behind a strand that
waits, the strand waits; a slot that falls free goes to the strand that has waited longest, which may be refused by
then. A request issues while no other is held and its budgets allow it, and is charged or parks. A request completes
with its bytes written, for on-chip destinations the bytes of the source elements, or fails with the destination as
it was, or parks; with the last one the copy lands, and its counter has fallen by the whole of it. That a strand of which no
copy has started is checked again when a slot comes free, and may be refused then, is the model's choice (DEDUCED: log
entries 13 and 29). -/
def Obligations.CopiesComplete : Prop :=
  (∀ (w : StallL) (fo nb : Bool) (stg : BitVec 2) (stid dtid : BitVec 8) (s : State) (k : Nat) (l : Lane) (i : Instr) (q : CopyReq),
    i = .cpy w fo stg nb stid dtid → Alone s i k l → q = cpyRequest l w fo stg nb stid dtid →
    s.copyRefusal k 0 q false [] = none → s.copyHolds k q = none →
    (s.copyWaiters (sliceOf k) = [] → (s.slice (sliceOf k)).copies.length < 48 →
      ∃ u t c, exec i s = .next t ∧ Completes s u t i k [] none ∧ Copying s k q s.nextId c ∧ u.mem = s.mem ∧
        (c.reqs ≠ [] → (u.slice (sliceOf k)).copies = (s.slice (sliceOf k)).copies ++ [c] ∧ u.tasks = s.tasks) ∧
        (fo = true → ∃ y, mget (u.slice (sliceOf k)).stages stg.toNat = some y ∧ y.copy = some s.nextId) ∧
        u.lane k = some { l with openSet := if nb then l.openSet else l.openSet ++ [s.nextId] }) ∧
    (s.copyWaiters (sliceOf k) ≠ [] ∨ 48 ≤ (s.slice (sliceOf k)).copies.length →
      exec i s = .next (s.setLane k (issued s i l (.copySlot i [q] false))).bump)) ∧
  (∀ (w : StallL) (s u : State) (k n f : Nat) (l : Lane) (b : List Byte) (qs : List CopyReq), Alone s (.cpyl w) k l →
    n = (l.operand (.cpyl w) 0).toNat → 0 < n → n ≤ 64 →
    readList s k (l.operand (.cpyl w) 1) ((l.ops (.cpyl w)).getD 1 {}).deps ((n + 1) / 2) [] = (.inr b, u) → u.bad = none →
    qs = (List.range n).map (fun j => (listReq ((b.drop (32 * j)).take 32)).1) →
    u.listRefusal k 0 [] ((List.range n).map (fun j => listReq ((b.drop (32 * j)).take 32))) = none →
    qs.findSome? (u.copyHolds k) = none → u.copyWaiters (sliceOf k) = [] →
    f = 48 - (u.slice (sliceOf k)).copies.length → 0 < f →
    ∃ t, exec (.cpyl w) s = .next t ∧ t.mem = u.mem ∧
      (∀ j q, j < f → qs[j]? = some q → ∃ c, Copying u k q (u.nextId + j) c ∧
        (c.reqs ≠ [] → c ∈ (t.slice (sliceOf k)).copies)) ∧
      (n ≤ f → ∃ r m, Completes s r t (.cpyl w) k [] none ∧ r.lane k = some m ∧
        m.openSet = l.openSet ++ (qs.zipIdx.filter (fun p => !p.1.nb)).map (fun p => u.nextId + p.2)) ∧
      (f < n → ∃ m, t.lane k = some m ∧ m.pc = l.pc ∧ m.wait = .copySlot (.cpyl w) (qs.drop f) true)) ∧
  (∀ (slice k : Nat) (s : State) (l : Lane) (i : Instr) (q : CopyReq) (begun : Bool), s.bad = none →
    s.copyWaiters slice = [(k, l)] → s.lane k = some l → l.wait = .copySlot i [q] begun →
    (s.slice slice).copies.length < 48 →
    (s.copyRefusal k 0 q false [] = none →
      ∃ x t c, exec (.copySlotGrant slice) s = .next t ∧ t.lane k = some x ∧ x.wait = .none ∧
        x.pc = l.pc + BitVec.ofNat 64 (shapeOf i).len ∧ x.next = Nat.max l.next (s.cycle slice + 1) ∧
        x.openSet = (if q.nb then l.openSet else l.openSet ++ [s.nextId]) ∧ t.mem = s.mem ∧ Copying s k q s.nextId c ∧
        (c.reqs ≠ [] → (t.slice slice).copies = (s.slice slice).copies ++ [c])) ∧
    (∀ c, begun = false → s.copyRefusal k 0 q false [] = some c →
      exec (.copySlotGrant slice) s = finish (s.enterTrap k c))) ∧
  (∀ (slice id req : Nat) (s : State) (c : Copy) (q : Req), s.bad = none → s.copyAt slice id = some c →
    c.reqs.find? (fun x => x.id == req) = some q → q.issued = false →
    ((s.slice slice).held ≠ none ∨
      (((geomOf c.src).kind = 0 ∨ (geomOf c.dst).kind = 0) ∧
        (s.vf c.vf).copyCap ≤ (mgetD s.budget (budgetKey c.vf (slice / 6)) (0, 0, 0)).1) →
      exec (.copyRequestIssue slice id req) s = .next s) ∧
    ((s.slice slice).held = none → s.mayIssue c slice = true → (s.slice slice).turnOf c req = true →
      ∃ t c' q', exec (.copyRequestIssue slice id req) s = .next t ∧ t.mem = s.mem ∧ t.lanes = s.lanes ∧ t.tasks = s.tasks ∧
        t.copyAt slice id = some c' ∧ c'.reqs.find? (fun x => x.id == req) = some q' ∧ q'.issued = true ∧ q'.done = q.done ∧
        ((t.budget = s.budget ∧ (t.slice slice).parked id req = true) ∨
          ∃ m n, t.budget = mset s.budget (budgetKey c.vf (slice / 6))
              ((mgetD s.budget (budgetKey c.vf (slice / 6)) (0, 0, 0)).1 + m,
               (mgetD s.budget (budgetKey c.vf (slice / 6)) (0, 0, 0)).2.1 + n,
               (mgetD s.budget (budgetKey c.vf (slice / 6)) (0, 0, 0)).2.2) ∧
            (t.slice slice).parked id req = (s.slice slice).parked id req))) ∧
  (∀ (slice id req : Nat) (s s1 : State) (c : Copy) (q : Req) (x : Tried), s.bad = none → s.copyAt slice id = some c →
    c.reqs.find? (fun y => y.id == req) = some q → q.issued = true → q.done = false →
    (s.slice slice).parked id req = false → s.tryReq c slice q = (x, s1) →
    ∃ t, exec (.copyRequestComplete slice id req) s = .next t ∧
      (∀ va r lv kind, x.out = .park va r lv kind → t.mem = s.mem ∧ t.tasks = s.tasks ∧
        ((s.slice slice).replay.length < 16 ∨ (s.slice slice).held = none → (t.slice slice).parked id req = true)) ∧
      ((geomOf c.dst).kind ≠ 4 →
        (∀ r, x.out = .fail r → t.mem = s.mem) ∧
        (∀ ws bad, x.out = .write ws bad → t.mem = ws.foldl (fun m p =>
          pokes m p.1 (if bad.isSome then List.replicate p.2.length 0 else p.2)) s.mem)) ∧
      ((geomOf c.src).kind = 1 ∨ (geomOf c.src).kind = 2 → (geomOf c.dst).kind = 1 ∨ (geomOf c.dst).kind = 2 →
        (geomOf c.src).sp = false → (geomOf c.src).gsz = 0 → (geomOf c.dst).sp = false → (geomOf c.src).fmt = (geomOf c.dst).fmt →
        (geomOf c.dst).bits % 8 = 0 → c.rows = 1 → c.cols = 1 → q.kind = .elem →
        q.line = elemKey (geomOf c.dst) slice c.drow c.dcol / 64 →
        s.broken (elemKey (geomOf c.src) slice c.srow c.scol) (geomOf c.src).nbytes = false →
        Uncontested s (elemKey (geomOf c.src) slice c.srow c.scol) (geomOf c.src).nbytes →
        peeks t.mem (elemKey (geomOf c.dst) slice c.drow c.dcol) (geomOf c.dst).nbytes =
          if c.scol < (geomOf c.src).ext 0 ∧ c.srow < (geomOf c.src).rows
          then peeks s.mem (elemKey (geomOf c.src) slice c.srow c.scol) (geomOf c.src).nbytes
          else List.replicate (geomOf c.dst).nbytes 0) ∧
      (∀ n tn y, (∀ va r lv kind, x.out ≠ .park va r lv kind) → (∀ r, r ∈ c.reqs → r.done = true ∨ r.id = req) →
        c.ctr = some n → c.task = some tn → c.packet = none → s.task tn = some y →
        (∃ z, mget t.landed id = some z ∧ (∀ r, x.out = .fail r → z.failed ≠ none)) ∧ t.copyAt slice id = none ∧
        ∃ y', t.task tn = some y' ∧ (mgetD y'.counters n {}).val =
          (BitVec.ofInt 64 ((mgetD y.counters n {}).val - ((c.dense - c.counted : Nat) : Int))).toInt))

/-- R34, R238, R240, R241, R243, R244: `cinit` sets a counter; `cwait` waits until it is at most 0 and pushes its status; `seal` and `waitb`
close a batch and wait until it has landed; `barinit` sets a barrier, and arrivals count up until the last one ends
the phase, for those that wait too. -/
def Obligations.CountersAndBarriersComplete : Prop :=
  ∀ (w : StallL) (w2 : StallS) (s : State) (k : Nat) (l : Lane) (x : Task), s.taskOf k = some x →
    (∀ c : BitVec 12, Alone s (.cinit w c) k l → c.toNat < x.nctr →
      ∃ t, exec (.cinit w c) s = .next t ∧ Completes s (s.modTask (s.taskNo k) (fun x => { x with
        counters := mset x.counters c.toNat { mgetD x.counters c.toNat {} with
          val := (l.operand (.cinit w c) 0).toInt, status := 0 } })) t (.cinit w c) k [] none) ∧
    (∀ (c : BitVec 12) y, Alone s (.cwait w c) k l → c.toNat < x.nctr → y = mgetD x.counters c.toNat {} →
      ∃ t, exec (.cwait w c) s = .next t ∧
        (y.val ≤ 0 → Completes s (s.setLane k { l with
          seen := viewJoin y.pub l.seen, view := viewJoin (mgetD y.own l.thx []) l.view }) t (.cwait w c) k
          [(BitVec.ofNat 64 y.status, [])] none) ∧
        (0 < y.val → t.lane k = some (issued s (.cwait w c) l (.cwait c.toNat)) ∧ t.tasks = s.tasks ∧ t.mem = s.mem)) ∧
    (∀ n : BitVec 3, Alone s (.seal w2 n) k l →
      ∃ t, exec (.seal w2 n) s = .next t ∧ Completes s (s.setLane k { l with
        batches := mset l.batches n.toNat (mgetD l.batches n.toNat [] ++ l.openSet), openSet := [] }) t (.seal w2 n) k [] none) ∧
    (∀ n : BitVec 3, Alone s (.waitb w2 n) k l →
      ∃ t, exec (.waitb w2 n) s = .next t ∧
        ((∀ c, c ∈ mgetD l.batches n.toNat [] → mget s.landed c ≠ none) → ∃ v,
          Completes s (s.setLane k { l with batches := mdel l.batches n.toNat, view := v }) t (.waitb w2 n) k [] none) ∧
        ((∃ c, c ∈ mgetD l.batches n.toNat [] ∧ mget s.landed c = none) →
          t.lane k = some (holding s (.waitb w2 n) l (.waitb n.toNat)) ∧ t.mem = s.mem)) ∧
    (∀ (sc : Scope) (b : BitVec 5) n, Alone s (.barinit w sc b) k l → n = (l.operand (.barinit w sc b) 0).toNat →
      b.toNat < x.nbar → (s.barrier (s.taskNo k) b.toNat).a = 0 → s.barWaiters (s.taskNo k) b.toNat = false →
      0 < n → n ≤ x.nth → (sc = .slice → x.members.length ≤ 1) →
      ∃ t, exec (.barinit w sc b) s = .next t ∧ Completes s (s.modTask (s.taskNo k) (fun x => { x with
        barriers := mset x.barriers b.toNat { s.barrier (s.taskNo k) b.toNat with n := n, a := 0, scope := sc } })) t
        (.barinit w sc b) k [] none) ∧
    (∀ (b : BitVec 5) y, Alone s (.bar w2 b) k l → Quiet s k → ¬ (x.arm = true ∧ (x.sati = true ∨ x.satf = true)) →
      b.toNat < x.nbar → y = s.barrier (s.taskNo k) b.toNat → y.n ≠ 0 →
      (noneWait s → ∃ t, exec (.bar w2 b) s = .next t ∧ t.barrier (s.taskNo k) b.toNat = afterArrival y ∧ t.mem = s.mem ∧
        (y.n ≤ y.a + 1 → ∃ u, Completes s u t (.bar w2 b) k [] none) ∧
        (y.a + 1 < y.n → t.lane k = some (issued s (.bar w2 b) l (.bar b.toNat y.phase)))) ∧
      (∀ j m, j ≠ k → y.n ≤ y.a + 1 → s.lane j = some m → m.wait = .bar b.toNat y.phase →
        s.lanes.filter (fun p => s.taskNo p.1 == s.taskNo k && p.2.wait.barOf.isSome) = [(j, m)] →
        ∃ t m', exec (.bar w2 b) s = .next t ∧ t.lane j = some m' ∧ m'.wait = .none ∧ m'.pc = m.pc + 2 ∧ m.next ≤ m'.next)) ∧
    (∀ b : BitVec 5, Alone s (.bar w2 b) k l → x.arm = true → (x.sati = true ∨ x.satf = true) →
      ∃ c, exec (.bar w2 b) s = finish ((s.modTask (s.taskNo k) (fun x => { x with arm := false })).takeTrap k (.bar w2 b) c).bump ∧
        c.group = 7 ∧ c.w0.toNat % 256 = 1 ∧ c.w0.toNat / 256 = bit x.satf * 2 + bit x.sati ∧ c.w1 = b.setWidth 32) ∧
    (∀ (b : BitVec 5) y, Alone s (.bara w2 b) k l → Quiet s k → noneWait s → b.toNat < x.nbar →
      y = s.barrier (s.taskNo k) b.toNat → y.n ≠ 0 →
      ∃ u t, exec (.bara w2 b) s = .next t ∧ Completes s u t (.bara w2 b) k [] none ∧
        u.barrier (s.taskNo k) b.toNat = afterArrival y ∧ u.mem = s.mem ∧
        u.lane k = some { l with tokens := mset l.tokens b.toNat y.phase }) ∧
    (∀ (b : BitVec 5) y, Alone s (.barw w2 b) k l → Quiet s k → b.toNat < x.nbar → y = s.barrier (s.taskNo k) b.toNat → y.n ≠ 0 →
      ∃ t, exec (.barw w2 b) s = .next t ∧
        ((∃ p, mget l.tokens b.toNat = some p ∧ p < y.phase) → ∃ u m, Completes s u t (.barw w2 b) k [] none ∧
          u = { s with lanes := u.lanes } ∧ u.lane k = some m ∧
          m = { l with tokens := mdel l.tokens b.toNat, view := m.view, qg := m.qg, ord := m.ord }) ∧
        ((∀ p, mget l.tokens b.toNat = some p → y.phase ≤ p) →
          t.lane k = some (issued s (.barw w2 b) l (.barw b.toNat y.phase)) ∧ t.tasks = s.tasks))

/-- R247, R252, R253, R256 to R260, R264: `rowres` reserves the first free row of a site; `suspend` and `suspendk` make a thread whose
stack is all on chip a row, the one that it has reserved or the first free one, which holds its stack, and the thread
leaves its wave; wakes set WAKE for rows in use, or end the `mwait` of the thread that they name, `flush` has the ready
rows resume, a row that has slept for AGE is woken and flushed, and a due resume forms a wave with the row's stack at the
site's resume PC. That the resumed lane has its whole stack on chip (`back` is 0) is the model's choice among the splits
that R88 and R259 allow (DESIGN CHOICE: log entry 32), as is that an INTEGRITY or HARDWARE which a suspending lane owes goes
with it (log entry 25). `wake.row`, `wake.site` and `flush` wait while another strand of their wave waits in an earlier
operation on bins, and `wake.row` first of all while the wave's bank operations name its tile: that such a strand waits
so, and begins again, is the model's reading of R224 and R264 (DEDUCED: log entry 43). -/
def Obligations.FrameRowsComplete : Prop :=
  (∀ (w : StallL) (s : State) (k : Nat) (l : Lane) (x : Task), s.taskOf k = some x →
    (∀ (n : BitVec 12) tid r h, Alone s (.rowres w n) k l → siteHead x n.toNat = some h → l.resv = none →
      freeInChain x (siteChain x n.toNat) = some (tid, r) →
      ∃ t, exec (.rowres w n) s = .next t ∧
        Completes s ((s.modTask (s.taskNo k) (fun x => modTens x tid (fun e => setWord e 4 (setBit (wordOf e 4) r)))).setLane
          k { l with resv := some (tid, r) }) t (.rowres w n) k [(BitVec.ofNat 64 (tid * 256 + r), [])] none) ∧
    (∀ (n : BitVec 12) i tid r e, (i = .suspend w n ∨ i = .suspendk w n) → Alone s i k l → Quiet s k → l.back = 0 →
      siteHead x n.toNat ≠ none → mget x.tens tid = some e →
      (l.resv = none ∧ freeInChain x (siteChain x n.toNat) = some (tid, r) ∨ l.resv = some (tid, r) ∧ frSite e = n.toNat) →
      e.length = 8 → frK e = l.stk.length → (∀ h, siteHead x n.toNat = some h → frK ((mget x.tens h).getD []) = l.stk.length) →
      x.editing tid = false → r < 64 →
      ∃ t y rec, exec i s = .next t ∧ t.lane k = none ∧ t.task (s.taskNo k) = some y ∧
        (frOcc ((mget y.tens tid).getD [])).testBit r = true ∧ (frHeld ((mget y.tens tid).getD [])).testBit r = false ∧
        mget y.rows (64 * tid + r) = some rec ∧ rec.thx = l.thx ∧ rec.fctl = l.fctl ∧ rec.kept = decide (i = .suspendk w n) ∧
        ∀ j, j < l.stk.length →
          wordAt t (rowKey (sliceOf k) e r j) = ((l.stk.map (·.val)).getD (l.stk.length - 1 - j) 0).toNat) ∧
    (∀ h e, Alone s (.wakeRow w) k l → Quiet s k → h = (l.operand (.wakeRow w) 0).toNat → h < 65536 →
      mget x.tens (h / 256) = some e → e.length = 8 → isFrame e = true → h % 256 < frRows e → h % 256 < 64 →
      (s.waveHolds (s.taskNo k) (waveOf k) (h / 256) false false = true →
        exec (.wakeRow w) s = .next (s.setLane k (holding s (.wakeRow w) l (.tensor (h / 256)))).bump) ∧
      (s.waveHolds (s.taskNo k) (waveOf k) (h / 256) false false = false → s.binBusy [k] = true →
        exec (.wakeRow w) s = .next (s.setLane k (holding s (.wakeRow w) l .bin)).bump) ∧
      (s.waveHolds (s.taskNo k) (waveOf k) (h / 256) false false = false → s.binBusy [k] = false →
      ∃ u t y, exec (.wakeRow w) s = .next t ∧ Completes s u t (.wakeRow w) k [] none ∧ u.mem = s.mem ∧
        u.task (s.taskNo k) = some y ∧ ∀ q, q < 64 → (frWake ((mget y.tens (h / 256)).getD [])).testBit q =
          ((frWake e).testBit q || (q == h % 256 && ((frHeld e).testBit q || (frOcc e).testBit q))))) ∧
    (∀ (n : BitVec 12) i, (i = .wakeSite w n ∨ i = .flush w n) → Alone s i k l → s.binBusy [k] = true →
      exec i s = .next (s.setLane k (holding s i l .bin)).bump) ∧
    (∀ (n : BitVec 12) tid e, Alone s (.wakeSite w n) k l → Quiet s k → s.binBusy [k] = false → siteChain x n.toNat = [tid] →
      mget x.tens tid = some e → e.length = 8 →
      ∃ u t y, exec (.wakeSite w n) s = .next t ∧ Completes s u t (.wakeSite w n) k [] none ∧
        u.task (s.taskNo k) = some y ∧ ∀ q, q < 64 → (frWake ((mget y.tens tid).getD [])).testBit q =
          ((frWake e).testBit q || (frHeld e).testBit q || (frOcc e).testBit q)) ∧
    (∀ n : Nat, Alone s (.wakeThr w) k l → n = (l.operand (.wakeThr w) 0).toNat →
      (∀ pre post j m, s.lanes = pre ++ (j, m) :: post → atMwaitOf s k n (j, m) → (∀ p, p ∈ pre → ¬ atMwaitOf s k n p) →
        ∃ t, exec (.wakeThr w) s = .next t ∧ Completes s (s.modLane j (fun m => { m with wait := .none })) t (.wakeThr w) k []
          none) ∧
      ((∀ p, p ∈ s.lanes → ¬ atMwaitOf s k n p) →
        ∃ t, exec (.wakeThr w) s = .next t ∧ Completes s s t (.wakeThr w) k [] none)) ∧
    (∀ (n : BitVec 12) tid e, Alone s (.flush w n) k l → Quiet s k → s.binBusy [k] = false → siteChain x n.toNat = [tid] →
      mget x.tens tid = some e →
      ∃ u t y, exec (.flush w n) s = .next t ∧ Completes s u t (.flush w n) k [] none ∧ u.task (s.taskNo k) = some y ∧
        y.tens = x.tens ∧ ∀ q, q ∈ readyRows e → (mgetD y.due tid 0).testBit q = true)) ∧
  (∀ (s : State) (tn tid row : Nat) (x : Task) (e : List Word) (r : RowRec), s.task tn = some x → mget x.tens tid = some e →
    e.length = 8 → mget x.rows (64 * tid + row) = some r → isFrame e = true → row < 64 → (frOcc e).testBit row = true →
    s.take = some x.vf → mget x.before tid = none → r.aged = false → frAge e ≠ 0 → r.since + frAge e ≤ s.now →
    ∃ t y, exec (.frameAgeExpiry tn tid row) s = .next t ∧ t.task tn = some y ∧
      (frWake ((mget y.tens tid).getD [])).testBit row = true ∧ (mgetD y.due tid 0).testBit row = true) ∧
  (∀ (s : State) (tn tid slice place r : Nat) (x : Task) (e : List Word) (rec : RowRec), s.bad = none → s.task tn = some x →
    mget x.tens tid = some e → dueRows x tid s.now = [r] → mget x.rows (64 * tid + r) = some rec → place < 48 →
    Uncontested s (rowKey slice e r 0) (8 * frK e) →
    x.members.contains slice = true → s.mayRun x.space = true → x.editing tid = false →
    s.fitsWave tn (placeKey slice place) (frRslots e) (frRsb e) = true → frK e ≤ 8 + 8 * frRsb e →
    ∃ t m y, exec (.resumeLoad tn tid slice place) s = .next t ∧ t.lane (placeKey slice place * 32) = some m ∧
      m.thx = rec.thx ∧ m.fctl = rec.fctl ∧ m.pc = (e.getD 3 0) &&& 0x00FFFFFFFFFFFFFF#64 ∧ m.ts.mode = .u ∧ m.ts.tlvl = 0 ∧
      m.back = 0 ∧ m.stk.map (·.val) = (List.range (frK e)).map (fun j =>
        BitVec.ofNat 64 (wordAt s (rowKey slice e r (frK e - 1 - j)))) ∧
      t.mem = s.mem ∧ t.task tn = some y ∧ (frOcc ((mget y.tens tid).getD [])).testBit r = false ∧
      (frWake ((mget y.tens tid).getD [])).testBit r = false)

/-- R242, R266, R271 to R278: `mm` and `mms` put a command in the queue of the slice, or in its gate list, and go on, or wait for an
entry; `mmstage` fills a staging slot, `mmflag` tells its state and `mmflag.drop` empties it. A command whose copies have
landed enters the queue; the head of the queue begins, alone, with the other members of its gang when the last of them
has come, or with those that have come when the window ends; what it stores in C is what R35 and R269 give; when it completes, its
counter falls by the bytes of C, with the status of a failure. That a staged command counts, from its entry on, for the wave in which
its thread is then is the model's reading (DEDUCED: log entry 30), and that a command reads its operands and writes C when it begins is the
model's choice (DESIGN CHOICE: log entry 31). -/
def Obligations.MatrixCommandsComplete : Prop :=
  (∀ (s : State) (i : Instr) (k : Nat) (l : Lane) (sparse acc fo : Bool) (tag : Nat) (a b g : Geom),
    mmForm i = some (sparse, acc, fo, tag) → Alone s i k l →
    s.mEntries (s.taskNo k) (mOperands i l).1 (mOperands i l).2.1 (mOperands i l).2.2.1 (mOperands i l).2.2.2 = .inr (a, b, g) →
    s.mHolds k (mOperands i l).1 (mOperands i l).2.1 (mOperands i l).2.2.1 false = none →
    (s.mWaiters (sliceOf k) fo = [] → (s.slice (sliceOf k)).mRoom fo = true →
      ∃ u t c, exec i s = .next t ∧ Completes s u t i k [] none ∧ describes s i k l sparse acc tag a b c ∧ u.mem = s.mem ∧
        u.lanes = s.lanes ∧
        (fo = false → (u.slice (sliceOf k)).mq = (s.slice (sliceOf k)).mq ++ [c]) ∧
        (fo = true → c.gates = s.copiesOf (waveOf k) ∧
          (u.slice (sliceOf k)).gates = (s.slice (sliceOf k)).gates ++ [c])) ∧
    (s.mWaiters (sliceOf k) fo ≠ [] ∨ (s.slice (sliceOf k)).mRoom fo = false →
      exec i s = .next (s.setLane k (issued s i l (if fo then .gate i else .mQueue i))).bump)) ∧
  (∀ (w : StallL) (acc sp : Bool) (tag : BitVec 3) (j : BitVec 2) (s : State) (k : Nat) (l : Lane),
    (∀ i a b g, i = .mmstage w acc sp tag j → Alone s i k l →
      s.mEntries (s.taskNo k) (mOperands i l).1 (mOperands i l).2.1 (mOperands i l).2.2.1 (mOperands i l).2.2.2 = .inr (a, b, g) →
      s.mHolds k (mOperands i l).1 (mOperands i l).2.1 (mOperands i l).2.2.1 true = none →
      mget (s.slice (sliceOf k)).stages j.toNat = none →
      ∃ u t c, exec i s = .next t ∧ Completes s u t i k [] none ∧ describes s i k l sp acc tag.toNat a b c ∧
        mget (u.slice (sliceOf k)).stages j.toNat = some { cmd := c } ∧ u.mem = s.mem) ∧
    (Alone s (.mmflag w j) k l → ∃ v t, exec (.mmflag w j) s = .next t ∧ Completes s s t (.mmflag w j) k [(v, [])] none ∧
      (mget (s.slice (sliceOf k)).stages j.toNat = none → v = 0) ∧
      (∀ st, mget (s.slice (sliceOf k)).stages j.toNat = some st → st.cmd.task ≠ s.taskNo k → v = 3) ∧
      (∀ st, mget (s.slice (sliceOf k)).stages j.toNat = some st → st.cmd.task = s.taskNo k →
        v = BitVec.ofNat 64 ((if st.copy.isSome then 2 else 1) + st.cmd.ctr % 256 * 2 ^ 8 + st.cmd.tc % 256 * 2 ^ 16))) ∧
    (∀ st x, Alone s (.mmflagDrop w j) k l → mget (s.slice (sliceOf k)).stages j.toNat = some st → st.copy = none →
      st.cmd.task = s.taskNo k → s.taskOf k = some x →
      ∃ u t, exec (.mmflagDrop w j) s = .next t ∧ Completes s u t (.mmflagDrop w j) k [] none ∧
        mget (u.slice (sliceOf k)).stages j.toNat = none ∧
        (u.counter k st.cmd.ctr).val = (BitVec.ofInt 64 ((s.counter k st.cmd.ctr).val - st.cmd.amount)).toInt ∧
        ((s.counter k st.cmd.ctr).status = 0 → (u.counter k st.cmd.ctr).status = 0x0514))) ∧
  (∀ (slice k : Nat) (s : State) (i : Instr) (l : Lane) (sparse acc fo : Bool) (tag : Nat) (a b g : Geom) (s1 : State),
    mmForm i = some (sparse, acc, fo, tag) → s.mWaiters slice fo = [(k, l)] →
    l.wait = (if fo then .gate i else .mQueue i) → sliceOf k = slice → (s.slice slice).mRoom fo = true →
    s1 = { s with iss := { slice := slice, place := waveOf k % 48, lanes := [laneNo k] } } → Alone s1 i k l →
    s.mEntries (s.taskNo k) (mOperands i l).1 (mOperands i l).2.1 (mOperands i l).2.2.1 (mOperands i l).2.2.2 = .inr (a, b, g) →
    s.mHolds k (mOperands i l).1 (mOperands i l).2.1 (mOperands i l).2.2.1 false = none →
    ∃ u t0 t, exec (if fo then .gateEntryGrant slice else .matrixQueueGrant slice) s = .next t ∧
      Completes s1 u t0 i k [] none ∧
      t = t0.modLane k (fun m => { m with next := Nat.max l.next (s.cycle slice + 1) }) ∧
      (if fo then (u.slice slice).gates.length = (s.slice slice).gates.length + 1
        else (u.slice slice).mq.length = (s.slice slice).mq.length + 1)) ∧
  (∀ (slice n : Nat) (s : State) (c : MCmd), (s.slice slice).gates[n]? = some c →
    (∀ x, x ∈ c.gates → ∃ y, mget s.landed x = some y ∧ y.failed = none) → (s.slice slice).mq.length < 8 →
    ∃ t f, exec (.gatedCommandEntry slice n) s = .next t ∧
      (t.slice slice).mq = (s.slice slice).mq ++ [{ c with floor := f }] ∧
      (t.slice slice).gates = (s.slice slice).gates.eraseIdx n) ∧
  (∀ (slice n x : Nat) (s : State) (st : Stage) (g : Geom × Geom × Geom), mget (s.slice slice).stages n = some st →
    st.copy = some x → (∀ y, y = x ∨ y ∈ st.gates → ∃ z, mget s.landed y = some z ∧ z.failed = none) →
    (s.slice slice).mq.length < 8 → s.stageWaits st.cmd = false →
    s.mEntries st.cmd.task st.cmd.ta st.cmd.tb st.cmd.tc st.cmd.ctr = .inr g →
    ∃ t f, exec (.stagedCommandEntry slice n) s = .next t ∧
      (t.slice slice).mq = (s.slice slice).mq ++ [{ st.cmd with who := s.stageWho st.cmd, floor := f }] ∧
      mget (t.slice slice).stages n = none) ∧
  (∀ (slice : Nat) (s : State) (c : MCmd) (r : List MCmd) (x : Task), (s.slice slice).mq = c :: r → s.task c.task = some x →
    c.running = false →
    (c.windowed = false → (c.tag = 0 ∨ x.members.length ≤ 1) → ∃ t d, exec (.matrixCommandStart slice) s = .next t ∧
      (t.slice slice).mq = d :: r ∧ d.id = c.id ∧ d.running = true ∧ s.cycle slice ≤ d.due ∧ s.now ≤ d.until_ ∧
      ∀ a b g, s.mEntries c.task c.ta c.tb c.tc c.ctr = .inr (a, b, g) → c.sparse = false →
        d.due = s.cycle slice + bodyCycles false a b []) ∧
    (c.windowed = false → c.tag ≠ 0 → s.openMates c x.members = [] → 1 < x.members.length →
      ∃ t, exec (.matrixCommandStart slice) s = .next t ∧
        (t.slice slice).mq = { c with windowed := true, ready := s.now + 64 } :: r) ∧
    (c.windowed = false → c.tag ≠ 0 → 1 < x.members.length → x.members.Nodup → slice ∈ x.members →
      (∀ m, m ∈ x.members → m ≠ slice → m ∈ s.openMates c x.members) → ∃ t, exec (.matrixCommandStart slice) s = .next t ∧
        ∀ m, m ∈ x.members → begunWith s t m (· ∈ x.members)) ∧
    (c.windowed = true → s.now < c.ready → exec (.multicastWindowExpiry slice) s = .next s) ∧
    (c.windowed = true → c.ready ≤ s.now → x.members.Nodup → slice ∈ x.members →
      ∃ t, exec (.multicastWindowExpiry slice) s = .next t ∧ ∀ m,
        (joins s x.members c m → begunWith s t m (joins s x.members c)) ∧
        (¬ joins s x.members c m → (t.slice m).mq = (s.slice m).mq)) ∧
    (∀ a b g, c.windowed = false → (c.tag = 0 ∨ x.members.length ≤ 1) →
      s.mEntries c.task c.ta c.tb c.tc c.ctr = .inr (a, b, g) → ChipSettled s → cellsApart slice a b g →
      ∃ t, exec (.matrixCommandStart slice) s = .next t ∧
        (∀ i j, i < a.ext 1 → j < b.ext 0 → peeks t.mem (cKey slice g i j) 4 = leBytes 4 (cellAt s slice c a b g i j)) ∧
        ∀ y, (∀ i j, i < a.ext 1 → j < b.ext 0 → y < cKey slice g i j ∨ cKey slice g i j + 4 ≤ y) → t.byte y = s.byte y)) ∧
  (∀ (slice : Nat) (s : State) (c : MCmd) (r : List MCmd) (x : Task), (s.slice slice).mq = c :: r → s.task c.task = some x →
    c.running = true → c.until_ ≤ s.now →
    (∀ p d q, p ∈ c.mates → (s.slice p.1).mq = d :: q → d.id = p.2 → d.running = true → d.due ≤ s.cycle p.1) →
    ∃ t y, exec (.matrixCommandComplete slice) s = .next t ∧ (t.slice slice).mq = r ∧ t.task c.task = some y ∧
      (mgetD y.counters c.ctr {}).val = (BitVec.ofInt 64 ((mgetD x.counters c.ctr {}).val - c.amount)).toInt ∧
      (c.bad = none → t.mem = s.mem ∧ (mgetD y.counters c.ctr {}).status = (mgetD x.counters c.ctr {}).status) ∧
      (∀ q f, c.bad = some (q, f) → (mgetD x.counters c.ctr {}).status = 0 →
        (mgetD y.counters c.ctr {}).status = 1280 + q) ∧
      y.sati = (x.sati || c.sati))

/-- R196, R197, R201, R202, R205 to R207, R368: `spawn` enqueues a launch, or says that it could not; `spawnw` waits at the spawn-wait site
instead, and forms a wave when it is woken; a task is placed with its whole footprint, its waves form with one thread a
lane at the entry point, and it retires when nothing of it is left; tear-down leaves no task, launch or reel of its context, and reports it.
That the report goes to a physical address, that a spawn waits for the segment of a slow producer, and that the reel is
checked as one atomic access of 64 bytes, are the model's choices (DEDUCED: log entry 35), and so is the lane of a woken
thread (log entry 56). -/
def Obligations.TaskEventsComplete : Prop :=
  (∀ (w : StallL) (i : Instr) (s s1 : State) (k key : Nat) (l : Lane) (x : Task) (ap nt sl rl : Word), (i = .spawn w ∨ i = .spawnw w) →
    Alone s i k l → s.taskOf k = some x → Quiet s k → (ap, nt, sl, rl) = (l.operand i 3, l.operand i 2, l.operand i 1, l.operand i 0) →
    x.depth ≠ 7 → 0 < nt.toNat → nt.toNat ≤ 2 ^ 32 → s.access k l .atomic true rl 64 = (.ok key, s1) →
    (∀ u, (s1.release k .device).appendLaunch (s.spaceOf k) rl.toNat sl.toNat ap.toNat nt.toNat (x.depth + 1) = .ok u →
      ∃ t, exec i s = .next t ∧ Completes s u t i k [(0, [])] none) ∧
    ((s1.release k .device).appendLaunch (s.spaceOf k) rl.toNat sl.toNat ap.toNat nt.toNat (x.depth + 1) = .wait →
      ∃ t, exec i s = .next t ∧ t.lane k = some (holding s i l .reel)) ∧
    ((s1.release k .device).appendLaunch (s.spaceOf k) rl.toNat sl.toNat ap.toNat nt.toNat (x.depth + 1) = .full →
      (i = .spawn w → ∃ t, exec i s = .next t ∧ Completes s (s1.release k .device) t i k [(1, [])] none) ∧
      (i = .spawnw w → (∀ e, e ∈ l.chip ++ l.hchip ++ s.slotsOf k → e.pend = false ∧ e.ready ≤ s.cycle (sliceOf k)) →
        (∀ j, j < l.g + l.chip.length → keyExists (s.backKey k { l with ts := { l.ts with tlvl := 0 } } j)) →
        (l.ts.tlvl ≠ 0 → ∀ j, j < l.hg + l.hchip.length → keyExists (s.backKey k l j)) →
        ∃ t y e, exec i s = .next t ∧ t.lane k = none ∧ t.task (s.taskNo k) = some y ∧ e ∈ y.spawned ∧
          e.lane.thx = l.thx ∧ e.lane.pc = l.pc ∧ e.reel = rl.toNat ∧ e.lane.g = l.g + l.chip.length ∧ e.lane.chip = []))) ∧
  (∀ (tn slice place : Nat) (s : State) (x : Task) (e : SpawnLane), s.bad = none → s.task tn = some x → x.woken = [e] →
    e.areas = [] → place < 48 →
    x.members.contains slice = true → s.mayRun x.space = true → s.fitsWave tn (placeKey slice place) x.slots x.sb = true →
    ∃ t y m, exec (.spawnWaitWake tn slice place) s = .next t ∧ t.task tn = some y ∧ y.woken = [] ∧
      t.lane (placeKey slice place * 32) = some m ∧ m.thx = e.lane.thx ∧ m.pc = e.lane.pc ∧ m.chip = e.lane.chip ∧
      m.g = e.lane.g) ∧
  (∀ (lk : Nat) (ms : List Nat) (s : State) (n : Launch) (xs : List Extent), mget s.launches lk = some n → n.checked = true →
    s.headsPool lk n = true → s.mayRun (spaceKey n.vf n.asid) = true → n.next < n.ntask → membersOk ms (slGang n.words) = true →
    s.fitsTask n.words ms = true → (s.cluster (ms.headD 0 / 6)).hold = [] → s.extentTable (spaceKey n.vf n.asid) (slExtents n.words) = some xs →
    ∃ t x, exec (.taskPlacement lk ms) s = .next t ∧ t.task s.nextId = some x ∧ x.members = ms ∧ x.taskx = n.next ∧
      x.argp = n.argp ∧ x.nth = slNth n.words ∧ x.extents = xs ∧ x.formed = 0 ∧
      mget t.launches lk = some { n with next := n.next + 1 } ∧ t.waves = s.waves ∧ t.lanes = s.lanes) ∧
  (∀ (tn place slice w : Nat) (s : State) (x : Task), s.task tn = some x →
    slice = x.members.getD (x.formed % Nat.max 1 x.members.length) 0 → w = placeKey slice place → 32 * x.formed < x.nth →
    place < 48 → s.mayRun x.space = true → s.wave w = none →
    (x.formed < x.members.length ∨ s.fitsWave tn w x.slots x.sb = true) →
    ∃ t v y, exec (.waveFormation tn place) s = .next t ∧ t.wave w = some v ∧ v.task = tn ∧ v.num = x.formed ∧
      v.nlb = x.slots ∧ v.sb = x.sb ∧ v.slots = [] ∧ t.task tn = some y ∧ y.formed = x.formed + 1 ∧
      ∀ j, j < 32 → 32 * x.formed + j < x.nth → ∃ m, t.lane (w * 32 + j) = some m ∧ m.thx = 32 * x.formed + j ∧
        m.pc = x.entry ∧ m.ts = { ilk := x.ilk } ∧ m.chip = [] ∧ m.fctl = 0) ∧
  (∀ (tn : Nat) (s : State) (x : Task), s.task tn = some x → s.mayRetire tn x = true →
    ∃ t, exec (.taskRetire tn) s = .next t ∧ t.task tn = none ∧ t.mem = s.mem ∧
      ∀ n, mget s.launches x.launch = some n →
        mget t.launches x.launch = if n.ntask ≤ n.retired + 1 then none else some { n with retired := n.retired + 1 }) ∧
  (∀ (vf asid report : Nat) (s : State), s.bad = none → keyExists report →
    ∃ t, exec (.tearDown vf asid report) s = .next t ∧ (t.ctx (spaceKey vf asid)).torn = true ∧
      (∀ p, p ∈ t.tasks → p.2.space ≠ spaceKey vf asid) ∧
      (∀ p, p ∈ t.launches → ¬ (p.2.vf = vf ∧ p.2.asid = asid)) ∧
      (∀ p, p ∈ t.reels → ¬ (p.2.vf = vf ∧ p.2.asid = asid)) ∧
      peeks t.mem report 64 = s.reportOf vf asid)

/-- R327, R328, R331 to R333, R367: an invalidation drops what it names from every TLB, and changes nothing else but releases;
`tlbinv.split` replaces a large page by a table of leaves; `replay` and `FRPLAY` let what is parked run again; the firmware
pops records, with a mapping where it has one, which is void outside the grant, and clears DROPPED. Where no link reaches the
frame its stores are discarded (R385), and `tlbinv.split` goes on. That it has status 1 where the middle table has no place,
and that in H mode va is one of the context's addresses, is the model's reading (DEDUCED: log entry 42), and so is how a mapping of the firmware enters the table (log entry 47). -/
def Obligations.TranslationInstructionsComplete : Prop :=
  (∀ (i : Instr) (p : TlbEnt → Prop) (s : State) (k : Nat) (l : Lane), Alone s i k l → invalidates s k l i = some p → Quiet s k →
    ∃ u t, exec i s = .next t ∧ Completes s u t i k [] none ∧
      u = { s with rels := u.rels, nextId := s.nextId + 1, slices := u.slices, sectors := u.sectors, dieTlbs := u.dieTlbs } ∧
      (∀ x, x ∈ u.slices → ∀ e, e ∈ x.2.tlb → ¬ p e) ∧ (∀ x, x ∈ u.sectors → ∀ e, e ∈ x.2.tlb → ¬ p e) ∧
      (∀ x, x ∈ u.dieTlbs → ∀ e, e ∈ x.2 → ¬ p e) ∧
      (∀ n e, e ∈ (s.slice n).tlb → ¬ p e → e ∈ (u.slice n).tlb)) ∧
  (∀ (w : StallL) (s s1 : State) (k key a : Nat) (l : Lane), Alone s (.tlbinvSplit w) k l → Quiet s k →
    s.reach k l .write true (l.operand (.tlbinvSplit w) 0) 65536 = (.ok key, s1) → keyExists key →
    (∀ c, isRemote key = true → s1.pageCause k l (l.operand (.tlbinvSplit w) 0).toNat = some c →
      exec (.tlbinvSplit w) s = finish (s1.takeTrap k (.tlbinvSplit w) c).bump) ∧
    ((isRemote key = true → s1.pageCause k l (l.operand (.tlbinvSplit w) 0).toNat = none) →
      (∀ lv, s1.middleOf (s.spaceOf k) ((l.operand (.tlbinvSplit w) 1).toNat % 2 ^ 56) = .inl lv →
        exec (.tlbinvSplit w) s = finish (({ s1 with free := s1.free + 1 } : State).takeTrap k (.tlbinvSplit w)
          (xlCause 5 ((l.operand (.tlbinvSplit w) 1).toNat % 2 ^ 56) .read 5 lv)).bump) ∧
      (s1.middleOf (s.spaceOf k) ((l.operand (.tlbinvSplit w) 1).toNat % 2 ^ 56) = .inr none →
        ∃ t, exec (.tlbinvSplit w) s = .next t ∧ Completes s s1 t (.tlbinvSplit w) k [(1, [])] none) ∧
      (s1.middleOf (s.spaceOf k) ((l.operand (.tlbinvSplit w) 1).toNat % 2 ^ 56) = .inr (some a) → Uncontested s a 8 →
        (isLarge (wordAt s a) = false →
          ∃ t, exec (.tlbinvSplit w) s = .next t ∧ Completes s s1 t (.tlbinvSplit w) k [(1, [])] none) ∧
        (isLarge (wordAt s a) = true → keyExists a → (a + 8 ≤ key ∨ key + 65536 ≤ a) →
          ∃ u t, exec (.tlbinvSplit w) s = .next t ∧ Completes s u t (.tlbinvSplit w) k [(0, [])] none ∧
            wordAt t a = tablePointer key % 2 ^ 64 ∧
            (s.cutOff key = false → ∀ n, n < 8192 → wordAt t (key + 8 * n) = (wordAt s a + 256 + 65536 * n) % 2 ^ 64) ∧
            ∀ b, (b < a ∨ a + 8 ≤ b) → (s.cutOff key = true ∨ b < key ∨ key + 65536 ≤ b) → t.byte b = s.byte b)))) ∧
  (∀ (w : StallL) (s : State) (k : Nat) (l : Lane), Alone s (.replay w) k l → Quiet s k →
    ∃ u t, exec (.replay w) s = .next t ∧ Completes s u t (.replay w) k [] none ∧ u.mem = s.mem ∧
      (∀ p, p ∈ u.lanes → p.2.wait = .parked → s.spaceOf p.1 ≠ s.spaceOf k) ∧
      (u.ctx (s.spaceOf k)).wheyHeld = false) ∧
  (∀ (vf asid : Nat) (s : State), ∃ t, exec (.frplay vf asid) s = .next t ∧ t.mem = s.mem ∧
    (∀ p, p ∈ t.lanes → p.2.wait = .parked → s.spaceOf p.1 ≠ spaceKey vf asid) ∧
    (t.ctx (spaceKey vf asid)).wheyHeld = false) ∧
  (∀ (sector : Nat) (leaf : Option Word) (s : State),
    (∃ t, exec (.fbstatPop ⟨sector, leaf⟩) s = .next t ∧ (t.sector sector).recs = (s.sector sector).recs.drop 1 ∧
      t.lanes = s.lanes ∧ (t.cluster (3 * sector)).regs = (s.cluster (3 * sector)).regs + 1 ∧
      (leaf = none → t.mem = s.mem) ∧
      (∀ r e, (s.sector sector).recs.head? = some r → leaf = some e →
        (∀ a, s.leafOf r.space r.page = some a → s.leafAllowed (r.space / 16384) e = true →
          wordAt t a = e.toNat ∧ ∀ b, b < a ∨ a + 8 ≤ b → t.byte b = s.byte b) ∧
        (s.leafOf r.space r.page = none ∨ s.leafAllowed (r.space / 16384) e = false → t.mem = s.mem))) ∧
    (∃ t, exec (.fbstatDroppedClear sector) s = .next t ∧ (t.sector sector).dropped = false ∧
      (t.sector sector).recs = (s.sector sector).recs ∧ t.lanes = s.lanes))

/-- R301, R305: `qpoint` passes a quiescent point in each active lane; no check of R64 turns it away in any mode. It has no other
effect but that the lane's bank operations complete first, which is the model's reading (DEDUCED: log entry 36). -/
def Obligations.QpointCompletes : Prop :=
  ∀ (w : StallS) (s : State),
    (∀ k l, l.atMeet = false → l.depth ≤ l.limit → s.check k l (.qpoint w) = none) ∧
    (∀ k l, Alone s (.qpoint w) k l →
      ∃ t, exec (.qpoint w) s = .next t ∧ Completes s (s.quiesce k) t (.qpoint w) k [] none) ∧
    (ReadyStrand s (.qpoint w) → (∀ k, k ∈ s.active → Quiet s k) → ∃ t, exec (.qpoint w) s = .next t ∧ Alike s t ∧ t.tasks = s.tasks ∧ OthersSame s t ∧
      EachDone s t (.qpoint w) (quiet s) (fun _ _ => []) (fun _ _ => none))

/-- R299, R300, R302, R304, R306 to R309: `waitgp` begins a grace period and waits, passive, until it is over; `defer`
appends a record to the whey queue; grace periods begin and, without a blocker, complete; a record that is due is delivered:
its block heads its list. The model's readings, and no rules: that a thread whose `waitgp` ends takes the current G as its
quiescent one (DEDUCED: log entry 36); that a delivery discards its record also where a line is in error or on a device
that no link reaches, judges the page of the block before that of the list, and is judged as an atomic (DESIGN CHOICE: log
entry 56). -/
def Obligations.GraceInstructionsComplete : Prop :=
  (∀ (w : StallS) (s : State) (k : Nat) (l : Lane),
    (Alone s (.waitgp w) k l → Quiet s k → (∀ n, l.wait ≠ .waitgp n) → l.ts.tlvl = 0 →
      ∃ t m, exec (.waitgp w) s = .next t ∧ t.lane k = some m ∧ m.wait = .waitgp ((s.ctx (s.spaceOf k)).gBegun + 1) ∧
        m.passive = true ∧ m.pc = l.pc ∧ (t.ctx (s.spaceOf k)).gBegun = (s.ctx (s.spaceOf k)).gBegun + 1 ∧ t.mem = s.mem) ∧
    (∀ n, Alone s (.waitgp w) k l → l.wait = .waitgp n → n ≤ (s.ctx (s.spaceOf k)).gDone →
      (∀ r, r ∈ (s.ctx (s.spaceOf k)).whey → n < r.gen) →
      ∃ t, exec (.waitgp w) s = .next t ∧ Completes s (s.setLane k { l with
        passive := false, qg := (s.ctx (s.spaceOf k)).gBegun, view := boundaryView s.rels (sliceOf k) .device l.view
        ord := s.nextId }) t (.waitgp w) k [] none) ∧
    (Alone s (.waitgp w) k l → (∀ n, l.wait ≠ .waitgp n) → l.ts.tlvl ≠ 0 →
      ∃ c, exec (.waitgp w) s = finish (s.takeTrap k (.waitgp w) c).bump ∧ c.group = 9 ∧ c.w0 = 6 ∧ c.w1 = BitVec.ofNat 32 l.ts.tlvl)) ∧
  (∀ (w : StallS) (s s1 s2 : State) (k ka kl : Nat) (l : Lane), Alone s (.defer w) k l → Quiet s k → l.wait ≠ .whey →
    s.access k l .write true (l.operand (.defer w) 2) 16 = (.ok ka, s1) →
    s1.access k l .atomic true (l.operand (.defer w) 0) 8 = (.ok kl, s2) →
    ((s.ctx (s.spaceOf k)).whey.length < 4096 →
      ∃ u t, exec (.defer w) s = .next t ∧ Completes s u t (.defer w) k [] none ∧ u.mem = s.mem ∧
        (u.ctx (s.spaceOf k)).whey = (s.ctx (s.spaceOf k)).whey ++
          [{ addr := l.operand (.defer w) 2, size := l.operand (.defer w) 1,
             list := l.operand (.defer w) 0, gen := (s.ctx (s.spaceOf k)).gBegun + 1 }] ∧
        (u.ctx (s.spaceOf k)).gBegun = (if (s.ctx (s.spaceOf k)).gDone = (s.ctx (s.spaceOf k)).gBegun
          then (s.ctx (s.spaceOf k)).gBegun + 1 else (s.ctx (s.spaceOf k)).gBegun)) ∧
    (4096 ≤ (s.ctx (s.spaceOf k)).whey.length → l.ts.tlvl = 0 →
      ∃ t m, exec (.defer w) s = .next t ∧ t.lane k = some m ∧ m.wait = .whey ∧ m.passive = true ∧ t.mem = s.mem) ∧
    (4096 ≤ (s.ctx (s.spaceOf k)).whey.length → l.ts.tlvl ≠ 0 →
      ∃ c, exec (.defer w) s = finish (s2.takeTrap k (.defer w) c).bump ∧ c.group = 9 ∧ c.w0 = 0x106 ∧
        c.w1 = BitVec.ofNat 32 l.ts.tlvl)) ∧
  (∀ (vf asid sp : Nat) (s : State), sp = spaceKey vf asid →
    ((s.ctx sp).gDone = (s.ctx sp).gBegun → (∃ r, r ∈ (s.ctx sp).whey ∧ (s.ctx sp).gBegun < r.gen) →
      exec (.gracePeriodBegin vf asid) s = .next (s.modCtx sp (fun c => { c with gBegun := c.gBegun + 1 }))) ∧
    ((s.ctx sp).gDone < (s.ctx sp).gBegun → s.blocked sp ((s.ctx sp).gDone + 1) = false →
      exec (.gracePeriodComplete vf asid) s = .next (s.modCtx sp (fun c => { c with gDone := c.gDone + 1 }))) ∧
    (∀ k l, (k, l) ∈ s.lanes → s.spaceOf k = sp → l.passive = false → l.qg ≤ (s.ctx sp).gDone →
      exec (.gracePeriodComplete vf asid) s = .next s) ∧
    (∀ r rest ka kl, (s.ctx sp).whey = r :: rest → (s.ctx sp).wheyHeld = false → r.gen ≤ (s.ctx sp).gDone →
      s.devPlace sp .atomic r.addr.toNat = .ok ka → s.devPlace sp .atomic r.list.toNat = .ok kl →
      s.broken ka 16 = false → s.broken kl 8 = false → s.cutOff ka = false → s.cutOff kl = false → (ka + 16 ≤ kl ∨ kl + 8 ≤ ka) →
      ∃ t, exec (.wheyDelivery vf asid) s = .next t ∧ (t.ctx sp).whey = rest ∧ wordAt t ka = wordAt s kl ∧
        wordAt t (ka + 8) = r.size.toNat ∧ wordAt t kl = r.addr.toNat ∧
        ∀ a, (a < ka ∨ ka + 16 ≤ a) → (a < kl ∨ kl + 8 ≤ a) → t.byte a = s.byte a) ∧
    (∀ r rest, (s.ctx sp).whey = r :: rest → (s.ctx sp).wheyHeld = false → r.gen ≤ (s.ctx sp).gDone →
      ((∃ f n, s.devPlace sp .atomic r.addr.toNat = .fault f n ∨
          (∃ ka, s.devPlace sp .atomic r.addr.toNat = .ok ka) ∧ s.devPlace sp .atomic r.list.toNat = .fault f n) →
        ∃ t, exec (.wheyDelivery vf asid) s = .next t ∧
          (t.ctx sp).wheyHeld = true ∧ (t.ctx sp).whey = r :: rest ∧ t.mem = s.mem) ∧
      ((∃ f n, s.devPlace sp .atomic r.addr.toNat = .prot f n ∨
          (∃ ka, s.devPlace sp .atomic r.addr.toNat = .ok ka) ∧ s.devPlace sp .atomic r.list.toNat = .prot f n) →
        exec (.wheyDelivery vf asid) s = .next ((s.modCtx sp (fun c => { c with whey := rest })).note (.wheyDiscarded vf asid))) ∧
      (∀ ka kl, s.devPlace sp .atomic r.addr.toNat = .ok ka → s.devPlace sp .atomic r.list.toNat = .ok kl →
        s.broken ka 16 = true ∨ s.broken kl 8 = true ∨ s.cutOff ka = true ∨ s.cutOff kl = true →
        exec (.wheyDelivery vf asid) s = .next ((s.modCtx sp (fun c => { c with whey := rest })).note (.wheyDiscarded vf asid)))))

/-- R179 to R184, R196, R351, R379, R382 to R384: a cut reaches a slice: it is due in each thread of the context there, and ends the
`mwait` of each; its deadline passes, and the waves of its context are saved and restored, those of a gang together; a slice
takes its ratio at a window; a control interval ends; a thermal limit, a failing unit and the host's write to `EVENT`
have their effects. That a restored thread keeps its chip and its split is the model's choice (DESIGN CHOICE: log entry 32);
that a thermal limit sets `EVENT` in every enabled virtual function, and that a machine check is posted to every context with
a wave on the slice, are log entry 39, and that a CUT whose target has no handler stays pending is log entry 34. -/
def Obligations.CutAndPowerEventsComplete : Prop :=
  (∀ (vf asid sp slice : Nat) (s : State), sp = spaceKey vf asid → (s.ctx sp).cut = true → mget (s.ctx sp).arrived slice = none →
    ∃ t, exec (.cutArrival vf asid slice) s = .next t ∧
      mget (t.ctx sp).arrived slice = some (s.cycle slice + (s.ctx sp).cutdl) ∧
      (∀ k l, s.lane k = some l → sliceOf k = slice → s.spaceOf k = sp →
        t.lane k = some { l with wait := if l.atMwait then .none else l.wait, cutDue := true }) ∧
      (∀ k, sliceOf k ≠ slice ∨ s.spaceOf k ≠ sp → t.lane k = s.lane k) ∧ t.mem = s.mem) ∧
  (∀ (vf asid sp slice d : Nat) (s : State), sp = spaceKey vf asid → mget (s.ctx sp).arrived slice = some d →
    (d ≤ s.cycle slice → ∃ t, exec (.cutDeadline vf asid slice) s = .next t ∧ t.cutOver sp slice = true ∧ t.lanes = s.lanes) ∧
    (s.cycle slice < d → exec (.cutDeadline vf asid slice) s = .next s)) ∧
  (∀ (slice place w : Nat) (s : State) (v : Wave) (x : Task), s.bad = none → w = placeKey slice place → place < 48 →
    s.wave w = some v → s.task v.task = some x →
    (∀ p, savedTogether s w v x p → SaveReady s x.space p.1 p.2) →
    ∃ t, exec (.waveSave slice place) s = .next t ∧ (s.ctx x.space).saved <+: (t.ctx x.space).saved ∧
      ∀ p, savedTogether s w v x p → s.wave p.1 = some p.2 → t.wave p.1 = none ∧ (∀ q, q ∈ t.lanes → waveOf q.1 ≠ p.1) ∧
        ∃ r, r ∈ (t.ctx x.space).saved ∧ r.wave.uid = p.2.uid ∧ r.wave.task = v.task ∧ r.slice = p.1 / 48 ∧
          r.lanes.map (fun q => (q.1, q.2.thx, q.2.pc)) =
            (s.waveLanes p.1).map (fun q => (laneNo q.1, q.2.thx, q.2.pc))) ∧
  (∀ (vf asid sp n slice place w : Nat) (s : State) (v : Saved) (x : Task), s.bad = none → sp = spaceKey vf asid →
    w = placeKey slice place → (s.ctx sp).saved[n]? = some v → s.task v.wave.task = some x → x.members.length ≤ 1 → place < 48 →
    s.mayRun sp = true → s.wave w = none → 0 < s.placesFree slice → v.wave.nlb + v.wave.sb ≤ s.blocksFree slice →
    x.members.contains slice = true → v.slice = slice → (s.slice slice).roomFor v = true → v.lanes ≠ [] →
    (v.lanes.map (·.1)).Nodup → (∀ p, p ∈ v.lanes → p.2.wait.barOf = none) →
    (v.areas = [] → ∃ t, exec (.waveRestore vf asid n slice place) s = .next t ∧ t.wave w = some v.wave ∧
      (t.ctx sp).saved = (s.ctx sp).saved.eraseIdx n ∧ t.mem = s.mem ∧ ∀ j m, (j, m) ∈ v.lanes → ∃ y,
        t.lane (w * 32 + j) = some y ∧ y.thx = m.thx ∧ y.pc = m.pc ∧ y.chip = m.chip ∧ y.ts = m.ts) ∧
    (∀ j m a b ls, v.lanes = [(j, m)] → j < 32 → v.areas = [(j, [a])] → 1 ≤ a.level → a.level ≤ 3 →
      b = areaAt (m.bases.reverse.getD (a.level - 1) 0) (w * 32 + j) → ls = levelLines a.level b → b + 4096 ≤ hbmSize →
      a.bytes.length = 64 * ls.length →
      ∃ t, exec (.waveRestore vf asid n slice place) s = .next t ∧ t.wave w = some v.wave ∧
        ∀ i line, ls[i]? = some line → peeks t.mem (64 * line) 64 = (a.bytes.drop (64 * i)).take 64 ∧
          (mget a.spoilt i ≠ none → t.isPoison (64 * line) 64 = true))) ∧
  (∀ (vf asid sp n slice place : Nat) (s : State) (v : Saved) (x : Task) (q : Nat → Nat), s.bad = none →
    sp = spaceKey vf asid → (s.ctx sp).saved[n]? = some v → v.slice = slice → q slice = place → s.task v.wave.task = some x →
    1 < x.members.length → s.mayRun sp = true → ((s.ctx sp).saved.map (·.slice)).Nodup →
    (∀ r, r ∈ (s.ctx sp).saved → ComesBack s x v.wave.task q r) →
    (∀ r p, r ∈ (s.ctx sp).saved → r.slice ≠ slice → p < q r.slice → s.wave (placeKey r.slice p) ≠ none) →
    ∃ t, exec (.waveRestore vf asid n slice place) s = .next t ∧ (t.ctx sp).saved = [] ∧
      ∀ r, r ∈ (s.ctx sp).saved → t.wave (placeKey r.slice (q r.slice)) = some r.wave ∧
        ∀ j m, (j, m) ∈ r.lanes → ∃ y, t.lane (placeKey r.slice (q r.slice) * 32 + j) = some y ∧ y.thx = m.thx ∧ y.pc = m.pc) ∧
  (∀ (vf asid n slice place : Nat) (s t : State) (v : Saved) (x : Task), (s.ctx (spaceKey vf asid)).saved[n]? = some v →
    v.lanes ≠ [] → s.task v.wave.task = some x → 1 < x.members.length →
    exec (.waveRestore vf asid n slice place) s = .next t → t = s ∨ ∀ r, r ∈ (t.ctx (spaceKey vf asid)).saved →
      r.wave.task = v.wave.task → r.lanes = []) ∧
  (∀ (slice code : Nat) (s : State),
    (s.now % 8 = 0 → code = s.ratioFor slice → ∃ t, exec (.clockRatioChange slice code) s = .next t ∧
      (t.slice slice).ratio = code ∧ (t.slice slice).cycle = s.cycle slice ∧ t.lanes = s.lanes) ∧
    (s.now % 8 ≠ 0 → exec (.clockRatioChange slice code) s = .next s)) ∧
  (∀ (c : Nat) (ds : List (Nat × Nat)) (hot : Bool) (s : State), s.now < (s.cluster c).since + 1200 →
    exec (.controlIntervalEnd c ds hot) s = .next s) ∧
  (∀ (c tn d : Nat) (hot : Bool) (s : State) (x : Task), (s.cluster c).since + 1200 ≤ s.now →
    s.tasks = [(tn, x)] → x.cluster = c → s.launches = [] →
    ∃ t y, exec (.controlIntervalEnd c [(tn, d)] hot) s = .next t ∧ (t.cluster c).intv = (s.cluster c).intv + 1 ∧
      (t.cluster c).regs = 0 ∧ (t.cluster c).refresh ≤ (s.cluster c).refreshCap ∧
      (∀ p, p ∈ t.budget → p.1 % 96 ≠ c) ∧ t.task tn = some y ∧ y.draw = d ∧
      (x.energy * ratioN x.tcode < 8 * d → x.tcode < 4 → y.tcode = x.tcode + 1 ∧ (t.ctx x.space).thr ≠ none) ∧
      (x.energy * ratioN x.tcode < 8 * d → 4 ≤ x.tcode → y.tcode = x.tcode ∧ y.trickle = true) ∧
      ∀ q, q < 6 → (t.slice (6 * c + q)).slow = hot) ∧
  (∀ (code : Nat) (s : State),
    (∀ d, ∃ t, exec (.thermalEvent (.die d) code) s = .next t ∧ (∀ q, q < 288 → (t.slice (288 * d + q)).thermal = Nat.min 4 code) ∧
      (∀ p, p ∈ s.vfs → (t.vf p.1).event.testBit 0 = true) ∧ Note.thermal (Nat.min 4 code) ∈ t.notes) ∧
    (∀ p, ∃ t, exec (.thermalEvent (.stack p) code) s = .next t ∧ mget t.stackHot p = some code ∧
      (∀ q, q ∈ s.vfs → (t.vf q.1).event.testBit 0 = true) ∧ t.slices = s.slices)) ∧
  (∀ (slice : Nat) (unit : Unit4) (s : State), ∃ t, exec (.machineCheck slice unit) s = .next t ∧ t.lanes = s.lanes ∧
    ∀ p x, p ∈ s.waves → p.1 / 48 = slice → s.task p.2.task = some x →
      (t.ctx x.space).mc ≠ none ∧ (t.vf (x.space / 16384)).event.testBit 2 = true) ∧
  (∀ (vf : Nat) (mask : BitVec 4) (s : State) (f : Vf), mget s.vfs vf = some f →
    exec (.eventClear vf mask) s = .next (s.modVf vf (fun f => { f with
      event := ((BitVec.ofNat 4 f.event) &&& ~~~mask).toNat })))

/-- R358 to R366, R386: a packet that starts moves HEAD on and has its effect; one with BARRIER waits for every earlier one; a WAIT is over when
its condition holds; a splice hands a finished segment on; a completion writes the status word; a kick makes a reel
pending, also one that is registered later; a tick of the scheduler maps a pending reel of the take, from its queue
control block where it has one, and a take that ends raises cuts and unmaps. It does not end while a context that had a grace boost
when it began is not restored whole (DESIGN CHOICE: log entry 33). The results 0 of a SIGNAL to an unmapped address and 8 of
a type that the slot does not run and of a misaligned COPY are the model's choices (DESIGN CHOICE: log entry 37), and that
the micros of the scheduler are counted by its ticks is log entry 38. -/
def Obligations.QueueEventsComplete : Prop :=
  (∀ (s : State) (i : Instr) (q rk : Nat) (ty : Option Nat) (r : Reel) (ws : List Word), Startable s i q rk ty r ws →
    ∃ t r', exec i s = .next t ∧ mget t.reels rk = some r' ∧ r'.head = r.head + 1 ∧ mget r'.infl r.head = some (ws.getD 7 0) ∧
      (ty = some 0 → mget r'.results r.head = some 0) ∧ (ty = none → mget r'.results r.head = some 8) ∧
      (ty = some 1 → ∃ id n, mget t.launches id = some n ∧ (n.vf, n.asid, n.rnum, n.idx) = (r.vf, r.asid, r.rnum, r.head) ∧
        (n.slate, n.argp, n.ntask, n.depth) = (wordOf ws 1, ws.getD 2 0, wordOf ws 3, wordOf ws 4) ∧
        (n.next, n.retired, n.checked) = (0, 0, false)) ∧
      (ty = some 2 → ∀ m, i = .copyPacket q m →
        (wordOf ws 3 / 64 = 0 → mget r'.results r.head = some 0 ∧ t.slices = s.slices) ∧
        (0 < wordOf ws 3 / 64 → mget r'.results r.head = mget r.results r.head ∧
          ∃ c, (t.slice m).copies = (s.slice m).copies ++ [c] ∧ LineCopy r ws c)) ∧
      (ty = some 3 → mget r'.results r.head = some 0 ∧ ∀ key,
        (s.takePacket rk r ws).devPlace r.space (if wordOf ws 3 = 0 then .write else .atomic) (wordOf ws 1) = .ok key →
        wordAt t key = if wordOf ws 3 = 0 then wordOf ws 2
          else (wordAt (s.takePacket rk r ws) key + wordOf ws 2) % 2 ^ 64) ∧
      (ty = some 4 → r'.waitOn = some (wordOf ws 1, ws.getD 2 0, wordOf ws 3 == 1) ∧ r'.waitPkt = (ws.drop 1).take 6 ∧
        t.mem = (s.takePacket rk r ws).mem) ∧
      (ty = some 6 → (spaceLive s r.space → (t.ctx r.space).cut = true ∧ r'.quiesce = some r.head) ∧
        (¬ spaceLive s r.space → (t.ctx r.space).cut = false ∧ mget r'.results r.head = some 0))) ∧
  (∀ (s : State) (i : Instr) (q n rk : Nat) (r : Reel) (ws : List Word), packetForm i = some (q, some n) → s.bad = none →
    s.slotReel q = some (rk, r) → mget s.reels rk = some r → s.packetAt r = some ws → packetType ws = some n →
    hasBarrier ws = true → r.infl ≠ [] → (∀ m, i = .copyPacket q m → (s.slice m).copies.length < 48) →
    exec i s = .next (s.modReel rk (fun r => { r with barrier := true }))) ∧
  (∀ (s : State) (q rk : Nat) (r : Reel), s.bad = none → s.slotReel q = some (rk, r) → s.packetAt r = none → r.reads = true →
    exec (.nopPacket q) s = .next (s.modReel rk (fun r => { r with pending := false }))) ∧
  (∀ (s : State) (q rk n : Nat) (r : Reel) (v : Word) (ge : Bool) (a : Nat), s.slotReel q = some (rk, r) → mget s.reels rk = some r →
    r.waitOn = some (a, v, ge) → s.devWord r.space a = some n → (if ge then v.toNat ≤ n else n = v.toNat) →
    ∃ t r', exec (.waitConditionMet q) s = .next t ∧ mget t.reels rk = some r' ∧ r'.waitOn = none ∧ r'.waitPkt = [] ∧
      mget r'.results (r.head - 1) = some 0 ∧ t.mem = s.mem) ∧
  (∀ (s : State) (q rk seg n : Nat) (r : Reel), s.bad = none → s.slotReel q = some (rk, r) → mget s.reels rk = some r →
    r.head / 63 ≠ r.segNo → s.headSeg r = some seg → s.devWord r.space (packetVa seg 63 + 8) = some n → n ≠ 0 →
    ∃ t r', exec (.splicePacket q) s = .next t ∧ mget t.reels rk = some r' ∧ r'.seg = n ∧ r'.segNo = r.segNo + 1 ∧
      t.lanes = s.lanes ∧
      ∀ pool h ks kp, s.reelPool r.space r.header = some pool → s.devWord r.space pool = some h →
        s.devPlace r.space .write seg = .ok ks → (ks + 8 ≤ kp ∨ kp + 8 ≤ ks) →
        (s.devStore ks (leBytes 8 h) .device).devPlace r.space .write pool = .ok kp →
        wordAt t ks = h ∧ wordAt t kp = (seg / 4096 * 4096 + (h + 1) % 4096) % 2 ^ 64) ∧
  (∀ (s : State) (vf rnum n res : Nat) (r : Reel) (cmpl : Word), s.bad = none → mget s.reels (reelKey vf rnum) = some r →
    mget r.results n = some res → mget r.infl n = some cmpl →
    ∃ t r', exec (.packetCompletion vf rnum n) s = .next t ∧ mget t.reels (reelKey vf rnum) = some r' ∧
      mget r'.results n = none ∧ mget r'.infl n = none ∧ (cmpl = 0 → t.mem = s.mem) ∧
      ∀ key, cmpl ≠ 0 → (published s).devPlace r.space .write cmpl.toNat = .ok key →
        wordAt t key = n % 2 ^ 32 * 2 ^ 32 + res % 256 ∧ ∀ a, (a < key ∨ key + 8 ≤ a) → t.byte a = s.byte a) ∧
  (∀ (s : State) (vf rnum : Nat), (∀ r, mget s.reels (reelKey vf rnum) = some r →
      ∃ t, exec (.kick vf rnum) s = .next t ∧ mget t.reels (reelKey vf rnum) = some { r with pending := true } ∧
        (r.slot = none → Note.kick vf rnum ∈ t.notes)) ∧
    (mget s.reels (reelKey vf rnum) = none →
      exec (.kick vf rnum) s = .next { s with
        kicked := mset s.kicked (reelKey vf rnum) (), notes := s.notes ++ [.kick vf rnum] })) ∧
  (∀ s : State,
    (s.ready = false → exec .schedulerTick s = .next { s with micros := s.micros + 50 }) ∧
    (∀ v r, s.ready = true → s.take = some v → s.ending = false → s.reels = [(reelKey r.vf r.rnum, r)] → r.vf = v →
      r.slot = none → r.pending = true →
      ∃ t r', exec .schedulerTick s = .next t ∧ t.micros = s.micros + 50 ∧ mget t.reels (reelKey r.vf r.rnum) = some r' ∧
        r'.slot = some 0 ∧ r'.since = s.micros + 50 ∧
        (r.block = [] → (r'.head, r'.header, r'.seg, r'.segNo) = (r.head, r.header, r.seg, r.segNo)) ∧
        (r.block ≠ [] → r'.header = leNat (r.block.take 8) ∧ r'.head = leNat ((r.block.drop 8).take 8)))) ∧
  (∀ (s : State) (v : Nat), s.take = some v → s.ending = false →
    (s.owes v = true → exec .takeEnd s = .next s) ∧
    (s.owes v = false → s.takeAt + (s.vf v).quantum ≤ s.micros →
      ∃ t, exec .takeEnd s = .next t ∧ t.lanes = s.lanes ∧
        ((∃ p, p ∈ s.ctxs ∧ p.1 / 16384 = v ∧ spaceLive s p.1) → t.ending = true ∧ t.take = some v) ∧
        ((¬ ∃ p, p ∈ s.ctxs ∧ p.1 / 16384 = v ∧ spaceLive s p.1) → t.ending = false ∧
          (t.take = none ∨ ∃ x, t.take = some x ∧ t.lastTake = x ∧ t.takeAt = s.micros ∧ (t.vf x).quantum ≠ 0)) ∧
        (∀ key r, mget s.reels key = some r → key = reelKey r.vf r.rnum → r.vf = v → ∃ r', mget t.reels key = some r' ∧
          r'.slot = none) ∧
        (∀ c, mget s.ctxs c ≠ none → c / 16384 = v → spaceLive s c → (t.ctx c).cut = true)) ∧
    (s.micros < s.takeAt + (s.vf v).quantum → exec .takeEnd s = .next s))

/-- R181, R322, R323, R340, R358, R374 to R377, R384 to R387: what the firmware, the host and the domain do: virtual functions, contexts and
reels are set up, a wheel that is not refused opens where its namespace is present, and closes, a flash command that
times out leaves its destination zero and poisoned, with status 0x0212, a function level reset tears its contexts down,
flits store, act atomically or fail, links go down, a device reset clears the device and sets READY where every image is verified, and an
attestation report is made. Grants, windows, namespaces and images are constants of Config (DESIGN CHOICE: log entry 14); that
a timed-out request fails so whatever it has found, and that a 64th refused flit takes the link down, is log entry 40; what a
device reset keeps is log entry 41; that the host's atomics arrive as flits of link 18 is log entry 48. -/
def Obligations.FirmwareEventsComplete : Prop :=
  (∀ (vf htvec hsbase : Nat) (s : State),
    (hsbase % 2 = 1 → vf < 16 → ∃ t, exec (.virtualFunctionEnable vf htvec hsbase) s = .next t ∧
      (inRange (Config.vfGrant vf) (hsbase / 4096 % 2 ^ 40 * 4096) areaBytes = true → ∃ f,
        t = { s with vfs := t.vfs } ∧ mget t.vfs vf = some f ∧ f.hsbase = BitVec.ofNat 64 hsbase &&& 0x000FFFFFFFFFF001#64 ∧
        f.htvec = BitVec.ofNat 64 htvec &&& 0x00FFFFFFFFFFFFFE#64 ∧ f.tdeleg = 0x777FE#64 ∧ f.event = 0) ∧
      (inRange (Config.vfGrant vf) (hsbase / 4096 % 2 ^ 40 * 4096) areaBytes = false → t = s)) ∧
    (hsbase % 2 = 0 ∨ 16 ≤ vf → exec (.virtualFunctionEnable vf htvec hsbase) s = .next s)) ∧
  (∀ (vf asid root : Nat) (s : State) (f : Vf), mget s.vfs vf = some f → asid < 16384 →
    (∀ p, p ∈ s.tasks → p.2.space ≠ spaceKey vf asid) →
    ∃ t, exec (.contextCreate vf asid root) s = .next t ∧ t = { s with ctxs := t.ctxs, vfs := t.vfs } ∧
      t.vf vf = { f with tdeleg := 0x777FE#64 } ∧
      t.ctx (spaceKey vf asid) = { root := BitVec.ofNat 64 root &&& 0x000FFFFFFFFE0000#64 } ∧
      (t.ctx (spaceKey vf asid)).cutdl = 65536) ∧
  (∀ (vf asid header rnum prio : Nat) (s : State) (c : Ctx), mget s.ctxs (spaceKey vf asid) = some c → rnum < 4096 →
    header % 256 = 0 → mget s.reels (reelKey vf rnum) = none →
    ∃ t r, exec (.reelRegistration vf asid header rnum prio) s = .next t ∧
      t = { s with reels := t.reels, kicked := mdel s.kicked (reelKey vf rnum) } ∧
      mget t.reels (reelKey vf rnum) = some r ∧ (r.vf, r.asid, r.rnum, r.header) = (vf, asid, rnum, header) ∧
      r.head = 0 ∧ r.slot = none ∧ r.pending = (mget s.kicked (reelKey vf rnum)).isSome ∧ r.since = s.micros ∧
      r.block.length = 256 ∧ leNat (r.block.take 8) = header % 2 ^ 64 ∧ leNat ((r.block.drop 8).take 8) = 0 ∧
      ∀ key, key ≠ reelKey vf rnum → mget t.reels key = mget s.reels key) ∧
  (∀ (vf drive ns base : Nat) (s : State),
    (∀ n rind, drive < 8 → ns ≠ 0 → ns < 4096 → s.wheelRefusal vf drive ns base = none → n < 256 → mget s.wheels n = none →
      (∀ m, m < n → mget s.wheels m ≠ none) → rind = peeks s.mem (flashKey drive ns (base * 4096)) 4096 →
      exec (.wheelOpen vf drive ns base) s = .next (if Config.nsPresent drive ns then { s with wheels := mset s.wheels n {
        drive := drive, ns := ns, base := base, nseg := leNat ((rind.drop 0x40).take 4), wkey := (rind.drop 0x60).take 32
        closing := false } } else s)) ∧
    (s.wheelRefusal vf drive ns base ≠ none → exec (.wheelOpen vf drive ns base) s = .next s)) ∧
  (∀ (n : Nat) (s : State) (w : Wheel), mget s.wheels n = some w →
    (s.wheelBusy w = false → exec (.wheelClose n) s = .next { s with wheels := mdel s.wheels n }) ∧
    (s.wheelBusy w = true → exec (.wheelClose n) s = .next { s with wheels := mset s.wheels n { w with closing := true } })) ∧
  (∀ (slice id req : Nat) (s s1 : State) (c : Copy) (q : Req) (x : Tried), s.bad = none → s.copyAt slice id = some c →
    c.reqs.find? (fun x => x.id == req) = some q → q.issued = true → q.done = false → (s.slice slice).parked id req = false →
    c.drive.isSome = true → s.tryReq c slice q = (x, s1) →
    ∃ t, exec (.nvmeTimeout slice id req) s = .next t ∧ t.lanes = s.lanes ∧
      ((geomOf c.dst).kind ≠ 4 →
        (∀ ws bad, x.out = .write ws bad →
          t.mem = ws.foldl (fun m p => pokes m p.1 (List.replicate p.2.length 0)) s.mem ∧
          ∀ p j, p ∈ ws → j < p.2.length → t.isPoison (p.1 + j) 1 = true) ∧
        ((∀ ws bad, x.out ≠ .write ws bad) → t.mem = s.mem)) ∧
      ((geomOf c.dst).kind = 4 → (∀ p, p ∈ c.out → 2 ^ 90 ≤ p.1) →
        (∀ ws bad, x.out = .write ws bad → ∀ p, p ∈ ws → 2 ^ 90 ≤ p.1) → ∀ a, a < 2 ^ 90 → t.byte a = s.byte a) ∧
      (∀ n tn y, c.ctr = some n → c.task = some tn → s.task tn = some y → ∃ z, t.task tn = some z ∧
        (mgetD z.counters n {}).status =
          if (mgetD y.counters n {}).status = 0 then 0x0212 else (mgetD y.counters n {}).status) ∧
      (∀ c', t.copyAt slice id = some c' → c'.failed ≠ none) ∧
      (t.copyAt slice id = none → ∃ z, mget t.landed id = some z ∧ z.failed ≠ none)) ∧
  (∀ (vf : Nat) (s : State), ∃ t, exec (.functionLevelReset vf) s = .next t ∧
    ∀ c, mget s.ctxs c ≠ none → c / 16384 = vf → (t.ctx c).torn = true ∧ ∀ p, p ∈ t.tasks → p.2.space ≠ c) ∧
  (∀ (link : Nat) (s : State), link < 18 →
    (∃ t, exec (.linkDown link) s = .next t ∧ mget t.linksDown link = some () ∧ t.mem = s.mem) ∧
    (mget s.linksDown link = none → ∀ ask, ∃ t, exec (.flit link ask false) s = .next t ∧ t.mem = s.mem ∧
      (if 64 ≤ mgetD s.retries link 0 + 1 then mget t.linksDown link = some ()
        else mget t.linksDown link = none ∧ mget t.retries link = some (mgetD s.retries link 0 + 1)))) ∧
  (∀ (ask : Option (Nat × Nat × OuterOp)) (s : State), exec (.flit 18 ask false) s = .next s) ∧
  (∀ (link : Nat) (ask : Option (Nat × Nat × OuterOp)) (s : State), link < 19 → mget s.linksDown link = none →
    ∃ t, exec (.flit link ask true) s = .next t ∧ mget t.retries link = none ∧ t.lanes = s.lanes ∧
      (ask = none → t.mem = s.mem) ∧
      (∀ dev a b, ask = some (dev, a, .store b) → (∀ x, x ≠ a → t.byte x = s.byte x) ∧
        t.byte a = if exportedAt link dev a then b else s.byte a) ∧
      (∀ dev a op wt v e n, ask = some (dev, a, .atomic op wt v e) → n = widthOf wt →
        (∀ x, x < a ∨ a + n ≤ x → t.byte x = s.byte x) ∧
        (Uncontested s a n → peeks t.mem a n =
          if exportedAt link dev a ∧ a % n = 0 ∧ s.broken a n = false ∧ (link = 18 → hostDoes op = true) then
            match atomicResult op (8 * n) (BitVec.ofNat _ (leNat (peeks s.mem a n))) (v.setWidth _) (e.setWidth _) with
            | some y => leBytes n y.toNat
            | none => peeks s.mem a n
          else peeks s.mem a n))) ∧
  (∀ s : State, ∃ t, exec .deviceReset s = .next t ∧ t.ready = Config.imagesVerified ∧ t.lanes = [] ∧ t.waves = [] ∧ t.tasks = [] ∧
    t.ctxs = [] ∧ t.vfs = [] ∧ t.reels = [] ∧ t.poison = [] ∧ t.ecc = [] ∧ t.device < 192 ∧
    (∀ key, (mget s.kicked key ≠ none ∨ ∃ r, mget s.reels key = some r ∧ r.pending = true) → mget t.kicked key ≠ none) ∧ (∀ a, a < hbmSize → t.byte a = 0) ∧
    (∀ a, 2 ^ 70 ≤ a → a < 2 ^ 90 → t.byte a = 0) ∧ ∀ a, hbmSize ≤ a → a < 2 ^ 70 → t.byte a = s.byte a) ∧
  (∀ (vf : Nat) (nonce : List Byte) (s : State) (f : Vf), mget s.vfs vf = some f → nonce.length = 32 →
    ∃ t b, exec (.attestationReport vf nonce) s = .next t ∧ t = { s with vfs := t.vfs } ∧
      mget t.vfs vf = some { f with reports := f.reports ++ [b] } ∧ b.length = 256 ∧ b.take 32 = nonce ∧
      (b.drop 34).take 2 = leBytes 2 vf)

/-- R39: bits 15:14 of the first halfword give the length, and nothing else does: bytes of that length decode to an instruction, and
what follows them is left. With R38, R41 and R42 the worked encodings of the encoding chapter decode to their statements. -/
def Obligations.SampleWordsDecode : Prop :=
  (∀ (lo hi : Byte) (tail : List Byte) (n : Nat),
    n = (if hi.toNat / 64 = 3 then 6 else if hi.toNat / 64 = 2 then 4 else 2) →
    (n ≤ tail.length + 2 → ∃ i, decode (lo :: hi :: tail) = .ok (i, (lo :: hi :: tail).drop n)) ∧
    (tail.length + 2 < n → ∃ x, decode (lo :: hi :: tail) = .error x)) ∧
  decode [0x7D, 0x20] = .ok (.lit 1 (-3), []) ∧
  decode [0x00, 0x24] = .ok (.add 1 .s32, []) ∧
  decode [0x80, 0x80, 0xF8, 0x4F] = .ok (.ld 0 .s32 (-8), []) ∧
  decode [0x0E, 0x91, 0x00, 0x60] = .ok (.atomAdd 2 .ar .device .w64 0, []) ∧
  decode [0x00, 0xC0, 0x34, 0x12, 0x78, 0x56] = .ok (.litx 0 0x12345678, [])

/-- R38, R39, R41 to R63: decoding the bytes of a well-formed instruction gives it back, with every field, and the bytes after
it; and words that decode to an assigned instruction are the ones that it encodes to, so that no bit is dropped and
nothing reserved is taken for an instruction. -/
def Obligations.DecodeEncode : Prop :=
  (∀ (i : Instr) (e : Enc) (rest : List Byte), i.wf = true → encode i = some e →
    (∀ x, i = .unassignedEncoding x → decodeEnc x = none) → decode (e.bytes ++ rest) = .ok (i, rest)) ∧
  (∀ (e : Enc) (i : Instr), decodeEnc e = some i → encode i = some e ∧ i.wf = true)

/-- R38 to R40, R134, R172: where nothing else is due and nothing whose time is open happens, a step runs the instruction that the bytes
at the PC of the next strand decode to, in the lanes of that strand, after the turn has been counted. -/
def Obligations.StepRunsInstruction : Prop :=
  (∀ (s s1 : State) (j c w : Nat) (v : Wave) (x : Turn) (i : Instr), s.inputs = [] → s.trapOrphans = none → s.trapStarved = none →
    s.noteDue = none → s.waitEnd = none → s.forced = none → s.nextResume = [] → choose s (s.elective.length + 1) = (j, s1) →
    s.elective.length ≤ j → s1.nextTurn = some (c, w, v, x) → s1.owedTrap x.strand.lanes = none → x.what = .instr i →
    step s = exec i (s1.takeTurn c w x) ∧ (s1.takeTurn c w x).active = x.strand.lanes ∧
    (s.bad = none → Begun (s1.takeTurn c w x)) ∧
    (∃ k l, x.strand.lanes.head? = some k ∧ s1.lane k = some l ∧ l.pc = x.strand.pc ∧ s1.fetchInstr k l = (.instr i, x.after))) ∧
  (∀ (s u t : State) (k : Nat) (l : Lane) (h bs : List Byte) (i : Instr), s.fetchHalf k l l.pc.toNat = (.half h, u) →
    u.fetchMore k l (l.pc.toNat + 2) (lengthOf (BitVec.ofNat 16 (leNat h)) - 1) h = (.half bs, t) → decode bs = .ok (i, []) →
    s.fetchInstr k l = (.instr i, t)) ∧
  (∀ (s s1 : State) (k va key : Nat) (l : Lane),
    s.translate (s.spaceOf k) (sliceOf k) (l.ts.mode == .h) (l.ts.mode == .u) .fetch (va % 2 ^ 56) = (.ok key, s1) →
    s.isPoison key 2 = false → s.isEcc key 2 = false → Uncontested s key 2 →
    s.fetchHalf k l va = (.half (peeks s.mem key 2), s1))

/-- The canonical form of memory is an invariant of every step: addresses rise strictly, and no byte is listed that reads as
an unlisted one (a convention of the model, DESIGN CHOICE: log entry 3). -/
def Obligations.StepKeepsMemory : Prop :=
  ∀ s t : State, s.MemWf → step s = .next t → t.MemWf

/-- R340, R384, R386 and the reset values that log entries 3 and 4 name (DESIGN CHOICE): at reset nothing is resident and nothing is enabled, READY is 0, every
byte reads as zero, and memory has its canonical form. -/
def Obligations.ResetState : Prop :=
  State.reset.MemWf ∧ (∀ a, State.reset.byte a = 0) ∧ State.reset.ready = false ∧ State.reset.take = none ∧
  (∀ k, State.reset.lane k = none) ∧ (∀ w, State.reset.wave w = none) ∧ (∀ n, State.reset.task n = none) ∧
  (∀ v, (State.reset.vf v).tdeleg = 0x777FE#64 ∧ (State.reset.vf v).hsbase = 0 ∧ (State.reset.vf v).event = 0) ∧
  (∀ c, (State.reset.ctx c).root = 0 ∧ (State.reset.ctx c).cutdl = 65536 ∧ (State.reset.ctx c).stvec = 0) ∧
  (∀ x, State.reset.cycle x = 0 ∧ State.reset.ratioOf x = 0)
end

