-- ==== Sys2Proof/Laws/Map.lean ====
section
/-! SUPPORT. Lookups in maps after an update, and the canonical form of maps and of memory. -/

namespace Sys2Proof.Machine

variable {α : Type}

@[simp] theorem mget_mset_self (m : Map α) (k : Nat) (v : α) : mget (mset m k v) k = some v := by
  induction m with
  | nil => simp [mset, mget]
  | cons p r ih =>
    obtain ⟨a, u⟩ := p
    simp only [mset]
    split
    · simp [mget]
    · split
      · simp [mget]
      · rename_i h1 h2
        simp [mget, h2, ih]

@[simp] theorem mget_mset_ne (m : Map α) {k j : Nat} (v : α) (h : j ≠ k) : mget (mset m k v) j = mget m j := by
  induction m with
  | nil => simp [mset, mget, h]
  | cons p r ih =>
    obtain ⟨a, u⟩ := p
    simp only [mset]
    split
    · simp [mget, h]
    · split
      · rename_i h1 h2
        subst h2
        simp [mget, h]
      · simp only [mget, ih]

theorem mget_mset (m : Map α) (k j : Nat) (v : α) : mget (mset m k v) j = if j = k then some v else mget m j := by
  by_cases h : j = k
  · subst h; simp
  · simp [h]

theorem mgetD_mset (m : Map α) (k j : Nat) (v d : α) : mgetD (mset m k v) j d = if j = k then v else mgetD m j d := by
  simp only [mgetD, mget_mset]
  split <;> simp

@[simp] theorem mgetD_mset_self (m : Map α) (k : Nat) (v d : α) : mgetD (mset m k v) k d = v := by
  simp [mgetD]

theorem mget_mmod (m : Map α) (k j : Nat) (f : α → α) :
    mget (mmod m k f) j = if j = k then (mget m k).map f else mget m j := by
  unfold mmod
  split
  · rename_i v h
    simp only [mget_mset, h, Option.map]
  · rename_i h
    split
    · rename_i e; subst e; simp [h]
    · rfl

/-- The keys of a map lie above a bound. -/
def keysAbove (b : Nat) : Map α → Prop
  | [] => True
  | (k, _) :: r => b < k ∧ keysAbove k r

theorem keysAbove.weaken {m : Map α} {a b : Nat} (h : keysAbove b m) (hab : a ≤ b) : keysAbove a m := by
  cases m with
  | nil => trivial
  | cons p r => exact ⟨Nat.lt_of_le_of_lt hab h.1, h.2⟩

theorem mapWf_cons (k : Nat) (v : α) (r : Map α) : mapWf ((k, v) :: r) = true ↔ keysAbove k r := by
  induction r generalizing k v with
  | nil => simp [mapWf, keysAbove]
  | cons p r ih =>
    obtain ⟨a, u⟩ := p
    simp only [mapWf, Bool.and_eq_true, decide_eq_true_eq, keysAbove]
    exact and_congr_right fun _ => ih a u

theorem mapWf_tail {k : Nat} {v : α} {r : Map α} (h : mapWf ((k, v) :: r) = true) : mapWf r = true := by
  cases r with
  | nil => rfl
  | cons p r => exact (mapWf_cons ..).2 ((mapWf_cons ..).1 h).2

theorem keysAbove_mset {m : Map α} {b k : Nat} (v : α) (h : keysAbove b m) (hb : b < k) : keysAbove b (mset m k v) := by
  induction m generalizing b with
  | nil => exact ⟨hb, trivial⟩
  | cons p r ih =>
    obtain ⟨a, u⟩ := p
    simp only [mset]
    split
    · exact ⟨hb, by assumption, h.2⟩
    · split
      · rename_i e; subst e; exact ⟨hb, h.2⟩
      · exact ⟨h.1, ih h.2 (by omega)⟩

/-- An update keeps keys rising. -/
theorem mapWf_mset {m : Map α} (k : Nat) (v : α) (h : mapWf m = true) : mapWf (mset m k v) = true := by
  cases m with
  | nil => rfl
  | cons p r =>
    obtain ⟨a, u⟩ := p
    have hr := (mapWf_cons ..).1 h
    simp only [mset]
    split
    · exact (mapWf_cons ..).2 ⟨by assumption, hr⟩
    · split
      · rename_i e; subst e; exact (mapWf_cons ..).2 hr
      · exact (mapWf_cons ..).2 (keysAbove_mset v hr (by omega))

theorem keysAbove_mdel {m : Map α} {b : Nat} (k : Nat) (h : keysAbove b m) : keysAbove b (mdel m k) := by
  induction m generalizing b with
  | nil => trivial
  | cons p r ih =>
    obtain ⟨a, u⟩ := p
    simp only [mdel]
    split
    · exact ih (h.2.weaken (Nat.le_of_lt h.1))
    · exact ⟨h.1, ih h.2⟩

theorem mapWf_mdel {m : Map α} (k : Nat) (h : mapWf m = true) : mapWf (mdel m k) = true := by
  induction m with
  | nil => rfl
  | cons p r ih =>
    obtain ⟨a, u⟩ := p
    have hr := (mapWf_cons ..).1 h
    simp only [mdel]
    split
    · exact ih (mapWf_tail h)
    · exact (mapWf_cons ..).2 (keysAbove_mdel k hr)

theorem mget_mdel_ne (m : Map α) {k j : Nat} (h : j ≠ k) : mget (mdel m k) j = mget m j := by
  induction m with
  | nil => rfl
  | cons p r ih =>
    obtain ⟨a, u⟩ := p
    simp only [mdel]
    split
    · rename_i e; subst e; simp only [mget, h, if_false, ih]
    · simp only [mget, ih]

/-- A removed key is gone. -/
@[simp] theorem mget_mdel_self (m : Map α) (k : Nat) : mget (mdel m k) k = none := by
  induction m with
  | nil => rfl
  | cons p r ih =>
    obtain ⟨a, u⟩ := p
    simp only [mdel]
    split
    · exact ih
    · rename_i e; simp only [mget, e, if_false, ih]

theorem mget_mdel (m : Map α) (k j : Nat) : mget (mdel m k) j = if j = k then none else mget m j := by
  by_cases h : j = k
  · subst h; simp
  · rw [if_neg h, mget_mdel_ne m h]

theorem all_mset {m : Map α} {q : Nat × α → Bool} (k : Nat) (v : α) (h : m.all q = true) (hq : q (k, v) = true) :
    (mset m k v).all q = true := by
  induction m with
  | nil => simp [mset, hq]
  | cons p r ih =>
    obtain ⟨a, u⟩ := p
    simp only [List.all_cons, Bool.and_eq_true] at h
    simp only [mset]
    split
    · simp [hq, h.1, h.2]
    · split
      · simp [hq, h.2]
      · simp [h.1, ih h.2]

theorem all_mdel {m : Map α} {q : Nat × α → Bool} (k : Nat) (h : m.all q = true) : (mdel m k).all q = true := by
  induction m with
  | nil => rfl
  | cons p r ih =>
    obtain ⟨a, u⟩ := p
    simp only [List.all_cons, Bool.and_eq_true] at h
    simp only [mdel]
    split
    · exact ih h.2
    · simp [h.1, ih h.2]

-- Memory.
theorem wf_nil : Memory.wf [] = true := rfl

/-- A write of one byte keeps the canonical form. -/
theorem poke_wf {m : Memory} (a : Nat) (b : Byte) (h : Memory.wf m = true) : Memory.wf (poke m a b) = true := by
  simp only [Memory.wf, Bool.and_eq_true] at h ⊢
  unfold poke
  split
  · exact ⟨mapWf_mdel a h.1, all_mdel a h.2⟩
  · rename_i hb
    exact ⟨mapWf_mset a b h.1, all_mset a b h.2 (by simpa using hb)⟩

/-- A write of several bytes keeps the canonical form. -/
theorem pokes_wf {m : Memory} (a : Nat) (bs : List Byte) (h : Memory.wf m = true) : Memory.wf (pokes m a bs) = true := by
  induction bs generalizing m a with
  | nil => exact h
  | cons b r ih => exact ih (a + 1) (poke_wf a b h)

/-- A byte that is written reads as written, and every other byte as before. -/
theorem peek_poke (m : Memory) (a x : Nat) (b : Byte) : peek (poke m a b) x = if x = a then b else peek m x := by
  unfold peek poke mgetD
  by_cases hb : b = 0
  · rw [if_pos hb, mget_mdel]
    split <;> simp [hb]
  · rw [if_neg hb, mget_mset]
    split <;> simp

/-- Bytes outside the written range read as before. -/
theorem peek_pokes_outside (m : Memory) (a x : Nat) (bs : List Byte) (hx : x < a ∨ a + bs.length ≤ x) :
    peek (pokes m a bs) x = peek m x := by
  induction bs generalizing m a with
  | nil => rfl
  | cons b r ih =>
    simp only [List.length_cons] at hx
    simp only [pokes]
    rw [ih _ (a + 1) (by omega), peek_poke, if_neg (by omega)]

/-- Bytes inside the written range read as written. -/
theorem peek_pokes_inside (m : Memory) (a : Nat) (bs : List Byte) (j : Nat) (hj : j < bs.length) :
    peek (pokes m a bs) (a + j) = bs.getD j 0 := by
  induction bs generalizing m a j with
  | nil => simp at hj
  | cons b r ih =>
    simp only [pokes]
    cases j with
    | zero =>
      rw [peek_pokes_outside _ (a + 1) (a + 0) r (by omega), peek_poke]
      simp
    | succ j =>
      rw [show a + (j + 1) = a + 1 + j by omega, ih _ (a + 1) j (by simpa using hj)]
      simp

end Sys2Proof.Machine
end

