-- ==== Sys2Proof/Laws/State.lean ====
section
/-! SUPPORT. What each update of the state leaves as it is: one lemma for each field. -/

namespace Sys2Proof.Machine

variable (s : State)

@[simp] theorem State.setLane_mem (k : Nat) (l : Lane) : (s.setLane k l).mem = s.mem := rfl
@[simp] theorem State.setLane_poison (k : Nat) (l : Lane) : (s.setLane k l).poison = s.poison := rfl
@[simp] theorem State.setLane_ecc (k : Nat) (l : Lane) : (s.setLane k l).ecc = s.ecc := rfl
@[simp] theorem State.setLane_parity (k : Nat) (l : Lane) : (s.setLane k l).parity = s.parity := rfl
@[simp] theorem State.setLane_log (k : Nat) (l : Lane) : (s.setLane k l).log = s.log := rfl
@[simp] theorem State.setLane_rels (k : Nat) (l : Lane) : (s.setLane k l).rels = s.rels := rfl
@[simp] theorem State.setLane_icinvs (k : Nat) (l : Lane) : (s.setLane k l).icinvs = s.icinvs := rfl
@[simp] theorem State.setLane_landed (k : Nat) (l : Lane) : (s.setLane k l).landed = s.landed := rfl
@[simp] theorem State.setLane_waves (k : Nat) (l : Lane) : (s.setLane k l).waves = s.waves := rfl
@[simp] theorem State.setLane_slices (k : Nat) (l : Lane) : (s.setLane k l).slices = s.slices := rfl
@[simp] theorem State.setLane_clusters (k : Nat) (l : Lane) : (s.setLane k l).clusters = s.clusters := rfl
@[simp] theorem State.setLane_sectors (k : Nat) (l : Lane) : (s.setLane k l).sectors = s.sectors := rfl
@[simp] theorem State.setLane_dieTlbs (k : Nat) (l : Lane) : (s.setLane k l).dieTlbs = s.dieTlbs := rfl
@[simp] theorem State.setLane_dieHot (k : Nat) (l : Lane) : (s.setLane k l).dieHot = s.dieHot := rfl
@[simp] theorem State.setLane_stackHot (k : Nat) (l : Lane) : (s.setLane k l).stackHot = s.stackHot := rfl
@[simp] theorem State.setLane_tasks (k : Nat) (l : Lane) : (s.setLane k l).tasks = s.tasks := rfl
@[simp] theorem State.setLane_launches (k : Nat) (l : Lane) : (s.setLane k l).launches = s.launches := rfl
@[simp] theorem State.setLane_ctxs (k : Nat) (l : Lane) : (s.setLane k l).ctxs = s.ctxs := rfl
@[simp] theorem State.setLane_vfs (k : Nat) (l : Lane) : (s.setLane k l).vfs = s.vfs := rfl
@[simp] theorem State.setLane_reels (k : Nat) (l : Lane) : (s.setLane k l).reels = s.reels := rfl
@[simp] theorem State.setLane_wheels (k : Nat) (l : Lane) : (s.setLane k l).wheels = s.wheels := rfl
@[simp] theorem State.setLane_budget (k : Nat) (l : Lane) : (s.setLane k l).budget = s.budget := rfl
@[simp] theorem State.setLane_ready (k : Nat) (l : Lane) : (s.setLane k l).ready = s.ready := rfl
@[simp] theorem State.setLane_device (k : Nat) (l : Lane) : (s.setLane k l).device = s.device := rfl
@[simp] theorem State.setLane_linksDown (k : Nat) (l : Lane) : (s.setLane k l).linksDown = s.linksDown := rfl
@[simp] theorem State.setLane_retries (k : Nat) (l : Lane) : (s.setLane k l).retries = s.retries := rfl
@[simp] theorem State.setLane_take (k : Nat) (l : Lane) : (s.setLane k l).take = s.take := rfl
@[simp] theorem State.setLane_ending (k : Nat) (l : Lane) : (s.setLane k l).ending = s.ending := rfl
@[simp] theorem State.setLane_lastTake (k : Nat) (l : Lane) : (s.setLane k l).lastTake = s.lastTake := rfl
@[simp] theorem State.setLane_takeAt (k : Nat) (l : Lane) : (s.setLane k l).takeAt = s.takeAt := rfl
@[simp] theorem State.setLane_micros (k : Nat) (l : Lane) : (s.setLane k l).micros = s.micros := rfl
@[simp] theorem State.setLane_notes (k : Nat) (l : Lane) : (s.setLane k l).notes = s.notes := rfl
@[simp] theorem State.setLane_nextId (k : Nat) (l : Lane) : (s.setLane k l).nextId = s.nextId := rfl
@[simp] theorem State.setLane_free (k : Nat) (l : Lane) : (s.setLane k l).free = s.free := rfl
@[simp] theorem State.setLane_inputs (k : Nat) (l : Lane) : (s.setLane k l).inputs = s.inputs := rfl
@[simp] theorem State.setLane_now (k : Nat) (l : Lane) : (s.setLane k l).now = s.now := rfl
@[simp] theorem State.setLane_cursor (k : Nat) (l : Lane) : (s.setLane k l).cursor = s.cursor := rfl
@[simp] theorem State.setLane_iss (k : Nat) (l : Lane) : (s.setLane k l).iss = s.iss := rfl
@[simp] theorem State.setLane_kicked (k : Nat) (l : Lane) : (s.setLane k l).kicked = s.kicked := rfl
@[simp] theorem State.setLane_bad (k : Nat) (l : Lane) : (s.setLane k l).bad = s.bad := rfl

@[simp] theorem State.modLane_mem (k : Nat) (f : Lane → Lane) : (s.modLane k f).mem = s.mem := by
  unfold State.modLane; split <;> rfl
@[simp] theorem State.modLane_poison (k : Nat) (f : Lane → Lane) : (s.modLane k f).poison = s.poison := by
  unfold State.modLane; split <;> rfl
@[simp] theorem State.modLane_ecc (k : Nat) (f : Lane → Lane) : (s.modLane k f).ecc = s.ecc := by
  unfold State.modLane; split <;> rfl
@[simp] theorem State.modLane_parity (k : Nat) (f : Lane → Lane) : (s.modLane k f).parity = s.parity := by
  unfold State.modLane; split <;> rfl
@[simp] theorem State.modLane_log (k : Nat) (f : Lane → Lane) : (s.modLane k f).log = s.log := by
  unfold State.modLane; split <;> rfl
@[simp] theorem State.modLane_rels (k : Nat) (f : Lane → Lane) : (s.modLane k f).rels = s.rels := by
  unfold State.modLane; split <;> rfl
@[simp] theorem State.modLane_icinvs (k : Nat) (f : Lane → Lane) : (s.modLane k f).icinvs = s.icinvs := by
  unfold State.modLane; split <;> rfl
@[simp] theorem State.modLane_landed (k : Nat) (f : Lane → Lane) : (s.modLane k f).landed = s.landed := by
  unfold State.modLane; split <;> rfl
@[simp] theorem State.modLane_waves (k : Nat) (f : Lane → Lane) : (s.modLane k f).waves = s.waves := by
  unfold State.modLane; split <;> rfl
@[simp] theorem State.modLane_slices (k : Nat) (f : Lane → Lane) : (s.modLane k f).slices = s.slices := by
  unfold State.modLane; split <;> rfl
@[simp] theorem State.modLane_clusters (k : Nat) (f : Lane → Lane) : (s.modLane k f).clusters = s.clusters := by
  unfold State.modLane; split <;> rfl
@[simp] theorem State.modLane_sectors (k : Nat) (f : Lane → Lane) : (s.modLane k f).sectors = s.sectors := by
  unfold State.modLane; split <;> rfl
@[simp] theorem State.modLane_dieTlbs (k : Nat) (f : Lane → Lane) : (s.modLane k f).dieTlbs = s.dieTlbs := by
  unfold State.modLane; split <;> rfl
@[simp] theorem State.modLane_dieHot (k : Nat) (f : Lane → Lane) : (s.modLane k f).dieHot = s.dieHot := by
  unfold State.modLane; split <;> rfl
@[simp] theorem State.modLane_stackHot (k : Nat) (f : Lane → Lane) : (s.modLane k f).stackHot = s.stackHot := by
  unfold State.modLane; split <;> rfl
@[simp] theorem State.modLane_tasks (k : Nat) (f : Lane → Lane) : (s.modLane k f).tasks = s.tasks := by
  unfold State.modLane; split <;> rfl
@[simp] theorem State.modLane_launches (k : Nat) (f : Lane → Lane) : (s.modLane k f).launches = s.launches := by
  unfold State.modLane; split <;> rfl
@[simp] theorem State.modLane_ctxs (k : Nat) (f : Lane → Lane) : (s.modLane k f).ctxs = s.ctxs := by
  unfold State.modLane; split <;> rfl
@[simp] theorem State.modLane_vfs (k : Nat) (f : Lane → Lane) : (s.modLane k f).vfs = s.vfs := by
  unfold State.modLane; split <;> rfl
@[simp] theorem State.modLane_reels (k : Nat) (f : Lane → Lane) : (s.modLane k f).reels = s.reels := by
  unfold State.modLane; split <;> rfl
@[simp] theorem State.modLane_wheels (k : Nat) (f : Lane → Lane) : (s.modLane k f).wheels = s.wheels := by
  unfold State.modLane; split <;> rfl
@[simp] theorem State.modLane_budget (k : Nat) (f : Lane → Lane) : (s.modLane k f).budget = s.budget := by
  unfold State.modLane; split <;> rfl
@[simp] theorem State.modLane_ready (k : Nat) (f : Lane → Lane) : (s.modLane k f).ready = s.ready := by
  unfold State.modLane; split <;> rfl
@[simp] theorem State.modLane_device (k : Nat) (f : Lane → Lane) : (s.modLane k f).device = s.device := by
  unfold State.modLane; split <;> rfl
@[simp] theorem State.modLane_linksDown (k : Nat) (f : Lane → Lane) : (s.modLane k f).linksDown = s.linksDown := by
  unfold State.modLane; split <;> rfl
@[simp] theorem State.modLane_retries (k : Nat) (f : Lane → Lane) : (s.modLane k f).retries = s.retries := by
  unfold State.modLane; split <;> rfl
@[simp] theorem State.modLane_take (k : Nat) (f : Lane → Lane) : (s.modLane k f).take = s.take := by
  unfold State.modLane; split <;> rfl
@[simp] theorem State.modLane_ending (k : Nat) (f : Lane → Lane) : (s.modLane k f).ending = s.ending := by
  unfold State.modLane; split <;> rfl
@[simp] theorem State.modLane_lastTake (k : Nat) (f : Lane → Lane) : (s.modLane k f).lastTake = s.lastTake := by
  unfold State.modLane; split <;> rfl
@[simp] theorem State.modLane_takeAt (k : Nat) (f : Lane → Lane) : (s.modLane k f).takeAt = s.takeAt := by
  unfold State.modLane; split <;> rfl
@[simp] theorem State.modLane_micros (k : Nat) (f : Lane → Lane) : (s.modLane k f).micros = s.micros := by
  unfold State.modLane; split <;> rfl
@[simp] theorem State.modLane_notes (k : Nat) (f : Lane → Lane) : (s.modLane k f).notes = s.notes := by
  unfold State.modLane; split <;> rfl
@[simp] theorem State.modLane_nextId (k : Nat) (f : Lane → Lane) : (s.modLane k f).nextId = s.nextId := by
  unfold State.modLane; split <;> rfl
@[simp] theorem State.modLane_free (k : Nat) (f : Lane → Lane) : (s.modLane k f).free = s.free := by
  unfold State.modLane; split <;> rfl
@[simp] theorem State.modLane_inputs (k : Nat) (f : Lane → Lane) : (s.modLane k f).inputs = s.inputs := by
  unfold State.modLane; split <;> rfl
@[simp] theorem State.modLane_now (k : Nat) (f : Lane → Lane) : (s.modLane k f).now = s.now := by
  unfold State.modLane; split <;> rfl
@[simp] theorem State.modLane_cursor (k : Nat) (f : Lane → Lane) : (s.modLane k f).cursor = s.cursor := by
  unfold State.modLane; split <;> rfl
@[simp] theorem State.modLane_iss (k : Nat) (f : Lane → Lane) : (s.modLane k f).iss = s.iss := by
  unfold State.modLane; split <;> rfl
@[simp] theorem State.modLane_kicked (k : Nat) (f : Lane → Lane) : (s.modLane k f).kicked = s.kicked := by
  unfold State.modLane; split <;> rfl
@[simp] theorem State.modLane_bad (k : Nat) (f : Lane → Lane) : (s.modLane k f).bad = s.bad := by
  unfold State.modLane; split <;> rfl

@[simp] theorem State.setSlice_mem (x : Nat) (v : Slice) : (s.setSlice x v).mem = s.mem := rfl
@[simp] theorem State.setSlice_poison (x : Nat) (v : Slice) : (s.setSlice x v).poison = s.poison := rfl
@[simp] theorem State.setSlice_ecc (x : Nat) (v : Slice) : (s.setSlice x v).ecc = s.ecc := rfl
@[simp] theorem State.setSlice_parity (x : Nat) (v : Slice) : (s.setSlice x v).parity = s.parity := rfl
@[simp] theorem State.setSlice_log (x : Nat) (v : Slice) : (s.setSlice x v).log = s.log := rfl
@[simp] theorem State.setSlice_rels (x : Nat) (v : Slice) : (s.setSlice x v).rels = s.rels := rfl
@[simp] theorem State.setSlice_icinvs (x : Nat) (v : Slice) : (s.setSlice x v).icinvs = s.icinvs := rfl
@[simp] theorem State.setSlice_landed (x : Nat) (v : Slice) : (s.setSlice x v).landed = s.landed := rfl
@[simp] theorem State.setSlice_lanes (x : Nat) (v : Slice) : (s.setSlice x v).lanes = s.lanes := rfl
@[simp] theorem State.setSlice_waves (x : Nat) (v : Slice) : (s.setSlice x v).waves = s.waves := rfl
@[simp] theorem State.setSlice_clusters (x : Nat) (v : Slice) : (s.setSlice x v).clusters = s.clusters := rfl
@[simp] theorem State.setSlice_sectors (x : Nat) (v : Slice) : (s.setSlice x v).sectors = s.sectors := rfl
@[simp] theorem State.setSlice_dieTlbs (x : Nat) (v : Slice) : (s.setSlice x v).dieTlbs = s.dieTlbs := rfl
@[simp] theorem State.setSlice_dieHot (x : Nat) (v : Slice) : (s.setSlice x v).dieHot = s.dieHot := rfl
@[simp] theorem State.setSlice_stackHot (x : Nat) (v : Slice) : (s.setSlice x v).stackHot = s.stackHot := rfl
@[simp] theorem State.setSlice_tasks (x : Nat) (v : Slice) : (s.setSlice x v).tasks = s.tasks := rfl
@[simp] theorem State.setSlice_launches (x : Nat) (v : Slice) : (s.setSlice x v).launches = s.launches := rfl
@[simp] theorem State.setSlice_ctxs (x : Nat) (v : Slice) : (s.setSlice x v).ctxs = s.ctxs := rfl
@[simp] theorem State.setSlice_vfs (x : Nat) (v : Slice) : (s.setSlice x v).vfs = s.vfs := rfl
@[simp] theorem State.setSlice_reels (x : Nat) (v : Slice) : (s.setSlice x v).reels = s.reels := rfl
@[simp] theorem State.setSlice_wheels (x : Nat) (v : Slice) : (s.setSlice x v).wheels = s.wheels := rfl
@[simp] theorem State.setSlice_budget (x : Nat) (v : Slice) : (s.setSlice x v).budget = s.budget := rfl
@[simp] theorem State.setSlice_ready (x : Nat) (v : Slice) : (s.setSlice x v).ready = s.ready := rfl
@[simp] theorem State.setSlice_device (x : Nat) (v : Slice) : (s.setSlice x v).device = s.device := rfl
@[simp] theorem State.setSlice_linksDown (x : Nat) (v : Slice) : (s.setSlice x v).linksDown = s.linksDown := rfl
@[simp] theorem State.setSlice_retries (x : Nat) (v : Slice) : (s.setSlice x v).retries = s.retries := rfl
@[simp] theorem State.setSlice_take (x : Nat) (v : Slice) : (s.setSlice x v).take = s.take := rfl
@[simp] theorem State.setSlice_ending (x : Nat) (v : Slice) : (s.setSlice x v).ending = s.ending := rfl
@[simp] theorem State.setSlice_lastTake (x : Nat) (v : Slice) : (s.setSlice x v).lastTake = s.lastTake := rfl
@[simp] theorem State.setSlice_takeAt (x : Nat) (v : Slice) : (s.setSlice x v).takeAt = s.takeAt := rfl
@[simp] theorem State.setSlice_micros (x : Nat) (v : Slice) : (s.setSlice x v).micros = s.micros := rfl
@[simp] theorem State.setSlice_notes (x : Nat) (v : Slice) : (s.setSlice x v).notes = s.notes := rfl
@[simp] theorem State.setSlice_nextId (x : Nat) (v : Slice) : (s.setSlice x v).nextId = s.nextId := rfl
@[simp] theorem State.setSlice_free (x : Nat) (v : Slice) : (s.setSlice x v).free = s.free := rfl
@[simp] theorem State.setSlice_inputs (x : Nat) (v : Slice) : (s.setSlice x v).inputs = s.inputs := rfl
@[simp] theorem State.setSlice_now (x : Nat) (v : Slice) : (s.setSlice x v).now = s.now := rfl
@[simp] theorem State.setSlice_cursor (x : Nat) (v : Slice) : (s.setSlice x v).cursor = s.cursor := rfl
@[simp] theorem State.setSlice_iss (x : Nat) (v : Slice) : (s.setSlice x v).iss = s.iss := rfl
@[simp] theorem State.setSlice_kicked (x : Nat) (v : Slice) : (s.setSlice x v).kicked = s.kicked := rfl
@[simp] theorem State.setSlice_bad (x : Nat) (v : Slice) : (s.setSlice x v).bad = s.bad := rfl

@[simp] theorem State.modSlice_mem (x : Nat) (f : Slice → Slice) : (s.modSlice x f).mem = s.mem := rfl
@[simp] theorem State.modSlice_poison (x : Nat) (f : Slice → Slice) : (s.modSlice x f).poison = s.poison := rfl
@[simp] theorem State.modSlice_ecc (x : Nat) (f : Slice → Slice) : (s.modSlice x f).ecc = s.ecc := rfl
@[simp] theorem State.modSlice_parity (x : Nat) (f : Slice → Slice) : (s.modSlice x f).parity = s.parity := rfl
@[simp] theorem State.modSlice_log (x : Nat) (f : Slice → Slice) : (s.modSlice x f).log = s.log := rfl
@[simp] theorem State.modSlice_rels (x : Nat) (f : Slice → Slice) : (s.modSlice x f).rels = s.rels := rfl
@[simp] theorem State.modSlice_icinvs (x : Nat) (f : Slice → Slice) : (s.modSlice x f).icinvs = s.icinvs := rfl
@[simp] theorem State.modSlice_landed (x : Nat) (f : Slice → Slice) : (s.modSlice x f).landed = s.landed := rfl
@[simp] theorem State.modSlice_lanes (x : Nat) (f : Slice → Slice) : (s.modSlice x f).lanes = s.lanes := rfl
@[simp] theorem State.modSlice_waves (x : Nat) (f : Slice → Slice) : (s.modSlice x f).waves = s.waves := rfl
@[simp] theorem State.modSlice_clusters (x : Nat) (f : Slice → Slice) : (s.modSlice x f).clusters = s.clusters := rfl
@[simp] theorem State.modSlice_sectors (x : Nat) (f : Slice → Slice) : (s.modSlice x f).sectors = s.sectors := rfl
@[simp] theorem State.modSlice_dieTlbs (x : Nat) (f : Slice → Slice) : (s.modSlice x f).dieTlbs = s.dieTlbs := rfl
@[simp] theorem State.modSlice_dieHot (x : Nat) (f : Slice → Slice) : (s.modSlice x f).dieHot = s.dieHot := rfl
@[simp] theorem State.modSlice_stackHot (x : Nat) (f : Slice → Slice) : (s.modSlice x f).stackHot = s.stackHot := rfl
@[simp] theorem State.modSlice_tasks (x : Nat) (f : Slice → Slice) : (s.modSlice x f).tasks = s.tasks := rfl
@[simp] theorem State.modSlice_launches (x : Nat) (f : Slice → Slice) : (s.modSlice x f).launches = s.launches := rfl
@[simp] theorem State.modSlice_ctxs (x : Nat) (f : Slice → Slice) : (s.modSlice x f).ctxs = s.ctxs := rfl
@[simp] theorem State.modSlice_vfs (x : Nat) (f : Slice → Slice) : (s.modSlice x f).vfs = s.vfs := rfl
@[simp] theorem State.modSlice_reels (x : Nat) (f : Slice → Slice) : (s.modSlice x f).reels = s.reels := rfl
@[simp] theorem State.modSlice_wheels (x : Nat) (f : Slice → Slice) : (s.modSlice x f).wheels = s.wheels := rfl
@[simp] theorem State.modSlice_budget (x : Nat) (f : Slice → Slice) : (s.modSlice x f).budget = s.budget := rfl
@[simp] theorem State.modSlice_ready (x : Nat) (f : Slice → Slice) : (s.modSlice x f).ready = s.ready := rfl
@[simp] theorem State.modSlice_device (x : Nat) (f : Slice → Slice) : (s.modSlice x f).device = s.device := rfl
@[simp] theorem State.modSlice_linksDown (x : Nat) (f : Slice → Slice) : (s.modSlice x f).linksDown = s.linksDown := rfl
@[simp] theorem State.modSlice_retries (x : Nat) (f : Slice → Slice) : (s.modSlice x f).retries = s.retries := rfl
@[simp] theorem State.modSlice_take (x : Nat) (f : Slice → Slice) : (s.modSlice x f).take = s.take := rfl
@[simp] theorem State.modSlice_ending (x : Nat) (f : Slice → Slice) : (s.modSlice x f).ending = s.ending := rfl
@[simp] theorem State.modSlice_lastTake (x : Nat) (f : Slice → Slice) : (s.modSlice x f).lastTake = s.lastTake := rfl
@[simp] theorem State.modSlice_takeAt (x : Nat) (f : Slice → Slice) : (s.modSlice x f).takeAt = s.takeAt := rfl
@[simp] theorem State.modSlice_micros (x : Nat) (f : Slice → Slice) : (s.modSlice x f).micros = s.micros := rfl
@[simp] theorem State.modSlice_notes (x : Nat) (f : Slice → Slice) : (s.modSlice x f).notes = s.notes := rfl
@[simp] theorem State.modSlice_nextId (x : Nat) (f : Slice → Slice) : (s.modSlice x f).nextId = s.nextId := rfl
@[simp] theorem State.modSlice_free (x : Nat) (f : Slice → Slice) : (s.modSlice x f).free = s.free := rfl
@[simp] theorem State.modSlice_inputs (x : Nat) (f : Slice → Slice) : (s.modSlice x f).inputs = s.inputs := rfl
@[simp] theorem State.modSlice_now (x : Nat) (f : Slice → Slice) : (s.modSlice x f).now = s.now := rfl
@[simp] theorem State.modSlice_cursor (x : Nat) (f : Slice → Slice) : (s.modSlice x f).cursor = s.cursor := rfl
@[simp] theorem State.modSlice_iss (x : Nat) (f : Slice → Slice) : (s.modSlice x f).iss = s.iss := rfl
@[simp] theorem State.modSlice_kicked (x : Nat) (f : Slice → Slice) : (s.modSlice x f).kicked = s.kicked := rfl
@[simp] theorem State.modSlice_bad (x : Nat) (f : Slice → Slice) : (s.modSlice x f).bad = s.bad := rfl

@[simp] theorem State.setWave_mem (w : Nat) (v : Wave) : (s.setWave w v).mem = s.mem := rfl
@[simp] theorem State.setWave_poison (w : Nat) (v : Wave) : (s.setWave w v).poison = s.poison := rfl
@[simp] theorem State.setWave_ecc (w : Nat) (v : Wave) : (s.setWave w v).ecc = s.ecc := rfl
@[simp] theorem State.setWave_parity (w : Nat) (v : Wave) : (s.setWave w v).parity = s.parity := rfl
@[simp] theorem State.setWave_log (w : Nat) (v : Wave) : (s.setWave w v).log = s.log := rfl
@[simp] theorem State.setWave_rels (w : Nat) (v : Wave) : (s.setWave w v).rels = s.rels := rfl
@[simp] theorem State.setWave_icinvs (w : Nat) (v : Wave) : (s.setWave w v).icinvs = s.icinvs := rfl
@[simp] theorem State.setWave_landed (w : Nat) (v : Wave) : (s.setWave w v).landed = s.landed := rfl
@[simp] theorem State.setWave_lanes (w : Nat) (v : Wave) : (s.setWave w v).lanes = s.lanes := rfl
@[simp] theorem State.setWave_slices (w : Nat) (v : Wave) : (s.setWave w v).slices = s.slices := rfl
@[simp] theorem State.setWave_clusters (w : Nat) (v : Wave) : (s.setWave w v).clusters = s.clusters := rfl
@[simp] theorem State.setWave_sectors (w : Nat) (v : Wave) : (s.setWave w v).sectors = s.sectors := rfl
@[simp] theorem State.setWave_dieTlbs (w : Nat) (v : Wave) : (s.setWave w v).dieTlbs = s.dieTlbs := rfl
@[simp] theorem State.setWave_dieHot (w : Nat) (v : Wave) : (s.setWave w v).dieHot = s.dieHot := rfl
@[simp] theorem State.setWave_stackHot (w : Nat) (v : Wave) : (s.setWave w v).stackHot = s.stackHot := rfl
@[simp] theorem State.setWave_tasks (w : Nat) (v : Wave) : (s.setWave w v).tasks = s.tasks := rfl
@[simp] theorem State.setWave_launches (w : Nat) (v : Wave) : (s.setWave w v).launches = s.launches := rfl
@[simp] theorem State.setWave_ctxs (w : Nat) (v : Wave) : (s.setWave w v).ctxs = s.ctxs := rfl
@[simp] theorem State.setWave_vfs (w : Nat) (v : Wave) : (s.setWave w v).vfs = s.vfs := rfl
@[simp] theorem State.setWave_reels (w : Nat) (v : Wave) : (s.setWave w v).reels = s.reels := rfl
@[simp] theorem State.setWave_wheels (w : Nat) (v : Wave) : (s.setWave w v).wheels = s.wheels := rfl
@[simp] theorem State.setWave_budget (w : Nat) (v : Wave) : (s.setWave w v).budget = s.budget := rfl
@[simp] theorem State.setWave_ready (w : Nat) (v : Wave) : (s.setWave w v).ready = s.ready := rfl
@[simp] theorem State.setWave_device (w : Nat) (v : Wave) : (s.setWave w v).device = s.device := rfl
@[simp] theorem State.setWave_linksDown (w : Nat) (v : Wave) : (s.setWave w v).linksDown = s.linksDown := rfl
@[simp] theorem State.setWave_retries (w : Nat) (v : Wave) : (s.setWave w v).retries = s.retries := rfl
@[simp] theorem State.setWave_take (w : Nat) (v : Wave) : (s.setWave w v).take = s.take := rfl
@[simp] theorem State.setWave_ending (w : Nat) (v : Wave) : (s.setWave w v).ending = s.ending := rfl
@[simp] theorem State.setWave_lastTake (w : Nat) (v : Wave) : (s.setWave w v).lastTake = s.lastTake := rfl
@[simp] theorem State.setWave_takeAt (w : Nat) (v : Wave) : (s.setWave w v).takeAt = s.takeAt := rfl
@[simp] theorem State.setWave_micros (w : Nat) (v : Wave) : (s.setWave w v).micros = s.micros := rfl
@[simp] theorem State.setWave_notes (w : Nat) (v : Wave) : (s.setWave w v).notes = s.notes := rfl
@[simp] theorem State.setWave_nextId (w : Nat) (v : Wave) : (s.setWave w v).nextId = s.nextId := rfl
@[simp] theorem State.setWave_free (w : Nat) (v : Wave) : (s.setWave w v).free = s.free := rfl
@[simp] theorem State.setWave_inputs (w : Nat) (v : Wave) : (s.setWave w v).inputs = s.inputs := rfl
@[simp] theorem State.setWave_now (w : Nat) (v : Wave) : (s.setWave w v).now = s.now := rfl
@[simp] theorem State.setWave_cursor (w : Nat) (v : Wave) : (s.setWave w v).cursor = s.cursor := rfl
@[simp] theorem State.setWave_iss (w : Nat) (v : Wave) : (s.setWave w v).iss = s.iss := rfl
@[simp] theorem State.setWave_kicked (w : Nat) (v : Wave) : (s.setWave w v).kicked = s.kicked := rfl
@[simp] theorem State.setWave_bad (w : Nat) (v : Wave) : (s.setWave w v).bad = s.bad := rfl

@[simp] theorem State.modWave_mem (w : Nat) (f : Wave → Wave) : (s.modWave w f).mem = s.mem := rfl
@[simp] theorem State.modWave_poison (w : Nat) (f : Wave → Wave) : (s.modWave w f).poison = s.poison := rfl
@[simp] theorem State.modWave_ecc (w : Nat) (f : Wave → Wave) : (s.modWave w f).ecc = s.ecc := rfl
@[simp] theorem State.modWave_parity (w : Nat) (f : Wave → Wave) : (s.modWave w f).parity = s.parity := rfl
@[simp] theorem State.modWave_log (w : Nat) (f : Wave → Wave) : (s.modWave w f).log = s.log := rfl
@[simp] theorem State.modWave_rels (w : Nat) (f : Wave → Wave) : (s.modWave w f).rels = s.rels := rfl
@[simp] theorem State.modWave_icinvs (w : Nat) (f : Wave → Wave) : (s.modWave w f).icinvs = s.icinvs := rfl
@[simp] theorem State.modWave_landed (w : Nat) (f : Wave → Wave) : (s.modWave w f).landed = s.landed := rfl
@[simp] theorem State.modWave_lanes (w : Nat) (f : Wave → Wave) : (s.modWave w f).lanes = s.lanes := rfl
@[simp] theorem State.modWave_slices (w : Nat) (f : Wave → Wave) : (s.modWave w f).slices = s.slices := rfl
@[simp] theorem State.modWave_clusters (w : Nat) (f : Wave → Wave) : (s.modWave w f).clusters = s.clusters := rfl
@[simp] theorem State.modWave_sectors (w : Nat) (f : Wave → Wave) : (s.modWave w f).sectors = s.sectors := rfl
@[simp] theorem State.modWave_dieTlbs (w : Nat) (f : Wave → Wave) : (s.modWave w f).dieTlbs = s.dieTlbs := rfl
@[simp] theorem State.modWave_dieHot (w : Nat) (f : Wave → Wave) : (s.modWave w f).dieHot = s.dieHot := rfl
@[simp] theorem State.modWave_stackHot (w : Nat) (f : Wave → Wave) : (s.modWave w f).stackHot = s.stackHot := rfl
@[simp] theorem State.modWave_tasks (w : Nat) (f : Wave → Wave) : (s.modWave w f).tasks = s.tasks := rfl
@[simp] theorem State.modWave_launches (w : Nat) (f : Wave → Wave) : (s.modWave w f).launches = s.launches := rfl
@[simp] theorem State.modWave_ctxs (w : Nat) (f : Wave → Wave) : (s.modWave w f).ctxs = s.ctxs := rfl
@[simp] theorem State.modWave_vfs (w : Nat) (f : Wave → Wave) : (s.modWave w f).vfs = s.vfs := rfl
@[simp] theorem State.modWave_reels (w : Nat) (f : Wave → Wave) : (s.modWave w f).reels = s.reels := rfl
@[simp] theorem State.modWave_wheels (w : Nat) (f : Wave → Wave) : (s.modWave w f).wheels = s.wheels := rfl
@[simp] theorem State.modWave_budget (w : Nat) (f : Wave → Wave) : (s.modWave w f).budget = s.budget := rfl
@[simp] theorem State.modWave_ready (w : Nat) (f : Wave → Wave) : (s.modWave w f).ready = s.ready := rfl
@[simp] theorem State.modWave_device (w : Nat) (f : Wave → Wave) : (s.modWave w f).device = s.device := rfl
@[simp] theorem State.modWave_linksDown (w : Nat) (f : Wave → Wave) : (s.modWave w f).linksDown = s.linksDown := rfl
@[simp] theorem State.modWave_retries (w : Nat) (f : Wave → Wave) : (s.modWave w f).retries = s.retries := rfl
@[simp] theorem State.modWave_take (w : Nat) (f : Wave → Wave) : (s.modWave w f).take = s.take := rfl
@[simp] theorem State.modWave_ending (w : Nat) (f : Wave → Wave) : (s.modWave w f).ending = s.ending := rfl
@[simp] theorem State.modWave_lastTake (w : Nat) (f : Wave → Wave) : (s.modWave w f).lastTake = s.lastTake := rfl
@[simp] theorem State.modWave_takeAt (w : Nat) (f : Wave → Wave) : (s.modWave w f).takeAt = s.takeAt := rfl
@[simp] theorem State.modWave_micros (w : Nat) (f : Wave → Wave) : (s.modWave w f).micros = s.micros := rfl
@[simp] theorem State.modWave_notes (w : Nat) (f : Wave → Wave) : (s.modWave w f).notes = s.notes := rfl
@[simp] theorem State.modWave_nextId (w : Nat) (f : Wave → Wave) : (s.modWave w f).nextId = s.nextId := rfl
@[simp] theorem State.modWave_free (w : Nat) (f : Wave → Wave) : (s.modWave w f).free = s.free := rfl
@[simp] theorem State.modWave_inputs (w : Nat) (f : Wave → Wave) : (s.modWave w f).inputs = s.inputs := rfl
@[simp] theorem State.modWave_now (w : Nat) (f : Wave → Wave) : (s.modWave w f).now = s.now := rfl
@[simp] theorem State.modWave_cursor (w : Nat) (f : Wave → Wave) : (s.modWave w f).cursor = s.cursor := rfl
@[simp] theorem State.modWave_iss (w : Nat) (f : Wave → Wave) : (s.modWave w f).iss = s.iss := rfl
@[simp] theorem State.modWave_kicked (w : Nat) (f : Wave → Wave) : (s.modWave w f).kicked = s.kicked := rfl
@[simp] theorem State.modWave_bad (w : Nat) (f : Wave → Wave) : (s.modWave w f).bad = s.bad := rfl

@[simp] theorem State.setTask_mem (n : Nat) (v : Task) : (s.setTask n v).mem = s.mem := rfl
@[simp] theorem State.setTask_poison (n : Nat) (v : Task) : (s.setTask n v).poison = s.poison := rfl
@[simp] theorem State.setTask_ecc (n : Nat) (v : Task) : (s.setTask n v).ecc = s.ecc := rfl
@[simp] theorem State.setTask_parity (n : Nat) (v : Task) : (s.setTask n v).parity = s.parity := rfl
@[simp] theorem State.setTask_log (n : Nat) (v : Task) : (s.setTask n v).log = s.log := rfl
@[simp] theorem State.setTask_rels (n : Nat) (v : Task) : (s.setTask n v).rels = s.rels := rfl
@[simp] theorem State.setTask_icinvs (n : Nat) (v : Task) : (s.setTask n v).icinvs = s.icinvs := rfl
@[simp] theorem State.setTask_landed (n : Nat) (v : Task) : (s.setTask n v).landed = s.landed := rfl
@[simp] theorem State.setTask_lanes (n : Nat) (v : Task) : (s.setTask n v).lanes = s.lanes := rfl
@[simp] theorem State.setTask_waves (n : Nat) (v : Task) : (s.setTask n v).waves = s.waves := rfl
@[simp] theorem State.setTask_slices (n : Nat) (v : Task) : (s.setTask n v).slices = s.slices := rfl
@[simp] theorem State.setTask_clusters (n : Nat) (v : Task) : (s.setTask n v).clusters = s.clusters := rfl
@[simp] theorem State.setTask_sectors (n : Nat) (v : Task) : (s.setTask n v).sectors = s.sectors := rfl
@[simp] theorem State.setTask_dieTlbs (n : Nat) (v : Task) : (s.setTask n v).dieTlbs = s.dieTlbs := rfl
@[simp] theorem State.setTask_dieHot (n : Nat) (v : Task) : (s.setTask n v).dieHot = s.dieHot := rfl
@[simp] theorem State.setTask_stackHot (n : Nat) (v : Task) : (s.setTask n v).stackHot = s.stackHot := rfl
@[simp] theorem State.setTask_launches (n : Nat) (v : Task) : (s.setTask n v).launches = s.launches := rfl
@[simp] theorem State.setTask_ctxs (n : Nat) (v : Task) : (s.setTask n v).ctxs = s.ctxs := rfl
@[simp] theorem State.setTask_vfs (n : Nat) (v : Task) : (s.setTask n v).vfs = s.vfs := rfl
@[simp] theorem State.setTask_reels (n : Nat) (v : Task) : (s.setTask n v).reels = s.reels := rfl
@[simp] theorem State.setTask_wheels (n : Nat) (v : Task) : (s.setTask n v).wheels = s.wheels := rfl
@[simp] theorem State.setTask_budget (n : Nat) (v : Task) : (s.setTask n v).budget = s.budget := rfl
@[simp] theorem State.setTask_ready (n : Nat) (v : Task) : (s.setTask n v).ready = s.ready := rfl
@[simp] theorem State.setTask_device (n : Nat) (v : Task) : (s.setTask n v).device = s.device := rfl
@[simp] theorem State.setTask_linksDown (n : Nat) (v : Task) : (s.setTask n v).linksDown = s.linksDown := rfl
@[simp] theorem State.setTask_retries (n : Nat) (v : Task) : (s.setTask n v).retries = s.retries := rfl
@[simp] theorem State.setTask_take (n : Nat) (v : Task) : (s.setTask n v).take = s.take := rfl
@[simp] theorem State.setTask_ending (n : Nat) (v : Task) : (s.setTask n v).ending = s.ending := rfl
@[simp] theorem State.setTask_lastTake (n : Nat) (v : Task) : (s.setTask n v).lastTake = s.lastTake := rfl
@[simp] theorem State.setTask_takeAt (n : Nat) (v : Task) : (s.setTask n v).takeAt = s.takeAt := rfl
@[simp] theorem State.setTask_micros (n : Nat) (v : Task) : (s.setTask n v).micros = s.micros := rfl
@[simp] theorem State.setTask_notes (n : Nat) (v : Task) : (s.setTask n v).notes = s.notes := rfl
@[simp] theorem State.setTask_nextId (n : Nat) (v : Task) : (s.setTask n v).nextId = s.nextId := rfl
@[simp] theorem State.setTask_free (n : Nat) (v : Task) : (s.setTask n v).free = s.free := rfl
@[simp] theorem State.setTask_inputs (n : Nat) (v : Task) : (s.setTask n v).inputs = s.inputs := rfl
@[simp] theorem State.setTask_now (n : Nat) (v : Task) : (s.setTask n v).now = s.now := rfl
@[simp] theorem State.setTask_cursor (n : Nat) (v : Task) : (s.setTask n v).cursor = s.cursor := rfl
@[simp] theorem State.setTask_iss (n : Nat) (v : Task) : (s.setTask n v).iss = s.iss := rfl
@[simp] theorem State.setTask_kicked (n : Nat) (v : Task) : (s.setTask n v).kicked = s.kicked := rfl
@[simp] theorem State.setTask_bad (n : Nat) (v : Task) : (s.setTask n v).bad = s.bad := rfl

@[simp] theorem State.modTask_mem (n : Nat) (f : Task → Task) : (s.modTask n f).mem = s.mem := rfl
@[simp] theorem State.modTask_poison (n : Nat) (f : Task → Task) : (s.modTask n f).poison = s.poison := rfl
@[simp] theorem State.modTask_ecc (n : Nat) (f : Task → Task) : (s.modTask n f).ecc = s.ecc := rfl
@[simp] theorem State.modTask_parity (n : Nat) (f : Task → Task) : (s.modTask n f).parity = s.parity := rfl
@[simp] theorem State.modTask_log (n : Nat) (f : Task → Task) : (s.modTask n f).log = s.log := rfl
@[simp] theorem State.modTask_rels (n : Nat) (f : Task → Task) : (s.modTask n f).rels = s.rels := rfl
@[simp] theorem State.modTask_icinvs (n : Nat) (f : Task → Task) : (s.modTask n f).icinvs = s.icinvs := rfl
@[simp] theorem State.modTask_landed (n : Nat) (f : Task → Task) : (s.modTask n f).landed = s.landed := rfl
@[simp] theorem State.modTask_lanes (n : Nat) (f : Task → Task) : (s.modTask n f).lanes = s.lanes := rfl
@[simp] theorem State.modTask_waves (n : Nat) (f : Task → Task) : (s.modTask n f).waves = s.waves := rfl
@[simp] theorem State.modTask_slices (n : Nat) (f : Task → Task) : (s.modTask n f).slices = s.slices := rfl
@[simp] theorem State.modTask_clusters (n : Nat) (f : Task → Task) : (s.modTask n f).clusters = s.clusters := rfl
@[simp] theorem State.modTask_sectors (n : Nat) (f : Task → Task) : (s.modTask n f).sectors = s.sectors := rfl
@[simp] theorem State.modTask_dieTlbs (n : Nat) (f : Task → Task) : (s.modTask n f).dieTlbs = s.dieTlbs := rfl
@[simp] theorem State.modTask_dieHot (n : Nat) (f : Task → Task) : (s.modTask n f).dieHot = s.dieHot := rfl
@[simp] theorem State.modTask_stackHot (n : Nat) (f : Task → Task) : (s.modTask n f).stackHot = s.stackHot := rfl
@[simp] theorem State.modTask_launches (n : Nat) (f : Task → Task) : (s.modTask n f).launches = s.launches := rfl
@[simp] theorem State.modTask_ctxs (n : Nat) (f : Task → Task) : (s.modTask n f).ctxs = s.ctxs := rfl
@[simp] theorem State.modTask_vfs (n : Nat) (f : Task → Task) : (s.modTask n f).vfs = s.vfs := rfl
@[simp] theorem State.modTask_reels (n : Nat) (f : Task → Task) : (s.modTask n f).reels = s.reels := rfl
@[simp] theorem State.modTask_wheels (n : Nat) (f : Task → Task) : (s.modTask n f).wheels = s.wheels := rfl
@[simp] theorem State.modTask_budget (n : Nat) (f : Task → Task) : (s.modTask n f).budget = s.budget := rfl
@[simp] theorem State.modTask_ready (n : Nat) (f : Task → Task) : (s.modTask n f).ready = s.ready := rfl
@[simp] theorem State.modTask_device (n : Nat) (f : Task → Task) : (s.modTask n f).device = s.device := rfl
@[simp] theorem State.modTask_linksDown (n : Nat) (f : Task → Task) : (s.modTask n f).linksDown = s.linksDown := rfl
@[simp] theorem State.modTask_retries (n : Nat) (f : Task → Task) : (s.modTask n f).retries = s.retries := rfl
@[simp] theorem State.modTask_take (n : Nat) (f : Task → Task) : (s.modTask n f).take = s.take := rfl
@[simp] theorem State.modTask_ending (n : Nat) (f : Task → Task) : (s.modTask n f).ending = s.ending := rfl
@[simp] theorem State.modTask_lastTake (n : Nat) (f : Task → Task) : (s.modTask n f).lastTake = s.lastTake := rfl
@[simp] theorem State.modTask_takeAt (n : Nat) (f : Task → Task) : (s.modTask n f).takeAt = s.takeAt := rfl
@[simp] theorem State.modTask_micros (n : Nat) (f : Task → Task) : (s.modTask n f).micros = s.micros := rfl
@[simp] theorem State.modTask_notes (n : Nat) (f : Task → Task) : (s.modTask n f).notes = s.notes := rfl
@[simp] theorem State.modTask_nextId (n : Nat) (f : Task → Task) : (s.modTask n f).nextId = s.nextId := rfl
@[simp] theorem State.modTask_free (n : Nat) (f : Task → Task) : (s.modTask n f).free = s.free := rfl
@[simp] theorem State.modTask_inputs (n : Nat) (f : Task → Task) : (s.modTask n f).inputs = s.inputs := rfl
@[simp] theorem State.modTask_now (n : Nat) (f : Task → Task) : (s.modTask n f).now = s.now := rfl
@[simp] theorem State.modTask_cursor (n : Nat) (f : Task → Task) : (s.modTask n f).cursor = s.cursor := rfl
@[simp] theorem State.modTask_iss (n : Nat) (f : Task → Task) : (s.modTask n f).iss = s.iss := rfl
@[simp] theorem State.modTask_kicked (n : Nat) (f : Task → Task) : (s.modTask n f).kicked = s.kicked := rfl
@[simp] theorem State.modTask_bad (n : Nat) (f : Task → Task) : (s.modTask n f).bad = s.bad := rfl

@[simp] theorem State.modCtx_mem (c : Nat) (f : Ctx → Ctx) : (s.modCtx c f).mem = s.mem := rfl
@[simp] theorem State.modCtx_poison (c : Nat) (f : Ctx → Ctx) : (s.modCtx c f).poison = s.poison := rfl
@[simp] theorem State.modCtx_ecc (c : Nat) (f : Ctx → Ctx) : (s.modCtx c f).ecc = s.ecc := rfl
@[simp] theorem State.modCtx_parity (c : Nat) (f : Ctx → Ctx) : (s.modCtx c f).parity = s.parity := rfl
@[simp] theorem State.modCtx_log (c : Nat) (f : Ctx → Ctx) : (s.modCtx c f).log = s.log := rfl
@[simp] theorem State.modCtx_rels (c : Nat) (f : Ctx → Ctx) : (s.modCtx c f).rels = s.rels := rfl
@[simp] theorem State.modCtx_icinvs (c : Nat) (f : Ctx → Ctx) : (s.modCtx c f).icinvs = s.icinvs := rfl
@[simp] theorem State.modCtx_landed (c : Nat) (f : Ctx → Ctx) : (s.modCtx c f).landed = s.landed := rfl
@[simp] theorem State.modCtx_lanes (c : Nat) (f : Ctx → Ctx) : (s.modCtx c f).lanes = s.lanes := rfl
@[simp] theorem State.modCtx_waves (c : Nat) (f : Ctx → Ctx) : (s.modCtx c f).waves = s.waves := rfl
@[simp] theorem State.modCtx_slices (c : Nat) (f : Ctx → Ctx) : (s.modCtx c f).slices = s.slices := rfl
@[simp] theorem State.modCtx_clusters (c : Nat) (f : Ctx → Ctx) : (s.modCtx c f).clusters = s.clusters := rfl
@[simp] theorem State.modCtx_sectors (c : Nat) (f : Ctx → Ctx) : (s.modCtx c f).sectors = s.sectors := rfl
@[simp] theorem State.modCtx_dieTlbs (c : Nat) (f : Ctx → Ctx) : (s.modCtx c f).dieTlbs = s.dieTlbs := rfl
@[simp] theorem State.modCtx_dieHot (c : Nat) (f : Ctx → Ctx) : (s.modCtx c f).dieHot = s.dieHot := rfl
@[simp] theorem State.modCtx_stackHot (c : Nat) (f : Ctx → Ctx) : (s.modCtx c f).stackHot = s.stackHot := rfl
@[simp] theorem State.modCtx_tasks (c : Nat) (f : Ctx → Ctx) : (s.modCtx c f).tasks = s.tasks := rfl
@[simp] theorem State.modCtx_launches (c : Nat) (f : Ctx → Ctx) : (s.modCtx c f).launches = s.launches := rfl
@[simp] theorem State.modCtx_vfs (c : Nat) (f : Ctx → Ctx) : (s.modCtx c f).vfs = s.vfs := rfl
@[simp] theorem State.modCtx_reels (c : Nat) (f : Ctx → Ctx) : (s.modCtx c f).reels = s.reels := rfl
@[simp] theorem State.modCtx_wheels (c : Nat) (f : Ctx → Ctx) : (s.modCtx c f).wheels = s.wheels := rfl
@[simp] theorem State.modCtx_budget (c : Nat) (f : Ctx → Ctx) : (s.modCtx c f).budget = s.budget := rfl
@[simp] theorem State.modCtx_ready (c : Nat) (f : Ctx → Ctx) : (s.modCtx c f).ready = s.ready := rfl
@[simp] theorem State.modCtx_device (c : Nat) (f : Ctx → Ctx) : (s.modCtx c f).device = s.device := rfl
@[simp] theorem State.modCtx_linksDown (c : Nat) (f : Ctx → Ctx) : (s.modCtx c f).linksDown = s.linksDown := rfl
@[simp] theorem State.modCtx_retries (c : Nat) (f : Ctx → Ctx) : (s.modCtx c f).retries = s.retries := rfl
@[simp] theorem State.modCtx_take (c : Nat) (f : Ctx → Ctx) : (s.modCtx c f).take = s.take := rfl
@[simp] theorem State.modCtx_ending (c : Nat) (f : Ctx → Ctx) : (s.modCtx c f).ending = s.ending := rfl
@[simp] theorem State.modCtx_lastTake (c : Nat) (f : Ctx → Ctx) : (s.modCtx c f).lastTake = s.lastTake := rfl
@[simp] theorem State.modCtx_takeAt (c : Nat) (f : Ctx → Ctx) : (s.modCtx c f).takeAt = s.takeAt := rfl
@[simp] theorem State.modCtx_micros (c : Nat) (f : Ctx → Ctx) : (s.modCtx c f).micros = s.micros := rfl
@[simp] theorem State.modCtx_notes (c : Nat) (f : Ctx → Ctx) : (s.modCtx c f).notes = s.notes := rfl
@[simp] theorem State.modCtx_nextId (c : Nat) (f : Ctx → Ctx) : (s.modCtx c f).nextId = s.nextId := rfl
@[simp] theorem State.modCtx_free (c : Nat) (f : Ctx → Ctx) : (s.modCtx c f).free = s.free := rfl
@[simp] theorem State.modCtx_inputs (c : Nat) (f : Ctx → Ctx) : (s.modCtx c f).inputs = s.inputs := rfl
@[simp] theorem State.modCtx_now (c : Nat) (f : Ctx → Ctx) : (s.modCtx c f).now = s.now := rfl
@[simp] theorem State.modCtx_cursor (c : Nat) (f : Ctx → Ctx) : (s.modCtx c f).cursor = s.cursor := rfl
@[simp] theorem State.modCtx_iss (c : Nat) (f : Ctx → Ctx) : (s.modCtx c f).iss = s.iss := rfl
@[simp] theorem State.modCtx_kicked (c : Nat) (f : Ctx → Ctx) : (s.modCtx c f).kicked = s.kicked := rfl
@[simp] theorem State.modCtx_bad (c : Nat) (f : Ctx → Ctx) : (s.modCtx c f).bad = s.bad := rfl

@[simp] theorem State.modVf_mem (v : Nat) (f : Vf → Vf) : (s.modVf v f).mem = s.mem := rfl
@[simp] theorem State.modVf_poison (v : Nat) (f : Vf → Vf) : (s.modVf v f).poison = s.poison := rfl
@[simp] theorem State.modVf_ecc (v : Nat) (f : Vf → Vf) : (s.modVf v f).ecc = s.ecc := rfl
@[simp] theorem State.modVf_parity (v : Nat) (f : Vf → Vf) : (s.modVf v f).parity = s.parity := rfl
@[simp] theorem State.modVf_log (v : Nat) (f : Vf → Vf) : (s.modVf v f).log = s.log := rfl
@[simp] theorem State.modVf_rels (v : Nat) (f : Vf → Vf) : (s.modVf v f).rels = s.rels := rfl
@[simp] theorem State.modVf_icinvs (v : Nat) (f : Vf → Vf) : (s.modVf v f).icinvs = s.icinvs := rfl
@[simp] theorem State.modVf_landed (v : Nat) (f : Vf → Vf) : (s.modVf v f).landed = s.landed := rfl
@[simp] theorem State.modVf_lanes (v : Nat) (f : Vf → Vf) : (s.modVf v f).lanes = s.lanes := rfl
@[simp] theorem State.modVf_waves (v : Nat) (f : Vf → Vf) : (s.modVf v f).waves = s.waves := rfl
@[simp] theorem State.modVf_slices (v : Nat) (f : Vf → Vf) : (s.modVf v f).slices = s.slices := rfl
@[simp] theorem State.modVf_clusters (v : Nat) (f : Vf → Vf) : (s.modVf v f).clusters = s.clusters := rfl
@[simp] theorem State.modVf_sectors (v : Nat) (f : Vf → Vf) : (s.modVf v f).sectors = s.sectors := rfl
@[simp] theorem State.modVf_dieTlbs (v : Nat) (f : Vf → Vf) : (s.modVf v f).dieTlbs = s.dieTlbs := rfl
@[simp] theorem State.modVf_dieHot (v : Nat) (f : Vf → Vf) : (s.modVf v f).dieHot = s.dieHot := rfl
@[simp] theorem State.modVf_stackHot (v : Nat) (f : Vf → Vf) : (s.modVf v f).stackHot = s.stackHot := rfl
@[simp] theorem State.modVf_tasks (v : Nat) (f : Vf → Vf) : (s.modVf v f).tasks = s.tasks := rfl
@[simp] theorem State.modVf_launches (v : Nat) (f : Vf → Vf) : (s.modVf v f).launches = s.launches := rfl
@[simp] theorem State.modVf_ctxs (v : Nat) (f : Vf → Vf) : (s.modVf v f).ctxs = s.ctxs := rfl
@[simp] theorem State.modVf_reels (v : Nat) (f : Vf → Vf) : (s.modVf v f).reels = s.reels := rfl
@[simp] theorem State.modVf_wheels (v : Nat) (f : Vf → Vf) : (s.modVf v f).wheels = s.wheels := rfl
@[simp] theorem State.modVf_budget (v : Nat) (f : Vf → Vf) : (s.modVf v f).budget = s.budget := rfl
@[simp] theorem State.modVf_ready (v : Nat) (f : Vf → Vf) : (s.modVf v f).ready = s.ready := rfl
@[simp] theorem State.modVf_device (v : Nat) (f : Vf → Vf) : (s.modVf v f).device = s.device := rfl
@[simp] theorem State.modVf_linksDown (v : Nat) (f : Vf → Vf) : (s.modVf v f).linksDown = s.linksDown := rfl
@[simp] theorem State.modVf_retries (v : Nat) (f : Vf → Vf) : (s.modVf v f).retries = s.retries := rfl
@[simp] theorem State.modVf_take (v : Nat) (f : Vf → Vf) : (s.modVf v f).take = s.take := rfl
@[simp] theorem State.modVf_ending (v : Nat) (f : Vf → Vf) : (s.modVf v f).ending = s.ending := rfl
@[simp] theorem State.modVf_lastTake (v : Nat) (f : Vf → Vf) : (s.modVf v f).lastTake = s.lastTake := rfl
@[simp] theorem State.modVf_takeAt (v : Nat) (f : Vf → Vf) : (s.modVf v f).takeAt = s.takeAt := rfl
@[simp] theorem State.modVf_micros (v : Nat) (f : Vf → Vf) : (s.modVf v f).micros = s.micros := rfl
@[simp] theorem State.modVf_notes (v : Nat) (f : Vf → Vf) : (s.modVf v f).notes = s.notes := rfl
@[simp] theorem State.modVf_nextId (v : Nat) (f : Vf → Vf) : (s.modVf v f).nextId = s.nextId := rfl
@[simp] theorem State.modVf_free (v : Nat) (f : Vf → Vf) : (s.modVf v f).free = s.free := rfl
@[simp] theorem State.modVf_inputs (v : Nat) (f : Vf → Vf) : (s.modVf v f).inputs = s.inputs := rfl
@[simp] theorem State.modVf_now (v : Nat) (f : Vf → Vf) : (s.modVf v f).now = s.now := rfl
@[simp] theorem State.modVf_cursor (v : Nat) (f : Vf → Vf) : (s.modVf v f).cursor = s.cursor := rfl
@[simp] theorem State.modVf_iss (v : Nat) (f : Vf → Vf) : (s.modVf v f).iss = s.iss := rfl
@[simp] theorem State.modVf_kicked (v : Nat) (f : Vf → Vf) : (s.modVf v f).kicked = s.kicked := rfl
@[simp] theorem State.modVf_bad (v : Nat) (f : Vf → Vf) : (s.modVf v f).bad = s.bad := rfl

@[simp] theorem State.modSector_mem (c : Nat) (f : Sector → Sector) : (s.modSector c f).mem = s.mem := rfl
@[simp] theorem State.modSector_poison (c : Nat) (f : Sector → Sector) : (s.modSector c f).poison = s.poison := rfl
@[simp] theorem State.modSector_ecc (c : Nat) (f : Sector → Sector) : (s.modSector c f).ecc = s.ecc := rfl
@[simp] theorem State.modSector_parity (c : Nat) (f : Sector → Sector) : (s.modSector c f).parity = s.parity := rfl
@[simp] theorem State.modSector_log (c : Nat) (f : Sector → Sector) : (s.modSector c f).log = s.log := rfl
@[simp] theorem State.modSector_rels (c : Nat) (f : Sector → Sector) : (s.modSector c f).rels = s.rels := rfl
@[simp] theorem State.modSector_icinvs (c : Nat) (f : Sector → Sector) : (s.modSector c f).icinvs = s.icinvs := rfl
@[simp] theorem State.modSector_landed (c : Nat) (f : Sector → Sector) : (s.modSector c f).landed = s.landed := rfl
@[simp] theorem State.modSector_lanes (c : Nat) (f : Sector → Sector) : (s.modSector c f).lanes = s.lanes := rfl
@[simp] theorem State.modSector_waves (c : Nat) (f : Sector → Sector) : (s.modSector c f).waves = s.waves := rfl
@[simp] theorem State.modSector_slices (c : Nat) (f : Sector → Sector) : (s.modSector c f).slices = s.slices := rfl
@[simp] theorem State.modSector_clusters (c : Nat) (f : Sector → Sector) : (s.modSector c f).clusters = s.clusters := rfl
@[simp] theorem State.modSector_dieTlbs (c : Nat) (f : Sector → Sector) : (s.modSector c f).dieTlbs = s.dieTlbs := rfl
@[simp] theorem State.modSector_dieHot (c : Nat) (f : Sector → Sector) : (s.modSector c f).dieHot = s.dieHot := rfl
@[simp] theorem State.modSector_stackHot (c : Nat) (f : Sector → Sector) : (s.modSector c f).stackHot = s.stackHot := rfl
@[simp] theorem State.modSector_tasks (c : Nat) (f : Sector → Sector) : (s.modSector c f).tasks = s.tasks := rfl
@[simp] theorem State.modSector_launches (c : Nat) (f : Sector → Sector) : (s.modSector c f).launches = s.launches := rfl
@[simp] theorem State.modSector_ctxs (c : Nat) (f : Sector → Sector) : (s.modSector c f).ctxs = s.ctxs := rfl
@[simp] theorem State.modSector_vfs (c : Nat) (f : Sector → Sector) : (s.modSector c f).vfs = s.vfs := rfl
@[simp] theorem State.modSector_reels (c : Nat) (f : Sector → Sector) : (s.modSector c f).reels = s.reels := rfl
@[simp] theorem State.modSector_wheels (c : Nat) (f : Sector → Sector) : (s.modSector c f).wheels = s.wheels := rfl
@[simp] theorem State.modSector_budget (c : Nat) (f : Sector → Sector) : (s.modSector c f).budget = s.budget := rfl
@[simp] theorem State.modSector_ready (c : Nat) (f : Sector → Sector) : (s.modSector c f).ready = s.ready := rfl
@[simp] theorem State.modSector_device (c : Nat) (f : Sector → Sector) : (s.modSector c f).device = s.device := rfl
@[simp] theorem State.modSector_linksDown (c : Nat) (f : Sector → Sector) : (s.modSector c f).linksDown = s.linksDown := rfl
@[simp] theorem State.modSector_retries (c : Nat) (f : Sector → Sector) : (s.modSector c f).retries = s.retries := rfl
@[simp] theorem State.modSector_take (c : Nat) (f : Sector → Sector) : (s.modSector c f).take = s.take := rfl
@[simp] theorem State.modSector_ending (c : Nat) (f : Sector → Sector) : (s.modSector c f).ending = s.ending := rfl
@[simp] theorem State.modSector_lastTake (c : Nat) (f : Sector → Sector) : (s.modSector c f).lastTake = s.lastTake := rfl
@[simp] theorem State.modSector_takeAt (c : Nat) (f : Sector → Sector) : (s.modSector c f).takeAt = s.takeAt := rfl
@[simp] theorem State.modSector_micros (c : Nat) (f : Sector → Sector) : (s.modSector c f).micros = s.micros := rfl
@[simp] theorem State.modSector_notes (c : Nat) (f : Sector → Sector) : (s.modSector c f).notes = s.notes := rfl
@[simp] theorem State.modSector_nextId (c : Nat) (f : Sector → Sector) : (s.modSector c f).nextId = s.nextId := rfl
@[simp] theorem State.modSector_free (c : Nat) (f : Sector → Sector) : (s.modSector c f).free = s.free := rfl
@[simp] theorem State.modSector_inputs (c : Nat) (f : Sector → Sector) : (s.modSector c f).inputs = s.inputs := rfl
@[simp] theorem State.modSector_now (c : Nat) (f : Sector → Sector) : (s.modSector c f).now = s.now := rfl
@[simp] theorem State.modSector_cursor (c : Nat) (f : Sector → Sector) : (s.modSector c f).cursor = s.cursor := rfl
@[simp] theorem State.modSector_iss (c : Nat) (f : Sector → Sector) : (s.modSector c f).iss = s.iss := rfl
@[simp] theorem State.modSector_kicked (c : Nat) (f : Sector → Sector) : (s.modSector c f).kicked = s.kicked := rfl
@[simp] theorem State.modSector_bad (c : Nat) (f : Sector → Sector) : (s.modSector c f).bad = s.bad := rfl

@[simp] theorem State.modReel_mem (r : Nat) (f : Reel → Reel) : (s.modReel r f).mem = s.mem := rfl
@[simp] theorem State.modReel_poison (r : Nat) (f : Reel → Reel) : (s.modReel r f).poison = s.poison := rfl
@[simp] theorem State.modReel_ecc (r : Nat) (f : Reel → Reel) : (s.modReel r f).ecc = s.ecc := rfl
@[simp] theorem State.modReel_parity (r : Nat) (f : Reel → Reel) : (s.modReel r f).parity = s.parity := rfl
@[simp] theorem State.modReel_log (r : Nat) (f : Reel → Reel) : (s.modReel r f).log = s.log := rfl
@[simp] theorem State.modReel_rels (r : Nat) (f : Reel → Reel) : (s.modReel r f).rels = s.rels := rfl
@[simp] theorem State.modReel_icinvs (r : Nat) (f : Reel → Reel) : (s.modReel r f).icinvs = s.icinvs := rfl
@[simp] theorem State.modReel_landed (r : Nat) (f : Reel → Reel) : (s.modReel r f).landed = s.landed := rfl
@[simp] theorem State.modReel_lanes (r : Nat) (f : Reel → Reel) : (s.modReel r f).lanes = s.lanes := rfl
@[simp] theorem State.modReel_waves (r : Nat) (f : Reel → Reel) : (s.modReel r f).waves = s.waves := rfl
@[simp] theorem State.modReel_slices (r : Nat) (f : Reel → Reel) : (s.modReel r f).slices = s.slices := rfl
@[simp] theorem State.modReel_clusters (r : Nat) (f : Reel → Reel) : (s.modReel r f).clusters = s.clusters := rfl
@[simp] theorem State.modReel_sectors (r : Nat) (f : Reel → Reel) : (s.modReel r f).sectors = s.sectors := rfl
@[simp] theorem State.modReel_dieTlbs (r : Nat) (f : Reel → Reel) : (s.modReel r f).dieTlbs = s.dieTlbs := rfl
@[simp] theorem State.modReel_dieHot (r : Nat) (f : Reel → Reel) : (s.modReel r f).dieHot = s.dieHot := rfl
@[simp] theorem State.modReel_stackHot (r : Nat) (f : Reel → Reel) : (s.modReel r f).stackHot = s.stackHot := rfl
@[simp] theorem State.modReel_tasks (r : Nat) (f : Reel → Reel) : (s.modReel r f).tasks = s.tasks := rfl
@[simp] theorem State.modReel_launches (r : Nat) (f : Reel → Reel) : (s.modReel r f).launches = s.launches := rfl
@[simp] theorem State.modReel_ctxs (r : Nat) (f : Reel → Reel) : (s.modReel r f).ctxs = s.ctxs := rfl
@[simp] theorem State.modReel_vfs (r : Nat) (f : Reel → Reel) : (s.modReel r f).vfs = s.vfs := rfl
@[simp] theorem State.modReel_wheels (r : Nat) (f : Reel → Reel) : (s.modReel r f).wheels = s.wheels := rfl
@[simp] theorem State.modReel_budget (r : Nat) (f : Reel → Reel) : (s.modReel r f).budget = s.budget := rfl
@[simp] theorem State.modReel_ready (r : Nat) (f : Reel → Reel) : (s.modReel r f).ready = s.ready := rfl
@[simp] theorem State.modReel_device (r : Nat) (f : Reel → Reel) : (s.modReel r f).device = s.device := rfl
@[simp] theorem State.modReel_linksDown (r : Nat) (f : Reel → Reel) : (s.modReel r f).linksDown = s.linksDown := rfl
@[simp] theorem State.modReel_retries (r : Nat) (f : Reel → Reel) : (s.modReel r f).retries = s.retries := rfl
@[simp] theorem State.modReel_take (r : Nat) (f : Reel → Reel) : (s.modReel r f).take = s.take := rfl
@[simp] theorem State.modReel_ending (r : Nat) (f : Reel → Reel) : (s.modReel r f).ending = s.ending := rfl
@[simp] theorem State.modReel_lastTake (r : Nat) (f : Reel → Reel) : (s.modReel r f).lastTake = s.lastTake := rfl
@[simp] theorem State.modReel_takeAt (r : Nat) (f : Reel → Reel) : (s.modReel r f).takeAt = s.takeAt := rfl
@[simp] theorem State.modReel_micros (r : Nat) (f : Reel → Reel) : (s.modReel r f).micros = s.micros := rfl
@[simp] theorem State.modReel_notes (r : Nat) (f : Reel → Reel) : (s.modReel r f).notes = s.notes := rfl
@[simp] theorem State.modReel_nextId (r : Nat) (f : Reel → Reel) : (s.modReel r f).nextId = s.nextId := rfl
@[simp] theorem State.modReel_free (r : Nat) (f : Reel → Reel) : (s.modReel r f).free = s.free := rfl
@[simp] theorem State.modReel_inputs (r : Nat) (f : Reel → Reel) : (s.modReel r f).inputs = s.inputs := rfl
@[simp] theorem State.modReel_now (r : Nat) (f : Reel → Reel) : (s.modReel r f).now = s.now := rfl
@[simp] theorem State.modReel_cursor (r : Nat) (f : Reel → Reel) : (s.modReel r f).cursor = s.cursor := rfl
@[simp] theorem State.modReel_iss (r : Nat) (f : Reel → Reel) : (s.modReel r f).iss = s.iss := rfl
@[simp] theorem State.modReel_kicked (r : Nat) (f : Reel → Reel) : (s.modReel r f).kicked = s.kicked := rfl
@[simp] theorem State.modReel_bad (r : Nat) (f : Reel → Reel) : (s.modReel r f).bad = s.bad := rfl

@[simp] theorem State.modLaunch_mem (r : Nat) (f : Launch → Launch) : (s.modLaunch r f).mem = s.mem := rfl
@[simp] theorem State.modLaunch_poison (r : Nat) (f : Launch → Launch) : (s.modLaunch r f).poison = s.poison := rfl
@[simp] theorem State.modLaunch_ecc (r : Nat) (f : Launch → Launch) : (s.modLaunch r f).ecc = s.ecc := rfl
@[simp] theorem State.modLaunch_parity (r : Nat) (f : Launch → Launch) : (s.modLaunch r f).parity = s.parity := rfl
@[simp] theorem State.modLaunch_log (r : Nat) (f : Launch → Launch) : (s.modLaunch r f).log = s.log := rfl
@[simp] theorem State.modLaunch_rels (r : Nat) (f : Launch → Launch) : (s.modLaunch r f).rels = s.rels := rfl
@[simp] theorem State.modLaunch_icinvs (r : Nat) (f : Launch → Launch) : (s.modLaunch r f).icinvs = s.icinvs := rfl
@[simp] theorem State.modLaunch_landed (r : Nat) (f : Launch → Launch) : (s.modLaunch r f).landed = s.landed := rfl
@[simp] theorem State.modLaunch_lanes (r : Nat) (f : Launch → Launch) : (s.modLaunch r f).lanes = s.lanes := rfl
@[simp] theorem State.modLaunch_waves (r : Nat) (f : Launch → Launch) : (s.modLaunch r f).waves = s.waves := rfl
@[simp] theorem State.modLaunch_slices (r : Nat) (f : Launch → Launch) : (s.modLaunch r f).slices = s.slices := rfl
@[simp] theorem State.modLaunch_clusters (r : Nat) (f : Launch → Launch) : (s.modLaunch r f).clusters = s.clusters := rfl
@[simp] theorem State.modLaunch_sectors (r : Nat) (f : Launch → Launch) : (s.modLaunch r f).sectors = s.sectors := rfl
@[simp] theorem State.modLaunch_dieTlbs (r : Nat) (f : Launch → Launch) : (s.modLaunch r f).dieTlbs = s.dieTlbs := rfl
@[simp] theorem State.modLaunch_dieHot (r : Nat) (f : Launch → Launch) : (s.modLaunch r f).dieHot = s.dieHot := rfl
@[simp] theorem State.modLaunch_stackHot (r : Nat) (f : Launch → Launch) : (s.modLaunch r f).stackHot = s.stackHot := rfl
@[simp] theorem State.modLaunch_tasks (r : Nat) (f : Launch → Launch) : (s.modLaunch r f).tasks = s.tasks := rfl
@[simp] theorem State.modLaunch_ctxs (r : Nat) (f : Launch → Launch) : (s.modLaunch r f).ctxs = s.ctxs := rfl
@[simp] theorem State.modLaunch_vfs (r : Nat) (f : Launch → Launch) : (s.modLaunch r f).vfs = s.vfs := rfl
@[simp] theorem State.modLaunch_reels (r : Nat) (f : Launch → Launch) : (s.modLaunch r f).reels = s.reels := rfl
@[simp] theorem State.modLaunch_wheels (r : Nat) (f : Launch → Launch) : (s.modLaunch r f).wheels = s.wheels := rfl
@[simp] theorem State.modLaunch_budget (r : Nat) (f : Launch → Launch) : (s.modLaunch r f).budget = s.budget := rfl
@[simp] theorem State.modLaunch_ready (r : Nat) (f : Launch → Launch) : (s.modLaunch r f).ready = s.ready := rfl
@[simp] theorem State.modLaunch_device (r : Nat) (f : Launch → Launch) : (s.modLaunch r f).device = s.device := rfl
@[simp] theorem State.modLaunch_linksDown (r : Nat) (f : Launch → Launch) : (s.modLaunch r f).linksDown = s.linksDown := rfl
@[simp] theorem State.modLaunch_retries (r : Nat) (f : Launch → Launch) : (s.modLaunch r f).retries = s.retries := rfl
@[simp] theorem State.modLaunch_take (r : Nat) (f : Launch → Launch) : (s.modLaunch r f).take = s.take := rfl
@[simp] theorem State.modLaunch_ending (r : Nat) (f : Launch → Launch) : (s.modLaunch r f).ending = s.ending := rfl
@[simp] theorem State.modLaunch_lastTake (r : Nat) (f : Launch → Launch) : (s.modLaunch r f).lastTake = s.lastTake := rfl
@[simp] theorem State.modLaunch_takeAt (r : Nat) (f : Launch → Launch) : (s.modLaunch r f).takeAt = s.takeAt := rfl
@[simp] theorem State.modLaunch_micros (r : Nat) (f : Launch → Launch) : (s.modLaunch r f).micros = s.micros := rfl
@[simp] theorem State.modLaunch_notes (r : Nat) (f : Launch → Launch) : (s.modLaunch r f).notes = s.notes := rfl
@[simp] theorem State.modLaunch_nextId (r : Nat) (f : Launch → Launch) : (s.modLaunch r f).nextId = s.nextId := rfl
@[simp] theorem State.modLaunch_free (r : Nat) (f : Launch → Launch) : (s.modLaunch r f).free = s.free := rfl
@[simp] theorem State.modLaunch_inputs (r : Nat) (f : Launch → Launch) : (s.modLaunch r f).inputs = s.inputs := rfl
@[simp] theorem State.modLaunch_now (r : Nat) (f : Launch → Launch) : (s.modLaunch r f).now = s.now := rfl
@[simp] theorem State.modLaunch_cursor (r : Nat) (f : Launch → Launch) : (s.modLaunch r f).cursor = s.cursor := rfl
@[simp] theorem State.modLaunch_iss (r : Nat) (f : Launch → Launch) : (s.modLaunch r f).iss = s.iss := rfl
@[simp] theorem State.modLaunch_kicked (r : Nat) (f : Launch → Launch) : (s.modLaunch r f).kicked = s.kicked := rfl
@[simp] theorem State.modLaunch_bad (r : Nat) (f : Launch → Launch) : (s.modLaunch r f).bad = s.bad := rfl

@[simp] theorem State.note_mem (n : Note) : (s.note n).mem = s.mem := rfl
@[simp] theorem State.note_poison (n : Note) : (s.note n).poison = s.poison := rfl
@[simp] theorem State.note_ecc (n : Note) : (s.note n).ecc = s.ecc := rfl
@[simp] theorem State.note_parity (n : Note) : (s.note n).parity = s.parity := rfl
@[simp] theorem State.note_log (n : Note) : (s.note n).log = s.log := rfl
@[simp] theorem State.note_rels (n : Note) : (s.note n).rels = s.rels := rfl
@[simp] theorem State.note_icinvs (n : Note) : (s.note n).icinvs = s.icinvs := rfl
@[simp] theorem State.note_landed (n : Note) : (s.note n).landed = s.landed := rfl
@[simp] theorem State.note_lanes (n : Note) : (s.note n).lanes = s.lanes := rfl
@[simp] theorem State.note_waves (n : Note) : (s.note n).waves = s.waves := rfl
@[simp] theorem State.note_slices (n : Note) : (s.note n).slices = s.slices := rfl
@[simp] theorem State.note_clusters (n : Note) : (s.note n).clusters = s.clusters := rfl
@[simp] theorem State.note_sectors (n : Note) : (s.note n).sectors = s.sectors := rfl
@[simp] theorem State.note_dieTlbs (n : Note) : (s.note n).dieTlbs = s.dieTlbs := rfl
@[simp] theorem State.note_dieHot (n : Note) : (s.note n).dieHot = s.dieHot := rfl
@[simp] theorem State.note_stackHot (n : Note) : (s.note n).stackHot = s.stackHot := rfl
@[simp] theorem State.note_tasks (n : Note) : (s.note n).tasks = s.tasks := rfl
@[simp] theorem State.note_launches (n : Note) : (s.note n).launches = s.launches := rfl
@[simp] theorem State.note_ctxs (n : Note) : (s.note n).ctxs = s.ctxs := rfl
@[simp] theorem State.note_vfs (n : Note) : (s.note n).vfs = s.vfs := rfl
@[simp] theorem State.note_reels (n : Note) : (s.note n).reels = s.reels := rfl
@[simp] theorem State.note_wheels (n : Note) : (s.note n).wheels = s.wheels := rfl
@[simp] theorem State.note_budget (n : Note) : (s.note n).budget = s.budget := rfl
@[simp] theorem State.note_ready (n : Note) : (s.note n).ready = s.ready := rfl
@[simp] theorem State.note_device (n : Note) : (s.note n).device = s.device := rfl
@[simp] theorem State.note_linksDown (n : Note) : (s.note n).linksDown = s.linksDown := rfl
@[simp] theorem State.note_retries (n : Note) : (s.note n).retries = s.retries := rfl
@[simp] theorem State.note_take (n : Note) : (s.note n).take = s.take := rfl
@[simp] theorem State.note_ending (n : Note) : (s.note n).ending = s.ending := rfl
@[simp] theorem State.note_lastTake (n : Note) : (s.note n).lastTake = s.lastTake := rfl
@[simp] theorem State.note_takeAt (n : Note) : (s.note n).takeAt = s.takeAt := rfl
@[simp] theorem State.note_micros (n : Note) : (s.note n).micros = s.micros := rfl
@[simp] theorem State.note_nextId (n : Note) : (s.note n).nextId = s.nextId := rfl
@[simp] theorem State.note_free (n : Note) : (s.note n).free = s.free := rfl
@[simp] theorem State.note_inputs (n : Note) : (s.note n).inputs = s.inputs := rfl
@[simp] theorem State.note_now (n : Note) : (s.note n).now = s.now := rfl
@[simp] theorem State.note_cursor (n : Note) : (s.note n).cursor = s.cursor := rfl
@[simp] theorem State.note_iss (n : Note) : (s.note n).iss = s.iss := rfl
@[simp] theorem State.note_kicked (n : Note) : (s.note n).kicked = s.kicked := rfl
@[simp] theorem State.note_bad (n : Note) : (s.note n).bad = s.bad := rfl

@[simp] theorem State.setPoison_mem (l : Nat) (b : Bool) : (s.setPoison l b).mem = s.mem := rfl
@[simp] theorem State.setPoison_ecc (l : Nat) (b : Bool) : (s.setPoison l b).ecc = s.ecc := rfl
@[simp] theorem State.setPoison_parity (l : Nat) (b : Bool) : (s.setPoison l b).parity = s.parity := rfl
@[simp] theorem State.setPoison_log (l : Nat) (b : Bool) : (s.setPoison l b).log = s.log := rfl
@[simp] theorem State.setPoison_rels (l : Nat) (b : Bool) : (s.setPoison l b).rels = s.rels := rfl
@[simp] theorem State.setPoison_icinvs (l : Nat) (b : Bool) : (s.setPoison l b).icinvs = s.icinvs := rfl
@[simp] theorem State.setPoison_landed (l : Nat) (b : Bool) : (s.setPoison l b).landed = s.landed := rfl
@[simp] theorem State.setPoison_lanes (l : Nat) (b : Bool) : (s.setPoison l b).lanes = s.lanes := rfl
@[simp] theorem State.setPoison_waves (l : Nat) (b : Bool) : (s.setPoison l b).waves = s.waves := rfl
@[simp] theorem State.setPoison_slices (l : Nat) (b : Bool) : (s.setPoison l b).slices = s.slices := rfl
@[simp] theorem State.setPoison_clusters (l : Nat) (b : Bool) : (s.setPoison l b).clusters = s.clusters := rfl
@[simp] theorem State.setPoison_sectors (l : Nat) (b : Bool) : (s.setPoison l b).sectors = s.sectors := rfl
@[simp] theorem State.setPoison_dieTlbs (l : Nat) (b : Bool) : (s.setPoison l b).dieTlbs = s.dieTlbs := rfl
@[simp] theorem State.setPoison_dieHot (l : Nat) (b : Bool) : (s.setPoison l b).dieHot = s.dieHot := rfl
@[simp] theorem State.setPoison_stackHot (l : Nat) (b : Bool) : (s.setPoison l b).stackHot = s.stackHot := rfl
@[simp] theorem State.setPoison_tasks (l : Nat) (b : Bool) : (s.setPoison l b).tasks = s.tasks := rfl
@[simp] theorem State.setPoison_launches (l : Nat) (b : Bool) : (s.setPoison l b).launches = s.launches := rfl
@[simp] theorem State.setPoison_ctxs (l : Nat) (b : Bool) : (s.setPoison l b).ctxs = s.ctxs := rfl
@[simp] theorem State.setPoison_vfs (l : Nat) (b : Bool) : (s.setPoison l b).vfs = s.vfs := rfl
@[simp] theorem State.setPoison_reels (l : Nat) (b : Bool) : (s.setPoison l b).reels = s.reels := rfl
@[simp] theorem State.setPoison_wheels (l : Nat) (b : Bool) : (s.setPoison l b).wheels = s.wheels := rfl
@[simp] theorem State.setPoison_budget (l : Nat) (b : Bool) : (s.setPoison l b).budget = s.budget := rfl
@[simp] theorem State.setPoison_ready (l : Nat) (b : Bool) : (s.setPoison l b).ready = s.ready := rfl
@[simp] theorem State.setPoison_device (l : Nat) (b : Bool) : (s.setPoison l b).device = s.device := rfl
@[simp] theorem State.setPoison_linksDown (l : Nat) (b : Bool) : (s.setPoison l b).linksDown = s.linksDown := rfl
@[simp] theorem State.setPoison_retries (l : Nat) (b : Bool) : (s.setPoison l b).retries = s.retries := rfl
@[simp] theorem State.setPoison_take (l : Nat) (b : Bool) : (s.setPoison l b).take = s.take := rfl
@[simp] theorem State.setPoison_ending (l : Nat) (b : Bool) : (s.setPoison l b).ending = s.ending := rfl
@[simp] theorem State.setPoison_lastTake (l : Nat) (b : Bool) : (s.setPoison l b).lastTake = s.lastTake := rfl
@[simp] theorem State.setPoison_takeAt (l : Nat) (b : Bool) : (s.setPoison l b).takeAt = s.takeAt := rfl
@[simp] theorem State.setPoison_micros (l : Nat) (b : Bool) : (s.setPoison l b).micros = s.micros := rfl
@[simp] theorem State.setPoison_notes (l : Nat) (b : Bool) : (s.setPoison l b).notes = s.notes := rfl
@[simp] theorem State.setPoison_nextId (l : Nat) (b : Bool) : (s.setPoison l b).nextId = s.nextId := rfl
@[simp] theorem State.setPoison_free (l : Nat) (b : Bool) : (s.setPoison l b).free = s.free := rfl
@[simp] theorem State.setPoison_inputs (l : Nat) (b : Bool) : (s.setPoison l b).inputs = s.inputs := rfl
@[simp] theorem State.setPoison_now (l : Nat) (b : Bool) : (s.setPoison l b).now = s.now := rfl
@[simp] theorem State.setPoison_cursor (l : Nat) (b : Bool) : (s.setPoison l b).cursor = s.cursor := rfl
@[simp] theorem State.setPoison_iss (l : Nat) (b : Bool) : (s.setPoison l b).iss = s.iss := rfl
@[simp] theorem State.setPoison_kicked (l : Nat) (b : Bool) : (s.setPoison l b).kicked = s.kicked := rfl
@[simp] theorem State.setPoison_bad (l : Nat) (b : Bool) : (s.setPoison l b).bad = s.bad := rfl

@[simp] theorem State.clean_mem (l : Nat) : (s.clean l).mem = s.mem := rfl
@[simp] theorem State.clean_ecc (l : Nat) : (s.clean l).ecc = s.ecc := rfl
@[simp] theorem State.clean_parity (l : Nat) : (s.clean l).parity = s.parity := rfl
@[simp] theorem State.clean_log (l : Nat) : (s.clean l).log = s.log := rfl
@[simp] theorem State.clean_rels (l : Nat) : (s.clean l).rels = s.rels := rfl
@[simp] theorem State.clean_icinvs (l : Nat) : (s.clean l).icinvs = s.icinvs := rfl
@[simp] theorem State.clean_landed (l : Nat) : (s.clean l).landed = s.landed := rfl
@[simp] theorem State.clean_lanes (l : Nat) : (s.clean l).lanes = s.lanes := rfl
@[simp] theorem State.clean_waves (l : Nat) : (s.clean l).waves = s.waves := rfl
@[simp] theorem State.clean_slices (l : Nat) : (s.clean l).slices = s.slices := rfl
@[simp] theorem State.clean_clusters (l : Nat) : (s.clean l).clusters = s.clusters := rfl
@[simp] theorem State.clean_sectors (l : Nat) : (s.clean l).sectors = s.sectors := rfl
@[simp] theorem State.clean_dieTlbs (l : Nat) : (s.clean l).dieTlbs = s.dieTlbs := rfl
@[simp] theorem State.clean_dieHot (l : Nat) : (s.clean l).dieHot = s.dieHot := rfl
@[simp] theorem State.clean_stackHot (l : Nat) : (s.clean l).stackHot = s.stackHot := rfl
@[simp] theorem State.clean_tasks (l : Nat) : (s.clean l).tasks = s.tasks := rfl
@[simp] theorem State.clean_launches (l : Nat) : (s.clean l).launches = s.launches := rfl
@[simp] theorem State.clean_ctxs (l : Nat) : (s.clean l).ctxs = s.ctxs := rfl
@[simp] theorem State.clean_vfs (l : Nat) : (s.clean l).vfs = s.vfs := rfl
@[simp] theorem State.clean_reels (l : Nat) : (s.clean l).reels = s.reels := rfl
@[simp] theorem State.clean_wheels (l : Nat) : (s.clean l).wheels = s.wheels := rfl
@[simp] theorem State.clean_budget (l : Nat) : (s.clean l).budget = s.budget := rfl
@[simp] theorem State.clean_ready (l : Nat) : (s.clean l).ready = s.ready := rfl
@[simp] theorem State.clean_device (l : Nat) : (s.clean l).device = s.device := rfl
@[simp] theorem State.clean_linksDown (l : Nat) : (s.clean l).linksDown = s.linksDown := rfl
@[simp] theorem State.clean_retries (l : Nat) : (s.clean l).retries = s.retries := rfl
@[simp] theorem State.clean_take (l : Nat) : (s.clean l).take = s.take := rfl
@[simp] theorem State.clean_ending (l : Nat) : (s.clean l).ending = s.ending := rfl
@[simp] theorem State.clean_lastTake (l : Nat) : (s.clean l).lastTake = s.lastTake := rfl
@[simp] theorem State.clean_takeAt (l : Nat) : (s.clean l).takeAt = s.takeAt := rfl
@[simp] theorem State.clean_micros (l : Nat) : (s.clean l).micros = s.micros := rfl
@[simp] theorem State.clean_notes (l : Nat) : (s.clean l).notes = s.notes := rfl
@[simp] theorem State.clean_nextId (l : Nat) : (s.clean l).nextId = s.nextId := rfl
@[simp] theorem State.clean_free (l : Nat) : (s.clean l).free = s.free := rfl
@[simp] theorem State.clean_inputs (l : Nat) : (s.clean l).inputs = s.inputs := rfl
@[simp] theorem State.clean_now (l : Nat) : (s.clean l).now = s.now := rfl
@[simp] theorem State.clean_cursor (l : Nat) : (s.clean l).cursor = s.cursor := rfl
@[simp] theorem State.clean_iss (l : Nat) : (s.clean l).iss = s.iss := rfl
@[simp] theorem State.clean_kicked (l : Nat) : (s.clean l).kicked = s.kicked := rfl
@[simp] theorem State.clean_bad (l : Nat) : (s.clean l).bad = s.bad := rfl

@[simp] theorem State.bump_mem : (s.bump).mem = s.mem := rfl
@[simp] theorem State.bump_poison : (s.bump).poison = s.poison := rfl
@[simp] theorem State.bump_ecc : (s.bump).ecc = s.ecc := rfl
@[simp] theorem State.bump_parity : (s.bump).parity = s.parity := rfl
@[simp] theorem State.bump_log : (s.bump).log = s.log := rfl
@[simp] theorem State.bump_rels : (s.bump).rels = s.rels := rfl
@[simp] theorem State.bump_icinvs : (s.bump).icinvs = s.icinvs := rfl
@[simp] theorem State.bump_landed : (s.bump).landed = s.landed := rfl
@[simp] theorem State.bump_lanes : (s.bump).lanes = s.lanes := rfl
@[simp] theorem State.bump_waves : (s.bump).waves = s.waves := rfl
@[simp] theorem State.bump_slices : (s.bump).slices = s.slices := rfl
@[simp] theorem State.bump_clusters : (s.bump).clusters = s.clusters := rfl
@[simp] theorem State.bump_sectors : (s.bump).sectors = s.sectors := rfl
@[simp] theorem State.bump_dieTlbs : (s.bump).dieTlbs = s.dieTlbs := rfl
@[simp] theorem State.bump_dieHot : (s.bump).dieHot = s.dieHot := rfl
@[simp] theorem State.bump_stackHot : (s.bump).stackHot = s.stackHot := rfl
@[simp] theorem State.bump_tasks : (s.bump).tasks = s.tasks := rfl
@[simp] theorem State.bump_launches : (s.bump).launches = s.launches := rfl
@[simp] theorem State.bump_ctxs : (s.bump).ctxs = s.ctxs := rfl
@[simp] theorem State.bump_vfs : (s.bump).vfs = s.vfs := rfl
@[simp] theorem State.bump_reels : (s.bump).reels = s.reels := rfl
@[simp] theorem State.bump_wheels : (s.bump).wheels = s.wheels := rfl
@[simp] theorem State.bump_budget : (s.bump).budget = s.budget := rfl
@[simp] theorem State.bump_ready : (s.bump).ready = s.ready := rfl
@[simp] theorem State.bump_device : (s.bump).device = s.device := rfl
@[simp] theorem State.bump_linksDown : (s.bump).linksDown = s.linksDown := rfl
@[simp] theorem State.bump_retries : (s.bump).retries = s.retries := rfl
@[simp] theorem State.bump_take : (s.bump).take = s.take := rfl
@[simp] theorem State.bump_ending : (s.bump).ending = s.ending := rfl
@[simp] theorem State.bump_lastTake : (s.bump).lastTake = s.lastTake := rfl
@[simp] theorem State.bump_takeAt : (s.bump).takeAt = s.takeAt := rfl
@[simp] theorem State.bump_micros : (s.bump).micros = s.micros := rfl
@[simp] theorem State.bump_notes : (s.bump).notes = s.notes := rfl
@[simp] theorem State.bump_free : (s.bump).free = s.free := rfl
@[simp] theorem State.bump_inputs : (s.bump).inputs = s.inputs := rfl
@[simp] theorem State.bump_now : (s.bump).now = s.now := rfl
@[simp] theorem State.bump_cursor : (s.bump).cursor = s.cursor := rfl
@[simp] theorem State.bump_iss : (s.bump).iss = s.iss := rfl
@[simp] theorem State.bump_kicked : (s.bump).kicked = s.kicked := rfl
@[simp] theorem State.bump_bad : (s.bump).bad = s.bad := rfl

@[simp] theorem State.write_poison (a : Nat) (b : List Byte) (sl who : Nat) (g : Option Scope) (r : Option Nat) (p : Nat) : (s.write a b sl who g r p).poison = s.poison := rfl
@[simp] theorem State.write_ecc (a : Nat) (b : List Byte) (sl who : Nat) (g : Option Scope) (r : Option Nat) (p : Nat) : (s.write a b sl who g r p).ecc = s.ecc := rfl
@[simp] theorem State.write_parity (a : Nat) (b : List Byte) (sl who : Nat) (g : Option Scope) (r : Option Nat) (p : Nat) : (s.write a b sl who g r p).parity = s.parity := rfl
@[simp] theorem State.write_rels (a : Nat) (b : List Byte) (sl who : Nat) (g : Option Scope) (r : Option Nat) (p : Nat) : (s.write a b sl who g r p).rels = s.rels := rfl
@[simp] theorem State.write_icinvs (a : Nat) (b : List Byte) (sl who : Nat) (g : Option Scope) (r : Option Nat) (p : Nat) : (s.write a b sl who g r p).icinvs = s.icinvs := rfl
@[simp] theorem State.write_landed (a : Nat) (b : List Byte) (sl who : Nat) (g : Option Scope) (r : Option Nat) (p : Nat) : (s.write a b sl who g r p).landed = s.landed := rfl
@[simp] theorem State.write_lanes (a : Nat) (b : List Byte) (sl who : Nat) (g : Option Scope) (r : Option Nat) (p : Nat) : (s.write a b sl who g r p).lanes = s.lanes := rfl
@[simp] theorem State.write_waves (a : Nat) (b : List Byte) (sl who : Nat) (g : Option Scope) (r : Option Nat) (p : Nat) : (s.write a b sl who g r p).waves = s.waves := rfl
@[simp] theorem State.write_slices (a : Nat) (b : List Byte) (sl who : Nat) (g : Option Scope) (r : Option Nat) (p : Nat) : (s.write a b sl who g r p).slices = s.slices := rfl
@[simp] theorem State.write_clusters (a : Nat) (b : List Byte) (sl who : Nat) (g : Option Scope) (r : Option Nat) (p : Nat) : (s.write a b sl who g r p).clusters = s.clusters := rfl
@[simp] theorem State.write_sectors (a : Nat) (b : List Byte) (sl who : Nat) (g : Option Scope) (r : Option Nat) (p : Nat) : (s.write a b sl who g r p).sectors = s.sectors := rfl
@[simp] theorem State.write_dieTlbs (a : Nat) (b : List Byte) (sl who : Nat) (g : Option Scope) (r : Option Nat) (p : Nat) : (s.write a b sl who g r p).dieTlbs = s.dieTlbs := rfl
@[simp] theorem State.write_dieHot (a : Nat) (b : List Byte) (sl who : Nat) (g : Option Scope) (r : Option Nat) (p : Nat) : (s.write a b sl who g r p).dieHot = s.dieHot := rfl
@[simp] theorem State.write_stackHot (a : Nat) (b : List Byte) (sl who : Nat) (g : Option Scope) (r : Option Nat) (p : Nat) : (s.write a b sl who g r p).stackHot = s.stackHot := rfl
@[simp] theorem State.write_tasks (a : Nat) (b : List Byte) (sl who : Nat) (g : Option Scope) (r : Option Nat) (p : Nat) : (s.write a b sl who g r p).tasks = s.tasks := rfl
@[simp] theorem State.write_launches (a : Nat) (b : List Byte) (sl who : Nat) (g : Option Scope) (r : Option Nat) (p : Nat) : (s.write a b sl who g r p).launches = s.launches := rfl
@[simp] theorem State.write_ctxs (a : Nat) (b : List Byte) (sl who : Nat) (g : Option Scope) (r : Option Nat) (p : Nat) : (s.write a b sl who g r p).ctxs = s.ctxs := rfl
@[simp] theorem State.write_vfs (a : Nat) (b : List Byte) (sl who : Nat) (g : Option Scope) (r : Option Nat) (p : Nat) : (s.write a b sl who g r p).vfs = s.vfs := rfl
@[simp] theorem State.write_reels (a : Nat) (b : List Byte) (sl who : Nat) (g : Option Scope) (r : Option Nat) (p : Nat) : (s.write a b sl who g r p).reels = s.reels := rfl
@[simp] theorem State.write_wheels (a : Nat) (b : List Byte) (sl who : Nat) (g : Option Scope) (r : Option Nat) (p : Nat) : (s.write a b sl who g r p).wheels = s.wheels := rfl
@[simp] theorem State.write_budget (a : Nat) (b : List Byte) (sl who : Nat) (g : Option Scope) (r : Option Nat) (p : Nat) : (s.write a b sl who g r p).budget = s.budget := rfl
@[simp] theorem State.write_ready (a : Nat) (b : List Byte) (sl who : Nat) (g : Option Scope) (r : Option Nat) (p : Nat) : (s.write a b sl who g r p).ready = s.ready := rfl
@[simp] theorem State.write_device (a : Nat) (b : List Byte) (sl who : Nat) (g : Option Scope) (r : Option Nat) (p : Nat) : (s.write a b sl who g r p).device = s.device := rfl
@[simp] theorem State.write_linksDown (a : Nat) (b : List Byte) (sl who : Nat) (g : Option Scope) (r : Option Nat) (p : Nat) : (s.write a b sl who g r p).linksDown = s.linksDown := rfl
@[simp] theorem State.write_retries (a : Nat) (b : List Byte) (sl who : Nat) (g : Option Scope) (r : Option Nat) (p : Nat) : (s.write a b sl who g r p).retries = s.retries := rfl
@[simp] theorem State.write_take (a : Nat) (b : List Byte) (sl who : Nat) (g : Option Scope) (r : Option Nat) (p : Nat) : (s.write a b sl who g r p).take = s.take := rfl
@[simp] theorem State.write_ending (a : Nat) (b : List Byte) (sl who : Nat) (g : Option Scope) (r : Option Nat) (p : Nat) : (s.write a b sl who g r p).ending = s.ending := rfl
@[simp] theorem State.write_lastTake (a : Nat) (b : List Byte) (sl who : Nat) (g : Option Scope) (r : Option Nat) (p : Nat) : (s.write a b sl who g r p).lastTake = s.lastTake := rfl
@[simp] theorem State.write_takeAt (a : Nat) (b : List Byte) (sl who : Nat) (g : Option Scope) (r : Option Nat) (p : Nat) : (s.write a b sl who g r p).takeAt = s.takeAt := rfl
@[simp] theorem State.write_micros (a : Nat) (b : List Byte) (sl who : Nat) (g : Option Scope) (r : Option Nat) (p : Nat) : (s.write a b sl who g r p).micros = s.micros := rfl
@[simp] theorem State.write_notes (a : Nat) (b : List Byte) (sl who : Nat) (g : Option Scope) (r : Option Nat) (p : Nat) : (s.write a b sl who g r p).notes = s.notes := rfl
@[simp] theorem State.write_free (a : Nat) (b : List Byte) (sl who : Nat) (g : Option Scope) (r : Option Nat) (p : Nat) : (s.write a b sl who g r p).free = s.free := rfl
@[simp] theorem State.write_inputs (a : Nat) (b : List Byte) (sl who : Nat) (g : Option Scope) (r : Option Nat) (p : Nat) : (s.write a b sl who g r p).inputs = s.inputs := rfl
@[simp] theorem State.write_now (a : Nat) (b : List Byte) (sl who : Nat) (g : Option Scope) (r : Option Nat) (p : Nat) : (s.write a b sl who g r p).now = s.now := rfl
@[simp] theorem State.write_cursor (a : Nat) (b : List Byte) (sl who : Nat) (g : Option Scope) (r : Option Nat) (p : Nat) : (s.write a b sl who g r p).cursor = s.cursor := rfl
@[simp] theorem State.write_iss (a : Nat) (b : List Byte) (sl who : Nat) (g : Option Scope) (r : Option Nat) (p : Nat) : (s.write a b sl who g r p).iss = s.iss := rfl
@[simp] theorem State.write_kicked (a : Nat) (b : List Byte) (sl who : Nat) (g : Option Scope) (r : Option Nat) (p : Nat) : (s.write a b sl who g r p).kicked = s.kicked := rfl
@[simp] theorem State.write_bad (a : Nat) (b : List Byte) (sl who : Nat) (g : Option Scope) (r : Option Nat) (p : Nat) : (s.write a b sl who g r p).bad = s.bad := rfl

@[simp] theorem State.addRel_mem (x : Nat) (c : Scope) (v : Map Nat) : (s.addRel x c v).mem = s.mem := rfl
@[simp] theorem State.addRel_poison (x : Nat) (c : Scope) (v : Map Nat) : (s.addRel x c v).poison = s.poison := rfl
@[simp] theorem State.addRel_ecc (x : Nat) (c : Scope) (v : Map Nat) : (s.addRel x c v).ecc = s.ecc := rfl
@[simp] theorem State.addRel_parity (x : Nat) (c : Scope) (v : Map Nat) : (s.addRel x c v).parity = s.parity := rfl
@[simp] theorem State.addRel_log (x : Nat) (c : Scope) (v : Map Nat) : (s.addRel x c v).log = s.log := rfl
@[simp] theorem State.addRel_icinvs (x : Nat) (c : Scope) (v : Map Nat) : (s.addRel x c v).icinvs = s.icinvs := rfl
@[simp] theorem State.addRel_landed (x : Nat) (c : Scope) (v : Map Nat) : (s.addRel x c v).landed = s.landed := rfl
@[simp] theorem State.addRel_lanes (x : Nat) (c : Scope) (v : Map Nat) : (s.addRel x c v).lanes = s.lanes := rfl
@[simp] theorem State.addRel_waves (x : Nat) (c : Scope) (v : Map Nat) : (s.addRel x c v).waves = s.waves := rfl
@[simp] theorem State.addRel_slices (x : Nat) (c : Scope) (v : Map Nat) : (s.addRel x c v).slices = s.slices := rfl
@[simp] theorem State.addRel_clusters (x : Nat) (c : Scope) (v : Map Nat) : (s.addRel x c v).clusters = s.clusters := rfl
@[simp] theorem State.addRel_sectors (x : Nat) (c : Scope) (v : Map Nat) : (s.addRel x c v).sectors = s.sectors := rfl
@[simp] theorem State.addRel_dieTlbs (x : Nat) (c : Scope) (v : Map Nat) : (s.addRel x c v).dieTlbs = s.dieTlbs := rfl
@[simp] theorem State.addRel_dieHot (x : Nat) (c : Scope) (v : Map Nat) : (s.addRel x c v).dieHot = s.dieHot := rfl
@[simp] theorem State.addRel_stackHot (x : Nat) (c : Scope) (v : Map Nat) : (s.addRel x c v).stackHot = s.stackHot := rfl
@[simp] theorem State.addRel_tasks (x : Nat) (c : Scope) (v : Map Nat) : (s.addRel x c v).tasks = s.tasks := rfl
@[simp] theorem State.addRel_launches (x : Nat) (c : Scope) (v : Map Nat) : (s.addRel x c v).launches = s.launches := rfl
@[simp] theorem State.addRel_ctxs (x : Nat) (c : Scope) (v : Map Nat) : (s.addRel x c v).ctxs = s.ctxs := rfl
@[simp] theorem State.addRel_vfs (x : Nat) (c : Scope) (v : Map Nat) : (s.addRel x c v).vfs = s.vfs := rfl
@[simp] theorem State.addRel_reels (x : Nat) (c : Scope) (v : Map Nat) : (s.addRel x c v).reels = s.reels := rfl
@[simp] theorem State.addRel_wheels (x : Nat) (c : Scope) (v : Map Nat) : (s.addRel x c v).wheels = s.wheels := rfl
@[simp] theorem State.addRel_budget (x : Nat) (c : Scope) (v : Map Nat) : (s.addRel x c v).budget = s.budget := rfl
@[simp] theorem State.addRel_ready (x : Nat) (c : Scope) (v : Map Nat) : (s.addRel x c v).ready = s.ready := rfl
@[simp] theorem State.addRel_device (x : Nat) (c : Scope) (v : Map Nat) : (s.addRel x c v).device = s.device := rfl
@[simp] theorem State.addRel_linksDown (x : Nat) (c : Scope) (v : Map Nat) : (s.addRel x c v).linksDown = s.linksDown := rfl
@[simp] theorem State.addRel_retries (x : Nat) (c : Scope) (v : Map Nat) : (s.addRel x c v).retries = s.retries := rfl
@[simp] theorem State.addRel_take (x : Nat) (c : Scope) (v : Map Nat) : (s.addRel x c v).take = s.take := rfl
@[simp] theorem State.addRel_ending (x : Nat) (c : Scope) (v : Map Nat) : (s.addRel x c v).ending = s.ending := rfl
@[simp] theorem State.addRel_lastTake (x : Nat) (c : Scope) (v : Map Nat) : (s.addRel x c v).lastTake = s.lastTake := rfl
@[simp] theorem State.addRel_takeAt (x : Nat) (c : Scope) (v : Map Nat) : (s.addRel x c v).takeAt = s.takeAt := rfl
@[simp] theorem State.addRel_micros (x : Nat) (c : Scope) (v : Map Nat) : (s.addRel x c v).micros = s.micros := rfl
@[simp] theorem State.addRel_notes (x : Nat) (c : Scope) (v : Map Nat) : (s.addRel x c v).notes = s.notes := rfl
@[simp] theorem State.addRel_free (x : Nat) (c : Scope) (v : Map Nat) : (s.addRel x c v).free = s.free := rfl
@[simp] theorem State.addRel_inputs (x : Nat) (c : Scope) (v : Map Nat) : (s.addRel x c v).inputs = s.inputs := rfl
@[simp] theorem State.addRel_now (x : Nat) (c : Scope) (v : Map Nat) : (s.addRel x c v).now = s.now := rfl
@[simp] theorem State.addRel_cursor (x : Nat) (c : Scope) (v : Map Nat) : (s.addRel x c v).cursor = s.cursor := rfl
@[simp] theorem State.addRel_iss (x : Nat) (c : Scope) (v : Map Nat) : (s.addRel x c v).iss = s.iss := rfl
@[simp] theorem State.addRel_kicked (x : Nat) (c : Scope) (v : Map Nat) : (s.addRel x c v).kicked = s.kicked := rfl
@[simp] theorem State.addRel_bad (x : Nat) (c : Scope) (v : Map Nat) : (s.addRel x c v).bad = s.bad := rfl

@[simp] theorem State.addEngine_mem (x : Nat) (c : Scope) (v : Map Nat) : (s.addEngine x c v).mem = s.mem := rfl
@[simp] theorem State.addEngine_poison (x : Nat) (c : Scope) (v : Map Nat) : (s.addEngine x c v).poison = s.poison := rfl
@[simp] theorem State.addEngine_ecc (x : Nat) (c : Scope) (v : Map Nat) : (s.addEngine x c v).ecc = s.ecc := rfl
@[simp] theorem State.addEngine_parity (x : Nat) (c : Scope) (v : Map Nat) : (s.addEngine x c v).parity = s.parity := rfl
@[simp] theorem State.addEngine_log (x : Nat) (c : Scope) (v : Map Nat) : (s.addEngine x c v).log = s.log := rfl
@[simp] theorem State.addEngine_icinvs (x : Nat) (c : Scope) (v : Map Nat) : (s.addEngine x c v).icinvs = s.icinvs := rfl
@[simp] theorem State.addEngine_landed (x : Nat) (c : Scope) (v : Map Nat) : (s.addEngine x c v).landed = s.landed := rfl
@[simp] theorem State.addEngine_lanes (x : Nat) (c : Scope) (v : Map Nat) : (s.addEngine x c v).lanes = s.lanes := rfl
@[simp] theorem State.addEngine_waves (x : Nat) (c : Scope) (v : Map Nat) : (s.addEngine x c v).waves = s.waves := rfl
@[simp] theorem State.addEngine_slices (x : Nat) (c : Scope) (v : Map Nat) : (s.addEngine x c v).slices = s.slices := rfl
@[simp] theorem State.addEngine_clusters (x : Nat) (c : Scope) (v : Map Nat) : (s.addEngine x c v).clusters = s.clusters := rfl
@[simp] theorem State.addEngine_sectors (x : Nat) (c : Scope) (v : Map Nat) : (s.addEngine x c v).sectors = s.sectors := rfl
@[simp] theorem State.addEngine_dieTlbs (x : Nat) (c : Scope) (v : Map Nat) : (s.addEngine x c v).dieTlbs = s.dieTlbs := rfl
@[simp] theorem State.addEngine_dieHot (x : Nat) (c : Scope) (v : Map Nat) : (s.addEngine x c v).dieHot = s.dieHot := rfl
@[simp] theorem State.addEngine_stackHot (x : Nat) (c : Scope) (v : Map Nat) : (s.addEngine x c v).stackHot = s.stackHot := rfl
@[simp] theorem State.addEngine_tasks (x : Nat) (c : Scope) (v : Map Nat) : (s.addEngine x c v).tasks = s.tasks := rfl
@[simp] theorem State.addEngine_launches (x : Nat) (c : Scope) (v : Map Nat) : (s.addEngine x c v).launches = s.launches := rfl
@[simp] theorem State.addEngine_ctxs (x : Nat) (c : Scope) (v : Map Nat) : (s.addEngine x c v).ctxs = s.ctxs := rfl
@[simp] theorem State.addEngine_vfs (x : Nat) (c : Scope) (v : Map Nat) : (s.addEngine x c v).vfs = s.vfs := rfl
@[simp] theorem State.addEngine_reels (x : Nat) (c : Scope) (v : Map Nat) : (s.addEngine x c v).reels = s.reels := rfl
@[simp] theorem State.addEngine_wheels (x : Nat) (c : Scope) (v : Map Nat) : (s.addEngine x c v).wheels = s.wheels := rfl
@[simp] theorem State.addEngine_budget (x : Nat) (c : Scope) (v : Map Nat) : (s.addEngine x c v).budget = s.budget := rfl
@[simp] theorem State.addEngine_ready (x : Nat) (c : Scope) (v : Map Nat) : (s.addEngine x c v).ready = s.ready := rfl
@[simp] theorem State.addEngine_device (x : Nat) (c : Scope) (v : Map Nat) : (s.addEngine x c v).device = s.device := rfl
@[simp] theorem State.addEngine_linksDown (x : Nat) (c : Scope) (v : Map Nat) : (s.addEngine x c v).linksDown = s.linksDown := rfl
@[simp] theorem State.addEngine_retries (x : Nat) (c : Scope) (v : Map Nat) : (s.addEngine x c v).retries = s.retries := rfl
@[simp] theorem State.addEngine_take (x : Nat) (c : Scope) (v : Map Nat) : (s.addEngine x c v).take = s.take := rfl
@[simp] theorem State.addEngine_ending (x : Nat) (c : Scope) (v : Map Nat) : (s.addEngine x c v).ending = s.ending := rfl
@[simp] theorem State.addEngine_lastTake (x : Nat) (c : Scope) (v : Map Nat) : (s.addEngine x c v).lastTake = s.lastTake := rfl
@[simp] theorem State.addEngine_takeAt (x : Nat) (c : Scope) (v : Map Nat) : (s.addEngine x c v).takeAt = s.takeAt := rfl
@[simp] theorem State.addEngine_micros (x : Nat) (c : Scope) (v : Map Nat) : (s.addEngine x c v).micros = s.micros := rfl
@[simp] theorem State.addEngine_notes (x : Nat) (c : Scope) (v : Map Nat) : (s.addEngine x c v).notes = s.notes := rfl
@[simp] theorem State.addEngine_free (x : Nat) (c : Scope) (v : Map Nat) : (s.addEngine x c v).free = s.free := rfl
@[simp] theorem State.addEngine_inputs (x : Nat) (c : Scope) (v : Map Nat) : (s.addEngine x c v).inputs = s.inputs := rfl
@[simp] theorem State.addEngine_now (x : Nat) (c : Scope) (v : Map Nat) : (s.addEngine x c v).now = s.now := rfl
@[simp] theorem State.addEngine_cursor (x : Nat) (c : Scope) (v : Map Nat) : (s.addEngine x c v).cursor = s.cursor := rfl
@[simp] theorem State.addEngine_iss (x : Nat) (c : Scope) (v : Map Nat) : (s.addEngine x c v).iss = s.iss := rfl
@[simp] theorem State.addEngine_kicked (x : Nat) (c : Scope) (v : Map Nat) : (s.addEngine x c v).kicked = s.kicked := rfl
@[simp] theorem State.addEngine_bad (x : Nat) (c : Scope) (v : Map Nat) : (s.addEngine x c v).bad = s.bad := rfl

end Sys2Proof.Machine
end

