-- ==== Sys2Proof/Laws/Lanes.lean ====
section
/-! SUPPORT. One lane of an instruction, and a strand whose lanes act on themselves alone: what a run of them answers. -/

namespace Sys2Proof.Machine

variable {s t : State} {i : Instr} {k : Nat} {l : Lane}

-- Lookups.
@[simp] theorem lane_setLane_self (s : State) (k : Nat) (l : Lane) : (s.setLane k l).lane k = some l := by
  simp [State.setLane, State.lane]
theorem lane_setLane (s : State) (k j : Nat) (l : Lane) :
    (s.setLane k l).lane j = if j = k then some l else s.lane j := by
  simp [State.setLane, State.lane, mget_mset]
theorem lane_setLane_ne (s : State) {k j : Nat} (l : Lane) (h : j ≠ k) : (s.setLane k l).lane j = s.lane j := by
  rw [lane_setLane, if_neg h]
theorem lane_modLane (s : State) (k j : Nat) (f : Lane → Lane) :
    (s.modLane k f).lane j = if j = k then (s.lane k).map f else s.lane j := by
  unfold State.modLane
  split
  · rename_i l h
    simp [lane_setLane, h]
  · rename_i h
    split
    · rename_i e; subst e; simp [h]
    · rfl
@[simp] theorem lane_modLane_self (s : State) (k : Nat) (f : Lane → Lane) :
    (s.modLane k f).lane k = (s.lane k).map f := by rw [lane_modLane, if_pos rfl]
theorem lane_modLane_ne (s : State) {k j : Nat} (f : Lane → Lane) (h : j ≠ k) : (s.modLane k f).lane j = s.lane j := by
  rw [lane_modLane, if_neg h]
theorem modLane_of (f : Lane → Lane) (h : s.lane k = some l) : s.modLane k f = s.setLane k (f l) := by
  simp [State.modLane, h]

theorem Alike.refl (s : State) : Alike s s := ⟨rfl, fun _ => rfl⟩

theorem Alike.setLane (h : Alike s t) (k : Nat) (l : Lane) : Alike s (t.setLane k l) := by
  refine ⟨?_, h.tasks⟩
  have := h.same
  unfold State.setLane
  generalize mset t.lanes k l = m
  rw [this]

theorem Alike.setFree (h : Alike s t) (n : Nat) : Alike s { t with free := n } := by
  refine ⟨?_, h.tasks⟩
  have := h.same
  rw [this]

theorem Alike.bump (h : Alike s t) : Alike s t.bump := by
  refine ⟨?_, h.tasks⟩
  have := h.same
  unfold State.bump
  rw [this]

section alike
variable (h : Alike s t)
include h
theorem Alike.waves : t.waves = s.waves := by rw [h.same]
theorem Alike.slices : t.slices = s.slices := by rw [h.same]
theorem Alike.now : t.now = s.now := by rw [h.same]
theorem Alike.bad : t.bad = s.bad := by rw [h.same]
theorem Alike.mem : t.mem = s.mem := by rw [h.same]
theorem Alike.ctxs : t.ctxs = s.ctxs := by rw [h.same]
theorem Alike.vfs : t.vfs = s.vfs := by rw [h.same]
theorem Alike.iss : t.iss = s.iss := by rw [h.same]
theorem Alike.wave (w : Nat) : t.wave w = s.wave w := by simp [State.wave, h.waves]
theorem Alike.slice (x : Nat) : t.slice x = s.slice x := by simp [State.slice, h.slices, h.now]
theorem Alike.cycle (x : Nat) : t.cycle x = s.cycle x := by simp [State.cycle, h.slice x]
theorem Alike.time (x : Nat) : t.time x = s.time x := by simp [State.time, h.cycle, h.iss]
theorem Alike.nlb (k : Nat) : t.nlb k = s.nlb k := by simp [State.nlb, h.wave]
theorem Alike.slot (k n : Nat) : t.slot k n = s.slot k n := by simp [State.slot, h.wave]
theorem Alike.cap (k : Nat) (l : Lane) : t.cap k l = s.cap k l := by simp [State.cap, h.wave]
theorem Alike.taskNo (k : Nat) : t.taskNo k = s.taskNo k := by simp [State.taskNo, h.wave]
theorem Alike.early (k : Nat) (l : Lane) (i : Instr) : t.early k l i = s.early k l i := by
  simp only [State.early, h.time, h.nlb, h.slot]
theorem Alike.check (k : Nat) (l : Lane) (i : Instr) : t.check k l i = s.check k l i := by
  simp only [State.check, h.early]
theorem Alike.ready (hr : Ready s i k l) (hl : t.lane k = some l) : Ready t i k l where
  here := hl
  unmet := hr.unmet
  pass := by rw [h.check]; exact hr.pass
  onChip := fun p hp => by
    obtain ⟨e, he, ha⟩ := hr.onChip p hp
    exact ⟨e, he, by unfold State.arrived at *; rw [h.time]; exact ha⟩
  fits := by rw [h.cap]; exact hr.fits
end alike

/-- A lane that is not at its meeting address is left unmarked (R142). -/
theorem mark_of_unmet (h : s.lane k = some l) (hm : l.atMeet = false) : s.mark k = s := by
  simp [State.mark, h, hm]

theorem latch_of_arrived (e : Entry) (key : Nat) (h : s.arrived k l e) : s.latch k l key e = (e, s) := by
  unfold State.latch
  rw [if_neg]
  intro hc
  simp only [Bool.and_eq_true, Bool.not_eq_true', decide_eq_true_eq] at hc
  exact h ⟨hc.1.1, hc.1.2, hc.2⟩

theorem operands_of_arrived {ps : List Nat} (h : ∀ p, p ∈ ps → ∃ e, l.stk[p]? = some e ∧ s.arrived k l e) :
    s.operands k l ps = (ps.map (fun p => l.stk.getD p {}), s) := by
  induction ps with
  | nil => rfl
  | cons p r ih =>
    obtain ⟨e, he, ha⟩ := h p (by simp)
    have hp : s.pos k l p = (e, s) := by simp [State.pos, he]
    simp only [State.operands, hp, latch_of_arrived e _ ha, ih (fun q hq => h q (by simp [hq])), List.map_cons,
      List.getD_eq_getElem?_getD, he, Option.getD_some]

theorem drain_of_fits {net : Nat} (h : s.lane k = some l) (hf : l.stk.length + net ≤ s.cap k l) : s.drain k net = s := by
  unfold State.drain drainTo
  rw [h]
  simp only []
  rw [if_neg (by omega)]

theorem retire_of_lane (t : Nat) (vals : List (Word × List Nat)) (pc : Option Word) (h : s.lane k = some l) :
    ∃ d n, s.retire k i t vals pc = { s with free := n }.setLane k (l.after i t d vals pc) := by
  unfold State.retire
  simp only [h]
  by_cases hv : isTracked i vals = true
  · exact ⟨Config.freeNat s.free, s.free + 1, by simp [hv, freeDelay]⟩
  · exact ⟨0, s.free, by simp [hv]⟩

/-- A lane that is ready passes its checks, does not drain, and has its operands. -/
theorem begin_of_ready (h : Ready s i k l) : s.begin_ i k = (s, some (l.ops i)) := by
  unfold State.begin_
  simp only [mark_of_unmet h.here h.unmet, h.here, h.pass, drain_of_fits h.here h.fits, operands_of_arrived h.onChip,
    Lane.ops]

/-- One lane that is ready: its body decides. -/
theorem laneRun_of_ready (t stamp : Nat) (body : State → Nat → List Entry → State × LOut) (h : Ready s i k l) :
    laneRun i t stamp body s k = (body s k (l.ops i)).1.conclude k i t stamp (body s k (l.ops i)).2 := by
  unfold laneRun
  rw [begin_of_ready h]

/-- A lane whose results fit on chip does not drain. -/
theorem mustDrain_of_fits (h : s.lane k = some l)
    (hf : l.stk.length + ((shapeOf i).pushes - (shapeOf i).pops) ≤ s.cap k l) : s.mustDrain i k = false := by
  unfold State.mustDrain
  have : ¬ s.cap k l < l.stk.length + ((shapeOf i).pushes - (shapeOf i).pops) := by omega
  simp [h, this]

/-- With every lane ready and the results on chip, the strand issues in this cycle (R86). -/
theorem readied_of_fits {ks : List Nat} (h : ∀ k, k ∈ ks → s.mustDrain i k = false) : s.readied ks i = s := by
  unfold State.readied
  have : ks.any (s.mustDrain i) = false := by
    rw [List.any_eq_false]
    exact fun k hk => by simp [h k hk]
  simp [this]

theorem readied_of_ready {ks : List Nat} (h : ∀ k, k ∈ ks → ∃ l, Ready s i k l) : s.readied ks i = s :=
  readied_of_fits fun k hk => by
    obtain ⟨l, hl⟩ := h k hk
    exact mustDrain_of_fits hl.here hl.fits

theorem settled_of_prompt (h : s.iss.late = false) : s.settled = s := by simp [State.settled, h]

/-- A body that acts on its own lane alone: it makes `g` of the lane, and completes with `out`. -/
structure Confined (s : State) (i : Instr) (body : State → Nat → List Entry → State × LOut) (Q : Map Task → Prop)
    (g : Nat → Lane → Lane) (vals : Nat → Lane → List (Word × List Nat)) (pc : Nat → Lane → Option Word) : Prop where
  run : ∀ k, k ∈ s.active → ∀ l, s.lane k = some l → ∀ u, Alike s u → Q u.tasks → u.lane k = some l →
    ∃ u', (body u k (l.ops i) = (u', match pc k l with
        | none => .go (vals k l)
        | some p => .jump p (vals k l))) ∧
      Alike s u' ∧ Q u'.tasks ∧ u'.lane k = some (g k l) ∧ ∀ j, j ≠ k → u'.lane j = u.lane j

/-- What a run over some of the strand's lanes leaves. -/
theorem fold_of_confined {body : State → Nat → List Entry → State × LOut} {Q : Map Task → Prop}
    {g : Nat → Lane → Lane} {vals : Nat → Lane → List (Word × List Nat)} {pc : Nat → Lane → Option Word}
    (hc : Confined s i body Q g vals pc) (c stamp : Nat) (ks : List Nat) (u : State) (hu : Alike s u) (hq : Q u.tasks)
    (nd : ks.Nodup) (hin : ∀ k, k ∈ ks → k ∈ s.active) (hr : ∀ k, k ∈ ks → ∃ l, Ready s i k l)
    (hl : ∀ k, k ∈ ks → u.lane k = s.lane k) :
    ∃ t, ks.foldl (laneRun i c stamp body) u = t ∧ Alike s t ∧ Q t.tasks ∧
      (∀ k, k ∈ ks → ∀ l, s.lane k = some l → ∃ d, t.lane k = some ((g k l).after i c d (vals k l) (pc k l))) ∧
      (∀ k, k ∉ ks → t.lane k = u.lane k) := by
  induction ks generalizing u with
  | nil => exact ⟨u, rfl, hu, hq, by simp, fun _ _ => rfl⟩
  | cons k r ih =>
    obtain ⟨l, hk⟩ := hr k (by simp)
    have hkl : u.lane k = some l := by rw [hl k (by simp)]; exact hk.here
    obtain ⟨u', hb, ha, hq', hg, ho⟩ := hc.run k (hin k (by simp)) l hk.here u hu hq hkl
    have hret : ∃ d n, laneRun i c stamp body u k =
        { u' with free := n }.setLane k ((g k l).after i c d (vals k l) (pc k l)) := by
      rw [laneRun_of_ready c stamp body (hu.ready hk hkl), hb]
      cases hpc : pc k l with
      | none => exact retire_of_lane c (vals k l) none hg
      | some p => exact retire_of_lane c (vals k l) (some p) hg
    obtain ⟨d, n, hd⟩ := hret
    have nd' := List.nodup_cons.1 nd
    have halike : Alike s ({ u' with free := n }.setLane k ((g k l).after i c d (vals k l) (pc k l))) :=
      (ha.setFree n).setLane k _
    have hlane : ∀ j, ({ u' with free := n }.setLane k ((g k l).after i c d (vals k l) (pc k l))).lane j =
        if j = k then some ((g k l).after i c d (vals k l) (pc k l)) else u.lane j := by
      intro j
      rw [lane_setLane]
      split
      · rfl
      · rename_i hj; exact ho j hj
    obtain ⟨t, ht, hat, hqt, hdone, hrest⟩ := ih _ halike hq' nd'.2 (fun j hj => hin j (by simp [hj]))
      (fun j hj => hr j (by simp [hj])) (fun j hj => by
        rw [hlane, if_neg (by rintro rfl; exact nd'.1 hj)]; exact hl j (by simp [hj]))
    refine ⟨t, ?_, hat, hqt, ?_, ?_⟩
    · rw [List.foldl_cons, hd]; exact ht
    · intro j hj l' hl'
      rcases List.mem_cons.1 hj with rfl | hj
      · rw [hk.here] at hl'
        obtain rfl := Option.some.inj hl'
        exact ⟨d, by rw [hrest _ nd'.1, hlane, if_pos rfl]⟩
      · exact hdone j hj l' hl'
    · intro j hj
      simp only [List.mem_cons, not_or] at hj
      rw [hrest j hj.2, hlane, if_neg hj.1]

/-- A strand whose lanes act on themselves alone: each completes, and nothing else changes. -/
theorem runEach_of_confined {body : State → Nat → List Entry → State × LOut} {Q : Map Task → Prop}
    {g : Nat → Lane → Lane} {vals : Nat → Lane → List (Word × List Nat)} {pc : Nat → Lane → Option Word}
    (hs : ReadyStrand s i) (hq : Q s.tasks) (hc : Confined s i body Q g vals pc) :
    ∃ t, runEach i body s = t ∧ Alike s t ∧ Q t.tasks ∧
      (∀ k, k ∈ s.active → ∀ l, s.lane k = some l →
        ∃ d, t.lane k = some ((g k l).after i s.issueCycle d (vals k l) (pc k l))) ∧
      (∀ k, k ∉ s.active → t.lane k = s.lane k) := by
  obtain ⟨t, ht, ha, hqt, hd, hr⟩ := fold_of_confined hc s.issueCycle s.nextId s.active s (Alike.refl s) hq hs.once
    (fun _ h => h) hs.ready (fun _ _ => rfl)
  refine ⟨t.bump, ?_, ha.bump, hqt, hd, hr⟩
  unfold runEach
  simp only [readied_of_ready hs.ready, ht]
  exact settled_of_prompt (by rw [ha.bump.iss]; exact hs.sound.late)

theorem finish_of_sound (h : s.bad = none) : finish s = .next s := by simp [finish, h]

/-- The same, for an instruction that a strand executes. -/
theorem exec_of_confined {body : State → Nat → List Entry → State × LOut} {Q : Map Task → Prop}
    {g : Nat → Lane → Lane} {vals : Nat → Lane → List (Word × List Nat)} {pc : Nat → Lane → Option Word}
    (hs : ReadyStrand s i) (hq : Q s.tasks) (hc : Confined s i body Q g vals pc) :
    ∃ t, finish (runEach i body s) = .next t ∧ Alike s t ∧ Q t.tasks ∧
      (∀ k, k ∈ s.active → ∀ l, s.lane k = some l →
        ∃ d, t.lane k = some ((g k l).after i s.issueCycle d (vals k l) (pc k l))) ∧
      (∀ k, k ∉ s.active → t.lane k = s.lane k) := by
  obtain ⟨t, ht, ha, hr⟩ := runEach_of_confined hs hq hc
  exact ⟨t, by rw [ht, finish_of_sound (by rw [ha.bad]; exact hs.sound.bad)], ha, hr⟩

end Sys2Proof.Machine
end

