-- ==== Sys2Proof/Laws/Pure.lean ====
section
/-! SUPPORT. What `Lane.after` makes of a lane, and the instructions that compute, move or branch on their own lane. -/

namespace Sys2Proof.Machine

variable {s t : State} {i : Instr} {k : Nat} {l : Lane}

-- The stack in use.
@[simp] theorem setStk_stk (l : Lane) (c : List Entry) (g : Nat) : (l.setStk c g).stk = c := by
  unfold Lane.setStk Lane.stk; split <;> simp [*]
@[simp] theorem setStk_back (l : Lane) (c : List Entry) (g : Nat) : (l.setStk c g).back = g := by
  unfold Lane.setStk Lane.back; split <;> simp [*]
@[simp] theorem setStk_ts (l : Lane) (c : List Entry) (g : Nat) : (l.setStk c g).ts = l.ts := by
  unfold Lane.setStk; split <;> rfl
@[simp] theorem notePast_stk (l : Lane) (n : Nat) (v : Word) (d : List Nat) : (notePast l n v d).stk = l.stk := by
  unfold notePast; split <;> [simp only; rfl]; split <;> rfl
@[simp] theorem notePast_back (l : Lane) (n : Nat) (v : Word) (d : List Nat) : (notePast l n v d).back = l.back := by
  unfold notePast; split <;> [simp only; rfl]; split <;> rfl
@[simp] theorem push_stk (l : Lane) (e : Entry) : (l.push e).stk = e :: l.stk := by simp [Lane.push]
@[simp] theorem push_back (l : Lane) (e : Entry) : (l.push e).back = l.back := by simp [Lane.push]
@[simp] theorem popN_stk (l : Lane) (n : Nat) : (l.popN n).stk = l.stk.drop n := by simp [Lane.popN]
@[simp] theorem popN_back (l : Lane) (n : Nat) : (l.popN n).back = l.back - (n - l.stk.length) := by simp [Lane.popN]

@[simp] theorem setStk_rest (l : Lane) (c : List Entry) (g : Nat) : (l.setStk c g).rest = l.rest := by
  unfold Lane.setStk; split <;> rfl
@[simp] theorem notePast_rest (l : Lane) (n : Nat) (v : Word) (d : List Nat) : (notePast l n v d).rest = l.rest := by
  unfold notePast; split <;> [simp only; rfl]; split <;> rfl
@[simp] theorem push_rest (l : Lane) (e : Entry) : (l.push e).rest = l.rest := by simp [Lane.push]
@[simp] theorem popN_rest (l : Lane) (n : Nat) : (l.popN n).rest = l.rest := by simp [Lane.popN]
theorem rest_pc {a b : Lane} (h : a.rest = b.rest) : a.pc = b.pc := by
  have := congrArg Lane.pc h; exact this
theorem rest_ts {a b : Lane} (h : a.rest = b.rest) : a.ts = b.ts := by
  have := congrArg Lane.ts h; exact this

/-- The entries that an instruction pushes (R49). -/
def pushed (l : Lane) (i : Instr) (t d : Nat) (vals : List (Word × List Nat)) : List Entry :=
  vals.map (fun v => { val := v.1, ready := if isTracked i vals then t + 1 + d else t + (shapeOf i).lat.cycles,
                       pend := isTracked i vals, src := l.pc.toNat, deps := v.2, acc := loads i })

theorem foldl_push (l : Lane) (f : Lane → Word × List Nat → Entry) (vs : List (Word × List Nat))
    (hf : ∀ a b : Lane, a.rest = b.rest → f a = f b) :
    (vs.foldl (fun l v => l.push (f l v)) l).stk = (vs.map (f l)).reverse ++ l.stk ∧
    (vs.foldl (fun l v => l.push (f l v)) l).back = l.back ∧
    (vs.foldl (fun l v => l.push (f l v)) l).rest = l.rest := by
  induction vs generalizing l with
  | nil => simp
  | cons v r ih =>
    obtain ⟨h1, h2, h3⟩ := ih (l.push (f l v))
    have hp : (l.push (f l v)).rest = l.rest := push_rest _ _
    refine ⟨?_, ?_, ?_⟩
    · simp only [List.foldl_cons, h1, push_stk, hf _ _ hp, List.map_cons, List.reverse_cons, List.append_assoc,
        List.singleton_append]
    · simp only [List.foldl_cons, h2, push_back]
    · simp only [List.foldl_cons, h3, push_rest]

/-- The lane before its PC moves on. -/
theorem after_core (l : Lane) (i : Instr) (t d : Nat) (vals : List (Word × List Nat)) (pc : Option Word) :
    ∃ m : Lane, m.stk = (pushed l i t d vals).reverse ++ l.stk.drop (shapeOf i).pops ∧
      m.back = l.back - ((shapeOf i).pops - l.stk.length) ∧ m.rest = l.rest ∧
      l.after i t d vals pc = { m with
        pc := pc.getD (l.pc + BitVec.ofNat 64 (shapeOf i).len)
        next := t + 1 + (if l.ilk = .lock then 0 else (shapeOf i).stall)
        wait := .none } := by
  have h := foldl_push (l.popN (shapeOf i).pops)
    (fun l v => { val := v.1, ready := if isTracked i vals then t + 1 + d else t + (shapeOf i).lat.cycles,
                  pend := isTracked i vals, src := l.pc.toNat, deps := v.2, acc := loads i }) vals
    (fun a b hab => by simp only [rest_pc hab])
  refine ⟨_, ?_, ?_, ?_, rfl⟩
  · rw [h.1, popN_stk]
    have : (l.popN (shapeOf i).pops).pc = l.pc := rest_pc (popN_rest _ _)
    simp [pushed, this]
  · rw [h.2.1, popN_back]
  · rw [h.2.2, popN_rest]

theorem after_stk (l : Lane) (i : Instr) (t d : Nat) (vals : List (Word × List Nat)) (pc : Option Word) :
    (l.after i t d vals pc).stk = (pushed l i t d vals).reverse ++ l.stk.drop (shapeOf i).pops := by
  obtain ⟨m, h1, _, _, h4⟩ := after_core l i t d vals pc
  rw [h4, ← h1]; rfl

theorem after_back (l : Lane) (i : Instr) (t d : Nat) (vals : List (Word × List Nat)) (pc : Option Word) :
    (l.after i t d vals pc).back = l.back - ((shapeOf i).pops - l.stk.length) := by
  obtain ⟨m, _, h2, _, h4⟩ := after_core l i t d vals pc
  rw [h4, ← h2]; rfl

/-- What of a lane no instruction changes by completing: all but its stack, its PC and its issue. -/
theorem after_rest (l : Lane) (i : Instr) (t d : Nat) (vals : List (Word × List Nat)) (pc : Option Word) :
    (l.after i t d vals pc).rest = { l.rest with
      pc := pc.getD (l.pc + BitVec.ofNat 64 (shapeOf i).len)
      next := t + 1 + (if l.ilk = .lock then 0 else (shapeOf i).stall)
      wait := .none } := by
  obtain ⟨m, _, _, h3, h4⟩ := after_core l i t d vals pc
  rw [h4, ← h3]; rfl

-- Flags.
@[simp] theorem setFlags_none (s : State) (k : Nat) : s.setFlags k {} = s := by simp [State.setFlags]

theorem lane_setFlags (s : State) (k j : Nat) (f : Flags) :
    (s.setFlags k f).lane j = if j = k then (s.lane k).map (fun l => l.flagged f) else s.lane j := by
  have h1 : ∀ g, (s.modTask (s.taskNo k) g).lane j = s.lane j := fun g => rfl
  have h2 : ∀ g, (s.modTask (s.taskNo k) g).lane k = s.lane k := fun g => rfl
  unfold State.setFlags Lane.flagged
  by_cases hs : (f.sati || f.satf) = true <;> by_cases hd : f.dz = true <;>
    simp only [hs, hd, if_true, if_false, Bool.false_eq_true, lane_modLane, h1, h2]
  all_goals
    split
    · rename_i e; subst e; cases s.lane j <;> rfl
    · rfl

theorem setFlags_tasks (s : State) (k : Nat) (f : Flags) (h : f.sati = false ∧ f.satf = false) :
    (s.setFlags k f).tasks = s.tasks := by
  unfold State.setFlags
  simp only [h.1, h.2, Bool.or_self, Bool.false_eq_true, if_false]
  split <;> simp

theorem Alike.modLane (h : Alike s t) (k : Nat) (g : Lane → Lane) : Alike s (t.modLane k g) := by
  unfold State.modLane
  split
  · exact h.setLane k _
  · exact h

theorem Alike.modFlags (h : Alike s t) (n : Nat) (g : Task → Task) (hg : ∀ x, (g x).noFlags = x.noFlags) :
    Alike s (t.modTask n g) := by
  constructor
  · have := h.same
    unfold State.modTask
    generalize mmod t.tasks n g = m
    rw [this]
  · intro j
    rw [← h.tasks j]
    simp only [State.task, State.modTask, mget_mmod]
    split
    · rename_i e; subst e; rw [Option.map_map]; congr 1; funext x; exact hg x
    · rfl

theorem Alike.setFlags (h : Alike s t) (k : Nat) (f : Flags) : Alike s (t.setFlags k f) := by
  unfold State.setFlags
  simp only []
  have hm := h.modFlags (t.taskNo k) (fun t => { t with sati := t.sati || f.sati, satf := t.satf || f.satf })
    (fun _ => rfl)
  split <;> split
  · exact hm.modLane k _
  · exact h.modLane k _
  · exact hm
  · exact h

/-- What a lane instruction on values does: the results and flags of `f`, where it does not trap. -/
theorem runPure_confined (f : Lane → List Word → Pure) (s : State) (i : Instr)
    (ht : ∀ k, k ∈ s.active → ∀ l, s.lane k = some l → (f l ((l.ops i).map (·.val))).trap = none) :
    Confined s i (fun s k ops =>
      match s.lane k with
      | none => (s, .left)
      | some l =>
        let r := f l (ops.map (·.val))
        let s1 := s.setFlags k r.flags
        match r.trap with
        | some c => (s1, .trap c)
        | none => (s1, .go (r.push.map (fun v => (v, depsOf ops)))))
      (fun m => (∀ k, k ∈ s.active → ∀ l, s.lane k = some l →
          (f l ((l.ops i).map (·.val))).flags.sati = false ∧ (f l ((l.ops i).map (·.val))).flags.satf = false) →
        m = s.tasks)
      (fun _ l => l.flagged (f l ((l.ops i).map (·.val))).flags)
      (fun _ l => (f l ((l.ops i).map (·.val))).push.map (fun v => (v, depsOf (l.ops i))))
      (fun _ _ => none) where
  run := by
    intro k hk l hl u hu hq hul
    refine ⟨u.setFlags k (f l ((l.ops i).map (·.val))).flags, ?_, hu.setFlags k _, ?_, ?_, ?_⟩
    · simp only [hul, ht k hk l hl]
    · intro hall
      rw [setFlags_tasks _ _ _ (hall k hk l hl)]; exact hq hall
    · rw [lane_setFlags, if_pos rfl, hul]; rfl
    · intro j hj
      rw [lane_setFlags, if_neg hj]

/-- A lane instruction on values completes in every lane of a strand that is ready. -/
theorem exec_runPure (f : Lane → List Word → Pure) (s : State) (i : Instr) (hs : ReadyStrand s i)
    (ht : ∀ k, k ∈ s.active → ∀ l, s.lane k = some l → (f l ((l.ops i).map (·.val))).trap = none) :
    ∃ t, finish (runPure i f s) = .next t ∧ Alike s t ∧
      EachDone s t i (fun _ l => l.flagged (f l ((l.ops i).map (·.val))).flags)
        (fun _ l => (f l ((l.ops i).map (·.val))).push.map (fun v => (v, depsOf (l.ops i)))) (fun _ _ => none) ∧
      OthersSame s t ∧
      ((∀ k, k ∈ s.active → ∀ l, s.lane k = some l →
          (f l ((l.ops i).map (·.val))).flags.sati = false ∧ (f l ((l.ops i).map (·.val))).flags.satf = false) →
        t.tasks = s.tasks) := by
  obtain ⟨t, h1, h2, h3, h4, h5⟩ := exec_of_confined hs (fun _ => rfl) (runPure_confined f s i ht)
  exact ⟨t, h1, h2, h4, h5, h3⟩

/-- A body that leaves its lane as it is. -/
theorem confined_of_vals {body : State → Nat → List Entry → State × LOut} (vals : Nat → Lane → List (Word × List Nat))
    (pc : Nat → Lane → Option Word)
    (hb : ∀ k, k ∈ s.active → ∀ l, s.lane k = some l → ∀ u, Alike s u → u.lane k = some l → body u k (l.ops i) = (u,
      match pc k l with
      | none => .go (vals k l)
      | some p => .jump p (vals k l))) :
    Confined s i body (fun m => m = s.tasks) (fun _ l => l) vals pc where
  run := fun k hk l hl u hu hq hul => ⟨u, hb k hk l hl u hu hul, hu, hq, hul, fun _ _ => rfl⟩

/-- A stack instruction completes in every lane of a strand that is ready. -/
theorem exec_runMove (f : List Entry → List Entry) (s : State) (i : Instr) (hs : ReadyStrand s i) :
    ∃ t, finish (runMove i f s) = .next t ∧ Alike s t ∧ t.tasks = s.tasks ∧
      EachDone s t i (fun _ l => l) (fun _ l => (f (l.ops i)).map (fun e => (e.val, e.deps))) (fun _ _ => none) ∧
      OthersSame s t :=
  exec_of_confined (Q := fun m => m = s.tasks) hs rfl (confined_of_vals _ _ (fun _ _ _ _ _ _ _ => rfl))

end Sys2Proof.Machine
end

