-- ==== Sys2Proof/Laws/Elected.lean ====
section
/-! SUPPORT. Instructions that a strand executes once, with the operands of its elected lane (R217). -/

namespace Sys2Proof.Machine

variable {s u : State} {i : Instr}

/-- With every lane ready, all of them pass. -/
theorem passing_of_ready (ks : List Nat) (h : ∀ k, k ∈ ks → ∃ l, Ready s i k l) : passing i s ks = (s, ks) := by
  induction ks with
  | nil => rfl
  | cons k r ih =>
    obtain ⟨l, hl⟩ := h k (by simp)
    simp only [passing, mark_of_unmet hl.here hl.unmet, hl.here, hl.pass, drain_of_fits hl.here hl.fits,
      ih (fun j hj => h j (by simp [hj]))]

/-- Lanes retire one after the other; nothing else changes. -/
theorem fold_retire (c : Nat) (vals : List (Word × List Nat)) (ks : List Nat) (u : State) (nd : ks.Nodup)
    (h : ∀ k, k ∈ ks → ∃ m, u.lane k = some m) :
    ∃ t, ks.foldl (fun s k => s.retire k i c vals none) u = t ∧
      t = { u with lanes := t.lanes, free := t.free } ∧
      (∀ k, k ∈ ks → ∀ m, u.lane k = some m → ∃ d, t.lane k = some (m.after i c d vals none)) ∧
      (∀ k, k ∉ ks → t.lane k = u.lane k) := by
  induction ks generalizing u with
  | nil => exact ⟨u, rfl, rfl, by simp, fun _ _ => rfl⟩
  | cons k r ih =>
    obtain ⟨m, hm⟩ := h k (by simp)
    obtain ⟨d, n, hd⟩ := retire_of_lane (i := i) c vals none hm
    have nd' := List.nodup_cons.1 nd
    have hlane : ∀ j, ({ u with free := n }.setLane k (m.after i c d vals none)).lane j =
        if j = k then some (m.after i c d vals none) else u.lane j := fun j => lane_setLane ..
    obtain ⟨t, h1, h2, h3, h4⟩ := ih ({ u with free := n }.setLane k (m.after i c d vals none)) nd'.2 (fun j hj => by
      obtain ⟨m', hm'⟩ := h j (by simp [hj])
      exact ⟨m', by rw [hlane, if_neg (fun (e : j = k) => nd'.1 (e ▸ hj))]; exact hm'⟩)
    refine ⟨t, by rw [List.foldl_cons, hd]; exact h1, by rw [h2]; rfl, ?_, ?_⟩
    · intro j hj m' hm'
      rcases List.mem_cons.1 hj with rfl | hj
      · rw [hm] at hm'
        obtain rfl := Option.some.inj hm'
        exact ⟨d, by rw [h4 _ nd'.1, hlane, if_pos rfl]⟩
      · exact h3 j hj m' (by rw [hlane, if_neg (fun (e : j = k) => nd'.1 (e ▸ hj))]; exact hm')
    · intro j hj
      simp only [List.mem_cons, not_or] at hj
      rw [h4 j hj.2, hlane, if_neg hj.1]

/-- The strand executes once: what the body makes of the state, and each lane retired with the same results. -/
theorem runElected_of_all {body : State → List Nat → Nat → List Entry → State × EOut} {e : Nat} {r : List Nat} {l : Lane}
    {vals : List (Word × List Nat)} (hs : ReadyStrand s i) (ha : s.active = e :: r) (hl : s.lane e = some l)
    (hb : body s s.active e (l.ops i) = (u, .all vals)) (hp : u.iss.late = false)
    (hk : ∀ k, k ∈ s.active → ∃ m, u.lane k = some m) :
    ∃ t, runElected i body s = t ∧ t = { u with lanes := t.lanes, free := t.free, nextId := u.nextId + 1 } ∧
      (∀ k, k ∈ s.active → ∀ m, u.lane k = some m → ∃ d, t.lane k = some (m.after i s.issueCycle d vals none)) ∧
      (∀ k, k ∉ s.active → t.lane k = u.lane k) := by
  obtain ⟨l', hr⟩ := hs.ready e (by rw [ha]; simp)
  have he := hr.here
  rw [hl] at he
  obtain rfl := Option.some.inj he
  obtain ⟨t, h1, h2, h3, h4⟩ := fold_retire (i := i) s.issueCycle vals s.active u hs.once hk
  refine ⟨t.bump, ?_, ?_, h3, h4⟩
  · unfold runElected
    have hb' : body s (e :: r) e (List.map (fun p => l.stk.getD p {}) (shapeOf i).reads) = (u, .all vals) := by
      rw [← ha]; exact hb
    have hq := passing_of_ready s.active hs.ready
    have hi := readied_of_ready hs.ready
    rw [ha] at h1 hq hi
    simp only [ha, hi, hq, hl, operands_of_arrived hr.onChip, hb', h1]
    exact settled_of_prompt (by rw [show t.bump.iss = t.iss from rfl, h2]; exact hp)
  · rw [h2]; rfl

/-- The same, for an instruction that a strand executes. -/
theorem exec_of_all {body : State → List Nat → Nat → List Entry → State × EOut} {e : Nat} {r : List Nat} {l : Lane}
    {vals : List (Word × List Nat)} (hs : ReadyStrand s i) (ha : s.active = e :: r) (hl : s.lane e = some l)
    (hb : body s s.active e (l.ops i) = (u, .all vals)) (hp : Begun u)
    (hk : ∀ k, k ∈ s.active → ∃ m, u.lane k = some m) :
    ∃ t, finish (runElected i body s) = .next t ∧
      t = { u with lanes := t.lanes, free := t.free, nextId := u.nextId + 1 } ∧
      (∀ k, k ∈ s.active → ∀ m, u.lane k = some m → ∃ d, t.lane k = some (m.after i s.issueCycle d vals none)) ∧
      (∀ k, k ∉ s.active → t.lane k = u.lane k) := by
  obtain ⟨t, h1, h2, h3⟩ := runElected_of_all hs ha hl hb hp.late hk
  exact ⟨t, by rw [h1, finish_of_sound (by rw [h2]; exact hp.bad)], h2, h3⟩

/-- The lanes of a strand that is ready are there, when lanes are as before. -/
theorem lanes_of_same (hs : ReadyStrand s i) (hl : ∀ k, k ∈ s.active → u.lane k = s.lane k) :
    ∀ k, k ∈ s.active → ∃ m, u.lane k = some m := fun k hk => by
  obtain ⟨l, hr⟩ := hs.ready k hk
  exact ⟨l, by rw [hl k hk]; exact hr.here⟩

end Sys2Proof.Machine
end

