-- ==== Sys2Proof/Laws/Alone.lean ====
section
/-! SUPPORT. A strand of one lane, whose instruction may act on more than its own lane. -/

namespace Sys2Proof.Machine

variable {s u : State} {i : Instr} {k : Nat} {l m : Lane}

theorem Alone.strand (h : Alone s i k l) : ReadyStrand s i where
  sound := h.sound
  some_ := by rw [h.only]; simp
  once := by rw [h.only]; simp
  ready := fun j hj => by
    rw [h.only, List.mem_singleton] at hj
    exact ⟨l, hj ▸ h.ready⟩

theorem Alone.here (h : Alone s i k l) : s.lane k = some l := h.ready.here

/-- One lane alone: its body decides. -/
theorem runEach_of_alone (h : Alone s i k l) (body : State → Nat → List Entry → State × LOut) :
    runEach i body s =
      ((body s k (l.ops i)).1.conclude k i s.issueCycle s.nextId (body s k (l.ops i)).2).bump.settled := by
  unfold runEach
  simp only [readied_of_ready h.strand.ready]
  rw [h.only, List.foldl_cons, List.foldl_nil, laneRun_of_ready _ _ _ h.ready]

/-- The lane completes from the state that its body has made. -/
theorem completes_of_go {body : State → Nat → List Entry → State × LOut} {vals : List (Word × List Nat)}
    (h : Alone s i k l) (hb : body s k (l.ops i) = (u, .go vals)) (hp : u.iss.late = false) (hl : u.lane k = some m) :
    ∃ t, runEach i body s = t ∧ t.bad = u.bad ∧ Completes s u t i k vals none := by
  obtain ⟨d, n, hd⟩ := retire_of_lane (i := i) s.issueCycle vals none hl
  refine ⟨({ u with free := n }.setLane k (m.after i s.issueCycle d vals none)).bump, ?_, rfl, m, d, n, hl, rfl⟩
  rw [runEach_of_alone h, hb]
  simp only [State.conclude]
  rw [hd, settled_of_prompt (by exact hp)]

theorem completes_of_jump {body : State → Nat → List Entry → State × LOut} {vals : List (Word × List Nat)} {pc : Word}
    (h : Alone s i k l) (hb : body s k (l.ops i) = (u, .jump pc vals)) (hp : u.iss.late = false)
    (hl : u.lane k = some m) :
    ∃ t, runEach i body s = t ∧ t.bad = u.bad ∧ Completes s u t i k vals (some pc) := by
  obtain ⟨d, n, hd⟩ := retire_of_lane (i := i) s.issueCycle vals (some pc) hl
  refine ⟨({ u with free := n }.setLane k (m.after i s.issueCycle d vals (some pc))).bump, ?_, rfl, m, d, n, hl, rfl⟩
  rw [runEach_of_alone h, hb]
  simp only [State.conclude]
  rw [hd, settled_of_prompt (by exact hp)]

/-- The same, for an instruction that a lane executes. -/
theorem exec_of_go {body : State → Nat → List Entry → State × LOut} {vals : List (Word × List Nat)}
    (h : Alone s i k l) (hb : body s k (l.ops i) = (u, .go vals)) (hp : Begun u) (hl : u.lane k = some m) :
    ∃ t, finish (runEach i body s) = .next t ∧ Completes s u t i k vals none := by
  obtain ⟨t, ht, hbd, hc⟩ := completes_of_go h hb hp.late hl
  exact ⟨t, by rw [ht, finish_of_sound (hbd.trans hp.bad)], hc⟩

theorem ops_getD_val (l : Lane) (i : Instr) (n : Nat) : ((l.ops i).getD n {}).val = l.operand i n := by
  unfold Lane.operand
  rw [List.getD_eq_getElem?_getD, List.getD_eq_getElem?_getD, List.getElem?_map]
  cases (l.ops i)[n]? <;> rfl

/-- An elected instruction of a strand: every lane completes from the state that the command has made. -/
theorem allComplete_of {body : State → List Nat → Nat → List Entry → State × EOut} {e : Nat} {r : List Nat}
    {vals : List (Word × List Nat)} (hs : ReadyStrand s i) (ha : s.active = e :: r) (hl : s.lane e = some l)
    (hb : body s s.active e (l.ops i) = (u, .all vals)) (hp : Begun u)
    (hk : ∀ k, k ∈ s.active → ∃ m, u.lane k = some m) :
    ∃ t, finish (runElected i body s) = .next t ∧ AllComplete s u t i vals := by
  obtain ⟨t, h1, h2, h3, h4⟩ := exec_of_all hs ha hl hb hp hk
  refine ⟨t, h1, h2, fun k hk' => ?_, h4⟩
  obtain ⟨m, hm⟩ := hk k hk'
  obtain ⟨d, hd⟩ := h3 k hk' m hm
  exact ⟨m, d, hm, hd⟩

end Sys2Proof.Machine
end

