-- ==== Sys2Proof/Laws/Dispatch.lean ====
section
/-! SUPPORT. What `exec` runs for each instruction: one lemma per arm. -/

namespace Sys2Proof.Machine

variable (s : State)

@[simp] theorem exec_nop w : exec (.nop w) s = execNop w s := rfl
@[simp] theorem exec_lit w v : exec (.lit w v) s = execLit w v s := rfl
@[simp] theorem exec_dup w : exec (.dup w) s = execDup w s := rfl
@[simp] theorem exec_drop w : exec (.drop w) s = execDrop w s := rfl
@[simp] theorem exec_swap w : exec (.swap w) s = execSwap w s := rfl
@[simp] theorem exec_over w : exec (.over w) s = execOver w s := rfl
@[simp] theorem exec_rot w : exec (.rot w) s = execRot w s := rfl
@[simp] theorem exec_nip w : exec (.nip w) s = execNip w s := rfl
@[simp] theorem exec_tuck w : exec (.tuck w) s = execTuck w s := rfl
@[simp] theorem exec_pick w n : exec (.pick w n) s = execPick w n s := rfl
@[simp] theorem exec_bury w n : exec (.bury w n) s = execBury w n s := rfl
@[simp] theorem exec_dropn w n : exec (.dropn w n) s = execDropn w n s := rfl
@[simp] theorem exec_depth w : exec (.depth w) s = execDepth w s := rfl
@[simp] theorem exec_dup2 w : exec (.dup2 w) s = execDup2 w s := rfl
@[simp] theorem exec_swap2 w : exec (.swap2 w) s = execSwap2 w s := rfl
@[simp] theorem exec_litw w v : exec (.litw w v) s = execLitw w v s := rfl
@[simp] theorem exec_litx w v : exec (.litx w v) s = execLitx w v s := rfl
@[simp] theorem exec_lith w v : exec (.lith w v) s = execLith w v s := rfl
@[simp] theorem exec_litf w v : exec (.litf w v) s = execLitf w v s := rfl
@[simp] theorem exec_add w t : exec (.add w t) s = execAdd w t s := rfl
@[simp] theorem exec_sub w t : exec (.sub w t) s = execSub w t s := rfl
@[simp] theorem exec_mul w t : exec (.mul w t) s = execMul w t s := rfl
@[simp] theorem exec_mulh w t : exec (.mulh w t) s = execMulh w t s := rfl
@[simp] theorem exec_mad w t : exec (.mad w t) s = execMad w t s := rfl
@[simp] theorem exec_div w t : exec (.div w t) s = execDiv w t s := rfl
@[simp] theorem exec_rem w t : exec (.rem w t) s = execRem w t s := rfl
@[simp] theorem exec_neg w t : exec (.neg w t) s = execNeg w t s := rfl
@[simp] theorem exec_abs w t : exec (.abs w t) s = execAbs w t s := rfl
@[simp] theorem exec_min w t : exec (.min w t) s = execMin w t s := rfl
@[simp] theorem exec_max w t : exec (.max w t) s = execMax w t s := rfl
@[simp] theorem exec_adds w t : exec (.adds w t) s = execAdds w t s := rfl
@[simp] theorem exec_subs w t : exec (.subs w t) s = execSubs w t s := rfl
@[simp] theorem exec_clamp w t : exec (.clamp w t) s = execClamp w t s := rfl
@[simp] theorem exec_and w t : exec (.and w t) s = execAnd w t s := rfl
@[simp] theorem exec_or w t : exec (.or w t) s = execOr w t s := rfl
@[simp] theorem exec_xor w t : exec (.xor w t) s = execXor w t s := rfl
@[simp] theorem exec_not w t : exec (.not w t) s = execNot w t s := rfl
@[simp] theorem exec_shl w t : exec (.shl w t) s = execShl w t s := rfl
@[simp] theorem exec_shr w t : exec (.shr w t) s = execShr w t s := rfl
@[simp] theorem exec_rotl w t : exec (.rotl w t) s = execRotl w t s := rfl
@[simp] theorem exec_popc w t : exec (.popc w t) s = execPopc w t s := rfl
@[simp] theorem exec_clz w t : exec (.clz w t) s = execClz w t s := rfl
@[simp] theorem exec_ctz w t : exec (.ctz w t) s = execCtz w t s := rfl
@[simp] theorem exec_bfx w t : exec (.bfx w t) s = execBfx w t s := rfl
@[simp] theorem exec_bfi w t : exec (.bfi w t) s = execBfi w t s := rfl
@[simp] theorem exec_brev w t : exec (.brev w t) s = execBrev w t s := rfl
@[simp] theorem exec_sel w t : exec (.sel w t) s = execSel w t s := rfl
@[simp] theorem exec_eq w t : exec (.eq w t) s = execEq w t s := rfl
@[simp] theorem exec_ne w t : exec (.ne w t) s = execNe w t s := rfl
@[simp] theorem exec_lt w t : exec (.lt w t) s = execLt w t s := rfl
@[simp] theorem exec_le w t : exec (.le w t) s = execLe w t s := rfl
@[simp] theorem exec_addi w n : exec (.addi w n) s = execAddi w n s := rfl
@[simp] theorem exec_shli w n : exec (.shli w n) s = execShli w n s := rfl
@[simp] theorem exec_fadd w : exec (.fadd w) s = execFadd w s := rfl
@[simp] theorem exec_fsub w : exec (.fsub w) s = execFsub w s := rfl
@[simp] theorem exec_fmul w : exec (.fmul w) s = execFmul w s := rfl
@[simp] theorem exec_fma w : exec (.fma w) s = execFma w s := rfl
@[simp] theorem exec_fdiv w : exec (.fdiv w) s = execFdiv w s := rfl
@[simp] theorem exec_fsqrt w : exec (.fsqrt w) s = execFsqrt w s := rfl
@[simp] theorem exec_fneg w : exec (.fneg w) s = execFneg w s := rfl
@[simp] theorem exec_fabs w : exec (.fabs w) s = execFabs w s := rfl
@[simp] theorem exec_fsgn w : exec (.fsgn w) s = execFsgn w s := rfl
@[simp] theorem exec_fmin w m : exec (.fmin w m) s = execFmin w m s := rfl
@[simp] theorem exec_fmax w m : exec (.fmax w m) s = execFmax w m s := rfl
@[simp] theorem exec_fcmp w c : exec (.fcmp w c) s = execFcmp w c s := rfl
@[simp] theorem exec_fclass w : exec (.fclass w) s = execFclass w s := rfl
@[simp] theorem exec_frnd w r : exec (.frnd w r) s = execFrnd w r s := rfl
@[simp] theorem exec_frcpa w : exec (.frcpa w) s = execFrcpa w s := rfl
@[simp] theorem exec_frsqa w : exec (.frsqa w) s = execFrsqa w s := rfl
@[simp] theorem exec_fexp2a w : exec (.fexp2a w) s = execFexp2a w s := rfl
@[simp] theorem exec_flog2a w : exec (.flog2a w) s = execFlog2a w s := rfl
@[simp] theorem exec_cvt w src dst r : exec (.cvt w src dst r) s = execCvt w src dst r s := rfl
@[simp] theorem exec_pack2F16 w r : exec (.pack2F16 w r) s = execPack2F16 w r s := rfl
@[simp] theorem exec_pack2B16 w : exec (.pack2B16 w) s = execPack2B16 w s := rfl
@[simp] theorem exec_unpk2 w f : exec (.unpk2 w f) s = execUnpk2 w f s := rfl
@[simp] theorem exec_ext w sgn k : exec (.ext w sgn k) s = execExt w sgn k s := rfl
@[simp] theorem exec_qnt w q : exec (.qnt w q) s = execQnt w q s := rfl
@[simp] theorem exec_dqnt w q : exec (.dqnt w q) s = execDqnt w q s := rfl
@[simp] theorem exec_ldl w n : exec (.ldl w n) s = execLdl w n s := rfl
@[simp] theorem exec_stl w n : exec (.stl w n) s = execStl w n s := rfl
@[simp] theorem exec_ldlx w : exec (.ldlx w) s = execLdlx w s := rfl
@[simp] theorem exec_stlx w : exec (.stlx w) s = execStlx w s := rfl
@[simp] theorem exec_give w k : exec (.give w k) s = execGive w k s := rfl
@[simp] theorem exec_claim w k : exec (.claim w k) s = execClaim w k s := rfl
@[simp] theorem exec_claimGrant slice task : exec (.claimGrant slice task) s = execClaimGrant slice task s := rfl
@[simp] theorem exec_rsr w r : exec (.rsr w r) s = execRsr w r s := rfl
@[simp] theorem exec_wsr w r : exec (.wsr w r) s = execWsr w r s := rfl
@[simp] theorem exec_wsrTstat w : exec (.wsrTstat w) s = execWsrTstat w s := rfl
@[simp] theorem exec_wsrTkstat w : exec (.wsrTkstat w) s = execWsrTkstat w s := rfl
@[simp] theorem exec_wsrEfh w : exec (.wsrEfh w) s = execWsrEfh w s := rfl
@[simp] theorem exec_wsrSsbase w : exec (.wsrSsbase w) s = execWsrSsbase w s := rfl
@[simp] theorem exec_wsrPtb w : exec (.wsrPtb w) s = execWsrPtb w s := rfl
@[simp] theorem exec_wsrAsidx w : exec (.wsrAsidx w) s = execWsrAsidx w s := rfl
@[simp] theorem exec_wsrCutdl w : exec (.wsrCutdl w) s = execWsrCutdl w s := rfl
@[simp] theorem exec_br w off : exec (.br w off) s = execBr w off s := rfl
@[simp] theorem exec_brz w off : exec (.brz w off) s = execBrz w off s := rfl
@[simp] theorem exec_brnz w off : exec (.brnz w off) s = execBrnz w off s := rfl
@[simp] theorem exec_call w off : exec (.call w off) s = execCall w off s := rfl
@[simp] theorem exec_meet w off : exec (.meet w off) s = execMeet w off s := rfl
@[simp] theorem exec_ret w : exec (.ret w) s = execRet w s := rfl
@[simp] theorem exec_exit w : exec (.exit w) s = execExit w s := rfl
@[simp] theorem exec_brx w : exec (.brx w) s = execBrx w s := rfl
@[simp] theorem exec_callx w : exec (.callx w) s = execCallx w s := rfl
@[simp] theorem exec_join w d : exec (.join w d) s = execJoin w d s := rfl
@[simp] theorem exec_yield w : exec (.yield w) s = execYield w s := rfl
@[simp] theorem exec_prio w n : exec (.prio w n) s = execPrio w n s := rfl
@[simp] theorem exec_ld w wt off : exec (.ld w wt off) s = execLd w wt off s := rfl
@[simp] theorem exec_st w wt off : exec (.st w wt off) s = execSt w wt off s := rfl
@[simp] theorem exec_ld2 w off : exec (.ld2 w off) s = execLd2 w off s := rfl
@[simp] theorem exec_st2 w off : exec (.st2 w off) s = execSt2 w off s := rfl
@[simp] theorem exec_lds w sc wt off : exec (.lds w sc wt off) s = execLds w sc wt off s := rfl
@[simp] theorem exec_ldsAcq w sc wt off : exec (.ldsAcq w sc wt off) s = execLdsAcq w sc wt off s := rfl
@[simp] theorem exec_sts w sc wt off : exec (.sts w sc wt off) s = execSts w sc wt off s := rfl
@[simp] theorem exec_stsRel w sc wt off : exec (.stsRel w sc wt off) s = execStsRel w sc wt off s := rfl
@[simp] theorem exec_phase w sc : exec (.phase w sc) s = execPhase w sc s := rfl
@[simp] theorem exec_phaseP w sc : exec (.phaseP w sc) s = execPhaseP w sc s := rfl
@[simp] theorem exec_phaseO w sc : exec (.phaseO w sc) s = execPhaseO w sc s := rfl
@[simp] theorem exec_icinv w sc : exec (.icinv w sc) s = execIcinv w sc s := rfl
@[simp] theorem exec_pref w lvl off : exec (.pref w lvl off) s = execPref w lvl off s := rfl
@[simp] theorem exec_atomAdd w o sc wt off : exec (.atomAdd w o sc wt off) s = execAtomAdd w o sc wt off s := rfl
@[simp] theorem exec_atomAnd w o sc wt off : exec (.atomAnd w o sc wt off) s = execAtomAnd w o sc wt off s := rfl
@[simp] theorem exec_atomOr w o sc wt off : exec (.atomOr w o sc wt off) s = execAtomOr w o sc wt off s := rfl
@[simp] theorem exec_atomXor w o sc wt off : exec (.atomXor w o sc wt off) s = execAtomXor w o sc wt off s := rfl
@[simp] theorem exec_atomMinS w o sc wt off : exec (.atomMinS w o sc wt off) s = execAtomMinS w o sc wt off s := rfl
@[simp] theorem exec_atomMinN w o sc wt off : exec (.atomMinN w o sc wt off) s = execAtomMinN w o sc wt off s := rfl
@[simp] theorem exec_atomMaxS w o sc wt off : exec (.atomMaxS w o sc wt off) s = execAtomMaxS w o sc wt off s := rfl
@[simp] theorem exec_atomMaxN w o sc wt off : exec (.atomMaxN w o sc wt off) s = execAtomMaxN w o sc wt off s := rfl
@[simp] theorem exec_atomXchg w o sc wt off : exec (.atomXchg w o sc wt off) s = execAtomXchg w o sc wt off s := rfl
@[simp] theorem exec_atomFadd w o sc off : exec (.atomFadd w o sc off) s = execAtomFadd w o sc off s := rfl
@[simp] theorem exec_atomFmin w o sc off : exec (.atomFmin w o sc off) s = execAtomFmin w o sc off s := rfl
@[simp] theorem exec_atomFmax w o sc off : exec (.atomFmax w o sc off) s = execAtomFmax w o sc off s := rfl
@[simp] theorem exec_cas w o sc wt off : exec (.cas w o sc wt off) s = execCas w o sc wt off s := rfl
@[simp] theorem exec_redAdd w o sc wt off : exec (.redAdd w o sc wt off) s = execRedAdd w o sc wt off s := rfl
@[simp] theorem exec_redAnd w o sc wt off : exec (.redAnd w o sc wt off) s = execRedAnd w o sc wt off s := rfl
@[simp] theorem exec_redOr w o sc wt off : exec (.redOr w o sc wt off) s = execRedOr w o sc wt off s := rfl
@[simp] theorem exec_redXor w o sc wt off : exec (.redXor w o sc wt off) s = execRedXor w o sc wt off s := rfl
@[simp] theorem exec_redMinS w o sc wt off : exec (.redMinS w o sc wt off) s = execRedMinS w o sc wt off s := rfl
@[simp] theorem exec_redMinN w o sc wt off : exec (.redMinN w o sc wt off) s = execRedMinN w o sc wt off s := rfl
@[simp] theorem exec_redMaxS w o sc wt off : exec (.redMaxS w o sc wt off) s = execRedMaxS w o sc wt off s := rfl
@[simp] theorem exec_redMaxN w o sc wt off : exec (.redMaxN w o sc wt off) s = execRedMaxN w o sc wt off s := rfl
@[simp] theorem exec_redFadd w o sc off : exec (.redFadd w o sc off) s = execRedFadd w o sc off s := rfl
@[simp] theorem exec_redFmin w o sc off : exec (.redFmin w o sc off) s = execRedFmin w o sc off s := rfl
@[simp] theorem exec_redFmax w o sc off : exec (.redFmax w o sc off) s = execRedFmax w o sc off s := rfl
@[simp] theorem exec_mwait w : exec (.mwait w) s = execMwait w s := rfl
@[simp] theorem exec_mwaitWake l why : exec (.mwaitWake l why) s = execMwaitWake l why s := rfl
@[simp] theorem exec_trackedResultArrival l bix : exec (.trackedResultArrival l bix) s = execTrackedResultArrival l bix s := rfl
@[simp] theorem exec_refill slice place : exec (.refill slice place) s = execRefill slice place s := rfl
@[simp] theorem exec_unassignedEncoding e : exec (.unassignedEncoding e) s = execUnassignedEncoding e s := rfl
@[simp] theorem exec_spawn w : exec (.spawn w) s = execSpawn w s := rfl
@[simp] theorem exec_spawnw w : exec (.spawnw w) s = execSpawnw w s := rfl
@[simp] theorem exec_spawnWaitWake task slice place : exec (.spawnWaitWake task slice place) s = execSpawnWaitWake task slice place s := rfl
@[simp] theorem exec_taskPlacement launch members : exec (.taskPlacement launch members) s = execTaskPlacement launch members s := rfl
@[simp] theorem exec_waveFormation task place : exec (.waveFormation task place) s = execWaveFormation task place s := rfl
@[simp] theorem exec_taskRetire task : exec (.taskRetire task) s = execTaskRetire task s := rfl
@[simp] theorem exec_tearDown vf asid report : exec (.tearDown vf asid report) s = execTearDown vf asid report s := rfl
@[simp] theorem exec_talloc w : exec (.talloc w) s = execTalloc w s := rfl
@[simp] theorem exec_tfree w : exec (.tfree w) s = execTfree w s := rfl
@[simp] theorem exec_tdef w : exec (.tdef w) s = execTdef w s := rfl
@[simp] theorem exec_tget w i : exec (.tget w i) s = execTget w i s := rfl
@[simp] theorem exec_tset w i : exec (.tset w i) s = execTset w i s := rfl
@[simp] theorem exec_atomt w op o : exec (.atomt w op o) s = execAtomt w op o s := rfl
@[simp] theorem exec_tfill w : exec (.tfill w) s = execTfill w s := rfl
@[simp] theorem exec_tcol w all op : exec (.tcol w all op) s = execTcol w all op s := rfl
@[simp] theorem exec_tcopy w : exec (.tcopy w) s = execTcopy w s := rfl
@[simp] theorem exec_ldt w : exec (.ldt w) s = execLdt w s := rfl
@[simp] theorem exec_stt w : exec (.stt w) s = execStt w s := rfl
@[simp] theorem exec_bankOperationComplete task op : exec (.bankOperationComplete task op) s = execBankOperationComplete task op s := rfl
@[simp] theorem exec_cpy w fo stg nb stid dtid : exec (.cpy w fo stg nb stid dtid) s = execCpy w fo stg nb stid dtid s := rfl
@[simp] theorem exec_cpyl w : exec (.cpyl w) s = execCpyl w s := rfl
@[simp] theorem exec_copySlotGrant slice : exec (.copySlotGrant slice) s = execCopySlotGrant slice s := rfl
@[simp] theorem exec_copyRequestIssue slice copy req : exec (.copyRequestIssue slice copy req) s = execCopyRequestIssue slice copy req s := rfl
@[simp] theorem exec_copyRequestComplete slice copy req : exec (.copyRequestComplete slice copy req) s = execCopyRequestComplete slice copy req s := rfl
@[simp] theorem exec_cinit w c : exec (.cinit w c) s = execCinit w c s := rfl
@[simp] theorem exec_cwait w c : exec (.cwait w c) s = execCwait w c s := rfl
@[simp] theorem exec_seal w n : exec (.seal w n) s = execSeal w n s := rfl
@[simp] theorem exec_waitb w n : exec (.waitb w n) s = execWaitb w n s := rfl
@[simp] theorem exec_barinit w sc b : exec (.barinit w sc b) s = execBarinit w sc b s := rfl
@[simp] theorem exec_bar w b : exec (.bar w b) s = execBar w b s := rfl
@[simp] theorem exec_bara w b : exec (.bara w b) s = execBara w b s := rfl
@[simp] theorem exec_barw w b : exec (.barw w b) s = execBarw w b s := rfl
@[simp] theorem exec_rowres w n : exec (.rowres w n) s = execRowres w n s := rfl
@[simp] theorem exec_suspend w n : exec (.suspend w n) s = execSuspend w n s := rfl
@[simp] theorem exec_suspendk w n : exec (.suspendk w n) s = execSuspendk w n s := rfl
@[simp] theorem exec_wakeRow w : exec (.wakeRow w) s = execWakeRow w s := rfl
@[simp] theorem exec_wakeSite w n : exec (.wakeSite w n) s = execWakeSite w n s := rfl
@[simp] theorem exec_wakeThr w : exec (.wakeThr w) s = execWakeThr w s := rfl
@[simp] theorem exec_flush w n : exec (.flush w n) s = execFlush w n s := rfl
@[simp] theorem exec_frameAgeExpiry task tid row : exec (.frameAgeExpiry task tid row) s = execFrameAgeExpiry task tid row s := rfl
@[simp] theorem exec_resumeLoad task tid slice place : exec (.resumeLoad task tid slice place) s = execResumeLoad task tid slice place s := rfl
@[simp] theorem exec_mm w acc fo tag : exec (.mm w acc fo tag) s = execMm w acc fo tag s := rfl
@[simp] theorem exec_mms w acc fo tag : exec (.mms w acc fo tag) s = execMms w acc fo tag s := rfl
@[simp] theorem exec_mmstage w acc sp tag k : exec (.mmstage w acc sp tag k) s = execMmstage w acc sp tag k s := rfl
@[simp] theorem exec_mmflag w k : exec (.mmflag w k) s = execMmflag w k s := rfl
@[simp] theorem exec_mmflagDrop w k : exec (.mmflagDrop w k) s = execMmflagDrop w k s := rfl
@[simp] theorem exec_matrixQueueGrant slice : exec (.matrixQueueGrant slice) s = execMatrixQueueGrant slice s := rfl
@[simp] theorem exec_gateEntryGrant slice : exec (.gateEntryGrant slice) s = execGateEntryGrant slice s := rfl
@[simp] theorem exec_gatedCommandEntry slice idx : exec (.gatedCommandEntry slice idx) s = execGatedCommandEntry slice idx s := rfl
@[simp] theorem exec_stagedCommandEntry slice slot : exec (.stagedCommandEntry slice slot) s = execStagedCommandEntry slice slot s := rfl
@[simp] theorem exec_matrixCommandStart slice : exec (.matrixCommandStart slice) s = execMatrixCommandStart slice s := rfl
@[simp] theorem exec_multicastWindowExpiry slice : exec (.multicastWindowExpiry slice) s = execMulticastWindowExpiry slice s := rfl
@[simp] theorem exec_matrixCommandComplete slice : exec (.matrixCommandComplete slice) s = execMatrixCommandComplete slice s := rfl
@[simp] theorem exec_tlbinvPage w : exec (.tlbinvPage w) s = execTlbinvPage w s := rfl
@[simp] theorem exec_tlbinvSpace w : exec (.tlbinvSpace w) s = execTlbinvSpace w s := rfl
@[simp] theorem exec_tlbinvVf w : exec (.tlbinvVf w) s = execTlbinvVf w s := rfl
@[simp] theorem exec_tlbinvSplit w : exec (.tlbinvSplit w) s = execTlbinvSplit w s := rfl
@[simp] theorem exec_replay w : exec (.replay w) s = execReplay w s := rfl
@[simp] theorem exec_fbstatPop pop : exec (.fbstatPop pop) s = execFbstatPop pop s := rfl
@[simp] theorem exec_fbstatDroppedClear sector : exec (.fbstatDroppedClear sector) s = execFbstatDroppedClear sector s := rfl
@[simp] theorem exec_frplay vf asid : exec (.frplay vf asid) s = execFrplay vf asid s := rfl
@[simp] theorem exec_syscall w c : exec (.syscall w c) s = execSyscall w c s := rfl
@[simp] theorem exec_hcall w c : exec (.hcall w c) s = execHcall w c s := rfl
@[simp] theorem exec_brk w : exec (.brk w) s = execBrk w s := rfl
@[simp] theorem exec_sret w : exec (.sret w) s = execSret w s := rfl
@[simp] theorem exec_hret w : exec (.hret w) s = execHret w s := rfl
@[simp] theorem exec_tfld w n : exec (.tfld w n) s = execTfld w n s := rfl
@[simp] theorem exec_tfst w n : exec (.tfst w n) s = execTfst w n s := rfl
@[simp] theorem exec_trapEntry l c : exec (.trapEntry l c) s = execTrapEntry l c s := rfl
@[simp] theorem exec_qpoint w : exec (.qpoint w) s = execQpoint w s := rfl
@[simp] theorem exec_waitgp w : exec (.waitgp w) s = execWaitgp w s := rfl
@[simp] theorem exec_defer w : exec (.defer w) s = execDefer w s := rfl
@[simp] theorem exec_gracePeriodBegin vf asid : exec (.gracePeriodBegin vf asid) s = execGracePeriodBegin vf asid s := rfl
@[simp] theorem exec_gracePeriodComplete vf asid : exec (.gracePeriodComplete vf asid) s = execGracePeriodComplete vf asid s := rfl
@[simp] theorem exec_wheyDelivery vf asid : exec (.wheyDelivery vf asid) s = execWheyDelivery vf asid s := rfl
@[simp] theorem exec_cutArrival vf asid slice : exec (.cutArrival vf asid slice) s = execCutArrival vf asid slice s := rfl
@[simp] theorem exec_cutDeadline vf asid slice : exec (.cutDeadline vf asid slice) s = execCutDeadline vf asid slice s := rfl
@[simp] theorem exec_waveSave slice place : exec (.waveSave slice place) s = execWaveSave slice place s := rfl
@[simp] theorem exec_waveRestore vf asid idx slice place : exec (.waveRestore vf asid idx slice place) s = execWaveRestore vf asid idx slice place s := rfl
@[simp] theorem exec_clockRatioChange slice code : exec (.clockRatioChange slice code) s = execClockRatioChange slice code s := rfl
@[simp] theorem exec_controlIntervalEnd cluster draws overCurrent : exec (.controlIntervalEnd cluster draws overCurrent) s = execControlIntervalEnd cluster draws overCurrent s := rfl
@[simp] theorem exec_launchPacket slot : exec (.launchPacket slot) s = execLaunchPacket slot s := rfl
@[simp] theorem exec_copyPacket slot slice : exec (.copyPacket slot slice) s = execCopyPacket slot slice s := rfl
@[simp] theorem exec_signalPacket slot : exec (.signalPacket slot) s = execSignalPacket slot s := rfl
@[simp] theorem exec_waitPacket slot : exec (.waitPacket slot) s = execWaitPacket slot s := rfl
@[simp] theorem exec_waitConditionMet slot : exec (.waitConditionMet slot) s = execWaitConditionMet slot s := rfl
@[simp] theorem exec_splicePacket slot : exec (.splicePacket slot) s = execSplicePacket slot s := rfl
@[simp] theorem exec_quiescePacket slot : exec (.quiescePacket slot) s = execQuiescePacket slot s := rfl
@[simp] theorem exec_nopPacket slot : exec (.nopPacket slot) s = execNopPacket slot s := rfl
@[simp] theorem exec_invalidPacket slot : exec (.invalidPacket slot) s = execInvalidPacket slot s := rfl
@[simp] theorem exec_packetCompletion vf rnum idx : exec (.packetCompletion vf rnum idx) s = execPacketCompletion vf rnum idx s := rfl
@[simp] theorem exec_wheelClose idx : exec (.wheelClose idx) s = execWheelClose idx s := rfl
@[simp] theorem exec_kick vf rnum : exec (.kick vf rnum) s = execKick vf rnum s := rfl
@[simp] theorem exec_schedulerTick : exec (.schedulerTick) s = execSchedulerTick s := rfl
@[simp] theorem exec_takeEnd : exec (.takeEnd) s = execTakeEnd s := rfl
@[simp] theorem exec_contextCreate vf asid root : exec (.contextCreate vf asid root) s = execContextCreate vf asid root s := rfl
@[simp] theorem exec_wheelOpen vf drive ns base : exec (.wheelOpen vf drive ns base) s = execWheelOpen vf drive ns base s := rfl
@[simp] theorem exec_nvmeTimeout slice copy req : exec (.nvmeTimeout slice copy req) s = execNvmeTimeout slice copy req s := rfl
@[simp] theorem exec_thermalEvent at_ code : exec (.thermalEvent at_ code) s = execThermalEvent at_ code s := rfl
@[simp] theorem exec_eventClear vf mask : exec (.eventClear vf mask) s = execEventClear vf mask s := rfl
@[simp] theorem exec_functionLevelReset vf : exec (.functionLevelReset vf) s = execFunctionLevelReset vf s := rfl
@[simp] theorem exec_flit link ask taken : exec (.flit link ask taken) s = execFlit link ask taken s := rfl
@[simp] theorem exec_linkDown link : exec (.linkDown link) s = execLinkDown link s := rfl
@[simp] theorem exec_deviceReset : exec (.deviceReset) s = execDeviceReset s := rfl
@[simp] theorem exec_attestationReport vf nonce : exec (.attestationReport vf nonce) s = execAttestationReport vf nonce s := rfl
@[simp] theorem exec_machineCheck slice unit : exec (.machineCheck slice unit) s = execMachineCheck slice unit s := rfl
@[simp] theorem exec_virtualFunctionEnable vf htvec hsbase : exec (.virtualFunctionEnable vf htvec hsbase) s = execVirtualFunctionEnable vf htvec hsbase s := rfl
@[simp] theorem exec_reelRegistration vf asid header rnum prio : exec (.reelRegistration vf asid header rnum prio) s = execReelRegistration vf asid header rnum prio s := rfl

end Sys2Proof.Machine
end

