-- ==== Sys2Proof/Laws/Memory.lean ====
section
/-! SUPPORT. Every operation that writes memory keeps its canonical form. All of them go through `State.write`, but
for a device reset, which keeps a part of memory. -/

namespace Sys2Proof.Machine

variable {s : State}

theorem MemWf.of_mem {t : State} (h : s.MemWf) (e : t.mem = s.mem) : t.MemWf := by
  unfold State.MemWf at *
  rw [e]
  exact h

theorem reset_memWf : State.reset.MemWf := rfl

theorem write_memWf (a : Nat) (bs : List Byte) (slice who : Nat) (strong : Option Scope) (rel : Option Nat) (point : Nat)
    (h : s.MemWf) : (s.write a bs slice who strong rel point).MemWf := pokes_wf a bs h

theorem touch_mem (key : Nat) : (s.touch key).mem = s.mem := by unfold State.touch; split <;> rfl

/-- A write by a thread. -/
theorem laneWrite_memWf (k a : Nat) (bs : List Byte) (strong : Option Scope) (rel : Option Nat) (point : Nat)
    (h : s.MemWf) : (s.laneWrite k a bs strong rel point).MemWf :=
  MemWf.of_mem (write_memWf a bs (sliceOf k) (s.who k) strong rel point (MemWf.of_mem h (touch_mem a))) (State.modLane_mem _ k _)

theorem storeWord_memWf (k a : Nat) (v : Word) (h : s.MemWf) : (s.storeWord k a v).MemWf := laneWrite_memWf k a _ _ _ _ h

/-- A write by an agent of the device. -/
theorem devStore_memWf (key : Nat) (bs : List Byte) (sc : Scope) (h : s.MemWf) : (s.devStore key bs sc).MemWf :=
  MemWf.of_mem (write_memWf key bs noSlice 0 (some sc) none (pointOf .device noSlice key) h) rfl

theorem devPut_memWf {t : State} (space va v : Nat) (sc : Scope) (h : s.MemWf) (e : s.devPut space va v sc = some t) : t.MemWf := by
  unfold State.devPut at e
  split at e
  · cases e
    split
    · exact h
    · exact devStore_memWf _ _ _ h
  · cases e

/-- A write that an engine makes for a thread. -/
theorem writeAs_memWf (who slice key : Nat) (bs : List Byte) (h : s.MemWf) : (s.writeAs who slice key bs).MemWf := by
  have hw := write_memWf key bs slice who none none 0 h
  unfold State.writeAs
  simp only
  split
  · exact MemWf.of_mem hw (State.modLane_mem _ _ _)
  · exact hw

/-- A fold of operations that keep the form. -/
theorem foldl_memWf {α : Type} (f : State → α → State) (hf : ∀ s x, s.MemWf → (f s x).MemWf) (xs : List α) (h : s.MemWf) :
    (xs.foldl f s).MemWf := by
  induction xs generalizing s with
  | nil => exact h
  | cons x r ih => exact ih (hf s x h)

theorem zeroBytes_memWf (key n : Nat) (h : s.MemWf) : (s.zeroBytes key n).MemWf :=
  foldl_memWf _ (fun _ a hs => devStore_memWf a [0] .system hs) _ h

theorem zeroFill_memWf (key n : Nat) (h : s.MemWf) : (s.zeroFill key n).MemWf :=
  MemWf.of_mem (zeroBytes_memWf key n h) rfl

theorem clearSome_memWf (cs : List Host.Cell) (h : s.MemWf) : (clearSome s cs).MemWf := by
  induction cs generalizing s with
  | nil => exact h
  | cons c r ih =>
    unfold clearSome
    have hc : (choose s 2).2.MemWf := MemWf.of_mem h (by unfold choose; split <;> rfl)
    apply ih
    split
    · exact write_memWf c.1 [0] noSlice 0 none none 0 hc
    · exact hc

theorem freshStorage_memWf (key n : Nat) (h : s.MemWf) : (s.freshStorage key n).MemWf := clearSome_memWf _ h

/-- Strictly rising keys, said pairwise. -/
theorem mapWf_iff {α : Type} (m : Map α) : mapWf m = true ↔ m.Pairwise (fun x y => x.1 < y.1) := by
  induction m with
  | nil => simp [mapWf]
  | cons p r ih =>
    obtain ⟨a, u⟩ := p
    cases r with
    | nil => simp [mapWf]
    | cons q r =>
      obtain ⟨b, v⟩ := q
      simp only [mapWf, Bool.and_eq_true, decide_eq_true_eq, ih]
      constructor
      · rintro ⟨h, g⟩
        refine List.pairwise_cons.mpr ⟨fun x hx => ?_, g⟩
        rcases List.mem_cons.mp hx with rfl | hx
        · exact h
        · exact Nat.lt_trans h ((List.pairwise_cons.mp g).1 x hx)
      · intro h
        exact ⟨(List.pairwise_cons.mp h).1 (b, v) List.mem_cons_self, (List.pairwise_cons.mp h).2⟩

/-- A part of memory has the form. -/
theorem filter_wf {m : Memory} (p : Host.Cell → Bool) (h : Memory.wf m = true) : Memory.wf (m.filter p) = true := by
  simp only [Memory.wf, Bool.and_eq_true] at h ⊢
  refine ⟨(mapWf_iff _).mpr (((mapWf_iff m).mp h.1).filter p), ?_⟩
  rw [List.all_eq_true] at *
  exact fun x hx => h.2 x (List.mem_of_mem_filter hx)

/-- A device reset keeps a part of memory. -/
theorem deviceReset_memWf {t : State} (h : s.MemWf) (e : execDeviceReset s = .next t) : t.MemWf := by
  cases e
  exact filter_wf _ h

end Sys2Proof.Machine
end

