-- ==== Sys2Proof/Laws/Ops.lean ====
section
/-! SUPPORT. What the shared operations do: free choices, reads and writes of memory, translation and the checks of an
access, releases and boundaries. -/

namespace Sys2Proof.Machine

variable {s : State} {k : Nat} {l : Lane}

-- Free choices.
theorem choose_free (s : State) (n : Nat) : ∃ m, (choose s n).2 = { s with free := m } := by
  unfold choose; split
  · exact ⟨s.free, rfl⟩
  · exact ⟨s.free + 1, rfl⟩

theorem choose_lt (s : State) {n : Nat} (h : 0 < n) : (choose s n).1 < n := by
  unfold choose; split
  · exact h
  · exact Nat.mod_lt _ h

-- Reads.
theorem pickBytes_free (s : State) (bs : List Nat) : ∃ m, (pickBytes s bs).2 = { s with free := m } := by
  induction bs generalizing s with
  | nil => exact ⟨s.free, rfl⟩
  | cons b r ih =>
    obtain ⟨m, hm⟩ := choose_free s 2
    obtain ⟨m', hm'⟩ := ih (choose s 2).2
    exact ⟨m', by unfold pickBytes; simp only; rw [hm', hm]⟩

theorem missed_free (w : WriteRec) (s : State) (fl : Map Nat) (must : WriteRec → Bool) (a n : Nat) :
    ∃ m, (w.missed s fl must a n).2 = { s with free := m } := by
  unfold WriteRec.missed
  dsimp only
  split
  · split
    · exact ⟨s.free, rfl⟩
    · exact choose_free s 2
  · exact pickBytes_free s _

theorem pickHidden_free (s : State) (fl : Map Nat) (must : WriteRec → Bool) (a n : Nat) (ws : List WriteRec) :
    ∃ m, (pickHidden s fl must a n ws).2 = { s with free := m } := by
  induction ws generalizing s with
  | nil => exact ⟨s.free, rfl⟩
  | cons w r ih =>
    unfold pickHidden
    split
    · obtain ⟨m, hm⟩ := missed_free w s fl must a n
      obtain ⟨m', hm'⟩ := ih (w.missed s fl must a n).2
      exact ⟨m', by simp only; rw [hm', hm]⟩
    · exact ih s

theorem readVer_free (s : State) (fl : Map Nat) (must : WriteRec → Bool) (a n : Nat) :
    ∃ m, (s.readVer fl must a n).2 = { s with free := m } := pickHidden_free s fl must a n s.log

theorem readVer_length (s : State) (fl : Map Nat) (must : WriteRec → Bool) (a n : Nat) :
    (s.readVer fl must a n).1.bytes.length = n := by
  simp [State.readVer]

theorem pickHidden_apart (s : State) (fl : Map Nat) (must : WriteRec → Bool) (a n : Nat) (ws : List WriteRec)
    (h : ∀ w, w ∈ ws → w.addr + w.new.length ≤ a ∨ a + n ≤ w.addr) : pickHidden s fl must a n ws = ([], s) := by
  induction ws with
  | nil => rfl
  | cons w r ih =>
    have hw := h w (by simp)
    unfold pickHidden
    rw [if_neg (by simp only [Bool.and_eq_true, decide_eq_true_eq]; omega)]
    exact ih (fun x hx => h x (by simp [hx]))

theorem map_peek_range (m : Memory) (a n : Nat) : (List.range n).map (fun i => peek m (a + i)) = peeks m a n := by
  induction n generalizing a with
  | zero => rfl
  | succ n ih =>
    rw [List.range_succ_eq_map, List.map_cons, List.map_map]
    show peek m (a + 0) :: _ = peek m a :: peeks m (a + 1) n
    rw [← ih (a + 1)]
    congr 1
    exact List.map_congr_left (fun i _ => by simp only [Function.comp_apply, Nat.succ_eq_add_one]; congr 1; omega)

/-- With no write to the range in the location order, a read gives the bytes of memory (R285). -/
theorem readVer_uncontested (fl : Map Nat) (must : WriteRec → Bool) {a n : Nat} (h : Uncontested s a n) :
    (s.readVer fl must a n).1.bytes = peeks s.mem a n ∧ (s.readVer fl must a n).1.rels = [] ∧
      (s.readVer fl must a n).2 = s := by
  unfold State.readVer
  rw [pickHidden_apart s fl must a n s.log h]
  refine ⟨?_, by simp [byteSeen], rfl⟩
  simp only [List.map_map]
  rw [← map_peek_range]
  exact List.map_congr_left (fun i _ => by simp [byteSeen])

theorem touch_of_exists {key : Nat} (h : keyExists key) : s.touch key = s := by
  unfold State.touch
  rw [if_neg]
  rcases h with h | h <;> simp only [Bool.and_eq_true, decide_eq_true_eq] <;> omega

/-- A read by a lane changes what it has seen, and nothing else. -/
theorem laneReadAt_spec {a : Nat} (deps : List Nat) (fl : Map Nat) (must : WriteRec → Bool) (n : Nat)
    (h : s.lane k = some l) (he : keyExists a) :
    ∃ m, (s.laneReadAt k deps fl must a n).2 = { s with free := m }.setLane k
      { l with seen := seenUpdate a (s.laneReadAt k deps fl must a n).1.ids l.seen } := by
  obtain ⟨m, hm⟩ := readVer_free s (viewJoin fl (s.floorOf k l deps)) must a n
  refine ⟨m, ?_⟩
  unfold State.laneReadAt
  simp only [h, touch_of_exists he]
  rw [hm]
  have hl : ({ s with free := m } : State).lane k = some l := h
  rw [modLane_of _ hl]

theorem laneReadAt_length (deps : List Nat) (fl : Map Nat) (must : WriteRec → Bool) (a n : Nat) (h : s.lane k = some l) :
    (s.laneReadAt k deps fl must a n).1.bytes.length = n := by
  unfold State.laneReadAt
  simp only [h]
  exact readVer_length ..

theorem laneReadAt_uncontested {a n : Nat} (deps : List Nat) (fl : Map Nat) (must : WriteRec → Bool) (h : s.lane k = some l)
    (he : keyExists a) (hu : Uncontested s a n) :
    (s.laneReadAt k deps fl must a n).1.bytes = peeks s.mem a n := by
  unfold State.laneReadAt
  simp only [h, touch_of_exists he]
  exact (readVer_uncontested _ _ hu).1

-- Writes.
/-- A write by a lane: its bytes, its record in the location order, and its view (R288). -/
theorem laneWrite_spec {a : Nat} (bs : List Byte) (strong : Option Scope) (rel : Option Nat) (point : Nat)
    (h : s.lane k = some l) (he : keyExists a) :
    s.laneWrite k a bs strong rel point =
      (s.write a bs (sliceOf k) (s.who k) strong rel point).setLane k { l with view := viewRange a s.nextId bs.length l.view } := by
  have hw : (s.write a bs (sliceOf k) (s.who k) strong rel point).lane k = some l := h
  unfold State.laneWrite
  simp only [touch_of_exists he]
  rw [modLane_of _ hw]

theorem peeks_length (m : Memory) (a n : Nat) : (peeks m a n).length = n := by
  induction n generalizing a with
  | zero => rfl
  | succ n ih => simp [peeks, ih]

-- Bank operations, releases and boundaries.
theorem flushBanks_of_quiet (h : Quiet s k) : s.flushBanks (s.taskNo k) (s.who k) = s := by
  unfold State.flushBanks
  cases ht : s.task (s.taskNo k) with
  | none => rfl
  | some t =>
    have : t.banks.filter (fun b => b.who == s.who k) = [] := by
      rw [List.filter_eq_nil_iff]
      intro b hb
      have := h t ht b hb
      simpa using this
    simp only [this, List.foldl_nil]

theorem release_of_quiet (sc : Scope) (h : Quiet s k) (hl : s.lane k = some l) :
    s.release k sc = s.addRel (sliceOf k) sc l.view := by
  unfold State.release
  simp only [flushBanks_of_quiet h, hl]

theorem boundary_of (sc : Scope) (hl : s.lane k = some l) :
    s.boundary k sc = s.setLane k { l with view := boundaryView s.rels (sliceOf k) sc l.view, ord := s.nextId } := modLane_of _ hl

-- Translation and the checks of an access.
/-- Only TLBs, fault buffers, what is posted to firmware and host, and the free counter differ. -/
structure Translated (s t : State) : Prop where
  same : t = { s with slices := t.slices, sectors := t.sectors, dieTlbs := t.dieTlbs, notes := t.notes, vfs := t.vfs, free := t.free }
  slices : ∀ x, { t.slice x with tlb := [] } = { s.slice x with tlb := [] }

theorem Translated.refl (s : State) : Translated s s := ⟨rfl, fun _ => rfl⟩

theorem Translated.trans {a b c : State} (h : Translated a b) (g : Translated b c) : Translated a c := by
  refine ⟨?_, fun x => (g.slices x).trans (h.slices x)⟩
  rw [g.same, h.same]

theorem slice_setSlice (s : State) (x y : Nat) (v : Slice) : (s.setSlice x v).slice y = if y = x then v else s.slice y := by
  simp only [State.setSlice, State.slice, mgetD, mget_mset]
  split <;> rfl

theorem slice_modSlice (s : State) (x y : Nat) (f : Slice → Slice) :
    (s.modSlice x f).slice y = if y = x then f (s.slice x) else s.slice y := slice_setSlice ..

theorem Translated.free (n : Nat) : Translated s { s with free := n } := ⟨rfl, fun _ => rfl⟩

theorem translate_frame (s : State) (space slice : Nat) (hyp user : Bool) (kind : AccKind) (va : Nat) :
    Translated s (s.translate space slice hyp user kind va).2 := by
  unfold State.translate
  dsimp only
  split
  · exact Translated.refl s
  · rename_i hh
    generalize hW : s.walk true _ _ kind user va = W
    obtain ⟨x, es⟩ := W
    dsimp only
    generalize hN : List.length _ + 1 = N
    obtain ⟨m, hm⟩ := choose_free { s with free := s.free + 1 } N
    cases hC : choose { s with free := s.free + 1 } N with
    | mk i s1 =>
      rw [hC] at hm
      dsimp only at hm ⊢
      subst hm
      split
      · exact Translated.free m
      · refine ⟨rfl, fun x => ?_⟩
        have : ∀ (a : State) (f : Slice → Slice) (g : Sector → Sector) (d : Map (List TlbEnt)) (sec y : Nat),
            ({ (a.modSlice slice f).modSector sec g with dieTlbs := d } : State).slice y = (a.modSlice slice f).slice y :=
          fun _ _ _ _ _ _ => rfl
        rw [this, slice_modSlice]
        split
        · rename_i e; subst e; rfl
        · rfl

theorem recordFault_frame (s : State) (space slice va reason level : Nat) (kind : AccKind) (eng : Bool) :
    Translated s (s.recordFault space slice va reason level kind eng) := by
  unfold State.recordFault
  dsimp only
  split
  · exact ⟨rfl, fun _ => rfl⟩
  · split
    · exact ⟨rfl, fun _ => rfl⟩
    · exact ⟨rfl, fun _ => rfl⟩

theorem place_frame (s : State) (k : Nat) (l : Lane) (kind : AccKind) (va : Nat) : Translated s (s.place k l kind va).2 := by
  unfold State.place
  dsimp only
  split
  · exact Translated.refl s
  · exact translate_frame ..

theorem reach_frame (s : State) (k : Nat) (l : Lane) (kind : AccKind) (hostOk : Bool) (va : Word) (size : Nat) :
    Translated s (s.reach k l kind hostOk va size).2 := by
  unfold State.reach
  dsimp only
  split
  · exact Translated.refl s
  · split
    · exact Translated.refl s
    · have hp := place_frame s k l kind va.toNat
      split
      · rename_i h
        rw [h] at hp
        split
        · exact hp
        · exact hp.trans (recordFault_frame ..)
      · rename_i h
        rw [h] at hp
        exact hp
      · rename_i h
        rw [h] at hp
        exact hp
      · rename_i h
        rw [h] at hp
        split <;> exact hp

/-- The checks of an access change nothing that a program reads but TLBs and fault buffers. -/
theorem access_frame (s : State) (k : Nat) (l : Lane) (kind : AccKind) (hostOk : Bool) (va : Word) (size : Nat) :
    Translated s (s.access k l kind hostOk va size).2 := by
  have hr := reach_frame s k l kind hostOk va size
  unfold State.access
  dsimp only
  split
  · rename_i h
    rw [h] at hr
    split
    · exact hr
    · split
      · exact hr
      · split <;> exact hr
  · exact hr

end Sys2Proof.Machine
end

