-- ==== Sys2Proof/Laws/PerInstr.lean ====
section
/-! SUPPORT. A family of lemmas, one for each constructor of `Instr`: the stack form of an instruction agrees with its
encoding, and it reads no entry below the depth that it needs. -/

namespace Sys2Proof.Laws

open Sys2Proof Sys2Proof.Machine

/-- The bytes of the encoding are as many as the PC moves on by (R38, R39); every position that is read, and every entry
that is popped, is within the depth that the instruction needs (R89). -/
def Shaped.Statement (i : Instr) : Prop :=
  (∀ e, encode i = some e → e.bytes.length = (shapeOf i).len) ∧
  (∀ p, p ∈ (shapeOf i).reads → p < (shapeOf i).need) ∧ (shapeOf i).pops ≤ (shapeOf i).need

/-- An event has no encoding and no stack form. -/
theorem Shaped.of_event {i : Instr} (h : encode i = none) (h2 : shapeOf i = {}) : Shaped.Statement i := by
  simp [Shaped.Statement, h, h2]

/-- An instruction whose stack form reads what it pops. -/
theorem Shaped.of_reads {i : Instr} {e : Enc} (h : encode i = some e) (hl : e.bytes.length = (shapeOf i).len)
    (hr : ∀ p, p ∈ (shapeOf i).reads → p < (shapeOf i).need) (hp : (shapeOf i).pops ≤ (shapeOf i).need) : Shaped.Statement i :=
  ⟨fun x hx => by rw [h] at hx; cases hx; exact hl, hr, hp⟩

theorem Shaped.nop (w : StallS) : Shaped.Statement (.nop w) :=
  Shaped.of_reads rfl rfl (fun _ h => List.mem_range.mp h) (Nat.le_refl _)
theorem Shaped.lit (w : StallS) (v : BitVec 6) : Shaped.Statement (.lit w v) :=
  Shaped.of_reads rfl rfl (fun _ h => List.mem_range.mp h) (Nat.le_refl _)
theorem Shaped.dup (w : StallS) : Shaped.Statement (.dup w) :=
  Shaped.of_reads rfl rfl (by simp [shapeOf, shS]) (by simp [shapeOf, shS])
theorem Shaped.drop (w : StallS) : Shaped.Statement (.drop w) :=
  Shaped.of_reads rfl rfl (by simp [shapeOf, shS]) (by simp [shapeOf, shS])
theorem Shaped.swap (w : StallS) : Shaped.Statement (.swap w) :=
  Shaped.of_reads rfl rfl (fun _ h => List.mem_range.mp h) (Nat.le_refl _)
theorem Shaped.over (w : StallS) : Shaped.Statement (.over w) :=
  Shaped.of_reads rfl rfl (by simp [shapeOf, shS]) (by simp [shapeOf, shS])
theorem Shaped.rot (w : StallS) : Shaped.Statement (.rot w) :=
  Shaped.of_reads rfl rfl (fun _ h => List.mem_range.mp h) (Nat.le_refl _)
theorem Shaped.nip (w : StallS) : Shaped.Statement (.nip w) :=
  Shaped.of_reads rfl rfl (by simp [shapeOf, shS]) (by simp [shapeOf, shS])
theorem Shaped.tuck (w : StallS) : Shaped.Statement (.tuck w) :=
  Shaped.of_reads rfl rfl (fun _ h => List.mem_range.mp h) (Nat.le_refl _)
theorem Shaped.pick (w : StallS) (n : BitVec 6) : Shaped.Statement (.pick w n) :=
  Shaped.of_reads rfl rfl (by simp [shapeOf, shS]) (by simp [shapeOf, shS])
theorem Shaped.bury (w : StallS) (n : BitVec 6) : Shaped.Statement (.bury w n) :=
  Shaped.of_reads rfl rfl (by simp [shapeOf, shS]) (by simp [shapeOf, shS])
theorem Shaped.dropn (w : StallS) (n : BitVec 6) : Shaped.Statement (.dropn w n) :=
  Shaped.of_reads rfl rfl (by simp [shapeOf, shS]) (by simp [shapeOf, shS])
theorem Shaped.depth (w : StallS) : Shaped.Statement (.depth w) :=
  Shaped.of_reads rfl rfl (fun _ h => List.mem_range.mp h) (Nat.le_refl _)
theorem Shaped.dup2 (w : StallS) : Shaped.Statement (.dup2 w) :=
  Shaped.of_reads rfl rfl (by simp [shapeOf, shS]) (by simp [shapeOf, shS])
theorem Shaped.swap2 (w : StallS) : Shaped.Statement (.swap2 w) :=
  Shaped.of_reads rfl rfl (fun _ h => List.mem_range.mp h) (Nat.le_refl _)
theorem Shaped.litw (w : StallL) (v : BitVec 18) : Shaped.Statement (.litw w v) :=
  Shaped.of_reads rfl rfl (fun _ h => List.mem_range.mp h) (Nat.le_refl _)
theorem Shaped.litx (w : StallL) (v : BitVec 32) : Shaped.Statement (.litx w v) :=
  Shaped.of_reads rfl rfl (fun _ h => List.mem_range.mp h) (Nat.le_refl _)
theorem Shaped.lith (w : StallL) (v : BitVec 32) : Shaped.Statement (.lith w v) :=
  Shaped.of_reads rfl rfl (fun _ h => List.mem_range.mp h) (Nat.le_refl _)
theorem Shaped.litf (w : StallL) (v : BitVec 32) : Shaped.Statement (.litf w v) :=
  Shaped.of_reads rfl rfl (fun _ h => List.mem_range.mp h) (Nat.le_refl _)
theorem Shaped.add (w : StallS) (t : ITy) : Shaped.Statement (.add w t) :=
  Shaped.of_reads rfl rfl (fun _ h => List.mem_range.mp h) (Nat.le_refl _)
theorem Shaped.sub (w : StallS) (t : ITy) : Shaped.Statement (.sub w t) :=
  Shaped.of_reads rfl rfl (fun _ h => List.mem_range.mp h) (Nat.le_refl _)
theorem Shaped.mul (w : StallS) (t : ITy) : Shaped.Statement (.mul w t) :=
  Shaped.of_reads rfl rfl (fun _ h => List.mem_range.mp h) (Nat.le_refl _)
theorem Shaped.mulh (w : StallS) (t : ITy) : Shaped.Statement (.mulh w t) :=
  Shaped.of_reads rfl rfl (fun _ h => List.mem_range.mp h) (Nat.le_refl _)
theorem Shaped.mad (w : StallS) (t : ITy) : Shaped.Statement (.mad w t) :=
  Shaped.of_reads rfl rfl (fun _ h => List.mem_range.mp h) (Nat.le_refl _)
theorem Shaped.div (w : StallS) (t : ITy) : Shaped.Statement (.div w t) :=
  Shaped.of_reads rfl rfl (fun _ h => List.mem_range.mp h) (Nat.le_refl _)
theorem Shaped.rem (w : StallS) (t : ITy) : Shaped.Statement (.rem w t) :=
  Shaped.of_reads rfl rfl (fun _ h => List.mem_range.mp h) (Nat.le_refl _)
theorem Shaped.neg (w : StallS) (t : ITy) : Shaped.Statement (.neg w t) :=
  Shaped.of_reads rfl rfl (fun _ h => List.mem_range.mp h) (Nat.le_refl _)
theorem Shaped.abs (w : StallS) (t : ITy) : Shaped.Statement (.abs w t) :=
  Shaped.of_reads rfl rfl (fun _ h => List.mem_range.mp h) (Nat.le_refl _)
theorem Shaped.min (w : StallS) (t : ITy) : Shaped.Statement (.min w t) :=
  Shaped.of_reads rfl rfl (fun _ h => List.mem_range.mp h) (Nat.le_refl _)
theorem Shaped.max (w : StallS) (t : ITy) : Shaped.Statement (.max w t) :=
  Shaped.of_reads rfl rfl (fun _ h => List.mem_range.mp h) (Nat.le_refl _)
theorem Shaped.adds (w : StallS) (t : ITy) : Shaped.Statement (.adds w t) :=
  Shaped.of_reads rfl rfl (fun _ h => List.mem_range.mp h) (Nat.le_refl _)
theorem Shaped.subs (w : StallS) (t : ITy) : Shaped.Statement (.subs w t) :=
  Shaped.of_reads rfl rfl (fun _ h => List.mem_range.mp h) (Nat.le_refl _)
theorem Shaped.clamp (w : StallS) (t : ITy) : Shaped.Statement (.clamp w t) :=
  Shaped.of_reads rfl rfl (fun _ h => List.mem_range.mp h) (Nat.le_refl _)
theorem Shaped.and (w : StallS) (t : ITy) : Shaped.Statement (.and w t) :=
  Shaped.of_reads rfl rfl (fun _ h => List.mem_range.mp h) (Nat.le_refl _)
theorem Shaped.or (w : StallS) (t : ITy) : Shaped.Statement (.or w t) :=
  Shaped.of_reads rfl rfl (fun _ h => List.mem_range.mp h) (Nat.le_refl _)
theorem Shaped.xor (w : StallS) (t : ITy) : Shaped.Statement (.xor w t) :=
  Shaped.of_reads rfl rfl (fun _ h => List.mem_range.mp h) (Nat.le_refl _)
theorem Shaped.not (w : StallS) (t : ITy) : Shaped.Statement (.not w t) :=
  Shaped.of_reads rfl rfl (fun _ h => List.mem_range.mp h) (Nat.le_refl _)
theorem Shaped.shl (w : StallS) (t : ITy) : Shaped.Statement (.shl w t) :=
  Shaped.of_reads rfl rfl (fun _ h => List.mem_range.mp h) (Nat.le_refl _)
theorem Shaped.shr (w : StallS) (t : ITy) : Shaped.Statement (.shr w t) :=
  Shaped.of_reads rfl rfl (fun _ h => List.mem_range.mp h) (Nat.le_refl _)
theorem Shaped.rotl (w : StallS) (t : ITy) : Shaped.Statement (.rotl w t) :=
  Shaped.of_reads rfl rfl (fun _ h => List.mem_range.mp h) (Nat.le_refl _)
theorem Shaped.popc (w : StallS) (t : ITy) : Shaped.Statement (.popc w t) :=
  Shaped.of_reads rfl rfl (fun _ h => List.mem_range.mp h) (Nat.le_refl _)
theorem Shaped.clz (w : StallS) (t : ITy) : Shaped.Statement (.clz w t) :=
  Shaped.of_reads rfl rfl (fun _ h => List.mem_range.mp h) (Nat.le_refl _)
theorem Shaped.ctz (w : StallS) (t : ITy) : Shaped.Statement (.ctz w t) :=
  Shaped.of_reads rfl rfl (fun _ h => List.mem_range.mp h) (Nat.le_refl _)
theorem Shaped.bfx (w : StallS) (t : ITy) : Shaped.Statement (.bfx w t) :=
  Shaped.of_reads rfl rfl (fun _ h => List.mem_range.mp h) (Nat.le_refl _)
theorem Shaped.bfi (w : StallS) (t : ITy) : Shaped.Statement (.bfi w t) :=
  Shaped.of_reads rfl rfl (fun _ h => List.mem_range.mp h) (Nat.le_refl _)
theorem Shaped.brev (w : StallS) (t : ITy) : Shaped.Statement (.brev w t) :=
  Shaped.of_reads rfl rfl (fun _ h => List.mem_range.mp h) (Nat.le_refl _)
theorem Shaped.sel (w : StallS) (t : ITy) : Shaped.Statement (.sel w t) :=
  Shaped.of_reads rfl rfl (fun _ h => List.mem_range.mp h) (Nat.le_refl _)
theorem Shaped.eq (w : StallS) (t : ITy) : Shaped.Statement (.eq w t) :=
  Shaped.of_reads rfl rfl (fun _ h => List.mem_range.mp h) (Nat.le_refl _)
theorem Shaped.ne (w : StallS) (t : ITy) : Shaped.Statement (.ne w t) :=
  Shaped.of_reads rfl rfl (fun _ h => List.mem_range.mp h) (Nat.le_refl _)
theorem Shaped.lt (w : StallS) (t : ITy) : Shaped.Statement (.lt w t) :=
  Shaped.of_reads rfl rfl (fun _ h => List.mem_range.mp h) (Nat.le_refl _)
theorem Shaped.le (w : StallS) (t : ITy) : Shaped.Statement (.le w t) :=
  Shaped.of_reads rfl rfl (fun _ h => List.mem_range.mp h) (Nat.le_refl _)
theorem Shaped.addi (w : StallS) (n : BitVec 6) : Shaped.Statement (.addi w n) :=
  Shaped.of_reads rfl rfl (fun _ h => List.mem_range.mp h) (Nat.le_refl _)
theorem Shaped.shli (w : StallS) (n : BitVec 6) : Shaped.Statement (.shli w n) :=
  Shaped.of_reads rfl rfl (fun _ h => List.mem_range.mp h) (Nat.le_refl _)
theorem Shaped.fadd (w : StallS) : Shaped.Statement (.fadd w) :=
  Shaped.of_reads rfl rfl (fun _ h => List.mem_range.mp h) (Nat.le_refl _)
theorem Shaped.fsub (w : StallS) : Shaped.Statement (.fsub w) :=
  Shaped.of_reads rfl rfl (fun _ h => List.mem_range.mp h) (Nat.le_refl _)
theorem Shaped.fmul (w : StallS) : Shaped.Statement (.fmul w) :=
  Shaped.of_reads rfl rfl (fun _ h => List.mem_range.mp h) (Nat.le_refl _)
theorem Shaped.fma (w : StallS) : Shaped.Statement (.fma w) :=
  Shaped.of_reads rfl rfl (fun _ h => List.mem_range.mp h) (Nat.le_refl _)
theorem Shaped.fdiv (w : StallS) : Shaped.Statement (.fdiv w) :=
  Shaped.of_reads rfl rfl (fun _ h => List.mem_range.mp h) (Nat.le_refl _)
theorem Shaped.fsqrt (w : StallS) : Shaped.Statement (.fsqrt w) :=
  Shaped.of_reads rfl rfl (fun _ h => List.mem_range.mp h) (Nat.le_refl _)
theorem Shaped.fneg (w : StallS) : Shaped.Statement (.fneg w) :=
  Shaped.of_reads rfl rfl (fun _ h => List.mem_range.mp h) (Nat.le_refl _)
theorem Shaped.fabs (w : StallS) : Shaped.Statement (.fabs w) :=
  Shaped.of_reads rfl rfl (fun _ h => List.mem_range.mp h) (Nat.le_refl _)
theorem Shaped.fsgn (w : StallS) : Shaped.Statement (.fsgn w) :=
  Shaped.of_reads rfl rfl (fun _ h => List.mem_range.mp h) (Nat.le_refl _)
theorem Shaped.fmin (w : StallS) (m : Bool) : Shaped.Statement (.fmin w m) :=
  Shaped.of_reads rfl rfl (fun _ h => List.mem_range.mp h) (Nat.le_refl _)
theorem Shaped.fmax (w : StallS) (m : Bool) : Shaped.Statement (.fmax w m) :=
  Shaped.of_reads rfl rfl (fun _ h => List.mem_range.mp h) (Nat.le_refl _)
theorem Shaped.fcmp (w : StallS) (c : FCond) : Shaped.Statement (.fcmp w c) :=
  Shaped.of_reads rfl rfl (fun _ h => List.mem_range.mp h) (Nat.le_refl _)
theorem Shaped.fclass (w : StallS) : Shaped.Statement (.fclass w) :=
  Shaped.of_reads rfl rfl (fun _ h => List.mem_range.mp h) (Nat.le_refl _)
theorem Shaped.frnd (w : StallS) (r : RCode) : Shaped.Statement (.frnd w r) :=
  Shaped.of_reads rfl rfl (fun _ h => List.mem_range.mp h) (Nat.le_refl _)
theorem Shaped.frcpa (w : StallS) : Shaped.Statement (.frcpa w) :=
  Shaped.of_reads rfl rfl (fun _ h => List.mem_range.mp h) (Nat.le_refl _)
theorem Shaped.frsqa (w : StallS) : Shaped.Statement (.frsqa w) :=
  Shaped.of_reads rfl rfl (fun _ h => List.mem_range.mp h) (Nat.le_refl _)
theorem Shaped.fexp2a (w : StallS) : Shaped.Statement (.fexp2a w) :=
  Shaped.of_reads rfl rfl (fun _ h => List.mem_range.mp h) (Nat.le_refl _)
theorem Shaped.flog2a (w : StallS) : Shaped.Statement (.flog2a w) :=
  Shaped.of_reads rfl rfl (fun _ h => List.mem_range.mp h) (Nat.le_refl _)
theorem Shaped.cvt (w : StallL) (src dst : CvtTy) (r : RCode) : Shaped.Statement (.cvt w src dst r) :=
  Shaped.of_reads rfl rfl (fun _ h => List.mem_range.mp h) (Nat.le_refl _)
theorem Shaped.pack2F16 (w : StallS) (r : RCode) : Shaped.Statement (.pack2F16 w r) :=
  Shaped.of_reads rfl rfl (fun _ h => List.mem_range.mp h) (Nat.le_refl _)
theorem Shaped.pack2B16 (w : StallS) : Shaped.Statement (.pack2B16 w) :=
  Shaped.of_reads rfl rfl (fun _ h => List.mem_range.mp h) (Nat.le_refl _)
theorem Shaped.unpk2 (w : StallS) (f : Fmt16) : Shaped.Statement (.unpk2 w f) :=
  Shaped.of_reads rfl rfl (fun _ h => List.mem_range.mp h) (Nat.le_refl _)
theorem Shaped.ext (w : StallS) (sgn : Bool) (k : ExtW) : Shaped.Statement (.ext w sgn k) :=
  Shaped.of_reads rfl rfl (fun _ h => List.mem_range.mp h) (Nat.le_refl _)
theorem Shaped.qnt (w : StallS) (q : QFmt) : Shaped.Statement (.qnt w q) :=
  Shaped.of_reads rfl rfl (fun _ h => List.mem_range.mp h) (Nat.le_refl _)
theorem Shaped.dqnt (w : StallS) (q : QFmt) : Shaped.Statement (.dqnt w q) :=
  Shaped.of_reads rfl rfl (fun _ h => List.mem_range.mp h) (Nat.le_refl _)
theorem Shaped.ldl (w : StallS) (n : BitVec 6) : Shaped.Statement (.ldl w n) :=
  Shaped.of_reads rfl rfl (fun _ h => List.mem_range.mp h) (Nat.le_refl _)
theorem Shaped.stl (w : StallS) (n : BitVec 6) : Shaped.Statement (.stl w n) :=
  Shaped.of_reads rfl rfl (fun _ h => List.mem_range.mp h) (Nat.le_refl _)
theorem Shaped.ldlx (w : StallS) : Shaped.Statement (.ldlx w) :=
  Shaped.of_reads rfl rfl (fun _ h => List.mem_range.mp h) (Nat.le_refl _)
theorem Shaped.stlx (w : StallS) : Shaped.Statement (.stlx w) :=
  Shaped.of_reads rfl rfl (fun _ h => List.mem_range.mp h) (Nat.le_refl _)
theorem Shaped.give (w : StallS) (k : BitVec 4) : Shaped.Statement (.give w k) :=
  Shaped.of_reads rfl rfl (fun _ h => List.mem_range.mp h) (Nat.le_refl _)
theorem Shaped.claim (w : StallS) (k : BitVec 4) : Shaped.Statement (.claim w k) :=
  Shaped.of_reads rfl rfl (fun _ h => List.mem_range.mp h) (Nat.le_refl _)
theorem Shaped.claimGrant (slice task : Nat) : Shaped.Statement (.claimGrant slice task) := Shaped.of_event rfl rfl
theorem Shaped.rsr (w : StallL) (r : SReg) : Shaped.Statement (.rsr w r) :=
  Shaped.of_reads rfl rfl (fun _ h => List.mem_range.mp h) (Nat.le_refl _)
theorem Shaped.wsr (w : StallL) (r : SReg) : Shaped.Statement (.wsr w r) :=
  Shaped.of_reads rfl rfl (fun _ h => List.mem_range.mp h) (Nat.le_refl _)
theorem Shaped.wsrTstat (w : StallL) : Shaped.Statement (.wsrTstat w) :=
  Shaped.of_reads rfl rfl (fun _ h => List.mem_range.mp h) (Nat.le_refl _)
theorem Shaped.wsrTkstat (w : StallL) : Shaped.Statement (.wsrTkstat w) :=
  Shaped.of_reads rfl rfl (fun _ h => List.mem_range.mp h) (Nat.le_refl _)
theorem Shaped.wsrEfh (w : StallL) : Shaped.Statement (.wsrEfh w) :=
  Shaped.of_reads rfl rfl (fun _ h => List.mem_range.mp h) (Nat.le_refl _)
theorem Shaped.wsrSsbase (w : StallL) : Shaped.Statement (.wsrSsbase w) :=
  Shaped.of_reads rfl rfl (fun _ h => List.mem_range.mp h) (Nat.le_refl _)
theorem Shaped.wsrPtb (w : StallL) : Shaped.Statement (.wsrPtb w) :=
  Shaped.of_reads rfl rfl (fun _ h => List.mem_range.mp h) (Nat.le_refl _)
theorem Shaped.wsrAsidx (w : StallL) : Shaped.Statement (.wsrAsidx w) :=
  Shaped.of_reads rfl rfl (fun _ h => List.mem_range.mp h) (Nat.le_refl _)
theorem Shaped.wsrCutdl (w : StallL) : Shaped.Statement (.wsrCutdl w) :=
  Shaped.of_reads rfl rfl (fun _ h => List.mem_range.mp h) (Nat.le_refl _)
theorem Shaped.br (w : StallL) (off : BitVec 18) : Shaped.Statement (.br w off) :=
  Shaped.of_reads rfl rfl (fun _ h => List.mem_range.mp h) (Nat.le_refl _)
theorem Shaped.brz (w : StallL) (off : BitVec 18) : Shaped.Statement (.brz w off) :=
  Shaped.of_reads rfl rfl (fun _ h => List.mem_range.mp h) (Nat.le_refl _)
theorem Shaped.brnz (w : StallL) (off : BitVec 18) : Shaped.Statement (.brnz w off) :=
  Shaped.of_reads rfl rfl (fun _ h => List.mem_range.mp h) (Nat.le_refl _)
theorem Shaped.call (w : StallL) (off : BitVec 18) : Shaped.Statement (.call w off) :=
  Shaped.of_reads rfl rfl (fun _ h => List.mem_range.mp h) (Nat.le_refl _)
theorem Shaped.meet (w : StallL) (off : BitVec 18) : Shaped.Statement (.meet w off) :=
  Shaped.of_reads rfl rfl (fun _ h => List.mem_range.mp h) (Nat.le_refl _)
theorem Shaped.ret (w : StallS) : Shaped.Statement (.ret w) :=
  Shaped.of_reads rfl rfl (fun _ h => List.mem_range.mp h) (Nat.le_refl _)
theorem Shaped.exit (w : StallS) : Shaped.Statement (.exit w) :=
  Shaped.of_reads rfl rfl (fun _ h => List.mem_range.mp h) (Nat.le_refl _)
theorem Shaped.brx (w : StallS) : Shaped.Statement (.brx w) :=
  Shaped.of_reads rfl rfl (fun _ h => List.mem_range.mp h) (Nat.le_refl _)
theorem Shaped.callx (w : StallS) : Shaped.Statement (.callx w) :=
  Shaped.of_reads rfl rfl (fun _ h => List.mem_range.mp h) (Nat.le_refl _)
theorem Shaped.join (w : StallS) (d : BitVec 6) : Shaped.Statement (.join w d) :=
  Shaped.of_reads rfl rfl (fun _ h => List.mem_range.mp h) (Nat.le_refl _)
theorem Shaped.yield (w : StallS) : Shaped.Statement (.yield w) :=
  Shaped.of_reads rfl rfl (fun _ h => List.mem_range.mp h) (Nat.le_refl _)
theorem Shaped.prio (w : StallS) (n : BitVec 2) : Shaped.Statement (.prio w n) :=
  Shaped.of_reads rfl rfl (fun _ h => List.mem_range.mp h) (Nat.le_refl _)
theorem Shaped.ld (w : StallL) (wt : LdW) (off : BitVec 12) : Shaped.Statement (.ld w wt off) :=
  Shaped.of_reads rfl rfl (fun _ h => List.mem_range.mp h) (Nat.le_refl _)
theorem Shaped.st (w : StallL) (wt : StW) (off : BitVec 12) : Shaped.Statement (.st w wt off) :=
  Shaped.of_reads rfl rfl (fun _ h => List.mem_range.mp h) (Nat.le_refl _)
theorem Shaped.ld2 (w : StallL) (off : BitVec 12) : Shaped.Statement (.ld2 w off) :=
  Shaped.of_reads rfl rfl (fun _ h => List.mem_range.mp h) (Nat.le_refl _)
theorem Shaped.st2 (w : StallL) (off : BitVec 12) : Shaped.Statement (.st2 w off) :=
  Shaped.of_reads rfl rfl (fun _ h => List.mem_range.mp h) (Nat.le_refl _)
theorem Shaped.lds (w : StallL) (sc : Scope) (wt : LdsW) (off : BitVec 12) : Shaped.Statement (.lds w sc wt off) :=
  Shaped.of_reads rfl rfl (fun _ h => List.mem_range.mp h) (Nat.le_refl _)
theorem Shaped.ldsAcq (w : StallL) (sc : Scope) (wt : LdsW) (off : BitVec 12) :
    Shaped.Statement (.ldsAcq w sc wt off) := Shaped.of_reads rfl rfl (fun _ h => List.mem_range.mp h) (Nat.le_refl _)
theorem Shaped.sts (w : StallL) (sc : Scope) (wt : AtW) (off : BitVec 12) : Shaped.Statement (.sts w sc wt off) :=
  Shaped.of_reads rfl rfl (fun _ h => List.mem_range.mp h) (Nat.le_refl _)
theorem Shaped.stsRel (w : StallL) (sc : Scope) (wt : AtW) (off : BitVec 12) : Shaped.Statement (.stsRel w sc wt off) :=
  Shaped.of_reads rfl rfl (fun _ h => List.mem_range.mp h) (Nat.le_refl _)
theorem Shaped.phase (w : StallL) (sc : Scope) : Shaped.Statement (.phase w sc) :=
  Shaped.of_reads rfl rfl (fun _ h => List.mem_range.mp h) (Nat.le_refl _)
theorem Shaped.phaseP (w : StallL) (sc : Scope) : Shaped.Statement (.phaseP w sc) :=
  Shaped.of_reads rfl rfl (fun _ h => List.mem_range.mp h) (Nat.le_refl _)
theorem Shaped.phaseO (w : StallL) (sc : Scope) : Shaped.Statement (.phaseO w sc) :=
  Shaped.of_reads rfl rfl (fun _ h => List.mem_range.mp h) (Nat.le_refl _)
theorem Shaped.icinv (w : StallL) (sc : Scope) : Shaped.Statement (.icinv w sc) :=
  Shaped.of_reads rfl rfl (fun _ h => List.mem_range.mp h) (Nat.le_refl _)
theorem Shaped.pref (w : StallL) (lvl : PLvl) (off : BitVec 12) : Shaped.Statement (.pref w lvl off) :=
  Shaped.of_reads rfl rfl (fun _ h => List.mem_range.mp h) (Nat.le_refl _)
theorem Shaped.atomAdd (w : StallL) (o : AOrd) (sc : Scope) (wt : AtW) (off : BitVec 12) :
    Shaped.Statement (.atomAdd w o sc wt off) := Shaped.of_reads rfl rfl (fun _ h => List.mem_range.mp h) (Nat.le_refl _)
theorem Shaped.atomAnd (w : StallL) (o : AOrd) (sc : Scope) (wt : AtW) (off : BitVec 12) :
    Shaped.Statement (.atomAnd w o sc wt off) := Shaped.of_reads rfl rfl (fun _ h => List.mem_range.mp h) (Nat.le_refl _)
theorem Shaped.atomOr (w : StallL) (o : AOrd) (sc : Scope) (wt : AtW) (off : BitVec 12) :
    Shaped.Statement (.atomOr w o sc wt off) := Shaped.of_reads rfl rfl (fun _ h => List.mem_range.mp h) (Nat.le_refl _)
theorem Shaped.atomXor (w : StallL) (o : AOrd) (sc : Scope) (wt : AtW) (off : BitVec 12) :
    Shaped.Statement (.atomXor w o sc wt off) := Shaped.of_reads rfl rfl (fun _ h => List.mem_range.mp h) (Nat.le_refl _)
theorem Shaped.atomMinS (w : StallL) (o : AOrd) (sc : Scope) (wt : AtW) (off : BitVec 12) :
    Shaped.Statement (.atomMinS w o sc wt off) :=
  Shaped.of_reads rfl rfl (fun _ h => List.mem_range.mp h) (Nat.le_refl _)
theorem Shaped.atomMinN (w : StallL) (o : AOrd) (sc : Scope) (wt : AtW) (off : BitVec 12) :
    Shaped.Statement (.atomMinN w o sc wt off) :=
  Shaped.of_reads rfl rfl (fun _ h => List.mem_range.mp h) (Nat.le_refl _)
theorem Shaped.atomMaxS (w : StallL) (o : AOrd) (sc : Scope) (wt : AtW) (off : BitVec 12) :
    Shaped.Statement (.atomMaxS w o sc wt off) :=
  Shaped.of_reads rfl rfl (fun _ h => List.mem_range.mp h) (Nat.le_refl _)
theorem Shaped.atomMaxN (w : StallL) (o : AOrd) (sc : Scope) (wt : AtW) (off : BitVec 12) :
    Shaped.Statement (.atomMaxN w o sc wt off) :=
  Shaped.of_reads rfl rfl (fun _ h => List.mem_range.mp h) (Nat.le_refl _)
theorem Shaped.atomXchg (w : StallL) (o : AOrd) (sc : Scope) (wt : AtW) (off : BitVec 12) :
    Shaped.Statement (.atomXchg w o sc wt off) :=
  Shaped.of_reads rfl rfl (fun _ h => List.mem_range.mp h) (Nat.le_refl _)
theorem Shaped.atomFadd (w : StallL) (o : AOrd) (sc : Scope) (off : BitVec 12) :
    Shaped.Statement (.atomFadd w o sc off) := Shaped.of_reads rfl rfl (fun _ h => List.mem_range.mp h) (Nat.le_refl _)
theorem Shaped.atomFmin (w : StallL) (o : AOrd) (sc : Scope) (off : BitVec 12) :
    Shaped.Statement (.atomFmin w o sc off) := Shaped.of_reads rfl rfl (fun _ h => List.mem_range.mp h) (Nat.le_refl _)
theorem Shaped.atomFmax (w : StallL) (o : AOrd) (sc : Scope) (off : BitVec 12) :
    Shaped.Statement (.atomFmax w o sc off) := Shaped.of_reads rfl rfl (fun _ h => List.mem_range.mp h) (Nat.le_refl _)
theorem Shaped.cas (w : StallL) (o : AOrd) (sc : Scope) (wt : AtW) (off : BitVec 12) :
    Shaped.Statement (.cas w o sc wt off) := Shaped.of_reads rfl rfl (fun _ h => List.mem_range.mp h) (Nat.le_refl _)
theorem Shaped.redAdd (w : StallL) (o : AOrd) (sc : Scope) (wt : AtW) (off : BitVec 12) :
    Shaped.Statement (.redAdd w o sc wt off) := Shaped.of_reads rfl rfl (fun _ h => List.mem_range.mp h) (Nat.le_refl _)
theorem Shaped.redAnd (w : StallL) (o : AOrd) (sc : Scope) (wt : AtW) (off : BitVec 12) :
    Shaped.Statement (.redAnd w o sc wt off) := Shaped.of_reads rfl rfl (fun _ h => List.mem_range.mp h) (Nat.le_refl _)
theorem Shaped.redOr (w : StallL) (o : AOrd) (sc : Scope) (wt : AtW) (off : BitVec 12) :
    Shaped.Statement (.redOr w o sc wt off) := Shaped.of_reads rfl rfl (fun _ h => List.mem_range.mp h) (Nat.le_refl _)
theorem Shaped.redXor (w : StallL) (o : AOrd) (sc : Scope) (wt : AtW) (off : BitVec 12) :
    Shaped.Statement (.redXor w o sc wt off) := Shaped.of_reads rfl rfl (fun _ h => List.mem_range.mp h) (Nat.le_refl _)
theorem Shaped.redMinS (w : StallL) (o : AOrd) (sc : Scope) (wt : AtW) (off : BitVec 12) :
    Shaped.Statement (.redMinS w o sc wt off) := Shaped.of_reads rfl rfl (fun _ h => List.mem_range.mp h) (Nat.le_refl _)
theorem Shaped.redMinN (w : StallL) (o : AOrd) (sc : Scope) (wt : AtW) (off : BitVec 12) :
    Shaped.Statement (.redMinN w o sc wt off) := Shaped.of_reads rfl rfl (fun _ h => List.mem_range.mp h) (Nat.le_refl _)
theorem Shaped.redMaxS (w : StallL) (o : AOrd) (sc : Scope) (wt : AtW) (off : BitVec 12) :
    Shaped.Statement (.redMaxS w o sc wt off) := Shaped.of_reads rfl rfl (fun _ h => List.mem_range.mp h) (Nat.le_refl _)
theorem Shaped.redMaxN (w : StallL) (o : AOrd) (sc : Scope) (wt : AtW) (off : BitVec 12) :
    Shaped.Statement (.redMaxN w o sc wt off) := Shaped.of_reads rfl rfl (fun _ h => List.mem_range.mp h) (Nat.le_refl _)
theorem Shaped.redFadd (w : StallL) (o : AOrd) (sc : Scope) (off : BitVec 12) :
    Shaped.Statement (.redFadd w o sc off) := Shaped.of_reads rfl rfl (fun _ h => List.mem_range.mp h) (Nat.le_refl _)
theorem Shaped.redFmin (w : StallL) (o : AOrd) (sc : Scope) (off : BitVec 12) :
    Shaped.Statement (.redFmin w o sc off) := Shaped.of_reads rfl rfl (fun _ h => List.mem_range.mp h) (Nat.le_refl _)
theorem Shaped.redFmax (w : StallL) (o : AOrd) (sc : Scope) (off : BitVec 12) :
    Shaped.Statement (.redFmax w o sc off) := Shaped.of_reads rfl rfl (fun _ h => List.mem_range.mp h) (Nat.le_refl _)
theorem Shaped.mwait (w : StallS) : Shaped.Statement (.mwait w) :=
  Shaped.of_reads rfl rfl (fun _ h => List.mem_range.mp h) (Nat.le_refl _)
theorem Shaped.mwaitWake (l : LaneId) (why : WakeWhy) : Shaped.Statement (.mwaitWake l why) := Shaped.of_event rfl rfl
theorem Shaped.trackedResultArrival (l : LaneId) (bix : Nat) : Shaped.Statement (.trackedResultArrival l bix) :=
  Shaped.of_event rfl rfl
theorem Shaped.refill (slice place : Nat) : Shaped.Statement (.refill slice place) := Shaped.of_event rfl rfl
theorem Shaped.unassignedEncoding (e : Enc) : Shaped.Statement (.unassignedEncoding e) := by
  cases e <;> exact Shaped.of_reads rfl rfl (by simp [shapeOf]) (Nat.le_refl _)
theorem Shaped.spawn (w : StallL) : Shaped.Statement (.spawn w) :=
  Shaped.of_reads rfl rfl (fun _ h => List.mem_range.mp h) (Nat.le_refl _)
theorem Shaped.spawnw (w : StallL) : Shaped.Statement (.spawnw w) :=
  Shaped.of_reads rfl rfl (fun _ h => List.mem_range.mp h) (Nat.le_refl _)
theorem Shaped.spawnWaitWake (task slice place : Nat) : Shaped.Statement (.spawnWaitWake task slice place) :=
  Shaped.of_event rfl rfl
theorem Shaped.taskPlacement (launch : Nat) (members : List Nat) : Shaped.Statement (.taskPlacement launch members) :=
  Shaped.of_event rfl rfl
theorem Shaped.waveFormation (task place : Nat) : Shaped.Statement (.waveFormation task place) := Shaped.of_event rfl rfl
theorem Shaped.taskRetire (task : Nat) : Shaped.Statement (.taskRetire task) := Shaped.of_event rfl rfl
theorem Shaped.tearDown (vf asid : Nat) (report : Nat) : Shaped.Statement (.tearDown vf asid report) :=
  Shaped.of_event rfl rfl
theorem Shaped.talloc (w : StallL) : Shaped.Statement (.talloc w) :=
  Shaped.of_reads rfl rfl (fun _ h => List.mem_range.mp h) (Nat.le_refl _)
theorem Shaped.tfree (w : StallL) : Shaped.Statement (.tfree w) :=
  Shaped.of_reads rfl rfl (fun _ h => List.mem_range.mp h) (Nat.le_refl _)
theorem Shaped.tdef (w : StallL) : Shaped.Statement (.tdef w) :=
  Shaped.of_reads rfl rfl (fun _ h => List.mem_range.mp h) (Nat.le_refl _)
theorem Shaped.tget (w : StallL) (i : BitVec 3) : Shaped.Statement (.tget w i) :=
  Shaped.of_reads rfl rfl (fun _ h => List.mem_range.mp h) (Nat.le_refl _)
theorem Shaped.tset (w : StallL) (i : BitVec 3) : Shaped.Statement (.tset w i) :=
  Shaped.of_reads rfl rfl (fun _ h => List.mem_range.mp h) (Nat.le_refl _)
theorem Shaped.atomt (w : StallL) (op : AOp) (o : AOrd) : Shaped.Statement (.atomt w op o) :=
  Shaped.of_reads rfl rfl (by simp [shapeOf, shL]) (by simp [shapeOf, shL])
theorem Shaped.tfill (w : StallL) : Shaped.Statement (.tfill w) :=
  Shaped.of_reads rfl rfl (fun _ h => List.mem_range.mp h) (Nat.le_refl _)
theorem Shaped.tcol (w : StallL) (all : Bool) (op : TColOp) : Shaped.Statement (.tcol w all op) :=
  Shaped.of_reads rfl rfl (fun _ h => List.mem_range.mp h) (Nat.le_refl _)
theorem Shaped.tcopy (w : StallL) : Shaped.Statement (.tcopy w) :=
  Shaped.of_reads rfl rfl (fun _ h => List.mem_range.mp h) (Nat.le_refl _)
theorem Shaped.ldt (w : StallS) : Shaped.Statement (.ldt w) :=
  Shaped.of_reads rfl rfl (fun _ h => List.mem_range.mp h) (Nat.le_refl _)
theorem Shaped.stt (w : StallS) : Shaped.Statement (.stt w) :=
  Shaped.of_reads rfl rfl (fun _ h => List.mem_range.mp h) (Nat.le_refl _)
theorem Shaped.bankOperationComplete (task op : Nat) : Shaped.Statement (.bankOperationComplete task op) :=
  Shaped.of_event rfl rfl
theorem Shaped.cpy (w : StallL) (fo : Bool) (stg : BitVec 2) (nb : Bool) (stid dtid : BitVec 8) :
    Shaped.Statement (.cpy w fo stg nb stid dtid) :=
  Shaped.of_reads rfl rfl (fun _ h => List.mem_range.mp h) (Nat.le_refl _)
theorem Shaped.cpyl (w : StallL) : Shaped.Statement (.cpyl w) :=
  Shaped.of_reads rfl rfl (fun _ h => List.mem_range.mp h) (Nat.le_refl _)
theorem Shaped.copySlotGrant (slice : Nat) : Shaped.Statement (.copySlotGrant slice) := Shaped.of_event rfl rfl
theorem Shaped.copyRequestIssue (slice copy req : Nat) : Shaped.Statement (.copyRequestIssue slice copy req) :=
  Shaped.of_event rfl rfl
theorem Shaped.copyRequestComplete (slice copy req : Nat) : Shaped.Statement (.copyRequestComplete slice copy req) :=
  Shaped.of_event rfl rfl
theorem Shaped.cinit (w : StallL) (c : BitVec 12) : Shaped.Statement (.cinit w c) :=
  Shaped.of_reads rfl rfl (fun _ h => List.mem_range.mp h) (Nat.le_refl _)
theorem Shaped.cwait (w : StallL) (c : BitVec 12) : Shaped.Statement (.cwait w c) :=
  Shaped.of_reads rfl rfl (fun _ h => List.mem_range.mp h) (Nat.le_refl _)
theorem Shaped.seal (w : StallS) (n : BitVec 3) : Shaped.Statement (.seal w n) :=
  Shaped.of_reads rfl rfl (fun _ h => List.mem_range.mp h) (Nat.le_refl _)
theorem Shaped.waitb (w : StallS) (n : BitVec 3) : Shaped.Statement (.waitb w n) :=
  Shaped.of_reads rfl rfl (fun _ h => List.mem_range.mp h) (Nat.le_refl _)
theorem Shaped.barinit (w : StallL) (sc : Scope) (b : BitVec 5) : Shaped.Statement (.barinit w sc b) :=
  Shaped.of_reads rfl rfl (fun _ h => List.mem_range.mp h) (Nat.le_refl _)
theorem Shaped.bar (w : StallS) (b : BitVec 5) : Shaped.Statement (.bar w b) :=
  Shaped.of_reads rfl rfl (fun _ h => List.mem_range.mp h) (Nat.le_refl _)
theorem Shaped.bara (w : StallS) (b : BitVec 5) : Shaped.Statement (.bara w b) :=
  Shaped.of_reads rfl rfl (fun _ h => List.mem_range.mp h) (Nat.le_refl _)
theorem Shaped.barw (w : StallS) (b : BitVec 5) : Shaped.Statement (.barw w b) :=
  Shaped.of_reads rfl rfl (fun _ h => List.mem_range.mp h) (Nat.le_refl _)
theorem Shaped.rowres (w : StallL) (n : BitVec 12) : Shaped.Statement (.rowres w n) :=
  Shaped.of_reads rfl rfl (fun _ h => List.mem_range.mp h) (Nat.le_refl _)
theorem Shaped.suspend (w : StallL) (n : BitVec 12) : Shaped.Statement (.suspend w n) :=
  Shaped.of_reads rfl rfl (fun _ h => List.mem_range.mp h) (Nat.le_refl _)
theorem Shaped.suspendk (w : StallL) (n : BitVec 12) : Shaped.Statement (.suspendk w n) :=
  Shaped.of_reads rfl rfl (fun _ h => List.mem_range.mp h) (Nat.le_refl _)
theorem Shaped.wakeRow (w : StallL) : Shaped.Statement (.wakeRow w) :=
  Shaped.of_reads rfl rfl (fun _ h => List.mem_range.mp h) (Nat.le_refl _)
theorem Shaped.wakeSite (w : StallL) (n : BitVec 12) : Shaped.Statement (.wakeSite w n) :=
  Shaped.of_reads rfl rfl (fun _ h => List.mem_range.mp h) (Nat.le_refl _)
theorem Shaped.wakeThr (w : StallL) : Shaped.Statement (.wakeThr w) :=
  Shaped.of_reads rfl rfl (fun _ h => List.mem_range.mp h) (Nat.le_refl _)
theorem Shaped.flush (w : StallL) (n : BitVec 12) : Shaped.Statement (.flush w n) :=
  Shaped.of_reads rfl rfl (fun _ h => List.mem_range.mp h) (Nat.le_refl _)
theorem Shaped.frameAgeExpiry (task tid row : Nat) : Shaped.Statement (.frameAgeExpiry task tid row) :=
  Shaped.of_event rfl rfl
theorem Shaped.resumeLoad (task tid slice place : Nat) : Shaped.Statement (.resumeLoad task tid slice place) :=
  Shaped.of_event rfl rfl
theorem Shaped.mm (w : StallL) (acc fo : Bool) (tag : BitVec 3) : Shaped.Statement (.mm w acc fo tag) :=
  Shaped.of_reads rfl rfl (fun _ h => List.mem_range.mp h) (Nat.le_refl _)
theorem Shaped.mms (w : StallL) (acc fo : Bool) (tag : BitVec 3) : Shaped.Statement (.mms w acc fo tag) :=
  Shaped.of_reads rfl rfl (fun _ h => List.mem_range.mp h) (Nat.le_refl _)
theorem Shaped.mmstage (w : StallL) (acc sp : Bool) (tag : BitVec 3) (k : BitVec 2) :
    Shaped.Statement (.mmstage w acc sp tag k) :=
  Shaped.of_reads rfl rfl (fun _ h => List.mem_range.mp h) (Nat.le_refl _)
theorem Shaped.mmflag (w : StallL) (k : BitVec 2) : Shaped.Statement (.mmflag w k) :=
  Shaped.of_reads rfl rfl (fun _ h => List.mem_range.mp h) (Nat.le_refl _)
theorem Shaped.mmflagDrop (w : StallL) (k : BitVec 2) : Shaped.Statement (.mmflagDrop w k) :=
  Shaped.of_reads rfl rfl (fun _ h => List.mem_range.mp h) (Nat.le_refl _)
theorem Shaped.matrixQueueGrant (slice : Nat) : Shaped.Statement (.matrixQueueGrant slice) := Shaped.of_event rfl rfl
theorem Shaped.gateEntryGrant (slice : Nat) : Shaped.Statement (.gateEntryGrant slice) := Shaped.of_event rfl rfl
theorem Shaped.gatedCommandEntry (slice : Nat) (idx : Nat) : Shaped.Statement (.gatedCommandEntry slice idx) :=
  Shaped.of_event rfl rfl
theorem Shaped.stagedCommandEntry (slice slot : Nat) : Shaped.Statement (.stagedCommandEntry slice slot) :=
  Shaped.of_event rfl rfl
theorem Shaped.matrixCommandStart (slice : Nat) : Shaped.Statement (.matrixCommandStart slice) := Shaped.of_event rfl rfl
theorem Shaped.multicastWindowExpiry (slice : Nat) : Shaped.Statement (.multicastWindowExpiry slice) :=
  Shaped.of_event rfl rfl
theorem Shaped.matrixCommandComplete (slice : Nat) : Shaped.Statement (.matrixCommandComplete slice) :=
  Shaped.of_event rfl rfl
theorem Shaped.tlbinvPage (w : StallL) : Shaped.Statement (.tlbinvPage w) :=
  Shaped.of_reads rfl rfl (fun _ h => List.mem_range.mp h) (Nat.le_refl _)
theorem Shaped.tlbinvSpace (w : StallL) : Shaped.Statement (.tlbinvSpace w) :=
  Shaped.of_reads rfl rfl (fun _ h => List.mem_range.mp h) (Nat.le_refl _)
theorem Shaped.tlbinvVf (w : StallL) : Shaped.Statement (.tlbinvVf w) :=
  Shaped.of_reads rfl rfl (fun _ h => List.mem_range.mp h) (Nat.le_refl _)
theorem Shaped.tlbinvSplit (w : StallL) : Shaped.Statement (.tlbinvSplit w) :=
  Shaped.of_reads rfl rfl (fun _ h => List.mem_range.mp h) (Nat.le_refl _)
theorem Shaped.replay (w : StallL) : Shaped.Statement (.replay w) :=
  Shaped.of_reads rfl rfl (fun _ h => List.mem_range.mp h) (Nat.le_refl _)
theorem Shaped.fbstatPop (pop : RecordPop) : Shaped.Statement (.fbstatPop pop) := Shaped.of_event rfl rfl
theorem Shaped.fbstatDroppedClear (sector : Nat) : Shaped.Statement (.fbstatDroppedClear sector) :=
  Shaped.of_event rfl rfl
theorem Shaped.frplay (vf asid : Nat) : Shaped.Statement (.frplay vf asid) := Shaped.of_event rfl rfl
theorem Shaped.syscall (w : StallL) (c : BitVec 12) : Shaped.Statement (.syscall w c) :=
  Shaped.of_reads rfl rfl (fun _ h => List.mem_range.mp h) (Nat.le_refl _)
theorem Shaped.hcall (w : StallL) (c : BitVec 12) : Shaped.Statement (.hcall w c) :=
  Shaped.of_reads rfl rfl (fun _ h => List.mem_range.mp h) (Nat.le_refl _)
theorem Shaped.brk (w : StallS) : Shaped.Statement (.brk w) :=
  Shaped.of_reads rfl rfl (fun _ h => List.mem_range.mp h) (Nat.le_refl _)
theorem Shaped.sret (w : StallS) : Shaped.Statement (.sret w) :=
  Shaped.of_reads rfl rfl (fun _ h => List.mem_range.mp h) (Nat.le_refl _)
theorem Shaped.hret (w : StallS) : Shaped.Statement (.hret w) :=
  Shaped.of_reads rfl rfl (fun _ h => List.mem_range.mp h) (Nat.le_refl _)
theorem Shaped.tfld (w : StallS) (n : BitVec 3) : Shaped.Statement (.tfld w n) :=
  Shaped.of_reads rfl rfl (fun _ h => List.mem_range.mp h) (Nat.le_refl _)
theorem Shaped.tfst (w : StallS) (n : BitVec 3) : Shaped.Statement (.tfst w n) :=
  Shaped.of_reads rfl rfl (fun _ h => List.mem_range.mp h) (Nat.le_refl _)
theorem Shaped.trapEntry (l : LaneId) (c : Cause) : Shaped.Statement (.trapEntry l c) := Shaped.of_event rfl rfl
theorem Shaped.qpoint (w : StallS) : Shaped.Statement (.qpoint w) :=
  Shaped.of_reads rfl rfl (fun _ h => List.mem_range.mp h) (Nat.le_refl _)
theorem Shaped.waitgp (w : StallS) : Shaped.Statement (.waitgp w) :=
  Shaped.of_reads rfl rfl (fun _ h => List.mem_range.mp h) (Nat.le_refl _)
theorem Shaped.defer (w : StallS) : Shaped.Statement (.defer w) :=
  Shaped.of_reads rfl rfl (fun _ h => List.mem_range.mp h) (Nat.le_refl _)
theorem Shaped.gracePeriodBegin (vf asid : Nat) : Shaped.Statement (.gracePeriodBegin vf asid) := Shaped.of_event rfl rfl
theorem Shaped.gracePeriodComplete (vf asid : Nat) : Shaped.Statement (.gracePeriodComplete vf asid) :=
  Shaped.of_event rfl rfl
theorem Shaped.wheyDelivery (vf asid : Nat) : Shaped.Statement (.wheyDelivery vf asid) := Shaped.of_event rfl rfl
theorem Shaped.cutArrival (vf asid slice : Nat) : Shaped.Statement (.cutArrival vf asid slice) := Shaped.of_event rfl rfl
theorem Shaped.cutDeadline (vf asid slice : Nat) : Shaped.Statement (.cutDeadline vf asid slice) :=
  Shaped.of_event rfl rfl
theorem Shaped.waveSave (slice place : Nat) : Shaped.Statement (.waveSave slice place) := Shaped.of_event rfl rfl
theorem Shaped.waveRestore (vf asid idx slice place : Nat) : Shaped.Statement (.waveRestore vf asid idx slice place) :=
  Shaped.of_event rfl rfl
theorem Shaped.clockRatioChange (slice code : Nat) : Shaped.Statement (.clockRatioChange slice code) :=
  Shaped.of_event rfl rfl
theorem Shaped.controlIntervalEnd (cluster : Nat) (draws : List (Nat × Nat)) (overCurrent : Bool) :
    Shaped.Statement (.controlIntervalEnd cluster draws overCurrent) := Shaped.of_event rfl rfl
theorem Shaped.launchPacket (slot : Nat) : Shaped.Statement (.launchPacket slot) := Shaped.of_event rfl rfl
theorem Shaped.copyPacket (slot slice : Nat) : Shaped.Statement (.copyPacket slot slice) := Shaped.of_event rfl rfl
theorem Shaped.signalPacket (slot : Nat) : Shaped.Statement (.signalPacket slot) := Shaped.of_event rfl rfl
theorem Shaped.waitPacket (slot : Nat) : Shaped.Statement (.waitPacket slot) := Shaped.of_event rfl rfl
theorem Shaped.waitConditionMet (slot : Nat) : Shaped.Statement (.waitConditionMet slot) := Shaped.of_event rfl rfl
theorem Shaped.splicePacket (slot : Nat) : Shaped.Statement (.splicePacket slot) := Shaped.of_event rfl rfl
theorem Shaped.quiescePacket (slot : Nat) : Shaped.Statement (.quiescePacket slot) := Shaped.of_event rfl rfl
theorem Shaped.nopPacket (slot : Nat) : Shaped.Statement (.nopPacket slot) := Shaped.of_event rfl rfl
theorem Shaped.invalidPacket (slot : Nat) : Shaped.Statement (.invalidPacket slot) := Shaped.of_event rfl rfl
theorem Shaped.packetCompletion (vf rnum idx : Nat) : Shaped.Statement (.packetCompletion vf rnum idx) :=
  Shaped.of_event rfl rfl
theorem Shaped.wheelClose (idx : Nat) : Shaped.Statement (.wheelClose idx) := Shaped.of_event rfl rfl
theorem Shaped.kick (vf rnum : Nat) : Shaped.Statement (.kick vf rnum) := Shaped.of_event rfl rfl
theorem Shaped.schedulerTick : Shaped.Statement (.schedulerTick) := Shaped.of_event rfl rfl
theorem Shaped.takeEnd : Shaped.Statement (.takeEnd) := Shaped.of_event rfl rfl
theorem Shaped.contextCreate (vf asid root : Nat) : Shaped.Statement (.contextCreate vf asid root) :=
  Shaped.of_event rfl rfl
theorem Shaped.wheelOpen (vf drive ns base : Nat) : Shaped.Statement (.wheelOpen vf drive ns base) :=
  Shaped.of_event rfl rfl
theorem Shaped.nvmeTimeout (slice copy req : Nat) : Shaped.Statement (.nvmeTimeout slice copy req) :=
  Shaped.of_event rfl rfl
theorem Shaped.thermalEvent (at_ : ThermalAt) (code : Nat) : Shaped.Statement (.thermalEvent at_ code) :=
  Shaped.of_event rfl rfl
theorem Shaped.eventClear (vf : Nat) (mask : BitVec 4) : Shaped.Statement (.eventClear vf mask) :=
  Shaped.of_event rfl rfl
theorem Shaped.functionLevelReset (vf : Nat) : Shaped.Statement (.functionLevelReset vf) := Shaped.of_event rfl rfl
theorem Shaped.flit (link : Nat) (ask : Option (Nat × Nat × OuterOp)) (taken : Bool) :
    Shaped.Statement (.flit link ask taken) := Shaped.of_event rfl rfl
theorem Shaped.linkDown (link : Nat) : Shaped.Statement (.linkDown link) := Shaped.of_event rfl rfl
theorem Shaped.deviceReset : Shaped.Statement (.deviceReset) := Shaped.of_event rfl rfl
theorem Shaped.attestationReport (vf : Nat) (nonce : List Byte) : Shaped.Statement (.attestationReport vf nonce) :=
  Shaped.of_event rfl rfl
theorem Shaped.machineCheck (slice : Nat) (unit : Unit4) : Shaped.Statement (.machineCheck slice unit) :=
  Shaped.of_event rfl rfl
theorem Shaped.virtualFunctionEnable (vf htvec hsbase : Nat) :
    Shaped.Statement (.virtualFunctionEnable vf htvec hsbase) := Shaped.of_event rfl rfl
theorem Shaped.reelRegistration (vf asid header rnum prio : Nat) :
    Shaped.Statement (.reelRegistration vf asid header rnum prio) := Shaped.of_event rfl rfl

end Sys2Proof.Laws
end

