-- ==== Sys2Proof/Laws/Step.lean ====
section
/-! SUPPORT. What a step does with a pending input. -/

namespace Sys2Proof.Machine

/-- An input that is pending lands in this step, or the machine goes on by itself: always where the budget for register accesses is
spent (R382). -/
theorem step_input {s : State} {i : Instr} {r : List Instr} (h : s.inputs = i :: r) :
    step s = if (Config.freeNat s.free % 2 = 1 || ({ s with free := s.free + 1 } : State).regHeld i) = true then
        ({ s with free := s.free + 1 } : State).run
      else if outside i then exec i { s with free := s.free + 1, inputs := r }
      else .next { s with free := s.free + 1, inputs := r } := by
  unfold step choose; rw [h]; simp

/-- Without an input the machine goes on by itself. -/
theorem step_run {s : State} (h : s.inputs = []) : step s = s.run := by
  unfold step; rw [h]

end Sys2Proof.Machine
end

