-- ==== Sys2Proof/Tests/Slice0.lean ====
section
/-! SUPPORT. Tests of the model: decoded words, ill-formed terms, and states that meet the hypotheses of the statements. -/

namespace Sys2Proof.Tests

open Sys2Proof Sys2Proof.Machine Sys2Proof.Claims

set_option maxRecDepth 100000

-- Small states: one task, one wave on slice 0, one or more lanes.
def task0 : Task := { fetchTask with nctr := 4, nbar := 4, nth := 64, scratch := 0, nscratch := 65536, acc := true }
def ln (vs : List Word) : Lane := { thx := 0, pc := 0x100, chip := vs.map (fun v => { val := v }) }
def wave0 : Wave := { uid := 1, task := 0, num := 0, sb := 0, nlb := 1 }
def lanesOf (ls : List Lane) : State :=
  { State.reset with
    lanes := ls.zipIdx.map (fun p => (p.2, p.1)), waves := [(0, wave0)], tasks := [(0, task0)]
    ctxs := [(0, { root := 0x20000 })], vfs := [(0, { hsbase := 1, grant := [(0, hbmSize)] })], take := some 0
    iss := { lanes := List.range ls.length } }
def one (l : Lane) : State := lanesOf [l]

def readyB (s : State) (i : Instr) (k : Nat) (l : Lane) : Bool :=
  s.lane k == some l && !l.atMeet && (s.check k l i).isNone &&
  (shapeOf i).reads.all (fun p => match l.stk[p]? with
    | some e => !(l.ilk == .trust && !e.pend && decide (s.time (sliceOf k) < e.ready))
    | none => false) &&
  decide (l.stk.length + ((shapeOf i).pushes - (shapeOf i).pops) ≤ s.cap k l)

theorem ready_of {s : State} {i : Instr} {k : Nat} {l : Lane} (h : readyB s i k l = true) : Ready s i k l := by
  simp only [readyB, Bool.and_eq_true, beq_iff_eq, Bool.not_eq_true', decide_eq_true_eq, List.all_eq_true] at h
  obtain ⟨⟨⟨⟨h1, h2⟩, h3⟩, h4⟩, h5⟩ := h
  refine ⟨h1, h2, Option.isNone_iff_eq_none.mp h3, fun p hp => ?_, h5⟩
  have := h4 p hp
  cases he : l.stk[p]? with
  | none => simp [he] at this
  | some e =>
    rw [he] at this
    refine ⟨e, rfl, fun hc => ?_⟩
    obtain ⟨a, b, c⟩ := hc
    simp [a, b, c] at this

def begunB (s : State) : Bool := s.bad == none && s.iss.late == false
theorem begun_of {s : State} (h : begunB s = true) : Begun s := by
  simp only [begunB, Bool.and_eq_true, beq_iff_eq] at h
  exact ⟨h.1, h.2⟩
def aloneB (s : State) (i : Instr) (k : Nat) (l : Lane) : Bool := begunB s && s.active == [k] && readyB s i k l

theorem alone_of {s : State} {i : Instr} {k : Nat} {l : Lane} (h : aloneB s i k l = true) : Alone s i k l := by
  simp only [aloneB, Bool.and_eq_true, beq_iff_eq] at h
  exact ⟨begun_of h.1.1, h.1.2, ready_of h.2⟩

theorem strand_of {s : State} {i : Instr} (h : (begunB s && !s.active.isEmpty && decide s.active.Nodup &&
    s.active.all (fun k => (s.lane k).any (fun l => readyB s i k l))) = true) : ReadyStrand s i := by
  simp only [Bool.and_eq_true, decide_eq_true_eq, List.all_eq_true, Option.any_eq_true] at h
  obtain ⟨⟨⟨h1, h2⟩, h3⟩, h4⟩ := h
  refine ⟨begun_of h1, ?_, h3, fun k hk => ?_⟩
  · intro hc
    simp [hc] at h2
  · obtain ⟨l, -, hl⟩ := h4 k hk
    exact ⟨l, ready_of hl⟩

-- States that meet the hypotheses of the statements, clause by clause.
theorem test_hyp_stack : ∃ f, stackResult (.swap 0) = some f ∧ ReadyStrand (lanesOf [ln [1, 2], ln [3, 4]]) (.swap 0) :=
  ⟨_, rfl, strand_of (by decide)⟩
theorem test_hyp_integer : ∃ f, (Instr.abs 0 .s64).wf = true ∧ intResult (.abs 0 .s64) = some f ∧
    ReadyStrand (lanesOf [ln [1], ln [-3]]) (.abs 0 .s64) := ⟨_, rfl, rfl, strand_of (by decide)⟩
/-- Operands 0: no lane saturates. -/
theorem test_hyp_float : ∃ f, floatResult (.adds 0 .s32) = some f ∧ ReadyStrand (lanesOf [ln [0, 0]]) (.adds 0 .s32) ∧
    (f (ln [0, 0]) [0, 0]).flags = {} := ⟨_, rfl, strand_of (by decide), by decide⟩
/-- 2^31 − 1 + 1 saturates. -/
theorem test_hyp_saturation : ∃ f, floatResult (.adds 0 .s32) = some f ∧
    Alone (one (ln [1, 0x7FFFFFFF])) (.adds 0 .s32) 0 (ln [1, 0x7FFFFFFF]) ∧ (f (ln []) [1, 0x7FFFFFFF]).flags.sati = true :=
  ⟨_, rfl, alone_of (by decide), by decide⟩
theorem test_hyp_division : ∃ t f, divResult (.div 0 .s32) = some (t, f) ∧
    ReadyStrand (lanesOf [ln [0, 9], ln [3, 9]]) (.div 0 .s32) ∧
    ∀ k, k ∈ (lanesOf [ln [0, 9], ln [3, 9]]).active → ∀ l, (lanesOf [ln [0, 9], ln [3, 9]]).lane k = some l →
      ofType t (l.operand (.div 0 .s32) 0) = 0 → l.ts.dzt = false := by
  refine ⟨_, _, rfl, strand_of (by decide), fun k hk l hl _ => ?_⟩
  have : ∀ k, k ∈ (lanesOf [ln [0, 9], ln [3, 9]]).active →
    ((lanesOf [ln [0, 9], ln [3, 9]]).lane k).all (fun l => !l.ts.dzt) = true := by decide
  have h := this k hk
  rw [hl] at h
  simpa using h
def lnDzt : Lane := { ln [0, 9] with ts := { dzt := true } }
theorem test_hyp_division_trap : ∃ t f, divResult (.rem 0 .n64) = some (t, f) ∧ Alone (one lnDzt) (.rem 0 .n64) 0 lnDzt ∧
    ofType t (lnDzt.operand (.rem 0 .n64) 0) = 0 ∧ lnDzt.ts.dzt = true := ⟨_, _, rfl, alone_of (by decide), by decide, rfl⟩
/-- The farthest target, 2^56 − 2; and a link chain of 15 for a call. -/
def lnCall : Lane := { ln [0xFFFFFFFFFFFFFE] with chU := { links := List.replicate 15 0 } }
theorem test_hyp_branches : ∃ f, branchTo (.callx 0) = some f ∧ ReadyStrand (one lnCall) (.callx 0) ∧
    branchTarget (.callx 0) lnCall = some 0xFFFFFFFFFFFFFE ∧ goodTarget 0xFFFFFFFFFFFFFE ∧ lnCall.cur.links.length < 16 :=
  ⟨_, rfl, strand_of (by decide), by decide, by unfold goodTarget; decide, by decide⟩
def lnRet : Lane := { ln [] with chU := { links := [0x200] } }
theorem test_hyp_return : ∃ f, branchTo (.ret 0) = some f ∧ ReadyStrand (one lnRet) (.ret 0) ∧ lnRet.cur.links ≠ [] :=
  ⟨_, rfl, strand_of (by decide), by decide⟩
theorem test_hyp_slot_load : isSlotLoad (.ldl 0 7) = true ∧ slotIndex (.ldl 0 7) (ln []) = some 7 ∧
    Alone (one (ln [])) (.ldl 0 7) 0 (ln []) ∧ 7 < 8 * (one (ln [])).nlb 0 ∧
    mget (one (ln [])).parity (128 * 0 + 7) = none ∧ (one (ln [])).arrived 0 (ln []) ((one (ln [])).slot 0 7) :=
  ⟨rfl, rfl, alone_of (by decide), by decide, by decide, by unfold State.arrived; decide⟩
/-- Slot 7 of lane 0, and the lowest entry of its frame, have a parity error. -/
def sParity (l : Lane) : State := { one l with parity := [(7, ()), (64, ())] }
theorem test_hyp_slot_parity : slotIndex (.ldl 0 7) (ln []) = some 7 ∧ Alone (sParity (ln [])) (.ldl 0 7) 0 (ln []) ∧
    7 < 8 * (sParity (ln [])).nlb 0 ∧ mget (sParity (ln [])).parity (128 * 0 + 7) ≠ none :=
  ⟨rfl, alone_of (by decide), by decide, by decide⟩
theorem test_hyp_slot_store : isSlotLoad (.stlx 0) = false ∧ slotIndex (.stlx 0) (ln [7, 5]) = some 7 ∧
    Alone (one (ln [7, 5])) (.stlx 0) 0 (ln [7, 5]) ∧ 7 < 8 * (one (ln [7, 5])).nlb 0 :=
  ⟨rfl, by decide, alone_of (by decide), by decide⟩
theorem test_hyp_slot_range : slotIndex (.ldlx 0) (ln [8]) = some 8 ∧ Alone (one (ln [8])) (.ldlx 0) 0 (ln [8]) ∧
    8 * (one (ln [8])).nlb 0 ≤ 8 := ⟨by decide, alone_of (by decide), by decide⟩
theorem test_hyp_give : ReadyStrand (one (ln [])) (.give 0 1) ∧ (one (ln [])).active = [0] ∧
    (one (ln [])).wave (waveOf 0) = some wave0 ∧ (1#4).toNat ≤ wave0.nlb := ⟨strand_of (by decide), by decide, by decide, by decide⟩
def sPool (l : Lane) : State := { one l with slices := [(0, { cycle := 0, pools := [(0, [[(3, ⟨9, []⟩)]])] })] }
theorem test_hyp_claim : ReadyStrand (sPool (ln [])) (.claim 0 1) ∧ (sPool (ln [])).active = [0] ∧
    (sPool (ln [])).wave (waveOf 0) = some wave0 ∧ wave0.nlb + (1#4).toNat ≤ 8 ∧
    claimsOf ((sPool (ln [])).taskLanesOn wave0.task (sliceOf 0)) = [] ∧ claimsOf ((sPool (ln [])).waveLanes (waveOf 0)) = [] ∧
    (1#4).toNat ≤ ((sPool (ln [])).poolOf wave0.task (sliceOf 0)).length :=
  ⟨strand_of (by decide), by decide, by decide, by decide, by decide, by decide, by decide⟩
def lnClaim : Lane := { ln [] with wait := .claim 1, stamp := 4 }
theorem test_hyp_claim_grant : (sPool lnClaim).bad = none ∧
    oldest (claimsOf ((sPool lnClaim).taskLanesOn 0 0)) = some (4, 1) ∧ 1 ≤ ((sPool lnClaim).poolOf 0 0).length :=
  ⟨rfl, by decide, by decide⟩
theorem test_hyp_register_read : ReadyStrand (lanesOf [ln [], ln []]) (.rsr 0 .thx) ∧
    ∀ k, k ∈ (lanesOf [ln [], ln []]).active → (lanesOf [ln [], ln []]).taskOf k ≠ none := ⟨strand_of (by decide), by decide⟩
theorem test_hyp_thread_register : ∃ f, threadReg (.wsrTstat 0) = some f ∧ ReadyStrand (one (ln [0x240])) (.wsrTstat 0) :=
  ⟨_, rfl, strand_of (by decide)⟩
def inMode (m : Mode) (lvl : Nat) (l : Lane) : Lane := { l with ts := { mode := m, tlvl := lvl } }
/-- A lane in a handler of S, at level 1, with its own stack. -/
def lnS (vs : List Word) : Lane := inMode .s 1 { ln [] with hchip := vs.map (fun v => { val := v }) }
/-- The highest base whose mode areas lie in the grant of 512 GiB. -/
def areaTop : Word := BitVec.ofNat 64 (hbmSize - areaBytes + 1)
theorem test_hyp_shared_register : ∃ f, sharedReg (.wsrSsbase 0) = some f ∧ Alone (one (lnS [areaTop])) (.wsrSsbase 0) 0 (lnS [areaTop]) ∧
    ((lnS [areaTop]).operand (.wsrSsbase 0) 0).getLsbD 0 = true ∧
    (one (lnS [areaTop])).granted ((one (lnS [areaTop])).spaceOf 0 / 16384) (baseAddr ((lnS [areaTop]).operand (.wsrSsbase 0) 0))
      areaBytes = true := ⟨_, rfl, alone_of (by decide), by decide, by decide⟩
theorem test_hyp_frame_height : Alone (one (lnS [15])) (.wsrEfh 0) 0 (lnS [15]) ∧ (lnS [15]).ts.tlvl ≤ 1 :=
  ⟨alone_of (by decide), by decide⟩
def quietB (s : State) (k : Nat) : Bool := match s.taskOf k with
  | some t => t.banks.all (fun b => b.who != s.who k)
  | none => true
theorem quiet_of {s : State} {k : Nat} (h : quietB s k = true) : Quiet s k := by
  intro t ht b hb
  simp only [quietB, ht, List.all_eq_true] at h
  simpa using h b hb
theorem test_hyp_root : Alone (one (lnS [0x40000])) (.wsrPtb 0) 0 (lnS [0x40000]) ∧ Quiet (one (lnS [0x40000])) 0 :=
  ⟨alone_of (by decide), quiet_of (by decide)⟩
/-- A meeting chain of 15 entries: the last meet that is allowed. -/
def lnMeet : Lane := { ln [7] with chU := { outer := List.replicate 15 { mpc := 0, d0 := 0, group := none } } }
theorem test_hyp_meet : Alone (one lnMeet) (.meet 0 (-128)) 0 lnMeet ∧
    goodTarget (lnMeet.pc + (-128 : BitVec 18).signExtend 64 + (-128 : BitVec 18).signExtend 64) ∧
    ((one lnMeet).openGroups (waveOf 0) lnMeet.ts.mode).length < 16 ∧ lnMeet.cur.outer.length < 16 :=
  ⟨alone_of (by decide), by unfold goodTarget; decide, by decide, by decide⟩
def joiningB (s : State) (i : Instr) (k : Nat) (l : Lane) : Bool :=
  begunB s && s.active == [k] && s.lane k == some l && (s.check k l i).isNone && decide (l.stk.length ≤ s.cap k l)
theorem joining_of {s : State} {i : Instr} {k : Nat} {l : Lane} (h : joiningB s i k l = true) : Joining s i k l := by
  simp only [joiningB, Bool.and_eq_true, beq_iff_eq, decide_eq_true_eq, Option.isNone_iff_eq_none] at h
  exact ⟨begun_of h.1.1.1.1, h.1.1.1.2, h.1.1.2, h.1.2, h.2⟩
/-- A lane with two entries whose group meets at `m`, at depth 1. -/
def lnJoin (m : Word) : Lane := { ln [7, 8] with chU := { mpc := m, d0 := 1, group := some 5 } }
theorem test_hyp_join : Joining (one (lnJoin 0x100)) (.join 0 1) 0 (lnJoin 0x100) ∧ (lnJoin 0x100).cur.mpc = (lnJoin 0x100).pc ∧
    ((lnJoin 0x100).depth : Int) = (lnJoin 0x100).cur.d0 + (1 : BitVec 6).toInt := ⟨joining_of (by decide), rfl, by decide⟩
theorem test_hyp_join_elsewhere : Joining (one (lnJoin 0x104)) (.join 0 1) 0 (lnJoin 0x104) ∧
    (lnJoin 0x104).cur.mpc ≠ (lnJoin 0x104).pc := ⟨joining_of (by decide), by decide⟩
theorem test_hyp_join_depth : Joining (one (lnJoin 0x100)) (.join 0 (-32)) 0 (lnJoin 0x100) ∧
    ((lnJoin 0x100).depth : Int) ≠ (lnJoin 0x100).cur.d0 + (-32 : BitVec 6).toInt := ⟨joining_of (by decide), by decide⟩
theorem test_hyp_exit : Alone (one (ln [])) (.exit 0) 0 (ln []) ∧ ∀ j, j ≠ 0 → waveOf j = waveOf 0 → (one (ln [])).lane j = none := by
  refine ⟨alone_of (by decide), fun j hj _ => ?_⟩
  simp [one, lanesOf, State.lane, mget, hj]
/-- The first of two lanes executes alone. -/
def twoLanes (l m : Lane) : State := { lanesOf [l, m] with iss := { lanes := [0] } }
theorem test_hyp_exit_two : Alone (twoLanes (ln []) (ln [])) (.exit 0) 0 (ln []) ∧
    ∃ j m, j ≠ 0 ∧ waveOf j = waveOf 0 ∧ (twoLanes (ln []) (ln [])).lane j = some m :=
  ⟨alone_of (by decide), 1, ln [], by decide, by decide, by decide⟩
def sCut (l : Lane) : State := { one l with ctxs := [(0, { root := 0x20000, cut := true, arrived := [(0, 50)] })] }
theorem test_hyp_yield : Alone (one (ln [])) (.yield 0) 0 (ln []) ∧ (one (ln [])).cutHere 0 = false ∧
    Alone (sCut (ln [])) (.yield 0) 0 (ln []) ∧ (sCut (ln [])).cutHere 0 = true :=
  ⟨alone_of (by decide), by decide, alone_of (by decide), by decide⟩
theorem test_hyp_prio : ReadyStrand (one (ln [])) (.prio 0 3) ∧ (one (ln [])).active = [0] ∧ (one (ln [])).lane 0 = some (ln []) ∧
    (one (ln [])).taskOf 0 = some task0 := ⟨strand_of (by decide), by decide, by decide, by decide⟩

-- Memory.
theorem acc_of {α β : Type} {p : α × β} {a : α} (h : p.1 = a) : ∃ b, p = (a, b) := ⟨p.2, by rw [← h]⟩
theorem exists_of {key : Nat} (h : (decide (key < hbmSize) || decide (2 ^ 52 ≤ key)) = true) : keyExists key := by
  simpa [keyExists] using h
/-- The first byte of the extent, reached with the least offset; and the last two words of it. -/
theorem test_hyp_load : ∃ f s1, loadForm (.ld 0 .s8 (-2048)) = some f ∧ Alone (one (ln [0x10800])) (.ld 0 .s8 (-2048)) 0 (ln [0x10800]) ∧
    (one (ln [0x10800])).access 0 (ln [0x10800]) .read true (address ((ln [0x10800]).operand (.ld 0 .s8 (-2048)) 0) f.off) f.size =
      (.ok 0x110000, s1) ∧ keyExists 0x110000 ∧ Uncontested (one (ln [0x10800])) 0x110000 f.size := by
  obtain ⟨s1, h⟩ := acc_of (show ((one (ln [0x10800])).access 0 (ln [0x10800]) .read true (address 0x10800 (-2048)) 1).1 = .ok 0x110000 by
    decide)
  exact ⟨_, s1, rfl, alone_of (by decide), h, exists_of (by decide), fun w hw => absurd hw (by simp [one, lanesOf, State.reset])⟩
theorem test_hyp_store : ∃ f s1, storeForm (.st2 0 0) = some f ∧ Alone (one (ln [0x1FFF0, 2, 1])) (.st2 0 0) 0 (ln [0x1FFF0, 2, 1]) ∧
    Quiet (one (ln [0x1FFF0, 2, 1])) 0 ∧
    (one (ln [0x1FFF0, 2, 1])).access 0 (ln [0x1FFF0, 2, 1]) .write true (address ((ln [0x1FFF0, 2, 1]).operand (.st2 0 0) 0) f.off)
      (f.bytes ((ln [0x1FFF0, 2, 1]).operand (.st2 0 0))).length = (.ok 0x11FFF0, s1) ∧ keyExists 0x11FFF0 := by
  obtain ⟨s1, h⟩ := acc_of (show ((one (ln [0x1FFF0, 2, 1])).access 0 (ln [0x1FFF0, 2, 1]) .write true (address 0x1FFF0 0) 16).1 =
    .ok 0x11FFF0 by decide)
  exact ⟨_, s1, rfl, alone_of (by decide), quiet_of (by decide), h, exists_of (by decide)⟩
theorem test_hyp_atomic : ∃ f s1, atomForm (.cas 0 .ar .device .w64 0) = some f ∧
    Alone (one (ln [0x10000, 2, 0])) (.cas 0 .ar .device .w64 0) 0 (ln [0x10000, 2, 0]) ∧ Quiet (one (ln [0x10000, 2, 0])) 0 ∧
    (one (ln [0x10000, 2, 0])).access 0 (ln [0x10000, 2, 0]) .atomic (hostDoes f.op)
      (address ((ln [0x10000, 2, 0]).operand (.cas 0 .ar .device .w64 0) 0) f.off) f.size = (.ok 0x110000, s1) ∧ keyExists 0x110000 := by
  obtain ⟨s1, h⟩ := acc_of (show ((one (ln [0x10000, 2, 0])).access 0 (ln [0x10000, 2, 0]) .atomic true (address 0x10000 0) 8).1 =
    .ok 0x110000 by decide)
  exact ⟨_, s1, rfl, alone_of (by decide), quiet_of (by decide), h, exists_of (by decide)⟩
/-- An odd address traps; an address that is not mapped parks; a store to another device over no link is discarded. -/
theorem test_hyp_access_trap : ∃ c s1, Alone (one (ln [0x10001])) (.ld 0 .n16 0) 0 (ln [0x10001]) ∧
    (one (ln [0x10001])).access 0 (ln [0x10001]) .read true (address ((ln [0x10001]).operand (.ld 0 .n16 0) 0) 0) 2 = (.trap c, s1) :=
  ⟨_, _, alone_of (by decide), rfl⟩
theorem test_hyp_access_park : ∃ s1, Alone (one (ln [0x30000])) (.ld 0 .n16 0) 0 (ln [0x30000]) ∧
    (one (ln [0x30000])).access 0 (ln [0x30000]) .read true (address ((ln [0x30000]).operand (.ld 0 .n16 0) 0) 0) 2 = (.park, s1) := by
  obtain ⟨s1, h⟩ := acc_of (show ((one (ln [0x30000])).access 0 (ln [0x30000]) .read true (address 0x30000 0) 2).1 = .park by decide)
  exact ⟨s1, alone_of (by decide), h⟩
def lnAway : Lane := ln [0x10000, 9]
/-- Device 5 exports a page to virtual function 0. -/
def vfAway : Map Vf := [(0, { hsbase := 1, grant := [(0, hbmSize)], exports := [(5, 0, 65536)] })]
def sAway : State := { one lnAway with
  tasks := [(0, { task0 with extents := [{ page := 1, w := true, frames := [remoteKey 5 0] }] })]
  vfs := vfAway
  linksDown := (List.range 18).map (fun l => (l, ())) }
theorem test_hyp_access_no_link : ∃ s1, Alone sAway (.st 0 .w64 0) 0 lnAway ∧
    sAway.access 0 lnAway .write true (address (lnAway.operand (.st 0 .w64 0) 0) 0) 8 = (.noLink, s1) := by
  obtain ⟨s1, h⟩ := acc_of (show (sAway.access 0 lnAway .write true (address 0x10000 0) 8).1 = .noLink by decide)
  exact ⟨s1, alone_of (by decide), h⟩
def someWrite : WriteRec := { id := 3, addr := 0x110000, old := [0], new := [7], slice := 0, who := 40, strong := none, rel := none, point := 0 }
def sLog (l : Lane) : State := { one l with log := [someWrite], nextId := 4, mem := [(0x110000, 7)] }
theorem test_hyp_view : ∃ (must : WriteRec → Bool) (floor : Map Nat) (pre post : List WriteRec), (0 : Nat) < 1 ∧
    (sLog (ln [])).log = pre ++ someWrite :: post ∧ someWrite.covers (0x110000 + 0) = true ∧
    (must someWrite = true ∨ someWrite.id ≤ mgetD floor (0x110000 + 0) 0) :=
  ⟨fun _ => false, [(0x110000, 3)], [], [], by decide, rfl, by decide, Or.inr (by decide)⟩
theorem test_hyp_phases : Alone (one (ln [])) (.phase 0 .system) 0 (ln []) ∧ Alone (one (ln [])) (.phaseP 0 .slice) 0 (ln []) ∧
    Alone (one (ln [])) (.phaseO 0 .device) 0 (ln []) ∧ Quiet (one (ln [])) 0 :=
  ⟨alone_of (by decide), alone_of (by decide), alone_of (by decide), quiet_of (by decide)⟩
theorem test_hyp_caches : Alone (one (ln [])) (.icinv 0 .pillar) 0 (ln []) ∧ Alone (one (ln [3])) (.pref 0 .l2 5) 0 (ln [3]) :=
  ⟨alone_of (by decide), alone_of (by decide)⟩
/-- A watch on the line that was armed before the write of `sLog`, and one armed after it. -/
def lnWatch (n : Nat) : Lane := { ln [0x10000] with watch := some (0x4400, n) }
theorem test_hyp_mwait : (∃ s1, Alone (sLog (lnWatch 2)) (.mwait 0) 0 (lnWatch 2) ∧
      (sLog (lnWatch 2)).reach 0 (lnWatch 2) .read true ((lnWatch 2).operand (.mwait 0) 0) 1 = (.ok 0x110000, s1)) ∧
    (sLog (lnWatch 2)).lineWritten 0 (lineOf 0x110000) 2 = true ∧
    (∃ s1, Alone (sLog (lnWatch 4)) (.mwait 0) 0 (lnWatch 4) ∧
      (sLog (lnWatch 4)).reach 0 (lnWatch 4) .read true ((lnWatch 4).operand (.mwait 0) 0) 1 = (.ok 0x110000, s1)) ∧
    (sLog (lnWatch 4)).lineWritten 0 (lineOf 0x110000) 4 = false := by
  obtain ⟨a, ha⟩ := acc_of (show ((sLog (lnWatch 2)).reach 0 (lnWatch 2) .read true 0x10000 1).1 = .ok 0x110000 by decide)
  obtain ⟨b, hb⟩ := acc_of (show ((sLog (lnWatch 4)).reach 0 (lnWatch 4) .read true 0x10000 1).1 = .ok 0x110000 by decide)
  exact ⟨⟨a, alone_of (by decide), ha⟩, by decide, ⟨b, alone_of (by decide), hb⟩, by decide⟩
/-- A cut has reached the slice: the watch of the second kind does not have its thread wait. -/
def sLogCut (l : Lane) : State := { sLog l with ctxs := [(0, { root := 0x20000, cut := true, arrived := [(0, 50)] })] }
theorem test_hyp_mwait_cut : (∃ s1, Alone (sLogCut (lnWatch 4)) (.mwait 0) 0 (lnWatch 4) ∧
      (sLogCut (lnWatch 4)).reach 0 (lnWatch 4) .read true ((lnWatch 4).operand (.mwait 0) 0) 1 = (.ok 0x110000, s1)) ∧
    (sLogCut (lnWatch 4)).lineWritten 0 (lineOf 0x110000) 4 = false ∧ (sLogCut (lnWatch 4)).cutHere 0 = true ∧
    (sLog (lnWatch 4)).cutHere 0 = false := by
  obtain ⟨a, ha⟩ := acc_of (show ((sLogCut (lnWatch 4)).reach 0 (lnWatch 4) .read true 0x10000 1).1 = .ok 0x110000 by decide)
  exact ⟨⟨a, alone_of (by decide), ha⟩, by decide, by decide, by decide⟩
def lnAsleep : Lane := { ln [] with wait := .mwait 0x4400 2 }
theorem test_hyp_mwait_wake : (sLog lnAsleep).lane (laneIdKey ⟨0, 0, 0⟩) = some lnAsleep ∧ lnAsleep.wait = .mwait 0x4400 2 ∧
    (sLog lnAsleep).lineWritten (laneIdKey ⟨0, 0, 0⟩) 0x4400 2 = true ∧ (sLogCut lnAsleep).cutHere (laneIdKey ⟨0, 0, 0⟩) = true :=
  ⟨by decide, rfl, by decide, by decide⟩
/-- The lower of two entries is pending. -/
def lnPend : Lane := { ln [] with chip := [{ val := 1 }, { val := 2, pend := true }] }
theorem test_hyp_arrival : (one lnPend).lane (laneIdKey ⟨0, 0, 0⟩) = some lnPend ∧ lnPend.stk[1]? = some { val := 2, pend := true } ∧
    ({ val := 2, pend := true } : Entry).pend = true := ⟨by decide, by decide, rfl⟩
/-- Three entries on chip, five in backing store. -/
def lnBack : Lane := { ln [1, 2, 3] with g := 5 }
theorem uncontested_of {s : State} {a n : Nat} (h : s.log.all (fun w => decide (w.addr + w.new.length ≤ a) || decide (a + n ≤ w.addr)) = true) :
    Uncontested s a n := by
  intro w hw
  simpa using List.all_eq_true.mp h w hw
theorem test_hyp_refill : (one lnBack).bad = none ∧ (one lnBack).waveLanes (placeKey 0 0) = [(0, lnBack)] ∧
    (one lnBack).lane 0 = some lnBack ∧ waveOf 0 = placeKey 0 0 ∧ lnBack.stk.length < 4 ∧ 0 < lnBack.back ∧ lnBack.integ = none ∧
    ∀ j, j < lnBack.back → lnBack.back ≤ j + 4 → keyExists ((one lnBack).backKey 0 lnBack j) ∧ (one lnBack).backCause 0 lnBack j = none ∧
      Uncontested (one lnBack) ((one lnBack).backKey 0 lnBack j) 8 := by
  refine ⟨rfl, by decide, by decide, by decide, by decide, by decide, rfl, fun j hj _ => ?_⟩
  have h : ∀ j, j < 5 → (decide ((one lnBack).backKey 0 lnBack j < hbmSize) || decide (2 ^ 52 ≤ (one lnBack).backKey 0 lnBack j)) = true ∧
    (one lnBack).backCause 0 lnBack j = none := by decide
  exact ⟨exists_of (h j hj).1, (h j hj).2, uncontested_of rfl⟩
def lnProbe : Lane := { ln [] with ts := { prbm := true } }
theorem test_hyp_unassigned : Alone (one lnProbe) (.unassignedEncoding (.s 0x7FFF)) 0 lnProbe ∧ lnProbe.ts.prbm = true ∧
    Alone (one (ln [])) (.unassignedEncoding (.x 0xFFFFFFFFFFFF)) 0 (ln []) ∧ (ln []).ts.prbm = false :=
  ⟨alone_of (by decide), rfl, alone_of (by decide), rfl⟩

-- The stack below the chip, checks, traps.
def singleB (s : State) (k : Nat) (l : Lane) : Bool := begunB s && s.active == [k] && s.lane k == some l && !l.atMeet
theorem single_of {s : State} {k : Nat} {l : Lane} (h : singleB s k l = true) : Single s k l := by
  simp only [singleB, Bool.and_eq_true, beq_iff_eq, Bool.not_eq_true'] at h
  exact ⟨begun_of h.1.1.1, h.1.1.2, h.1.2, h.2⟩
theorem test_hyp_bury_on_chip : Alone (one (ln [7, 1, 2])) (.bury 0 1) 0 (ln [7, 1, 2]) ∧
    (ln [7, 1, 2]).stk.head? = some { val := 7 } ∧ (1#6).toNat + 1 < (ln [7, 1, 2]).stk.length :=
  ⟨alone_of (by decide), by decide, by decide⟩
/-- One entry on chip, one below it. -/
def lnDeep : Lane := { ln [7] with g := 1 }
theorem test_hyp_bury_below : Alone (one lnDeep) (.bury 0 0) 0 lnDeep ∧ lnDeep.stk.head? = some { val := 7 } ∧
    lnDeep.stk.length ≤ (0#6).toNat + 1 ∧ (one lnDeep).backKey 0 lnDeep (lnDeep.depth - 2 - (0#6).toNat) = 0x110000 ∧
    keyExists 0x110000 := ⟨alone_of (by decide), by decide, by decide, by decide, exists_of (by decide)⟩
theorem test_hyp_pick_below : Single (one lnDeep) 0 lnDeep ∧ (one lnDeep).check 0 lnDeep (.pick 0 1) = none ∧
    lnDeep.stk.length < (one lnDeep).cap 0 lnDeep ∧ lnDeep.stk.length ≤ (1#6).toNat ∧
    (one lnDeep).backKey 0 lnDeep (lnDeep.depth - 1 - (1#6).toNat) = 0x110000 ∧
    (one lnDeep).backCause 0 lnDeep (lnDeep.depth - 1 - (1#6).toNat) = none ∧ Uncontested (one lnDeep) 0x110000 8 :=
  ⟨single_of (by decide), by decide, by decide, by decide, by decide, by decide, uncontested_of rfl⟩
/-- A full chip of 8 entries, 6 below it. -/
def lnFull : Lane := { ln [18, 17, 16, 15, 14, 13, 12, 11] with g := 6 }
theorem test_hyp_push_on_full : Single (one lnFull) 0 lnFull ∧ (one lnFull).check 0 lnFull (.lit 0 5) = none ∧
    (one lnFull).cap 0 lnFull = lnFull.stk.length ∧
    ∀ i, i < 4 → keyExists ((one lnFull).backKey 0 lnFull (lnFull.back + i)) ∧
      ∀ j, j < i → (one lnFull).backKey 0 lnFull (lnFull.back + j) + 8 ≤ (one lnFull).backKey 0 lnFull (lnFull.back + i) ∨
        (one lnFull).backKey 0 lnFull (lnFull.back + i) + 8 ≤ (one lnFull).backKey 0 lnFull (lnFull.back + j) := by
  refine ⟨single_of (by decide), by decide, by decide, ?_⟩
  unfold keyExists
  decide
theorem test_hyp_privilege : Single (one (ln [])) 0 (ln []) ∧ forbidden (.sret 0) (ln []).ts.mode = some (1, 0) ∧
    forbidden (.rsr 0 .hsbase) .s = some (2, SReg.hsbase.id) := ⟨single_of (by decide), by decide, by decide⟩
theorem test_hyp_underflow : Single (one (ln [5])) 0 (ln [5]) ∧ plain (.add 0 .s32) = true ∧
    (ln [5]).depth < (shapeOf (.add 0 .s32)).need := ⟨single_of (by decide), by decide, by decide⟩
/-- The deepest stack of U mode. -/
def lnTop : Lane := { ln [1] with g := 1023 }
theorem test_hyp_overflow : Single (one lnTop) 0 lnTop ∧ plain (.lit 0 1) = true ∧ (shapeOf (.lit 0 1)).need ≤ lnTop.depth ∧
    1024 + (shapeOf (.lit 0 1)).pops < lnTop.depth + (shapeOf (.lit 0 1)).pushes :=
  ⟨single_of (by decide), by decide, by decide, by decide⟩
/-- A cause of an instruction, and one that is asynchronous. -/
def cause (g w0 : Nat) (asy : Bool) : Cause := { group := g, w0 := BitVec.ofNat 32 w0, w1 := 5, w2 := 6, asy := asy }
theorem test_hyp_trap : (0 : Nat) = laneIdKey ⟨0, 0, 0⟩ ∧ Begun (one (ln [1, 2])) ∧ (one (ln [1, 2])).lane 0 = some (ln [1, 2]) ∧
    (cause 10 3 false).asy = false ∧ handlerOn (one (ln [1, 2])) 0 (trapTarget (one (ln [1, 2])) 0 (ln [1, 2]) (cause 10 3 false)) ∧
    (ln [1, 2]).ts.tlvl = 0 := ⟨by decide, ⟨rfl, rfl⟩, by decide, rfl, fun _ => by decide, rfl⟩
/-- A handler of H at a level, with two entries on its stack. -/
def lnH (n : Nat) : Lane := inMode .h n { ln [1, 2] with hchip := [{ val := 8 }, { val := 9 }] }
theorem test_hyp_trap_nested : (one (lnH 2)).lane 0 = some (lnH 2) ∧
    handlerOn (one (lnH 2)) 0 (trapTarget (one (lnH 2)) 0 (lnH 2) (cause 10 3 false)) ∧ (lnH 2).ts.tlvl = 2 ∧
    keyExists (recordAt (nextBase (one (lnH 2)) 0 (lnH 2) (cause 10 3 false)) 0 ((lnH 2).ts.tlvl + 1)) :=
  ⟨by decide, fun _ => by decide, rfl, exists_of (by decide)⟩
theorem test_hyp_stop : (one (lnH 3)).lane 0 = some (lnH 3) ∧ (cause 10 3 false).asy = false ∧ (lnH 3).ts.tlvl = 3 :=
  ⟨by decide, rfl, rfl⟩
theorem test_hyp_posted : (cause 17 1 true).asy = true ∧ (one (ln [])).lane 0 = some (ln []) ∧ (ln []).ts.tlvl = 0 ∧
    handlerOn (one (ln [])) 0 (trapTarget (one (ln [])) 0 (ln []) (cause 17 1 true)) ∧ (lnH 1).ts.tlvl ≠ 0 :=
  ⟨rfl, by decide, rfl, fun _ => by decide, by decide⟩
theorem test_hyp_system_call : callGroup (.hcall 0 0xFFF) = some (11, 0xFFF) ∧ Alone (one (ln [3])) (.hcall 0 0xFFF) 0 (ln [3]) ∧
    (ln [3]).ts.tlvl = 0 ∧ handlerOn (one (ln [3])) 0 .h := ⟨rfl, alone_of (by decide), rfl, fun _ => by decide⟩
/-- A handler at level 1 that returns to U mode with 2 entries of its frame. -/
def lnHret : Lane := { lnH 1 with epc := 0x204, efh := 2, frame := (List.range 8).map (fun j => { val := BitVec.ofNat 64 (j + 40) }) }
theorem test_hyp_return_level1 : returnForm (.hret 0) = some false ∧ Alone (one lnHret) (.hret 0) 0 lnHret ∧ lnHret.ts.tlvl = 1 ∧
    MayReturn lnHret false (lnHret.chip.length + lnHret.g) ∧
    lnHret.efh + lnHret.chip.length ≤ 8 + 8 * (((one lnHret).wave (waveOf 0)).map (·.sb)).getD 0 ∧
    ∀ j, j < lnHret.efh → mget (one lnHret).parity (128 * 0 + 64 + j) = none ∧ (lnHret.frame.getD j {}).soft = false := by
  refine ⟨rfl, alone_of (by decide), rfl, ⟨by decide, fun h => absurd h (by decide), ?_, by decide, by decide⟩, by decide, by decide⟩
  unfold goodTarget
  decide
/-- A handler at level 3 of H, whose trap entry took the base 0x200000, so that its record is at 0x200C80. -/
def lnRec : Lane := { lnHret with ts := { mode := .h, tlvl := 3 }, estat := 2, bases := [0x200000, 0, 0] }
def sRec : State := { one lnRec with mem := pokes [] 0x200C80 ((List.range 128).map (fun j => BitVec.ofNat 8 (j + 3))) }
theorem test_hyp_return_record : Alone sRec (.hret 0) 0 lnRec ∧ recordAt (handlerBase lnRec) 0 lnRec.ts.tlvl = 0x200C80 ∧
    keyExists 0x200C80 ∧ Uncontested sRec 0x200C80 128 ∧ sRec.isPoison 0x200C80 128 = false ∧
    sRec.isEcc 0x200C80 128 = false ∧ MayReturn lnRec false (wordAt sRec (0x200C80 + 0x50) / 2 ^ 16 % 256) := by
  refine ⟨alone_of (by decide), by decide, exists_of (by decide), uncontested_of rfl, by decide, by decide,
    ⟨by decide, fun h => absurd h (by decide), ?_, by decide, by decide⟩⟩
  unfold goodTarget
  decide
/-- The lowest entry of the frame, without and with a parity error. -/
theorem test_hyp_frame_access : Alone (one lnHret) (.tfld 0 1) 0 lnHret ∧ lnHret.ts.tlvl = 1 ∧ (1#3).toNat < lnHret.efh ∧
    mget (one lnHret).parity (128 * 0 + 64 + (lnHret.efh - 1 - (1#3).toNat)) = none ∧
    (lnHret.frame.getD (lnHret.efh - 1 - (1#3).toNat) {}).soft = false ∧
    Alone (sParity lnHret) (.tfld 0 1) 0 lnHret ∧ mget (sParity lnHret).parity (128 * 0 + 64 + (lnHret.efh - 1 - (1#3).toNat)) ≠ none ∧
    Alone (one { lnHret with hchip := [{ val := 4 }] }) (.tfst 0 1) 0 { lnHret with hchip := [{ val := 4 }] } ∧
    lnHret.frame.length = 8 ∧ lnHret.efh ≤ 8 :=
  ⟨alone_of (by decide), rfl, by decide, by decide, by decide, alone_of (by decide), by decide, alone_of (by decide), by decide, by decide⟩
theorem test_hyp_frame_record : Alone sRec (.tfld 0 1) 0 lnRec ∧ (lnRec.ts.tlvl = 2 ∨ lnRec.ts.tlvl = 3) ∧ (1#3).toNat < lnRec.efh ∧
    lnRec.efh ≤ 8 ∧ Uncontested sRec 0x200C80 64 ∧ sRec.isPoison 0x200C80 64 = false ∧ sRec.isEcc 0x200C80 64 = false ∧
    Alone sRec (.tfst 0 1) 0 lnRec ∧ lnRec.stk.head? = some { val := 8 } ∧
    keyExists (recordAt (handlerBase lnRec) 0 lnRec.ts.tlvl + 8 * (lnRec.efh - 1 - (1#3).toNat)) :=
  ⟨alone_of (by decide), Or.inr rfl, by decide, by decide, uncontested_of rfl, by decide, by decide, alone_of (by decide), by decide,
    exists_of (by decide)⟩
theorem test_hyp_frame_range : Alone (one lnHret) (.tfld 0 2) 0 lnHret ∧ lnHret.efh ≤ (2#3).toNat := ⟨alone_of (by decide), by decide⟩

-- Tensors. Descriptors: 8 columns by 4 rows of S32, on chip and in memory; a frame tile of 4 rows of 2 entries at site 5.
def descriptor (kind fmt w1 w2 w3 base : Nat) : List Word :=
  [BitVec.ofNat 64 (kind + 16 * fmt + 2 ^ 8 + 3 * 2 ^ 16 + 7 * 2 ^ 28), BitVec.ofNat 64 w1, BitVec.ofNat 64 w2, BitVec.ofNat 64 w3,
    0, BitVec.ofNat 64 base, 0, 0]
def chipDesc : List Word := descriptor 1 7 (4 * 2 ^ 32 + 8) 0x10001 0 0
def memDesc : List Word := descriptor 0 7 (4 * 2 ^ 32 + 8) (8 * 2 ^ 32 + 0x10001) 0 0x10000
def frameDesc : List Word := descriptor 3 8 (4 * 2 ^ 32 + 2) (5 + 2 ^ 18) 0x300 0
/-- An entry that `talloc` has placed, with an occupied row and its WAKE bit where asked. -/
def chipEntry (at_ : Nat) : List Word := fillEntry chipDesc at_
def frameEntry (held wake occ : Nat) : List Word :=
  setWord (setWord (setWord (fillEntry frameDesc 0x400) 4 held) 6 wake) 7 occ
def withTens (tens : Map (List Word)) (s : State) : State :=
  { s with tasks := s.tasks.map (fun p => (p.1, { p.2 with tens := tens })) }
def withDesc (d : List Word) (s : State) : State := { s with mem := pokes s.mem 0x110000 (d.flatMap (fun w => leBytes 8 w.toNat)) }
theorem reads_of {s : State} {k : Nat} {l : Lane} {e : Entry} {n key : Nat}
    (h : (s.access k l .read true e.val n).1 = .ok key) (hk : (decide (key < hbmSize) || decide (2 ^ 52 ≤ key)) = true) :
    ∃ u, EngineReads s k l e n ((s.access k l .read true e.val n).2.laneRead k e.deps key n).1.bytes u := by
  obtain ⟨s1, h1⟩ := acc_of h
  exact ⟨(s1.laneRead k e.deps key n).2, key, s1, h1, exists_of hk, by rw [h1], rfl⟩
def sAlloc : State := withDesc chipDesc (one (ln [0x10000]))
theorem test_hyp_talloc : ∃ b u, sAlloc.taskOf 0 = some task0 ∧ Alone sAlloc (.talloc 0) 0 (ln [0x10000]) ∧
    EngineReads sAlloc 0 (ln [0x10000]) (((ln [0x10000]).ops (.talloc 0)).getD 0 {}) 64 b u ∧ badWord (toWords b 8) = none ∧
    (geomOf (toWords b 8)).kind = 1 ∧ task0.scratch + task0.nscratch < 2 ^ 64 ∧ lowestFree sAlloc (sAlloc.taskNo 0) 128 128 ∧
    fitsAt task0 (geomOf (toWords b 8)) 0 := by
  obtain ⟨u, h⟩ := reads_of (s := sAlloc) (k := 0) (l := ln [0x10000]) (e := { val := 0x10000 }) (n := 64) (key := 0x110000)
    (by decide) (by decide)
  exact ⟨_, u, by decide, alone_of (by decide), h, by decide, by decide, by decide,
    ⟨by decide, by decide, by decide, fun n h1 h2 => by omega⟩, by unfold fitsAt; decide⟩
/-- A descriptor of a tensor in memory: tid 0 is free. One with a kind that does not exist is bad. Without a reservation there is
no place on the chip. -/
def sAllocMem : State := withDesc memDesc (one (ln [0x10000]))
def sAllocBad : State := withDesc (descriptor 5 7 (4 * 2 ^ 32 + 8) 0x10001 0 0) (one (ln [0x10000]))
theorem test_hyp_talloc_other : (∃ b u, Alone sAllocMem (.talloc 0) 0 (ln [0x10000]) ∧
      EngineReads sAllocMem 0 (ln [0x10000]) (((ln [0x10000]).ops (.talloc 0)).getD 0 {}) 64 b u ∧ badWord (toWords b 8) = none ∧
      (geomOf (toWords b 8)).kind = 0 ∧ lowestFree sAllocMem (sAllocMem.taskNo 0) 0 0) ∧
    (∃ b u n, Alone sAllocBad (.talloc 0) 0 (ln [0x10000]) ∧
      EngineReads sAllocBad 0 (ln [0x10000]) (((ln [0x10000]).ops (.talloc 0)).getD 0 {}) 64 b u ∧ badWord (toWords b 8) = some n) ∧
    ∀ a, ¬ fitsAt { task0 with nscratch := 0 } (geomOf chipDesc) a := by
  obtain ⟨u, h⟩ := reads_of (s := sAllocMem) (k := 0) (l := ln [0x10000]) (e := { val := 0x10000 }) (n := 64) (key := 0x110000)
    (by decide) (by decide)
  obtain ⟨v, g⟩ := reads_of (s := sAllocBad) (k := 0) (l := ln [0x10000]) (e := { val := 0x10000 }) (n := 64) (key := 0x110000)
    (by decide) (by decide)
  refine ⟨⟨_, u, alone_of (by decide), h, by decide, by decide, by decide, by decide, by decide, fun n h1 h2 => by omega⟩,
    ⟨_, v, 0, alone_of (by decide), g, by decide⟩, fun a h => ?_⟩
  have h1 : ¬ (geomOf chipDesc).kind = 2 := by decide
  have h2 := h.1
  rw [if_neg h1] at h2
  have h3 : (geomOf chipDesc).span = 256 := by decide
  have h4 := h2.2
  rw [h3] at h4
  have h5 : a + 256 ≤ 0 + 0 := h4
  omega
def sTens (l : Lane) : State := withTens [(128, chipEntry 0), (129, chipEntry 0x200), (130, frameEntry 0 0 0)] (one l)
theorem test_hyp_tfree : Alone (sTens (ln [130])) (.tfree 0) 0 (ln [130]) ∧
    (sTens (ln [130])).entryOf ((sTens (ln [130])).taskNo 0) 130 = some (frameEntry 0 0 0) ∧
    ((sTens (ln [130])).taskOf 0).all (fun x => dueRows x 130 (sTens (ln [130])).now == []) = true ∧ frOcc (frameEntry 0 0 0) = 0 ∧
    (sTens (ln [130])).engineNames ((sTens (ln [130])).taskNo 0) 130 = false :=
  ⟨alone_of (by decide), by decide, by decide, by decide, by decide⟩
/-- A tile with an occupied row; a tensor that a bank operation names, issued by this wave. -/
def sHeld (l : Lane) : State := { sTens l with nextId := 5, tasks := [(0, { task0 with
  tens := [(128, chipEntry 0), (129, chipEntry 0x200), (130, frameEntry 0 0 1)]
  banks := [⟨3, 129, .fill 0, 0, 32⟩] })] }
theorem test_hyp_tensor_waits : Alone (sHeld (ln [130])) (.tfree 0) 0 (ln [130]) ∧ (geomOf (frameEntry 0 0 1)).kind = 3 ∧
    frOcc (frameEntry 0 0 1) ≠ 0 ∧ ((sHeld (ln [130])).taskOf 0).all (fun x => dueRows x 130 (sHeld (ln [130])).now == []) = true ∧
    Alone (sHeld (ln [129])) (.tfree 0) 0 (ln [129]) ∧ (sHeld (ln [129])).engineNames ((sHeld (ln [129])).taskNo 0) 129 = true ∧
    (geomOf (chipEntry 0x200)).kind ≠ 3 ∧ Alone (sHeld (ln [129])) (.tget 0 0) 0 (ln [129]) ∧
    (sHeld (ln [129])).waveHolds ((sHeld (ln [129])).taskNo 0) (waveOf 0) 129 false true = true ∧
    Alone (sHeld (ln [129, 7])) (.tset 0 1) 0 (ln [129, 7]) :=
  ⟨alone_of (by decide), by decide, by decide, by decide, alone_of (by decide), by decide, by decide, alone_of (by decide), by decide,
    alone_of (by decide)⟩
def sDef : State := withDesc memDesc (one (ln [127, 0x10000]))
theorem test_hyp_tdef : ∃ b u, Alone sDef (.tdef 0) 0 (ln [127, 0x10000]) ∧
    EngineReads sDef 0 (ln [127, 0x10000]) (((ln [127, 0x10000]).ops (.tdef 0)).getD 1 {}) 64 b u ∧ badWord (toWords b 8) = none ∧
    (geomOf (toWords b 8)).kind = 0 ∧ sDef.engineNames (sDef.taskNo 0) 127 = false := by
  obtain ⟨u, h⟩ := reads_of (s := sDef) (k := 0) (l := ln [127, 0x10000]) (e := { val := 0x10000 }) (n := 64) (key := 0x110000)
    (by decide) (by decide)
  exact ⟨_, u, alone_of (by decide), h, by decide, by decide, by decide⟩
theorem test_hyp_tget : Alone (sTens (ln [128])) (.tget 0 7) 0 (ln [128]) ∧
    (sTens (ln [128])).entryOf ((sTens (ln [128])).taskNo 0) 128 = some (chipEntry 0) ∧
    (sTens (ln [128])).waveHolds ((sTens (ln [128])).taskNo 0) (waveOf 0) 128 false true = false :=
  ⟨alone_of (by decide), by decide, by decide⟩
/-- Entry 3 of the context is a tensor in memory, and its extents are set to 4 by 8. -/
def lnSet : Lane := ln [3, 0x800000004]
def sSet : State := { one lnSet with ctxs := [(0, { root := 0x20000, tens := [(3, setWord memDesc 0 (setBit (wordOf memDesc 0) 63))] })] }
theorem test_hyp_tset : ∃ en, Alone sSet (.tset 0 1) 0 lnSet ∧ sSet.entryOf (sSet.taskNo 0) 3 = some en ∧ (geomOf en).kind = 0 ∧
    sSet.engineNames (sSet.taskNo 0) 3 = false ∧
    badWord (setWord (en.set 1 (lnSet.operand (.tset 0 1) 1)) 0 (clearBit (wordOf (en.set 1 (lnSet.operand (.tset 0 1) 1)) 0) 63)) =
      none := ⟨_, alone_of (by decide), rfl, by decide, by decide, by decide⟩
def lnSetWake : Lane := ln [130, 0xFF]
theorem test_hyp_tset_wake : Alone (sTens lnSetWake) (.tset 0 6) 0 lnSetWake ∧ Quiet (sTens lnSetWake) 0 ∧
    (sTens lnSetWake).entryOf ((sTens lnSetWake).taskNo 0) 130 = some (frameEntry 0 0 0) ∧ (geomOf (frameEntry 0 0 0)).kind = 3 ∧
    (sTens lnSetWake).engineNames ((sTens lnSetWake).taskNo 0) 130 = false ∧ frWord2 (wordOf (frameEntry 0 0 0) 2) = true ∧
    frWord3 (wordOf (frameEntry 0 0 0) 3) = true ∧ (sTens lnSetWake).binBusy [0] = false :=
  ⟨alone_of (by decide), quiet_of (by decide), by decide, by decide, by decide, by decide, by decide, by decide⟩
/-- Another strand of the wave waits in an operation on bins. -/
def binWaits (s : State) : State := { s with lanes := s.lanes ++ [(1, { ln [] with wait := .tensor 130, during := some (.wakeRow 0) })] }
theorem test_hyp_tset_bin : Alone (binWaits (sTens lnSetWake)) (.tset 0 6) 0 lnSetWake ∧
    (binWaits (sTens lnSetWake)).entryOf ((binWaits (sTens lnSetWake)).taskNo 0) 130 = some (frameEntry 0 0 0) ∧
    (binWaits (sTens lnSetWake)).engineNames ((binWaits (sTens lnSetWake)).taskNo 0) 130 = false ∧
    (binWaits (sTens lnSetWake)).binBusy [0] = true := ⟨alone_of (by decide), by decide, by decide, by decide⟩
/-- A tensor in flash, in U mode and in S mode. -/
def flashSet : List Word := setWord memDesc 0 (wordOf memDesc 0 + 2 ^ 63 + 4)
def sFlashSet (m : Mode) : State := { one { lnSet with ts := { mode := m } } with ctxs := [(0, { root := 0x20000, tens := [(3, flashSet)] })] }
theorem test_hyp_tset_flash : ∀ m, m = .u ∨ m = .s → Alone (sFlashSet m) (.tset 0 1) 0 { lnSet with ts := { mode := m } } ∧
    (sFlashSet m).entryOf ((sFlashSet m).taskNo 0) 3 = some flashSet ∧ (geomOf flashSet).kind = 4 := by
  rintro m (rfl | rfl) <;> exact ⟨alone_of (by decide), rfl, by decide⟩
theorem test_hyp_no_tensor : Alone (sTens (ln [256])) (.tget 0 0) 0 (ln [256]) ∧
    (sTens (ln [256])).entryOf ((sTens (ln [256])).taskNo 0) 256 = none ∧
    (sTens (ln [256])).waveHolds ((sTens (ln [256])).taskNo 0) (waveOf 0) 256 false true = false :=
  ⟨alone_of (by decide), by decide, by decide⟩
/-- The last element: row 3, column 7, of tensor 129. -/
theorem elementAt (s : State) (h : s.entryOf (s.taskNo 0) 129 = some (chipEntry 0x200)) :
    ElementAt s 0 129 3 7 (geomOf (chipEntry 0x200)) 31 (padKey 0 (0x200 + 124)) :=
  ⟨⟨_, h, rfl⟩, Or.inl (by decide), by decide, by decide, by decide, by decide, by decide⟩
theorem test_hyp_ldt : Alone (sTens (ln [129, 7, 3])) (.ldt 0) 0 (ln [129, 7, 3]) ∧
    ElementAt (sTens (ln [129, 7, 3])) 0 ((ln [129, 7, 3]).operand (.ldt 0) 0).toNat ((ln [129, 7, 3]).operand (.ldt 0) 2).toNat
      ((ln [129, 7, 3]).operand (.ldt 0) 1).toNat (geomOf (chipEntry 0x200)) 31 (padKey 0 (0x200 + 124)) ∧
    (sTens (ln [129, 7, 3])).waveHolds ((sTens (ln [129, 7, 3])).taskNo 0) (waveOf 0) 129 false true = false ∧
    (sTens (ln [129, 7, 3])).isPoison (padKey 0 (0x200 + 124)) 4 = false ∧ (sTens (ln [129, 7, 3])).isEcc (padKey 0 (0x200 + 124)) 4 = false ∧
    Uncontested (sTens (ln [129, 7, 3])) (padKey 0 (0x200 + 124)) 4 :=
  ⟨alone_of (by decide), elementAt _ (by decide), by decide, by decide, by decide, uncontested_of rfl⟩
theorem test_hyp_stt : Alone (sTens (ln [129, 7, 3, -5])) (.stt 0) 0 (ln [129, 7, 3, -5]) ∧
    ElementAt (sTens (ln [129, 7, 3, -5])) 0 129 3 7 (geomOf (chipEntry 0x200)) 31 (padKey 0 (0x200 + 124)) ∧
    (sTens (ln [129, 7, 3, -5])).waveHolds ((sTens (ln [129, 7, 3, -5])).taskNo 0) (waveOf 0) 129 true true = false ∧
    (geomOf (chipEntry 0x200)).rdo = false := ⟨alone_of (by decide), elementAt _ (by decide), by decide, by decide⟩
def lnAtomt : Lane := ln [129, 7, 3, 6, 0]
theorem test_hyp_atomt : Alone (sTens lnAtomt) (.atomt 0 .cas .ar) 0 lnAtomt ∧
    ElementAt (sTens lnAtomt) 0 129 3 7 (geomOf (chipEntry 0x200)) 31 (padKey 0 (0x200 + 124)) ∧
    (sTens lnAtomt).waveHolds ((sTens lnAtomt).taskNo 0) (waveOf 0) 129 true true = false ∧ (geomOf (chipEntry 0x200)).fmt = 7 ∧
    (sTens lnAtomt).isPoison (padKey 0 (0x200 + 124)) 4 = false ∧ (sTens lnAtomt).isEcc (padKey 0 (0x200 + 124)) 4 = false :=
  ⟨alone_of (by decide), elementAt _ (by decide), by decide, by decide, by decide, by decide⟩
theorem test_hyp_element_range : Alone (sTens (ln [128, 8, 0])) (.ldt 0) 0 (ln [128, 8, 0]) ∧
    (sTens (ln [128, 8, 0])).entryOf ((sTens (ln [128, 8, 0])).taskNo 0) 128 = some (chipEntry 0) ∧ (geomOf (chipEntry 0)).ext 0 ≤ 8 :=
  ⟨alone_of (by decide), by decide, by decide⟩
theorem test_hyp_tfill : Alone (sTens (ln [128, 9])) (.tfill 0) 0 (ln [128, 9]) ∧ (geomOf (chipEntry 0)).kind = 1 ∧
    (geomOf (chipEntry 0)).rdo = false ∧ (geomOf (chipEntry 0)).sp = false ∧
    (sTens (ln [128, 9])).waveHolds ((sTens (ln [128, 9])).taskNo 0) (waveOf 0) 128 true true = false :=
  ⟨alone_of (by decide), by decide, by decide, by decide, by decide⟩
def lnTcol : Lane := ln [130, 1, 0, 9]
theorem test_hyp_tcol : Alone (sTens lnTcol) (.tcol 0 true .max) 0 lnTcol ∧ (geomOf (frameEntry 0 0 0)).kind = 3 ∧
    (geomOf (frameEntry 0 0 0)).fmt = 8 ∧ (1 : Nat) < (geomOf (frameEntry 0 0 0)).ext 0 ∧ 0 < (geomOf (frameEntry 0 0 0)).rows ∧
    (sTens lnTcol).waveHolds ((sTens lnTcol).taskNo 0) (waveOf 0) 130 true true = false :=
  ⟨alone_of (by decide), by decide, by decide, by decide, by decide, by decide⟩
theorem test_hyp_tcopy : Alone (sTens (ln [129, 128])) (.tcopy 0) 0 (ln [129, 128]) ∧ onChip (geomOf (chipEntry 0)) = true ∧
    tcopyFits (geomOf (chipEntry 0)) (geomOf (chipEntry 0x200)) = true ∧
    (sTens (ln [129, 128])).waveHolds ((sTens (ln [129, 128])).taskNo 0) (waveOf 0) 128 false true = false ∧
    (sTens (ln [129, 128])).waveHolds ((sTens (ln [129, 128])).taskNo 0) (waveOf 0) 129 true true = false :=
  ⟨alone_of (by decide), by decide, by decide, by decide, by decide⟩
/-- A bank operation in progress, behind one on another tensor. -/
def sBank (k : BankKind) : State := { sTens (ln []) with tasks := [(0, { task0 with
  tens := [(128, chipEntry 0), (129, chipEntry 0x200), (130, frameEntry 0 0 0)]
  banks := [⟨3, 130, .fill 0, 0, 32⟩, ⟨4, 129, k, 0, 32⟩] })], nextId := 5 }
theorem test_hyp_bank_complete : ∀ k, k = .fill 5 ∨ k = .col false .max 9 4 7 ∨ k = .move 128 → (sBank k).bad = none ∧
    ∃ x, (sBank k).task 0 = some x ∧ x.banks.find? (fun y => y.id == 4) = some ⟨4, 129, k, 0, 32⟩ ∧
      (∀ y, y ∈ x.banks.takeWhile (fun y => y.id != 4) → ∀ tid, tid ∈ (⟨4, 129, k, 0, 32⟩ : BankOp).tids → y.names tid = false) ∧
      (sBank k).entryOf 0 129 = some (chipEntry 0x200) := by
  rintro k (rfl | rfl | rfl) <;> exact ⟨rfl, _, rfl, by decide, by decide, by decide⟩
/-- Row 2 alone; two tensors of 128 bytes that lie apart. -/
theorem test_hyp_bank_edit : (2 : Nat) < (geomOf (chipEntry 0x200)).rows ∧ (geomOf (chipEntry 0x200)).bits = 32 ∧
    (geomOf (chipEntry 0x200)).index [] ((geomOf (chipEntry 0x200)).split 2 7) = some 23 ∧
    (geomOf (chipEntry 0)).sizes.getD 0 0 = 128 ∧
    chipKey 1 0 (geomOf (chipEntry 0)).start + 128 ≤ chipKey 1 0 (geomOf (chipEntry 0x200)).start ∧
    (sBank (.move 128)).broken (padKey 0 0) 128 = false := by decide
theorem test_hyp_bank_row : ∀ q, (4#64).getLsbD q = true ↔ q = 2 := by
  intro q
  by_cases h : q < 64
  · have : ∀ q : Fin 64, (4#64).getLsbD q.val = true ↔ q.val = 2 := by decide
    exact this ⟨q, h⟩
  · rw [BitVec.getLsbD_of_ge _ _ (Nat.le_of_not_lt h)]
    exact ⟨fun h => absurd h (by decide), fun e => absurd (show q < 64 by omega) h⟩

-- Copies: from tensor 3 of the context, in memory, to tensor 128, with counter 1.
def validDesc (d : List Word) : List Word := setWord d 0 (setBit (wordOf d 0) 63)
def withCtxTens (tens : Map (List Word)) (s : State) : State := { s with ctxs := [(0, { root := 0x20000, tens := tens })] }
def cpyInstr : Instr := .cpy 0 false 0 false 3 128
def lnCpy : Lane := ln [1, 0, 0, 0, 0]
def cpyReq : CopyReq := { srow := 0, scol := 0, drow := 0, dcol := 0, ctr := 1, stid := 3, dtid := 128, fo := false, stg := 0, nb := false }
def sCpy (l : Lane) : State := withCtxTens [(3, validDesc memDesc)] (sTens l)
theorem test_hyp_cpy : Alone (sCpy lnCpy) cpyInstr 0 lnCpy ∧ cpyRequest lnCpy 0 false 0 false 3 128 = cpyReq ∧
    (sCpy lnCpy).copyRefusal 0 0 cpyReq false [] = none ∧ (sCpy lnCpy).copyHolds 0 cpyReq = none ∧
    (sCpy lnCpy).copyWaiters (sliceOf 0) = [] ∧ ((sCpy lnCpy).slice (sliceOf 0)).copies.length < 48 :=
  ⟨alone_of (by decide), by decide, by decide, by decide, by decide, by decide⟩
/-- Another lane waits for a slot already. -/
def lnWaits : Lane := { lnCpy with wait := .copySlot cpyInstr [cpyReq] false, stamp := 4 }
def sCpyTwo : State := { sCpy lnCpy with lanes := [(0, lnCpy), (1, lnWaits)] }
theorem test_hyp_cpy_waits : Alone sCpyTwo cpyInstr 0 lnCpy ∧ sCpyTwo.copyRefusal 0 0 cpyReq false [] = none ∧
    sCpyTwo.copyHolds 0 cpyReq = none ∧ sCpyTwo.copyWaiters (sliceOf 0) ≠ [] :=
  ⟨alone_of (by decide), by decide, by decide, by decide⟩
/-- A list of one request: stid 3 and dtid 128 at byte 0x18, counter 1 at byte 0x1C. -/
def lnList : Lane := ln [1, 0x10000]
def sList : State := { sCpy lnList with mem := pokes [] 0x110018 [3, 128, 0, 0, 1] }
theorem test_hyp_cpyl : ∃ b u, Alone sList (.cpyl 0) 0 lnList ∧ (lnList.operand (.cpyl 0) 0).toNat = 1 ∧
    readList sList 0 (lnList.operand (.cpyl 0) 1) ((lnList.ops (.cpyl 0)).getD 1 {}).deps ((1 + 1) / 2) [] = (.inr b, u) ∧
    u.bad = none ∧ u.listRefusal 0 0 [] ((List.range 1).map (fun j => listReq ((b.drop (32 * j)).take 32))) = none ∧
    ((List.range 1).map (fun j => (listReq ((b.drop (32 * j)).take 32)).1)).findSome? (u.copyHolds 0) = none ∧
    u.copyWaiters (sliceOf 0) = [] ∧ (u.slice (sliceOf 0)).copies.length + 1 ≤ 48 :=
  ⟨_, _, alone_of (by decide), by decide, rfl, by decide, by decide, by decide, by decide, by decide⟩
/-- 47 slots are taken: of a list of two requests the second one waits. -/
def sListLong : State := { sList with slices := [(0, { cycle := 0, copies := List.replicate 47 (sList.copyOf 0 7 cpyReq [] []) })]
                                      mem := pokes sList.mem 0x110038 [3, 128, 0, 0, 1]
                                      lanes := [(0, ln [2, 0x10000])] }
theorem test_hyp_cpyl_long : ∃ b u, Alone sListLong (.cpyl 0) 0 (ln [2, 0x10000]) ∧ ((ln [2, 0x10000]).operand (.cpyl 0) 0).toNat = 2 ∧
    readList sListLong 0 ((ln [2, 0x10000]).operand (.cpyl 0) 1) (((ln [2, 0x10000]).ops (.cpyl 0)).getD 1 {}).deps ((2 + 1) / 2) [] =
      (.inr b, u) ∧ u.bad = none ∧ u.listRefusal 0 0 [] ((List.range 2).map (fun j => listReq ((b.drop (32 * j)).take 32))) = none ∧
    ((List.range 2).map (fun j => (listReq ((b.drop (32 * j)).take 32)).1)).findSome? (u.copyHolds 0) = none ∧
    u.copyWaiters (sliceOf 0) = [] ∧ 48 - (u.slice (sliceOf 0)).copies.length = 1 :=
  ⟨_, _, alone_of (by decide), by decide, rfl, by decide, by decide, by decide, by decide, by decide⟩
theorem test_hyp_copy_slot_grant : (sCpy lnWaits).bad = none ∧ (sCpy lnWaits).copyWaiters 0 = [(0, lnWaits)] ∧
    (sCpy lnWaits).lane 0 = some lnWaits ∧ ((sCpy lnWaits).slice 0).copies.length < 48 ∧
    (sCpy lnWaits).copyRefusal 0 0 cpyReq false [] = none := ⟨by decide, by decide, by decide, by decide, by decide⟩
/-- The tensor of the source has been freed while the strand waited. -/
theorem test_hyp_copy_slot_refused : ∃ c, (sTens lnWaits).bad = none ∧ (sTens lnWaits).copyWaiters 0 = [(0, lnWaits)] ∧
    (sTens lnWaits).lane 0 = some lnWaits ∧ ((sTens lnWaits).slice 0).copies.length < 48 ∧
    (sTens lnWaits).copyRefusal 0 0 cpyReq false [] = some c := ⟨_, by decide, by decide, by decide, by decide, rfl⟩
/-- A copy in a slot, with its first request to be issued or issued. -/
def copyIn (issued : Bool) : Copy :=
  let c := (sCpy lnCpy).copyOf 0 7 cpyReq (validDesc memDesc) (chipEntry 0)
  { c with reqs := (requestsOf c 0 []).map (fun q => { q with issued := issued }) }
def sCopying (issued : Bool) : State := { sCpy (ln []) with
  slices := [(0, { cycle := 0, copies := [copyIn issued] })]
  vfs := [(0, { hsbase := 1, grant := [(0, hbmSize)], copyCap := 128 })] }
theorem test_hyp_request : (sCopying false).copyAt 0 7 = some (copyIn false) ∧
    (∃ q, (copyIn false).reqs.find? (fun x => x.id == 0) = some q ∧ q.issued = false) ∧
    ((sCopying false).slice 0).held = none ∧ (sCopying false).mayIssue (copyIn false) 0 = true ∧
    ((sCopying false).slice 0).turnOf (copyIn false) 0 = true :=
  ⟨by decide, ⟨_, rfl, by decide⟩, by decide, by decide, by decide⟩
/-- A request is held; and the budget of the virtual function is spent. -/
theorem test_hyp_request_waits : (({ sCopying false with slices := [(0, { cycle := 0, copies := [copyIn false], held := some (7, 1) })] } : State).slice 0).held ≠ none ∧
    (geomOf (copyIn false).src).kind = 0 ∧
    (({ sCopying false with budget := [(96 * 0 + 0, (128, 0, 0))] } : State).vf (copyIn false).vf).copyCap ≤
      (mgetD ({ sCopying false with budget := [(96 * 0 + 0, (128, 0, 0))] } : State).budget (budgetKey (copyIn false).vf (0 / 6)) (0, 0, 0)).1 := by decide
theorem test_hyp_request_complete : (sCopying true).copyAt 0 7 = some (copyIn true) ∧
    (∃ q, (copyIn true).reqs.find? (fun x => x.id == 1) = some q ∧ q.issued = true ∧ q.done = false ∧
      ∃ x s1, (sCopying true).tryReq (copyIn true) 0 q = (x, s1)) ∧ ((sCopying true).slice 0).parked 7 1 = false :=
  ⟨by decide, ⟨_, rfl, by decide, by decide, _, _, rfl⟩, by decide⟩
/-- One element, on chip, from tensor 129 to tensor 128: the last request of its copy, which writes its bytes. A copy out of
memory whose page is not mapped parks, and one whose page may not be read fails. -/
def copyOne : Copy :=
  let c := (sCpy lnCpy).copyOf 0 7 { cpyReq with stid := 129 } (chipEntry 0x200) (chipEntry 0)
  { c with rows := 1, cols := 1, reqs := [{ id := 0, kind := .elem, line := padKey 0 0 / 64, issued := true }] }
def sCopyOne : State := { sCpy (ln []) with slices := [(0, { cycle := 0, copies := [copyOne] })] }
theorem test_hyp_request_lands : sCopyOne.copyAt 0 7 = some copyOne ∧ (∃ x s1 ws bad, sCopyOne.tryReq copyOne 0
      { id := 0, kind := .elem, line := padKey 0 0 / 64, issued := true } = (x, s1) ∧ x.out = .write ws bad) ∧
    (sCopyOne.slice 0).parked 7 0 = false ∧ (geomOf copyOne.src).kind = 1 ∧ (geomOf copyOne.src).gsz = 0 ∧
    (geomOf copyOne.src).fmt = (geomOf copyOne.dst).fmt ∧ (geomOf copyOne.dst).bits % 8 = 0 ∧
    padKey 0 0 / 64 = elemKey (geomOf copyOne.dst) 0 copyOne.drow copyOne.dcol / 64 ∧
    sCopyOne.broken (elemKey (geomOf copyOne.src) 0 copyOne.srow copyOne.scol) (geomOf copyOne.src).nbytes = false ∧
    Uncontested sCopyOne (elemKey (geomOf copyOne.src) 0 copyOne.srow copyOne.scol) (geomOf copyOne.src).nbytes ∧
    (∀ r, r ∈ copyOne.reqs → r.done = true ∨ r.id = 0) ∧ copyOne.ctr = some 1 ∧ copyOne.task = some 0 ∧ copyOne.packet = none ∧
    (sCopyOne.task 0).isSome = true :=
  ⟨by decide, ⟨_, _, _, _, rfl, rfl⟩, by decide, by decide, by decide, by decide, by decide, by decide, by decide, uncontested_of rfl,
    by decide, by decide, by decide, by decide, by decide⟩
def copyFrom (base : Nat) : Copy := { copyIn true with src := validDesc (setWord memDesc 5 base), user := true }
def reqFrom : Req := { id := 0, kind := .elem, line := padKey 0 0 / 64, issued := true }
theorem test_hyp_request_parks : (∃ va r lv kind, ((sCopying true).tryReq (copyFrom 0x30000) 0 reqFrom).1.out = .park va r lv kind) ∧
    ∃ r, (({ sCopying true with mem := pokes (fetchTables []) 0x50010 (leBytes 8 (backPage + 0x11)) } : State).tryReq
      (copyFrom 0x20000) 0 reqFrom).1.out = .fail r := by
  constructor
  · exact ⟨_, _, _, _, rfl⟩
  · exact ⟨_, rfl⟩

-- Counters, batches, barriers.
def withTask (f : Task → Task) (s : State) : State := { s with tasks := s.tasks.map (fun p => (p.1, f p.2)) }
theorem test_hyp_cinit : Alone (one (ln [-1])) (.cinit 0 3) 0 (ln [-1]) ∧ (3#12).toNat < task0.nctr := ⟨alone_of (by decide), by decide⟩
def sCtr (v : Int) : State := withTask (fun x => { x with counters := [(2, { val := v, status := 528 })] }) (one (ln []))
theorem test_hyp_cwait : Alone (sCtr 0) (.cwait 0 2) 0 (ln []) ∧ ((sCtr 0).counter 0 2).val ≤ 0 ∧
    Alone (sCtr 1) (.cwait 0 2) 0 (ln []) ∧ 0 < ((sCtr 1).counter 0 2).val :=
  ⟨alone_of (by decide), by decide, alone_of (by decide), by decide⟩
def lnBatch : Lane := { ln [] with openSet := [9], batches := [(7, [8])] }
def sBatch (landed : Bool) : State := { one lnBatch with landed := if landed then [(8, { wrote := [(64, 5)] })] else [] }
theorem test_hyp_batches : Alone (sBatch true) (.seal 0 7) 0 lnBatch ∧ Alone (sBatch true) (.waitb 0 7) 0 lnBatch ∧
    (∀ c, c ∈ mgetD lnBatch.batches 7 [] → mget (sBatch true).landed c ≠ none) ∧
    Alone (sBatch false) (.waitb 0 7) 0 lnBatch ∧ ∃ c, c ∈ mgetD lnBatch.batches 7 [] ∧ mget (sBatch false).landed c = none :=
  ⟨alone_of (by decide), alone_of (by decide), by decide, alone_of (by decide), 8, by decide, rfl⟩
theorem test_hyp_barinit : Alone (one (ln [64])) (.barinit 0 .slice 3) 0 (ln [64]) ∧ (3#5).toNat < task0.nbar ∧
    ((one (ln [64])).barrier ((one (ln [64])).taskNo 0) 3).a = 0 ∧ (one (ln [64])).barWaiters ((one (ln [64])).taskNo 0) 3 = false ∧
    64 ≤ task0.nth ∧ task0.members.length ≤ 1 := ⟨alone_of (by decide), by decide, by decide, by decide, by decide, by decide⟩
/-- Barrier 3 expects two arrivals; `a` of them have been made in phase 6. -/
def sBar (a : Nat) (l : Lane) : State := withTask (fun x => { x with barriers := [(3, { n := 2, a := a, phase := 6, scope := .slice })] }) (one l)
theorem test_hyp_bar : Alone (sBar 1 (ln [])) (.bar 0 3) 0 (ln []) ∧ Quiet (sBar 1 (ln [])) 0 ∧ noneWait (sBar 1 (ln [])) ∧
    Alone (sBar 0 (ln [])) (.bar 0 3) 0 (ln []) ∧ ((sBar 0 (ln [])).barrier 0 3).n = 2 := by
  refine ⟨alone_of (by decide), quiet_of (by decide), ?_, alone_of (by decide), by decide⟩
  unfold noneWait
  decide
/-- The second lane waits in phase 6. -/
def lnAtBar : Lane := { ln [] with wait := .bar 3 6, stamp := 2 }
def sBarTwo : State := { sBar 1 (ln []) with lanes := [(0, ln []), (1, lnAtBar)] }
theorem test_hyp_bar_last : Alone sBarTwo (.bar 0 3) 0 (ln []) ∧ Quiet sBarTwo 0 ∧ sBarTwo.lane 1 = some lnAtBar ∧
    sBarTwo.lanes.filter (fun p => sBarTwo.taskNo p.1 == sBarTwo.taskNo 0 && p.2.wait.barOf.isSome) = [(1, lnAtBar)] :=
  ⟨alone_of (by decide), quiet_of (by decide), by decide, by decide⟩
def sSat : State := withTask (fun x => { x with arm := true, satf := true }) (one (ln []))
theorem test_hyp_bar_saturate : ∃ x, Alone sSat (.bar 0 31) 0 (ln []) ∧ sSat.taskOf 0 = some x ∧ x.arm = true ∧ x.satf = true :=
  ⟨_, alone_of (by decide), rfl, rfl, rfl⟩
def lnToken (p : Nat) : Lane := { ln [] with tokens := [(3, p)] }
theorem test_hyp_barw : Alone (sBar 0 (ln [])) (.bara 0 3) 0 (ln []) ∧ Alone (sBar 0 (lnToken 5)) (.barw 0 3) 0 (lnToken 5) ∧
    mget (lnToken 5).tokens 3 = some 5 ∧ Alone (sBar 0 (lnToken 6)) (.barw 0 3) 0 (lnToken 6) ∧ mget (lnToken 6).tokens 3 = some 6 :=
  ⟨alone_of (by decide), alone_of (by decide), rfl, alone_of (by decide), rfl⟩

-- Frames: a tile of four rows, two entries each, at site 5.
def sFrame (held wake occ : Nat) (l : Lane) : State := withTens [(130, frameEntry held wake occ)] (one l)
/-- Row 3, the last, is the only free one. -/
theorem test_hyp_rowres : ∃ x, (sFrame 2 0 5 (ln [])).taskOf 0 = some x ∧ Alone (sFrame 2 0 5 (ln [])) (.rowres 0 5) 0 (ln []) ∧
    siteHead x 5 = some 130 ∧ (ln []).resv = none ∧ freeInChain x (siteChain x 5) = some (130, 3) :=
  ⟨_, rfl, alone_of (by decide), by decide, rfl, by decide⟩
theorem test_hyp_suspend : ∀ i, i = .suspend 0 5 ∨ i = .suspendk 0 5 → ∃ x, (sFrame 0 0 7 (ln [8, 9])).taskOf 0 = some x ∧
    Alone (sFrame 0 0 7 (ln [8, 9])) i 0 (ln [8, 9]) ∧ Quiet (sFrame 0 0 7 (ln [8, 9])) 0 ∧ (ln [8, 9]).back = 0 ∧ (ln [8, 9]).resv = none ∧
    siteHead x 5 = some 130 ∧ freeInChain x (siteChain x 5) = some (130, 3) ∧ mget x.tens 130 = some (frameEntry 0 0 7) ∧
    (frameEntry 0 0 7).length = 8 ∧ frK (frameEntry 0 0 7) = (ln [8, 9]).stk.length ∧ x.editing 130 = false := by
  rintro i (rfl | rfl) <;>
  exact ⟨_, rfl, alone_of (by decide), quiet_of (by decide), by decide, rfl, by decide, by decide, by decide, by decide, by decide, by decide⟩
def lnWake : Lane := ln [130 * 256 + 3]
theorem test_hyp_wake_row : ∃ x, (sFrame 0 1 9 lnWake).taskOf 0 = some x ∧ Alone (sFrame 0 1 9 lnWake) (.wakeRow 0) 0 lnWake ∧
    Quiet (sFrame 0 1 9 lnWake) 0 ∧ (lnWake.operand (.wakeRow 0) 0).toNat = 130 * 256 + 3 ∧
    mget x.tens 130 = some (frameEntry 0 1 9) ∧ isFrame (frameEntry 0 1 9) = true ∧ 3 < frRows (frameEntry 0 1 9) ∧
    (sFrame 0 1 9 lnWake).waveHolds ((sFrame 0 1 9 lnWake).taskNo 0) (waveOf 0) 130 false false = false ∧
    (sFrame 0 1 9 lnWake).binBusy [0] = false :=
  ⟨_, rfl, alone_of (by decide), quiet_of (by decide), by decide, by decide, by decide, by decide, by decide, by decide⟩
/-- Its wave has issued a column edit of the tile, which is not complete; by another lane than this one. -/
def sWakeHeld : State := withTask (fun x => { x with banks := [⟨3, 130, .fill 0, 0, 33⟩] }) (sFrame 0 1 9 lnWake)
theorem test_hyp_wake_waits : Alone sWakeHeld (.wakeRow 0) 0 lnWake ∧ Quiet sWakeHeld 0 ∧
    sWakeHeld.waveHolds (sWakeHeld.taskNo 0) (waveOf 0) 130 false false = true := ⟨alone_of (by decide), quiet_of (by decide), by decide⟩
theorem test_hyp_wake_site : ∃ x, (sFrame 8 0 1 (ln [0])).taskOf 0 = some x ∧ Alone (sFrame 8 0 1 (ln [0])) (.wakeSite 0 5) 0 (ln [0]) ∧
    Quiet (sFrame 8 0 1 (ln [0])) 0 ∧ siteChain x 5 = [130] ∧ mget x.tens 130 = some (frameEntry 8 0 1) ∧
    Alone (sFrame 8 0 1 (ln [0])) (.wakeThr 0) 0 (ln [0]) ∧ (∀ p, p ∈ (sFrame 8 0 1 (ln [0])).lanes → p.2.atMwait = false) ∧
    Alone (sFrame 8 0 1 (ln [0])) (.flush 0 5) 0 (ln [0]) ∧ (sFrame 8 0 1 (ln [0])).binBusy [0] = false :=
  ⟨_, rfl, alone_of (by decide), quiet_of (by decide), by decide, by decide, alone_of (by decide), by decide, alone_of (by decide), by decide⟩
/-- The same three, behind another strand of the wave. -/
theorem test_hyp_bin_waits : ∀ i, i = .wakeRow 0 ∨ i = .wakeSite 0 5 ∨ i = .flush 0 5 →
    Alone (binWaits (sFrame 0 1 9 lnWake)) i 0 lnWake ∧ Quiet (binWaits (sFrame 0 1 9 lnWake)) 0 ∧
    (binWaits (sFrame 0 1 9 lnWake)).waveHolds ((binWaits (sFrame 0 1 9 lnWake)).taskNo 0) (waveOf 0) 130 false false = false ∧
    (binWaits (sFrame 0 1 9 lnWake)).binBusy [0] = true := by
  rintro i (rfl | rfl | rfl) <;> exact ⟨alone_of (by decide), quiet_of (by decide), by decide, by decide⟩
/-- Row 3 sleeps since cycle 0, with AGE 10; it is now cycle 10. -/
def agedEntry : List Word := setWord (frameEntry 0 0 8) 2 (wordOf (frameEntry 0 0 8) 2 + 10 * 2 ^ 40)
def row3 : RowRec := { thx := 4, fctl := 0x10, ts := {}, since := 0, qg := 0, kept := false }
def sAged : State := { one (ln []) with
  tasks := [(0, { task0 with tens := [(130, agedEntry)], rows := [(64 * 130 + 3, row3)] })], now := 10 }
theorem test_hyp_age : ∃ x, sAged.task 0 = some x ∧ mget x.tens 130 = some agedEntry ∧ agedEntry.length = 8 ∧
    mget x.rows (64 * 130 + 3) = some row3 ∧ isFrame agedEntry = true ∧ (frOcc agedEntry).testBit 3 = true ∧ frAge agedEntry ≠ 0 ∧
    row3.since + frAge agedEntry ≤ sAged.now ∧ sAged.take = some x.vf ∧ mget x.before 130 = none ∧ row3.aged = false :=
  ⟨_, rfl, by decide, by decide, by decide, by decide, by decide, by decide, by decide, by decide, by decide, rfl⟩
/-- Row 3 is awake, and THR is 1. -/
def sReady : State := { one (ln []) with
  tasks := [(0, { task0 with tens := [(130, frameEntry 0 8 8)], rows := [(64 * 130 + 3, row3)] })]
  mem := pokes [] (padKey 0 (0x400 + 8 * 6)) [5, 0, 0, 0, 0, 0, 0, 0, 6] }
theorem test_hyp_resume : ∃ x, sReady.bad = none ∧ sReady.task 0 = some x ∧ mget x.tens 130 = some (frameEntry 0 8 8) ∧
    dueRows x 130 sReady.now = [3] ∧ mget x.rows (64 * 130 + 3) = some row3 ∧ x.members.contains 0 = true ∧ sReady.mayRun x.space = true ∧
    x.editing 130 = false ∧ sReady.fitsWave 0 (placeKey 0 47) (frRslots (frameEntry 0 8 8)) (frRsb (frameEntry 0 8 8)) = true ∧
    frK (frameEntry 0 8 8) ≤ 8 + 8 * frRsb (frameEntry 0 8 8) ∧
    Uncontested sReady (rowKey 0 (frameEntry 0 8 8) 3 0) (8 * frK (frameEntry 0 8 8)) :=
  ⟨_, rfl, rfl, by decide, by decide, by decide, by decide, by decide, by decide, by decide, by decide, uncontested_of rfl⟩

-- Matrix commands: A is 4 × 8 and B is 8 × 2, of S8; C is 4 × 2, of S32; counter 1.
def aEntry : List Word := fillEntry (descriptor 1 0 (4 * 2 ^ 32 + 8) 0x10001 0 0) 0
def bEntry : List Word := fillEntry (descriptor 1 0 (8 * 2 ^ 32 + 2) 0x10001 0 0) 0x100
def cEntry : List Word := fillEntry (descriptor 2 7 (4 * 2 ^ 32 + 2) 0x10001 0 0) 0
def matTens : Map (List Word) := [(128, aEntry), (129, bEntry), (130, cEntry)]
def sMat (x : Slice) (l : Lane) : State := { withTens matTens (one l) with slices := [(0, x)] }
def lnMm : Lane := ln [1, 130, 129, 128]
def slice0 : Slice := { cycle := 0 }
def matCmd : MCmd := { id := 7, task := 0, thx := 0, sparse := false, acc := false, tag := 0, ta := 128, tb := 129, tc := 130, ctr := 1
                       fzim := false, fzrm := false, who := 32, amount := 32 }
theorem test_hyp_mm : mmForm (.mms 0 true true 3) = some (true, true, true, 3) ∧ Alone (sMat slice0 lnMm) (.mms 0 true true 3) 0 lnMm ∧
    (sMat slice0 lnMm).mEntries 0 128 129 130 1 = .inr (geomOf aEntry, geomOf bEntry, geomOf cEntry) ∧
    mOperands (.mms 0 true true 3) lnMm = (128, 129, 130, 1) ∧ (sMat slice0 lnMm).mHolds 0 128 129 130 false = none ∧
    (sMat slice0 lnMm).mWaiters (sliceOf 0) true = [] ∧ ((sMat slice0 lnMm).slice (sliceOf 0)).mRoom true = true :=
  ⟨rfl, alone_of (by decide), by decide, by decide, by decide, by decide, by decide⟩
def lnMmWaits : Lane := { lnMm with wait := .mQueue (.mm 0 false false 0), stamp := 4 }
def sMatTwo : State := { sMat slice0 lnMm with lanes := [(0, lnMm), (1, lnMmWaits)] }
theorem test_hyp_mm_waits : Alone sMatTwo (.mm 0 false false 0) 0 lnMm ∧ sMatTwo.mHolds 0 128 129 130 false = none ∧
    sMatTwo.mEntries 0 128 129 130 1 = .inr (geomOf aEntry, geomOf bEntry, geomOf cEntry) ∧ sMatTwo.mWaiters (sliceOf 0) false ≠ [] :=
  ⟨alone_of (by decide), by decide, by decide, by decide⟩
theorem test_hyp_mmstage : Alone (sMat slice0 lnMm) (.mmstage 0 true false 5 3) 0 lnMm ∧ (sMat slice0 lnMm).mHolds 0 128 129 130 true = none ∧
    (sMat slice0 lnMm).mEntries 0 128 129 130 1 = .inr (geomOf aEntry, geomOf bEntry, geomOf cEntry) ∧
    mget ((sMat slice0 lnMm).slice (sliceOf 0)).stages (3#2).toNat = none :=
  ⟨alone_of (by decide), by decide, by decide, by decide⟩
/-- Slot 1 is free, slot 2 holds a command of another task, slot 3 one of this task. -/
def sStaged : State := sMat { slice0 with stages := [(2, { cmd := { matCmd with task := 9 } }), (3, { cmd := matCmd })] } (ln [])
theorem test_hyp_mmflag : Alone sStaged (.mmflag 0 3) 0 (ln []) ∧ mget (sStaged.slice (sliceOf 0)).stages (1#2).toNat = none ∧
    mget (sStaged.slice (sliceOf 0)).stages (2#2).toNat = some { cmd := { matCmd with task := 9 } } ∧ sStaged.taskNo 0 = 0 ∧
    mget (sStaged.slice (sliceOf 0)).stages (3#2).toNat = some { cmd := matCmd } ∧ Alone sStaged (.mmflagDrop 0 3) 0 (ln []) ∧
    (sStaged.taskOf 0).isSome = true := ⟨alone_of (by decide), by decide, by decide, by decide, by decide, alone_of (by decide), by decide⟩
theorem test_hyp_queue_grant : (sMat slice0 lnMmWaits).mWaiters 0 false = [(0, lnMmWaits)] ∧
    lnMmWaits.wait = .mQueue (.mm 0 false false 0) ∧ ((sMat slice0 lnMmWaits).slice 0).mRoom false = true ∧
    Alone (sMat slice0 lnMmWaits) (.mm 0 false false 0) 0 lnMmWaits ∧
    (sMat slice0 lnMmWaits).iss = { slice := 0, place := waveOf 0 % 48, lanes := [laneNo 0] } ∧
    (sMat slice0 lnMmWaits).mEntries 0 128 129 130 1 = .inr (geomOf aEntry, geomOf bEntry, geomOf cEntry) ∧
    (sMat slice0 lnMmWaits).mHolds 0 128 129 130 false = none :=
  ⟨by decide, rfl, by decide, alone_of (by decide), by decide, by decide, by decide⟩
def lnMmGate : Lane := { lnMm with wait := .gate (.mms 0 false true 0), stamp := 4 }
theorem test_hyp_gate_grant : (sMat slice0 lnMmGate).mWaiters 0 true = [(0, lnMmGate)] ∧ ((sMat slice0 lnMmGate).slice 0).mRoom true = true ∧
    Alone (sMat slice0 lnMmGate) (.mms 0 false true 0) 0 lnMmGate := ⟨by decide, by decide, alone_of (by decide)⟩
def gated : MCmd := { matCmd with gates := [5] }
def sLanded (x : Slice) : State := { sMat x (ln []) with landed := [(5, {}), (6, { wrote := [(64, 3)] })] }
theorem test_hyp_gated_entry : ((sLanded { slice0 with gates := [gated] }).slice 0).gates[0]? = some gated ∧
    (∀ x, x ∈ gated.gates → ∃ y, mget (sLanded { slice0 with gates := [gated] }).landed x = some y ∧ y.failed = none) ∧
    ((sLanded { slice0 with gates := [gated] }).slice 0).mq.length < 8 := by
  refine ⟨by decide, fun x hx => ?_, by decide⟩
  have e : x = 5 := by simpa [gated] using hx
  subst e
  exact ⟨{}, by decide, rfl⟩
def bound : Stage := { cmd := matCmd, copy := some 6, gates := [5] }
theorem test_hyp_staged_entry : mget ((sLanded { slice0 with stages := [(1, bound)] }).slice 0).stages 1 = some bound ∧
    (∀ y, y = 6 ∨ y ∈ bound.gates → ∃ z, mget (sLanded { slice0 with stages := [(1, bound)] }).landed y = some z ∧ z.failed = none) ∧
    (sLanded { slice0 with stages := [(1, bound)] }).mEntries 0 128 129 130 1 = .inr (geomOf aEntry, geomOf bEntry, geomOf cEntry) ∧
    ((sLanded { slice0 with stages := [(1, bound)] }).slice 0).mq.length < 8 ∧
    (sLanded { slice0 with stages := [(1, bound)] }).stageWaits bound.cmd = false := by
  refine ⟨by decide, fun y hy => ?_, by decide, by decide, by decide⟩
  have e : y = 6 ∨ y = 5 := by simpa [bound] using hy
  rcases e with rfl | rfl
  · exact ⟨_, rfl, rfl⟩
  · exact ⟨_, rfl, rfl⟩
def sHead (c : MCmd) (ms : List Nat) : State := withTask (fun x => { x with members := ms }) { sMat { slice0 with mq := [c] } (ln []) with now := 64 }
/-- At once; as the first of its gang, which waits; and when the window has ended. -/
theorem test_hyp_matrix_start : ∀ p, p = (matCmd, [0]) ∨ p = ({ matCmd with tag := 3 }, [0, 1]) ∨
    p = ({ matCmd with tag := 3, windowed := true, ready := 64 }, [0]) → ∃ x, (sHead p.1 p.2).task 0 = some x ∧ x.members = p.2 ∧
      ((sHead p.1 p.2).slice 0).mq = [p.1] ∧ p.1.running = false ∧ (sHead p.1 p.2).openMates p.1 x.members = [] ∧
      p.1.ready ≤ (sHead p.1 p.2).now := by
  rintro p (rfl | rfl | rfl) <;> exact ⟨_, rfl, rfl, by decide, by decide, by decide, by decide⟩
/-- One of two that began together, each with a body that has ended. -/
def ran (bad : Option (Nat × Bool)) : MCmd :=
  { matCmd with running := true, until_ := 64, bad := bad, mates := [(0, 7), (1, 8)] }
def sRan (bad : Option (Nat × Bool)) : State := { sHead (ran bad) [0, 1] with
  slices := [(0, { slice0 with mq := [ran bad] }), (1, { slice0 with mq := [{ ran bad with id := 8 }] })] }
theorem test_hyp_matrix_complete : ∀ b, b = none ∨ b = some (16, true) ∨ b = some (18, false) →
    ∃ x, (sRan b).task 0 = some x ∧ ((sRan b).slice 0).mq = [ran b] ∧ (ran b).until_ ≤ (sRan b).now ∧
      ((ran b).mates.all (fun p => ((sRan b).slice p.1).mq.all (fun d => decide (d.due ≤ (sRan b).cycle p.1)))) = true ∧
      (mgetD x.counters (ran b).ctr {}).status = 0 := by
  rintro b (rfl | rfl | rfl) <;> exact ⟨_, rfl, by decide, by decide, by decide, by decide⟩

-- Tasks. A reel at 0x10000 whose segment 0 is at 0x11000; 378 packets in it make it full.
def sReel (tail : Nat) (l : Lane) : State := { one l with
  mem := pokes (pokes (fetchTables []) 0x110000 (leBytes 8 tail)) 0x110040 (leBytes 8 0x11000) }
def lnSpawn : Lane := ln [0x10000, 0x2000, 1, 9]
theorem test_hyp_spawn : ∀ i, i = .spawn 0 ∨ i = .spawnw 0 → ∃ x s1, Alone (sReel 0 lnSpawn) i 0 lnSpawn ∧ (sReel 0 lnSpawn).taskOf 0 = some x ∧
    Quiet (sReel 0 lnSpawn) 0 ∧
    (9, 1, 0x2000, 0x10000) = (lnSpawn.operand i 3, lnSpawn.operand i 2, lnSpawn.operand i 1, lnSpawn.operand i 0) ∧ x.depth ≠ 7 ∧
    (sReel 0 lnSpawn).access 0 lnSpawn .atomic true 0x10000 64 = (.ok 0x110000, s1) ∧
    ∃ u, (s1.release 0 .device).appendLaunch 0 0x10000 0x2000 9 1 (x.depth + 1) = .ok u := by
  obtain ⟨s1, h⟩ := acc_of (show ((sReel 0 lnSpawn).access 0 lnSpawn .atomic true 0x10000 64).1 = .ok 0x110000 by decide)
  have e : s1 = ((sReel 0 lnSpawn).access 0 lnSpawn .atomic true 0x10000 64).2 := by rw [h]
  subst e
  rintro i (rfl | rfl) <;> exact ⟨_, _, alone_of (by decide), rfl, quiet_of (by decide), by decide, by decide, h, _, rfl⟩
/-- Segment 1 has not been published: a packet behind its first slot waits. -/
theorem test_hyp_spawn_waits : ∀ i, i = .spawn 0 ∨ i = .spawnw 0 → ∃ x s1, Alone (sReel 64 lnSpawn) i 0 lnSpawn ∧
    (sReel 64 lnSpawn).taskOf 0 = some x ∧ Quiet (sReel 64 lnSpawn) 0 ∧ x.depth ≠ 7 ∧
    (sReel 64 lnSpawn).access 0 lnSpawn .atomic true 0x10000 64 = (.ok 0x110000, s1) ∧
    (s1.release 0 .device).appendLaunch 0 0x10000 0x2000 9 1 (x.depth + 1) = .wait := by
  obtain ⟨s1, h⟩ := acc_of (show ((sReel 64 lnSpawn).access 0 lnSpawn .atomic true 0x10000 64).1 = .ok 0x110000 by decide)
  have e : s1 = ((sReel 64 lnSpawn).access 0 lnSpawn .atomic true 0x10000 64).2 := by rw [h]
  subst e
  rintro i (rfl | rfl) <;> exact ⟨_, _, alone_of (by decide), rfl, quiet_of (by decide), by decide, h, by rfl⟩
theorem test_hyp_spawn_full : ∀ i, i = .spawn 0 ∨ i = .spawnw 0 → ∃ x s1, Alone (sReel 378 lnSpawn) i 0 lnSpawn ∧
    (sReel 378 lnSpawn).taskOf 0 = some x ∧ Quiet (sReel 378 lnSpawn) 0 ∧ x.depth ≠ 7 ∧
    (sReel 378 lnSpawn).access 0 lnSpawn .atomic true 0x10000 64 = (.ok 0x110000, s1) ∧
    (s1.release 0 .device).appendLaunch 0 0x10000 0x2000 9 1 (x.depth + 1) = .full ∧
    (∀ e, e ∈ lnSpawn.chip ++ lnSpawn.hchip ++ (sReel 378 lnSpawn).slotsOf 0 → e.pend = false ∧ e.ready ≤ (sReel 378 lnSpawn).cycle (sliceOf 0)) ∧ lnSpawn.ts.tlvl = 0 ∧
    ∀ j, j < lnSpawn.g + lnSpawn.chip.length → keyExists ((sReel 378 lnSpawn).backKey 0 lnSpawn j) := by
  obtain ⟨s1, h⟩ := acc_of (show ((sReel 378 lnSpawn).access 0 lnSpawn .atomic true 0x10000 64).1 = .ok 0x110000 by decide)
  have e : s1 = ((sReel 378 lnSpawn).access 0 lnSpawn .atomic true 0x10000 64).2 := by rw [h]
  subst e
  have g : ∀ j, j < lnSpawn.g + lnSpawn.chip.length → keyExists ((sReel 378 lnSpawn).backKey 0 lnSpawn j) := by
    unfold keyExists
    decide
  rintro i (rfl | rfl) <;> exact ⟨_, _, alone_of (by decide), rfl, quiet_of (by decide), by decide, h, by rfl, by decide, rfl, g⟩
def sWoken : State := withTask (fun x => { x with woken := [{ lane := ln [4], reel := 0x10000 }] }) (one (ln []))
theorem test_hyp_spawn_wake : ∃ x e, sWoken.task 0 = some x ∧ x.woken = [e] ∧ e.areas = [] ∧ x.members.contains 0 = true ∧ sWoken.mayRun x.space = true ∧
    sWoken.fitsWave 0 (placeKey 0 47) x.slots x.sb = true := ⟨_, _, rfl, rfl, rfl, by decide, by decide, by decide⟩
/-- A slate: entry 0x100, 33 threads, one block of slots, PRIO 1, two members, an extent of one page at 0x10000. -/
def slateWords : List Word := [0x100, BitVec.ofNat 64 (32 * 2 ^ 32 + 2 ^ 8 + 2 ^ 4 + 2 * 2), 0x10000, BitVec.ofNat 64 (2 ^ 32 + 4 * 2 ^ 16 + 4 * 2 ^ 8), 0x5000003] ++
  List.replicate 11 0 ++ [BitVec.ofNat 64 (2 ^ 24 + 2 ^ 23 + 1)] ++ List.replicate 15 0
def launch0 : Launch := { vf := 0, asid := 0, slate := 0x2000, argp := 9, ntask := 2, depth := 0, rnum := 1, idx := 3, next := 1
                          checked := true, words := slateWords }
def sPlace : State := { one (ln []) with
  launches := [(5, launch0)], clusters := [(0, { budget := 100, peak := 100 })], mem := fetchTables [], nextId := 8 }
theorem test_hyp_placement : ∃ xs, mget sPlace.launches 5 = some launch0 ∧ launch0.checked = true ∧ sPlace.headsPool 5 launch0 = true ∧
    sPlace.mayRun (spaceKey launch0.vf launch0.asid) = true ∧ launch0.next < launch0.ntask ∧
    membersOk [4, 5] (slGang launch0.words) = true ∧ (sPlace.cluster ([4, 5].headD 0 / 6)).hold = [] ∧ sPlace.fitsTask launch0.words [4, 5] = true ∧
    sPlace.extentTable (spaceKey launch0.vf launch0.asid) (slExtents launch0.words) = some xs :=
  ⟨[{ page := 1, w := true, frames := [0x110000], levels := [2] }], by decide, rfl, by decide, by decide, by decide, by decide, by decide, by decide, by decide⟩
/-- The second of two waves, with 33 threads in all. -/
def sForm : State := withTask (fun x => { x with nth := 33, entry := 0x100 }) (one (ln []))
theorem test_hyp_formation : ∃ x, sForm.task 0 = some x ∧ x.members.getD (x.formed % Nat.max 1 x.members.length) 0 = 0 ∧
    32 * x.formed < x.nth ∧ sForm.mayRun x.space = true ∧ sForm.wave (placeKey 0 47) = none ∧
    sForm.fitsWave 0 (placeKey 0 47) x.slots x.sb = true := ⟨_, rfl, by decide, by decide, by decide, by decide, by decide⟩
def sRetire (ntask : Nat) : State := { one (ln []) with
  tasks := [(0, { task0 with launch := 5, nth := 32 })], lanes := [], waves := []
  launches := [(5, { launch0 with ntask := ntask, next := ntask, retired := 1 })] }
theorem test_hyp_retire : ∀ n, n = 2 ∨ n = 3 → ∃ x m, (sRetire n).task 0 = some x ∧ (sRetire n).mayRetire 0 x = true ∧
    mget (sRetire n).launches x.launch = some m := by rintro n (rfl | rfl) <;> exact ⟨_, _, rfl, by decide, rfl⟩
/-- The report fills the last 64 bytes of HBM. -/
theorem test_hyp_tear_down : sPlace.bad = none ∧ keyExists (hbmSize - 64) := ⟨rfl, exists_of (by decide)⟩

-- Translation. The page of the address, and another one, of this address space.
def tlbOne (page : Nat) : TlbEnt := { space := 0, page := page, npg := 1, level := 2, ent := 0x11001F }
def lnInv : Lane := inMode .h 1 { ln [] with hchip := [{ val := 0x1FFFF }] }
def sTlb : State := { one lnInv with slices := [(0, { cycle := 0, tlb := [tlbOne 1, tlbOne 2] })] }
theorem test_hyp_invalidate : ∀ i, i = .tlbinvPage 0 ∨ i = .tlbinvSpace 0 ∨ i = .tlbinvVf 0 →
    Alone sTlb i 0 lnInv ∧ Quiet sTlb 0 ∧ ∃ p, invalidates sTlb 0 lnInv i = some p := by
  rintro i (rfl | rfl | rfl) <;> exact ⟨alone_of (by decide), quiet_of (by decide), _, rfl⟩
theorem test_hyp_invalidate_other : (tlbOne 2).space = sTlb.spaceOf 0 ∧ tlbOne 2 ∈ (sTlb.slice 0).tlb ∧
    ¬ (0x1FFFF / 65536 % 2 ^ 40 : Nat) < 1 ∧ ¬ (tlbOne 2).page ≤ 0x1FFFF / 65536 % 2 ^ 40 := by decide
/-- The entry at 0x40010 of the middle table maps a large page at 2^30. -/
def lnSplit : Lane := lnS [0x10000, 0x40000000]
def sSplit (l : Lane) : State := { one l with mem := pokes (fetchTables []) 0x40010 (leBytes 8 (2 ^ 29 + 0x11F)) }
theorem test_hyp_split : ∃ s1, Alone (sSplit lnSplit) (.tlbinvSplit 0) 0 lnSplit ∧ Quiet (sSplit lnSplit) 0 ∧
    (sSplit lnSplit).reach 0 lnSplit .write true (lnSplit.operand (.tlbinvSplit 0) 0) 65536 = (.ok 0x110000, s1) ∧ keyExists 0x110000 ∧
    s1.middleOf 0 ((lnSplit.operand (.tlbinvSplit 0) 1).toNat % 2 ^ 56) = .inr (some 0x40010) ∧ Uncontested (sSplit lnSplit) 0x40010 8 ∧
    isLarge (wordAt (sSplit lnSplit) 0x40010) = true ∧ keyExists 0x40010 ∧ (0x40010 : Nat) + 8 ≤ 0x110000 := by
  obtain ⟨s1, h⟩ := acc_of (show ((sSplit lnSplit).reach 0 lnSplit .write true 0x10000 65536).1 = .ok 0x110000 by decide)
  have e : s1 = ((sSplit lnSplit).reach 0 lnSplit .write true 0x10000 65536).2 := by rw [h]
  subst e
  exact ⟨_, alone_of (by decide), quiet_of (by decide), h, exists_of (by decide), by decide, uncontested_of rfl, by decide,
    exists_of (by decide), by decide⟩
/-- No root entry; a middle entry that maps nothing; a grant that does not reach to the root table; and no link to the frame. -/
def lnSplitNone : Lane := lnS [0x10000, 0x40000000000]
def lnSplitSmall : Lane := lnS [0x10000, 0x20000000]
def sNoGrant : State := { sSplit lnSplitNone with vfs := [(0, { hsbase := 1, grant := [(0x110000, 65536)] })] }
def sSplitAway : State := { sSplit lnSplit with
  tasks := [(0, { task0 with extents := [{ page := 1, w := true, frames := [remoteKey 5 0] }] })]
  vfs := vfAway
  linksDown := (List.range 18).map (fun l => (l, ())) }
theorem test_hyp_split_small : ∃ s1, Alone (sSplit lnSplitSmall) (.tlbinvSplit 0) 0 lnSplitSmall ∧
    (sSplit lnSplitSmall).reach 0 lnSplitSmall .write true (lnSplitSmall.operand (.tlbinvSplit 0) 0) 65536 = (.ok 0x110000, s1) ∧
    s1.middleOf 0 ((lnSplitSmall.operand (.tlbinvSplit 0) 1).toNat % 2 ^ 56) = .inr (some 0x40008) ∧
    isLarge (wordAt (sSplit lnSplitSmall) 0x40008) = false := by
  obtain ⟨s1, h⟩ := acc_of (show ((sSplit lnSplitSmall).reach 0 lnSplitSmall .write true 0x10000 65536).1 = .ok 0x110000 by decide)
  have e : s1 = ((sSplit lnSplitSmall).reach 0 lnSplitSmall .write true 0x10000 65536).2 := by rw [h]
  subst e
  exact ⟨_, alone_of (by decide), h, by decide, by decide⟩
theorem test_hyp_split_no_grant : ∃ s1, Alone sNoGrant (.tlbinvSplit 0) 0 lnSplitNone ∧ Quiet sNoGrant 0 ∧
    sNoGrant.reach 0 lnSplitNone .write true (lnSplitNone.operand (.tlbinvSplit 0) 0) 65536 = (.ok 0x110000, s1) ∧
    s1.middleOf 0 ((lnSplitNone.operand (.tlbinvSplit 0) 1).toNat % 2 ^ 56) = .inl 0 := by
  obtain ⟨s1, h⟩ := acc_of (show (sNoGrant.reach 0 lnSplitNone .write true 0x10000 65536).1 = .ok 0x110000 by decide)
  have e : s1 = (sNoGrant.reach 0 lnSplitNone .write true 0x10000 65536).2 := by rw [h]
  subst e
  exact ⟨_, alone_of (by decide), quiet_of (by decide), h, by decide⟩
theorem test_hyp_split_no_link : ∃ s1, Alone sSplitAway (.tlbinvSplit 0) 0 lnSplit ∧ Quiet sSplitAway 0 ∧
    sSplitAway.reach 0 lnSplit .write true (lnSplit.operand (.tlbinvSplit 0) 0) 65536 = (.ok (remoteKey 5 0), s1) ∧
    sSplitAway.cutOff (remoteKey 5 0) = true ∧ s1.pageCause 0 lnSplit (lnSplit.operand (.tlbinvSplit 0) 0).toNat = none ∧
    s1.middleOf 0 ((lnSplit.operand (.tlbinvSplit 0) 1).toNat % 2 ^ 56) = .inr (some 0x40010) ∧
    isLarge (wordAt sSplitAway 0x40010) = true := by
  obtain ⟨s1, h⟩ := acc_of (show (sSplitAway.reach 0 lnSplit .write true 0x10000 65536).1 = .ok (remoteKey 5 0) by decide)
  have e : s1 = (sSplitAway.reach 0 lnSplit .write true 0x10000 65536).2 := by rw [h]
  subst e
  exact ⟨_, alone_of (by decide), quiet_of (by decide), h, by decide, by decide +kernel, by decide, by decide⟩
theorem test_hyp_split_none : ∃ s1, Alone (sSplit lnSplitNone) (.tlbinvSplit 0) 0 lnSplitNone ∧
    (sSplit lnSplitNone).reach 0 lnSplitNone .write true (lnSplitNone.operand (.tlbinvSplit 0) 0) 65536 = (.ok 0x110000, s1) ∧
    s1.middleOf 0 ((lnSplitNone.operand (.tlbinvSplit 0) 1).toNat % 2 ^ 56) = .inr none := by
  obtain ⟨s1, h⟩ := acc_of (show ((sSplit lnSplitNone).reach 0 lnSplitNone .write true 0x10000 65536).1 = .ok 0x110000 by decide)
  have e : s1 = ((sSplit lnSplitNone).reach 0 lnSplitNone .write true 0x10000 65536).2 := by rw [h]
  subst e
  exact ⟨_, alone_of (by decide), h, by decide⟩
def lnParked : Lane := { ln [] with wait := .parked }
def sParked : State := twoLanes (lnS []) lnParked
theorem test_hyp_replay : Alone sParked (.replay 0) 0 (lnS []) ∧ Quiet sParked 0 ∧ sParked.spaceOf 1 = sParked.spaceOf 0 ∧
    (1, lnParked) ∈ sParked.lanes := ⟨alone_of (by decide), quiet_of (by decide), by decide, by decide⟩

-- Grace.
def sGrace (begun done : Nat) (whey : List Whey) (l : Lane) : State := { one l with
  ctxs := [(0, { root := 0x20000, gBegun := begun, gDone := done, whey := whey })], mem := fetchTables [] }
def record (gen : Nat) : Whey := { addr := 0x10000, size := 64, list := 0x10040, gen := gen }
def lnGp (n : Nat) : Lane := { ln [] with wait := .waitgp n, passive := true }
theorem test_hyp_qpoint : ReadyStrand (lanesOf [ln [], ln [1]]) (.qpoint 0) ∧
    (∀ k, k ∈ (lanesOf [ln [], ln [1]]).active → Quiet (lanesOf [ln [], ln [1]]) k) ∧ Alone (one (ln [])) (.qpoint 0) 0 (ln []) ∧
    (lnS []).atMeet = false ∧ (lnS []).depth ≤ (lnS []).limit :=
  ⟨strand_of (by decide), fun k hk => quiet_of ((by decide : ∀ k, k ∈ (lanesOf [ln [], ln [1]]).active → quietB (lanesOf [ln [], ln [1]]) k = true) k hk),
    alone_of (by decide), by decide, by decide⟩
theorem test_hyp_waitgp : Alone (sGrace 2 1 [] (ln [])) (.waitgp 0) 0 (ln []) ∧
    Quiet (sGrace 2 1 [] (ln [])) 0 ∧ (∀ n, (ln []).wait ≠ .waitgp n) ∧ (ln []).ts.tlvl = 0 ∧
    Alone (sGrace 3 3 [record 4] (lnGp 3)) (.waitgp 0) 0 (lnGp 3) ∧ 3 ≤ ((sGrace 3 3 [record 4] (lnGp 3)).ctx 0).gDone ∧
    (∀ r, r ∈ ((sGrace 3 3 [record 4] (lnGp 3)).ctx 0).whey → 3 < r.gen) ∧ Alone (one (lnS [])) (.waitgp 0) 0 (lnS []) ∧
    (lnS []).ts.tlvl ≠ 0 :=
  ⟨alone_of (by decide), quiet_of (by decide), fun n h => Wait.noConfusion h, rfl, alone_of (by decide), by decide,
    by decide, alone_of (by decide), by decide⟩
def lnDefer : Lane := ln [0x10040, 64, 0x10000]
theorem test_hyp_defer : ∃ s1 s2, Alone (sGrace 2 2 [] lnDefer) (.defer 0) 0 lnDefer ∧ Quiet (sGrace 2 2 [] lnDefer) 0 ∧ lnDefer.wait ≠ .whey ∧
    (sGrace 2 2 [] lnDefer).access 0 lnDefer .write true (lnDefer.operand (.defer 0) 2) 16 = (.ok 0x110000, s1) ∧
    s1.access 0 lnDefer .atomic true (lnDefer.operand (.defer 0) 0) 8 = (.ok 0x110040, s2) ∧
    ((sGrace 2 2 [] lnDefer).ctx 0).whey.length < 4096 := by
  obtain ⟨s1, h⟩ := acc_of (show ((sGrace 2 2 [] lnDefer).access 0 lnDefer .write true 0x10000 16).1 = .ok 0x110000 by decide)
  have e : s1 = ((sGrace 2 2 [] lnDefer).access 0 lnDefer .write true 0x10000 16).2 := by rw [h]
  obtain ⟨s2, h2⟩ := acc_of (show (((sGrace 2 2 [] lnDefer).access 0 lnDefer .write true 0x10000 16).2.access 0 lnDefer .atomic true
    0x10040 8).1 = .ok 0x110040 by decide)
  subst e
  exact ⟨_, s2, alone_of (by decide), quiet_of (by decide), by decide, h, h2, by decide⟩
/-- A queue of 4,096 records. -/
theorem test_hyp_defer_full : 4096 ≤ ((sGrace 2 2 (List.replicate 4096 (record 9)) lnDefer).ctx 0).whey.length :=
  Nat.le_of_eq (by rfl)
theorem test_hyp_defer_level : lnDefer.ts.tlvl = 0 ∧ Alone (sGrace 2 2 [] (lnS [0x10040, 64, 0x10000])) (.defer 0) 0 (lnS [0x10040, 64, 0x10000]) ∧
    (lnS [0x10040, 64, 0x10000]).ts.tlvl ≠ 0 := ⟨rfl, alone_of (by decide), by decide⟩
theorem test_hyp_grace_begin : ((sGrace 2 2 [record 3] (ln [])).ctx 0).gDone = ((sGrace 2 2 [record 3] (ln [])).ctx 0).gBegun ∧
    ∃ r, r ∈ ((sGrace 2 2 [record 3] (ln [])).ctx 0).whey ∧ ((sGrace 2 2 [record 3] (ln [])).ctx 0).gBegun < r.gen :=
  ⟨by decide, record 3, by decide, by decide⟩
theorem test_hyp_grace_complete : ((sGrace 2 1 [] (lnGp 2)).ctx 0).gDone < ((sGrace 2 1 [] (lnGp 2)).ctx 0).gBegun ∧
    (sGrace 2 1 [] (lnGp 2)).blocked 0 2 = false ∧ (0, ln []) ∈ (sGrace 2 1 [] (ln [])).lanes ∧
    (sGrace 2 1 [] (ln [])).spaceOf 0 = 0 ∧ (ln []).passive = false ∧ (ln []).qg ≤ ((sGrace 2 1 [] (ln [])).ctx 0).gDone := by decide
theorem test_hyp_whey : ((sGrace 3 3 [record 3] (ln [])).ctx 0).whey = record 3 :: [] ∧
    ((sGrace 3 3 [record 3] (ln [])).ctx 0).wheyHeld = false ∧ (record 3).gen ≤ ((sGrace 3 3 [record 3] (ln [])).ctx 0).gDone ∧
    (sGrace 3 3 [record 3] (ln [])).devPlace 0 .atomic (record 3).addr.toNat = .ok 0x110000 ∧
    (sGrace 3 3 [record 3] (ln [])).devPlace 0 .atomic (record 3).list.toNat = .ok 0x110040 ∧
    (sGrace 3 3 [record 3] (ln [])).broken 0x110000 16 = false ∧ (sGrace 3 3 [record 3] (ln [])).broken 0x110040 8 = false ∧
    (sGrace 3 3 [record 3] (ln [])).cutOff 0x110000 = false ∧ (sGrace 3 3 [record 3] (ln [])).cutOff 0x110040 = false := by decide
/-- A page of device 5, to which no link is up. -/
theorem test_hyp_whey_away : ({ sGrace 3 3 [record 3] (ln []) with linksDown := (List.range 18).map (fun l => (l, ())) } : State).cutOff
  (remoteKey 5 0) = true := by decide
/-- An address that is not mapped, and one of a page that may not be written. -/
def readOnly (m : Memory) : Memory := pokes m 0x50010 (leBytes 8 (backPage + 0x13))
/-- A store to the second of them, which makes its request and then traps with PROTECTION. -/
def sReadOnly : State := { sGrace 3 3 [] (ln [0x20000, 9]) with mem := readOnly (fetchTables []) }
theorem test_hyp_access_request : ∃ c s1, Alone sReadOnly (.st 0 .w64 0) 0 (ln [0x20000, 9]) ∧
    sReadOnly.access 0 (ln [0x20000, 9]) .write true (address ((ln [0x20000, 9]).operand (.st 0 .w64 0) 0) 0) 8 = (.trap c, s1) ∧
    c.group ≠ 6 := by
  obtain ⟨s1, h⟩ := acc_of (show (sReadOnly.access 0 (ln [0x20000, 9]) .write true (address 0x20000 0) 8).1 =
    .trap (xlCause 5 0x20000 .write 2 2) by decide)
  exact ⟨_, s1, alone_of (by decide), h, by decide⟩
theorem test_hyp_whey_held : ∃ f n, (sGrace 3 3 [] (ln [])).devPlace 0 .atomic 0x30000 = .fault f n := ⟨1, 2, by decide⟩
theorem test_hyp_whey_discarded : ∃ f n, ({ sGrace 3 3 [] (ln []) with mem := readOnly (fetchTables []) } : State).devPlace 0 .atomic 0x20000 =
  .prot f n := ⟨2, 2, by decide⟩
/-- The line of the block has an uncorrectable error. -/
theorem test_hyp_whey_broken : ({ sGrace 3 3 [record 3] (ln []) with ecc := [(0x4400, ())] } : State).broken 0x110000 16 = true := by decide

-- Cuts, saves, restores, power.
def lnMwait : Lane := { ln [] with wait := .mwait 5 0 }
def sCutRaised : State := { one lnMwait with ctxs := [(0, { root := 0x20000, cut := true })] }
theorem test_hyp_cut_arrival : (sCutRaised.ctx (spaceKey 0 0)).cut = true ∧ mget (sCutRaised.ctx (spaceKey 0 0)).arrived 0 = none ∧
    sCutRaised.lane 0 = some lnMwait ∧ sliceOf 0 = 0 ∧ sCutRaised.spaceOf 0 = spaceKey 0 0 := by decide
def sCutAt (cycle : Nat) (l : Lane) : State := { sCut l with slices := [(0, { cycle := cycle })] }
theorem test_hyp_cut_deadline : mget ((sCutAt 50 (ln [])).ctx (spaceKey 0 0)).arrived 0 = some 50 ∧ 50 ≤ (sCutAt 50 (ln [])).cycle 0 ∧
    mget ((sCutAt 49 (ln [])).ctx (spaceKey 0 0)).arrived 0 = some 50 ∧ (sCutAt 49 (ln [])).cycle 0 < 50 := by decide
def lnStopped : Lane := { ln [4] with wait := .stopped }
theorem mget_mem {α : Type} {m : Map α} {k : Nat} {v : α} (h : mget m k = some v) : (k, v) ∈ m := by
  induction m with
  | nil => cases h
  | cons p r ih =>
    obtain ⟨j, u⟩ := p
    unfold mget at h
    split at h
    · subst_vars
      cases h
      exact List.mem_cons_self
    · exact List.mem_cons_of_mem _ (ih h)
/-- Where no task has a bank operation, no thread has one. -/
theorem quiet_all {s : State} (h : s.tasks.all (fun p => p.2.banks.isEmpty) = true) (k : Nat) : Quiet s k := by
  intro t ht b hb
  have hm : (s.taskNo k, t) ∈ s.tasks := mget_mem ht
  have he := List.all_eq_true.mp h _ hm
  rw [List.isEmpty_iff.mp he] at hb
  cases hb
/-- A save of a wave of one member slice is of that wave alone. -/
theorem together_one {s : State} {w : Nat} {v : Wave} {x : Task} {p : Nat × Wave} (h : x.members.length ≤ 1) (ht : savedTogether s w v x p) :
    p = (w, v) := by
  rcases ht with h1 | ⟨h1, -⟩
  · exact h1
  · omega
theorem test_hyp_wave_save : (sCutAt 49 lnStopped).bad = none ∧ (sCutAt 49 lnStopped).wave (placeKey 0 0) = some wave0 ∧
    (sCutAt 49 lnStopped).task wave0.task = some task0 ∧
    ∀ p, savedTogether (sCutAt 49 lnStopped) (placeKey 0 0) wave0 task0 p → SaveReady (sCutAt 49 lnStopped) task0.space p.1 p.2 := by
  refine ⟨rfl, by decide, by decide, fun p hp => ?_⟩
  rw [together_one (by decide) hp]
  exact ⟨by decide, by decide, fun k _ => quiet_all (by decide) k, Or.inr (by decide)⟩
/-- When the deadline has passed a thread need not have stopped. -/
theorem test_hyp_wave_save_late : SaveReady (sCutAt 50 (ln [])) task0.space (placeKey 0 0) wave0 :=
  ⟨by decide, by decide, fun k _ => quiet_all (by decide) k, Or.inl (by decide)⟩
def savedWave : Saved := { wave := wave0, lanes := [(9, ln [4])], slice := 0 }
def sSaved (v : Saved) : State := { one (ln []) with ctxs := [(0, { root := 0x20000, saved := [v] })] }
def restoreB (s : State) (v : Saved) : Bool :=
  s.bad == none && (s.ctx (spaceKey 0 0)).saved[0]? == some v && s.task v.wave.task == some task0 && s.mayRun (spaceKey 0 0) &&
  s.wave (placeKey 0 47) == none && decide (0 < s.placesFree 0) && decide (v.wave.nlb + v.wave.sb ≤ s.blocksFree 0) &&
  (s.slice 0).roomFor v && decide (v.lanes.map (·.1)).Nodup && v.lanes.all (fun p => p.2.wait.barOf.isNone)
/-- The S area of level 2 of a lane whose trap entries took two bases: 18 lines, the second of them poisoned. -/
def area2 : Area := { level := 2, bytes := (List.range 1152).map (BitVec.ofNat 8), spoilt := [(1, false)] }
def savedArea : Saved := { savedWave with
  lanes := [(9, { inMode .s 2 (ln [4]) with bases := [0x200000000, 0x300000] })], areas := [(9, [area2])] }
/-- Without mode areas, and with the S area of level 2 of lane 9, above the trap at level 1. -/
theorem test_hyp_wave_restore : restoreB (sSaved savedWave) savedWave = true ∧ task0.members = [0] ∧ savedWave.areas = [] ∧
    restoreB (sSaved savedArea) savedArea = true ∧ task0.space = spaceKey 0 0 ∧
    areaAt ([0x300000, 0x200000000].getD (area2.level - 1) 0) (placeKey 0 47 * 32 + 9) + 4096 ≤ hbmSize ∧
    area2.bytes.length = 64 * (levelLines area2.level 0).length := by decide
/-- A wave of a gang whose other wave is saved too comes back with it: place 47 was asked for, and place 0 is free on slice 1. -/
def task0g : Task := { task0 with members := [0, 1] }
def savedWave1 : Saved := { savedWave with wave := { wave0 with uid := 2, num := 1 }, slice := 1 }
def sSavedGang : State := { sSaved savedWave with
  waves := [], lanes := [], tasks := [(0, task0g)], ctxs := [(0, { root := 0x20000, saved := [savedWave, savedWave1] })] }
theorem test_hyp_gang_restore : (∀ r, r ∈ (sSavedGang.ctx 0).saved → ComesBack sSavedGang task0g 0 (fun m => if m = 0 then 47 else 0) r) ∧
    1 < task0g.members.length ∧ sSavedGang.mayRun 0 = true ∧ ((sSavedGang.ctx 0).saved.map (·.slice)).Nodup ∧
    sSavedGang.task savedWave.wave.task = some task0g ∧ (sSavedGang.ctx 0).saved[0]? = some savedWave ∧
    ∀ r p, r ∈ (sSavedGang.ctx 0).saved → r.slice ≠ 0 → p < (fun m => if m = 0 then 47 else 0) r.slice →
      sSavedGang.wave (placeKey r.slice p) ≠ none := by
  refine ⟨fun r hr => ?_, by decide, by decide, by decide, by decide, by decide, fun r p hr h0 hp => ?_⟩
  · simp only [show (sSavedGang.ctx 0).saved = [savedWave, savedWave1] from by decide, List.mem_cons, List.not_mem_nil, or_false] at hr
    rcases hr with rfl | rfl <;> exact ⟨by decide, by decide, by decide, by decide, by decide, by decide⟩
  · simp [h0] at hp
theorem test_gang_restores : ∃ t, exec (.waveRestore 0 0 0 0 47) sSavedGang = .next t ∧ t.wave (placeKey 1 0) = some savedWave1.wave ∧
    t.wave (placeKey 0 47) = some wave0 := ⟨_, rfl, by decide, by decide⟩
/-- A thermal code of 3, and the peak was exceeded. -/
def sHot (now : Nat) : State := { one (ln []) with slices := [(0, { cycle := 7, thermal := 3, slow := true })], now := now }
theorem test_hyp_ratio : (sHot 8).now % 8 = 0 ∧ (4 : Nat) = (sHot 8).ratioFor 0 ∧ (sHot 9).now % 8 ≠ 0 := by decide
def sDraw (code : Nat) : State := { withTask (fun x => { x with energy := 10, tcode := code }) (one (ln [])) with now := 1200 }
theorem test_hyp_interval : ∀ c, c = 3 ∨ c = 4 → ∃ x, (sDraw c).tasks = [(0, x)] ∧ x.cluster = 0 ∧ (sDraw c).launches = [] ∧ x.tcode = c ∧
    x.energy * ratioN x.tcode < 8 * 4 ∧ ((sDraw c).cluster 0).since + 1200 ≤ (sDraw c).now ∧
    ({ sDraw c with now := 1199 } : State).now < ((sDraw c).cluster 0).since + 1200 := by
  rintro c (rfl | rfl) <;> exact ⟨_, rfl, rfl, rfl, rfl, by decide, by decide, by decide⟩
theorem test_hyp_power : (0, wave0) ∈ (one (ln [])).waves ∧ (0 : Nat) / 48 = 0 ∧ (one (ln [])).task wave0.task = some task0 ∧
    (one (ln [])).vfs ≠ [] ∧ (mget (one (ln [])).vfs 0).isSome = true := by decide

-- Packets, at the head of reel 1 of context 0, whose slot is 7.
def packet (w0 w1 w2 w3 w4 cmpl : Nat) : List Byte := [w0, w1, w2, w3, w4, 0, 0, cmpl].flatMap (leBytes 8)
def reel0 : Reel := { vf := 0, asid := 0, rnum := 1, header := 0x10000, prio := 2, slot := some 7, pending := true }
def sPacket (p : List Byte) : State := { sReel 1 (ln []) with
  mem := pokes (sReel 1 (ln [])).mem 0x111000 p, reels := [(reelKey 0 1, reel0)], nextId := 8 }
def startB (s : State) (i : Instr) (q rk : Nat) (ty : Option Nat) (r : Reel) (ws : List Word) : Bool :=
  packetForm i == some (q, ty) && s.bad == none && s.slotReel q == some (rk, r) && mget s.reels rk == some r &&
  s.packetAt r == some ws && packetType ws == ty && (ty == none || !hasBarrier ws || r.infl == []) &&
  (List.range 8).all (fun m => decide ((s.slice m).copies.length < 48))
theorem start_of {s : State} {i : Instr} {q rk : Nat} {ty : Option Nat} {r : Reel} {ws : List Word}
    (h : startB s i q rk ty r ws = true) (hm : ∀ m, i = .copyPacket q m → m < 8) : Startable s i q rk ty r ws := by
  simp only [startB, Bool.and_eq_true, beq_iff_eq, List.all_eq_true, List.mem_range, decide_eq_true_eq, Bool.or_eq_true,
    Bool.not_eq_true'] at h
  obtain ⟨⟨⟨⟨⟨⟨⟨h1, h2⟩, h3⟩, h4⟩, h5⟩, h6⟩, h7⟩, h8⟩ := h
  exact ⟨h1, h2, h3, h4, h5, h6, by rcases h7 with (h | h) | h <;> simp [h], fun m e => h8 m (hm m e)⟩
def nopP : List Byte := packet 0 0 0 0 0 0x10200
def launchP : List Byte := packet 1 0x2000 9 (2 ^ 32) 7 0
def copyP : List Byte := packet 2 0x10400 0x10800 128 0 0
def signalP (op : Nat) : List Byte := packet 3 0x10200 5 op 0 0
def waitP : List Byte := packet 4 0x10200 5 1 0 0
def quiesceP : List Byte := packet 6 0 0 0 0 0
theorem test_hyp_packets : Startable (sPacket nopP) (.nopPacket 7) 7 (reelKey 0 1) (some 0) reel0 (toWords nopP 8) ∧
    Startable (sPacket launchP) (.launchPacket 7) 7 (reelKey 0 1) (some 1) reel0 (toWords launchP 8) ∧
    Startable (sPacket copyP) (.copyPacket 7 3) 7 (reelKey 0 1) (some 2) reel0 (toWords copyP 8) ∧
    Startable (sPacket (signalP 0)) (.signalPacket 7) 7 (reelKey 0 1) (some 3) reel0 (toWords (signalP 0) 8) ∧
    Startable (sPacket (signalP 1)) (.signalPacket 7) 7 (reelKey 0 1) (some 3) reel0 (toWords (signalP 1) 8) ∧
    Startable (sPacket waitP) (.waitPacket 7) 7 (reelKey 0 1) (some 4) reel0 (toWords waitP 8) ∧
    Startable (sPacket quiesceP) (.quiescePacket 7) 7 (reelKey 0 1) (some 6) reel0 (toWords quiesceP 8) ∧
    Startable (sPacket (packet 5 0 0 0 0 0)) (.invalidPacket 7) 7 (reelKey 0 1) none reel0 (toWords (packet 5 0 0 0 0 0) 8) := by
  refine ⟨start_of (by decide) ?_, start_of (by decide) ?_, start_of (by decide) ?_, start_of (by decide) ?_, start_of (by decide) ?_,
    start_of (by decide) ?_, start_of (by decide) ?_, start_of (by decide) ?_⟩ <;> intro m h
  all_goals simp at h
  omega
/-- A wave of the address space is on the device. -/
theorem test_hyp_quiesce : spaceLive (sPacket quiesceP) reel0.space := Or.inl ⟨(0, wave0), task0, by decide, by decide, by decide⟩
theorem test_hyp_quiesce_idle : ¬ spaceLive { sPacket quiesceP with waves := [] } reel0.space := by
  rintro (⟨p, x, h, -⟩ | ⟨p, h, -⟩)
  · simp at h
  · exact absurd h (List.not_mem_nil)
/-- A matrix command of the address space is in a queue. -/
theorem test_hyp_quiesce_engine : spaceLive { sPacket quiesceP with waves := [], slices := [(0, { cycle := 0, mq := [matCmd] })] } reel0.space :=
  Or.inr ⟨_, List.mem_cons_self, by decide⟩
/-- A COPY packet of no bytes; and a reel without a packet to start. -/
theorem test_hyp_copy_nothing : Startable (sPacket (packet 2 0x10400 0x10800 0 0 0)) (.copyPacket 7 3) 7 (reelKey 0 1) (some 2) reel0
    (toWords (packet 2 0x10400 0x10800 0 0 0) 8) :=
  start_of (by decide) (fun m h => by simp at h; omega)
def reelNext : Reel := { reel0 with head := 1 }
def sNoPacket : State := { sReel 1 (ln []) with reels := [(reelKey 0 1, reelNext)], nextId := 8 }
theorem test_hyp_no_packet : sNoPacket.bad = none ∧ sNoPacket.slotReel 7 = some (reelKey 0 1, reelNext) ∧
    sNoPacket.packetAt reelNext = none ∧ reelNext.reads = true := by decide
/-- A NOP with BARRIER behind packet 0, which is not complete. -/
def barrierP : List Byte := packet (2 ^ 32 + 2 ^ 8) 0 0 0 0 0
def reel1 : Reel := { reel0 with head := 1, infl := [(0, 0)] }
def sBarrier : State := { sReel 2 (ln []) with mem := pokes (sReel 2 (ln [])).mem 0x111040 barrierP, reels := [(reelKey 0 1, reel1)] }
theorem test_hyp_barrier : packetForm (.nopPacket 7) = some (7, some 0) ∧ sBarrier.bad = none ∧
    sBarrier.slotReel 7 = some (reelKey 0 1, reel1) ∧ mget sBarrier.reels (reelKey 0 1) = some reel1 ∧
    sBarrier.packetAt reel1 = some (toWords barrierP 8) ∧ packetType (toWords barrierP 8) = some 0 ∧
    hasBarrier (toWords barrierP 8) = true ∧ reel1.infl ≠ [] := by decide
def sReelIs (r : Reel) : State := { sReel 1 (ln []) with reels := [(reelKey 0 1, r)] }
/-- The word at 0x10040 is 0x11000. -/
def reelWait (v : Word) (ge : Bool) : Reel := { reel0 with head := 1, infl := [(0, 0)], waitOn := some (0x10040, v, ge) }
theorem test_hyp_wait_met : ∀ p, p = (0x10FFF, true) ∨ p = (0x11000, false) → (sReelIs (reelWait p.1 p.2)).slotReel 7 =
      some (reelKey 0 1, reelWait p.1 p.2) ∧ (sReelIs (reelWait p.1 p.2)).devWord (reelWait p.1 p.2).space 0x10040 = some 0x11000 ∧
      (if p.2 then p.1.toNat ≤ 0x11000 else 0x11000 = p.1.toNat) := by rintro p (rfl | rfl) <;> decide
/-- HEAD is at slot 63; the splice names 0x13000. -/
def reelEnd : Reel := { reel0 with head := 63 }
def sSplice : State := { sReelIs reelEnd with mem := pokes (sReel 63 (ln [])).mem (0x111000 + 64 * 63 + 8) (leBytes 8 0x13000) }
theorem test_hyp_splice : sSplice.bad = none ∧ sSplice.slotReel 7 = some (reelKey 0 1, reelEnd) ∧
    mget sSplice.reels (reelKey 0 1) = some reelEnd ∧ reelEnd.head / 63 ≠ reelEnd.segNo ∧ sSplice.headSeg reelEnd = some 0x11000 ∧
    sSplice.devWord reelEnd.space (packetVa 0x11000 63 + 8) = some 0x13000 := by decide
/-- The word at 0x10010 names the pool, at 0x10400. -/
def sSplicePool : State := { sSplice with mem := pokes sSplice.mem 0x110010 (leBytes 8 0x10400) }
theorem test_hyp_splice_pool : sSplicePool.reelPool reelEnd.space reelEnd.header = some 0x10400 ∧
    sSplicePool.devWord reelEnd.space 0x10400 = some 0 ∧ sSplicePool.devPlace reelEnd.space .write 0x11000 = .ok 0x111000 ∧
    (sSplicePool.devStore 0x111000 (leBytes 8 0) .device).devPlace reelEnd.space .write 0x10400 = .ok 0x110400 := by decide
def reelDone (cmpl : Word) : Reel := { reel0 with head := 4, infl := [(3, cmpl)], results := [(3, 8)] }
theorem test_hyp_completion : ∀ c, c = 0 ∨ c = 0x10200 → mget (sReelIs (reelDone c)).reels (reelKey 0 1) = some (reelDone c) ∧
    mget (reelDone c).results 3 = some 8 ∧ mget (reelDone c).infl 3 = some c ∧
    (published (sReelIs (reelDone c))).devPlace (reelDone c).space .write 0x10200 = .ok 0x110200 := by rintro c (rfl | rfl) <;> decide
def reelIdle : Reel := { reel0 with slot := none }
def sIdle : State := { sReelIs reelIdle with ready := true, vfs := [(0, { quantum := 100 })] }
theorem test_hyp_kick : mget sIdle.reels (reelKey 0 1) = some reelIdle ∧ reelIdle.slot = none ∧ sIdle.ready = true ∧ sIdle.take = some 0 ∧
    sIdle.ending = false ∧ sIdle.reels = [(reelKey reelIdle.vf reelIdle.rnum, reelIdle)] ∧ reelIdle.vf = 0 ∧ reelIdle.pending = true ∧
    State.reset.ready = false := by decide
def sTake (micros : Nat) : State := { sReelIs reel0 with vfs := [(0, { quantum := 100 })], micros := micros }
theorem test_hyp_take_end : (sTake 100).take = some 0 ∧ (sTake 100).ending = false ∧
    (sTake 100).takeAt + ((sTake 100).vf 0).quantum ≤ (sTake 100).micros ∧ mget (sTake 100).reels (reelKey 0 1) = some reel0 ∧
    reelKey 0 1 = reelKey reel0.vf reel0.rnum ∧ mget (sTake 100).ctxs 0 ≠ none ∧
    (sTake 99).micros < (sTake 99).takeAt + ((sTake 99).vf 0).quantum := by decide
theorem test_hyp_take_live : ∃ p, p ∈ (sTake 100).ctxs ∧ p.1 / 16384 = 0 ∧ spaceLive (sTake 100) p.1 :=
  ⟨_, List.mem_cons_self, rfl, Or.inl ⟨(0, wave0), task0, by decide, by decide, by decide⟩⟩
theorem test_hyp_take_idle : ¬ ∃ p, p ∈ ({ sTake 100 with waves := [] } : State).ctxs ∧ p.1 / 16384 = 0 ∧
    spaceLive { sTake 100 with waves := [] } p.1 := by
  rintro ⟨p, -, -, ⟨q, x, h, -⟩ | ⟨q, h, -⟩⟩
  · simp at h
  · exact absurd h (List.not_mem_nil)

-- The firmware, the host, the domain.
theorem test_hyp_firmware : mget (one (ln [])).vfs 0 ≠ none ∧ (∀ p, p ∈ (one (ln [])).tasks → p.2.space ≠ spaceKey 0 16383) ∧
    mget (one (ln [])).ctxs (spaceKey 0 0) ≠ none ∧ mget (one (ln [])).reels (reelKey 0 4095) = none ∧
    (one (ln [])).wheelRefusal 0 0 1 0 ≠ none ∧ mget (one (ln [])).linksDown 17 = none ∧ (List.replicate 32 (0 : Byte)).length = 32 := by
  exact ⟨by decide, by decide, by decide, by decide, by decide, by decide, by decide⟩
def wheel0 : Wheel := { drive := 0, ns := 1, base := 0, nseg := 1, wkey := [] }
def flashDesc : List Word := setWord memDesc 0 (wordOf memDesc 0 + 4)
def flashCopy (rd : Bool) : Copy := { copyIn true with
  src := if rd then setWord flashDesc 5 (2 ^ 48) else memDesc, dst := setWord flashDesc 5 (2 ^ 48) }
def sWheel (rd : Bool) : State := { sCopying true with slices := [(0, { cycle := 0, copies := [flashCopy rd] })], wheels := [(3, wheel0)] }
theorem test_hyp_wheel : mget (sWheel true).wheels 3 = some wheel0 ∧ (sWheel true).wheelBusy wheel0 = true ∧
    (sWheel false).wheelBusy wheel0 = false := by decide
theorem test_hyp_timeout : (sWheel false).bad = none ∧ (sWheel false).copyAt 0 7 = some (flashCopy false) ∧
    (∃ q, (flashCopy false).reqs.find? (fun x => x.id == 0) = some q ∧ q.issued = true ∧ q.done = false) ∧
    ((sWheel false).slice 0).parked 7 0 = false ∧ (flashCopy false).drive.isSome = true :=
  ⟨rfl, by decide, ⟨_, rfl, by decide, by decide⟩, by decide, by decide⟩
/-- From flash to the chip. -/
def flashIn : Copy := { copyOne with src := setWord flashDesc 5 (2 ^ 48) }
def sFlashIn : State := { sCopying true with slices := [(0, { cycle := 0, copies := [flashIn] })] }
theorem test_hyp_timeout_chip : sFlashIn.copyAt 0 7 = some flashIn ∧ flashIn.drive.isSome = true ∧ (geomOf flashIn.src).kind ≠ 0 ∧
    (geomOf flashIn.dst).kind ≠ 0 ∧ (geomOf flashIn.dst).kind ≠ 4 ∧ (sFlashIn.slice 0).parked 7 0 = false := by decide

-- Words of every fetched instruction, field by field: 0, S, opcode, f6; or 10, S, opcode and the fields of f18 (R41, R42).
theorem test_words_stack : List.all [
    (0b0_01_0000000_000000, Instr.nop 1),
    (0b0_10_0000001_100110, Instr.lit 2 38),
    (0b0_11_0000010_000000, Instr.dup 3),
    (0b0_01_0000011_000000, Instr.drop 1),
    (0b0_10_0000100_000000, Instr.swap 2),
    (0b0_11_0000101_000000, Instr.over 3),
    (0b0_01_0000110_000000, Instr.rot 1),
    (0b0_10_0000111_000000, Instr.nip 2),
    (0b0_11_0001000_000000, Instr.tuck 3),
    (0b0_01_0001001_111110, Instr.pick 1 62),
    (0b0_10_0001010_111110, Instr.bury 2 62),
    (0b0_11_0001011_100110, Instr.dropn 3 38),
    (0b0_01_0001100_000000, Instr.depth 1),
    (0b0_10_0001101_000000, Instr.dup2 2),
    (0b0_11_0001110_000000, Instr.swap2 3)]
    (fun p => decodeTableWord 16 p.1 == some p.2) = true := by decide
theorem test_words_stack_long : List.all [
    (0b10_001_000010000_100_000_000000001101, Instr.litw 1 131085)]
    (fun p => decodeTableWord 32 p.1 == some p.2) = true := by decide
theorem test_words_integer : List.all [
    (0b0_10_0010000_000010, Instr.add 2 .s64),
    (0b0_11_0010001_000011, Instr.sub 3 .n64),
    (0b0_01_0010010_000001, Instr.mul 1 .n32),
    (0b0_10_0010011_000010, Instr.mulh 2 .s64),
    (0b0_11_0010100_000011, Instr.mad 3 .n64),
    (0b0_01_0010101_000001, Instr.div 1 .n32),
    (0b0_10_0010110_000010, Instr.rem 2 .s64),
    (0b0_11_0010111_000011, Instr.neg 3 .n64),
    (0b0_01_0011000_000010, Instr.abs 1 .s64),
    (0b0_10_0011001_000010, Instr.min 2 .s64),
    (0b0_11_0011010_000011, Instr.max 3 .n64),
    (0b0_01_0011011_000000, Instr.adds 1 .s32),
    (0b0_10_0011100_000010, Instr.subs 2 .s64),
    (0b0_11_0011101_000011, Instr.clamp 3 .n64),
    (0b0_01_0011110_000001, Instr.and 1 .n32),
    (0b0_10_0011111_000010, Instr.or 2 .s64),
    (0b0_11_0100000_000011, Instr.xor 3 .n64),
    (0b0_01_0100001_000001, Instr.not 1 .n32),
    (0b0_10_0100010_000010, Instr.shl 2 .s64),
    (0b0_11_0100011_000011, Instr.shr 3 .n64),
    (0b0_01_0100100_000001, Instr.rotl 1 .n32),
    (0b0_10_0100101_000010, Instr.popc 2 .s64),
    (0b0_11_0100110_000011, Instr.clz 3 .n64),
    (0b0_01_0100111_000001, Instr.ctz 1 .n32)]
    (fun p => decodeTableWord 16 p.1 == some p.2) = true := by decide
theorem test_words_integer2 : List.all [
    (0b0_10_0101000_000010, Instr.bfx 2 .s64),
    (0b0_11_0101001_000011, Instr.bfi 3 .n64),
    (0b0_01_0101010_000001, Instr.brev 1 .n32),
    (0b0_10_0101011_000010, Instr.sel 2 .s64),
    (0b0_11_0101100_000011, Instr.eq 3 .n64),
    (0b0_01_0101101_000001, Instr.ne 1 .n32),
    (0b0_10_0101110_000010, Instr.lt 2 .s64),
    (0b0_11_0101111_000011, Instr.le 3 .n64),
    (0b0_01_0110000_100110, Instr.addi 1 38),
    (0b0_10_0110001_100110, Instr.shli 2 38)]
    (fun p => decodeTableWord 16 p.1 == some p.2) = true := by decide
theorem test_words_float : List.all [
    (0b0_11_0110010_000000, Instr.fadd 3),
    (0b0_01_0110011_000000, Instr.fsub 1),
    (0b0_10_0110100_000000, Instr.fmul 2),
    (0b0_11_0110101_000000, Instr.fma 3),
    (0b0_01_0110110_000000, Instr.fdiv 1),
    (0b0_10_0110111_000000, Instr.fsqrt 2),
    (0b0_11_0111000_000000, Instr.fneg 3),
    (0b0_01_0111001_000000, Instr.fabs 1),
    (0b0_10_0111010_000000, Instr.fsgn 2),
    (0b0_11_0111011_000001, Instr.fmin 3 true),
    (0b0_01_0111100_000001, Instr.fmax 1 true),
    (0b0_10_0111101_000010, Instr.fcmp 2 .le),
    (0b0_11_0111110_000000, Instr.fclass 3),
    (0b0_01_0111111_000100, Instr.frnd 1 .dyn),
    (0b0_10_1000000_000000, Instr.frcpa 2),
    (0b0_11_1000001_000000, Instr.frsqa 3),
    (0b0_01_1000010_000000, Instr.fexp2a 1),
    (0b0_10_1000011_000000, Instr.flog2a 2),
    (0b0_01_1000100_001000, Instr.pack2F16 1 .dyn),
    (0b0_10_1000100_000001, Instr.pack2B16 2),
    (0b0_11_1000101_000001, Instr.unpk2 3 .b16),
    (0b0_01_1000110_000110, Instr.ext 1 true .w32),
    (0b0_10_1000111_000001, Instr.qnt 2 .q4),
    (0b0_11_1001000_000001, Instr.dqnt 3 .q4)]
    (fun p => decodeTableWord 16 p.1 == some p.2) = true := by decide
theorem test_words_float_long : List.all [
    (0b10_011_000010001_100_001_011000000000, Instr.cvt 3 .b16 .n32 .rup)]
    (fun p => decodeTableWord 32 p.1 == some p.2) = true := by decide
theorem test_words_slots : List.all [
    (0b0_01_1001001_100110, Instr.ldl 1 38),
    (0b0_10_1001010_100110, Instr.stl 2 38),
    (0b0_11_1001011_000000, Instr.ldlx 3),
    (0b0_01_1001100_000000, Instr.stlx 1),
    (0b0_10_1001101_001000, Instr.give 2 8),
    (0b0_11_1001110_001000, Instr.claim 3 8)]
    (fun p => decodeTableWord 16 p.1 == some p.2) = true := by decide
theorem test_words_slots_long : List.all [
    (0b10_010_100000000_000_000_000000100111, Instr.rsr 2 .tcode),
    (0b10_011_100000001_000_000_000011000001, Instr.wsr 3 .tdeleg),
    (0b10_001_100000001_000_000_000000000000, Instr.wsrTstat 1),
    (0b10_010_100000001_000_000_000000000010, Instr.wsrTkstat 2),
    (0b10_011_100000001_000_000_000001000110, Instr.wsrEfh 3),
    (0b10_001_100000001_000_000_000010000001, Instr.wsrSsbase 1),
    (0b10_010_100000001_000_000_000010000010, Instr.wsrPtb 2),
    (0b10_011_100000001_000_000_000010000011, Instr.wsrAsidx 3),
    (0b10_001_100000001_000_000_000010000100, Instr.wsrCutdl 1)]
    (fun p => decodeTableWord 32 p.1 == some p.2) = true := by decide
theorem test_words_control : List.all [
    (0b0_01_1001111_000000, Instr.ret 1),
    (0b0_10_1010000_000000, Instr.exit 2),
    (0b0_11_1010001_000000, Instr.brx 3),
    (0b0_01_1010010_000000, Instr.callx 1),
    (0b0_10_1010011_100110, Instr.join 2 38),
    (0b0_11_1010100_000000, Instr.yield 3),
    (0b0_01_1010101_000010, Instr.prio 1 2)]
    (fun p => decodeTableWord 16 p.1 == some p.2) = true := by decide
theorem test_words_control_long : List.all [
    (0b10_010_000000000_100_000_000000001011, Instr.br 2 131083),
    (0b10_011_000000001_100_000_000000001011, Instr.brz 3 131083),
    (0b10_001_000000010_100_000_000000001011, Instr.brnz 1 131083),
    (0b10_010_000000011_100_000_000000001011, Instr.call 2 131083),
    (0b10_011_000000100_100_000_000000001011, Instr.meet 3 131083)]
    (fun p => decodeTableWord 32 p.1 == some p.2) = true := by decide
theorem test_words_memory_long : List.all [
    (0b10_010_000100000_000_011_100000000101, Instr.ld 2 .n16 2053),
    (0b10_011_000100001_000_011_100000000101, Instr.st 3 .w16 2053),
    (0b10_001_000100010_000_110_100000000101, Instr.ld2 1 2053),
    (0b10_010_000100011_000_110_100000000101, Instr.st2 2 2053),
    (0b10_011_000100100_010_110_100000000101, Instr.lds 3 .sector .w64 2053),
    (0b10_001_000100101_011_100_100000000101, Instr.ldsAcq 1 .pillar .s32 2053),
    (0b10_010_000100110_100_110_100000000101, Instr.sts 2 .device .w64 2053),
    (0b10_011_000100111_101_101_100000000101, Instr.stsRel 3 .system .w32 2053),
    (0b10_001_000101000_000_000_000000000000, Instr.phase 1 .slice),
    (0b10_010_000101000_001_001_000000000000, Instr.phaseP 2 .cluster),
    (0b10_011_000101000_010_010_000000000000, Instr.phaseO 3 .sector),
    (0b10_001_000101001_011_000_000000000000, Instr.icinv 1 .pillar),
    (0b10_010_000101010_000_001_100000000101, Instr.pref 2 .l2 2053)]
    (fun p => decodeTableWord 32 p.1 == some p.2) = true := by decide
theorem test_words_atomics_long : List.all [
    (0b10_011_001000011_101_101_100000000101, Instr.atomAdd 3 .ar .system .w32 2053),
    (0b10_001_001000100_000_110_100000000101, Instr.atomAnd 1 .plain .slice .w64 2053),
    (0b10_010_001001001_001_101_100000000101, Instr.atomOr 2 .acq .cluster .w32 2053),
    (0b10_011_001001110_010_110_100000000101, Instr.atomXor 3 .rel .sector .w64 2053),
    (0b10_001_001010011_011_101_100000000101, Instr.atomMinS 1 .ar .pillar .w32 2053),
    (0b10_010_001010100_100_110_100000000101, Instr.atomMinN 2 .plain .device .w64 2053),
    (0b10_011_001011001_101_101_100000000101, Instr.atomMaxS 3 .acq .system .w32 2053),
    (0b10_001_001011110_000_110_100000000101, Instr.atomMaxN 1 .rel .slice .w64 2053),
    (0b10_010_001100011_001_101_100000000101, Instr.atomXchg 2 .ar .cluster .w32 2053),
    (0b10_011_001100100_010_101_100000000101, Instr.atomFadd 3 .plain .sector 2053),
    (0b10_001_001101001_011_101_100000000101, Instr.atomFmin 1 .acq .pillar 2053),
    (0b10_010_001101110_100_101_100000000101, Instr.atomFmax 2 .rel .device 2053),
    (0b10_011_001110011_101_101_100000000101, Instr.cas 3 .ar .system .w32 2053)]
    (fun p => decodeTableWord 32 p.1 == some p.2) = true := by decide
theorem test_words_reductions_long : List.all [
    (0b10_001_010000000_000_110_100000000101, Instr.redAdd 1 .plain .slice .w64 2053),
    (0b10_010_010000101_001_101_100000000101, Instr.redAnd 2 .acq .cluster .w32 2053),
    (0b10_011_010001010_010_110_100000000101, Instr.redOr 3 .rel .sector .w64 2053),
    (0b10_001_010001111_011_101_100000000101, Instr.redXor 1 .ar .pillar .w32 2053),
    (0b10_010_010010000_100_110_100000000101, Instr.redMinS 2 .plain .device .w64 2053),
    (0b10_011_010010101_101_101_100000000101, Instr.redMinN 3 .acq .system .w32 2053),
    (0b10_001_010011010_000_110_100000000101, Instr.redMaxS 1 .rel .slice .w64 2053),
    (0b10_010_010011111_001_101_100000000101, Instr.redMaxN 2 .ar .cluster .w32 2053),
    (0b10_011_010100100_010_101_100000000101, Instr.redFadd 3 .plain .sector 2053),
    (0b10_001_010101001_011_101_100000000101, Instr.redFmin 1 .acq .pillar 2053),
    (0b10_010_010101110_100_101_100000000101, Instr.redFmax 2 .rel .device 2053)]
    (fun p => decodeTableWord 32 p.1 == some p.2) = true := by decide
theorem test_words_tasks : List.all [
    (0b0_11_1100000_000000, Instr.mwait 3)]
    (fun p => decodeTableWord 16 p.1 == some p.2) = true := by decide
theorem test_words_tasks_long : List.all [
    (0b10_010_101000000_000_000_000000000000, Instr.spawn 2),
    (0b10_011_101000001_000_000_000000000000, Instr.spawnw 3)]
    (fun p => decodeTableWord 32 p.1 == some p.2) = true := by decide
theorem test_words_tensors : List.all [
    (0b0_11_1011110_000000, Instr.ldt 3),
    (0b0_01_1011111_000000, Instr.stt 1)]
    (fun p => decodeTableWord 16 p.1 == some p.2) = true := by decide
theorem test_words_tensors_long : List.all [
    (0b10_011_100010000_000_000_000000000000, Instr.talloc 3),
    (0b10_001_100010001_000_000_000000000000, Instr.tfree 1),
    (0b10_010_100010010_000_000_000000000000, Instr.tdef 2),
    (0b10_011_100010011_000_000_000000000110, Instr.tget 3 6),
    (0b10_001_100010100_000_000_000000000110, Instr.tset 1 6),
    (0b10_010_100010101_110_000_000000000000, Instr.atomt 2 .cas .plain),
    (0b10_011_100010110_000_000_000000000000, Instr.tfill 3),
    (0b10_001_100010111_001_100_000000000000, Instr.tcol 1 true .max),
    (0b10_010_100011000_000_000_000000000000, Instr.tcopy 2)]
    (fun p => decodeTableWord 32 p.1 == some p.2) = true := by decide
theorem test_words_copies : List.all [
    (0b0_01_1100001_000110, Instr.seal 1 6),
    (0b0_10_1100010_000110, Instr.waitb 2 6),
    (0b0_01_1100011_010110, Instr.bar 1 22),
    (0b0_10_1100100_010110, Instr.bara 2 22),
    (0b0_11_1100101_010110, Instr.barw 3 22)]
    (fun p => decodeTableWord 16 p.1 == some p.2) = true := by decide
theorem test_words_copies_long : List.all [
    (0b10_101_110001010_110_100_100000110110, Instr.cpy 5 true 2 true 166 131),
    (0b10_001_100100000_000_000_000000000000, Instr.cpyl 1),
    (0b10_010_100100001_000_000_100000000011, Instr.cinit 2 2051),
    (0b10_011_100100010_000_000_100000000011, Instr.cwait 3 2051),
    (0b10_011_100100011_000_010_000000010110, Instr.barinit 3 .sector 22)]
    (fun p => decodeTableWord 32 p.1 == some p.2) = true := by decide
theorem test_words_frames_long : List.all [
    (0b10_001_100110000_000_000_100000000011, Instr.rowres 1 2051),
    (0b10_010_100110001_000_000_100000000011, Instr.suspend 2 2051),
    (0b10_011_100110010_000_000_100000000011, Instr.suspendk 3 2051),
    (0b10_001_100110011_000_000_000000000000, Instr.wakeRow 1),
    (0b10_010_100110011_000_001_100000000011, Instr.wakeSite 2 2051),
    (0b10_011_100110011_000_010_000000000000, Instr.wakeThr 3),
    (0b10_001_100110100_000_000_100000000011, Instr.flush 1 2051)]
    (fun p => decodeTableWord 32 p.1 == some p.2) = true := by decide
theorem test_words_matrix_long : List.all [
    (0b10_001_110010000_111_010_000000000000, Instr.mm 1 true true 5),
    (0b10_010_110010001_111_100_000000000000, Instr.mms 2 true true 6),
    (0b10_011_110010010_111_010_000000000010, Instr.mmstage 3 true true 5 2),
    (0b10_001_110010011_000_000_000000000010, Instr.mmflag 1 2),
    (0b10_010_110010011_000_001_000000000010, Instr.mmflagDrop 2 2)]
    (fun p => decodeTableWord 32 p.1 == some p.2) = true := by decide
theorem test_words_system : List.all [
    (0b0_10_1011001_000000, Instr.brk 2),
    (0b0_11_1011010_000000, Instr.sret 3),
    (0b0_01_1011011_000000, Instr.hret 1),
    (0b0_10_1011100_000110, Instr.tfld 2 6),
    (0b0_11_1011101_000110, Instr.tfst 3 6),
    (0b0_10_1010110_000000, Instr.qpoint 2),
    (0b0_11_1010111_000000, Instr.waitgp 3),
    (0b0_01_1011000_000000, Instr.defer 1)]
    (fun p => decodeTableWord 16 p.1 == some p.2) = true := by decide
theorem test_words_system_long : List.all [
    (0b10_001_100000100_000_000_000000000000, Instr.tlbinvPage 1),
    (0b10_010_100000100_000_001_000000000000, Instr.tlbinvSpace 2),
    (0b10_011_100000100_000_010_000000000000, Instr.tlbinvVf 3),
    (0b10_001_100000100_000_011_000000000000, Instr.tlbinvSplit 1),
    (0b10_010_100000101_000_000_000000000000, Instr.replay 2),
    (0b10_011_100000010_000_000_100000000011, Instr.syscall 3 2051),
    (0b10_001_100000011_000_000_100000000011, Instr.hcall 1 2051)]
    (fun p => decodeTableWord 32 p.1 == some p.2) = true := by decide
/-- R60: 11, S, 000, opcode, imm32. The first halfword stands on top. -/
theorem test_words_constants : List.all [
    (0b11_101_000_00000000_10000000000000000000000000000111, Instr.litx 5 0x80000007),
    (0b11_001_000_00000001_10000000000000000000000000000111, Instr.lith 1 0x80000007),
    (0b11_111_000_00000010_00111111100000000000000000000000, Instr.litf 7 0x3F800000)]
    (fun p => decodeTableWord 48 p.1 == some p.2) = true := by decide
/-- R43: a reserved bit that is set, an opcode or a code that is not assigned. -/
theorem test_words_unassigned : List.all [
    (0b0_00_0000000_000001, Enc.s 0x0001), (0b0_00_0001001_111111, Enc.s 0x027F), (0b0_00_0001111_000000, Enc.s 0x03C0),
    (0b0_00_0011000_000001, Enc.s 0x0601), (0b0_01_1001101_001001, Enc.s 0x3349), (0b0_00_1100110_000000, Enc.s 0x1980)]
    (fun p => decodeTableWord 16 p.1 == some (.unassignedEncoding p.2)) = true := by decide
theorem test_words_unassigned_long : List.all [
    (0b10_000_000100001_000_000_000000000000, Enc.l 0x80840000), (0b10_000_001100100_000_110_000000000000, Enc.l 0x81906000),
    (0b10_000_100000001_000_000_000000000011, Enc.l 0x84040003), (0b10_000_110000000_001_000_000000000000, Enc.l 0x86008000)]
    (fun p => decodeTableWord 32 p.1 == some (.unassignedEncoding p.2)) = true := by decide
/-- R38, R39: the bytes of an instruction, and the bytes after it; an instruction that is cut off is refused by name. -/
theorem test_bytes : decode [0x80, 0x80, 0xF8, 0x4F, 0x7D, 0x20] = .ok (.ld 0 .s32 (-8), [0x7D, 0x20]) ∧
    decode [0x00, 0xC0, 0x34] = .error .truncated ∧ decode [0x80] = .error .truncated ∧
    (encode (.ld 0 .s32 (-8))).map Enc.bytes = some [0x80, 0x80, 0xF8, 0x4F] := by decide

-- Well-formedness: one term that each check of `Instr.wf` refuses, and its neighbour that passes.
/-- Depths, counts, types (R92, R97, R124). -/
theorem test_wf_fields : List.all [
    (Instr.pick 0 63, Instr.pick 0 62), (.bury 0 63, .bury 0 62), (.give 0 0, .give 0 1), (.give 0 9, .give 0 8),
    (.claim 0 0, .claim 0 1), (.claim 0 9, .claim 0 8), (.abs 0 .n32, .abs 0 .s32), (.adds 0 .n64, .adds 0 .s64),
    (.subs 0 .n32, .subs 0 .s32), (.wsr 0 .mpc, .wsr 0 .fctl), (.wsr 0 .tstat, .wsr 0 .htvec),
    (.cpy 0 false 1 false 3 128, .cpy 0 true 1 false 3 128), (.unassignedEncoding (.s 0x8000), .unassignedEncoding (.s 0x7FFF)),
    (.unassignedEncoding (.l 0x40000000), .unassignedEncoding (.l 0xBFFFFFFF)),
    (.unassignedEncoding (.x 0x800000000000), .unassignedEncoding (.x 0xFFFFFFFFFFFF))]
    (fun p => !p.1.wf && p.2.wf) = true := by decide
/-- Slices, places, lanes, slots, sites (R9). -/
theorem test_wf_units : List.all [
    (Instr.claimGrant 576 0, Instr.claimGrant 575 0), (.copySlotGrant 576, .copySlotGrant 575), (.copyRequestIssue 576 0 0, .copyRequestIssue 575 0 0),
    (.copyRequestComplete 576 0 0, .copyRequestComplete 575 0 0), (.matrixQueueGrant 576, .matrixQueueGrant 575),
    (.gateEntryGrant 576, .gateEntryGrant 575), (.gatedCommandEntry 576 0, .gatedCommandEntry 575 0),
    (.matrixCommandStart 576, .matrixCommandStart 575), (.multicastWindowExpiry 576, .multicastWindowExpiry 575),
    (.matrixCommandComplete 576, .matrixCommandComplete 575), (.nvmeTimeout 576 0 0, .nvmeTimeout 575 0 0),
    (.machineCheck 576 .binUnit, .machineCheck 575 .binUnit), (.stagedCommandEntry 0 4, .stagedCommandEntry 0 3),
    (.mwaitWake ⟨0, 48, 0⟩ .write, .mwaitWake ⟨0, 47, 0⟩ .write), (.trackedResultArrival ⟨0, 0, 32⟩ 0, .trackedResultArrival ⟨0, 0, 31⟩ 0),
    (.trapEntry ⟨0, 0, 0⟩ ⟨0, 0, 0, 0, false⟩, .trapEntry ⟨0, 0, 0⟩ ⟨1, 0, 0, 0, false⟩),
    (.trapEntry ⟨0, 0, 0⟩ ⟨19, 0, 0, 0, false⟩, .trapEntry ⟨0, 0, 0⟩ ⟨18, 0, 0, 0, false⟩), (.refill 0 48, .refill 0 47),
    (.waveSave 576 0, .waveSave 575 0), (.spawnWaitWake 0 0 48, .spawnWaitWake 0 0 47), (.resumeLoad 0 128 0 48, .resumeLoad 0 128 0 47)]
    (fun p => !p.1.wf && p.2.wf) = true := by decide
/-- Tasks, contexts, tiles, sectors, clusters. -/
theorem test_wf_tasks : List.all [
    (Instr.taskPlacement 0 [], Instr.taskPlacement 0 [0]), (.taskPlacement 0 [1, 1], .taskPlacement 0 [1, 2]), (.waveFormation 0 48, .waveFormation 0 47),
    (.tearDown 16 0 0, .tearDown 15 0 0), (.frplay 0 16384, .frplay 0 16383), (.gracePeriodBegin 16 0, .gracePeriodBegin 15 0),
    (.gracePeriodComplete 16 0, .gracePeriodComplete 15 0), (.wheyDelivery 16 0, .wheyDelivery 15 0), (.contextCreate 0 16384 0, .contextCreate 0 16383 0),
    (.frameAgeExpiry 0 127 0, .frameAgeExpiry 0 128 0), (.frameAgeExpiry 0 128 64, .frameAgeExpiry 0 128 63), (.fbstatPop ⟨32, none⟩, .fbstatPop ⟨31, none⟩),
    (.fbstatDroppedClear 32, .fbstatDroppedClear 31), (.cutArrival 0 0 576, .cutArrival 0 0 575), (.cutDeadline 16 0 0, .cutDeadline 15 0 0),
    (.waveRestore 0 0 0 0 48, .waveRestore 0 0 0 0 47), (.clockRatioChange 0 5, .clockRatioChange 0 4), (.controlIntervalEnd 96 [] false, .controlIntervalEnd 95 [] false)]
    (fun p => !p.1.wf && p.2.wf) = true := by decide
/-- Queue slots, reels, drives, links. -/
theorem test_wf_host : List.all [
    (Instr.launchPacket 64, Instr.launchPacket 63), (.copyPacket 64 0, .copyPacket 63 0), (.signalPacket 64, .signalPacket 63),
    (.waitPacket 64, .waitPacket 63), (.waitConditionMet 64, .waitConditionMet 63), (.splicePacket 64, .splicePacket 63),
    (.quiescePacket 64, .quiescePacket 63), (.nopPacket 64, .nopPacket 63), (.invalidPacket 64, .invalidPacket 63),
    (.packetCompletion 16 0 0, .packetCompletion 15 0 0), (.kick 0 4096, .kick 0 4095), (.wheelOpen 0 8 1 0, .wheelOpen 0 7 1 0),
    (.wheelOpen 0 0 0 0, .wheelOpen 0 0 4095 0), (.wheelClose 256, .wheelClose 255), (.thermalEvent (.die 2) 0, .thermalEvent (.die 1) 0),
    (.thermalEvent (.stack 8) 0, .thermalEvent (.stack 7) 0), (.thermalEvent (.die 0) 5, .thermalEvent (.die 0) 4), (.eventClear 16 0, .eventClear 15 0),
    (.functionLevelReset 16, .functionLevelReset 15), (.flit 19 none true, .flit 18 none true), (.linkDown 18, .linkDown 17),
    (.attestationReport 0 [], .attestationReport 0 (List.replicate 32 0)), (.virtualFunctionEnable 16 0 0, .virtualFunctionEnable 15 0 0),
    (.reelRegistration 0 0 0 4096 0, .reelRegistration 0 0 0 4095 0), (.reelRegistration 0 0 0 0 4, .reelRegistration 0 0 0 0 3)]
    (fun p => !p.1.wf && p.2.wf) = true := by decide

-- The decoder, and a step.
theorem test_hyp_decode_encode : (Instr.unassignedEncoding (.s 0x0001)).wf = true ∧ encode (.unassignedEncoding (.s 0x0001)) = some (.s 0x0001) ∧
    decodeEnc (.s 0x0001) = none ∧ (Instr.cpy 7 true 3 false 255 254).wf = true ∧ (encode (.cpy 7 true 3 false 255 254)).isSome = true := by decide
/-- `add.s64`, S = 1, at address 0. -/
def sFetch : State := State.reset.withFetchWord 16 0x2402
def turnB (s : State) (i : Instr) : Bool :=
  match s.nextTurn with
  | some r => (s.owedTrap r.2.2.2.strand.lanes).isNone && (match r.2.2.2.what with
      | .instr j => j == i
      | _ => false)
  | none => false
theorem turn_of {s : State} {i : Instr} (h : turnB s i = true) :
    ∃ c w v x, s.nextTurn = some (c, w, v, x) ∧ s.owedTrap x.strand.lanes = none ∧ x.what = .instr i := by
  unfold turnB at h
  split at h
  · rename_i r hr
    obtain ⟨c, w, v, x⟩ := r
    simp only [Bool.and_eq_true, Option.isNone_iff_eq_none] at h
    refine ⟨c, w, v, x, hr, h.1, ?_⟩
    have h2 := h.2
    split at h2
    · rename_i j hj
      rw [hj, beq_iff_eq.mp h2]
    · cases h2
  · cases h
theorem test_hyp_step : ∃ j s1 c w v x, sFetch.inputs = [] ∧ sFetch.trapOrphans.isNone = true ∧ sFetch.trapStarved.isNone = true ∧
    sFetch.noteDue.isNone = true ∧ sFetch.waitEnd = none ∧ sFetch.forced = none ∧ sFetch.nextResume = [] ∧ choose sFetch (sFetch.elective.length + 1) = (j, s1) ∧
    sFetch.elective.length ≤ j ∧ s1.nextTurn = some (c, w, v, x) ∧ s1.owedTrap x.strand.lanes = none ∧ x.what = .instr (.add 1 .s64) := by
  have he : sFetch.elective = [] := by decide
  obtain ⟨c, w, v, x, h1, h2, h3⟩ := turn_of (s := (choose sFetch (sFetch.elective.length + 1)).2) (i := .add 1 .s64) (by decide)
  exact ⟨_, _, c, w, v, x, rfl, by decide, by decide, by decide, by decide, by decide, by decide, rfl, by simp [he], h1, h2, h3⟩
/-- The halfword at address 0. -/
theorem test_hyp_fetch : ∃ l s1, sFetch.lane 0 = some l ∧
    sFetch.translate (sFetch.spaceOf 0) (sliceOf 0) (l.ts.mode == .h) (l.ts.mode == .u) .fetch (0 % 2 ^ 56) = (.ok codePage, s1) ∧
    sFetch.isPoison codePage 2 = false ∧ sFetch.isEcc codePage 2 = false ∧ Uncontested sFetch codePage 2 := by
  obtain ⟨s1, h⟩ := acc_of (show (sFetch.translate (sFetch.spaceOf 0) (sliceOf 0) false true .fetch (0 % 2 ^ 56)).1 = .ok codePage by decide)
  exact ⟨_, s1, rfl, h, by decide, by decide, uncontested_of rfl⟩
theorem test_hyp_fetch_more : ∃ l h bs u t, sFetch.lane 0 = some l ∧ sFetch.fetchHalf 0 l l.pc.toNat = (.half h, u) ∧
    u.fetchMore 0 l (l.pc.toNat + 2) (lengthOf (BitVec.ofNat 16 (leNat h)) - 1) h = (.half bs, t) ∧ decode bs = .ok (.add 1 .s64, []) := by
  obtain ⟨u, h⟩ := acc_of (show (sFetch.fetchHalf 0 { thx := 0, pc := 0 } 0).1 = .half [0x02, 0x24] by decide)
  exact ⟨_, _, _, u, _, rfl, h, rfl, by decide⟩
/-- An input that ends a step in a next state, in a state whose memory has its canonical form. -/
theorem test_hyp_keeps_memory : ({ State.reset with inputs := [.schedulerTick] } : State).MemWf ∧
    ∃ t, step { State.reset with inputs := [.schedulerTick] } = .next t := by
  refine ⟨by unfold State.MemWf; decide, ?_⟩
  rw [step_input rfl]
  split
  · exact ⟨_, rfl⟩
  · exact ⟨_, rfl⟩

-- Fetches after `icinv`, wakes of a named thread, a row that is reserved.
/-- Another thread has written the halfword at address 0; an `icinv` on the slice has observed the write. -/
def sIcinv : State := { sFetch with
  log := [{ someWrite with addr := codePage, new := [0x02, 0x24], old := [0, 0] }], icinvs := [⟨0, .slice, 0, [(codePage, 3)]⟩] }
theorem test_hyp_icinv_fetch : ∃ r s1 x pre post, r ∈ sIcinv.icinvs ∧ r.space = sIcinv.spaceOf 0 ∧ scopeJoins r.scope r.slice (sliceOf 0) = true ∧
    sIcinv.translate (sIcinv.spaceOf 0) (sliceOf 0) false true .fetch (0 % 2 ^ 56) = (.ok codePage, s1) ∧
    sIcinv.isPoison codePage 2 = false ∧ sIcinv.isEcc codePage 2 = false ∧ (0 : Nat) < 2 ∧ sIcinv.log = pre ++ x :: post ∧
    x.covers (codePage + 0) = true ∧ x.id ≤ mgetD r.view (codePage + 0) 0 := by
  obtain ⟨s1, h⟩ := acc_of (show (sIcinv.translate (sIcinv.spaceOf 0) (sliceOf 0) false true .fetch (0 % 2 ^ 56)).1 = .ok codePage by decide)
  exact ⟨_, s1, _, [], [], List.mem_cons_self, by decide, by decide, h, by decide, by decide, by decide, rfl, by decide, by decide⟩
/-- Thread 4 is at `mwait` behind two lanes: one of thread 0, and one of thread 4 that is at no `mwait`. -/
def lnMwait4 : Lane := { lnMwait with thx := 4 }
def sNamed : State := { one (ln [4]) with lanes := [(0, ln [4]), (1, { ln [] with thx := 4 }), (2, lnMwait4)] }
theorem test_hyp_wake_thr : ∃ pre post, Alone sNamed (.wakeThr 0) 0 (ln [4]) ∧ (4 : Nat) = ((ln [4]).operand (.wakeThr 0) 0).toNat ∧
    sNamed.lanes = pre ++ (2, lnMwait4) :: post ∧ atMwaitOf sNamed 0 4 (2, lnMwait4) ∧ ∀ p, p ∈ pre → ¬ atMwaitOf sNamed 0 4 p := by
  refine ⟨[(0, ln [4]), (1, { ln [] with thx := 4 })], [], alone_of (by decide), by decide, rfl, ?_, ?_⟩ <;> unfold atMwaitOf <;> decide
/-- Row 3, the last, is reserved by this lane. -/
def lnRes : Lane := { ln [8, 9] with resv := some (130, 3) }
theorem test_hyp_suspend_reserved : ∀ i, i = .suspend 0 5 ∨ i = .suspendk 0 5 → ∃ x, (sFrame 8 0 7 lnRes).taskOf 0 = some x ∧
    Alone (sFrame 8 0 7 lnRes) i 0 lnRes ∧ Quiet (sFrame 8 0 7 lnRes) 0 ∧ lnRes.back = 0 ∧ siteHead x 5 = some 130 ∧
    mget x.tens 130 = some (frameEntry 8 0 7) ∧ frSite (frameEntry 8 0 7) = (5#12).toNat ∧
    frK (frameEntry 8 0 7) = lnRes.stk.length ∧ x.editing 130 = false := by
  rintro i (rfl | rfl) <;>
  exact ⟨_, rfl, alone_of (by decide), quiet_of (by decide), by decide, by decide, by decide, by decide, by decide, by decide⟩
/-- The frame of the new table is another device's: through an extent; and through a leaf of which only the first 64 bytes lie in
the window that is exported to the virtual function. -/
def sSplitRemote : State := { sSplit lnSplit with
  tasks := [(0, { task0 with extents := [{ page := 1, w := true, frames := [remoteKey 5 0] }] })]
  vfs := vfAway }
def lnSplitPart : Lane := lnS [0x20000, 0x40000000]
def sSplitPart : State := { sSplit lnSplitPart with
  vfs := [(0, { hsbase := 1, grant := [(0, hbmSize)], exports := [(5, 0, 64)] })]
  mem := pokes (sSplit lnSplitPart).mem 0x50010 (leBytes 8 (5 * 2 ^ 56 + 0x81F)) }
theorem test_hyp_split_remote : ∃ s1, Alone sSplitRemote (.tlbinvSplit 0) 0 lnSplit ∧ Quiet sSplitRemote 0 ∧
    sSplitRemote.reach 0 lnSplit .write true (lnSplit.operand (.tlbinvSplit 0) 0) 65536 = (.ok (remoteKey 5 0), s1) ∧
    keyExists (remoteKey 5 0) ∧ isRemote (remoteKey 5 0) = true ∧ s1.pageCause 0 lnSplit (lnSplit.operand (.tlbinvSplit 0) 0).toNat = none ∧
    s1.middleOf 0 ((lnSplit.operand (.tlbinvSplit 0) 1).toNat % 2 ^ 56) = .inr (some 0x40010) := by
  obtain ⟨s1, h⟩ := acc_of (show (sSplitRemote.reach 0 lnSplit .write true 0x10000 65536).1 = .ok (remoteKey 5 0) by decide)
  have e : s1 = (sSplitRemote.reach 0 lnSplit .write true 0x10000 65536).2 := by rw [h]
  subst e
  exact ⟨_, alone_of (by decide), quiet_of (by decide), h, exists_of (by decide), by decide, by decide +kernel, by decide⟩
theorem test_hyp_split_part : ∃ s1 c, Alone sSplitPart (.tlbinvSplit 0) 0 lnSplitPart ∧ Quiet sSplitPart 0 ∧
    sSplitPart.reach 0 lnSplitPart .write true (lnSplitPart.operand (.tlbinvSplit 0) 0) 65536 = (.ok (remoteKey 5 0), s1) ∧
    isRemote (remoteKey 5 0) = true ∧ s1.pageCause 0 lnSplitPart (lnSplitPart.operand (.tlbinvSplit 0) 0).toNat = some c := by
  obtain ⟨s1, h⟩ := acc_of (show (sSplitPart.reach 0 lnSplitPart .write true 0x20000 65536).1 = .ok (remoteKey 5 0) by decide)
  have e : s1 = (sSplitPart.reach 0 lnSplitPart .write true 0x20000 65536).2 := by rw [h]
  subst e
  exact ⟨_, xlCause 5 0x20040 .write 5 2, alone_of (by decide), quiet_of (by decide), h, by decide, by decide⟩
/-- The oldest record of sector 0 is of page 2, whose leaf lies at 0x50010: a frame that the grant holds, and one beyond it. -/
def record0 : FaultRec := { space := 0, page := 2, lanes := 1, eng := false, slice := 0, reason := 1, level := 2, kinds := 1 }
def sMap : State := { one (ln []) with sectors := [(0, { recs := [record0] })], vfs := [(0, { hsbase := 1, grant := [(0, 0x120000)] })]
                                       mem := fetchTables [] }
theorem test_hyp_map : (sMap.sector 0).recs.head? = some record0 ∧ sMap.leafOf record0.space record0.page = some 0x50010 ∧
    sMap.leafAllowed (record0.space / 16384) 0x11001F = true ∧ sMap.leafAllowed (record0.space / 16384) 0x12001F = false ∧
    sMap.leafOf record0.space 0x4000 = none := by decide
/-- R367: what the firmware was told to map is mapped inside the grant, and not outside it. -/
theorem test_map : (match exec (.fbstatPop ⟨0, some 0x11001F⟩) sMap with | .next t => wordAt t 0x50010 == 0x11001F | _ => false) = true ∧
    (match exec (.fbstatPop ⟨0, some 0x12001F⟩) sMap with | .next t => t.mem == sMap.mem | _ => false) = true := by decide

-- Queues: kicks before registration, blocks that are loaded, boosted contexts.
theorem test_hyp_kick_early : mget sIdle.reels (reelKey 0 2) = none := by decide
def reelBlock : Reel := { reelIdle with block := leBytes 8 0x10000 ++ leBytes 8 0 ++ List.replicate 240 0 }
def sBlock : State := { sIdle with reels := [(reelKey 0 1, reelBlock)] }
theorem test_hyp_tick_block : sBlock.ready = true ∧ sBlock.take = some 0 ∧ sBlock.ending = false ∧
    sBlock.reels = [(reelKey reelBlock.vf reelBlock.rnum, reelBlock)] ∧ reelBlock.vf = 0 ∧ reelBlock.slot = none ∧ reelBlock.pending = true ∧
    reelBlock.block ≠ [] ∧ reelIdle.block = [] := by decide
/-- A context whose grace period is late, with a thread that is saved. -/
def sBoosted : State := { sTake 100 with ctxs := [(0, { root := 0x20000, gBegun := 2, gDone := 1, saved := [savedWave], boost := true })] }
theorem test_hyp_take_boosted : sBoosted.take = some 0 ∧ sBoosted.ending = false ∧ sBoosted.owes 0 = true ∧ sBoosted.boosted ≠ [] ∧
    (sTake 100).owes 0 = false := by decide

/-- RFC 8032, 7.4, "Blank": the public key, and the signature of the empty message. -/
def keyBlank : List Byte :=
  [0x5F, 0xD7, 0x44, 0x9B, 0x59, 0xB4, 0x61, 0xFD, 0x2C, 0xE7, 0x87, 0xEC, 0x61, 0x6A, 0xD4, 0x6A, 0x1D, 0xA1, 0x34, 0x24,
   0x85, 0xA7, 0x0E, 0x1F, 0x8A, 0x0E, 0xA7, 0x5D, 0x80, 0xE9, 0x67, 0x78, 0xED, 0xF1, 0x24, 0x76, 0x9B, 0x46, 0xC7, 0x06,
   0x1B, 0xD6, 0x78, 0x3D, 0xF1, 0xE5, 0x0F, 0x6C, 0xD1, 0xFA, 0x1A, 0xBE, 0xAF, 0xE8, 0x25, 0x61, 0x80]
def sigBlank : List Byte :=
  [0x53, 0x3A, 0x37, 0xF6, 0xBB, 0xE4, 0x57, 0x25, 0x1F, 0x02, 0x3C, 0x0D, 0x88, 0xF9, 0x76, 0xAE, 0x2D, 0xFB, 0x50, 0x4A,
   0x84, 0x3E, 0x34, 0xD2, 0x07, 0x4F, 0xD8, 0x23, 0xD4, 0x1A, 0x59, 0x1F, 0x2B, 0x23, 0x3F, 0x03, 0x4F, 0x62, 0x82, 0x81,
   0xF2, 0xFD, 0x7A, 0x22, 0xDD, 0xD4, 0x7D, 0x78, 0x28, 0xC5, 0x9B, 0xD0, 0xA2, 0x1B, 0xFD, 0x39, 0x80, 0xFF, 0x0D, 0x20,
   0x28, 0xD4, 0xB1, 0x8A, 0x9D, 0xF6, 0x3E, 0x00, 0x6C, 0x5D, 0x1C, 0x2D, 0x34, 0x5B, 0x92, 0x5D, 0x8D, 0xC0, 0x0B, 0x41,
   0x04, 0x85, 0x2D, 0xB9, 0x9A, 0xC5, 0xC7, 0xCD, 0xDA, 0x85, 0x30, 0xA1, 0x13, 0xA0, 0xF4, 0xDB, 0xB6, 0x11, 0x49, 0xF0,
   0x5A, 0x73, 0x63, 0x26, 0x8C, 0x71, 0xD9, 0x58, 0x08, 0xFF, 0x2E, 0x65, 0x26, 0x00]
theorem test_ed448 : Crypto.ed448Verify keyBlank [] sigBlank = true := by decide +kernel
-- A wheel that opens. The key is the neutral point of the curve, for which the signature of S = 0 holds whatever is signed.
def neutral : List Byte := 1 :: List.replicate 56 0
def neutralSig : List Byte := neutral ++ List.replicate 57 0
theorem mul_by_zero (u : Crypto.Point) (n : Nat) : Crypto.mul u 0 n = Crypto.zero := by
  induction n generalizing u with
  | zero => rfl
  | succ n ih => simp [Crypto.mul, ih]
theorem add_neutral : Crypto.add Crypto.zero Crypto.zero = Crypto.zero := by decide +kernel
theorem mul_neutral (k n : Nat) : Crypto.mul Crypto.zero k n = Crypto.zero := by
  induction n generalizing k with
  | zero => rfl
  | succ n ih => simp [Crypto.mul, ih, add_neutral]
theorem decode_neutral : Crypto.decodePoint neutral = some Crypto.zero := by decide +kernel
theorem verify_neutral (m : List Byte) : Crypto.ed448Verify neutral m neutralSig = true := by
  have h1 : neutralSig.take 57 = neutral := by decide
  have h2 : neutralSig.drop 57 = List.replicate 57 0 := by decide
  have h3 : Crypto.natLe (List.replicate 57 0) = 0 := by decide
  have h4 : neutralSig.length = 114 := by decide
  unfold Crypto.ed448Verify
  simp only [h1, h2, h3, h4, decode_neutral, mul_by_zero, mul_neutral, add_neutral]
  decide +kernel
def rind0 : List Byte :=
  leBytes 8 0x004C454548574C4F ++ leBytes 2 1 ++ List.replicate 52 0 ++ [1, 0] ++ leBytes 4 1 ++ List.replicate 60 0 ++
  [0x2D, 0x01, 0xAD, 0x5A, 0x43, 0x21, 0x74, 0xDC, 0x4D, 0x2D, 0x42, 0x4C, 0xE6, 0x91, 0x01, 0x04, 0x49, 0x90, 0xC5, 0xB6, 0xA0, 0xD0, 0x6F, 0xAD, 0xF1, 0x1F, 0x39, 0x4C, 0x9F, 0x98, 0x7A, 0xBD] ++ neutralSig
/-- A rind at LBA 8 of namespace 1 of drive 0, of one segment, and a wheel in entry 0. -/
def sRind : State := { one (ln []) with
  mem := pokes [] (flashKey 0 1 (8 * 4096)) rind0, vfs := [(0, { hsbase := 1, keys := [neutral] })], wheels := [(0, wheel0)] }
theorem test_hyp_wheel_open : sRind.wheelRefusal 0 0 1 8 = none ∧ mget sRind.wheels 1 = none ∧
    ∀ m, m < 1 → mget sRind.wheels m ≠ none := by
  refine ⟨?_, by decide, by decide⟩
  have h1 : (sRind.vf 0).keys.find? (fun k => Crypto.shake256 32 k ==
    rdField (peeks sRind.mem (flashKey 0 1 (8 * 4096)) 4096) 0x80 32) = some neutral := by decide +kernel
  have h2 : rdField (peeks sRind.mem (flashKey 0 1 (8 * 4096)) 4096) 0xA0 114 = neutralSig := by decide +kernel
  unfold State.wheelRefusal
  simp only [h1, h2, verify_neutral]
  decide +kernel

def flashIn0 : Copy := { copyOne with src := flashDesc }
def sFlashIn0 : State := { sCopyOne with mem := pokes [] (padKey 0 0) [9, 9, 9, 9, 9], slices := [(0, { cycle := 0, copies := [flashIn0] })] }
def reqIn : Req := { id := 0, kind := .elem, line := padKey 0 0 / 64, issued := true }
theorem test_hyp_timeout_in : sFlashIn0.bad = none ∧ sFlashIn0.copyAt 0 7 = some flashIn0 ∧ flashIn0.reqs.find? (fun x => x.id == 0) = some reqIn ∧
    reqIn.issued = true ∧ reqIn.done = false ∧ (sFlashIn0.slice 0).parked 7 0 = false ∧ flashIn0.drive.isSome = true ∧
    (geomOf flashIn0.dst).kind ≠ 4 ∧ (∃ x s1 ws bad, sFlashIn0.tryReq flashIn0 0 reqIn = (x, s1) ∧ x.out = .write ws bad ∧ ws ≠ []) ∧
    flashIn0.ctr = some 1 ∧ flashIn0.task = some 0 ∧ (sFlashIn0.task 0).isSome = true :=
  ⟨rfl, by decide, by decide, rfl, rfl, by decide, by decide, by decide, ⟨_, _, _, _, rfl, rfl, by decide⟩, by decide, by decide, by decide⟩
/-- R377: the bytes of a request that timed out are zero and poisoned, and the counter has status 0x0212. -/
theorem test_timeout : (match exec (.nvmeTimeout 0 7 0) sFlashIn0 with
    | .next t => peeks t.mem (padKey 0 0) 5 == [0, 0, 0, 0, 9] && t.isPoison (padKey 0 0) 1 &&
        (t.task 0).any (fun y => (mgetD y.counters 1 {}).status == 0x0212)
    | _ => false) = true := by decide
/-- From the chip to a block of flash, of which another request has filled a byte. -/
def flashOut : Copy := { copyOne with dst := flashDesc, reqs := [{ id := 0, kind := .elem, line := 2 ^ 64 + 8, issued := true }], out := [(flashKey 0 0 5, (7, 4))] }
def reqOut : Req := { reqIn with line := 2 ^ 64 + 8 }
def sFlashOut : State := { sCopyOne with slices := [(0, { cycle := 0, copies := [flashOut] })] }
theorem test_hyp_timeout_out : sFlashOut.copyAt 0 7 = some flashOut ∧ flashOut.drive.isSome = true ∧ (geomOf flashOut.dst).kind = 4 ∧
    (∀ p, p ∈ flashOut.out → 2 ^ 90 ≤ p.1) ∧
    ∀ ws bad, (sFlashOut.tryReq flashOut 0 reqOut).1.out = .write ws bad → ∀ p, p ∈ ws → 2 ^ 90 ≤ p.1 := by
  refine ⟨by decide, by decide, by decide, by decide, fun ws bad h => ?_⟩
  rw [show (sFlashOut.tryReq flashOut 0 reqOut).1.out = .fail 18 from by decide] at h
  cases h

-- Flits, resets, the step.
/-- A FetchAdd of the host at the last word of memory, and a store to the window of another device. -/
def askAdd : Option (Nat × Nat × OuterOp) := some (192, hbmSize - 8, .atomic .add .w64 1 0)
def askStore : Option (Nat × Nat × OuterOp) := some (5, 0x110000, .store 7)
theorem test_hyp_flit : mget (one (ln [])).linksDown 18 = none ∧ mget (one (ln [])).linksDown 17 = none ∧ (18 : Nat) < 19 ∧
    Uncontested (one (ln [])) (hbmSize - 8) 8 ∧ askAdd = some (192, hbmSize - 8, .atomic .add .w64 1 0) ∧ (8 : Nat) = widthOf .w64 ∧
    (hbmSize - 8) % 8 = 0 ∧ (one (ln [])).broken (hbmSize - 8) 8 = false ∧ hostDoes .add = true ∧ askStore = some (5, 0x110000, .store 7) :=
  ⟨by decide, by decide, by decide, uncontested_of rfl, rfl, by decide, by decide, by decide, by decide, rfl⟩
theorem test_hyp_reset_kicked : (∃ r, mget sIdle.reels (reelKey 0 1) = some r ∧ r.pending = true) := ⟨reelIdle, by decide, rfl⟩

/-- The commands of two members of a gang wait, the second in its window; and both in their windows, which have ended. -/
def gangCmd (id : Nat) (w : Bool) (r : Nat := 64) : MCmd := { matCmd with id := id, tag := 3, windowed := w, ready := if w then r else 0 }
def sGang (w : Bool) : State := { sHead matCmd [0, 1] with
  slices := [(0, { slice0 with mq := [gangCmd 7 w, gangCmd 9 false] }), (1, { slice0 with mq := [gangCmd 8 true (if w then 64 else 65)] })] }
theorem test_hyp_gang_begin : ∃ x, (sGang false).task 0 = some x ∧ x.members = [0, 1] ∧
    ((sGang false).slice 0).mq = gangCmd 7 false :: [gangCmd 9 false] ∧ (gangCmd 7 false).task = 0 ∧ (gangCmd 7 false).running = false ∧
    (gangCmd 7 false).windowed = false ∧ (gangCmd 7 false).tag ≠ 0 ∧
    ∀ m, m ∈ [0, 1] → m ≠ 0 → m ∈ (sGang false).openMates (gangCmd 7 false) [0, 1] :=
  ⟨_, rfl, rfl, by decide, rfl, rfl, rfl, by decide, by decide⟩
theorem test_hyp_window_end : ((sGang true).slice 0).mq = gangCmd 7 true :: [gangCmd 9 false] ∧ (gangCmd 7 true).windowed = true ∧
    (gangCmd 7 true).ready ≤ (sGang true).now ∧ joins (sGang true) [0, 1] (gangCmd 7 true) 0 ∧ joins (sGang true) [0, 1] (gangCmd 7 true) 1 ∧
    ¬ joins (sGang true) [0, 1] (gangCmd 7 true) 2 :=
  ⟨by decide, rfl, by decide, ⟨by decide, gangCmd 7 true, [gangCmd 9 false], by decide, rfl, rfl, rfl, by decide⟩,
    ⟨by decide, gangCmd 8 true, [], by decide, rfl, rfl, rfl, by decide⟩, fun h => absurd h.1 (by decide)⟩
theorem test_hyp_matrix_values : (sHead matCmd [0]).mEntries 0 128 129 130 1 = .inr (geomOf aEntry, geomOf bEntry, geomOf cEntry) ∧
    ChipSettled (sHead matCmd [0]) ∧ cellsApart 0 (geomOf aEntry) (geomOf bEntry) (geomOf cEntry) := by
  refine ⟨by decide, ⟨fun w hw => absurd hw (by simp [sHead, withTask, sMat, withTens, one, lanesOf, State.reset]), fun n _ => ⟨rfl, rfl⟩⟩, ?_⟩
  have h : ∀ i, i < 4 → ∀ j, j < 2 → cKey 0 (geomOf cEntry) i j = cKey 0 (geomOf cEntry) 0 0 + 4 * (2 * i + j) := by decide
  intro i j i' j' a b c d e
  have a : i < 4 := a
  have b : j < 2 := b
  have c : i' < 4 := c
  have d : j' < 2 := d
  rw [h i a j b, h i' c j' d]
  simp only [ne_eq, Prod.mk.injEq] at e
  omega
/-- R35: A is i + 1 in row i; B is k − 3 and k in its two columns. The sums over k from 0 to 7 are 4 (i + 1) and 28 (i + 1). -/
def sProduct : State := { sHead matCmd [0] with
  mem := pokes (pokes [] (padKey 0 0) ((List.range 32).map (fun n => BitVec.ofNat 8 (n / 8 + 1))))
    (padKey 0 0x100) ((List.range 16).map (fun n => BitVec.ofInt 8 (if n % 2 = 0 then n / 2 - 3 else n / 2))) }
theorem test_product : (match exec (.matrixCommandStart 0) sProduct with
    | .next t => (List.range 8).map (fun n => leNat (peeks t.mem (chipKey 2 0 (4 * n)) 4)) == [4, 28, 8, 56, 12, 84, 16, 112]
    | _ => false) = true := by decide +kernel
theorem test_product_cell : cellAt sProduct 0 matCmd (geomOf aEntry) (geomOf bEntry) (geomOf cEntry) 3 1 = 112 := by decide +kernel

/-- An operand of 3, which is no special input. -/
theorem test_hyp_approx : (0x40400000 : Nat) = f32In (ln []) 0x40400000 ∧ 0 < 0x40400000 % 2 ^ 31 ∧ 0x40400000 % 2 ^ 31 < 0x7F800000 := by decide

-- Results, each worked out by hand from the rule named.
/-- What lane 0 has on its stack after an instruction, top first. -/
def after0 (i : Instr) (vs : List Word) : Option (List Word) :=
  match exec i (one (ln vs)) with
  | .next t => (t.lane 0).map (fun (l : Lane) => l.stk.map (fun (e : Entry) => e.val))
  | _ => none
/-- R99: −7 / 2 = −3 and −7 rem 2 = −1; the most negative by −1 wraps; a divisor of zero gives all ones. -/
theorem test_div_toward_zero : after0 (.div 0 .s32) [2, -7] = some [-3] := by decide
theorem test_div_by_zero : after0 (.div 0 .n32) [0, 5] = some [0xFFFFFFFF] := by decide
theorem test_rem_sign : after0 (.rem 0 .s64) [2, -7] = some [-1] := by decide
theorem test_rem_by_zero : after0 (.rem 0 .s32) [0, 5] = some [5] := by decide
/-- R18: a 32-bit sum wraps and is extended by its sign, or by zero. -/
theorem test_add_wraps_signed : after0 (.add 0 .s32) [1, 0x7FFFFFFF] = some [0xFFFFFFFF80000000] := by decide
theorem test_add_wraps_unsigned : after0 (.add 0 .n32) [1, 0xFFFFFFFF] = some [0] := by decide
theorem test_sub_order : after0 (.sub 0 .s64) [3, 10] = some [7] := by decide
theorem test_mulh : after0 (.mulh 0 .s32) [-1, 5] = some [-1] := by decide
theorem test_rotl : after0 (.rotl 0 .n32) [33, 0x80000001] = some [3] := by decide
theorem test_shr_signed : after0 (.shr 0 .s32) [40, 0x80000000] = some [-1] := by decide
theorem test_sel : after0 (.sel 0 .s64) [0, 8, 9] = some [8] := by decide
theorem test_swap2 : after0 (.swap2 0) [1, 2, 3, 4, 5] = some [3, 4, 1, 2, 5] := by decide
theorem test_rot : after0 (.rot 0) [1, 2, 3] = some [3, 1, 2] := by decide
theorem test_bury : after0 (.bury 0 1) [7, 1, 2] = some [1, 7] := by decide
/-- R93: `lith` replaces bits 63:32. -/
theorem test_lith : after0 (.lith 0 0x12345678) [0xFFFFFFFF00000001] = some [0x1234567800000001] := by decide
/-- 1.0 + 2^−24 is a tie, to even; 3.0 × 0.5; 1/0 is infinite; the square root of 2. -/
theorem test_fadd_tie : after0 (.fadd 0) [0x33800000, 0x3F800000] = some [0x3F800000] := by decide
theorem test_fmul : after0 (.fmul 0) [0x3F000000, 0x40400000] = some [0x3FC00000] := by decide
theorem test_fdiv_zero : after0 (.fdiv 0) [0, 0x3F800000] = some [0x7F800000] := by decide
theorem test_fsqrt : after0 (.fsqrt 0) [0x40000000] = some [0x3FB504F3] := by decide
theorem test_fcmp_unordered : after0 (.fcmp 0 .uno) [0x7FC00000, 0] = some [1] := by decide
theorem test_cvt_saturates : after0 (.cvt 0 .f32 .s32 .rtz) [0x4F000000] = some [0x7FFFFFFF] := by decide
theorem test_cvt_half : after0 (.cvt 0 .f32 .f16 .rne) [0x3F800000] = some [0x3C00] := by decide
theorem test_ext_sign : after0 (.ext 0 true .w8) [0x180] = some [-128] := by decide

end Sys2Proof.Tests
end

section
/-! PROOFS. Writes to the registers of a thread (R127 to R129, R339). -/

namespace Sys2Proof.Numbers

open Sys2Proof Sys2Proof.Machine Sys2Proof.Claims

/-- A body that makes `f` of its own lane and completes without results acts on its lane alone. -/
theorem confined_of_modLane {s : State} {i : Instr} {body : State → Nat → List Entry → State × LOut} {f : Lane → Word → Lane}
    (hb : ∀ u k ops, body u k ops = (u.modLane k (fun l => f l (ops.getD 0 {}).val), .go [])) :
    Confined s i body (fun m => m = s.tasks) (fun _ l => f l (l.operand i 0)) (fun _ _ => []) (fun _ _ => none) where
  run := fun k _ l _ u hu hq hul =>
    ⟨u.modLane k (fun x => f x ((l.ops i).getD 0 {}).val), hb u k (l.ops i), hu.modLane k _, by simpa using hq,
      by rw [lane_modLane_self, hul, ops_getD_val]; rfl, fun _ hj => lane_modLane_ne u _ hj⟩

/-- An instruction that changes its own lane, and nothing else, completes in every lane of a strand that is ready. -/
theorem exec_modLane {s : State} {i : Instr} {body : State → Nat → List Entry → State × LOut} {f : Lane → Word → Lane}
    (hs : ReadyStrand s i) (hb : ∀ u k ops, body u k ops = (u.modLane k (fun l => f l (ops.getD 0 {}).val), .go [])) :
    ∃ t, finish (runEach i body s) = .next t ∧ Alike s t ∧ t.tasks = s.tasks ∧ OthersSame s t ∧
      EachDone s t i (fun _ l => f l (l.operand i 0)) (fun _ _ => []) (fun _ _ => none) := by
  obtain ⟨t, hrun, halike, htasks, hdone, hothers⟩ :=
    exec_of_confined (Q := fun m => m = s.tasks) hs rfl (confined_of_modLane hb)
  exact ⟨t, hrun, halike, htasks, hothers, hdone⟩

/-- What a write leaves of `TSTAT` (R129), in the words of the statement: a 1 in DZ or PRB clears it. -/
theorem tstatWrite_eq (t : TStat) (v : Word) : tstatWrite t v = { t with
    cute := v.getLsbD 9, dzt := v.getLsbD 8, prbm := v.getLsbD 4
    dz := if v.getLsbD 6 then false else t.dz, prb := if v.getLsbD 5 then false else t.prb } := by
  unfold tstatWrite
  cases v.getLsbD 6 <;> cases v.getLsbD 5 <;> simp

/-- `wsr` of a register that has no row of its own, where that register is the thread's. -/
theorem exec_wsr_thread {s : State} {w : StallL} {r : SReg} {f : Lane → Word → Lane} (hs : ReadyStrand s (.wsr w r))
    (hr : ∀ (u : State) k v, u.writeReg k r v = u.modLane k (fun l => f l v)) :
    ∃ t, exec (.wsr w r) s = .next t ∧ Alike s t ∧ t.tasks = s.tasks ∧ OthersSame s t ∧
      EachDone s t (.wsr w r) (fun _ l => f l (l.operand (.wsr w r) 0)) (fun _ _ => []) (fun _ _ => none) :=
  exec_modLane hs (fun u k ops => by rw [hr])

/-- Settles O14: every such write is one change of the lane, which the table `threadReg` names. -/
theorem threadRegisterWritesComplete : Obligations.ThreadRegisterWritesComplete := by
  intro i f s hf hs
  unfold threadReg at hf
  split at hf
  case h_8 w =>
    have hf := Option.some.inj hf
    refine exec_modLane (f := f) hs (fun u k ops => ?_)
    simp only [← hf, tstatWrite_eq]
  case h_9 => cases hf
  all_goals exact exec_wsr_thread hs (fun _ _ _ => Option.some.inj hf ▸ rfl)

end Sys2Proof.Numbers
end

section
/-! PROOFS. The integer instructions on bit patterns (R18, R97 to R102). -/

namespace Sys2Proof.Numbers

open Sys2Proof Sys2Proof.Machine Sys2Proof.Claims

-- A word as a pattern of its type, and back.
/-- The low bits of a word, as many as a type has. -/
def pat (t : ITy) (x : Word) : BitVec (tyBits t) := x.setWidth (tyBits t)
/-- A pattern extended to a word by the signedness of its type (R18). -/
def put (t : ITy) (b : BitVec (tyBits t)) : Word := if t.signed then b.signExtend 64 else b.setWidth 64
/-- The number that a pattern stands for. -/
def numOf (signed : Bool) {w : Nat} (b : BitVec w) : Int := if signed then b.toInt else b.toNat

theorem tyBits_le (t : ITy) : tyBits t ≤ 64 := by cases t <;> decide
theorem tyBits_pos (t : ITy) : 0 < tyBits t := by cases t <;> decide

theorem pat_put (t : ITy) (b : BitVec (tyBits t)) : pat t (put t b) = b := by
  have hw := tyBits_le t
  unfold pat put
  split
  · ext i hi
    rw [BitVec.getElem_setWidth, BitVec.getLsbD_signExtend, if_pos hi, BitVec.getLsbD_eq_getElem hi]
    simp; omega
  · rw [BitVec.setWidth_setWidth_of_le _ hw, BitVec.setWidth_eq]

theorem put_inj {t : ITy} {a b : BitVec (tyBits t)} : put t a = put t b ↔ a = b :=
  ⟨fun h => by rw [← pat_put t a, h, pat_put], fun h => by rw [h]⟩

theorem numOf_inj {sg : Bool} {w : Nat} {a b : BitVec w} : numOf sg a = numOf sg b ↔ a = b := by
  cases sg <;> simp [numOf, BitVec.toNat_inj, BitVec.toInt_inj]

@[simp] theorem ofInt_numOf (sg : Bool) {w : Nat} (b : BitVec w) : BitVec.ofInt w (numOf sg b) = b := by
  cases sg <;> simp [numOf]

theorem tyNat_eq (t : ITy) (x : Word) : tyNat t x = (pat t x).toNat := by simp [tyNat, pat]
theorem tyVal_eq (t : ITy) (x : Word) : tyVal t x = numOf t.signed (pat t x) := by
  unfold tyVal numOf
  rw [tyNat_eq, BitVec.toInt_eq_toNat_cond]
  have hp : 2 ^ tyBits t = 2 * 2 ^ (tyBits t - 1) := by cases t <;> rfl
  cases t.signed
  · simp
  · by_cases h : 2 * (pat t x).toNat < 2 ^ tyBits t
    · rw [if_neg (by simp; omega)]; simp [h]
    · rw [if_pos (by simp; omega)]; simp [h]
theorem tyPut_eq (t : ITy) (v : Int) : tyPut t v = put t (BitVec.ofInt _ v) := by
  cases t <;> simp [tyPut, put, ITy.signed, tyBits]
theorem onBits_eq (t : ITy) (f : (w : Nat) → BitVec w → BitVec w → BitVec w) (a b : Word) :
    onBits t f a b = put t (f _ (pat t a) (pat t b)) := by
  cases t <;> simp [onBits, put, pat, ITy.signed, tyBits]
theorem bitsRel_eq (t : ITy) (f : (w : Nat) → BitVec w → BitVec w → Bool) (a b : Word) :
    bitsRel t f a b = f _ (pat t a) (pat t b) := by
  cases t <;> simp [bitsRel, pat, tyBits]
theorem ofType_eq (t : ITy) (a : Word) : ofType t a = put t (pat t a) := onBits_eq ..

theorem tyPut_tyVal (t : ITy) (a : Word) : tyPut t (tyVal t a) = ofType t a := by
  rw [tyPut_eq, tyVal_eq, ofInt_numOf, ofType_eq]

theorem leBits_iff (t : ITy) (a b : Word) : leBits t a b = true ↔ tyVal t a ≤ tyVal t b := by
  rw [leBits, bitsRel_eq, tyVal_eq, tyVal_eq]
  cases t.signed
  · simp [numOf, BitVec.ule_iff_toNat_le]
  · simp [numOf, BitVec.sle_iff_toInt_le]
theorem ltBits_iff (t : ITy) (a b : Word) : ltBits t a b = true ↔ tyVal t a < tyVal t b := by
  rw [ltBits, bitsRel_eq, tyVal_eq, tyVal_eq]
  cases t.signed
  · simp [numOf, BitVec.ult_iff_toNat_lt]
  · simp [numOf, BitVec.slt_iff_toInt_lt]
theorem ofType_inj (t : ITy) (a b : Word) : ofType t a = ofType t b ↔ tyVal t a = tyVal t b := by
  rw [ofType_eq, ofType_eq, put_inj, tyVal_eq, tyVal_eq, numOf_inj]

-- From numbers of a width to patterns of it.
/-- A function of two numbers, reduced to the type, is an operation on patterns where it is one at the width of the type. -/
theorem tyPut_val (t : ITy) (F : Int → Int → Int) (f : (w : Nat) → BitVec w → BitVec w → BitVec w) (a b : Word)
    (h : ∀ x y : BitVec (tyBits t), BitVec.ofInt (tyBits t) (F (numOf t.signed x) (numOf t.signed y)) = f _ x y) :
    tyPut t (F (tyVal t a) (tyVal t b)) = onBits t f a b := by
  rw [tyPut_eq, tyVal_eq, tyVal_eq, h, onBits_eq]
/-- The same, of numbers without a sign. -/
theorem tyPut_nat (t : ITy) (F : Nat → Nat → Nat) (f : (w : Nat) → BitVec w → BitVec w → BitVec w) (a b : Word)
    (h : ∀ x y : BitVec (tyBits t), F x.toNat y.toNat % 2 ^ tyBits t = (f _ x y).toNat) :
    tyPut t (F (tyNat t a) (tyNat t b) : Nat) = onBits t f a b := by
  rw [tyPut_eq, tyNat_eq, tyNat_eq, onBits_eq, BitVec.ofInt_natCast, put_inj]
  exact BitVec.eq_of_toNat_eq (by rw [BitVec.toNat_ofNat, h])

/-- The upper half of a product of two numbers of w bits (R98). -/
theorem mulh_bits {w : Nat} (p : Int) :
    BitVec.ofInt w (p / 2 ^ w) = (BitVec.ofInt (2 * w) p >>> w).setWidth w := by
  refine BitVec.eq_of_toNat_eq (Int.ofNat_inj.1 ?_)
  have hpos : (0 : Int) < 2 ^ w := by positivity
  have hww : (2 : Int) ^ (2 * w) = 2 ^ w * 2 ^ w := by rw [two_mul, pow_add]
  have hq : p % 2 ^ (2 * w) / 2 ^ w = p / 2 ^ w - 2 ^ w * (p / 2 ^ (2 * w)) := by
    rw [Int.emod_def, hww, mul_assoc, Int.sub_mul_ediv_left _ _ hpos.ne']
  have h0 : 0 ≤ p % 2 ^ (2 * w) := Int.emod_nonneg _ (by positivity)
  simp only [BitVec.toNat_setWidth, BitVec.toNat_ushiftRight, BitVec.toNat_ofInt, Nat.shiftRight_eq_div_pow]
  push_cast
  rw [Int.toNat_of_nonneg (Int.emod_nonneg _ hpos.ne'), Int.toNat_of_nonneg h0, hq, Int.sub_mul_emod_self_left]

/-- A shift of a w-bit number by w places or more leaves its sign alone (R100). -/
theorem div_pow_of_le {w n : Nat} {v : Int} (hn : w ≤ n) (hlo : -2 ^ w ≤ v) (hhi : v < 2 ^ w) :
    v / 2 ^ n = if v < 0 then -1 else 0 := by
  have hwn : (2 : Int) ^ w ≤ 2 ^ n := pow_le_pow_right₀ (by norm_num) hn
  split
  · exact Int.ediv_eq_neg_one_of_neg_of_le ‹_› (by omega)
  · exact Int.ediv_eq_zero_of_lt (by omega) (by omega)

theorem shr_bits (sg : Bool) {w : Nat} (x y : BitVec w) :
    BitVec.ofInt w (if w ≤ y.toNat then (if sg && decide (numOf sg x < 0) then -1 else 0) else numOf sg x / 2 ^ y.toNat) =
      if sg then x.sshiftRight y.toNat else x >>> y := by
  have hdiv : (if w ≤ y.toNat then (if sg && decide (numOf sg x < 0) then -1 else 0) else numOf sg x / 2 ^ y.toNat) =
      numOf sg x / 2 ^ y.toNat := by
    split
    · rename_i hn
      cases sg
      · have hx : (x.toNat : Int) < 2 ^ w := by exact_mod_cast x.isLt
        have hneg : ¬ (x.toNat : Int) < 0 := by omega
        have h := div_pow_of_le hn (by have : (0 : Int) < 2 ^ w := by positivity
                                       omega) hx
        rw [if_neg hneg] at h
        simp [numOf, h]
      · have hlo := BitVec.le_two_mul_toInt (x := x)
        have hhi := BitVec.two_mul_toInt_lt (x := x)
        have hpos : (0 : Int) < 2 ^ w := by positivity
        rw [div_pow_of_le hn (by simp only [numOf, if_true]; omega) (by simp only [numOf, if_true]; omega)]
        simp [numOf]
    · rfl
  rw [hdiv]
  cases sg
  · refine BitVec.eq_of_toNat_eq ?_
    simp only [numOf, Bool.false_eq_true, if_false, BitVec.ushiftRight_eq', BitVec.toNat_ushiftRight,
      Nat.shiftRight_eq_div_pow]
    rw [← Nat.cast_ofNat, ← Nat.cast_pow, ← Int.natCast_ediv, BitVec.ofInt_natCast, BitVec.toNat_ofNat,
      Nat.mod_eq_of_lt (Nat.lt_of_le_of_lt (Nat.div_le_self ..) x.isLt)]
  · simp [numOf, BitVec.sshiftRight_eq, Int.shiftRight_eq_div_pow]

theorem shl_bits {w : Nat} (x y : BitVec w) :
    (if w ≤ y.toNat then 0 else x.toNat * 2 ^ y.toNat) % 2 ^ w = (x <<< y).toNat := by
  rw [BitVec.shiftLeft_eq', BitVec.toNat_shiftLeft, Nat.shiftLeft_eq]
  split
  · rename_i hn
    obtain ⟨d, hd⟩ := pow_dvd_pow 2 hn
    rw [hd, mul_left_comm, Nat.mul_mod_right, Nat.zero_mod]
  · rfl

theorem rotl_bits {w : Nat} (hw : 0 < w) (x : BitVec w) (n : Nat) :
    (x.toNat * 2 ^ (n % w) + x.toNat / 2 ^ (w - n % w)) % 2 ^ w % 2 ^ w = (x.rotateLeft n).toNat := by
  have hk : n % w < w := Nat.mod_lt _ hw
  have hlow : x.toNat / 2 ^ (w - n % w) < 2 ^ (n % w) := by
    rw [Nat.div_lt_iff_lt_mul (by positivity), ← pow_add, Nat.add_sub_cancel' hk.le]
    exact x.isLt
  have hsmall : x.toNat / 2 ^ (w - n % w) < 2 ^ w := lt_of_le_of_lt (Nat.div_le_self ..) x.isLt
  rw [Nat.mod_mod, BitVec.rotateLeft_def, BitVec.toNat_or, BitVec.toNat_shiftLeft, BitVec.toNat_ushiftRight,
    Nat.shiftRight_eq_div_pow, ← Nat.shiftLeft_eq, Nat.shiftLeft_add_eq_or_of_lt hlow, Nat.or_mod_two_pow,
    Nat.mod_eq_of_lt hsmall]

-- The bits of an operand, as a list (R101).
theorem bitsOf_tyNat (t : ITy) (a : Word) : bitsOf (tyBits t) (tyNat t a) = (List.range (tyBits t)).map (a.getLsbD ·) := by
  refine List.map_congr_left (fun j hj => ?_)
  rw [tyNat, Nat.testBit_mod_two_pow, decide_eq_true (List.mem_range.1 hj), Bool.true_and]
  rfl

theorem testBit_ofBits (l : List Bool) (j : Nat) : (ofBits l).testBit j = l.getD j false := by
  induction l generalizing j with
  | nil => simp [ofBits]
  | cons b r ih =>
    rw [ofBits, show bit b + 2 * ofBits r = Nat.bit b (ofBits r) by cases b <;> simp [bit, Nat.bit_val]; omega]
    cases j with
    | zero => simp
    | succ j => simp [Nat.testBit_bit_succ, ih]

theorem brev_bits {w : Nat} (x : BitVec w) : ofBits (bitsOf w x.toNat).reverse % 2 ^ w = x.reverse.toNat := by
  refine Nat.eq_of_testBit_eq (fun j => ?_)
  rw [Nat.testBit_mod_two_pow, testBit_ofBits, BitVec.testBit_toNat, BitVec.getLsbD_reverse, BitVec.getMsbD]
  by_cases hj : j < w
  · simp [bitsOf, hj, List.getD_eq_getElem?_getD, BitVec.testBit_toNat]
  · simp [hj]

-- What each instruction pushes.
section values
variable (t : ITy) (a b c : Word)

theorem add_value : tyPut t (tyVal t a + tyVal t b) = onBits t (fun _ x y => x + y) a b :=
  tyPut_val t (· + ·) _ a b (fun x y => by simp [BitVec.ofInt_add])
theorem sub_value : tyPut t (tyVal t a - tyVal t b) = onBits t (fun _ x y => x - y) a b :=
  tyPut_val t (· - ·) _ a b (fun x y => by simp [Int.sub_eq_add_neg, BitVec.ofInt_add, BitVec.ofInt_neg, BitVec.sub_eq_add_neg])
theorem mul_value : tyPut t (tyVal t a * tyVal t b) = onBits t (fun _ x y => x * y) a b :=
  tyPut_val t (· * ·) _ a b (fun x y => by simp [BitVec.ofInt_mul])
theorem mulh_value : tyPut t (tyVal t a * tyVal t b / 2 ^ tyBits t) = onBits t (fun w a b =>
    if t.signed then ((a.signExtend (2 * w) * b.signExtend (2 * w)) >>> w).setWidth w
    else ((a.setWidth (2 * w) * b.setWidth (2 * w)) >>> w).setWidth w) a b := by
  refine tyPut_val t (fun x y => x * y / 2 ^ tyBits t) _ a b (fun x y => ?_)
  rw [mulh_bits, BitVec.ofInt_mul]
  cases t.signed
  · simp [numOf, BitVec.ofNat_toNat]
  · rfl
theorem mad_value : tyPut t (tyVal t a * tyVal t b + tyVal t c) =
    onBits t (fun _ x y => x + y) (onBits t (fun _ x y => x * y) a b) c := by
  rw [← mul_value, ← add_value]
  simp only [tyPut_eq, tyVal_eq, pat_put, BitVec.ofInt_add, ofInt_numOf]
theorem neg_value : tyPut t (-tyVal t a) = onBits t (fun _ x _ => -x) a 0 :=
  tyPut_val t (fun x _ => -x) _ a 0 (fun x _ => by simp [BitVec.ofInt_neg])
theorem abs_value (h : t.signed = true) :
    tyPut t (if tyVal t a < 0 then -tyVal t a else tyVal t a) = onBits t (fun _ x _ => if x.msb then -x else x) a 0 := by
  refine tyPut_val t (fun x _ => if x < 0 then -x else x) _ a 0 (fun x _ => ?_)
  simp only [h, BitVec.msb_eq_toInt, numOf, if_true]
  by_cases hx : x.toInt < 0 <;> simp [hx, BitVec.ofInt_neg]
theorem min_value : tyPut t (if tyVal t a ≤ tyVal t b then tyVal t a else tyVal t b) =
    if leBits t a b then ofType t a else ofType t b := by
  simp only [leBits_iff, ← tyPut_tyVal]
  split <;> rfl
theorem max_value : tyPut t (if tyVal t b ≤ tyVal t a then tyVal t a else tyVal t b) =
    if leBits t b a then ofType t a else ofType t b := by
  simp only [leBits_iff, ← tyPut_tyVal]
  split <;> rfl
/-- `clamp` of a value `a` between `b` and `c`. -/
theorem clamp_value :
    let m := if tyVal t b ≤ tyVal t a then tyVal t a else tyVal t b
    let x := if leBits t b a then a else b
    tyPut t (if m ≤ tyVal t c then m else tyVal t c) = if leBits t x c then ofType t x else ofType t c := by
  intro m x
  have hm : m = tyVal t x := by
    simp only [m, x, leBits_iff]
    split <;> rfl
  rw [hm, min_value]
theorem and_value : tyPut t ((tyNat t a &&& tyNat t b : Nat) : Int) = onBits t (fun _ x y => x &&& y) a b :=
  tyPut_nat t (· &&& ·) _ a b (fun x y => by
    rw [BitVec.toNat_and, Nat.mod_eq_of_lt (Nat.and_lt_two_pow _ y.isLt)])
theorem or_value : tyPut t ((tyNat t a ||| tyNat t b : Nat) : Int) = onBits t (fun _ x y => x ||| y) a b :=
  tyPut_nat t (· ||| ·) _ a b (fun x y => by
    rw [BitVec.toNat_or, Nat.mod_eq_of_lt (Nat.or_lt_two_pow x.isLt y.isLt)])
theorem xor_value : tyPut t ((tyNat t a ^^^ tyNat t b : Nat) : Int) = onBits t (fun _ x y => x ^^^ y) a b :=
  tyPut_nat t (· ^^^ ·) _ a b (fun x y => by
    rw [BitVec.toNat_xor, Nat.mod_eq_of_lt (Nat.xor_lt_two_pow x.isLt y.isLt)])
theorem not_value : tyPut t ((2 ^ tyBits t - 1 - tyNat t a : Nat) : Int) = onBits t (fun _ x _ => ~~~x) a 0 :=
  tyPut_nat t (fun x _ => 2 ^ tyBits t - 1 - x) _ a 0 (fun x _ => by
    rw [BitVec.toNat_not, Nat.mod_eq_of_lt (by have := x.isLt; omega)])
theorem shl_value : tyPut t ((if tyBits t ≤ tyNat t b then 0 else tyNat t a * 2 ^ tyNat t b : Nat) : Int) =
    onBits t (fun _ x n => x <<< n) a b :=
  tyPut_nat t (fun x n => if tyBits t ≤ n then 0 else x * 2 ^ n) _ a b shl_bits
theorem shr_value : tyPut t (if tyBits t ≤ tyNat t b then (if t.signed && tyVal t a < 0 then -1 else 0)
      else tyVal t a / 2 ^ tyNat t b) =
    onBits t (fun _ x n => if t.signed then x.sshiftRight n.toNat else x >>> n) a b := by
  rw [tyPut_eq, tyVal_eq, tyNat_eq, shr_bits, onBits_eq]
theorem rotl_value : tyPut t (((tyNat t a * 2 ^ (tyNat t b % tyBits t) + tyNat t a / 2 ^ (tyBits t - tyNat t b % tyBits t)) %
      2 ^ tyBits t : Nat) : Int) = onBits t (fun _ x n => x.rotateLeft n.toNat) a b :=
  tyPut_nat t (fun x n => (x * 2 ^ (n % tyBits t) + x / 2 ^ (tyBits t - n % tyBits t)) % 2 ^ tyBits t) _ a b
    (fun x y => rotl_bits (tyBits_pos t) x y.toNat)
theorem sel_value : tyPut t (if tyNat t c ≠ 0 then tyVal t a else tyVal t b) =
    if onBits t (fun _ x _ => x) c 0 = 0 then ofType t b else ofType t a := by
  have h0 : onBits t (fun _ x _ => x) c 0 = 0 ↔ tyNat t c = 0 := by
    have hz : put t 0 = 0 := by cases t <;> rfl
    rw [onBits_eq, tyNat_eq, ← hz, put_inj]
    exact BitVec.toNat_inj.symm
  simp only [h0, ← tyPut_tyVal]
  split <;> simp_all
theorem popc_value : ((bitsOf (tyBits t) (tyNat t a)).filter id).length = (List.range (tyBits t)).countP (fun j => a.getLsbD j) := by
  rw [bitsOf_tyNat, ← List.countP_eq_length_filter, List.countP_map]
  rfl
theorem clz_value : ((bitsOf (tyBits t) (tyNat t a)).reverse.takeWhile (! ·)).length =
    ((List.range (tyBits t)).reverse.takeWhile (fun j => !a.getLsbD j)).length := by
  rw [bitsOf_tyNat, ← List.map_reverse, List.takeWhile_map, List.length_map]
  rfl
theorem ctz_value : ((bitsOf (tyBits t) (tyNat t a)).takeWhile (! ·)).length =
    ((List.range (tyBits t)).takeWhile (fun j => !a.getLsbD j)).length := by
  rw [bitsOf_tyNat, List.takeWhile_map, List.length_map]
  rfl
theorem brev_value : tyPut t ((ofBits (bitsOf (tyBits t) (tyNat t a)).reverse : Nat) : Int) = onBits t (fun _ x _ => x.reverse) a 0 :=
  tyPut_nat t (fun x _ => ofBits (bitsOf (tyBits t) x).reverse) _ a 0 (fun x _ => brev_bits x)
end values

/-- An instruction that pushes one value of its operands, sets no flag and never traps, completes in every lane. -/
theorem exec_value {i : Instr} {f : List Word → Word} {g : Lane → List Word → Pure} {s : State} (hs : ReadyStrand s i)
    (hg : ∀ l o, g l o = { push := [f o] }) :
    ∃ t, finish (runPure i g s) = .next t ∧ Alike s t ∧ t.tasks = s.tasks ∧ OthersSame s t ∧
      EachDone s t i (fun _ l => l) (fun _ l => [(f ((l.ops i).map (·.val)), depsOf (l.ops i))]) (fun _ _ => none) := by
  obtain ⟨t, hrun, halike, hdone, hothers, htasks⟩ := exec_runPure g s i hs (fun _ _ _ _ => by rw [hg])
  refine ⟨t, hrun, halike, htasks (fun _ _ _ _ => by simp [hg]), hothers, fun k hk l hl => ?_⟩
  obtain ⟨d, hd⟩ := hdone k hk l hl
  exact ⟨d, by simpa [hg, Lane.flagged] using hd⟩

/-- The value of each instruction of the table `intResult`. -/
theorem exec_int {i : Instr} {f : List Word → Word} (hw : i.wf = true) (hf : intResult i = some f) :
    ∃ g : Lane → List Word → Pure, (∀ s, exec i s = finish (runPure i g s)) ∧ ∀ l o, g l o = { push := [f o] } := by
  unfold intResult at hf
  split at hf
  case h_31 => cases hf
  all_goals
    obtain rfl := Option.some.inj hf
    refine ⟨_, fun s => rfl, fun l o => congrArg (fun v => ({ push := [v] } : Pure)) ?_⟩
  case h_1 => exact add_value ..
  case h_2 => exact sub_value ..
  case h_3 => exact mul_value ..
  case h_4 => exact mulh_value ..
  case h_5 => exact mad_value ..
  case h_6 => exact neg_value ..
  case h_7 => exact abs_value _ _ hw
  case h_8 => exact min_value ..
  case h_9 => exact max_value ..
  case h_10 => exact clamp_value ..
  case h_11 => exact and_value ..
  case h_12 => exact or_value ..
  case h_13 => exact xor_value ..
  case h_14 => exact not_value ..
  case h_15 => exact shl_value ..
  case h_16 => exact shr_value ..
  case h_17 => exact rotl_value ..
  case h_18 => exact sel_value ..
  case h_19 => simp [ofType_inj, op0, op1]
  case h_20 => simp [ofType_inj, op0, op1]
  case h_21 => simp [ltBits_iff, op0, op1]
  case h_22 => simp [leBits_iff, op0, op1]
  case h_23 => rfl
  case h_24 => rfl
  case h_25 => exact congrArg (fun n : Nat => tyPut _ n) (popc_value ..)
  case h_26 => exact congrArg (fun n : Nat => tyPut _ n) (clz_value ..)
  case h_27 => exact congrArg (fun n : Nat => tyPut _ n) (ctz_value ..)
  case h_28 => exact brev_value ..
  case h_29 => rfl
  case h_30 => rfl

/-- Settles O2: each instruction of the table is one value of its operands, in the bit-vector operations of its type. -/
theorem integerInstructionsComplete : Obligations.IntegerInstructionsComplete := by
  intro i f s hw hf hs
  obtain ⟨g, hexec, hg⟩ := exec_int hw hf
  rw [hexec]
  exact exec_value hs hg

end Sys2Proof.Numbers
end

section
/-! PROOFS. What bank operations leave as it is, and that a trap leaves the strand in issue as it is. -/

namespace Sys2Proof.Numbers

open Sys2Proof Sys2Proof.Machine

variable {s t u : State}

/-- A fold of operations that leave a part of the state as it is. -/
theorem foldl_keeps {α β : Type} (p : State → β) (f : State → α → State) (hf : ∀ s x, p (f s x) = p s) (xs : List α) (s : State) :
    p (xs.foldl f s) = p s := by
  induction xs generalizing s with
  | nil => rfl
  | cons x r ih => exact (ih (f s x)).trans (hf s x)

-- Bank operations (R222 to R224).
/-- Only memory, its location order, the bank operations of tasks and what lanes must respect differ (R224, R286, R287, R301). -/
structure Synced (s t : State) : Prop where
  same : t = { s with mem := t.mem, poison := t.poison, log := t.log, rels := t.rels, nextId := t.nextId, lanes := t.lanes, tasks := t.tasks }
  lanes : ∀ k l, s.lane k = some l → ∃ v q o, t.lane k = some { l with view := v, qg := q, ord := o }
  barriers : ∀ tn b, t.barrier tn b = s.barrier tn b

theorem Synced.of_lanes (same : t = { s with mem := t.mem, poison := t.poison, log := t.log, rels := t.rels, nextId := t.nextId })
    : Synced s t := by
  have hl : t.lanes = s.lanes := by rw [same]
  have ht : t.tasks = s.tasks := by rw [same]
  refine ⟨by rw [same], fun k l h => ⟨l.view, l.qg, l.ord, ?_⟩, fun _ _ => ?_⟩
  · rw [State.lane, hl]; exact h
  · simp only [State.barrier, State.task, ht]

theorem Synced.refl (s : State) : Synced s s := .of_lanes rfl

theorem Synced.trans (h : Synced s t) (g : Synced t u) : Synced s u := by
  refine ⟨by rw [g.same, h.same], fun k l hl => ?_, fun tn b => (g.barriers tn b).trans (h.barriers tn b)⟩
  obtain ⟨v, q, o, ht⟩ := h.lanes k l hl
  obtain ⟨v', q', o', hu⟩ := g.lanes k _ ht
  exact ⟨v', q', o', hu⟩

theorem Synced.iss (h : Synced s t) : t.iss = s.iss := by rw [h.same]
theorem Synced.bad (h : Synced s t) : t.bad = s.bad := by rw [h.same]
theorem Synced.waves (h : Synced s t) : t.waves = s.waves := by rw [h.same]
theorem Synced.taskNo (h : Synced s t) (k : Nat) : t.taskNo k = s.taskNo k := by simp [State.taskNo, State.wave, h.waves]

/-- A change of what a lane must respect, or no change. -/
theorem synced_modLane (s : State) (k : Nat) (f : Lane → Lane) (hf : ∀ l, ∃ v q o, f l = { l with view := v, qg := q, ord := o }) :
    Synced s (s.modLane k f) := by
  refine ⟨by unfold State.modLane; split <;> rfl, fun j l hl => ?_, fun tn b => by simp [State.barrier, State.task]⟩
  rw [lane_modLane]
  split
  · rename_i e
    subst e
    obtain ⟨v, q, o, h⟩ := hf l
    exact ⟨v, q, o, by rw [hl, Option.map_some, h]⟩
  · exact ⟨l.view, l.qg, l.ord, hl⟩

theorem Synced.foldl {α : Type} {f : State → α → State} (hf : ∀ s x, Synced s (f s x)) (xs : List α) (s : State) :
    Synced s (xs.foldl f s) := by
  induction xs generalizing s with
  | nil => exact .refl s
  | cons x r ih => exact (hf s x).trans (ih (f s x))

theorem synced_writeAs (s : State) (who slice key : Nat) (bs : List Byte) : Synced s (s.writeAs who slice key bs) := by
  have hw : Synced s (s.write key bs slice who none none 0) := .of_lanes rfl
  unfold State.writeAs
  dsimp only
  split
  · exact hw.trans (synced_modLane _ _ _ (fun l => ⟨_, l.qg, l.ord, rfl⟩))
  · exact hw

theorem synced_clean (s : State) (line : Nat) : Synced s (s.clean line) := .of_lanes rfl
theorem synced_setPoison (s : State) (line : Nat) (tag : Bool) : Synced s (s.setPoison line tag) := .of_lanes rfl
theorem synced_cleanRange (s : State) (key n : Nat) : Synced s (s.cleanRange key n) := Synced.foldl synced_clean _ s

theorem synced_fill (s : State) (who slice : Nat) (g : Geom) (v : Word) : Synced s (s.bankFill who slice g v) := by
  unfold State.bankFill
  dsimp only
  split
  · exact (synced_writeAs ..).trans (synced_cleanRange ..)
  · exact (Synced.foldl (fun _ _ => synced_writeAs ..) _ s).trans (synced_cleanRange ..)

theorem synced_col (s : State) (who slice : Nat) (g : Geom) (op : TColOp) (v mask : Word) (c : Nat) :
    Synced s (s.bankCol who slice g op v mask c) := by
  refine Synced.foldl (fun u r => ?_) _ s
  dsimp only
  split
  · exact .refl u
  · split
    · exact (synced_writeAs ..).trans (synced_setPoison ..)
    · exact synced_writeAs ..

theorem synced_moveBytes (s : State) (who slice src dst step n : Nat) : Synced s (s.moveBytes who slice src dst step n) := by
  refine Synced.foldl (fun u j => ?_) _ s
  dsimp only
  split
  · exact (synced_writeAs ..).trans (synced_setPoison ..)
  · exact synced_writeAs ..

theorem synced_move (s : State) (who slice : Nat) (f g : Geom) : Synced s (s.bankMove who slice f g) :=
  (((synced_moveBytes ..).trans (synced_moveBytes ..)).trans (synced_moveBytes ..)).trans (synced_moveBytes ..)

/-- A bank operation leaves its task's list; barriers are not touched. -/
theorem synced_modBanks (s : State) (tn : Nat) (f : Task → List BankOp) :
    Synced s (s.modTask tn (fun x => { x with banks := f x })) := by
  refine ⟨rfl, fun _ l h => ⟨l.view, l.qg, l.ord, h⟩, fun n b => ?_⟩
  simp only [State.barrier, State.task, State.modTask, mget_mmod]
  split
  · rename_i e; subst e; cases mget s.tasks n <;> rfl
  · rfl

theorem synced_done (s : State) (tn : Nat) (b : BankOp) : Synced s (s.bankDone tn b) := by
  have h1 := synced_modBanks s tn (fun t => t.banks.filter (fun x => x.id != b.id))
  unfold State.bankDone
  dsimp only
  split
  · exact h1
  · split
    · exact h1.trans (synced_fill ..)
    · exact h1.trans (synced_col ..)
    · split
      · exact h1.trans (synced_move ..)
      · exact h1

/-- The bank operations that a release completes (R224, R286). -/
theorem synced_flush (s : State) (tn who : Nat) : Synced s (s.flushBanks tn who) := by
  unfold State.flushBanks
  split
  · exact .refl s
  · exact Synced.foldl (fun u b => synced_done u tn b) _ s

/-- A release publishes what the thread has written and seen (R286). -/
theorem synced_release (s : State) (k : Nat) (sc : Scope) : Synced s (s.release k sc) := by
  unfold State.release
  dsimp only
  split
  · exact (synced_flush ..).trans (.of_lanes rfl)
  · exact synced_flush ..

theorem synced_boundary (s : State) (k : Nat) (sc : Scope) : Synced s (s.boundary k sc) :=
  synced_modLane s k _ (fun l => ⟨_, l.qg, _, rfl⟩)

theorem synced_quiesce (s : State) (k : Nat) : Synced s (s.quiesce k) := by
  unfold State.quiesce
  split
  · split
    · exact ((synced_flush ..).trans (synced_modLane _ k _ (fun l => ⟨l.view, _, l.ord, rfl⟩))).trans (synced_boundary ..)
    · exact .refl s
  · exact .refl s

/-- A departure from a barrier (R244). -/
theorem synced_depart (s : State) (k : Nat) (sc : Scope) : Synced s (s.depart k sc) :=
  (synced_boundary s k sc).trans (synced_quiesce _ k)

-- The strand in issue, which no trap changes.
theorem release_iss (s : State) (k : Nat) (sc : Scope) : (s.release k sc).iss = s.iss := (synced_release s k sc).iss

theorem dropResv_iss (s : State) (k : Nat) : (s.dropResv k).iss = s.iss := by
  unfold State.dropResv
  split
  · split <;> simp
  · rfl

theorem saveEngines_iss (s : State) (sp : Nat) : (s.saveEngines sp).iss = s.iss := by
  unfold State.saveEngines
  refine foldl_keeps State.iss _ (fun u p => ?_) _ s
  refine foldl_keeps State.iss _ (fun v x => ?_) _ u
  rfl

theorem grantTake_iss (s : State) : s.grantTake.iss = s.iss := by
  unfold State.grantTake
  split
  · rfl
  · split <;> rfl

theorem settleCuts_iss (s : State) : s.settleCuts.iss = s.iss := by
  have h := foldl_keeps State.iss (fun s sp => State.saveEngines s sp) saveEngines_iss s.cutsDone s
  unfold State.settleCuts
  dsimp only
  split
  · split
    · rw [grantTake_iss]; exact h
    · exact h
  · exact h

theorem endWave_iss (s : State) (w : Nat) : (s.endWave w).iss = s.iss := by
  unfold State.endWave
  split
  · rfl
  · exact settleCuts_iss _

theorem leave_iss (s : State) (k : Nat) : (s.leave k).iss = s.iss := by
  unfold State.leave
  dsimp only
  split
  · rw [endWave_iss]; exact dropResv_iss s k
  · exact dropResv_iss s k

theorem stopLane_iss (s : State) (k : Nat) (c : Cause) : (s.stopLane k c).iss = s.iss := by
  unfold State.stopLane
  split
  · rfl
  · simp only [State.raise, State.note_iss, State.modVf_iss, State.modCtx_iss, leave_iss, release_iss]

theorem laneWrite_iss (s : State) (k a : Nat) (bs : List Byte) (strong : Option Scope) (rel : Option Nat) (point : Nat) :
    (s.laneWrite k a bs strong rel point).iss = s.iss := by
  have ht : (s.touch a).iss = s.iss := by unfold State.touch; split <;> rfl
  simp [State.laneWrite, ht]

theorem stallFrom_iss (s : State) (w T n : Nat) : (s.stallFrom w T n).iss = s.iss := by
  unfold State.stallFrom State.stallWave
  split <;> simp

/-- Taking a trap leaves the strand in issue as it is. -/
theorem enterTrap_iss (s : State) (k : Nat) (c : Cause) : (s.enterTrap k c).iss = s.iss := by
  unfold State.enterTrap
  split
  · rfl
  · dsimp only
    split
    · exact stopLane_iss s k c
    · split
      · rw [stallFrom_iss, State.modLane_iss]; rfl
      · unfold State.stallMoreFrom
        dsimp only
        rw [stallFrom_iss]
        exact (State.modLane_iss ..).trans (laneWrite_iss ..)

theorem takeTrap_iss (s : State) (k : Nat) (i : Instr) (c : Cause) : (s.takeTrap k i c).iss = s.iss := by
  rw [State.takeTrap, enterTrap_iss, State.modLane_iss]

end Sys2Proof.Numbers
end

section
/-! PROOFS. Counters, batches and barriers (R34, R238 to R244). -/

namespace Sys2Proof.Numbers

open Sys2Proof Sys2Proof.Machine Sys2Proof.Claims

variable {s u : State} {i : Instr} {k : Nat} {l m : Lane} {x : Task}

-- A strand of one lane: the other two ends that an instruction comes to.
/-- An elected instruction of a lane alone completes from the state that the command has made. -/
theorem exec_of_all_alone {body : State → List Nat → Nat → List Entry → State × EOut} {vals : List (Word × List Nat)}
    (h : Alone s i k l) (hb : body s [k] k (l.ops i) = (u, .all vals)) (hu : Begun u) (hl : u.lane k = some m) :
    ∃ t, finish (runElected i body s) = .next t ∧ Completes s u t i k vals none := by
  obtain ⟨d, n, hd⟩ := retire_of_lane (i := i) s.issueCycle vals none hl
  refine ⟨({ u with free := n }.setLane k (m.after i s.issueCycle d vals none)).bump, ?_, m, d, n, hl, rfl⟩
  have hops : s.operands k l (shapeOf i).reads = (l.ops i, s) := operands_of_arrived h.ready.onChip
  unfold runElected
  simp only [h.only, readied_of_ready (h.only ▸ h.strand.ready : ∀ j, j ∈ [k] → ∃ l, Ready s i j l),
    passing_of_ready [k] (h.only ▸ h.strand.ready), h.here, hops, hb, List.foldl_cons, List.foldl_nil, hd]
  rw [settled_of_prompt (by exact hu.late), finish_of_sound (by exact hu.bad)]

/-- A lane alone waits in its instruction. -/
theorem exec_of_hold {body : State → Nat → List Entry → State × LOut} {w : Wait} (h : Alone s i k l)
    (hb : body s k (l.ops i) = (u, .hold w)) (hu : Begun u) :
    finish (runEach i body s) = .next (u.holdLane k i w s.nextId).bump := by
  have hiss : ∀ v : State, (v.holdLane k i w s.nextId).iss = v.iss := fun v => by simp [State.holdLane]
  have hbad : ∀ v : State, (v.holdLane k i w s.nextId).bad = v.bad := fun v => by simp [State.holdLane]
  rw [runEach_of_alone h, hb]
  simp only [State.conclude]
  rw [settled_of_prompt (by rw [State.bump_iss, hiss]; exact hu.late),
    finish_of_sound (by rw [State.bump_bad, hbad]; exact hu.bad)]

/-- A lane alone traps. -/
theorem exec_of_trap {body : State → Nat → List Entry → State × LOut} {c : Cause} (h : Alone s i k l)
    (hb : body s k (l.ops i) = (u, .trap c)) (hu : u.iss = s.iss) :
    finish (runEach i body s) = finish (u.takeTrap k i c).bump := by
  rw [runEach_of_alone h, hb]
  simp only [State.conclude]
  rw [settled_of_prompt (by rw [State.bump_iss, takeTrap_iss, hu]; exact h.sound.late)]

/-- The lane in a wait that holds its strand. -/
theorem holdLane_of {w : Wait} (hl : u.lane k = some l) (ha : w.apart = false) :
    u.holdLane k i w s.nextId = u.setLane k { holding s i l w with
      next := if w.issued then u.issueCycle + 1 + (if l.ilk = .lock then 0 else (shapeOf i).stall) else l.next } := by
  unfold State.holdLane
  rw [modLane_of _ hl]
  simp [holding, ha, State.issueCycle]

-- Counters (R238).
theorem nctr_of (h : s.taskOf k = some x) : s.nctr k = x.nctr := by simp [State.nctr, h]
theorem counter_of (h : s.taskOf k = some x) (c : Nat) : s.counter k c = mgetD x.counters c {} := by simp [State.counter, h]

theorem cinit_completes (w : StallL) (c : BitVec 12) (hx : s.taskOf k = some x) (h : Alone s (.cinit w c) k l) (hc : c.toNat < x.nctr) :
    ∃ t, exec (.cinit w c) s = .next t ∧ Completes s (s.modTask (s.taskNo k) (fun x => { x with
      counters := mset x.counters c.toNat { mgetD x.counters c.toNat {} with
        val := (l.operand (.cinit w c) 0).toInt, status := 0 } })) t (.cinit w c) k [] none := by
  refine exec_of_all_alone h ?_ ⟨h.sound.bad, h.sound.late⟩ (m := l) h.here
  simp only [nctr_of hx, Nat.not_le.2 hc, if_false, ops_getD_val]

/-- A counter that is at most 0: `cwait` pushes its status, and the lane has observed it. -/
theorem cwait_completes (w : StallL) (c : BitVec 12) {y : Counter} (hx : s.taskOf k = some x) (h : Alone s (.cwait w c) k l)
    (hc : c.toNat < x.nctr) (hy : y = mgetD x.counters c.toNat {}) (hv : y.val ≤ 0) :
    ∃ t, exec (.cwait w c) s = .next t ∧ Completes s (s.setLane k { l with
      seen := viewJoin y.pub l.seen, view := viewJoin (mgetD y.own l.thx []) l.view }) t (.cwait w c) k
      [(BitVec.ofNat 64 y.status, [])] none := by
  refine exec_of_go h ?_ ⟨h.sound.bad, h.sound.late⟩ (lane_setLane_self ..)
  have hobs : s.observeCounter k y = s.setLane k { l with
      seen := viewJoin y.pub l.seen, view := viewJoin (mgetD y.own l.thx []) l.view } := by
    unfold State.observeCounter
    rw [modLane_of _ h.here, h.here]
    rfl
  simp only [nctr_of hx, Nat.not_le.2 hc, if_false, counter_of hx, ← hy, Int.not_lt.2 hv, hobs]

/-- A counter above 0: the lane waits in `cwait`. -/
theorem cwait_waits (w : StallL) (c : BitVec 12) (hx : s.taskOf k = some x) (h : Alone s (.cwait w c) k l)
    (hc : c.toNat < x.nctr) (hv : 0 < (mgetD x.counters c.toNat {}).val) :
    exec (.cwait w c) s = .next (s.setLane k (issued s (.cwait w c) l (.cwait c.toNat))).bump := by
  rw [exec_cwait, execCwait, exec_of_hold h (u := s) (w := .cwait c.toNat) ?_ h.sound, holdLane_of h.here rfl]
  · rfl
  · simp only [nctr_of hx, Nat.not_le.2 hc, if_false, counter_of hx, hv, if_true]

-- Batches (R240, R241).
theorem seal_completes (w : StallS) (n : BitVec 3) (h : Alone s (.seal w n) k l) :
    ∃ t, exec (.seal w n) s = .next t ∧ Completes s (s.setLane k { l with
      batches := mset l.batches n.toNat (mgetD l.batches n.toNat [] ++ l.openSet), openSet := [] }) t (.seal w n) k [] none := by
  refine exec_of_go h ?_ ⟨h.sound.bad, h.sound.late⟩ (lane_setLane_self ..)
  rw [modLane_of _ h.here]

theorem batchLanded_iff (s : State) (l : Lane) (n : Nat) :
    s.batchLanded l n = true ↔ ∀ c, c ∈ mgetD l.batches n [] → mget s.landed c ≠ none := by
  simp [State.batchLanded, List.all_eq_true, Option.isSome_iff_ne_none]

theorem waitb_completes (w : StallS) (n : BitVec 3) (h : Alone s (.waitb w n) k l)
    (hn : ∀ c, c ∈ mgetD l.batches n.toNat [] → mget s.landed c ≠ none) :
    ∃ v t, exec (.waitb w n) s = .next t ∧
      Completes s (s.setLane k { l with batches := mdel l.batches n.toNat, view := v }) t (.waitb w n) k [] none := by
  refine ⟨(mgetD l.batches n.toNat []).foldl (fun v c => viewJoin ((mgetD s.landed c {}).wrote) v) l.view, ?_⟩
  refine exec_of_go h ?_ ⟨h.sound.bad, h.sound.late⟩ (lane_setLane_self ..)
  simp only [h.here, (batchLanded_iff ..).2 hn, if_true]

theorem waitb_waits (w : StallS) (n : BitVec 3) (h : Alone s (.waitb w n) k l)
    (hn : ∃ c, c ∈ mgetD l.batches n.toNat [] ∧ mget s.landed c = none) :
    exec (.waitb w n) s = .next (s.setLane k (holding s (.waitb w n) l (.waitb n.toNat))).bump := by
  have hb : s.batchLanded l n.toNat = false := by
    obtain ⟨c, hc, hnone⟩ := hn
    exact Bool.eq_false_iff.2 (fun hall => (batchLanded_iff ..).1 hall c hc hnone)
  rw [exec_waitb, execWaitb, exec_of_hold h (u := s) (w := .waitb n.toNat) ?_ h.sound, holdLane_of h.here rfl]
  · rfl
  · simp only [h.here, hb, Bool.false_eq_true, if_false]

-- Barriers (R243, R244).
theorem nbar_of (h : s.taskOf k = some x) : s.nbar k = x.nbar := by simp [State.nbar, h]

theorem barinit_completes (w : StallL) (sc : Scope) (b : BitVec 5) {n : Nat} (hx : s.taskOf k = some x)
    (h : Alone s (.barinit w sc b) k l) (hn : n = (l.operand (.barinit w sc b) 0).toNat) (hb : b.toNat < x.nbar)
    (ha : (s.barrier (s.taskNo k) b.toNat).a = 0) (hw : s.barWaiters (s.taskNo k) b.toNat = false) (h0 : 0 < n) (hth : n ≤ x.nth)
    (hsc : sc = .slice → x.members.length ≤ 1) :
    ∃ t, exec (.barinit w sc b) s = .next t ∧ Completes s (s.modTask (s.taskNo k) (fun x => { x with
      barriers := mset x.barriers b.toNat { s.barrier (s.taskNo k) b.toNat with n := n, a := 0, scope := sc } })) t
      (.barinit w sc b) k [] none := by
  refine exec_of_all_alone h ?_ ⟨h.sound.bad, h.sound.late⟩ (m := l) h.here
  have hcount : (n = 0 || decide (x.nth < n) || (decide (sc = .slice) && decide (1 < x.members.length))) = false := by
    simp only [Bool.or_eq_false_iff, Bool.and_eq_false_iff, decide_eq_false_iff_not]
    refine ⟨⟨by omega, by omega⟩, ?_⟩
    by_cases hs : sc = .slice
    · exact Or.inr (by have := hsc hs; omega)
    · exact Or.inl hs
  have htask : s.task (s.taskNo k) = some x := hx
  simp only [htask, ops_getD_val, ← hn, Nat.not_le.2 hb, if_false, ha, hw, hcount]
  rfl

/-- The barrier is there. -/
theorem barRefusal_of (hx : s.taskOf k = some x) {b : Nat} (hb : b < x.nbar) (hn : (s.barrier (s.taskNo k) b).n ≠ 0) :
    s.barRefusal k b = none := by
  simp only [State.barRefusal, nbar_of hx, Nat.not_le.2 hb, if_false, hn]

theorem barrier_setBarrier (hx : s.taskOf k = some x) (b : Nat) (y : Barrier) :
    (s.setBarrier (s.taskNo k) b y).barrier (s.taskNo k) b = y := by
  have htask : mget s.tasks (s.taskNo k) = some x := hx
  simp [State.barrier, State.setBarrier, State.modTask, State.task, mget_mmod, htask]


/-- The state after one arrival, before any thread departs (R244): the release at the barrier's scope, and the count. -/
def afterRelease (s : State) (k b : Nat) (l : Lane) : State :=
  (s.addRel (sliceOf k) (s.barrier (s.taskNo k) b).scope l.view).setBarrier (s.taskNo k) b
    (afterArrival (s.barrier (s.taskNo k) b))

theorem arrive_of_quiet (hq : Quiet s k) (hl : s.lane k = some l) (b : Nat) :
    s.arrive k b = ((s.barrier (s.taskNo k) b).phase,
      if (s.barrier (s.taskNo k) b).n ≤ (s.barrier (s.taskNo k) b).a + 1 then
        (afterRelease s k b l).completePhase (s.taskNo k) b (s.barrier (s.taskNo k) b).phase (s.barrier (s.taskNo k) b).scope
      else afterRelease s k b l) := by
  unfold State.arrive afterRelease afterArrival
  dsimp only
  rw [release_of_quiet _ hq hl]
  split <;> rfl

theorem barrier_afterRelease (hx : s.taskOf k = some x) (b : Nat) :
    (afterRelease s k b l).barrier (s.taskNo k) b = afterArrival (s.barrier (s.taskNo k) b) :=
  barrier_setBarrier (s := s.addRel (sliceOf k) (s.barrier (s.taskNo k) b).scope l.view) hx b _

/-- Where no lane waits at a barrier, the end of a phase wakes none. -/
theorem completePhase_of_none (h : noneWait s) (tn b p : Nat) (sc : Scope) : s.completePhase tn b p sc = s := by
  unfold State.completePhase
  rw [List.filter_eq_nil_iff.2 (fun q hq => by simp [h q hq])]
  rfl

theorem mset_mset {α : Type} (m : Map α) (k : Nat) (a b : α) : mset (mset m k a) k b = mset m k b := by
  induction m with
  | nil => simp [mset]
  | cons p r ih =>
    obtain ⟨j, v⟩ := p
    simp only [mset]
    split
    · simp [mset]
    · split
      · simp [mset]
      · rename_i h1 h2
        simp [mset, h1, h2, ih]
theorem setLane_setLane (s : State) (k : Nat) (a b : Lane) : (s.setLane k a).setLane k b = s.setLane k b := by
  simp [State.setLane, mset_mset]

/-- Bank operations and waves decide which operations of a thread are in progress (R224). -/
theorem quiet_of_banks {t : State} (h : Quiet s k) (hw : t.waves = s.waves)
    (hb : ∀ n, (t.task n).map Task.banks = (s.task n).map Task.banks) : Quiet t k := by
  intro x hx b hmem
  have htn : t.taskNo k = s.taskNo k := by simp [State.taskNo, State.wave, hw]
  have hwho : t.who k = s.who k := by simp [State.who, State.wave, hw]
  have hbk := hb (s.taskNo k)
  rw [← htn, show t.task (t.taskNo k) = some x from hx, htn] at hbk
  obtain ⟨y, hy, hyb⟩ := Option.map_eq_some_iff.1 hbk.symm
  rw [hwho]
  exact h y hy b (hyb ▸ hmem)

theorem quiet_setLane (h : Quiet s k) (j : Nat) (m : Lane) : Quiet (s.setLane j m) k := quiet_of_banks h rfl (fun _ => rfl)

theorem quiet_afterRelease (h : Quiet s k) (b : Nat) (l : Lane) : Quiet (afterRelease s k b l) k := by
  refine quiet_of_banks h rfl (fun n => ?_)
  simp only [afterRelease, State.setBarrier, State.modTask, State.task, mget_mmod, State.addRel_tasks]
  split
  · rename_i e; subst e
    cases mget s.tasks (s.taskNo k) <;> rfl
  · rfl

/-- A departure of a thread without bank operations changes what the thread must respect, and nothing else (R244). -/
theorem depart_of_quiet (hq : Quiet s k) (hl : s.lane k = some l) (sc : Scope) :
    ∃ m, s.depart k sc = s.setLane k m ∧ m = { l with view := m.view, qg := m.qg, ord := m.ord } := by
  unfold State.depart
  rw [boundary_of sc hl]
  generalize hm : ({ l with view := boundaryView s.rels (sliceOf k) sc l.view, ord := s.nextId } : Lane) = m1
  have hml : m1 = { l with view := m1.view, qg := m1.qg, ord := m1.ord } := by subst hm; rfl
  unfold State.quiesce
  rw [lane_setLane_self]
  dsimp only
  split
  · rw [flushBanks_of_quiet (quiet_setLane hq k m1), modLane_of _ (lane_setLane_self ..), setLane_setLane,
      boundary_of _ (lane_setLane_self ..), setLane_setLane]
    exact ⟨_, rfl, by rw [hml]⟩
  · exact ⟨m1, rfl, hml⟩


/-- A filter that keeps one element, and keeps it under a stronger test. -/
theorem filter_of_singleton {α : Type} {p q : α → Bool} {xs : List α} {a : α} (h : xs.filter q = [a])
    (hpq : ∀ y, p y = true → q y = true) (hp : p a = true) : xs.filter p = [a] := by
  have hand : (fun y => p y && q y) = p := by
    funext y
    cases hy : p y <;> simp [hpq, hy]
  rw [← hand, ← List.filter_filter, h]
  simp [hp]

theorem completePhase_of_one {j b p : Nat} {m : Lane} (tn : Nat) (sc : Scope) (hw : m.wait = .bar b p)
    (h : s.lanes.filter (fun p => s.taskNo p.1 == tn && p.2.wait.barOf.isSome) = [(j, m)]) :
    s.completePhase tn b p sc = s.departWaiter j b sc := by
  have htn : (s.taskNo j == tn) = true := by
    have hmem : (j, m) ∈ s.lanes.filter (fun p => s.taskNo p.1 == tn && p.2.wait.barOf.isSome) := by rw [h]; simp
    exact (Bool.and_eq_true _ _ ▸ (List.mem_filter.1 hmem).2).1
  unfold State.completePhase
  rw [filter_of_singleton h (fun y hy => ?_) ?_]
  · rfl
  · simp [htn, hw, Wait.barOf]
  · rw [Bool.and_eq_true] at hy ⊢
    refine ⟨hy.1, ?_⟩
    cases hb : y.2.wait.barOf with
    | none => simp [hb] at hy
    | some q => rfl

/-- A waiter that departs goes on after its instruction (R244). -/
theorem lane_departWaiter {j : Nat} {m : Lane} (hm : s.lane j = some m) (b : Nat) (sc : Scope) :
    ∃ m', (s.departWaiter j b sc).lane j = some m' ∧ m'.wait = .none ∧ m'.pc = m.pc + 2 ∧ m.next ≤ m'.next := by
  obtain ⟨v, q, o, hd⟩ := (synced_depart s j sc).lanes j m hm
  unfold State.departWaiter
  rw [lane_modLane_self, hd]
  exact ⟨_, rfl, rfl, rfl, Nat.le_max_left _ _⟩

/-- Every other lane keeps all but what it must respect. -/
theorem lane_departWaiter_ne {j : Nat} (hk : s.lane k = some l) (hj : k ≠ j) (b : Nat) (sc : Scope) :
    ∃ v q o, (s.departWaiter j b sc).lane k = some { l with view := v, qg := q, ord := o } := by
  unfold State.departWaiter
  rw [lane_modLane_ne _ _ hj]
  exact (synced_depart s j sc).lanes k l hk

theorem barrier_departWaiter (s : State) (j b : Nat) (sc : Scope) (tn n : Nat) :
    (s.departWaiter j b sc).barrier tn n = s.barrier tn n := by
  unfold State.departWaiter
  rw [← (synced_depart s j sc).barriers tn n]
  simp [State.barrier, State.task]
theorem iss_departWaiter (s : State) (j b : Nat) (sc : Scope) : (s.departWaiter j b sc).iss = s.iss := by
  rw [State.departWaiter, State.modLane_iss, (synced_depart s j sc).iss]
theorem bad_departWaiter (s : State) (j b : Nat) (sc : Scope) : (s.departWaiter j b sc).bad = s.bad := by
  rw [State.departWaiter, State.modLane_bad, (synced_depart s j sc).bad]
theorem taskNo_departWaiter (s : State) (j b : Nat) (sc : Scope) (k : Nat) : (s.departWaiter j b sc).taskNo k = s.taskNo k := by
  rw [← (synced_depart s j sc).taskNo k]
  simp [State.departWaiter, State.taskNo, State.wave]


-- What is left of a state from which a lane has completed.
theorem completes_mem {t : State} {vals : List (Word × List Nat)} {pc : Option Word} (h : Completes s u t i k vals pc) :
    t.mem = u.mem := by
  obtain ⟨m, d, n, _, rfl⟩ := h
  rfl
theorem completes_barrier {t : State} {vals : List (Word × List Nat)} {pc : Option Word} (h : Completes s u t i k vals pc)
    (tn b : Nat) : t.barrier tn b = u.barrier tn b := by
  obtain ⟨m, d, n, _, rfl⟩ := h
  rfl
theorem completes_lane_ne {t : State} {vals : List (Word × List Nat)} {pc : Option Word} (h : Completes s u t i k vals pc)
    {j : Nat} (hj : j ≠ k) : t.lane j = u.lane j := by
  obtain ⟨m, d, n, _, rfl⟩ := h
  exact lane_setLane_ne u _ hj

/-- The state after the last arrival, when one other thread has departed. -/
def afterWake (s : State) (k b : Nat) (l : Lane) (j : Nat) : State :=
  (afterRelease s k b l).departWaiter j b (s.barrier (s.taskNo k) b).scope

section barrier
variable {b : BitVec 5} {y : Barrier} (hx : s.taskOf k = some x) (hb : b.toNat < x.nbar)
  (hy : y = s.barrier (s.taskNo k) b.toNat) (hn : y.n ≠ 0)
include hx hb hy hn

/-- The last arrival, while no other thread waits: the phase ends, and the lane departs. -/
theorem bar_completes (w : StallS) (h : Alone s (.bar w b) k l) (hq : Quiet s k)
    (harm : ¬ (x.arm = true ∧ (x.sati = true ∨ x.satf = true))) (hnone : noneWait s) (hlast : y.n ≤ y.a + 1) :
    ∃ u t, exec (.bar w b) s = .next t ∧ Completes s u t (.bar w b) k [] none ∧
      u.barrier (s.taskNo k) b.toNat = afterArrival y ∧ u.mem = s.mem := by
  subst hy
  have harm' : (x.arm && (x.sati || x.satf)) = false := by simpa using harm
  have hphase : (s.barrier (s.taskNo k) b.toNat).phase < (afterArrival (s.barrier (s.taskNo k) b.toNat)).phase := by
    rw [afterArrival, if_pos hlast]
    exact Nat.lt_succ_self _
  obtain ⟨m, hd, hm⟩ := depart_of_quiet (quiet_afterRelease hq b.toNat l) (l := l) h.here (s.barrier (s.taskNo k) b.toNat).scope
  have hdone : ∃ t, exec (.bar w b) s = .next t ∧ Completes s ((afterRelease s k b.toNat l).setLane k m) t (.bar w b) k [] none := by
    refine exec_of_go h ?_ ⟨h.sound.bad, h.sound.late⟩ (lane_setLane_self ..)
    simp only [hx, harm', Bool.false_eq_true, if_false, barRefusal_of hx hb hn, arrive_of_quiet hq h.here, hlast, if_true,
      completePhase_of_none (s := afterRelease s k b.toNat l) hnone,
      show (afterRelease s k b.toNat l).taskNo k = s.taskNo k from rfl, barrier_afterRelease hx, hphase, hd]
  obtain ⟨t, ht, hcomp⟩ := hdone
  exact ⟨_, t, ht, hcomp, barrier_afterRelease hx b.toNat, rfl⟩

/-- An arrival that is not the last: the lane waits for the phase. -/
theorem bar_waits (w : StallS) (h : Alone s (.bar w b) k l) (hq : Quiet s k)
    (harm : ¬ (x.arm = true ∧ (x.sati = true ∨ x.satf = true))) (hmore : y.a + 1 < y.n) :
    exec (.bar w b) s = .next ((afterRelease s k b.toNat l).setLane k (issued s (.bar w b) l (.bar b.toNat y.phase))).bump := by
  subst hy
  have harm' : (x.arm && (x.sati || x.satf)) = false := by simpa using harm
  have hphase : ¬ (s.barrier (s.taskNo k) b.toNat).phase < (afterArrival (s.barrier (s.taskNo k) b.toNat)).phase := by
    rw [afterArrival, if_neg (Nat.not_le.2 hmore)]
    exact lt_irrefl _
  rw [exec_bar, execBar, exec_of_hold h (u := afterRelease s k b.toNat l)
    (w := .bar b.toNat (s.barrier (s.taskNo k) b.toNat).phase) ?_ ⟨h.sound.bad, h.sound.late⟩,
    holdLane_of (u := afterRelease s k b.toNat l) h.here rfl]
  · rfl
  · simp only [hx, harm', Bool.false_eq_true, if_false, barRefusal_of hx hb hn, arrive_of_quiet hq h.here, Nat.not_le.2 hmore,
      show (afterRelease s k b.toNat l).taskNo k = s.taskNo k from rfl, barrier_afterRelease hx, hphase]

/-- The last arrival, while one other thread waits for the phase: that thread goes on. -/
theorem bar_wakes (w : StallS) (h : Alone s (.bar w b) k l) (hq : Quiet s k)
    (harm : ¬ (x.arm = true ∧ (x.sati = true ∨ x.satf = true))) (hlast : y.n ≤ y.a + 1) {j : Nat} {m : Lane} (hj : j ≠ k)
    (hjm : s.lane j = some m) (hw : m.wait = .bar b.toNat y.phase)
    (hone : s.lanes.filter (fun p => s.taskNo p.1 == s.taskNo k && p.2.wait.barOf.isSome) = [(j, m)]) :
    ∃ t m', exec (.bar w b) s = .next t ∧ t.lane j = some m' ∧ m'.wait = .none ∧ m'.pc = m.pc + 2 ∧ m.next ≤ m'.next := by
  subst hy
  have harm' : (x.arm && (x.sati || x.satf)) = false := by simpa using harm
  obtain ⟨m', hm', hwait, hpc, hnext⟩ := lane_departWaiter (s := afterRelease s k b.toNat l) hjm b.toNat
    (s.barrier (s.taskNo k) b.toNat).scope
  obtain ⟨_, _, _, hk⟩ := lane_departWaiter_ne (s := afterRelease s k b.toNat l) h.here hj.symm b.toNat
    (s.barrier (s.taskNo k) b.toNat).scope
  have hphase : (s.barrier (s.taskNo k) b.toNat).phase < ((afterWake s k b.toNat l j).barrier (s.taskNo k) b.toNat).phase := by
    rw [afterWake, barrier_departWaiter, barrier_afterRelease hx, afterArrival, if_pos hlast]
    exact Nat.lt_succ_self _
  have hend : (afterRelease s k b.toNat l).completePhase (s.taskNo k) b.toNat (s.barrier (s.taskNo k) b.toNat).phase
      (s.barrier (s.taskNo k) b.toNat).scope = afterWake s k b.toNat l j :=
    completePhase_of_one (s := afterRelease s k b.toNat l) _ _ hw hone
  have hsync := synced_depart (afterWake s k b.toNat l j) k (s.barrier (s.taskNo k) b.toNat).scope
  obtain ⟨_, _, _, hk'⟩ := hsync.lanes k _ hk
  obtain ⟨_, _, _, hj'⟩ := hsync.lanes j m' hm'
  have hdone : ∃ t, exec (.bar w b) s = .next t ∧ Completes s
      ((afterWake s k b.toNat l j).depart k (s.barrier (s.taskNo k) b.toNat).scope) t (.bar w b) k [] none := by
    refine exec_of_go h ?_ ⟨?_, ?_⟩ hk'
    · simp only [hx, harm', Bool.false_eq_true, if_false, barRefusal_of hx hb hn, arrive_of_quiet hq h.here, hlast, if_true,
        hend, show (afterWake s k b.toNat l j).taskNo k = s.taskNo k from taskNo_departWaiter .., hphase]
    · rw [hsync.bad, afterWake, bad_departWaiter]; exact h.sound.bad
    · rw [hsync.iss, afterWake, iss_departWaiter]; exact h.sound.late
  obtain ⟨t, ht, hcomp⟩ := hdone
  exact ⟨t, _, ht, (completes_lane_ne hcomp hj).trans hj', hwait, hpc, hnext⟩

/-- `bara` arrives and does not wait. -/
theorem bara_completes (w : StallS) (h : Alone s (.bara w b) k l) (hq : Quiet s k) (hnone : noneWait s) :
    ∃ u t, exec (.bara w b) s = .next t ∧ Completes s u t (.bara w b) k [] none ∧
      u.barrier (s.taskNo k) b.toNat = afterArrival y ∧ u.mem = s.mem ∧
      u.lane k = some { l with tokens := mset l.tokens b.toNat y.phase } := by
  subst hy
  have hdone : ∃ t, exec (.bara w b) s = .next t ∧ Completes s ((afterRelease s k b.toNat l).setLane k
      { l with tokens := mset l.tokens b.toNat (s.barrier (s.taskNo k) b.toNat).phase }) t (.bara w b) k [] none := by
    refine exec_of_go h ?_ ⟨h.sound.bad, h.sound.late⟩ (lane_setLane_self ..)
    have hl : (afterRelease s k b.toNat l).lane k = some l := h.here
    simp only [barRefusal_of hx hb hn, arrive_of_quiet hq h.here, completePhase_of_none (s := afterRelease s k b.toNat l) hnone,
      ite_self, modLane_of _ hl]
  obtain ⟨t, ht, hcomp⟩ := hdone
  exact ⟨_, t, ht, hcomp, barrier_afterRelease hx b.toNat, rfl, lane_setLane_self ..⟩

/-- `barw` of a phase that has ended: the lane departs. -/
theorem barw_completes (w : StallS) (h : Alone s (.barw w b) k l) (hq : Quiet s k)
    (hp : ∃ p, mget l.tokens b.toNat = some p ∧ p < y.phase) :
    ∃ u m t, exec (.barw w b) s = .next t ∧ Completes s u t (.barw w b) k [] none ∧
      u = { s with lanes := u.lanes } ∧ u.lane k = some m ∧
      m = { l with tokens := mdel l.tokens b.toNat, view := m.view, qg := m.qg, ord := m.ord } := by
  subst hy
  obtain ⟨p, hp, hlt⟩ := hp
  obtain ⟨m, hd, hm⟩ := depart_of_quiet hq h.here (s.barrier (s.taskNo k) b.toNat).scope
  have hdone : ∃ t, exec (.barw w b) s = .next t ∧
      Completes s (s.setLane k { m with tokens := mdel m.tokens b.toNat }) t (.barw w b) k [] none := by
    refine exec_of_go h ?_ ⟨h.sound.bad, h.sound.late⟩ (lane_setLane_self ..)
    simp only [barRefusal_of hx hb hn, h.here, hp, Option.map_some, Option.getD_some, hlt, decide_true, if_true, hd,
      modLane_of _ (lane_setLane_self ..), setLane_setLane]
  obtain ⟨t, ht, hcomp⟩ := hdone
  exact ⟨_, _, t, ht, hcomp, rfl, lane_setLane_self .., by rw [hm]⟩

/-- `barw` of a phase that has not ended: the lane waits for it. -/
theorem barw_waits (w : StallS) (h : Alone s (.barw w b) k l) (hp : ∀ p, mget l.tokens b.toNat = some p → y.phase ≤ p) :
    exec (.barw w b) s = .next (s.setLane k (issued s (.barw w b) l (.barw b.toNat y.phase))).bump := by
  subst hy
  have hpast : ((mget l.tokens b.toNat).map (fun p => decide (p < (s.barrier (s.taskNo k) b.toNat).phase))).getD false = false := by
    cases ht : mget l.tokens b.toNat with
    | none => rfl
    | some p => simpa using hp p ht
  rw [exec_barw, execBarw, exec_of_hold h (u := s) (w := .barw b.toNat (s.barrier (s.taskNo k) b.toNat).phase) ?_ h.sound,
    holdLane_of h.here rfl]
  · rfl
  · simp only [barRefusal_of hx hb hn, h.here, hpast, Bool.false_eq_true, if_false]
end barrier

/-- The next `bar` of a task whose saturation trap is armed (R34). -/
theorem bar_saturates (w : StallS) (b : BitVec 5) (hx : s.taskOf k = some x) (h : Alone s (.bar w b) k l) (harm : x.arm = true)
    (hsat : x.sati = true ∨ x.satf = true) :
    exec (.bar w b) s = finish ((s.modTask (s.taskNo k) (fun x => { x with arm := false })).takeTrap k (.bar w b)
      (satCause x b.toNat)).bump := by
  rw [exec_bar, execBar]
  refine exec_of_trap h ?_ rfl
  have hon : (x.arm && (x.sati || x.satf)) = true := by simpa [harm] using hsat
  simp only [hx, hon, if_true]


/-- The detail of SATURATE (R34, R351). -/
theorem satCause_detail (x : Task) (b : BitVec 5) :
    (satCause x b.toNat).group = 7 ∧ (satCause x b.toNat).w0.toNat % 256 = 1 ∧
      (satCause x b.toNat).w0.toNat / 256 = bit x.satf * 2 + bit x.sati ∧ (satCause x b.toNat).w1 = b.setWidth 32 := by
  refine ⟨rfl, ?_, ?_, BitVec.eq_of_toNat_eq (by simp [satCause, mkCause])⟩ <;>
    cases hf : x.satf <;> cases hi : x.sati <;> simp [satCause, mkCause, bit, hf, hi]

/-- Settles O46: one lemma for each end that each of these instructions comes to. -/
theorem countersAndBarriersComplete : Obligations.CountersAndBarriersComplete := by
  intro w w2 s k l x hx
  refine ⟨fun c h hc => cinit_completes w c hx h hc, fun c y h hc hy => ?_, fun n h => seal_completes w2 n h, fun n h => ?_,
    fun sc b n h hn hb ha hw h0 hth hsc => barinit_completes w sc b hx h hn hb ha hw h0 hth hsc,
    fun b y h hq harm hb hy hn => ⟨fun hnone => ?_, fun j m hj hlast hjm hw hone => ?_⟩, fun b h harm hsat => ?_,
    fun b y h hq hnone hb hy hn => bara_completes hx hb hy hn w2 h hq hnone, fun b y h hq hb hy hn => ?_⟩
  · rcases le_or_gt y.val 0 with hv | hv
    · obtain ⟨t, ht, hcomp⟩ := cwait_completes w c hx h hc hy hv
      exact ⟨t, ht, fun _ => hcomp, fun hp => absurd hv (not_le.2 hp)⟩
    · exact ⟨_, cwait_waits w c hx h hc (hy ▸ hv), fun hp => absurd hv (not_lt.2 hp),
        fun _ => ⟨lane_setLane_self .., rfl, rfl⟩⟩
  · by_cases hland : ∀ c, c ∈ mgetD l.batches n.toNat [] → mget s.landed c ≠ none
    · obtain ⟨v, t, ht, hcomp⟩ := waitb_completes w2 n h hland
      exact ⟨t, ht, fun _ => ⟨v, hcomp⟩, fun ⟨c, hc, hnone⟩ => absurd hnone (hland c hc)⟩
    · have hout : ∃ c, c ∈ mgetD l.batches n.toNat [] ∧ mget s.landed c = none := by push Not at hland; exact hland
      exact ⟨_, waitb_waits w2 n h hout, fun hall => absurd hall hland, fun _ => ⟨lane_setLane_self .., rfl⟩⟩
  · rcases Nat.lt_or_ge (y.a + 1) y.n with hmore | hlast
    · have hbar : (afterRelease s k b.toNat l).barrier (s.taskNo k) b.toNat = afterArrival y := hy ▸ barrier_afterRelease hx b.toNat
      exact ⟨_, bar_waits hx hb hy hn w2 h hq harm hmore, hbar, rfl, fun hp => absurd hmore (Nat.not_lt.2 hp),
        fun _ => lane_setLane_self ..⟩
    · obtain ⟨u, t, ht, hcomp, hbar, hmem⟩ := bar_completes hx hb hy hn w2 h hq harm hnone hlast
      exact ⟨t, ht, (completes_barrier hcomp ..).trans hbar, (completes_mem hcomp).trans hmem, fun _ => ⟨u, hcomp⟩,
        fun hp => absurd hp (Nat.not_lt.2 hlast)⟩
  · exact bar_wakes hx hb hy hn w2 h hq harm hlast hj hjm hw hone
  · exact ⟨_, bar_saturates w2 b hx h harm hsat, satCause_detail x b⟩
  · by_cases hp : ∃ p, mget l.tokens b.toNat = some p ∧ p < y.phase
    · obtain ⟨u, m, t, ht, hcomp, hu, hm, hml⟩ := barw_completes hx hb hy hn w2 h hq hp
      exact ⟨t, ht, fun _ => ⟨u, m, hcomp, hu, hm, hml⟩, fun hall => by
        obtain ⟨p, hget, hlt⟩ := hp
        exact absurd hlt (Nat.not_lt.2 (hall p hget))⟩
    · have hall : ∀ p, mget l.tokens b.toNat = some p → y.phase ≤ p := fun p hget =>
        Nat.not_lt.1 (fun hlt => hp ⟨p, hget, hlt⟩)
      exact ⟨_, barw_waits hx hb hy hn w2 h hall, fun hyes => absurd hyes hp, fun _ => ⟨lane_setLane_self .., rfl⟩⟩

end Sys2Proof.Numbers
end

section
/-! PROOFS. Rounding to a binary format, exactly: what the functions of R20 and R28 compute, as rationals. -/

namespace Sys2Proof.Numbers

open Sys2Proof Sys2Proof.Machine Sys2Proof.Claims

/-- The number n ÷ d × 2^e. -/
def ratOf (n d : Nat) (e : Int) : ℚ := n / d * 2 ^ e

theorem ratOf_pos {n d : Nat} {e : Int} (hn : 0 < n) (hd : 0 < d) : 0 < ratOf n d e := by
  unfold ratOf; positivity

theorem zpow_toNat {e : Int} (h : 0 ≤ e) : (2 : ℚ) ^ e.toNat = 2 ^ e := by
  rw [← zpow_natCast, Int.toNat_of_nonneg h]

/-- n ÷ d × 2^e as a quotient of two naturals. -/
theorem scaleUp_spec (n : Nat) {d : Nat} (e : Int) (hd : 0 < d) :
    0 < (scaleUp n d e).2 ∧ ((scaleUp n d e).1 : ℚ) / (scaleUp n d e).2 = ratOf n d e := by
  unfold scaleUp ratOf
  split
  · rename_i h
    refine ⟨hd, ?_⟩
    push_cast
    rw [zpow_toNat h]
    ring
  · rename_i h
    refine ⟨by positivity, ?_⟩
    push_cast
    rw [zpow_toNat (by omega), zpow_neg]
    field_simp

theorem log2_bounds {n : Nat} (h : 0 < n) : (2 : ℚ) ^ (Nat.log2 n : Int) ≤ n ∧ (n : ℚ) < 2 ^ ((Nat.log2 n : Int) + 1) := by
  constructor
  · rw [zpow_natCast]; exact_mod_cast Nat.log2_self_le h.ne'
  · rw [← Nat.cast_succ, zpow_natCast]; exact_mod_cast Nat.lt_log2_self

/-- `floorLog2` is the exponent of a number. -/
theorem floorLog2_spec {n d : Nat} (e : Int) (hn : 0 < n) (hd : 0 < d) :
    (2 : ℚ) ^ floorLog2 n d e ≤ ratOf n d e ∧ ratOf n d e < 2 ^ (floorLog2 n d e + 1) := by
  obtain ⟨hn1, hn2⟩ := log2_bounds hn
  obtain ⟨hd1, hd2⟩ := log2_bounds hd
  set g : Int := (Nat.log2 n : Int) - Nat.log2 d with hg
  obtain ⟨hb, hab⟩ := scaleUp_spec n (-g) hd
  have hdq : (0 : ℚ) < d := by exact_mod_cast hd
  have h2 : ∀ k : Int, (0 : ℚ) < 2 ^ k := fun k => by positivity
  -- n / d lies between 2^(g - 1) and 2^(g + 1)
  have hlo : (2 : ℚ) ^ (g - 1) < n / d := by
    rw [lt_div_iff₀ hdq]
    calc (2 : ℚ) ^ (g - 1) * d < 2 ^ (g - 1) * 2 ^ ((Nat.log2 d : Int) + 1) := by
          exact mul_lt_mul_of_pos_left hd2 (h2 _)
      _ = 2 ^ (Nat.log2 n : Int) := by rw [← zpow_add₀ two_ne_zero]; congr 1; omega
      _ ≤ n := hn1
  have hhi : (n : ℚ) / d < 2 ^ (g + 1) := by
    rw [div_lt_iff₀ hdq]
    calc (n : ℚ) < 2 ^ ((Nat.log2 n : Int) + 1) := hn2
      _ = 2 ^ (g + 1) * 2 ^ (Nat.log2 d : Int) := by rw [← zpow_add₀ two_ne_zero]; congr 1; omega
      _ ≤ 2 ^ (g + 1) * d := mul_le_mul_of_nonneg_left hd1 (h2 _).le
  have hle : (scaleUp n d (-g)).2 ≤ (scaleUp n d (-g)).1 ↔ (2 : ℚ) ^ g ≤ n / d := by
    have hbq : (0 : ℚ) < (scaleUp n d (-g)).2 := by exact_mod_cast hb
    rw [← Nat.cast_le (α := ℚ), ← one_le_div₀ hbq, hab, ratOf, zpow_neg, ← div_eq_mul_inv, one_le_div₀ (h2 g)]
  have hscale : ∀ k : Int, (2 : ℚ) ^ (k + e) = 2 ^ k * 2 ^ e := fun k => zpow_add₀ two_ne_zero k e
  unfold floorLog2 ratOf
  dsimp only
  rw [← hg]
  split
  · rename_i h
    rw [hscale, show g + e + 1 = (g + 1) + e by ring, hscale]
    exact ⟨mul_le_mul_of_nonneg_right (hle.1 h) (h2 e).le, mul_lt_mul_of_pos_right hhi (h2 e)⟩
  · rename_i h
    rw [hscale, show g - 1 + e + 1 = g + e by ring, hscale]
    exact ⟨mul_le_mul_of_nonneg_right hlo.le (h2 e).le, mul_lt_mul_of_pos_right (not_le.1 (mt hle.2 h)) (h2 e)⟩

/-- Rounding to nearest is off by at most a half. -/
theorem roundNat_near (neg : Bool) (a : Nat) {b : Nat} (hb : 0 < b) : |(roundNat .rne neg a b : ℚ) - a / b| ≤ 1 / 2 := by
  have hbq : (0 : ℚ) < b := by exact_mod_cast hb
  have hab : (a : ℚ) = b * (a / b : Nat) + (a % b : Nat) := by exact_mod_cast (Nat.div_add_mod a b).symm
  have hr : (a : ℚ) / b = (a / b : Nat) + (a % b : Nat) / b := by
    rw [div_eq_iff hbq.ne', add_mul, div_mul_cancel₀ _ hbq.ne', mul_comm]; exact hab
  have hlt : a % b < b := Nat.mod_lt _ hb
  have h0 : (0 : ℚ) ≤ (a % b : Nat) / b := by positivity
  unfold roundNat
  dsimp only
  rw [hr]
  split
  · rename_i h
    have h2 : b ≤ 2 * (a % b) := by
      simp only [Bool.or_eq_true, decide_eq_true_eq, Bool.and_eq_true, beq_iff_eq] at h
      omega
    have h2q : (1 : ℚ) / 2 ≤ (a % b : Nat) / b := by rw [div_le_div_iff₀ two_pos hbq]; norm_cast; omega
    have h1 : ((a % b : Nat) : ℚ) / b ≤ 1 := by rw [div_le_one hbq]; exact_mod_cast hlt.le
    rw [abs_le]
    push_cast
    constructor <;> linarith
  · rename_i h
    have h2 : 2 * (a % b) ≤ b := by
      simp only [Bool.or_eq_true, decide_eq_true_eq, Bool.and_eq_true, beq_iff_eq] at h
      omega
    have h2q : ((a % b : Nat) : ℚ) / b ≤ 1 / 2 := by rw [div_le_div_iff₀ hbq two_pos]; norm_cast; omega
    rw [abs_le]
    constructor <;> linarith

/-- Rounding keeps an integer bound from above. -/
theorem roundNat_le (neg : Bool) {a b c : Nat} (hb : 0 < b) (h : (a : ℚ) / b ≤ c) : roundNat .rne neg a b ≤ c := by
  have hn := (abs_le.1 (roundNat_near neg a hb)).2
  have : (roundNat .rne neg a b : ℚ) < c + 1 := by linarith
  exact Nat.lt_succ_iff.1 (by exact_mod_cast this)
/-- Rounding keeps an integer bound from below. -/
theorem le_roundNat (neg : Bool) {a b c : Nat} (hb : 0 < b) (h : (c : ℚ) ≤ a / b) : c ≤ roundNat .rne neg a b := by
  have hn := (abs_le.1 (roundNat_near neg a hb)).1
  have : (c : ℚ) < roundNat .rne neg a b + 1 := by linarith
  exact Nat.lt_succ_iff.1 (by exact_mod_cast this)

-- F32 (R20).
/-- The significand and the exponent of finite magnitude bits. -/
def sigOf (m : Nat) : Nat := if m < 2 ^ 23 then m else m % 2 ^ 23 + 2 ^ 23
def expOf (m : Nat) : Int := if m < 2 ^ 23 then -149 else -150 + (m / 2 ^ 23 : Nat)

/-- Magnitude bits from a field of exponent c and a significand stand for sig × 2^(c − 149),
  also where the significand carries. -/
theorem f32Of_mag {c sig : Nat} (hsig : sig ≤ 2 ^ 24) (hc : c = 0 ∨ 2 ^ 23 ≤ sig) (hm : c * 2 ^ 23 + sig < 2 ^ 31) :
    f32Of (c * 2 ^ 23 + sig) = sig * 2 ^ ((c : Int) - 149) := by
  have hsign : (c * 2 ^ 23 + sig) / 2 ^ 31 % 2 = 0 := by omega
  unfold f32Of
  rw [hsign]
  simp only [zero_ne_one, if_false, one_mul]
  rcases Nat.lt_or_ge sig (2 ^ 23) with hlo | hlo
  · obtain rfl : c = 0 := by omega
    rw [if_pos (by omega), show (0 * 2 ^ 23 + sig) % 2 ^ 23 = sig by omega]
    norm_num
  · rcases Nat.lt_or_ge sig (2 ^ 24) with hhi | hhi
    · rw [if_neg (by omega), show (c * 2 ^ 23 + sig) % 2 ^ 23 = sig - 2 ^ 23 by omega,
        show (c * 2 ^ 23 + sig) / 2 ^ 23 % 256 = c + 1 by omega, Nat.add_sub_cancel' hlo]
      congr 2
      push_cast; ring
    · obtain rfl : sig = 2 ^ 24 := by omega
      rw [if_neg (by omega), show (c * 2 ^ 23 + 2 ^ 24) % 2 ^ 23 = 0 by omega,
        show (c * 2 ^ 23 + 2 ^ 24) / 2 ^ 23 % 256 = c + 2 by omega]
      push_cast
      rw [show (c : Int) + 2 - 150 = ((c : Int) - 149) + 1 by ring, zpow_add_one₀ two_ne_zero]
      ring

/-- The largest finite value. -/
def maxFin : ℚ := (2 ^ 24 - 1) * 2 ^ (104 : Int)

/-- x rounded to nearest has the exponent field c and the significand sig, which may carry. -/
structure RoundsTo (x : ℚ) (c sig : Nat) : Prop where
  sig_le : sig ≤ 2 ^ 24
  full : c = 0 ∨ 2 ^ 23 ≤ sig
  near : |(sig : ℚ) * 2 ^ ((c : Int) - 149) - x| ≤ 2 ^ ((c : Int) - 150)
  size : c ≠ 0 → (2 : ℚ) ^ ((c : Int) - 126) ≤ x
  lt : x < 2 ^ ((c : Int) - 125)
  le : ∀ k : Nat, x ≤ k * 2 ^ ((c : Int) - 149) → sig ≤ k
  ge : ∀ k : Nat, k * 2 ^ ((c : Int) - 149) ≤ x → k ≤ sig

/-- What the model computes of a positive number is its rounding. -/
theorem magBits_rounds (neg : Bool) {n d : Nat} (e : Int) (hn : 0 < n) (hd : 0 < d) :
    ∃ c sig, f32.magBits .rne neg n d e = c * 2 ^ 23 + sig ∧ RoundsTo (ratOf n d e) c sig := by
  obtain ⟨hlo, hhi⟩ := floorLog2_spec e hn hd
  have hqmin : f32.qmin = -149 := by decide
  unfold Fmt.magBits
  simp only [hqmin, show f32.fb = 23 from rfl, Nat.cast_ofNat]
  set ex := floorLog2 n d e with hex
  obtain ⟨c, hc⟩ : ∃ c : Nat, (c : Int) = max (ex - 23) (-149) + 149 := ⟨(max (ex - 23) (-149) + 149).toNat, by omega⟩
  have hq : max (ex - 23) (-149) = (c : Int) - 149 := by omega
  rw [hq, show ((c : Int) - 149 - -149).toNat = c by omega]
  obtain ⟨hb, hab⟩ := scaleUp_spec n (e - ((c : Int) - 149)) hd
  have hq0 : (0 : ℚ) < 2 ^ ((c : Int) - 149) := by positivity
  have hx : ratOf n d e = (scaleUp n d (e - ((c : Int) - 149))).1 / (scaleUp n d (e - ((c : Int) - 149))).2 *
      2 ^ ((c : Int) - 149) := by
    rw [hab, ratOf, ratOf, mul_assoc, ← zpow_add₀ two_ne_zero]
    congr 2; ring
  have hup : ratOf n d e < 2 ^ ((c : Int) - 125) := hhi.trans_le (zpow_le_zpow_right₀ one_le_two (by omega))
  have hle : ∀ k : Nat, ratOf n d e ≤ k * 2 ^ ((c : Int) - 149) → signif .rne neg n d e ((c : Int) - 149) ≤ k := fun k hk =>
    roundNat_le neg hb (le_of_mul_le_mul_right (hx ▸ hk) hq0)
  have hge : ∀ k : Nat, k * 2 ^ ((c : Int) - 149) ≤ ratOf n d e → k ≤ signif .rne neg n d e ((c : Int) - 149) := fun k hk =>
    le_roundNat neg hb (le_of_mul_le_mul_right (hx ▸ hk) hq0)
  have hsize : c ≠ 0 → (2 : ℚ) ^ ((c : Int) - 126) ≤ ratOf n d e := fun h0 =>
    (zpow_le_zpow_right₀ one_le_two (by omega)).trans hlo
  have hpow : ∀ j : Nat, ((2 ^ j : Nat) : ℚ) * 2 ^ ((c : Int) - 149) = 2 ^ ((c : Int) - 149 + j) := fun j => by
    rw [zpow_add₀ two_ne_zero, mul_comm, zpow_natCast]; push_cast; rfl
  refine ⟨c, _, rfl, hle _ ?_, ?_, ?_, hsize, hup, hle, hge⟩
  · rw [hpow]
    exact hup.le.trans (zpow_le_zpow_right₀ one_le_two (by omega))
  · by_cases h0 : c = 0
    · exact Or.inl h0
    · refine Or.inr (hge _ ?_)
      rw [hpow]
      exact (zpow_le_zpow_right₀ one_le_two (by omega)).trans (hsize h0)
  · have hnear := roundNat_near neg (scaleUp n d (e - ((c : Int) - 149))).1 hb
    rw [hx, ← sub_mul, abs_mul, abs_of_pos hq0, show (c : Int) - 150 = (c : Int) - 149 - 1 by ring,
      zpow_sub_one₀ two_ne_zero,
      mul_comm ((2 : ℚ) ^ _) _]
    exact mul_le_mul_of_nonneg_right (by simpa [signif] using hnear) hq0.le

section rounded
variable {x : ℚ} {c sig : Nat} (h : RoundsTo x c sig)
include h

/-- A number of at most the largest finite value stays finite. -/
theorem RoundsTo.finite (hx : x ≤ maxFin) : c * 2 ^ 23 + sig < 0x7F800000 := by
  have hmax : maxFin < 2 ^ (128 : Int) := by norm_num [maxFin]
  have hsig := h.sig_le
  rcases Nat.lt_or_ge c 253 with hc | hc
  · omega
  · have hc0 : c ≠ 0 := by omega
    have hlt : ((c : Int) - 126) < 128 := (zpow_lt_zpow_iff_right₀ one_lt_two).1 ((h.size hc0).trans_lt (hx.trans_lt hmax))
    obtain rfl : c = 253 := by omega
    have := h.le (2 ^ 24 - 1) (by norm_num [maxFin] at hx ⊢; exact hx)
    omega

theorem RoundsTo.value (hfin : c * 2 ^ 23 + sig < 0x7F800000) : f32Of (c * 2 ^ 23 + sig) = sig * 2 ^ ((c : Int) - 149) :=
  f32Of_mag h.sig_le h.full (by omega)

/-- A number of 2^128 or more overflows. -/
theorem RoundsTo.overflow (hx : (2 : ℚ) ^ (128 : Int) ≤ x) : 0x7F800000 ≤ c * 2 ^ 23 + sig := by
  have hlt : (128 : Int) < (c : Int) - 125 := (zpow_lt_zpow_iff_right₀ one_lt_two).1 (hx.trans_lt h.lt)
  rcases h.full with h0 | hs
  · omega
  · omega

/-- A number of 2^−126 or more is normal, and is off by at most 2^−24 of itself. -/
theorem RoundsTo.normal (hx : (2 : ℚ) ^ (-126 : Int) ≤ x) :
    2 ^ 23 ≤ c * 2 ^ 23 + sig ∧ |(sig : ℚ) * 2 ^ ((c : Int) - 149) - x| ≤ 2 ^ (-24 : Int) * x := by
  have hulp : (2 : ℚ) ^ ((c : Int) - 126) ≤ x := by
    by_cases h0 : c = 0
    · subst h0; exact hx
    · exact h.size h0
  refine ⟨?_, h.near.trans ?_⟩
  · by_cases h0 : c = 0
    · subst h0
      have := h.ge (2 ^ 23) (by norm_num at hx ⊢; exact hx)
      omega
    · rcases h.full with h1 | h1 <;> omega
  · calc (2 : ℚ) ^ ((c : Int) - 150) = 2 ^ (-24 : Int) * 2 ^ ((c : Int) - 126) := by
          rw [← zpow_add₀ two_ne_zero]; congr 1; ring
      _ ≤ 2 ^ (-24 : Int) * x := mul_le_mul_of_nonneg_left hulp (by positivity)

/-- A number below 2^−126 is off by at most 2^−150, and an integer bound in units of 2^−149 is kept. -/
theorem RoundsTo.small (hx : x < (2 : ℚ) ^ (-126 : Int)) :
    c = 0 ∧ |(sig : ℚ) * 2 ^ ((c : Int) - 149) - x| ≤ 2 ^ (-150 : Int) := by
  have h0 : c = 0 := by
    by_contra h0
    have := (zpow_lt_zpow_iff_right₀ (one_lt_two (α := ℚ))).1 ((h.size h0).trans_lt hx)
    omega
  subst h0
  exact ⟨rfl, h.near⟩

/-- A number that the format holds is exact. -/
theorem RoundsTo.exact {k : Nat} (hx : x = k * 2 ^ ((c : Int) - 149)) : sig = k :=
  Nat.le_antisymm (h.le k hx.le) (h.ge k hx.ge)

/-- A power of two that F32 holds. -/
theorem RoundsTo.power {k : Int} (hx : x = 2 ^ k) (hlo : -149 ≤ k) (hhi : k ≤ 127) :
    c * 2 ^ 23 + sig = if -126 ≤ k then (k + 127).toNat * 2 ^ 23 else 2 ^ (k + 149).toNat := by
  have hlt : k < (c : Int) - 125 := (zpow_lt_zpow_iff_right₀ (one_lt_two (α := ℚ))).1 (hx ▸ h.lt)
  have hge : c ≠ 0 → (c : Int) - 126 ≤ k := fun h0 => (zpow_le_zpow_iff_right₀ (one_lt_two (α := ℚ))).1 (hx ▸ h.size h0)
  have hpow : ∀ j : Nat, k = (c : Int) - 149 + j → sig = 2 ^ j := fun j hj => h.exact (by
    rw [hx, hj, zpow_add₀ two_ne_zero, mul_comm, zpow_natCast]; push_cast; rfl)
  split
  · rw [hpow 23 (by omega), show (k + 127).toNat = c + 1 by omega]
    ring
  · obtain rfl : c = 0 := by omega
    rw [hpow (k + 149).toNat (by omega)]
    simp
end rounded

/-- The rounding of R103 to nearest: an overflow is an infinity. -/
theorem out_rne (s : Bool) (n d : Nat) (e : Int) :
    f32.out .rne false (.rat s n d e) = f32.signed s (min (f32.magBits .rne s n d e) 0x7F800000) := by
  have hinf : f32.infBits = 0x7F800000 := by decide
  unfold Fmt.out
  simp only [Bool.false_and, Bool.false_eq_true, if_false, hinf]
  split
  · rw [min_eq_left (by omega)]
  · rw [min_eq_right (by omega)]

end Sys2Proof.Numbers
end

section
/-! PROOFS. F32 patterns: what the model reads of an operand, and what it flushes (R20, R31, R103, R109). -/

namespace Sys2Proof.Numbers

open Sys2Proof Sys2Proof.Machine Sys2Proof.Claims

theorem f32_signBit : f32.signBit = 2 ^ 31 := rfl
theorem f32_infBits : f32.infBits = 0x7F800000 := rfl

/-- The sign of a pattern. -/
def negOf (x : Nat) : Bool := x.testBit 31

theorem negOf_iff (x : Nat) : negOf x = true ↔ x / 2 ^ 31 % 2 = 1 := by
  rw [negOf, Nat.testBit_eq_decide_div_mod_eq, decide_eq_true_eq]

theorem signed_eq (s : Bool) (m : Nat) : f32.signed s m = (if s then 2 ^ 31 else 0) + m := by
  cases s <;> simp [Fmt.signed, f32_signBit]

theorem signed_negOf {x m : Nat} (hx : x < 2 ^ 32) : f32.signed (negOf x) m = x / 2 ^ 31 * 2 ^ 31 + m := by
  rw [signed_eq]
  have h := negOf_iff x
  split
  · rename_i hs
    have := h.1 hs
    omega
  · rename_i hs
    have : ¬ x / 2 ^ 31 % 2 = 1 := mt h.2 hs
    omega

-- Significand and exponent.
theorem sigOf_pos {m : Nat} (h : 0 < m) : 0 < sigOf m := by unfold sigOf; split <;> omega
theorem sigOf_lt (m : Nat) : sigOf m < 2 ^ 24 := by unfold sigOf; split <;> omega
theorem le_expOf (m : Nat) : -149 ≤ expOf m := by unfold expOf; split <;> omega

/-- The value of a pattern whose magnitude bits are m. -/
theorem f32Of_eq (x : Nat) (hfin : x % 2 ^ 31 < 0x7F800000) :
    f32Of x = (if negOf x then -1 else 1) * (sigOf (x % 2 ^ 31) * 2 ^ expOf (x % 2 ^ 31)) := by
  unfold f32Of sigOf expOf
  simp only [negOf_iff]
  congr 1
  have he : x / 2 ^ 23 % 256 = x % 2 ^ 31 / 2 ^ 23 := by omega
  have hf : x % 2 ^ 23 = x % 2 ^ 31 % 2 ^ 23 := by omega
  rw [he, hf]
  rcases Nat.lt_or_ge (x % 2 ^ 31) (2 ^ 23) with h | h
  · rw [if_pos (by omega), if_pos h, if_pos h, Nat.mod_eq_of_lt h]
  · rw [if_neg (by omega), if_neg (by omega), if_neg (by omega), Nat.add_comm]
    congr 2

theorem f32Of_mod (x : Nat) (hfin : x % 2 ^ 31 < 0x7F800000) : f32Of (x % 2 ^ 31) =
    sigOf (x % 2 ^ 31) * 2 ^ expOf (x % 2 ^ 31) := by
  have h := f32Of_eq (x % 2 ^ 31) (by omega)
  have hneg : negOf (x % 2 ^ 31) = false := by
    rw [Bool.eq_false_iff, ne_eq, negOf_iff]; omega
  rw [Nat.mod_mod, hneg] at h
  rw [h, if_neg Bool.false_ne_true, one_mul]

theorem f32Of_signed {x m : Nat} (hm : m < 0x7F800000) :
    f32Of (x / 2 ^ 31 * 2 ^ 31 + m) = (if negOf x then -1 else 1) * f32Of m := by
  have hmod : (x / 2 ^ 31 * 2 ^ 31 + m) % 2 ^ 31 = m := by omega
  have hneg : negOf (x / 2 ^ 31 * 2 ^ 31 + m) = negOf x := by
    rw [Bool.eq_iff_iff, negOf_iff, negOf_iff]; omega
  rw [f32Of_eq _ (by omega), hmod, hneg, ← Nat.mod_eq_of_lt (show m < 2 ^ 31 by omega), f32Of_mod _ (by omega)]

theorem f32Fin_iff (b : Nat) : f32Fin b ↔ b % 2 ^ 31 < 0x7F800000 := by
  unfold f32Fin
  omega

-- Data.
theorem dec_finite {x : Nat} (h : x % 2 ^ 31 < 0x7F800000) :
    f32.dec x = .num (negOf x) (sigOf (x % 2 ^ 31)) (expOf (x % 2 ^ 31)) := by
  unfold Fmt.dec sigOf expOf negOf
  simp only [f32_infBits, f32_signBit, show f32.fb = 23 from rfl, show f32.qmin = -149 from rfl]
  rw [if_neg (by omega), if_neg (by omega)]
  split
  · rfl
  · congr 1
    ring
theorem dec_inf {x : Nat} (h : x % 2 ^ 31 = 0x7F800000) : f32.dec x = .inf (negOf x) := by
  unfold Fmt.dec negOf
  simp only [f32_infBits, f32_signBit, show f32.eb + f32.fb = 31 from rfl]
  rw [if_neg (by omega), if_pos h]
theorem dec_nan {x : Nat} (h : 0x7F800000 < x % 2 ^ 31) : f32.dec x = .nan := by
  exact if_pos h

/-- A pattern that decodes to a number is finite, and the number is its value. -/
theorem dec_num {x n : Nat} {s : Bool} {e : Int} (h : f32.dec x = .num s n e) :
    x % 2 ^ 31 < 0x7F800000 ∧ s = negOf x ∧ n = sigOf (x % 2 ^ 31) ∧ e = expOf (x % 2 ^ 31) := by
  rcases Nat.lt_trichotomy (x % 2 ^ 31) 0x7F800000 with hlt | heq | hgt
  · rw [dec_finite hlt] at h
    cases h
    exact ⟨hlt, rfl, rfl, rfl⟩
  · rw [dec_inf heq] at h; cases h
  · rw [dec_nan hgt] at h; cases h

theorem isSub_iff (x : Nat) : f32.isSub x = true ↔ x % 2 ^ 31 ≠ 0 ∧ x % 2 ^ 31 < 2 ^ 23 := by
  simp [Fmt.isSub, f32_signBit, show f32.fb = 23 from rfl]

-- The operand (R31, R103).
section operand
variable {l : Lane} {a : Word}

theorem f32In_lt (l : Lane) (a : Word) : f32In l a < 2 ^ 32 := by unfold f32In; split <;> omega

/-- An operand that is zero, or that the input flush makes zero. -/
theorem read_zero (h : f32In l a % 2 ^ 31 = 0) : ∃ e, f32.read (fzis l) (lo32 a) = .num (negOf (f32In l a)) 0 e := by
  have hneg : (lo32 a).testBit 31 = negOf (f32In l a) := by
    rw [Bool.eq_iff_iff, ← negOf, negOf_iff, negOf_iff, lo32, f32In]
    split <;> omega
  unfold Fmt.read
  split
  · exact ⟨0, by rw [show f32.eb + f32.fb = 31 from rfl, hneg]⟩
  · rename_i hs
    have hm : lo32 a % 2 ^ 31 = 0 := by
      simp only [Bool.and_eq_true, isSub_iff, not_and, not_lt] at hs
      simp only [f32In] at h
      unfold lo32 at *
      split at h
      · rename_i hf
        by_contra hne
        have := hs hf.1 hne
        omega
      · omega
    exact ⟨_, by rw [dec_finite (by omega), hm, negOf, hneg]; rfl⟩

/-- Any other operand is read as it is. -/
theorem read_nonzero (h : f32In l a % 2 ^ 31 ≠ 0) :
    lo32 a = f32In l a ∧ f32.read (fzis l) (lo32 a) = f32.dec (f32In l a) ∧ (fzis l = true →
      2 ^ 23 ≤ f32In l a % 2 ^ 31) := by
  have hcond : ¬ (fzis l = true ∧ a.toNat % 2 ^ 31 < 2 ^ 23) := by
    intro hf
    rw [f32In, if_pos hf] at h
    omega
  have hx : f32In l a = lo32 a := by rw [f32In, if_neg hcond, lo32]
  refine ⟨hx.symm, ?_, fun hf => ?_⟩
  · unfold Fmt.read
    rw [if_neg, hx]
    simp only [Bool.and_eq_true, isSub_iff, lo32]
    rintro ⟨hf, -, hlt⟩
    exact hcond ⟨hf, by omega⟩
  · rw [hx, lo32]
    have : ¬ a.toNat % 2 ^ 31 < 2 ^ 23 := fun hlt => hcond ⟨hf, hlt⟩
    omega

/-- A finite operand that is not zero. -/
theorem read_finite (h0 : 0 < f32In l a % 2 ^ 31) (hfin : f32In l a % 2 ^ 31 < 0x7F800000) :
    f32.read (fzis l) (lo32 a) =
      .num (negOf (f32In l a)) (sigOf (f32In l a % 2 ^ 31)) (expOf (f32In l a % 2 ^ 31)) := by
  rw [(read_nonzero h0.ne').2.1, dec_finite hfin]
end operand

-- The result flush (R109).
theorem flushApprox_keep {fz : Bool} {b : Nat} (h : fz = true → b % 2 ^ 31 = 0 ∨ 2 ^ 23 ≤ b % 2 ^ 31) :
    flushApprox fz b = b := by
  unfold flushApprox
  rw [if_neg]
  simp only [Bool.and_eq_true, isSub_iff]
  rintro ⟨hf, h0, hlt⟩
  rcases h hf with h | h <;> omega

theorem flushApprox_sub {b : Nat} (h0 : b % 2 ^ 31 ≠ 0) (h : b % 2 ^ 31 < 2 ^ 23) : flushApprox true b =
    b / 2 ^ 31 * 2 ^ 31 := by
  unfold flushApprox
  rw [if_pos]
  simp only [Bool.true_and, isSub_iff]
  exact ⟨h0, h⟩

end Sys2Proof.Numbers
end

section
/-! PROOFS. The values that F32 patterns stand for, in order,
  and the comparisons that the approximations are held to (R109). -/

namespace Sys2Proof.Numbers

open Sys2Proof Sys2Proof.Machine Sys2Proof.Claims

/-- The value of magnitude bits. -/
def mag (m : Nat) : ℚ := sigOf m * 2 ^ expOf m

theorem mag_pos {m : Nat} (h : 0 < m) : 0 < mag m := by
  have := sigOf_pos h
  unfold mag; positivity
theorem mag_subnormal {m : Nat} (h : m ≤ 2 ^ 23) : mag m = m * 2 ^ (-149 : Int) := by
  rcases h.lt_or_eq with h | rfl
  · rw [mag, sigOf, expOf, if_pos h, if_pos h]
  · simp [mag, sigOf, expOf]

/-- Neighbouring patterns are one unit in the last place apart. -/
theorem mag_succ (m : Nat) : mag (m + 1) = mag m + 2 ^ expOf m := by
  have hstep : ∀ e : Int, ((2 ^ 23 : Nat) : ℚ) * 2 ^ (e + 1) = ((2 ^ 23 - 1 + 2 ^ 23 : Nat) : ℚ) * 2 ^ e + 2 ^ e :=
    fun e => by
    rw [zpow_add_one₀ two_ne_zero]; push_cast; ring
  rcases Nat.lt_or_ge m (2 ^ 23) with h | h
  · rw [mag_subnormal (by omega), mag_subnormal h.le, expOf, if_pos h]
    push_cast; ring
  · unfold mag sigOf expOf
    rw [if_neg (by omega), if_neg (by omega), if_neg (by omega), if_neg (by omega)]
    by_cases hc : m % 2 ^ 23 = 2 ^ 23 - 1
    · rw [hc, show (m + 1) % 2 ^ 23 + 2 ^ 23 = 2 ^ 23 by omega, show (m + 1) / 2 ^ 23 = m / 2 ^ 23 + 1 by omega]
      rw [← hstep]
      congr 2
      push_cast; ring
    · rw [show (m + 1) % 2 ^ 23 = m % 2 ^ 23 + 1 by omega, show (m + 1) / 2 ^ 23 = m / 2 ^ 23 by omega]
      push_cast; ring

theorem mag_strictMono : StrictMono mag := strictMono_nat_of_lt_succ fun m => by
  rw [mag_succ]; exact lt_add_of_pos_right _ (by positivity)

/-- The powers of two that normal patterns hold. -/
theorem mag_power (n : Nat) (h : 1 ≤ n) : mag (n * 2 ^ 23) = 2 ^ ((n : Int) - 127) := by
  rw [mag, sigOf, expOf, if_neg (by omega), if_neg (by omega), Nat.mul_mod_left, Nat.mul_div_cancel _ (by norm_num)]
  rw [show (n : Int) - 127 = 23 + (-150 + n) by ring, zpow_add₀ two_ne_zero 23 _]
  congr 1

theorem mag_maxFin : mag 0x7F7FFFFF = maxFin := by norm_num [mag, sigOf, expOf, maxFin]
theorem mag_le_maxFin {m : Nat} (h : m < 0x7F800000) : mag m ≤ maxFin := by
  rw [← mag_maxFin]; exact mag_strictMono.monotone (by omega)

theorem f32Of_eq_mag {m : Nat} (h : m < 0x7F800000) : f32Of m = mag m := by
  have := f32Of_mod m (by omega)
  rwa [Nat.mod_eq_of_lt (by omega)] at this

theorem abs_f32Of {x : Nat} (hfin : x % 2 ^ 31 < 0x7F800000) : |f32Of x| = mag (x % 2 ^ 31) := by
  have h0 : 0 ≤ mag (x % 2 ^ 31) := by unfold mag; positivity
  rw [f32Of_eq x hfin, ← mag, abs_mul, abs_of_nonneg h0]
  split <;> simp

/-- What an opaque pattern of sign 0 stands for. -/
theorem dec_mag {r n : Nat} {e : Int} (hr : r < 2 ^ 32) (h : f32.dec r = .num false n e) :
    r < 0x7F800000 ∧ n = sigOf r ∧ e = expOf r := by
  obtain ⟨hfin, hs, hn, he⟩ := dec_num h
  have hneg : ¬ r / 2 ^ 31 % 2 = 1 := mt (negOf_iff r).2 (by simp [← hs])
  have hmod : r % 2 ^ 31 = r := by omega
  exact ⟨hmod ▸ hfin, hmod ▸ hn, hmod ▸ he⟩

-- Comparisons of quotients.
/-- The model's comparison is that of the quotients. -/
theorem within_iff {x y b : Nat × Nat} (hx : 0 < x.2) (hy : 0 < y.2) (hb : 0 < b.2) :
    within x y b = true ↔ |(x.1 : ℚ) / x.2 - y.1 / y.2| ≤ b.1 / b.2 := by
  have hxq : (0 : ℚ) < x.2 := by exact_mod_cast hx
  have hyq : (0 : ℚ) < y.2 := by exact_mod_cast hy
  have hbq : (0 : ℚ) < b.2 := by exact_mod_cast hb
  have hdist : (((if x.1 * y.2 ≤ y.1 * x.2 then y.1 * x.2 - x.1 * y.2 else x.1 * y.2 - y.1 * x.2 : Nat)) : ℚ) =
      |(x.1 * y.2 : ℚ) - y.1 * x.2| := by
    split
    · rename_i h
      rw [Nat.cast_sub h, abs_sub_comm, abs_of_nonneg (sub_nonneg.2 (by exact_mod_cast h))]
      push_cast; rfl
    · rename_i h
      rw [Nat.cast_sub (by omega), abs_of_nonneg (sub_nonneg.2 (by exact_mod_cast (not_le.1 h).le))]
      push_cast; rfl
  rw [div_sub_div _ _ hxq.ne' hyq.ne', abs_div, abs_of_pos (mul_pos hxq hyq), div_le_div_iff₀ (mul_pos hxq hyq) hbq,
    mul_comm (x.2 : ℚ) y.1, ← hdist]
  unfold within
  rw [decide_eq_true_eq, ← Nat.cast_le (α := ℚ)]
  push_cast
  rfl

theorem fracOf_spec (m : Nat) (e : Int) : 0 < (fracOf m e).2 ∧ ((fracOf m e).1 : ℚ) / (fracOf m e).2 = m * 2 ^ e := by
  have h := scaleUp_spec m e one_pos
  rwa [ratOf, Nat.cast_one, div_one] at h

theorem powerOf_some {m : Nat} {e k : Int} (h : powerOf m e = some k) : (m : ℚ) * 2 ^ e = 2 ^ k := by
  unfold powerOf at h
  split at h
  · rename_i hm
    cases h
    rw [zpow_add₀ two_ne_zero, zpow_natCast]
    exact congrArg (· * (2 : ℚ) ^ e) (by exact_mod_cast hm)
  · cases h

theorem powerOf_normal (n : Nat) (h : 1 ≤ n) : powerOf (sigOf (n * 2 ^ 23)) (expOf (n * 2 ^ 23)) =
    some ((n : Int) - 127) := by
  have hs : sigOf (n * 2 ^ 23) = 2 ^ 23 := by rw [sigOf, if_neg (by omega), Nat.mul_mod_left, Nat.zero_add]
  have he : expOf (n * 2 ^ 23) = (n : Int) - 150 := by rw [expOf, if_neg (by omega)]; omega
  rw [hs, he, powerOf, Nat.log2_two_pow, if_pos rfl]
  congr 1
  push_cast; ring

end Sys2Proof.Numbers
end

section
/-! PROOFS. `frcpa`: the reciprocal keeps its bounds whatever the opaque value is (R109, R110). -/

namespace Sys2Proof.Numbers

open Sys2Proof Sys2Proof.Machine Sys2Proof.Claims

/-- What a rounding to nearest of a positive number gives, as bits. -/
theorem out_pos {n d : Nat} (e : Int) (hn : 0 < n) (hd : 0 < d) :
    ∃ c sig, RoundsTo (ratOf n d e) c sig ∧ f32.out .rne false (.rat false n d e) = min (c * 2 ^ 23 + sig) 0x7F800000 := by
  obtain ⟨c, sig, hb, h⟩ := magBits_rounds false e hn hd
  exact ⟨c, sig, h, by rw [out_rne, hb, signed_eq]; simp⟩

/-- A number of at most the largest finite value is rounded to a finite pattern, and the bounds are those of its value. -/
theorem out_finite {n d : Nat} (e : Int) (hn : 0 < n) (hd : 0 < d) (hx : ratOf n d e ≤ maxFin) :
    ∃ c sig, RoundsTo (ratOf n d e) c sig ∧ f32.out .rne false (.rat false n d e) = c * 2 ^ 23 + sig ∧
      c * 2 ^ 23 + sig < 0x7F800000 ∧ mag (c * 2 ^ 23 + sig) = sig * 2 ^ ((c : Int) - 149) := by
  obtain ⟨c, sig, h, hb⟩ := out_pos e hn hd
  have hfin := h.finite hx
  exact ⟨c, sig, h, by rw [hb, min_eq_left (by omega)], hfin, by rw [← f32Of_eq_mag hfin, h.value hfin]⟩

/-- The results that R109 and R110 allow for the reciprocal of the value w of magnitude bits m. -/
structure Reciprocal (fz : Bool) (m r : Nat) : Prop where
  overflow : maxFin < 1 / mag m → r = 0x7F800000
  finite : 1 / mag m ≤ maxFin → r < 0x7F800000
  normal : 2 ^ (-126 : Int) ≤ 1 / mag m → 2 ^ 23 ≤ r
  near : 2 ^ (-126 : Int) ≤ 1 / mag m → 1 / mag m ≤ maxFin → |mag r * mag m - 1| ≤ 2 ^ (-23 : Int)
  flush : 1 / mag m < 2 ^ (-126 : Int) → fz = true → r = 0
  small : 1 / mag m < 2 ^ (-126 : Int) → fz = false → |mag r - 1 / mag m| ≤ 2 ^ (-149 : Int)

/-- The rounded reciprocal. -/
def rcpExact (m : Nat) : Nat := f32.out .rne false (.rat false 1 (sigOf m) (-expOf m))

theorem ratOf_inv (m : Nat) : ratOf 1 (sigOf m) (-expOf m) = 1 / mag m := by
  rw [ratOf, mag, zpow_neg, Nat.cast_one]
  field_simp

section
variable {m : Nat} (h0 : 0 < m) (hfin : m < 0x7F800000)
include h0

theorem rcpExact_overflow (hx : maxFin < 1 / mag m) : 0x7F800000 ≤ rcpExact m := by
  obtain ⟨c, sig, h, hb⟩ := out_pos (-expOf m) one_pos (sigOf_pos h0)
  rw [ratOf_inv m] at h
  -- the next value above 2^−128 has a reciprocal that is finite
  have hm : m ≤ 2 ^ 21 := by
    by_contra hm
    have hle : mag (2 ^ 21 + 1) ≤ mag m := mag_strictMono.monotone (by omega)
    have hinv : 1 / mag m ≤ 1 / mag (2 ^ 21 + 1) := one_div_le_one_div_of_le (mag_pos (by norm_num)) hle
    have : 1 / mag (2 ^ 21 + 1) ≤ maxFin := by rw [mag_subnormal (by norm_num), maxFin]; norm_num
    linarith
  have hbig : (2 : ℚ) ^ (128 : Int) ≤ 1 / mag m := by
    have hinv := one_div_le_one_div_of_le (mag_pos h0) (mag_strictMono.monotone hm)
    refine le_trans (le_of_eq ?_) hinv
    rw [mag_subnormal (by norm_num)]
    norm_num
  rw [rcpExact, hb, min_eq_right (h.overflow hbig)]

theorem rcpExact_normal (hx : 2 ^ (-126 : Int) ≤ 1 / mag m) (hmax : 1 / mag m ≤ maxFin) :
    2 ^ 23 ≤ rcpExact m ∧ |mag (rcpExact m) * mag m - 1| ≤ 2 ^ (-23 : Int) := by
  obtain ⟨c, sig, h, hb, -, hv⟩ := out_finite (-expOf m) one_pos (sigOf_pos h0) (by rwa [ratOf_inv m])
  rw [ratOf_inv m] at h
  obtain ⟨hn, he⟩ := h.normal hx
  have hw := mag_pos h0
  rw [rcpExact, hb]
  refine ⟨hn, ?_⟩
  rw [hv]
  calc |(sig : ℚ) * 2 ^ ((c : Int) - 149) * mag m - 1| = |(sig : ℚ) * 2 ^ ((c : Int) - 149) - 1 / mag m| * mag m := by
        rw [← abs_of_pos hw, ← abs_mul, abs_of_pos hw, sub_mul, one_div_mul_cancel hw.ne']
    _ ≤ 2 ^ (-24 : Int) * (1 / mag m) * mag m := mul_le_mul_of_nonneg_right he hw.le
    _ = 2 ^ (-24 : Int) := by field_simp
    _ ≤ 2 ^ (-23 : Int) := by norm_num

/-- The reciprocal of the next value above 2^126 already rounds to a subnormal number. -/
theorem rcpExact_small (hfin : m < 0x7F800000) (hx : 1 / mag m < 2 ^ (-126 : Int)) :
    0 < rcpExact m ∧ rcpExact m < 2 ^ 23 ∧ |mag (rcpExact m) - 1 / mag m| ≤ 2 ^ (-149 : Int) := by
  have hw := mag_pos h0
  obtain ⟨c, sig, h, hb, -, hv⟩ := out_finite (-expOf m) one_pos (sigOf_pos h0)
    (by rw [ratOf_inv m]; exact hx.le.trans (by norm_num [maxFin]))
  rw [ratOf_inv m] at h
  obtain ⟨rfl, he⟩ := h.small hx
  have hm : 253 * 2 ^ 23 < m := by
    rw [← mag_strictMono.lt_iff_lt, mag_power 253 (by norm_num)]
    rw [one_div, inv_lt_comm₀ hw (by positivity), ← zpow_neg] at hx
    exact hx
  have hup : 1 / mag m ≤ 1 / mag (253 * 2 ^ 23 + 1) :=
    one_div_le_one_div_of_le (mag_pos (by norm_num)) (mag_strictMono.monotone hm)
  have hlo : 1 / maxFin ≤ 1 / mag m := one_div_le_one_div_of_le hw (mag_le_maxFin hfin)
  have hnext : 1 / mag (253 * 2 ^ 23 + 1) < 2 ^ (-126 : Int) - 2 ^ (-150 : Int) := by
    norm_num [mag, sigOf, expOf]
  have hsig : sig < 2 ^ 23 := by
    by_contra hs
    have hs : (2 : ℚ) ^ (-126 : Int) ≤ sig * 2 ^ (-149 : Int) :=
      calc (2 : ℚ) ^ (-126 : Int) = 2 ^ 23 * 2 ^ (-149 : Int) := by norm_num
        _ ≤ sig * 2 ^ (-149 : Int) := mul_le_mul_of_nonneg_right (by exact_mod_cast not_lt.1 hs) (by positivity)
    have hle := (abs_le.1 he).2
    rw [Nat.cast_zero, zero_sub] at hle
    exact absurd (hs.trans (sub_le_iff_le_add.1 hle)) (lt_sub_iff_add_lt'.1 (hup.trans_lt hnext)).not_ge
  have hpos := h.ge 1 (le_trans (by norm_num [maxFin]) hlo)
  rw [rcpExact, hb, hv]
  exact ⟨by omega, by omega, he.trans (by norm_num)⟩

include hfin in
/-- Rounding the reciprocal keeps the bounds. -/
theorem rcpExact_spec (hflush : 2 ^ (-126 : Int) ≤ 1 / mag m ∨ fz = false) (hmax : 1 / mag m ≤ maxFin) :
    Reciprocal fz m (rcpExact m) where
  overflow hx := absurd hmax hx.not_ge
  finite hx := by
    obtain ⟨c, sig, -, hb, hlt, -⟩ := out_finite (-expOf m) one_pos (sigOf_pos h0) (by rwa [ratOf_inv m])
    rwa [rcpExact, hb]
  normal hx := (rcpExact_normal h0 hx hmax).1
  near hx hmax := (rcpExact_normal h0 hx hmax).2
  flush hx hf := hflush.elim (fun hge => absurd hx hge.not_gt) (fun h => by simp [h] at hf)
  small hx _ := (rcpExact_small h0 hfin hx).2.2

/-- The model's test of an opaque reciprocal: to the last place where it or the rounded one is subnormal, else relative. -/
def RcpClose (m r : Nat) : Prop :=
  if rcpExact m % 2 ^ 31 ≠ 0 ∧ rcpExact m % 2 ^ 31 < 2 ^ 23 ∨ r < 2 ^ 23 then |mag r - 1 / mag m| ≤ 2 ^ (-149 : Int)
  else |mag r * mag m - 1| ≤ 2 ^ (-23 : Int)

include hfin in
/-- An opaque reciprocal that passes the test keeps the bounds. -/
theorem RcpClose.spec {r : Nat} (hr : r < 0x7F800000) (hclose : RcpClose m r) (hne : 1 / mag m ≠ 2 ^ (-126 : Int))
    (hflush : 2 ^ (-126 : Int) ≤ 1 / mag m ∨ fz = false) (hmax : 1 / mag m ≤ maxFin) : Reciprocal fz m r := by
  have hnormal : 2 ^ (-126 : Int) ≤ 1 / mag m → 2 ^ 23 ≤ r := fun hx => by
    by_contra hlt
    rw [RcpClose, if_pos (Or.inr (not_le.1 hlt))] at hclose
    have hle : mag r ≤ 2 ^ (-126 : Int) - 2 ^ (-149 : Int) :=
      (mag_strictMono.monotone (show r ≤ 2 ^ 23 - 1 by omega)).trans (by norm_num [mag, sigOf, expOf])
    have hdist := (neg_le_sub_iff_le_add.1 (abs_le.1 hclose).1).trans (le_sub_iff_add_le.1 hle)
    exact hne (le_antisymm hdist hx)
  refine ⟨fun hx => absurd hmax hx.not_ge, fun _ => hr, hnormal, fun hx _ => ?_, fun hx hf => ?_, fun hx _ => ?_⟩
  · have hexact := (rcpExact_normal h0 hx hmax).1
    have hbig := hnormal hx
    obtain ⟨c, sig, -, hb, hlt, -⟩ := out_finite (-expOf m) one_pos (sigOf_pos h0) (by rwa [ratOf_inv m])
    rw [rcpExact, hb] at hexact
    rwa [RcpClose, rcpExact, hb, if_neg (by omega)] at hclose
  · exact hflush.elim (fun hge => absurd hx hge.not_gt) (fun h => by simp [h] at hf)
  · obtain ⟨hpos, hsub, -⟩ := rcpExact_small h0 hfin hx
    rwa [RcpClose, if_pos (by omega)] at hclose

/-- What the model tests. -/
theorem rcpClose_of_within {r : Nat} (hr : r < 0x7F800000)
    (hok : (if f32.isSub (rcpExact m) || f32.isSub r || decide (sigOf r = 0) then
        within (fracOf (sigOf r) (expOf r)) ((fracOf (sigOf m) (expOf m)).2, (fracOf (sigOf m) (expOf m)).1) (1, 2 ^ 149)
      else within ((fracOf (sigOf r) (expOf r)).1 * (fracOf (sigOf m) (expOf m)).1,
        (fracOf (sigOf r) (expOf r)).2 * (fracOf (sigOf m) (expOf m)).2) (1, 1) (1, 2 ^ 23)) = true) : RcpClose m r := by
  obtain ⟨ha2, ha⟩ := fracOf_spec (sigOf m) (expOf m)
  obtain ⟨hv2, hv⟩ := fracOf_spec (sigOf r) (expOf r)
  rw [← mag] at ha hv
  set a := fracOf (sigOf m) (expOf m)
  set v := fracOf (sigOf r) (expOf r)
  have ha1 : 0 < a.1 := by
    by_contra hc
    have hw := mag_pos h0
    rw [← ha, Nat.eq_zero_of_not_pos hc] at hw
    simp at hw
  have hsub : (f32.isSub (rcpExact m) || f32.isSub r || decide (sigOf r = 0)) = true ↔
      (rcpExact m % 2 ^ 31 ≠ 0 ∧ rcpExact m % 2 ^ 31 < 2 ^ 23 ∨ r < 2 ^ 23) := by
    have hzero : sigOf r = 0 ↔ r = 0 := by unfold sigOf; split <;> omega
    rw [Bool.or_eq_true, Bool.or_eq_true, isSub_iff, isSub_iff, decide_eq_true_eq, hzero]
    omega
  rw [RcpClose]
  split at hok
  next h =>
    rw [if_pos (hsub.1 h), one_div, ← ha, inv_div, ← hv]
    exact ((within_iff hv2 ha1 (by positivity)).1 hok).trans (by norm_num)
  next h =>
    have hnear := (within_iff (Nat.mul_pos hv2 ha2) one_pos (by positivity)).1 hok
    rw [Nat.cast_mul, Nat.cast_mul, Nat.cast_one, div_one] at hnear
    rw [if_neg (mt hsub.2 h), ← ha, ← hv, div_mul_div_comm]
    exact hnear.trans (by norm_num)

include hfin in
/-- Whatever the opaque value is, the reciprocal keeps its bounds. -/
theorem rcpaVal_spec (fz : Bool) (x : Nat) : Reciprocal fz m (rcpaVal fz (sigOf m) (expOf m) x) := by
  have hover := rcpExact_overflow h0
  unfold rcpaVal
  rw [← rcpExact, f32_infBits]
  dsimp only
  split
  next hpow =>
    obtain ⟨k, hk, hrange⟩ := Option.any_eq_true .. |>.1 hpow
    simp only [Bool.and_eq_true, decide_eq_true_eq] at hrange
    have hinv : 1 / mag m = 2 ^ (-k) := by rw [mag, powerOf_some hk, one_div, zpow_neg]
    refine rcpExact_spec h0 hfin (Or.inl ?_) ?_ <;> rw [hinv]
    · exact zpow_le_zpow_right₀ one_le_two (by omega)
    · exact (zpow_le_zpow_right₀ one_le_two (show -k ≤ 126 by omega)).trans (by norm_num [maxFin])
  next hpow =>
  split
  next hinf =>
    have hx : maxFin < 1 / mag m := not_le.1 fun hmax => by
      obtain ⟨c, sig, -, hb, hlt, -⟩ := out_finite (-expOf m) one_pos (sigOf_pos h0) (by rwa [ratOf_inv m])
      rw [rcpExact, hb] at hinf
      omega
    have hbig : ¬ 1 / mag m < 2 ^ (-126 : Int) :=
      ((show (2 : ℚ) ^ (-126 : Int) ≤ maxFin by norm_num [maxFin]).trans hx.le).not_gt
    exact ⟨fun _ => rfl, fun h => absurd hx h.not_gt, fun _ => by decide, fun _ h => absurd hx h.not_gt,
      fun h => absurd h hbig, fun h => absurd h hbig⟩
  next hinf =>
  have hmax : 1 / mag m ≤ maxFin := not_lt.1 fun hx => hinf (hover hx)
  have hexact : rcpExact m < 0x7F800000 := not_le.1 hinf
  split
  next hsub =>
    rw [Bool.and_eq_true, isSub_iff] at hsub
    obtain ⟨hfz, -, hsub⟩ := hsub
    have hx : ¬ 2 ^ (-126 : Int) ≤ 1 / mag m := fun hx => by
      have := (rcpExact_normal h0 hx hmax).1
      omega
    exact ⟨fun h => absurd hmax h.not_ge, fun _ => by decide, fun h => absurd h hx, fun h => absurd h hx, fun _ _ => rfl,
      fun _ h => by simp [h] at hfz⟩
  next hsub =>
  have hflush : 2 ^ (-126 : Int) ≤ 1 / mag m ∨ fz = false := by
    by_contra hc
    rw [not_or, not_le, Bool.not_eq_false] at hc
    obtain ⟨hpos, hlt, -⟩ := rcpExact_small h0 hfin hc.1
    rw [Bool.and_eq_true, isSub_iff] at hsub
    exact hsub ⟨hc.2, by omega, by omega⟩
  have hne : 1 / mag m ≠ 2 ^ (-126 : Int) := fun heq => by
    rw [one_div, inv_eq_iff_eq_inv, ← zpow_neg] at heq
    have hm : m = 253 * 2 ^ 23 := mag_strictMono.injective (by rw [heq, mag_power 253 (by norm_num)]; norm_num)
    rw [hm, powerOf_normal 253 (by norm_num)] at hpow
    exact hpow (by decide)
  refine iteInduction (motive := Reciprocal fz m) (fun hok => ?_) (fun _ => rcpExact_spec h0 hfin hflush hmax)
  split at hok
  next t n g hdec =>
    rw [Bool.and_eq_true, Bool.not_eq_true'] at hok
    obtain ⟨rfl, hok⟩ := hok
    obtain ⟨hr, rfl, rfl⟩ := dec_mag (BitVec.isLt _) hdec
    exact RcpClose.spec h0 hfin hr (rcpClose_of_within h0 hr hok) hne hflush hmax
  next => cases hok
end

end Sys2Proof.Numbers
end

section
/-! PROOFS. `frsqa`: the reciprocal square root keeps its bounds whatever the opaque value is (R109, R110). -/

namespace Sys2Proof.Numbers

open Sys2Proof Sys2Proof.Machine Sys2Proof.Claims

/-- The bitwise square root is the root rounded down. -/
theorem isqrt_spec (x : Nat) : ∀ (i r : Nat), r * r ≤ x → x < (r + 2 ^ i) * (r + 2 ^ i) →
    isqrt x i r * isqrt x i r ≤ x ∧ x < (isqrt x i r + 1) * (isqrt x i r + 1)
  | 0, _, hlo, hhi => ⟨hlo, hhi⟩
  | i + 1, r, hlo, hhi => by
    rw [isqrt]
    split
    next h => exact isqrt_spec x i _ h (by rwa [Nat.add_assoc, ← Nat.two_mul, ← Nat.pow_succ'])
    next h => exact isqrt_spec x i r hlo (not_le.1 h)

theorem isqrt_zero_spec {x i : Nat} (h : x < 2 ^ i * 2 ^ i) :
    isqrt x i 0 * isqrt x i 0 ≤ x ∧ x < (isqrt x i 0 + 1) * (isqrt x i 0 + 1) :=
  isqrt_spec x i 0 (Nat.zero_le x) (by simpa using h)

/-- The root that the model computes of n × 2^e: its square is off by at most 2^−60 of itself. -/
theorem sqrtEx_spec {n : Nat} (e : Int) (hn : 0 < n) (hlt : n < 2 ^ 24) :
    ∃ z g, 0 < z ∧ sqrtEx (.rat false n 1 e) = .rat false z 2 g ∧
      |(ratOf z 2 g) ^ 2 - n * 2 ^ e| ≤ 2 ^ (-60 : Int) * (ratOf z 2 g) ^ 2 := by
  set x := n * 1 * (if e % 2 != 0 then 2 else 1) * 2 ^ 120 with hx
  set g := (if e % 2 != 0 then e - 1 else e) / 2 - 60 with hg
  have hxlo : 2 ^ 60 * 2 ^ 60 ≤ x := by rw [hx]; split <;> omega
  obtain ⟨hlo, hhi⟩ := isqrt_zero_spec (x := x) (i := 160) (by rw [hx]; split <;> omega)
  set r := isqrt x 160 0 with hr
  have hr60 : 2 ^ 60 ≤ r := by
    by_contra hc
    have : (r + 1) * (r + 1) ≤ 2 ^ 60 * 2 ^ 60 := Nat.mul_le_mul (by omega) (by omega)
    omega
  have hvalue : (n : ℚ) * 2 ^ e = x * (2 ^ g) ^ 2 := by
    rw [← zpow_natCast ((2 : ℚ) ^ g), ← zpow_mul, hx]
    rcases Int.emod_two_eq_zero_or_one e with h | h
    · rw [show g * ((2 : Nat) : Int) = e + -120 by rw [hg, h]; simp; omega, zpow_add₀ two_ne_zero, h]
      push_cast; norm_num; ring
    · rw [show g * ((2 : Nat) : Int) = e + -121 by rw [hg, h]; simp; omega, zpow_add₀ two_ne_zero, h]
      push_cast; norm_num; ring
  refine ⟨if r * r = x then 2 * r else 2 * r + 1, g, by split <;> omega, rfl, ?_⟩
  have h2g : (0 : ℚ) < (2 ^ g) ^ 2 := by positivity
  have hrq : ((2 : ℚ) ^ 60) ≤ r := by exact_mod_cast hr60
  have hloq : (r : ℚ) * r ≤ x := by exact_mod_cast hlo
  have hhiq : (x : ℚ) < (r + 1) * (r + 1) := by exact_mod_cast hhi
  rw [hvalue, ratOf, mul_pow, ← sub_mul, abs_mul, abs_of_pos h2g, ← mul_assoc]
  refine mul_le_mul_of_nonneg_right ?_ h2g.le
  split
  next heq =>
    rw [← heq]
    push_cast
    rw [show (2 * (r : ℚ) / 2) ^ 2 - r * r = 0 by ring, abs_zero]
    positivity
  next =>
    push_cast
    rw [abs_le]
    norm_num
    constructor <;> nlinarith

/-- The results that R109 allows for the reciprocal square root of the value of magnitude bits m. -/
structure RootReciprocal (m r : Nat) : Prop where
  finite : r < 0x7F800000
  normal : 2 ^ 23 ≤ r
  ge : (1 - 2 ^ (-22 : Int)) ^ 2 ≤ mag r ^ 2 * mag m
  le : mag r ^ 2 * mag m ≤ (1 + 2 ^ (-22 : Int)) ^ 2

/-- The rounded reciprocal square root. -/
def rsqExact (m : Nat) : Nat := f32.out .rne false (divEx (.rat false 1 1 0) (sqrtEx (.rat false (sigOf m) 1 (expOf m))))

section
variable {m : Nat} (h0 : 0 < m) (hfin : m < 0x7F800000)
include h0 hfin

theorem rsqExact_spec : RootReciprocal m (rsqExact m) := by
  obtain ⟨z, g, hz, hroot, herr⟩ := sqrtEx_spec (expOf m) (sigOf_pos h0) (sigOf_lt m)
  have hzpos : 0 < ratOf z 2 g := ratOf_pos hz two_pos
  have hinv : ratOf 2 z (-g) = 1 / ratOf z 2 g := by
    rw [ratOf, ratOf, zpow_neg]
    field_simp
  have hw := mag_pos h0
  have hwlo : (2 : ℚ) ^ (-149 : Int) ≤ mag m := by
    have := mag_strictMono.monotone (show 1 ≤ m from h0)
    rwa [mag_subnormal (by norm_num), Nat.cast_one, one_mul] at this
  have hwhi := mag_le_maxFin hfin
  rw [← mag, abs_le] at herr
  obtain ⟨hge, hle⟩ := herr
  set y := ratOf z 2 g
  have hwle : mag m ≤ (1 + 2 ^ (-60 : Int)) * y ^ 2 :=
    by rw [one_add_mul]; exact sub_le_iff_le_add'.1 (by linarith only [hge])
  have hwge : (1 - 2 ^ (-60 : Int)) * y ^ 2 ≤ mag m := by rw [one_sub_mul]; exact sub_le_comm.1 hle
  -- the root lies well within the range of normal numbers
  have hylo : 2 ^ (-100 : Int) ≤ y := by
    by_contra hc
    have hsq : y ^ 2 ≤ (2 ^ (-100 : Int)) ^ 2 := pow_le_pow_left₀ hzpos.le (not_le.1 hc).le 2
    exact absurd ((hwlo.trans hwle).trans (mul_le_mul_of_nonneg_left hsq (by positivity))) (by norm_num)
  have hyhi : y ≤ 2 ^ (100 : Int) := by
    by_contra hc
    have hsq : (2 ^ (100 : Int)) ^ 2 ≤ y ^ 2 := pow_le_pow_left₀ (by positivity) (not_le.1 hc).le 2
    exact absurd ((mul_le_mul_of_nonneg_left hsq (by norm_num)).trans (hwge.trans hwhi)) (by norm_num [maxFin])
  have hxlo : 2 ^ (-126 : Int) ≤ 1 / y := (one_div_le_one_div_of_le hzpos hyhi).trans' (by norm_num)
  have hxhi : 1 / y ≤ maxFin := (one_div_le_one_div_of_le (by positivity) hylo).trans (by norm_num [maxFin])
  obtain ⟨c, sig, h, hb, hr, hv⟩ := out_finite (-g) two_pos hz (by rwa [hinv])
  rw [hinv] at h
  obtain ⟨hn, he⟩ := h.normal hxlo
  have hbits : rsqExact m = c * 2 ^ 23 + sig := by
    rw [rsqExact, hroot, divEx, ← hb, bne_self_eq_false, one_mul, one_mul, zero_sub]
  rw [← hv] at he
  rw [hbits]
  set b := mag (c * 2 ^ 23 + sig)
  have hby : |b * y - 1| ≤ 2 ^ (-24 : Int) := by
    calc |b * y - 1| = |b - 1 / y| * y := by rw [← abs_of_pos hzpos, ← abs_mul, abs_of_pos hzpos, sub_mul,
      one_div_mul_cancel hzpos.ne']
      _ ≤ 2 ^ (-24 : Int) * (1 / y) * y := mul_le_mul_of_nonneg_right he hzpos.le
      _ = 2 ^ (-24 : Int) := by field_simp
  obtain ⟨hby1, hby2⟩ := abs_le.1 hby
  have hby1 : 1 - 2 ^ (-24 : Int) ≤ b * y := by linarith only [hby1]
  have hby2 : b * y ≤ 1 + 2 ^ (-24 : Int) := by linarith only [hby2]
  have hb2 : 0 ≤ b ^ 2 := sq_nonneg b
  refine ⟨hr, hn, ?_, ?_⟩
  · calc (1 - 2 ^ (-22 : Int)) ^ 2 ≤ (1 - 2 ^ (-60 : Int)) * (1 - 2 ^ (-24 : Int) : ℚ) ^ 2 := by norm_num
      _ ≤ (1 - 2 ^ (-60 : Int)) * (b * y) ^ 2 :=
        mul_le_mul_of_nonneg_left (pow_le_pow_left₀ (by norm_num) hby1 2) (by norm_num)
      _ = b ^ 2 * ((1 - 2 ^ (-60 : Int)) * y ^ 2) := by ring
      _ ≤ b ^ 2 * mag m := mul_le_mul_of_nonneg_left hwge hb2
  · calc b ^ 2 * mag m ≤ b ^ 2 * ((1 + 2 ^ (-60 : Int)) * y ^ 2) := mul_le_mul_of_nonneg_left hwle hb2
      _ = (1 + 2 ^ (-60 : Int)) * (b * y) ^ 2 := by ring
      _ ≤ (1 + 2 ^ (-60 : Int)) * (1 + 2 ^ (-24 : Int) : ℚ) ^ 2 :=
        mul_le_mul_of_nonneg_left (pow_le_pow_left₀ ((by norm_num : (0 : ℚ) ≤ 1 - 2 ^ (-24 : Int)).trans hby1) hby2 2)
          (by norm_num)
      _ ≤ (1 + 2 ^ (-22 : Int)) ^ 2 := by norm_num

theorem RootReciprocal.of_square {r : Nat} (hr : r < 0x7F800000) (hge : (1 - 2 ^ (-22 : Int)) ^ 2 ≤ mag r ^ 2 * mag m)
    (hle : mag r ^ 2 * mag m ≤ (1 + 2 ^ (-22 : Int)) ^ 2) : RootReciprocal m r := by
  refine ⟨hr, ?_, hge, hle⟩
  by_contra hlt
  have hsub : mag r ≤ 2 ^ (-126 : Int) := by
    have := mag_strictMono.monotone (show r ≤ 1 * 2 ^ 23 by omega)
    rwa [mag_power 1 le_rfl] at this
  have hr0 : 0 ≤ mag r := by unfold mag; positivity
  have : mag r ^ 2 * mag m ≤ (2 ^ (-126 : Int)) ^ 2 * maxFin :=
    mul_le_mul (pow_le_pow_left₀ hr0 hsub 2) (mag_le_maxFin hfin) (mag_pos h0).le (by positivity)
  exact absurd (hge.trans this) (by norm_num [maxFin])

/-- Whatever the opaque value is, the reciprocal square root keeps its bounds. -/
theorem rsqaVal_spec (fz : Bool) (x : Nat) : RootReciprocal m (rsqaVal fz (sigOf m) (expOf m) x) := by
  have hexact := rsqExact_spec h0 hfin
  unfold rsqaVal
  rw [← rsqExact]
  dsimp only
  split
  · exact hexact
  refine iteInduction (motive := RootReciprocal m) (fun hok => ?_) (fun _ => hexact)
  split at hok
  next t n g hdec =>
    simp only [Bool.and_eq_true, Bool.not_eq_true', decide_eq_true_eq] at hok
    obtain ⟨⟨rfl, hge⟩, hle⟩ := hok
    obtain ⟨hr, rfl, rfl⟩ := dec_mag (BitVec.isLt _) hdec
    set r := (Config.rsqApprox fz (BitVec.ofNat 32 x)).toNat
    obtain ⟨ha2, ha⟩ := fracOf_spec (sigOf m) (expOf m)
    obtain ⟨hv2, hv⟩ := fracOf_spec (sigOf r) (expOf r)
    rw [← mag] at ha hv
    set a := fracOf (sigOf m) (expOf m)
    set v := fracOf (sigOf r) (expOf r)
    have haq : (0 : ℚ) < a.2 := by exact_mod_cast ha2
    have hvq : (0 : ℚ) < v.2 := by exact_mod_cast hv2
    have hsq : mag r ^ 2 * mag m = (v.1 * v.1 * a.1) / (v.2 * v.2 * a.2) := by rw [← ha, ← hv]; field_simp
    have hden : (0 : ℚ) < v.2 * v.2 * a.2 := by positivity
    refine RootReciprocal.of_square h0 hfin hr ?_ ?_ <;> rw [hsq]
    · rw [le_div_iff₀ hden]
      have hge : ((2 ^ 22 - 1 : Nat) : ℚ) ^ 2 * (v.2 * v.2 * a.2) ≤ v.1 * v.1 * a.1 * 2 ^ 44 := by exact_mod_cast hge
      norm_num at hge ⊢
      linarith only [hge]
    · rw [div_le_iff₀ hden]
      have hle : (v.1 * v.1 * a.1 : ℚ) * 2 ^ 44 ≤ (2 ^ 22 + 1) ^ 2 * (v.2 * v.2 * a.2) := by exact_mod_cast hle
      norm_num at hle ⊢
      linarith only [hle]
  next => cases hok
end

/-- The root of an even power of two is exact. -/
theorem sqrtEx_power {e : Int} (h : e % 2 = 1) : sqrtEx (.rat false (2 ^ 23) 1 e) =
    .rat false (2 * 2 ^ 72) 2 ((e - 1) / 2 - 60) := by
  have hroot : isqrt (2 ^ 144) 160 0 = 2 ^ 72 := by
    obtain ⟨hlo, hhi⟩ := isqrt_zero_spec (x := 2 ^ 144) (i := 160) (by norm_num)
    generalize isqrt (2 ^ 144) 160 0 = r at hlo hhi
    exact Nat.le_antisymm (le_of_not_gt fun h => by nlinarith only [hlo, h]) (by nlinarith only [hhi])
  have hodd : (e % 2 != 0) = true := by rw [h]; rfl
  unfold sqrtEx
  dsimp only
  rw [if_neg Bool.false_ne_true, hodd, if_pos rfl, if_pos rfl, show 2 ^ 23 * 1 * 2 * 2 ^ 120 = 2 ^ 144 by norm_num, hroot,
    if_pos (by norm_num)]

/-- The even powers of two that R110 names are exact. -/
theorem rsqaVal_power (fz : Bool) (x : Nat) {n : Nat} (hn : 1 ≤ n) (hn' : n ≤ 253) (hodd : n % 2 = 1) :
    rsqaVal fz (sigOf (n * 2 ^ 23)) (expOf (n * 2 ^ 23)) x = (381 - n) / 2 * 2 ^ 23 := by
  have hs : sigOf (n * 2 ^ 23) = 2 ^ 23 := by rw [sigOf, if_neg (by omega), Nat.mul_mod_left, Nat.zero_add]
  have he : expOf (n * 2 ^ 23) = (n : Int) - 150 := by rw [expOf, if_neg (by omega)]; omega
  have hnamed : (powerOf (sigOf (n * 2 ^ 23)) (expOf (n * 2 ^ 23))).any (fun k => -126 ≤ k && k ≤ 126 && k % 2 == 0) =
    true := by
    rw [powerOf_normal n hn, Option.any_some]
    simp only [Bool.and_eq_true, decide_eq_true_eq, beq_iff_eq]
    omega
  unfold rsqaVal
  rw [if_pos hnamed, hs, he, sqrtEx_power (by omega), divEx]
  obtain ⟨c, sig, h, hb⟩ := out_pos (n := 1 * 2) (d := 1 * (2 * 2 ^ 72)) (0 - (((n : Int) - 150 - 1) / 2 - 60))
    (by norm_num) (by norm_num)
  have hx : ratOf (1 * 2) (1 * (2 * 2 ^ 72)) (0 - (((n : Int) - 150 - 1) / 2 - 60)) = 2 ^ ((127 - (n : Int)) / 2) := by
    rw [ratOf, show (127 - (n : Int)) / 2 = -72 + (0 - (((n : Int) - 150 - 1) / 2 - 60)) by omega, zpow_add₀ two_ne_zero]
    congr 1
    norm_num
  rw [bne_self_eq_false, hb, h.power hx (by omega) (by omega), if_pos (by omega)]
  omega

end Sys2Proof.Numbers
end

section
/-! PROOFS. `fexp2a`: the fraction 2^(p ÷ 2^48) that the model encloses from below and from above (log entry 15). -/

namespace Sys2Proof.Numbers

open Sys2Proof Sys2Proof.Machine Sys2Proof.Claims

/-- 2^x lies below its chord from 0 to 1. -/
theorem two_rpow_le_one_add {x : ℝ} (h0 : 0 ≤ x) (h1 : x ≤ 1) : (2 : ℝ) ^ x ≤ 1 + x := by
  have h := rpow_one_add_le_one_add_mul_self (s := 1) (by norm_num) h0 h1
  rwa [mul_one, one_add_one_eq_two] at h

/-- 2^−x lies below its chord from 0 to 1. -/
theorem two_rpow_neg_le {x : ℝ} (h0 : 0 ≤ x) (h1 : x ≤ 1) : (2 : ℝ) ^ (-x) ≤ 1 - x / 2 := by
  have h := rpow_one_add_le_one_add_mul_self (s := -(1 / 2)) (by norm_num) h0 h1
  rw [show (1 : ℝ) + -(1 / 2) = 2⁻¹ by norm_num, Real.inv_rpow two_pos.le, ← Real.rpow_neg two_pos.le] at h
  linarith only [h]

/-- The pair r encloses y from below and from above, in units of 2^−64. -/
structure Encloses (r : Nat × Nat) (y : ℝ) : Prop where
  ge : 2 ^ 64 ≤ r.1
  lo : (r.1 : ℝ) ≤ 2 ^ 64 * y
  hi : 2 ^ 64 * y ≤ r.2

/-- 2^(2^−k). -/
noncomputable def root (k : Nat) : ℝ := 2 ^ ((2 : ℝ)⁻¹ ^ k)

theorem root_pos (k : Nat) : 0 < root k := Real.rpow_pos_of_pos two_pos _
theorem root_succ (k : Nat) : root (k + 1) * root (k + 1) = root k := by
  rw [root, root, ← Real.rpow_add two_pos]
  congr 1
  ring

/-- One root, from below and from above. -/
def nextRoot (r : Nat × Nat) : Nat × Nat := (isqrt (r.1 * 2 ^ 64) 130 0, isqrt (r.2 * 2 ^ 64) 130 0 + 1)

/-- The pair encloses 2^(2^−k), within four units. -/
structure RootPair (k : Nat) (r : Nat × Nat) : Prop extends Encloses r (root k) where
  gap : r.2 ≤ r.1 + 4
  le : r.2 ≤ 2 ^ 65

theorem nextRoot_spec {k : Nat} {r : Nat × Nat} (h : RootPair k r) : RootPair (k + 1) (nextRoot r) ∧
    (nextRoot r).2 ≤ 3 * 2 ^ 63 := by
  obtain ⟨⟨hge, hlo, hhi⟩, hgap, hle⟩ := h
  have hr : r.1 ≤ r.2 := by exact_mod_cast hlo.trans hhi
  have hbits : 2 ^ 65 * 2 ^ 64 < 2 ^ 130 * 2 ^ 130 := by norm_num
  obtain ⟨ha, ha'⟩ := isqrt_zero_spec ((Nat.mul_le_mul_right (2 ^ 64) (hr.trans hle)).trans_lt hbits)
  obtain ⟨hb, hb'⟩ := isqrt_zero_spec ((Nat.mul_le_mul_right (2 ^ 64) hle).trans_lt hbits)
  unfold nextRoot
  set a := isqrt (r.1 * 2 ^ 64) 130 0
  set b := isqrt (r.2 * 2 ^ 64) 130 0
  clear_value a b
  have hpos := root_pos (k + 1)
  have hsucc := root_succ k
  have ha64 : 2 ^ 64 ≤ a := by by_contra hc; nlinarith only [hc, ha', hge]
  have hb64 : 2 ^ 64 ≤ b := by by_contra hc; nlinarith only [hc, hb', hge, hr]
  have hb63 : b + 1 ≤ 3 * 2 ^ 63 := by by_contra hc; nlinarith only [hc, hb, hle]
  refine ⟨⟨⟨ha64, ?_, ?_⟩, ?_, by show b + 1 ≤ 2 ^ 65; omega⟩, hb63⟩
  · have ha : (a : ℝ) * a ≤ r.1 * 2 ^ 64 := by exact_mod_cast ha
    refine le_of_not_gt fun hc => ?_
    have : (2 ^ 64 * root (k + 1)) * (2 ^ 64 * root (k + 1)) < a * a := mul_self_lt_mul_self (by positivity) hc
    nlinarith only [this, ha, hlo, hsucc]
  · have hb : (r.2 : ℝ) * 2 ^ 64 < (b + 1) * (b + 1) := by exact_mod_cast hb'
    rw [Nat.cast_add_one]
    refine le_of_not_gt fun hc => ?_
    have : ((b : ℝ) + 1) * (b + 1) < (2 ^ 64 * root (k + 1)) * (2 ^ 64 * root (k + 1)) :=
      mul_self_lt_mul_self (by positivity) hc
    nlinarith only [this, hb, hhi, hsucc]
  · show b + 1 ≤ a + 4
    by_contra hc
    nlinarith only [hc, ha', hb, hgap, ha64, hb64]

theorem floor_div_le (x k : Nat) : ((x / 2 ^ k : Nat) : ℝ) ≤ x / 2 ^ k := by
  have := Nat.cast_div_le (α := ℝ) (m := x) (n := 2 ^ k)
  rwa [Nat.cast_pow, Nat.cast_ofNat] at this
theorem lt_floor_div_add_one (x k : Nat) : (x : ℝ) / 2 ^ k < ((x / 2 ^ k : Nat) : ℝ) + 1 := by
  rw [div_lt_iff₀ (by positivity)]
  exact_mod_cast (Nat.div_lt_iff_lt_mul (by positivity)).1 (Nat.lt_succ_self (x / 2 ^ k))

/-- A product of enclosures in units of 2^−64, rounded down and up. -/
theorem Encloses.mul {x r : Nat × Nat} {y z : ℝ} (hy : 0 < y) (hz : 0 < z) (hx : Encloses x y) (hr : Encloses r z) :
    Encloses (x.1 * r.1 / 2 ^ 64, x.2 * r.2 / 2 ^ 64 + 1) (y * z) where
  ge := (Nat.le_div_iff_mul_le (by positivity)).2 (Nat.mul_le_mul hx.ge hr.ge)
  lo := by
    refine (floor_div_le _ _).trans ?_
    rw [div_le_iff₀ (by positivity), Nat.cast_mul]
    calc (x.1 : ℝ) * r.1 ≤ (2 ^ 64 * y) * (2 ^ 64 * z) := mul_le_mul hx.lo hr.lo (by positivity) (by positivity)
      _ = 2 ^ 64 * (y * z) * 2 ^ 64 := by ring
  hi := by
    rw [Nat.cast_add_one]
    refine le_trans ?_ (lt_floor_div_add_one _ _).le
    rw [le_div_iff₀ (by positivity), Nat.cast_mul]
    calc 2 ^ 64 * (y * z) * 2 ^ 64 = (2 ^ 64 * y) * (2 ^ 64 * z) := by ring
      _ ≤ (x.2 : ℝ) * r.2 := mul_le_mul hx.hi hr.hi (by positivity) (by positivity)

/-- The gap of a product grows by at most the factor of the larger side. -/
theorem gap_mul {x r : Nat × Nat} (hx : x.1 ≤ x.2) (hx1 : x.1 ≤ 2 ^ 65) (hr : r.2 ≤ 3 * 2 ^ 63) (hgap : r.2 ≤ r.1 + 4) :
    ((x.2 * r.2 / 2 ^ 64 + 1 : Nat) : ℝ) - (x.1 * r.1 / 2 ^ 64 : Nat) + 20 ≤ 3 / 2 * ((x.2 : ℝ) - x.1 + 20) := by
  have h1 := floor_div_le (x.2 * r.2) 64
  have h2 := lt_floor_div_add_one (x.1 * r.1) 64
  have hx : (x.1 : ℝ) ≤ x.2 := by exact_mod_cast hx
  have hx1 : (x.1 : ℝ) ≤ 2 ^ 65 := by exact_mod_cast hx1
  have hr : (r.2 : ℝ) ≤ 3 * 2 ^ 63 := by exact_mod_cast hr
  have hgap : (r.2 : ℝ) ≤ r.1 + 4 := by exact_mod_cast hgap
  have hprod : (x.2 : ℝ) * r.2 - x.1 * r.1 ≤ (x.2 - x.1) * (3 * 2 ^ 63) + 2 ^ 65 * 4 := by
    have e1 := mul_le_mul_of_nonneg_left hr (sub_nonneg.2 hx)
    have e2 : (x.1 : ℝ) * (r.2 - r.1) ≤ x.1 * 4 := mul_le_mul_of_nonneg_left (by linarith only [hgap]) (Nat.cast_nonneg _)
    linarith only [e1, e2, hx1]
  push_cast at h1 h2 ⊢
  linarith only [h1, h2, hprod]

/-- One binary digit of the exponent: the model's step. -/
def expStep (p : Nat) (x : Nat × Nat) (q : (Nat × Nat) × Nat) : Nat × Nat :=
  if p.testBit (47 - q.2) then (x.1 * q.1.1 / 2 ^ 64, x.2 * q.1.2 / 2 ^ 64 + 1) else x

/-- The pair encloses 2 to the first k digits of the exponent, and the gap is small. -/
structure Partial (p k : Nat) (x : Nat × Nat) : Prop extends Encloses x ((2 : ℝ) ^ (((p / 2 ^ (48 - k) : Nat) :
    ℝ) / 2 ^ k)) where
  gap : (x.2 : ℝ) - x.1 + 20 ≤ 20 * (3 / 2) ^ k

/-- The first k digits of the exponent p ÷ 2^48. -/
theorem digits_succ {p k : Nat} (hk : k < 48) :
    p / 2 ^ (48 - (k + 1)) = 2 * (p / 2 ^ (48 - k)) + if p.testBit (47 - k) then 1 else 0 := by
  have hbit : (if p.testBit (47 - k) then 1 else 0) = p / 2 ^ (47 - k) % 2 := by
    rw [Nat.testBit_eq_decide_div_mod_eq]
    have := Nat.mod_two_eq_zero_or_one (p / 2 ^ (47 - k))
    split <;> simp_all
  rw [hbit, show 48 - k = (47 - k) + 1 by omega, Nat.pow_succ, ← Nat.div_div_eq_div_mul, show 48 - (k + 1) = 47 - k by omega]
  omega

theorem expStep_spec {p k : Nat} {x r : Nat × Nat} (hk : k < 48) (hp : p < 2 ^ 48) (hr : RootPair (k + 1) r)
    (hle : r.2 ≤ 3 * 2 ^ 63) (h : Partial p k x) : Partial p (k + 1) (expStep p x (r, k)) := by
  obtain ⟨henc, hgap⟩ := h
  have hdigit := digits_succ (p := p) hk
  unfold expStep
  dsimp only
  split
  next h1 =>
    rw [if_pos h1] at hdigit
    have hexp : (2 : ℝ) ^ (((p / 2 ^ (48 - (k + 1)) : Nat) : ℝ) / 2 ^ (k + 1)) =
        2 ^ (((p / 2 ^ (48 - k) : Nat) : ℝ) / 2 ^ k) * root (k + 1) := by
      rw [hdigit, root, ← Real.rpow_add two_pos]
      congr 1
      push_cast
      rw [inv_pow, pow_succ]
      field_simp
    have hx1 : x.1 ≤ 2 ^ 65 := by
      have hexple : ((p / 2 ^ (48 - k) : Nat) : ℝ) / 2 ^ k ≤ 1 := by
        rw [div_le_one (by positivity)]
        have : p / 2 ^ (48 - k) < 2 ^ k := (Nat.div_lt_iff_lt_mul (by positivity)).2 (by rwa [← Nat.pow_add,
          Nat.add_sub_cancel' hk.le])
        exact_mod_cast this.le
      have hS := Real.rpow_le_rpow_of_exponent_le one_le_two hexple
      rw [Real.rpow_one] at hS
      have : (x.1 : ℝ) ≤ 2 ^ 65 := by linarith only [henc.lo, hS]
      exact_mod_cast this
    refine ⟨by rw [hexp]; exact henc.mul (Real.rpow_pos_of_pos two_pos _) (root_pos _) hr.toEncloses, ?_⟩
    refine (gap_mul (by exact_mod_cast henc.lo.trans henc.hi) hx1 hle hr.gap).trans ?_
    rw [pow_succ]
    linarith only [hgap]
  next h0 =>
    rw [if_neg h0] at hdigit
    have hexp : (2 : ℝ) ^ (((p / 2 ^ (48 - (k + 1)) : Nat) : ℝ) / 2 ^ (k + 1)) =
        2 ^ (((p / 2 ^ (48 - k) : Nat) : ℝ) / 2 ^ k) := by
      rw [hdigit]
      congr 1
      push_cast
      rw [pow_succ, add_zero]
      field_simp
    refine ⟨hexp ▸ henc, hgap.trans ?_⟩
    exact mul_le_mul_of_nonneg_left (pow_le_pow_right₀ (by norm_num) (Nat.le_succ k)) (by norm_num)

theorem rootPairs_succ (n : Nat) (r : Nat × Nat) : rootPairs (n + 1) r = nextRoot r :: rootPairs n (nextRoot r) := rfl

/-- All digits of the exponent, one after the other. -/
theorem rootFold_spec {p : Nat} (hp : p < 2 ^ 48) : ∀ (n k : Nat) (r x : Nat × Nat), k + n = 48 → RootPair k r →
    Partial p k x →
    Partial p 48 (((rootPairs n r).zipIdx k).foldl (expStep p) x)
  | 0, k, _, _, hk, _, hx => by obtain rfl : k = 48 := hk; exact hx
  | n + 1, k, r, x, hk, hr, hx => by
    obtain ⟨hr', hle⟩ := nextRoot_spec hr
    rw [rootPairs_succ, List.zipIdx_cons, List.foldl_cons]
    exact rootFold_spec hp n (k + 1) _ _ (by omega) hr' (expStep_spec (by omega) hp hr' hle hx)

theorem rootPair_zero : RootPair 0 (2 ^ 65, 2 ^ 65) where
  ge := by norm_num
  lo := by norm_num [root]
  hi := by norm_num [root]
  gap := Nat.le_add_right _ _
  le := le_rfl

theorem partial_zero {p : Nat} (hp : p < 2 ^ 48) : Partial p 0 (2 ^ 64, 2 ^ 64) := by
  have hexp : (2 : ℝ) ^ (((p / 2 ^ (48 - 0) : Nat) : ℝ) / 2 ^ 0) = 1 := by
    rw [Nat.sub_zero, Nat.div_eq_of_lt hp, Nat.cast_zero, zero_div, Real.rpow_zero]
  refine ⟨⟨le_rfl, ?_, ?_⟩, ?_⟩ 
  · rw [hexp]; norm_num
  · rw [hexp]; norm_num
  · norm_num

/-- The model's enclosure of 2^θ, for every θ that the exponent p ÷ 2^48 stands for. -/
theorem exp2Frac_spec {p : Nat} {more : Bool} {θ : ℝ} (hp : p < 2 ^ 48) (hlo : p ≤ θ * 2 ^ 48)
    (hhi : θ * 2 ^ 48 ≤ p + if more then 1 else 0) :
    Encloses (exp2Frac p more) (2 ^ θ) ∧ ((exp2Frac p more).2 : ℝ) - (exp2Frac p more).1 ≤ 2 ^ 40 := by
  obtain ⟨⟨hge, hrlo, hrhi⟩, hgap⟩ := rootFold_spec hp 48 0 _ _ rfl rootPair_zero (partial_zero hp)
  set x := (rootPairs 48 (2 ^ 65, 2 ^ 65)).zipIdx.foldl (expStep p) (2 ^ 64, 2 ^ 64) with hx
  have hdef : exp2Frac p more = if more then (x.1, x.2 + x.2 / 2 ^ 48 + 1) else x := rfl
  clear_value x
  rw [Nat.sub_self, pow_zero, Nat.div_one] at hrlo hrhi
  set y : ℝ := 2 ^ ((p : ℝ) / 2 ^ 48) with hy
  set t : ℝ := θ - p / 2 ^ 48 with ht
  have hθ : (2 : ℝ) ^ θ = y * 2 ^ t := by rw [hy, ht, ← Real.rpow_add two_pos, add_sub_cancel]
  have ht0 : 0 ≤ t := by rw [ht, sub_nonneg, div_le_iff₀ (by positivity)]; exact hlo
  have hy0 : 0 < y := Real.rpow_pos_of_pos two_pos _
  have hgap' : (x.2 : ℝ) - x.1 ≤ 2 ^ 34 := by
    have : (20 : ℝ) * (3 / 2) ^ 48 ≤ 2 ^ 34 := by norm_num
    linarith only [this, hgap]
  have hge1 := Real.one_le_rpow one_le_two ht0
  rw [hdef]
  cases more with
  | false =>
    have ht1 : t = 0 := le_antisymm (by rw [ht, sub_nonpos, le_div_iff₀ (by positivity)]; simpa using hhi) ht0
    rw [ht1, Real.rpow_zero, mul_one] at hθ
    rw [if_neg Bool.false_ne_true, hθ]
    exact ⟨⟨hge, hrlo, hrhi⟩, hgap'.trans (by norm_num)⟩
  | true =>
    have ht1 : t ≤ 1 / 2 ^ 48 := by
      rw [ht, sub_le_iff_le_add, ← add_div, le_div_iff₀ (by positivity), add_comm]
      simpa using hhi
    have hle := two_rpow_le_one_add ht0 (ht1.trans (by norm_num))
    have hup := lt_floor_div_add_one x.2 48
    have hdown := floor_div_le x.2 48
    have hy2 : y ≤ 2 := by
      have hexp : (p : ℝ) / 2 ^ 48 ≤ 1 := (div_le_one (by positivity)).2 (by exact_mod_cast hp.le)
      exact (Real.rpow_le_rpow_of_exponent_le one_le_two hexp).trans_eq (Real.rpow_one 2)
    rw [if_pos rfl, hθ]
    refine ⟨⟨hge, hrlo.trans ?_, ?_⟩, ?_⟩
    · exact mul_le_mul_of_nonneg_left (le_mul_of_one_le_right hy0.le hge1) (by positivity)
    · push_cast
      have : y * 2 ^ t ≤ y * (1 + 1 / 2 ^ 48) := mul_le_mul_of_nonneg_left (by linarith only [hle, ht1]) hy0.le
      linarith only [this, hrhi, hup]
    · push_cast
      linarith only [hgap', hdown, hrlo, hy2]

end Sys2Proof.Numbers
end

section
/-! PROOFS. `fexp2a`: 2^v keeps its bounds whatever the opaque value is (R109, R110). -/

namespace Sys2Proof.Numbers

open Sys2Proof Sys2Proof.Machine Sys2Proof.Claims

/-- The error that R109 allows for 2^v, where i is v rounded down. -/
noncomputable def expBound (i : ℤ) : ℝ := if i < -126 then 2 ^ (-149 : ℤ) else 2 ^ (i - 22)

/-- Bits that stand for 2^v within that error; a negative sign stands on a zero only. -/
structure ExpClose (v : ℝ) (i : ℤ) (r : Nat) : Prop where
  fin : r % 2 ^ 31 < 0x7F800000
  pos : r < 2 ^ 31 ∨ r % 2 ^ 31 = 0
  near : |((f32Of r : ℚ) : ℝ) - (2 : ℝ) ^ v| ≤ expBound i

/-- A number in the model's units of 2^−213. -/
theorem cast_units (n : Nat) {e : ℤ} (h : -213 ≤ e) : ((n * 2 ^ (e + 213).toNat : Nat) : ℝ) = n * 2 ^ e * 2 ^ 213 := by
  push_cast
  rw [← zpow_natCast, Int.toNat_of_nonneg (by omega), zpow_add₀ two_ne_zero, mul_assoc]
  rfl

theorem expBound_units {i : ℤ} (hi : -149 ≤ i) :
    (((if i < -126 then 1 else 2 : Nat) * 2 ^ (max i (-126) - 23 + 213).toNat : Nat) : ℝ) = expBound i * 2 ^ 213 := by
  rw [cast_units _ (by omega), expBound]
  split
  · rw [max_eq_right (by omega)]; norm_num
  · rw [max_eq_left (by omega), show i - 22 = i - 23 + 1 by ring, zpow_add_one₀ two_ne_zero]
    push_cast; ring

theorem two_rpow_split (v : ℝ) (i : ℤ) : (2 : ℝ) ^ v = 2 ^ (v - i) * 2 ^ i := by
  rw [← Real.rpow_intCast, ← Real.rpow_add two_pos, sub_add_cancel]

section
variable {v : ℝ} {i : ℤ} {x : Nat × Nat} (hi : -149 ≤ i) (henc : Encloses x ((2 : ℝ) ^ (v - i)))
include henc

/-- The enclosure at the scale of the result. -/
theorem Encloses.scaled : (x.1 : ℝ) * 2 ^ (i - 64) ≤ 2 ^ v ∧ (2 : ℝ) ^ v ≤ x.2 * 2 ^ (i - 64) := by
  have hpos : (0 : ℝ) < 2 ^ (i - 64) := by positivity
  have hscale : (2 : ℝ) ^ v = 2 ^ 64 * 2 ^ (v - i) * 2 ^ (i - 64) := by
    rw [two_rpow_split v i, zpow_sub₀ two_ne_zero]
    field_simp
  rw [hscale]
  exact ⟨mul_le_mul_of_nonneg_right henc.lo hpos.le, mul_le_mul_of_nonneg_right henc.hi hpos.le⟩

include hi in
/-- The model's test of an opaque value admits only values within the error, for every real that the pair encloses. -/
theorem expClose_of_test {r n : Nat} {t : Bool} {g : ℤ} (hr : r < 2 ^ 32) (hdec : f32.dec r = .num t n g) (hsign : t =
    false ∨ n = 0)
    (hlo : x.2 * 2 ^ (i - 64 + 213).toNat ≤ n * 2 ^ (g + 213).toNat + (if i < -126 then 1 else 2) * 2 ^ (max i (-126) - 23 + 213).toNat)
    (hhi : n * 2 ^ (g + 213).toNat ≤ x.1 * 2 ^ (i - 64 + 213).toNat + (if i < -126 then 1 else 2) * 2 ^ (max i (-126) - 23 + 213).toNat) :
    ExpClose v i r := by
  obtain ⟨hfin, rfl, hn, rfl⟩ := dec_num hdec
  have hg := le_expOf (r % 2 ^ 31)
  have hzero : n = 0 → r % 2 ^ 31 = 0 := by rw [hn, sigOf]; split <;> omega
  have hvalue : ((f32Of r : ℚ) : ℝ) = n * 2 ^ expOf (r % 2 ^ 31) := by
    rw [f32Of_eq r hfin, ← hn]
    rcases hsign with hs | hs
    · rw [hs]; push_cast; simp
    · rw [hs]; simp
  obtain ⟨hxlo, hxhi⟩ := henc.scaled
  rw [← Nat.cast_le (α := ℝ), Nat.cast_add, cast_units _ (by omega), cast_units _ (by omega), expBound_units hi, ← add_mul,
    mul_le_mul_iff_left₀ (by positivity)] at hlo hhi
  refine ⟨hfin, ?_, ?_⟩
  · rcases hsign with hs | hs
    · have : ¬ r / 2 ^ 31 % 2 = 1 := mt (negOf_iff r).2 (by simp [hs])
      left; omega
    · exact Or.inr (hzero hs)
  · rw [hvalue, abs_le]
    constructor
    · linarith only [hlo, hxhi]
    · linarith only [hhi, hxlo]

include hi in
/-- The rounded lower side is within the error. -/
theorem expClose_rounded (hv : v < i + 1) (hmax : (2 : ℝ) ^ v ≤ (maxFin : ℚ)) (hgap : (x.2 : ℝ) - x.1 ≤ 2 ^ 40) :
    ExpClose v i (f32.out .rne false (.rat false x.1 1 (i - 64))) := by
  obtain ⟨hxlo, hxhi⟩ := henc.scaled
  have hx0 : 0 < x.1 := lt_of_lt_of_le (by norm_num) henc.ge
  have hX : ((ratOf x.1 1 (i - 64) : ℚ) : ℝ) = x.1 * 2 ^ (i - 64) := by simp [ratOf]
  obtain ⟨c, sig, h, hb, hfin, hval⟩ := out_finite (i - 64) hx0 one_pos (by
    rw [← Rat.cast_le (K := ℝ), hX]; exact hxlo.trans hmax)
  have hc : c ≠ 0 → (c : ℤ) - 126 ≤ i := fun h0 => by
    have h1 : (2 : ℝ) ^ ((c : ℤ) - 126) ≤ x.1 * 2 ^ (i - 64) := by
      have h1 := (Rat.cast_le (K := ℝ)).2 (h.size h0)
      rwa [Rat.cast_zpow, Rat.cast_ofNat, hX] at h1
    have h2 : (2 : ℝ) ^ v < 2 ^ (i + 1) := by
      rw [← Real.rpow_intCast]
      exact Real.rpow_lt_rpow_of_exponent_lt one_lt_two (by push_cast; exact hv)
    have := (zpow_lt_zpow_iff_right₀ (one_lt_two (α := ℝ))).1 ((h1.trans hxlo).trans_lt h2)
    omega
  have hhalf : (2 : ℝ) ^ ((c : ℤ) - 150) ≤ expBound i / 2 ∧ (2 : ℝ) ^ (i - 24) ≤ expBound i / 2 := by
    rw [expBound]
    split <;> rw [div_eq_mul_inv, ← zpow_sub_one₀ two_ne_zero]
    · exact ⟨zpow_le_zpow_right₀ one_le_two (by omega), zpow_le_zpow_right₀ one_le_two (by omega)⟩
    · exact ⟨zpow_le_zpow_right₀ one_le_two (by omega), zpow_le_zpow_right₀ one_le_two (by omega)⟩
  have hround : |((f32Of (c * 2 ^ 23 + sig) : ℚ) : ℝ) - x.1 * 2 ^ (i - 64)| ≤ 2 ^ ((c : ℤ) - 150) := by
    have hnear := (Rat.cast_le (K := ℝ)).2 h.near
    rwa [Rat.cast_abs, Rat.cast_sub, hX, Rat.cast_zpow, Rat.cast_ofNat, ← hval, ← f32Of_eq_mag hfin] at hnear
  have henclosed : (2 : ℝ) ^ v - x.1 * 2 ^ (i - 64) ≤ 2 ^ (i - 24) := by
    calc (2 : ℝ) ^ v - x.1 * 2 ^ (i - 64) ≤ ((x.2 : ℝ) - x.1) * 2 ^ (i - 64) := by linarith only [hxhi]
      _ ≤ 2 ^ 40 * 2 ^ (i - 64) := mul_le_mul_of_nonneg_right hgap (by positivity)
      _ = 2 ^ (i - 24) := by rw [show i - 24 = 40 + (i - 64) by ring, zpow_add₀ two_ne_zero]; rfl
  rw [hb]
  refine ⟨by omega, Or.inl (by omega), ?_⟩
  rw [abs_le] at hround ⊢
  obtain ⟨hr1, hr2⟩ := hround
  constructor
  · linarith only [hr1, henclosed, hhalf.1, hhalf.2]
  · linarith only [hr2, hxlo, hhalf.1, hhalf.2, show (0 : ℝ) < 2 ^ (i - 24) by positivity]
end

/-- Whatever the opaque value is, it is flushed or within the error. -/
theorem exp2Val_spec {fz more : Bool} {p : Nat} {v : ℝ} {i : ℤ} (x : Nat) (hi : -149 ≤ i) (hp : p < 2 ^ 48)
    (hlo : p ≤ (v - i) * 2 ^ 48) (hhi : (v - i) * 2 ^ 48 ≤ p + if more then 1 else 0) (hv : v < i + 1)
    (hmax : (2 : ℝ) ^ v ≤ (maxFin : ℚ)) :
    exp2Val fz i p more x = 0 ∧ fz = true ∧ i < -126 ∨ ¬ (fz = true ∧ i < -126) ∧ ExpClose v i (exp2Val fz i p more x) := by
  obtain ⟨henc, hgap⟩ := exp2Frac_spec hp hlo hhi
  unfold exp2Val
  dsimp only
  split
  next h =>
    rw [Bool.and_eq_true, decide_eq_true_eq] at h
    exact Or.inl ⟨rfl, h⟩
  next h =>
    rw [Bool.and_eq_true, decide_eq_true_eq] at h
    refine Or.inr ⟨h, ?_⟩
    refine iteInduction (motive := ExpClose v i) (fun hok => ?_) (fun _ => expClose_rounded hi henc hv hmax hgap)
    split at hok
    next t n g hdec =>
      simp only [Bool.and_eq_true, Bool.or_eq_true, Bool.not_eq_true', decide_eq_true_eq] at hok
      obtain ⟨⟨hsign, hlo⟩, hhi⟩ := hok
      exact expClose_of_test hi henc (BitVec.isLt _) hdec hsign hlo hhi
    next => cases hok

end Sys2Proof.Numbers
end

section
/-! PROOFS. `fexp2a`: the rows of R110 and the bounds of R109, case by case of the exponent. -/

namespace Sys2Proof.Numbers

open Sys2Proof Sys2Proof.Machine Sys2Proof.Claims

/-- What R109 asks of bits r that stand for 2^v. -/
def ExpBounds (fz : Bool) (v : ℚ) (r : Nat) : Prop :=
  f32Fin r ∧
  (-126 ≤ v → |((f32Of r : ℚ) : ℝ) - (2 : ℝ) ^ (v : ℝ)| ≤ 2 ^ (⌊v⌋ - 22) ∨
    (fz = true ∧ r = 0 ∧ (2 : ℝ) ^ (v : ℝ) < 2 ^ (-126 : ℤ) * (1 + 2 ^ (-22 : ℤ)))) ∧
  (v < -126 → fz = true → r = 0) ∧
  (v < -126 → fz = false → |((f32Of r : ℚ) : ℝ) - (2 : ℝ) ^ (v : ℝ)| ≤ 2 ^ (-149 : ℤ))

theorem expBounds_zero (v : ℚ) (h : v < -126) : ExpBounds true v 0 :=
  ⟨(f32Fin_iff _).2 (by norm_num), fun hge => absurd h hge.not_gt, fun _ _ => rfl, fun _ hf => by simp at hf⟩

/-- A value within the error keeps the bounds, flushed or not. -/
theorem ExpClose.bounds {fz : Bool} {v : ℚ} {r : Nat} (h : ExpClose v ⌊v⌋ r) (hfz : ¬ (fz = true ∧ ⌊v⌋ < -126)) :
    ExpBounds fz v (flushApprox fz r) := by
  have hlt : ⌊v⌋ < -126 ↔ v < -126 := by rw [Int.floor_lt]; norm_num
  obtain ⟨hfin, hpos, hnear⟩ := h
  by_cases hflush : fz = true ∧ r % 2 ^ 31 ≠ 0 ∧ r % 2 ^ 31 < 2 ^ 23
  · obtain ⟨rfl, hne, hsub⟩ := hflush
    have hfloor : ¬ ⌊v⌋ < -126 := fun hc => hfz ⟨rfl, hc⟩
    rw [flushApprox_sub hne hsub, show r / 2 ^ 31 * 2 ^ 31 = 0 by omega]
    refine ⟨(f32Fin_iff _).2 (by norm_num), fun _ => Or.inr ⟨rfl, rfl, ?_⟩, fun hc => absurd (hlt.2 hc) hfloor,
      fun hc => absurd (hlt.2 hc) hfloor⟩
    -- a subnormal value this close to 2^v leaves v just above −126
    rw [expBound, if_neg hfloor, f32Of_eq_mag (by omega)] at hnear
    have hr : ((mag r : ℚ) : ℝ) < 2 ^ (-126 : ℤ) := by
      have := (Rat.cast_lt (K := ℝ)).2 ((mag_strictMono (show r < 1 * 2 ^ 23 by omega)).trans_eq (mag_power 1 le_rfl))
      rwa [Rat.cast_zpow, Rat.cast_ofNat] at this
    have hv := (abs_le.1 hnear).1
    have hge : (2 : ℝ) ^ ⌊v⌋ ≤ 2 ^ (v : ℝ) := by
      rw [← Real.rpow_intCast]
      exact Real.rpow_le_rpow_of_exponent_le one_le_two (by exact_mod_cast Int.floor_le v)
    have hsplit : (2 : ℝ) ^ (⌊v⌋ - 22) = 2 ^ ⌊v⌋ * 2 ^ (-22 : ℤ) := zpow_add₀ two_ne_zero _ _
    have hi : ⌊v⌋ = -126 := by
      by_contra hc
      have h1 : (2 : ℝ) ^ (-125 : ℤ) ≤ 2 ^ ⌊v⌋ := zpow_le_zpow_right₀ one_le_two (by omega)
      have h2 : (2 : ℝ) ^ ⌊v⌋ * (1 - 2 ^ (-22 : ℤ)) < 2 ^ (-126 : ℤ) := by rw [mul_one_sub]; linarith only [hv, hge,
        hr, hsplit]
      have h3 := (mul_le_mul_of_nonneg_right h1 (show (0 : ℝ) ≤ 1 - 2 ^ (-22 : ℤ) by norm_num)).trans_lt h2
      exact absurd h3 (by norm_num)
    rw [hi] at hsplit hv
    rw [hsplit] at hv
    rw [mul_one_add]
    linarith only [hv, hr]
  · rw [flushApprox_keep (fun hf => by by_contra hc; exact hflush ⟨hf, by omega, by omega⟩)]
    refine ⟨(f32Fin_iff r).2 hfin, fun hge => Or.inl ?_, fun hc hf => absurd ⟨hf, hlt.2 hc⟩ hfz, fun hc _ => ?_⟩
    · rwa [expBound, if_neg (mt hlt.1 hge.not_gt)] at hnear
    · rwa [expBound, if_pos (hlt.2 hc)] at hnear

/-- The bits of 2^i, flushed where the mode says so. -/
def powerBits (fz : Bool) (i : ℤ) : Nat :=
    if -126 ≤ i then (i + 127).toNat * 2 ^ 23 else if fz then 0 else 2 ^ (i + 149).toNat

theorem pow_toNat_lt {i : ℤ} (h : i < -126) : 2 ^ (i + 149).toNat < 2 ^ 23 := Nat.pow_lt_pow_right (by norm_num) (by omega)

/-- An integer exponent is exact. -/
theorem flush_power {fz : Bool} {i : ℤ} (hlo : -149 ≤ i) (hhi : i ≤ 127) :
    flushApprox fz (f32.out .rne false (.rat false 1 1 i)) = powerBits fz i := by
  obtain ⟨c, sig, h, hb⟩ := out_pos i one_pos one_pos
  have hpow := h.power (k := i) (by simp [ratOf]) hlo hhi
  have hsmall : i < -126 → 2 ^ (i + 149).toNat < 2 ^ 23 := pow_toNat_lt
  have hpos : 0 < 2 ^ (i + 149).toNat := by positivity
  rw [hb, hpow, powerBits]
  split
  next h =>
    have hle : (i + 127).toNat * 2 ^ 23 ≤ 0x7F800000 := by omega
    rw [min_eq_left hle, flushApprox_keep]
    intro _
    omega
  next h =>
    have hlt := hsmall (not_le.1 h)
    rw [min_eq_left (hlt.le.trans (by norm_num))]
    generalize 2 ^ (i + 149).toNat = b at hpos hlt ⊢
    cases fz with
    | false => rw [flushApprox_keep (by simp), if_neg Bool.false_ne_true]
    | true =>
      have hmod : b % 2 ^ 31 = b := Nat.mod_eq_of_lt (hlt.trans (by norm_num))
      rw [flushApprox_sub (hmod.symm ▸ hpos.ne') (hmod.symm ▸ hlt), if_pos rfl,
        Nat.div_eq_of_lt (hlt.trans (by norm_num)), Nat.zero_mul]

theorem expBounds_power (fz : Bool) {i : ℤ} (hlo : -149 ≤ i) (hhi : i ≤ 127) : ExpBounds fz i (powerBits fz i) := by
  have hexact : ∀ r : Nat, r < 0x7F800000 → mag r = 2 ^ i → ((f32Of r : ℚ) : ℝ) - (2 : ℝ) ^ (((i : ℤ) : ℚ) : ℝ) = 0 :=
    fun r hr hm => by
    rw [f32Of_eq_mag hr, hm, Rat.cast_zpow, Rat.cast_ofNat, Rat.cast_intCast, Real.rpow_intCast, sub_self]
  rcases le_or_gt (-126) i with h | h
  · rw [powerBits, if_pos h]
    have hbits : mag ((i + 127).toNat * 2 ^ 23) = 2 ^ i := by rw [mag_power _ (by omega)]; congr 1; omega
    have hfin : (i + 127).toNat * 2 ^ 23 < 0x7F800000 := by omega
    have hge : ¬ (i : ℚ) < -126 := by rw [not_lt]; exact_mod_cast h
    refine ⟨(f32Fin_iff _).2 (by omega), fun _ => Or.inl ?_, fun hc => absurd hc hge, fun hc => absurd hc hge⟩
    rw [hexact _ hfin hbits, abs_zero]
    positivity
  · have hq : (i : ℚ) < -126 := by exact_mod_cast h
    rw [powerBits, if_neg (by omega)]
    cases fz with
    | true => exact expBounds_zero _ hq
    | false =>
      have hsmall := pow_toNat_lt h
      have hbits : mag (2 ^ (i + 149).toNat) = 2 ^ i := by
        rw [mag_subnormal hsmall.le, Nat.cast_pow, Nat.cast_ofNat, zpow_toNat (by omega), ← zpow_add₀ two_ne_zero,
          add_neg_cancel_right]
      rw [if_neg Bool.false_ne_true]
      generalize 2 ^ (i + 149).toNat = b at hsmall hbits ⊢
      refine ⟨(f32Fin_iff _).2 (by omega), fun hc => absurd hq hc.not_gt, fun _ hf => by simp at hf, fun _ _ => ?_⟩
      rw [hexact _ (by omega) hbits, abs_zero]
      positivity

/-- 1 is close enough to 2^v for a subnormal v. -/
theorem expBounds_one (fz : Bool) {v : ℚ} (hv : |v| < 2 ^ (-126 : ℤ)) : ExpBounds fz v 0x3F800000 := by
  have hone : f32Of 0x3F800000 = 1 := by norm_num [f32Of]
  obtain ⟨h1, h2⟩ := abs_lt.1 hv
  have htiny : (2 : ℚ) ^ (-126 : ℤ) ≤ 1 := by norm_num
  have hge : ¬ v < -126 := by linarith only [h1, htiny]
  refine ⟨(f32Fin_iff _).2 (by norm_num), fun _ => Or.inl ?_, fun hc => absurd hc hge, fun hc => absurd hc hge⟩
  have hfloor : -1 ≤ ⌊v⌋ := by rw [Int.le_floor]; push_cast; linarith only [h1, htiny]
  have hbound : (2 : ℝ) ^ (-23 : ℤ) ≤ 2 ^ (⌊v⌋ - 22) := zpow_le_zpow_right₀ one_le_two (by omega)
  have hreal : |(v : ℝ)| < 2 ^ (-126 : ℤ) := by
    have := (Rat.cast_lt (K := ℝ)).2 hv
    rwa [Rat.cast_abs, Rat.cast_zpow, Rat.cast_ofNat] at this
  have hsmall : |(v : ℝ)| ≤ 2 ^ (-23 : ℤ) := hreal.le.trans (zpow_le_zpow_right₀ one_le_two (by norm_num))
  have hone' : |(v : ℝ)| ≤ 1 := hsmall.trans (by norm_num)
  rw [hone, Rat.cast_one]
  refine le_trans ?_ (hsmall.trans hbound)
  rcases le_total 0 (v : ℝ) with h | h
  · have := two_rpow_le_one_add h (by rwa [abs_of_nonneg h] at hone')
    have hge1 := Real.one_le_rpow one_le_two h
    rw [abs_of_nonneg h, abs_le]
    constructor <;> linarith only [this, hge1, h]
  · have := two_rpow_le_one_add (x := -v) (by linarith only [h]) (by rwa [abs_of_nonpos h] at hone')
    have hinv : (2 : ℝ) ^ (v : ℝ) * 2 ^ (-(v : ℝ)) = 1 := by rw [← Real.rpow_add two_pos, add_neg_cancel, Real.rpow_zero]
    have hpos : (0 : ℝ) < 2 ^ (v : ℝ) := Real.rpow_pos_of_pos two_pos _
    have hle1 := Real.rpow_le_one_of_one_le_of_nonpos one_le_two h
    rw [abs_of_nonpos h, abs_le]
    constructor
    · linarith only [hle1, h]
    · nlinarith only [this, hinv, hpos, hle1, h]

end Sys2Proof.Numbers
end

section
/-! PROOFS. `fexp2a`: which of the model's cases an operand takes. -/

namespace Sys2Proof.Numbers

open Sys2Proof Sys2Proof.Machine Sys2Proof.Claims

/-- The exponent in units of 2^−48, rounded down, of the operand with sign s and magnitude A.1 ÷ A.2. -/
def expUnits (s : Bool) (A : Nat × Nat) : Int :=
  if s then -((A.1 * 2 ^ 48 + A.2 - 1) / A.2 : Nat) else (A.1 * 2 ^ 48 / A.2 : Nat)

/-- `fexp2a` of a finite operand that is not 0, of sign s and magnitude A.1 ÷ A.2. -/
def exp2Finite (fz s : Bool) (A : Nat × Nat) (x : Nat) : Nat :=
  if !s && 128 * A.2 ≤ A.1 then f32.infBits
  else if s && 149 * A.2 < A.1 then 0
  else if A.1 % A.2 = 0 then
    flushApprox fz (f32.out .rne false (.rat false 1 1 (if s then -(A.1 / A.2 : Nat) else (A.1 / A.2 : Nat))))
  else if f32.isSub x then one32
  else flushApprox fz (exp2Val fz (expUnits s A / 2 ^ 48) (expUnits s A % 2 ^ 48).toNat (A.1 * 2 ^ 48 % A.2 != 0) x)

theorem fexp2Bits_finite {l : Lane} {a : Word} (h0 : 0 < f32In l a % 2 ^ 31) (hfin : f32In l a % 2 ^ 31 < 0x7F800000) :
    fexp2Bits l a = exp2Finite (fzrs l) (negOf (f32In l a))
      (fracOf (sigOf (f32In l a % 2 ^ 31)) (expOf (f32In l a % 2 ^ 31))) (f32In l a) := by
  unfold fexp2Bits
  rw [read_finite h0 hfin, (read_nonzero h0.ne').1]
  exact if_neg (sigOf_pos h0).ne'

theorem units_le {A : Nat × Nat} (hA : 0 < A.2) (k : Nat) : k * A.2 ≤ A.1 ↔ (k : ℚ) ≤ A.1 / A.2 := by
  rw [le_div_iff₀ (by exact_mod_cast hA)]
  exact_mod_cast Iff.rfl
theorem units_lt {A : Nat × Nat} (hA : 0 < A.2) (k : Nat) : k * A.2 < A.1 ↔ (k : ℚ) < A.1 / A.2 := by
  rw [lt_div_iff₀ (by exact_mod_cast hA)]
  exact_mod_cast Iff.rfl

theorem expUnits_false (A : Nat × Nat) : expUnits false A = (A.1 * 2 ^ 48 / A.2 : Nat) := if_neg Bool.false_ne_true
theorem expUnits_true (A : Nat × Nat) : expUnits true A = -((A.1 * 2 ^ 48 + A.2 - 1) / A.2 : Nat) := if_pos rfl

/-- 2^v of the largest exponent below 128 is finite. -/
theorem two_rpow_le_maxFin {v : ℝ} (h : v ≤ 128 - 2 ^ (-17 : ℤ)) : (2 : ℝ) ^ v ≤ (maxFin : ℚ) := by
  have hchord := two_rpow_neg_le (x := 2 ^ (-17 : ℤ)) (by positivity) (by norm_num)
  calc (2 : ℝ) ^ v ≤ 2 ^ (128 - (2 : ℝ) ^ (-17 : ℤ)) := Real.rpow_le_rpow_of_exponent_le one_le_two h
    _ = 2 ^ (128 : ℝ) * 2 ^ (-(2 : ℝ) ^ (-17 : ℤ)) := by rw [← Real.rpow_add two_pos, sub_eq_add_neg]
    _ ≤ 2 ^ (128 : ℝ) * (1 - 2 ^ (-17 : ℤ) / 2) := mul_le_mul_of_nonneg_left hchord (by positivity)
    _ ≤ (maxFin : ℚ) := by
      rw [show (128 : ℝ) = ((128 : ℤ) : ℝ) by norm_num, Real.rpow_intCast, maxFin]
      norm_num

section
variable {fz s : Bool} {A : Nat × Nat} {x : Nat} {v : ℚ} (hA : 0 < A.2)
  (hv : v = (if s then -1 else 1) * ((A.1 : ℚ) / A.2))
include hA hv

/-- The model's first two tests are those of the operand. -/
theorem large_iff : (!s && decide (128 * A.2 ≤ A.1)) = true ↔ 128 ≤ v := by
  have h0 : (0 : ℚ) ≤ A.1 / A.2 := by positivity
  have h := units_le hA 128
  rw [Bool.and_eq_true, Bool.not_eq_true', decide_eq_true_eq, h, hv]
  cases s with
  | false => simp
  | true =>
    simp only [Bool.true_eq_false, false_and, if_true, false_iff, not_le]
    linarith only [h0]
theorem small_iff : (s && decide (149 * A.2 < A.1)) = true ↔ v < -149 := by
  have h0 : (0 : ℚ) ≤ A.1 / A.2 := by positivity
  have h := units_lt hA 149
  rw [Bool.and_eq_true, decide_eq_true_eq, h, hv]
  cases s with
  | false =>
    simp only [Bool.false_eq_true, false_and, if_false, false_iff, not_lt]
    linarith only [h0]
  | true => simp

/-- An exponent is an integer where the division leaves nothing. -/
theorem integer_iff (i : ℤ) : v = i ↔ A.1 % A.2 = 0 ∧ i = if s then -((A.1 / A.2 : Nat) : ℤ) else ((A.1 / A.2 : Nat) :
    ℤ) := by
  have hAq : (A.2 : ℚ) ≠ 0 := by exact_mod_cast hA.ne'
  constructor
  · intro h
    have hdvd : (A.1 : ℤ) = (if s then -i else i) * A.2 := by
      cases s with
      | false =>
        rw [hv, if_neg Bool.false_ne_true, one_mul, div_eq_iff hAq] at h
        exact_mod_cast h
      | true =>
        rw [hv, if_pos rfl, neg_one_mul, neg_eq_iff_eq_neg, div_eq_iff hAq] at h
        exact_mod_cast h
    have hmod : (A.1 : ℤ) % A.2 = 0 := by rw [hdvd, Int.mul_emod_left]
    have hdiv : (A.1 : ℤ) / A.2 = if s then -i else i := by rw [hdvd, Int.mul_ediv_cancel _ (by exact_mod_cast hA.ne')]
    refine ⟨by exact_mod_cast hmod, ?_⟩
    rw [Int.natCast_div, hdiv]
    cases s <;> simp
  · rintro ⟨hmod, rfl⟩
    have hq : (A.1 : ℚ) / A.2 = (A.1 / A.2 : Nat) := (Nat.cast_div (Nat.dvd_of_mod_eq_zero hmod) hAq).symm
    rw [hv, hq]
    cases s with
    | false => rw [if_neg Bool.false_ne_true, if_neg Bool.false_ne_true, one_mul, Int.cast_natCast]
    | true => rw [if_pos rfl, if_pos rfl, neg_one_mul, Int.cast_neg, Int.cast_natCast]

theorem exp2Finite_large (h : 128 ≤ v) : exp2Finite fz s A x = 0x7F800000 :=
  if_pos ((large_iff hA hv).2 h)

theorem exp2Finite_small (h : v < -149) : exp2Finite fz s A x = 0 := by
  rw [exp2Finite, if_neg (mt (large_iff hA hv).1 (by linarith only [h])), if_pos ((small_iff hA hv).2 h)]

theorem exp2Finite_integer {i : ℤ} (h : v = i) (hlo : -149 ≤ i) (hhi : i ≤ 127) : exp2Finite fz s A x = powerBits fz i := by
  have hloq : -149 ≤ v := by rw [h]; exact_mod_cast hlo
  have hhiq : ¬ 128 ≤ v := by rw [h, not_le]; exact_mod_cast (show i < 128 by omega)
  obtain ⟨hmod, hi⟩ := (integer_iff hA hv i).1 h
  rw [exp2Finite, if_neg (mt (large_iff hA hv).1 hhiq), if_neg (mt (small_iff hA hv).1 hloq.not_gt), if_pos hmod, ← hi,
    flush_power hlo hhi]

theorem exp2Finite_other (hlo : -149 ≤ v) (hhi : v < 128) (hint : ∀ i : ℤ, v ≠ i) :
    exp2Finite fz s A x = if f32.isSub x then one32
      else flushApprox fz (exp2Val fz (expUnits s A / 2 ^ 48) (expUnits s A % 2 ^ 48).toNat (A.1 * 2 ^ 48 % A.2 !=
        0) x) := by
  have hmod : ¬ A.1 % A.2 = 0 := fun h => hint _ ((integer_iff hA hv _).2 ⟨h, rfl⟩)
  rw [exp2Finite, if_neg (mt (large_iff hA hv).1 hhi.not_ge), if_neg (mt (small_iff hA hv).1 hlo.not_gt), if_neg hmod]

/-- The units are the exponent rounded down, and exactly it where the division leaves nothing. -/
theorem expUnits_spec : (expUnits s A : ℚ) ≤ v * 2 ^ 48 ∧ v * 2 ^ 48 < expUnits s A + 1 ∧
    (A.1 * 2 ^ 48 % A.2 = 0 → v * 2 ^ 48 = expUnits s A) := by
  have hAq : (0 : ℚ) < A.2 := by exact_mod_cast hA
  obtain ⟨N, hN⟩ : ∃ N, N = A.1 * 2 ^ 48 := ⟨_, rfl⟩
  have hw : v * 2 ^ 48 = (if s then -1 else 1) * ((N : ℚ) / A.2) := by rw [hv, hN]; push_cast; ring
  rw [hw, ← hN]
  cases s with
  | false =>
    rw [expUnits_false, ← hN, if_neg Bool.false_ne_true, one_mul, Int.cast_natCast]
    refine ⟨Nat.cast_div_le, ?_, fun h => (Nat.cast_div (Nat.dvd_of_mod_eq_zero h) hAq.ne').symm⟩
    rw [div_lt_iff₀ hAq]
    exact_mod_cast (Nat.div_lt_iff_lt_mul hA).1 (Nat.lt_succ_self (N / A.2))
  | true =>
    obtain ⟨q, hq⟩ : ∃ q, q = (N + A.2 - 1) / A.2 := ⟨_, rfl⟩
    have hq1 : N ≤ q * A.2 := by
      have := (Nat.div_lt_iff_lt_mul hA).1 (show (N + A.2 - 1) / A.2 < q + 1 by omega)
      rw [Nat.add_one_mul] at this
      omega
    have hq2 : q * A.2 < N + A.2 := by
      have := Nat.div_mul_le_self (N + A.2 - 1) A.2
      rw [← hq] at this
      omega
    have hq1 : (N : ℚ) ≤ q * A.2 := by exact_mod_cast hq1
    have hq2 : (q : ℚ) * A.2 < N + A.2 := by exact_mod_cast hq2
    rw [← div_le_iff₀ hAq] at hq1
    rw [← lt_div_iff₀ hAq, add_div, div_self hAq.ne'] at hq2
    rw [expUnits_true, ← hN, ← hq, if_pos rfl]
    push_cast
    refine ⟨by linarith only [hq1], by linarith only [hq2], fun h => ?_⟩
    rw [← Nat.cast_div (Nat.dvd_of_mod_eq_zero h) hAq.ne'] at hq1 hq2 ⊢
    have h1 : N / A.2 ≤ q := by exact_mod_cast hq1
    have h2 : q < N / A.2 + 1 := by exact_mod_cast hq2
    rw [show q = N / A.2 by omega]
    ring

/-- Any other exponent in range keeps the bounds. -/
theorem exp2Finite_bounds (hlo : -149 ≤ v) (hhi : v ≤ 128 - 2 ^ (-17 : ℤ)) (hint : ∀ i : ℤ, v ≠ i)
    (hsub : f32.isSub x = true → |v| < 2 ^ (-126 : ℤ)) :
    ExpBounds fz v (exp2Finite fz s A x) := by
  rw [exp2Finite_other hA hv hlo (hhi.trans_lt (by norm_num)) hint]
  split
  next h => exact expBounds_one fz (hsub h)
  obtain ⟨h1, h2, h3⟩ := expUnits_spec hA hv
  set u := expUnits s A
  have hdm := Int.mul_ediv_add_emod u (2 ^ 48)
  have hm0 := Int.emod_nonneg u (show (2 : ℤ) ^ 48 ≠ 0 by norm_num)
  have hm1 := Int.emod_lt_of_pos u (show (0 : ℤ) < 2 ^ 48 by norm_num)
  obtain ⟨z, hz⟩ : ∃ z, z = u / 2 ^ 48 := ⟨_, rfl⟩
  obtain ⟨p, hp⟩ : ∃ p : Nat, (p : ℤ) = u % 2 ^ 48 := ⟨(u % 2 ^ 48).toNat, Int.toNat_of_nonneg hm0⟩
  rw [← hz, ← hp] at hdm
  have hp48 : p < 2 ^ 48 := by exact_mod_cast (hp ▸ hm1 : (p : ℤ) < 2 ^ 48)
  have hu : (u : ℚ) = 2 ^ 48 * z + p := by exact_mod_cast hdm.symm
  have hp48q : (p : ℚ) + 1 ≤ 2 ^ 48 := by exact_mod_cast hp48
  have hp0 : (0 : ℚ) ≤ p := Nat.cast_nonneg p
  have hlt : v < z + 1 := by linarith only [h2, hu, hp48q]
  have hfloor : ⌊v⌋ = z := Int.floor_eq_iff.2 ⟨by linarith only [h1, hu, hp0], hlt⟩
  have hplo : (p : ℝ) ≤ (v - z) * 2 ^ 48 := by exact_mod_cast (show (p : ℚ) ≤ (v - z) * 2 ^ 48 by linarith only [h1, hu])
  have hphi : ((v : ℝ) - z) * 2 ^ 48 ≤ p + if (A.1 * 2 ^ 48 % A.2 != 0) then 1 else 0 := by
    split
    · exact_mod_cast (show (v - z) * 2 ^ 48 ≤ p + 1 by linarith only [h2, hu])
    next hex =>
      have := h3 (by simpa using hex)
      exact_mod_cast (show (v - z) * 2 ^ 48 ≤ p + 0 by linarith only [this, hu])
  have hmax : (2 : ℝ) ^ (v : ℝ) ≤ (maxFin : ℚ) := two_rpow_le_maxFin (by
    have := (Rat.cast_le (K := ℝ)).2 hhi
    rwa [Rat.cast_sub, Rat.cast_zpow, Rat.cast_ofNat, Rat.cast_ofNat] at this)
  have hz149 : -149 ≤ z := by rw [← hfloor, Int.le_floor]; exact_mod_cast hlo
  rw [← hz, ← hp, Int.toNat_natCast]
  rcases exp2Val_spec (fz := fz) x hz149 hp48 hplo hphi (by exact_mod_cast hlt) hmax with ⟨hzero, rfl, hz126⟩ | ⟨hfz, hclose⟩
  · rw [hzero]
    refine expBounds_zero v (lt_of_lt_of_le hlt ?_)
    exact_mod_cast (show z + 1 ≤ -126 by omega)
  · rw [← hfloor] at hclose hfz ⊢
    exact hclose.bounds hfz
end

end Sys2Proof.Numbers
end

section
/-! PROOFS. `flog2a`: the digits of the logarithm that the model computes (log entry 15). -/

namespace Sys2Proof.Numbers

open Sys2Proof Sys2Proof.Machine Sys2Proof.Claims

/-- The logarithm of z in units of 2^−128. -/
noncomputable def logOf (z : ℝ) : ℝ := Real.logb 2 (z / 2 ^ 128)

theorem logOf_mono {y z : ℝ} (hy : 0 < y) (h : y ≤ z) : logOf y ≤ logOf z :=
  Real.logb_le_logb_of_le one_lt_two (by positivity) (div_le_div_of_nonneg_right h (by positivity))

theorem logOf_nonneg {z : ℝ} (h : 2 ^ 128 ≤ z) : 0 ≤ logOf z :=
  Real.logb_nonneg one_lt_two ((one_le_div (by positivity)).2 h)

theorem logOf_lt_one {z : ℝ} (h0 : 0 < z) (h : z < 2 ^ 129) : logOf z < 1 := by
  rw [logOf, Real.logb_lt_iff_lt_rpow one_lt_two (by positivity), Real.rpow_one, div_lt_iff₀ (by positivity)]
  exact h.trans_eq (by norm_num)

/-- A square has twice the logarithm. -/
theorem logOf_square (z : ℝ) : logOf (z * z / 2 ^ 128) = 2 * logOf z := by
  rw [logOf, logOf, show z * z / 2 ^ 128 / 2 ^ 128 = (z / 2 ^ 128) ^ (2 : Nat) by ring, Real.logb_pow, Nat.cast_two]

theorem logOf_half {z : ℝ} (h : 0 < z) : logOf (z / 2) = logOf z - 1 := by
  rw [logOf, logOf, show z / 2 / 2 ^ 128 = z / 2 ^ 128 / 2 by ring, Real.logb_div (by positivity) two_ne_zero,
    Real.logb_self_eq_one one_lt_two]

/-- What a truncation loses of the logarithm. -/
theorem logOf_truncate {y z : ℝ} (hz : 2 ^ 128 ≤ z) (h : y ≤ z + 1) (hy : 0 < y) : logOf y ≤ logOf z + 2 ^ (-127 : ℤ) := by
  have hz0 : 0 < z := lt_of_lt_of_le (by positivity) hz
  have hlog2 : (1 : ℝ) / 2 ≤ Real.log 2 := by linarith only [Real.log_two_gt_d9]
  have hinv : 1 / z ≤ 2 ^ (-128 : ℤ) := (one_div_le_one_div_of_le (by positivity) hz).trans (by norm_num)
  calc logOf y ≤ logOf (z * (1 + 1 / z)) := logOf_mono hy (h.trans_eq (by field_simp))
    _ = logOf z + Real.logb 2 (1 + 1 / z) := by
      rw [logOf, logOf, mul_div_right_comm, Real.logb_mul (by positivity) (by positivity)]
    _ ≤ logOf z + 2 ^ (-127 : ℤ) := by
      have hlog : Real.log (1 + 1 / z) ≤ 1 / z := (Real.log_le_sub_one_of_pos (by positivity)).trans_eq (by ring)
      have : Real.logb 2 (1 + 1 / z) ≤ 2 ^ (-127 : ℤ) := by
        rw [Real.logb, div_le_iff₀ (by linarith only [hlog2])]
        calc Real.log (1 + 1 / z) ≤ 2 ^ (-128 : ℤ) := hlog.trans hinv
          _ = 2 ^ (-127 : ℤ) * (1 / 2) := by norm_num
          _ ≤ 2 ^ (-127 : ℤ) * Real.log 2 := mul_le_mul_of_nonneg_left hlog2 (by positivity)
      linarith only [this]

/-- One squaring step, truncated: the square's logarithm, less one where the digit is one. -/
theorem log2Digits_succ (n z d : Nat) (h : 2 ^ 128 ≤ z) (h' : z < 2 ^ 129) :
    ∃ (w b : Nat), log2Digits (n + 1) z d = log2Digits n w (2 * d + b) ∧ 2 ^ 128 ≤ w ∧ w < 2 ^ 129 ∧
      logOf w ≤ 2 * logOf z - b ∧ 2 * logOf z - b ≤ logOf w + 2 ^ (-127 : ℤ) := by
  have hz : (0 : ℝ) < z := by exact_mod_cast lt_of_lt_of_le (by norm_num) h
  have hsq : 2 ^ 128 * 2 ^ 128 ≤ z * z := Nat.mul_le_mul h h
  have hsq' : z * z < 2 ^ 129 * 2 ^ 129 := Nat.mul_lt_mul'' h' h'
  have hdown := floor_div_le (z * z) 128
  have hup := (lt_floor_div_add_one (z * z) 128).le
  rw [Nat.cast_mul] at hdown hup
  rw [log2Digits]
  split
  next hbig =>
    have hhalf : z * z / 2 ^ 128 / 2 = z * z / 2 ^ 129 := by rw [Nat.div_div_eq_div_mul, ← Nat.pow_succ]
    have hdown := floor_div_le (z * z) 129
    have hup := (lt_floor_div_add_one (z * z) 129).le
    have hval : (z * z : ℝ) / 2 ^ 129 = z * z / 2 ^ 128 / 2 := by ring
    rw [Nat.cast_mul, hval] at hdown hup
    have hlog : logOf (z * z / 2 ^ 128 / 2) = 2 * logOf z - (1 : Nat) := by
      rw [logOf_half (by positivity), logOf_square, Nat.cast_one]
    refine ⟨z * z / 2 ^ 129, 1, by rw [hhalf], by omega, by omega, ?_, ?_⟩ <;> rw [← hlog]
    · exact logOf_mono (by exact_mod_cast (show 0 < z * z / 2 ^ 129 by omega)) hdown
    · exact logOf_truncate (by exact_mod_cast (show 2 ^ 128 ≤ z * z / 2 ^ 129 by omega)) hup (by positivity)
  next hsmall =>
    refine ⟨z * z / 2 ^ 128, 0, rfl, by omega, by omega, ?_, ?_⟩ <;> rw [Nat.cast_zero, sub_zero, ← logOf_square]
    · exact logOf_mono (by exact_mod_cast (show 0 < z * z / 2 ^ 128 by omega)) hdown
    · exact logOf_truncate (by exact_mod_cast (show 2 ^ 128 ≤ z * z / 2 ^ 128 by omega)) hup (by positivity)

/-- The digits are the logarithm rounded down, but for what the truncated squares lose. -/
theorem log2Digits_spec : ∀ (n z d : Nat), 2 ^ 128 ≤ z → z < 2 ^ 129 →
    (log2Digits n z d : ℝ) ≤ 2 ^ n * (d + logOf z) ∧
      2 ^ n * (d + logOf z) ≤ log2Digits n z d + 1 + (2 ^ n - 1) * 2 ^ (-127 : ℤ)
  | 0, z, d, h, h' => by
    have hz : (2 : ℝ) ^ 128 ≤ z := by exact_mod_cast h
    have h0 := logOf_nonneg hz
    have h1 := logOf_lt_one (lt_of_lt_of_le (by positivity) hz) (by exact_mod_cast h' : (z : ℝ) < 2 ^ 129)
    rw [log2Digits, pow_zero, one_mul, sub_self, zero_mul, add_zero]
    constructor <;> linarith only [h0, h1]
  | n + 1, z, d, h, h' => by
    obtain ⟨w, b, heq, hw, hw', hlo, hhi⟩ := log2Digits_succ n z d h h'
    obtain ⟨h1, h2⟩ := log2Digits_spec n w (2 * d + b) hw hw'
    have hpow : (0 : ℝ) < 2 ^ n := by positivity
    rw [heq, pow_succ]
    push_cast at h1 h2
    constructor
    · nlinarith only [h1, mul_le_mul_of_nonneg_left hlo hpow.le]
    · nlinarith only [h2, mul_le_mul_of_nonneg_left hhi hpow.le]

/-- The model's logarithm of m × 2^e, in units of 2^−40. -/
def logUnits (m : Nat) (e : Int) : Int :=
  ((Nat.log2 m : Int) + e) * 2 ^ 40 + (log2Digits 40 (m * 2 ^ (128 - Nat.log2 m)) 0 : Nat)

/-- The logarithm lies from the model's units to two units more. -/
theorem logUnits_spec {m : Nat} (e : Int) (h0 : 0 < m) (hlt : m < 2 ^ 24) :
    (logUnits m e : ℝ) ≤ 2 ^ 40 * Real.logb 2 (m * 2 ^ e) ∧ 2 ^ 40 * Real.logb 2 (m * 2 ^ e) ≤ logUnits m e + 2 := by
  have hk : Nat.log2 m < 24 := (Nat.log2_lt h0.ne').2 hlt
  have hlo := Nat.log2_self_le h0.ne'
  have hhi := Nat.lt_log2_self (n := m)
  unfold logUnits
  set k := Nat.log2 m
  have hz : 2 ^ 128 ≤ m * 2 ^ (128 - k) := by
    calc 2 ^ 128 = 2 ^ k * 2 ^ (128 - k) := by rw [← Nat.pow_add, Nat.add_sub_cancel' (by omega)]
      _ ≤ m * 2 ^ (128 - k) := Nat.mul_le_mul_right _ hlo
  have hz' : m * 2 ^ (128 - k) < 2 ^ 129 := by
    calc m * 2 ^ (128 - k) < 2 ^ (k + 1) * 2 ^ (128 - k) := Nat.mul_lt_mul_of_pos_right hhi (by positivity)
      _ = 2 ^ 129 := by rw [← Nat.pow_add]; congr 1; omega
  obtain ⟨h1, h2⟩ := log2Digits_spec 40 _ 0 hz hz'
  have hmq : (0 : ℝ) < m := by exact_mod_cast h0
  have hlog : Real.logb 2 (m * 2 ^ e) = logOf ((m * 2 ^ (128 - k) : Nat) : ℝ) + (k + e) := by
    have hsplit : (m : ℝ) * 2 ^ e = ((m * 2 ^ (128 - k) : Nat) : ℝ) / 2 ^ 128 * 2 ^ ((k : ℤ) + e) := by
      have : (2 : ℝ) ^ (128 : Nat) = 2 ^ (128 - k) * 2 ^ k := by rw [← pow_add, Nat.sub_add_cancel (by omega)]
      rw [zpow_add₀ two_ne_zero, zpow_natCast, this]
      push_cast
      field_simp
    rw [hsplit, Real.logb_mul (by positivity) (by positivity), logOf, ← Real.rpow_intCast,
      Real.logb_rpow two_pos (by norm_num)]
    push_cast
    ring
  have htiny : ((2 : ℝ) ^ 40 - 1) * 2 ^ (-127 : ℤ) ≤ 1 := by norm_num
  rw [hlog]
  push_cast at h1 h2 ⊢
  constructor
  · linarith only [h1]
  · linarith only [h2, htiny]

end Sys2Proof.Numbers
end

section
/-! PROOFS. `flog2a`: the logarithm keeps its bounds whatever the opaque value is (R109, R110). -/

namespace Sys2Proof.Numbers

open Sys2Proof Sys2Proof.Machine Sys2Proof.Claims

/-- The size of the logarithm in units of 2^−40, rounded down, and the error that the model allows for it. -/
def logSize (y : Int) : Nat := (if y < 0 then -y - 2 else y).toNat
def logBound (y : Int) : Nat := if logSize y < 2 ^ 40 then 2 ^ 18 else 2 ^ (Nat.log2 (logSize y) - 22)

/-- Bits within the error of every logarithm from y to y + 2 units. -/
structure LogClose (y : Int) (r : Nat) : Prop where
  fin : r % 2 ^ 31 < 0x7F800000
  ge : (y : ℚ) + 2 - logBound y ≤ f32Of r * 2 ^ 40
  le : f32Of r * 2 ^ 40 ≤ y + logBound y

/-- A flush to zero keeps the error, which is a whole number of units. -/
theorem LogClose.flush {fz : Bool} {y : Int} {r : Nat} (h : LogClose y r) : LogClose y (flushApprox fz r) := by
  by_cases hflush : fz = true ∧ r % 2 ^ 31 ≠ 0 ∧ r % 2 ^ 31 < 2 ^ 23
  · obtain ⟨rfl, hne, hsub⟩ := hflush
    obtain ⟨hfin, hge, hle⟩ := h
    have hzero : (r / 2 ^ 31 * 2 ^ 31) % 2 ^ 31 = 0 := Nat.mul_mod_left _ _
    have hval : f32Of (r / 2 ^ 31 * 2 ^ 31) = 0 := by
      have := abs_f32Of (x := r / 2 ^ 31 * 2 ^ 31) (by omega)
      rw [hzero] at this
      simpa [mag, sigOf] using this
    have hsmall : |f32Of r * 2 ^ 40| < 1 := by
      rw [abs_mul, abs_f32Of hfin, abs_of_pos (by positivity)]
      have := mag_strictMono (show r % 2 ^ 31 < 1 * 2 ^ 23 by omega)
      rw [mag_power 1 le_rfl] at this
      calc mag (r % 2 ^ 31) * 2 ^ 40 ≤ 2 ^ (((1 : Nat) : ℤ) - 127) * 2 ^ 40 :=
        mul_le_mul_of_nonneg_right this.le (by positivity)
        _ < 1 := by norm_num
    obtain ⟨h1, h2⟩ := abs_lt.1 hsmall
    have hge' : y + 2 - logBound y < 1 := by exact_mod_cast (hge.trans_lt h2)
    have hle' : -1 < y + logBound y := by exact_mod_cast (h1.trans_le hle)
    rw [flushApprox_sub hne hsub]
    refine ⟨by omega, ?_, ?_⟩ <;> rw [hval, zero_mul]
    · exact_mod_cast (show y + 2 - logBound y ≤ 0 by omega)
    · exact_mod_cast (show 0 ≤ y + logBound y by omega)
  · rwa [flushApprox_keep (fun hf => by by_contra hc; exact hflush ⟨hf, by omega, by omega⟩)]

/-- The model's test of an opaque value. -/
theorem logClose_of_test {y : Int} {r n : Nat} {t : Bool} {g : ℤ} (hdec : f32.dec r = .num t n g)
    (hlo : (y + 2 - (logBound y : Nat)) * 2 ^ 109 ≤ (if t then -1 else 1) * (n * 2 ^ (g + 149).toNat : Nat))
    (hhi : (if t then -1 else 1) * ((n * 2 ^ (g + 149).toNat : Nat) : Int) ≤ (y + (logBound y : Nat)) * 2 ^ 109) :
      LogClose y r := by
  obtain ⟨hfin, rfl, rfl, rfl⟩ := dec_num hdec
  have hg := le_expOf (r % 2 ^ 31)
  have hval : (((if negOf r then -1 else 1) * ((sigOf (r % 2 ^ 31) * 2 ^ (expOf (r % 2 ^ 31) + 149).toNat : Nat) :
    Int) : Int) : ℚ) =
      f32Of r * 2 ^ 40 * 2 ^ 109 := by
    rw [f32Of_eq r hfin]
    generalize r % 2 ^ 31 = m at hg
    push_cast
    rw [zpow_toNat (by omega), zpow_add₀ two_ne_zero]
    norm_num
    split <;> ring
  have hpos : (0 : ℚ) < 2 ^ 109 := by positivity
  refine ⟨hfin, ?_, ?_⟩
  · have h := (Int.cast_le (R := ℚ)).2 hlo
    rw [hval] at h
    push_cast at h
    exact le_of_mul_le_mul_right h hpos
  · have h := (Int.cast_le (R := ℚ)).2 hhi
    rw [hval] at h
    push_cast at h
    exact le_of_mul_le_mul_right h hpos

theorem logBound_ge (y : Int) : 2 ^ 18 ≤ logBound y := by
  unfold logBound
  split
  · exact le_rfl
  next h =>
    have : 40 ≤ Nat.log2 (logSize y) := (Nat.le_log2 (by omega)).2 (by omega)
    exact Nat.pow_le_pow_right two_pos (by omega)

/-- Rounding the middle of the enclosure loses less than the error. -/
theorem half_ulp_le_logBound (y : Int) : (y + 1).natAbs ≤ 2 ^ 24 * (logBound y - 1) := by
  have hsize : (y + 1).natAbs ≤ logSize y + 1 := by unfold logSize; split <;> omega
  unfold logBound
  split
  · omega
  next h =>
    have hlog : 40 ≤ Nat.log2 (logSize y) := (Nat.le_log2 (by omega)).2 (by omega)
    have hlt := Nat.lt_log2_self (n := logSize y)
    obtain ⟨j, hj⟩ := Nat.exists_eq_add_of_le hlog
    rw [hj] at hlt ⊢
    rw [show 40 + j + 1 = 41 + j by omega, Nat.pow_add] at hlt
    rw [show 40 + j - 22 = 18 + j by omega, Nat.pow_add]
    have := Nat.one_le_two_pow (n := j)
    omega

theorem f32Of_signed_mag (s : Bool) {m : Nat} (hm : m < 0x7F800000) :
    f32.signed s m % 2 ^ 31 = m ∧ f32Of (f32.signed s m) = (if s then -1 else 1) * mag m := by
  rw [signed_eq]
  cases s with
  | false =>
    rw [if_neg Bool.false_ne_true, if_neg Bool.false_ne_true, Nat.zero_add, one_mul, f32Of_eq_mag hm]
    exact ⟨by omega, rfl⟩
  | true =>
    have hneg : negOf (2 ^ 31) = true := by decide
    have h := f32Of_signed (x := 2 ^ 31) hm
    rw [hneg, f32Of_eq_mag hm] at h
    exact ⟨by rw [if_pos rfl]; omega, h⟩

/-- The rounded middle of the enclosure. -/
def logNear (y : Int) : Nat := f32.out .rne false (.rat (decide (y + 1 < 0)) (y + 1).natAbs 1 (-40))

theorem logNear_spec {y : Int} (hy : (y + 1).natAbs ≤ 2 ^ 50) : LogClose y (logNear y) := by
  have hbound : (2 : ℚ) ^ 18 ≤ logBound y := by exact_mod_cast logBound_ge y
  rcases Nat.eq_zero_or_pos (y + 1).natAbs with h0 | hpos
  · obtain rfl : y = -1 := by omega
    have hzero : logNear (-1) = 85 * 2 ^ 23 := by decide
    have hval : f32Of (85 * 2 ^ 23) = 2 ^ (-42 : ℤ) := by rw [f32Of_eq_mag (by norm_num), mag_power 85 (by norm_num)]; rfl
    rw [hzero]
    refine ⟨by norm_num, ?_, ?_⟩ <;> rw [hval] <;> push_cast
    · exact le_trans (by linarith only [hbound]) (show (0 : ℚ) ≤ 2 ^ (-42 : ℤ) * 2 ^ 40 by positivity)
    · exact le_trans (show (2 : ℚ) ^ (-42 : ℤ) * 2 ^ 40 ≤ 1 by norm_num) (by linarith only [hbound])
  obtain ⟨n, hn⟩ : ∃ n, n = (y + 1).natAbs := ⟨_, rfl⟩
  rw [← hn] at hy hpos
  have hhalf : (n : ℚ) ≤ 2 ^ 24 * (logBound y - 1) := by
    have h := half_ulp_le_logBound y
    have hb := logBound_ge y
    rw [← hn, ← Nat.cast_le (α := ℚ), Nat.cast_mul, Nat.cast_sub (by omega)] at h
    exact_mod_cast h
  have hn1 : (1 : ℚ) ≤ n := by exact_mod_cast hpos
  have hn2 : (n : ℚ) ≤ 2 ^ 50 := by exact_mod_cast hy
  have hx : ratOf n 1 (-40) = n * 2 ^ (-40 : ℤ) := by rw [ratOf, Nat.cast_one, div_one]
  obtain ⟨c, sig, hb, h⟩ := magBits_rounds (decide (y + 1 < 0)) (-40) hpos one_pos
  rw [hx] at h
  have hfin := h.finite ((mul_le_mul_of_nonneg_right hn2 (by positivity)).trans (by norm_num [maxFin]))
  obtain ⟨-, herr⟩ := h.normal ((mul_le_mul_of_nonneg_right hn1 (by positivity)).trans' (by norm_num))
  rw [← h.value hfin, f32Of_eq_mag hfin] at herr
  have hbits : logNear y = f32.signed (decide (y + 1 < 0)) (c * 2 ^ 23 + sig) := by
    rw [logNear, out_rne, ← hn, hb, min_eq_left (by omega)]
  obtain ⟨hmod, hval⟩ := f32Of_signed_mag (decide (y + 1 < 0)) hfin
  rw [hbits]
  set b := c * 2 ^ 23 + sig
  have hdist : |mag b * 2 ^ 40 - n| ≤ (logBound y : ℚ) - 1 := by
    calc |mag b * 2 ^ 40 - n| = |mag b - n * 2 ^ (-40 : ℤ)| * 2 ^ 40 := by
          rw [← abs_of_pos (show (0 : ℚ) < 2 ^ 40 by positivity), ← abs_mul,
            abs_of_pos (show (0 : ℚ) < 2 ^ 40 by positivity), sub_mul,
            mul_assoc, show (2 : ℚ) ^ (-40 : ℤ) * 2 ^ 40 = 1 by norm_num, mul_one]
      _ ≤ 2 ^ (-24 : ℤ) * (n * 2 ^ (-40 : ℤ)) * 2 ^ 40 := mul_le_mul_of_nonneg_right herr (by positivity)
      _ = n / 2 ^ 24 := by norm_num; ring
      _ ≤ logBound y - 1 := by rw [div_le_iff₀ (by positivity)]; linarith only [hhalf]
  have hy1 : (y : ℚ) + 1 = (if decide (y + 1 < 0) then -1 else 1) * n := by
    split
    next hneg =>
      rw [decide_eq_true_eq] at hneg
      have : y + 1 = -(n : ℤ) := by omega
      rw [neg_one_mul]
      exact_mod_cast this
    next hneg =>
      rw [decide_eq_true_eq] at hneg
      have : y + 1 = (n : ℤ) := by omega
      rw [one_mul]
      exact_mod_cast this
  have hsign : |(if decide (y + 1 < 0) then -1 else 1 : ℚ)| = 1 := by split <;> norm_num
  rw [← one_mul |_|, ← hsign, ← abs_mul, mul_sub, ← mul_assoc, ← hval, ← hy1, hsign] at hdist
  obtain ⟨h1, h2⟩ := abs_le.1 hdist
  exact ⟨hmod.symm ▸ hfin, by linarith only [h1], by linarith only [h2]⟩

/-- Whatever the opaque value is, it keeps the error. -/
theorem log2Val_spec (fz : Bool) {m : Nat} {e : Int} (x : Nat) (hy : (logUnits m e + 1).natAbs ≤ 2 ^ 50) :
    LogClose (logUnits m e) (log2Val fz m e x) := by
  have hnear := logNear_spec hy
  unfold log2Val
  refine iteInduction (motive := LogClose (logUnits m e)) (fun hok => ?_) (fun _ => hnear)
  split at hok
  next t n g hdec =>
    rw [Bool.and_eq_true, decide_eq_true_eq, decide_eq_true_eq] at hok
    exact logClose_of_test hdec hok.1 hok.2
  next => cases hok

end Sys2Proof.Numbers
end

section
/-! PROOFS. `flog2a`: from the model's units to the bounds of R109, and the exact powers of R110. -/

namespace Sys2Proof.Numbers

open Sys2Proof Sys2Proof.Machine Sys2Proof.Claims

/-- What R109 asks of bits r that stand for the logarithm of v. -/
def LogBounds (v : ℚ) (r : Nat) : Prop :=
  f32Fin r ∧
  (1 / 2 ≤ v → v ≤ 2 → |((f32Of r : ℚ) : ℝ) - Real.logb 2 v| ≤ 2 ^ (-22 : ℤ)) ∧
  (v < 1 / 2 ∨ 2 < v → ∀ e : ℤ, 2 ^ e ≤ |Real.logb 2 v| → |Real.logb 2 v| < 2 ^ (e + 1) →
    |((f32Of r : ℚ) : ℝ) - Real.logb 2 v| ≤ 2 ^ (e - 22))

theorem logBounds_exact {v : ℚ} {r : Nat} (hfin : f32Fin r) (h : ((f32Of r : ℚ) : ℝ) = Real.logb 2 v) : LogBounds v r := by
  rw [LogBounds, h, sub_self, abs_zero]
  exact ⟨hfin, fun _ _ => by positivity, fun _ _ _ _ => by positivity⟩

/-- From 0.5 to 2 the logarithm is at most 1 in size, and beyond it is more. -/
theorem abs_logb_le_one {v : ℚ} (h1 : 1 / 2 ≤ v) (h2 : v ≤ 2) : |Real.logb 2 v| ≤ 1 := by
  have h1 : ((1 / 2 : ℚ) : ℝ) ≤ v := by exact_mod_cast h1
  have h2 : (v : ℝ) ≤ 2 := by exact_mod_cast h2
  push_cast at h1
  have hv : (0 : ℝ) < v := lt_of_lt_of_le (by norm_num) h1
  rw [abs_le, Real.le_logb_iff_rpow_le one_lt_two hv, Real.logb_le_iff_le_rpow one_lt_two hv, Real.rpow_one,
    Real.rpow_neg_one]
  exact ⟨by linarith only [h1], h2⟩
theorem one_lt_abs_logb {v : ℚ} (hv : 0 < v) (h : v < 1 / 2 ∨ 2 < v) : 1 < |Real.logb 2 v| := by
  have hv : (0 : ℝ) < v := by exact_mod_cast hv
  rw [lt_abs]
  rcases h with h | h
  · have h : (v : ℝ) < ((1 / 2 : ℚ) : ℝ) := by exact_mod_cast h
    push_cast at h
    right
    rw [lt_neg, Real.logb_lt_iff_lt_rpow one_lt_two hv, Real.rpow_neg_one]
    linarith only [h]
  · left
    rw [Real.lt_logb_iff_rpow_lt one_lt_two hv, Real.rpow_one]
    exact_mod_cast h

section
variable {y : Int} {T : ℝ} (hlo : (y : ℝ) ≤ T) (hhi : T ≤ y + 2)
include hlo hhi

theorem logSize_le : (logSize y : ℝ) ≤ |T| := by
  have hcast : (logSize y : ℝ) = ((max (if y < 0 then -y - 2 else y) 0 : Int) : ℝ) := by
    rw [logSize, ← Int.toNat_eq_max, Int.cast_natCast]
  rw [hcast]
  push_cast
  refine max_le ?_ (abs_nonneg T)
  split
  · linarith only [hhi, neg_abs_le T]
  · exact hlo.trans (le_abs_self T)

/-- The model's error is at most that of R109. -/
theorem logBound_le (h : |T| ≤ 2 ^ 40) : (logBound y : ℝ) ≤ 2 ^ 18 := by
  have hsize : logSize y ≤ 2 ^ 40 := by exact_mod_cast (logSize_le hlo hhi).trans h
  have : logBound y ≤ 2 ^ 18 := by
    unfold logBound
    split
    · exact le_rfl
    next hge => rw [show logSize y = 2 ^ 40 by omega, Nat.log2_two_pow]
  exact_mod_cast this
theorem logBound_le_pow {j : Nat} (h : |T| < 2 ^ (j + 41)) : (logBound y : ℝ) ≤ 2 ^ (j + 18) := by
  have hsize : logSize y < 2 ^ (j + 41) := by exact_mod_cast (logSize_le hlo hhi).trans_lt h
  have : logBound y ≤ 2 ^ (j + 18) := by
    unfold logBound
    split
    · exact Nat.pow_le_pow_right two_pos (by omega)
    next hge =>
      have := (Nat.log2_lt (by omega)).2 hsize
      exact Nat.pow_le_pow_right two_pos (by omega)
  exact_mod_cast this
end

theorem LogClose.bounds {v : ℚ} {y : Int} {r : Nat} (h : LogClose y r) (hv : 0 < v) (hlo : (y : ℝ) ≤ 2 ^ 40 * Real.logb 2 v)
    (hhi : 2 ^ 40 * Real.logb 2 v ≤ (y : ℝ) + 2) : LogBounds v r := by
  obtain ⟨hfin, hge, hle⟩ := h
  have hge : (y : ℝ) + 2 - logBound y ≤ ((f32Of r : ℚ) : ℝ) * 2 ^ 40 := by exact_mod_cast hge
  have hle : ((f32Of r : ℚ) : ℝ) * 2 ^ 40 ≤ y + logBound y := by exact_mod_cast hle
  set L := Real.logb 2 (v : ℝ)
  have habs : |2 ^ 40 * L| = 2 ^ 40 * |L| := by rw [abs_mul, abs_of_pos (by positivity)]
  have hpos : (0 : ℝ) < 2 ^ 40 := by positivity
  have hdist : ∀ {b : ℝ}, (logBound y : ℝ) ≤ b * 2 ^ 40 → |((f32Of r : ℚ) : ℝ) - L| ≤ b := fun {b} hb => by
    rw [abs_le]
    constructor <;> refine le_of_mul_le_mul_right ?_ hpos
    · linarith only [hge, hhi, hb]
    · linarith only [hle, hlo, hb]
  refine ⟨(f32Fin_iff r).2 hfin, fun h1 h2 => hdist ?_, fun hout e he1 he2 => hdist ?_⟩
  · refine (logBound_le hlo hhi ?_).trans (by norm_num)
    rw [habs]
    exact mul_le_of_le_one_right hpos.le (abs_logb_le_one h1 h2)
  · have he0 : 0 ≤ e := by
      have := (zpow_lt_zpow_iff_right₀ (one_lt_two (α := ℝ))).1
        ((zpow_zero (2 : ℝ)).trans_lt ((one_lt_abs_logb hv hout).trans he2))
      omega
    obtain ⟨j, rfl⟩ := Int.eq_ofNat_of_zero_le he0
    refine (logBound_le_pow hlo hhi (j := j) ?_).trans_eq ?_
    · rw [habs]
      calc 2 ^ 40 * |L| < 2 ^ 40 * 2 ^ ((j : ℤ) + 1) := mul_lt_mul_of_pos_left he2 hpos
        _ = 2 ^ (j + 41) := by rw [← zpow_natCast 2 40, ← zpow_add₀ two_ne_zero, ← zpow_natCast]; congr 1; push_cast; ring
    · rw [← zpow_natCast 2 40, ← zpow_add₀ two_ne_zero, ← zpow_natCast]; congr 1; push_cast; ring

theorem logb_mag (m : Nat) : Real.logb 2 ((mag m : ℚ) : ℝ) = Real.logb 2 (sigOf m * 2 ^ expOf m) := by
  rw [mag]; push_cast; rfl

section
variable {m : Nat} (h0 : 0 < m) (hfin : m < 0x7F800000)
include h0

include hfin in
/-- The units of a finite operand are small. -/
theorem logUnits_small : (logUnits (sigOf m) (expOf m) + 1).natAbs ≤ 2 ^ 50 := by
  obtain ⟨h1, h2⟩ := logUnits_spec (expOf m) (sigOf_pos h0) (sigOf_lt m)
  rw [← logb_mag m] at h1 h2
  have hpos : (0 : ℝ) < ((mag m : ℚ) : ℝ) := by exact_mod_cast mag_pos h0
  have hlo : ((2 ^ (-149 : ℤ) : ℚ) : ℝ) ≤ mag m := by
    have := mag_strictMono.monotone (show 1 ≤ m from h0)
    rw [mag_subnormal (by norm_num), Nat.cast_one, one_mul] at this
    exact_mod_cast this
  have hhi : ((mag m : ℚ) : ℝ) ≤ ((2 ^ (128 : ℤ) : ℚ) : ℝ) := by
    exact_mod_cast (mag_le_maxFin hfin).trans (show maxFin ≤ 2 ^ (128 : ℤ) by norm_num [maxFin])
  rw [Rat.cast_zpow, Rat.cast_ofNat, ← Real.rpow_intCast] at hlo hhi
  rw [← Real.le_logb_iff_rpow_le one_lt_two hpos] at hlo
  rw [← Real.logb_le_iff_le_rpow one_lt_two hpos] at hhi
  have hy1 : -150 * 2 ^ 40 ≤ logUnits (sigOf m) (expOf m) := by
    have : ((-150 * 2 ^ 40 : ℤ) : ℝ) ≤ logUnits (sigOf m) (expOf m) := by push_cast at hlo ⊢; linarith only [hlo, h2]
    exact_mod_cast this
  have hy2 : logUnits (sigOf m) (expOf m) ≤ 128 * 2 ^ 40 := by
    have : (logUnits (sigOf m) (expOf m) : ℝ) ≤ ((128 * 2 ^ 40 : ℤ) : ℝ) := by push_cast at hhi ⊢; linarith only [hhi, h1]
    exact_mod_cast this
  omega

include hfin in
theorem logBounds_val (fz : Bool) (x : Nat) : LogBounds (mag m) (flushApprox fz (log2Val fz (sigOf m) (expOf m) x)) := by
  obtain ⟨h1, h2⟩ := logUnits_spec (expOf m) (sigOf_pos h0) (sigOf_lt m)
  rw [← logb_mag m] at h1 h2
  exact (log2Val_spec fz x (logUnits_small h0 hfin)).flush.bounds (mag_pos h0) h1 h2
end

/-- The bits of the logarithm of 2^k. -/
def powerLog (k : Int) : Nat := f32.out .rne false (if k = 0 then .zero false else .rat (decide (k < 0)) k.natAbs 1 0)

theorem powerLog_zero : powerLog 0 = 0 := by decide

/-- A small integer is exact. -/
theorem powerLog_spec {k : Int} (hlo : -126 ≤ k) (hhi : k ≤ 126) : f32Fin (powerLog k) ∧ f32Of (powerLog k) = k := by
  rcases eq_or_ne k 0 with rfl | hk
  · rw [powerLog_zero]
    exact ⟨(f32Fin_iff 0).2 (by norm_num), by norm_num [f32Of]⟩
  obtain ⟨n, hn⟩ : ∃ n, n = k.natAbs := ⟨_, rfl⟩
  have hpos : 0 < n := by omega
  obtain ⟨c, sig, hb, h⟩ := magBits_rounds (decide (k < 0)) 0 hpos one_pos
  have hx : ratOf n 1 0 = n := by rw [ratOf, Nat.cast_one, div_one, zpow_zero, mul_one]
  rw [hx] at h
  have hn1 : (1 : ℚ) ≤ n := by exact_mod_cast hpos
  have hn2 : (n : ℚ) ≤ 2 ^ (7 : ℤ) := by exact_mod_cast (show n ≤ 2 ^ 7 by omega)
  have hfin := h.finite (hn2.trans (by norm_num [maxFin]))
  have hc : (c : ℤ) ≤ 149 := by
    rcases Nat.eq_zero_or_pos c with h0 | h0
    · omega
    · have := (zpow_le_zpow_iff_right₀ (one_lt_two (α := ℚ))).1 ((h.size h0.ne').trans hn2)
      omega
  have hsig : sig = n * 2 ^ (149 - c) := h.exact (by
    rw [Nat.cast_mul, Nat.cast_pow, Nat.cast_ofNat, mul_assoc, ← zpow_natCast, ← zpow_add₀ two_ne_zero,
      show ((149 - c : Nat) : ℤ) + ((c : ℤ) - 149) = 0 by omega, zpow_zero, mul_one])
  have hmag : mag (c * 2 ^ 23 + sig) = n := by
    rw [← f32Of_eq_mag hfin, h.value hfin, hsig, Nat.cast_mul, Nat.cast_pow, Nat.cast_ofNat, mul_assoc, ← zpow_natCast,
      ← zpow_add₀ two_ne_zero, show ((149 - c : Nat) : ℤ) + ((c : ℤ) - 149) = 0 by omega, zpow_zero, mul_one]
  have hbits : powerLog k = f32.signed (decide (k < 0)) (c * 2 ^ 23 + sig) := by
    rw [powerLog, if_neg hk, out_rne, ← hn, hb, min_eq_left (by omega)]
  obtain ⟨hmod, hval⟩ := f32Of_signed_mag (decide (k < 0)) hfin
  rw [hbits, hval, hmag]
  refine ⟨(f32Fin_iff _).2 (hmod.symm ▸ hfin), ?_⟩
  split
  next hneg =>
    rw [decide_eq_true_eq] at hneg
    rw [neg_one_mul]
    exact_mod_cast (show -(n : ℤ) = k by omega)
  next hneg =>
    rw [decide_eq_true_eq] at hneg
    rw [one_mul]
    exact_mod_cast (show (n : ℤ) = k by omega)

section
variable {l : Lane} {a : Word} (h0 : 0 < f32In l a % 2 ^ 31) (hfin : f32In l a % 2 ^ 31 < 0x7F800000)
include h0 hfin

theorem flog2Bits_negative (hs : negOf (f32In l a) = true) : flog2Bits l a = 0x7FC00000 := by
  unfold flog2Bits
  rw [read_finite h0 hfin, hs]
  dsimp only
  rw [if_neg (sigOf_pos h0).ne', if_pos rfl]
  decide

theorem flog2Bits_power (hs : negOf (f32In l a) = false) {k : Int}
    (hk : powerOf (sigOf (f32In l a % 2 ^ 31)) (expOf (f32In l a % 2 ^ 31)) = some k) (hlo : -126 ≤ k) (hhi : k ≤ 126) :
    flog2Bits l a = powerLog k := by
  unfold flog2Bits
  rw [read_finite h0 hfin, hs]
  dsimp only
  rw [if_neg (sigOf_pos h0).ne', if_neg Bool.false_ne_true, hk]
  exact if_pos (by simp [hlo, hhi])

theorem flog2Bits_other (hs : negOf (f32In l a) = false)
    (hk : ∀ k, powerOf (sigOf (f32In l a % 2 ^ 31)) (expOf (f32In l a % 2 ^ 31)) = some k → ¬ (-126 ≤ k ∧ k ≤ 126)) :
    flog2Bits l a = flushApprox (fzrs l) (log2Val (fzrs l) (sigOf (f32In l a % 2 ^ 31)) (expOf (f32In l a % 2 ^ 31))
      (lo32 a)) := by
  unfold flog2Bits
  rw [read_finite h0 hfin, hs]
  dsimp only
  rw [if_neg (sigOf_pos h0).ne', if_neg Bool.false_ne_true]
  split
  next k hp => exact if_neg (by simpa using hk k hp)
  next => rfl

/-- The logarithm keeps the bounds of R109. -/
theorem flog2Bits_bounds (hs : negOf (f32In l a) = false) : LogBounds (mag (f32In l a % 2 ^ 31)) (flog2Bits l a) := by
  by_cases hk : ∃ k, powerOf (sigOf (f32In l a % 2 ^ 31)) (expOf (f32In l a % 2 ^ 31)) = some k ∧ -126 ≤ k ∧ k ≤ 126
  · obtain ⟨k, hk, hlo, hhi⟩ := hk
    obtain ⟨hf, hval⟩ := powerLog_spec hlo hhi
    rw [flog2Bits_power h0 hfin hs hk hlo hhi]
    refine logBounds_exact hf ?_
    rw [hval, mag, powerOf_some hk, Rat.cast_zpow, Rat.cast_ofNat, ← Real.rpow_intCast,
      Real.logb_rpow two_pos (by norm_num), Rat.cast_intCast]
  · rw [flog2Bits_other h0 hfin hs (fun k hp hr => hk ⟨k, hp, hr⟩)]
    exact logBounds_val h0 hfin _ _
end

end Sys2Proof.Numbers
end

section
/-! PROOFS. The four approximate functions of an operand in any mode: the rows of R110 and the bounds of R109. -/

namespace Sys2Proof.Numbers

open Sys2Proof Sys2Proof.Machine Sys2Proof.Claims

-- The reciprocal.
theorem Reciprocal.le {fz : Bool} {m r : Nat} (h : Reciprocal fz m r) : r ≤ 0x7F800000 := by
  rcases lt_or_ge maxFin (1 / mag m) with hx | hx
  · exact (h.overflow hx).le
  · exact (h.finite hx).le

/-- No flush meets a reciprocal: it is normal, or zero, or the mode does not flush. -/
theorem Reciprocal.normal_or_zero {fz : Bool} {m r : Nat} (h : Reciprocal fz m r) (hfz : fz = true) : r =
    0 ∨ 2 ^ 23 ≤ r := by
  rcases lt_or_ge (1 / mag m) (2 ^ (-126 : ℤ)) with hx | hx
  · exact Or.inl (h.flush hx hfz)
  · exact Or.inr (h.normal hx)

theorem rcpaVal_power (fz : Bool) (x : Nat) {n : Nat} (hn : 1 ≤ n) (hn' : n ≤ 253) :
    rcpaVal fz (sigOf (n * 2 ^ 23)) (expOf (n * 2 ^ 23)) x = (254 - n) * 2 ^ 23 := by
  have hnamed : (powerOf (sigOf (n * 2 ^ 23)) (expOf (n * 2 ^ 23))).any (fun k => -126 ≤ k && k ≤ 126) = true := by
    rw [powerOf_normal n hn, Option.any_some]
    simp only [Bool.and_eq_true, decide_eq_true_eq]
    omega
  have hpos : 0 < n * 2 ^ 23 := by omega
  obtain ⟨c, sig, h, hb⟩ := out_pos (-expOf (n * 2 ^ 23)) one_pos (sigOf_pos hpos)
  have hx : ratOf 1 (sigOf (n * 2 ^ 23)) (-expOf (n * 2 ^ 23)) = 2 ^ (127 - (n : ℤ)) := by
    rw [ratOf_inv, mag_power n hn, one_div, ← zpow_neg, neg_sub]
  unfold rcpaVal
  rw [if_pos hnamed, hb, h.power hx (by omega) (by omega), if_pos (by omega)]
  omega

section
variable {l : Lane} {a : Word}

/-- A sign of the operand, as the statement writes it. -/
theorem sign_eq (l : Lane) (a : Word) (m : Nat) : f32.signed (negOf (f32In l a)) m = f32In l a / 2 ^ 31 * 2 ^ 31 + m :=
  signed_negOf (f32In_lt l a)

/-- An operand with the value of its sign. -/
theorem f32In_value (hfin : f32In l a % 2 ^ 31 < 0x7F800000) :
    f32Of (f32In l a) = (if negOf (f32In l a) then -1 else 1) * mag (f32In l a % 2 ^ 31) := f32Of_eq _ hfin

/-- The operand whose bits are those of magnitude m. -/
theorem f32In_magnitude (h0 : 0 < f32In l a % 2 ^ 31) : f32In l (BitVec.ofNat 64 (f32In l a % 2 ^ 31)) =
    f32In l a % 2 ^ 31 := by
  obtain ⟨-, -, hfz⟩ := read_nonzero h0.ne'
  have hlt : f32In l a % 2 ^ 31 < 2 ^ 31 := Nat.mod_lt _ (by norm_num)
  generalize f32In l a % 2 ^ 31 = m at *
  have htoNat : (BitVec.ofNat 64 m).toNat = m := by rw [BitVec.toNat_ofNat, Nat.mod_eq_of_lt (by omega)]
  rw [f32In, htoNat, if_neg (fun hc => by have := hfz hc.1; omega)]
  omega

section finite
variable (h0 : 0 < f32In l a % 2 ^ 31) (hfin : f32In l a % 2 ^ 31 < 0x7F800000)
include h0 hfin

theorem frcpaBits_finite :
    frcpaBits l a = f32In l a / 2 ^ 31 * 2 ^ 31 +
      rcpaVal (fzrs l) (sigOf (f32In l a % 2 ^ 31)) (expOf (f32In l a % 2 ^ 31)) (f32In l a % 2 ^ 31) := by
  have h := rcpaVal_spec h0 hfin (fzrs l) (f32In l a % 2 ^ 31)
  have hle := h.le
  unfold frcpaBits
  rw [read_finite h0 hfin, (read_nonzero h0.ne').1]
  dsimp only
  rw [if_neg (sigOf_pos h0).ne', sign_eq, flushApprox_keep]
  intro hfz
  have := h.normal_or_zero hfz
  omega

theorem frcpaBits_negative (hs : f32In l a / 2 ^ 31 * 2 ^ 31 ≠ 0) : frcpaBits l a =
    2 ^ 31 + frcpaBits l (BitVec.ofNat 64 (f32In l a % 2 ^ 31)) := by
  have hlt := f32In_lt l a
  have hmag := f32In_magnitude h0
  rw [frcpaBits_finite h0 hfin, frcpaBits_finite (by rw [hmag]; omega) (by rw [hmag]; omega), hmag, Nat.mod_mod]
  omega

theorem frsqaBits_finite (hs : negOf (f32In l a) = false) : frsqaBits l a =
      rsqaVal (fzrs l) (sigOf (f32In l a % 2 ^ 31)) (expOf (f32In l a % 2 ^ 31)) (f32In l a) := by
  have h := rsqaVal_spec h0 hfin (fzrs l) (f32In l a)
  have hlt := h.finite
  have hge := h.normal
  unfold frsqaBits
  rw [read_finite h0 hfin, (read_nonzero h0.ne').1, hs]
  dsimp only
  rw [if_neg (sigOf_pos h0).ne', if_neg Bool.false_ne_true, flushApprox_keep]
  intro _
  omega

theorem frsqaBits_negative (hs : negOf (f32In l a) = true) : frsqaBits l a = 0x7FC00000 := by
  unfold frsqaBits
  rw [read_finite h0 hfin, hs]
  dsimp only
  rw [if_neg (sigOf_pos h0).ne', if_pos rfl]
  decide
end finite

-- The rows of R110.
theorem rows_nan (h : 0x7F800000 < f32In l a % 2 ^ 31) : frcpaBits l a = 0x7FC00000 ∧ frsqaBits l a = 0x7FC00000 ∧
    fexp2Bits l a = 0x7FC00000 ∧ flog2Bits l a = 0x7FC00000 := by
  have hread := (read_nonzero (l := l) (a := a) (by omega)).2.1.trans (dec_nan h)
  have hnan : f32.nanBits = 0x7FC00000 := by decide
  unfold frcpaBits frsqaBits fexp2Bits flog2Bits
  rw [hread]
  exact ⟨hnan, hnan, hnan, hnan⟩

theorem read_inf (h : f32In l a % 2 ^ 31 = 0x7F800000) : f32.read (fzis l) (lo32 a) = .inf (negOf (f32In l a)) :=
  (read_nonzero (by omega)).2.1.trans (dec_inf h)

theorem rows_posInf (h : f32In l a = 0x7F800000) : frcpaBits l a = 0 ∧ frsqaBits l a = 0 ∧ fexp2Bits l a = 0x7F800000 ∧
    flog2Bits l a = 0x7F800000 := by
  have hread := read_inf (l := l) (a := a) (by omega)
  have hs : negOf 0x7F800000 = false := by decide
  rw [h, hs] at hread
  unfold frcpaBits frsqaBits fexp2Bits flog2Bits
  rw [hread]
  exact ⟨rfl, rfl, f32_infBits, f32_infBits⟩

theorem rows_negInf (h : f32In l a = 0xFF800000) : frcpaBits l a = 0x80000000 ∧ frsqaBits l a = 0x7FC00000 ∧
    fexp2Bits l a = 0 ∧
    flog2Bits l a = 0x7FC00000 := by
  have hread := read_inf (l := l) (a := a) (by omega)
  have hs : negOf 0xFF800000 = true := by decide
  have hnan : f32.nanBits = 0x7FC00000 := by decide
  rw [h, hs] at hread
  unfold frcpaBits frsqaBits fexp2Bits flog2Bits
  rw [hread]
  exact ⟨show f32.signed true 0 = 0x80000000 by decide, hnan, rfl, hnan⟩

theorem rows_zero (h : f32In l a % 2 ^ 31 = 0) : frcpaBits l a = f32In l a / 2 ^ 31 * 2 ^ 31 + 0x7F800000 ∧
    frsqaBits l a = f32In l a / 2 ^ 31 * 2 ^ 31 + 0x7F800000 ∧ fexp2Bits l a = 0x3F800000 ∧ flog2Bits l a = 0xFF800000 := by
  obtain ⟨e, hread⟩ := read_zero h
  unfold frcpaBits frsqaBits fexp2Bits flog2Bits
  rw [hread]
  exact ⟨sign_eq l a _, sign_eq l a _, rfl, show f32.signed true f32.infBits = 0xFF800000 by decide⟩
end

end Sys2Proof.Numbers
end

section
/-! PROOFS. O4's first part: the rows of R110 and the bounds of R109 together. -/

namespace Sys2Proof.Numbers

open Sys2Proof Sys2Proof.Machine Sys2Proof.Claims

section
variable {l : Lane} {a : Word}

/-- The sign that the statement reads. -/
theorem negOf_of_sign (h : f32In l a / 2 ^ 31 * 2 ^ 31 = 0) : negOf (f32In l a) = false := by
  rw [Bool.eq_false_iff, ne_eq, negOf_iff]; omega
theorem negOf_of_sign_ne (h : f32In l a / 2 ^ 31 * 2 ^ 31 ≠ 0) : negOf (f32In l a) = true := by
  have := f32In_lt l a
  rw [negOf_iff]; omega

theorem f32In_zero (h : f32In l a % 2 ^ 31 = 0) : f32Of (f32In l a) = 0 := by
  have := f32In_value (l := l) (a := a) (by omega)
  rw [this, h]
  simp [mag, sigOf]

/-- An operand of positive value is not 0 and has no sign. -/
theorem f32In_pos (hfin : f32In l a % 2 ^ 31 < 0x7F800000) (hv : 0 < f32Of (f32In l a)) :
    0 < f32In l a % 2 ^ 31 ∧ negOf (f32In l a) = false ∧ f32Of (f32In l a) = mag (f32In l a % 2 ^ 31) := by
  have h0 : 0 < f32In l a % 2 ^ 31 := by
    by_contra hc
    rw [f32In_zero (by omega)] at hv
    exact lt_irrefl _ hv
  have hval := f32In_value hfin
  have hpos := mag_pos h0
  cases hs : negOf (f32In l a) with
  | false =>
    rw [hs, if_neg Bool.false_ne_true, one_mul] at hval
    exact ⟨h0, rfl, hval⟩
  | true =>
    rw [hs, if_pos rfl] at hval
    linarith only [hval, hpos, hv]

/-- An operand that is not 0, as `fexp2a` takes it apart. -/
theorem exp2_operand (hfin : f32In l a % 2 ^ 31 < 0x7F800000) :
    f32Of (f32In l a) = (if negOf (f32In l a) then -1 else 1) *
      (((fracOf (sigOf (f32In l a % 2 ^ 31)) (expOf (f32In l a % 2 ^ 31))).1 : ℚ) /
        (fracOf (sigOf (f32In l a % 2 ^ 31)) (expOf (f32In l a % 2 ^ 31))).2) := by
  rw [(fracOf_spec _ _).2, ← mag, f32In_value hfin]

theorem fexp2_large (hfin : f32In l a % 2 ^ 31 < 0x7F800000) (hv : 128 ≤ f32Of (f32In l a)) : fexp2Bits l a =
    0x7F800000 := by
  obtain ⟨h0, -, -⟩ := f32In_pos hfin (by linarith only [hv])
  rw [fexp2Bits_finite h0 hfin, exp2Finite_large (fracOf_spec _ _).1 (exp2_operand hfin) hv]

theorem operand_ne_zero (hv : f32Of (f32In l a) ≠ 0) : 0 < f32In l a % 2 ^ 31 :=
  Nat.pos_of_ne_zero fun h => hv (f32In_zero h)

theorem fexp2_small (hfin : f32In l a % 2 ^ 31 < 0x7F800000) (hv : f32Of (f32In l a) < -149) : fexp2Bits l a = 0 := by
  have h0 := operand_ne_zero (l := l) (a := a) (by linarith only [hv])
  rw [fexp2Bits_finite h0 hfin, exp2Finite_small (fracOf_spec _ _).1 (exp2_operand hfin) hv]

theorem fexp2_integer (hfin : f32In l a % 2 ^ 31 < 0x7F800000) {i : ℤ} (hv : f32Of (f32In l a) = i) (hlo : -149 ≤ i)
    (hhi : i ≤ 127) :
    fexp2Bits l a = powerBits (fzrs l) i := by
  rcases Nat.eq_zero_or_pos (f32In l a % 2 ^ 31) with h0 | h0
  · rw [f32In_zero h0] at hv
    obtain rfl : i = 0 := by exact_mod_cast hv.symm
    rw [(rows_zero h0).2.2.1]
    rfl
  · rw [fexp2Bits_finite h0 hfin, exp2Finite_integer (fracOf_spec _ _).1 (exp2_operand hfin) hv hlo hhi]

theorem subnormal_lt {m : Nat} (h : m < 2 ^ 23) : mag m < 2 ^ (-126 : ℤ) := by
  have := mag_strictMono (show m < 1 * 2 ^ 23 by omega)
  rwa [mag_power 1 le_rfl] at this

theorem fexp2_subnormal (h : f32In l a % 2 ^ 31 < 2 ^ 23) : fexp2Bits l a = 0x3F800000 := by
  rcases Nat.eq_zero_or_pos (f32In l a % 2 ^ 31) with h0 | h0
  · exact (rows_zero h0).2.2.1
  have hfin : f32In l a % 2 ^ 31 < 0x7F800000 := h.trans (by norm_num)
  have habs : |f32Of (f32In l a)| < 1 := by
    rw [abs_f32Of hfin]
    exact (subnormal_lt h).trans (by norm_num)
  obtain ⟨h1, h2⟩ := abs_lt.1 habs
  have hint : ∀ i : ℤ, f32Of (f32In l a) ≠ i := fun i hi => by
    rw [hi] at h1 h2
    have hi0 : i = 0 := by
      have h1 : -1 < i := by exact_mod_cast h1
      have h2 : i < 1 := by exact_mod_cast h2
      omega
    have := abs_f32Of hfin
    rw [hi, hi0, Int.cast_zero, abs_zero] at this
    exact (mag_pos h0).ne this
  have hsub : f32.isSub (f32In l a) = true := (isSub_iff _).2 ⟨h0.ne', h⟩
  rw [fexp2Bits_finite h0 hfin, exp2Finite_other (fracOf_spec _ _).1 (exp2_operand hfin) (by linarith only [h1])
    (by linarith only [h2]) hint,
    if_pos hsub]
  rfl

/-- The largest value below 128. -/
theorem f32In_below (hfin : f32In l a % 2 ^ 31 < 0x7F800000) (hv : f32Of (f32In l a) < 128) :
    f32Of (f32In l a) ≤ 128 - 2 ^ (-17 : ℤ) := by
  rcases le_or_gt (f32Of (f32In l a)) 0 with hneg | hpos
  · exact hneg.trans (by norm_num)
  · obtain ⟨-, -, hmag⟩ := f32In_pos hfin hpos
    have h128 : mag (134 * 2 ^ 23) = 128 := by rw [mag_power 134 (by norm_num)]; norm_num
    rw [hmag, ← h128] at hv
    have hm := mag_strictMono.lt_iff_lt.1 hv
    rw [hmag]
    refine (mag_strictMono.monotone (show _ ≤ 134 * 2 ^ 23 - 1 by omega)).trans ?_
    norm_num [mag, sigOf, expOf]

theorem fexp2_bounds (h0 : 0 < f32In l a % 2 ^ 31) (hfin : f32In l a % 2 ^ 31 < 0x7F800000) (hlo : -149 ≤ f32Of (f32In l a))
    (hhi : f32Of (f32In l a) < 128) : ExpBounds (fzrs l) (f32Of (f32In l a)) (fexp2Bits l a) := by
  by_cases hint : ∃ i : ℤ, f32Of (f32In l a) = i
  · obtain ⟨i, hi⟩ := hint
    rw [hi] at hlo hhi
    have hlo : -149 ≤ i := by exact_mod_cast hlo
    have hhi : i < 128 := by exact_mod_cast hhi
    rw [fexp2_integer hfin hi hlo (by omega), hi]
    exact expBounds_power _ hlo (by omega)
  · rw [fexp2Bits_finite h0 hfin]
    refine exp2Finite_bounds (fracOf_spec _ _).1 (exp2_operand hfin) hlo (f32In_below hfin hhi) (fun i hi => hint ⟨i,
      hi⟩) fun hsub => ?_
    rw [abs_f32Of hfin]
    exact subnormal_lt ((isSub_iff _).1 hsub).2

/-- The rows of R110. -/
theorem approxRows (l : Lane) (a : Word) :
    ApproxRows l a (f32In l a) (f32In l a / 2 ^ 31 * 2 ^ 31) (f32In l a % 2 ^ 31) (f32Of (f32In l a)) where
  nan := rows_nan
  zero := rows_zero
  posInf := rows_posInf
  negInf := rows_negInf
  negative h0 hfin hs := ⟨frsqaBits_negative h0 hfin (negOf_of_sign_ne hs), flog2Bits_negative h0 hfin (negOf_of_sign_ne hs),
    frcpaBits_negative h0 hfin hs⟩
  powers n hn hn' hm := by
    have h0 : 0 < f32In l a % 2 ^ 31 := by omega
    have hfin : f32In l a % 2 ^ 31 < 0x7F800000 := by omega
    have hlog : f32In l a / 2 ^ 31 * 2 ^ 31 = 0 → flog2Bits l a = powerLog ((n : ℤ) - 127) := fun hs =>
      flog2Bits_power h0 hfin (negOf_of_sign hs) (by rw [hm, powerOf_normal n hn]) (by omega) (by omega)
    obtain ⟨hf, hval⟩ := powerLog_spec (k := (n : ℤ) - 127) (by omega) (by omega)
    refine ⟨by rw [frcpaBits_finite h0 hfin, hm, rcpaVal_power _ _ hn hn'], fun hs hodd => ?_, fun hs => ?_,
      fun hs h127 => ?_⟩
    · rw [frsqaBits_finite h0 hfin (negOf_of_sign hs), hm, rsqaVal_power _ _ hn hn' hodd]
    · rw [hlog hs]
      exact ⟨hf, hval.trans (by push_cast; rfl)⟩
    · rw [hlog hs, h127]
      exact powerLog_zero
  expLarge := fexp2_large
  expSmall := fexp2_small
  expInteger hfin i hv hlo hhi := fexp2_integer hfin hv hlo hhi
  expSubnormal := fexp2_subnormal
  rcpOverflow h0 hfin hx := by
    rw [abs_div, abs_one, abs_f32Of hfin, f32Of_eq_mag (by norm_num), mag_maxFin] at hx
    rw [frcpaBits_finite h0 hfin, (rcpaVal_spec h0 hfin _ _).overflow hx]

section bounds
variable (h0 : 0 < f32In l a % 2 ^ 31) (hfin : f32In l a % 2 ^ 31 < 0x7F800000)
include h0 hfin

/-- The value of the reciprocal, with the operand's sign. -/
theorem frcpa_value (hmax : 1 / mag (f32In l a % 2 ^ 31) ≤ maxFin) :
    ∃ r, Reciprocal (fzrs l) (f32In l a % 2 ^ 31) r ∧ frcpaBits l a = f32In l a / 2 ^ 31 * 2 ^ 31 + r ∧ r < 0x7F800000 ∧
      f32Of (frcpaBits l a) = (if negOf (f32In l a) then -1 else 1) * mag r := by
  have h := rcpaVal_spec h0 hfin (fzrs l) (f32In l a % 2 ^ 31)
  refine ⟨_, h, frcpaBits_finite h0 hfin, h.finite hmax, ?_⟩
  rw [frcpaBits_finite h0 hfin, ← sign_eq]
  exact (f32Of_signed_mag _ (h.finite hmax)).2

/-- The bounds of R109. -/
theorem approxBounds : ApproxBounds l a (f32In l a / 2 ^ 31 * 2 ^ 31) (f32Of (f32In l a)) where
  rcp hmax := by
    have hinv : |1 / f32Of (f32In l a)| = 1 / mag (f32In l a % 2 ^ 31) := by rw [abs_div, abs_one, abs_f32Of hfin]
    rw [hinv, f32Of_eq_mag (by norm_num), mag_maxFin] at hmax
    obtain ⟨r, h, hbits, hr, hval⟩ := frcpa_value h0 hfin hmax
    have hv := f32In_value (l := l) (a := a) hfin
    have hsq : (if negOf (f32In l a) then -1 else 1 : ℚ) * (if negOf (f32In l a) then -1 else 1) = 1 := by split <;> norm_num
    have habs : |(if negOf (f32In l a) then -1 else 1 : ℚ)| = 1 := by split <;> norm_num
    rw [hinv]
    refine ⟨(f32Fin_iff _).2 (by rw [hbits]; omega), fun hn => ?_, fun hs hf => ?_, fun hs hf => ?_⟩
    · rw [hval, hv, mul_mul_mul_comm, hsq, one_mul]
      exact h.near hn hmax
    · rw [hbits, h.flush hs hf, Nat.add_zero]
    · have hdiv : 1 / f32Of (f32In l a) = (if negOf (f32In l a) then -1 else 1) * (1 / mag (f32In l a % 2 ^ 31)) := by
        rw [hv]
        split <;> field_simp
      rw [hval, hdiv, ← mul_sub, abs_mul, habs, one_mul]
      exact h.small hs hf
  rsq hv := by
    obtain ⟨-, hs, hmag⟩ := f32In_pos hfin hv
    obtain ⟨hlt, hnormal, hge, hle⟩ := rsqaVal_spec h0 hfin (fzrs l) (f32In l a)
    rw [frsqaBits_finite h0 hfin hs, hmag, f32Of_eq_mag hlt]
    exact ⟨(f32Fin_iff _).2 (by omega), mag_pos (by omega), hge, hle⟩
  exp2 hlo hhi := fexp2_bounds h0 hfin hlo hhi
  log2 hv := by
    obtain ⟨-, hs, hmag⟩ := f32In_pos hfin hv
    rw [hmag]
    exact flog2Bits_bounds h0 hfin hs
end bounds
end

end Sys2Proof.Numbers
end

section
/-! PROOFS. The flags of the task (R33), and O4. -/

namespace Sys2Proof.Numbers

open Sys2Proof Sys2Proof.Machine Sys2Proof.Claims

-- The saturation flags of a task are set by OR (R33).
theorem task_setFlags (s : State) (k n : Nat) (f : Flags) : (s.setFlags k f).task n =
    if n = s.taskNo k then (s.task n).map (fun x => { x with sati := x.sati || f.sati, satf :=
      x.satf || f.satf }) else s.task n := by
  have hlane : ∀ (u : State) g, (u.modLane k g).task n = u.task n := fun u g => by
    unfold State.modLane
    split <;> rfl
  have hflags : (if f.sati || f.satf then
      s.modTask (s.taskNo k) (fun t => { t with sati := t.sati || f.sati, satf := t.satf || f.satf }) else s).task n =
      if n = s.taskNo k then (s.task n).map (fun x => { x with sati := x.sati || f.sati, satf := x.satf || f.satf })
      else s.task n := by
    split
    next =>
      simp only [State.task, State.modTask, mget_mmod]
      split
      next hn => rw [hn]
      next => rfl
    next hnone =>
      obtain ⟨hi, hf⟩ : f.sati = false ∧ f.satf = false := by simpa using hnone
      simp [hi, hf]
  unfold State.setFlags
  dsimp only
  split
  · rw [hlane, hflags]
  · exact hflags

theorem begun_setFlags {s : State} (h : Begun s) (k : Nat) (f : Flags) : Begun (s.setFlags k f) := by
  have hlane : ∀ (u : State) g, Begun u → Begun (u.modLane k g) := fun u g hu => by
    unfold State.modLane
    split
    · exact ⟨hu.bad, hu.late⟩
    · exact hu
  have hflags : Begun (if f.sati || f.satf then
      s.modTask (s.taskNo k) (fun t => { t with sati := t.sati || f.sati, satf := t.satf || f.satf }) else s) := by
    split
    · exact ⟨h.bad, h.late⟩
    · exact h
  unfold State.setFlags
  dsimp only
  split
  · exact hlane _ _ hflags
  · exact hflags

/-- What completes a lane leaves the tasks as the body left them. -/
theorem task_of_completes {s u t : State} {i : Instr} {k : Nat} {vals : List (Word × List Nat)} {pc : Option Word}
    (h : Completes s u t i k vals pc) (n : Nat) : t.task n = u.task n := by
  obtain ⟨m, d, j, -, rfl⟩ := h
  rfl

-- No float, conversion or quantization instruction traps.
theorem satPut_trap (t : ITy) (v : Int) : (satPut t v).trap = none := by unfold satPut; split <;> [rfl; split <;> rfl]
theorem cvtInt_trap (t : ITy) (rm : Rm) (x : Ex) : (cvtInt t rm x).trap = none := by
  cases x with
  | rat s n d e => exact satPut_trap ..
  | nan => rfl
  | inf s => rfl
  | zero s => rfl
theorem cvtPure_trap (src dst : CvtTy) (r : RCode) (l : Lane) (o : List Word) : (cvtPure src dst r l o).trap = none := by
  cases dst with
  | s32 => exact cvtInt_trap ..
  | n32 => exact cvtInt_trap ..
  | f32 => rfl
  | f16 => rfl
  | b16 => rfl

/-- Each instruction of the table `floatResult` computes on its operands and the lane's control state, and never traps. -/
theorem exec_float {i : Instr} {f : Lane → List Word → Pure} (hf : floatResult i = some f) :
    (∀ s, exec i s = finish (runPure i f s)) ∧ ∀ l o, (f l o).trap = none := by
  unfold floatResult at hf
  split at hf
  case h_28 => cases hf
  all_goals
    obtain rfl := Option.some.inj hf
    refine ⟨fun s => rfl, fun l o => ?_⟩
  case h_19 => exact cvtPure_trap ..
  case h_26 => exact satPut_trap ..
  case h_27 => exact satPut_trap ..
  all_goals rfl

theorem exec_float_flags {i : Instr} {f : Lane → List Word → Pure} {s : State} {k : Nat} {l : Lane}
    (hf : floatResult i = some f)
    (h : Alone s i k l) : ∃ t, exec i s = .next t ∧
      ∀ n, t.task n = (s.setFlags k (f l ((l.ops i).map (·.val))).flags).task n := by
  obtain ⟨hexec, htrap⟩ := exec_float hf
  have hl := h.ready.here
  have hlane := lane_setFlags s k k (f l ((l.ops i).map (·.val))).flags
  rw [if_pos rfl, hl, Option.map_some] at hlane
  have hgo : ∃ t, finish (runPure i f s) = .next t ∧ Completes s (s.setFlags k (f l ((l.ops i).map (·.val))).flags) t i k
      ((f l ((l.ops i).map (·.val))).push.map (fun v => (v, depsOf (l.ops i)))) none := by
    refine exec_of_go h ?_ (begun_setFlags h.sound k _) hlane
    rw [hl]
    dsimp only
    rw [htrap]
  obtain ⟨t, ht, hc⟩ := hgo
  exact ⟨t, by rw [hexec, ht], task_of_completes hc⟩

/-- Settles O4: the rows and bounds hold of each approximate function in turn, and a lane's flags are ORed into its task
before the lane completes, which changes no task. -/
theorem saturationSetsTaskFlags : Obligations.SaturationSetsTaskFlags := by
  refine ⟨?_, fun i f s k l hf h => ?_⟩
  · rintro l a x sg m v rfl rfl rfl rfl
    exact ⟨approxRows l a, fun h0 hfin => approxBounds h0 hfin⟩
  · obtain ⟨t, ht, htask⟩ := exec_float_flags hf h
    exact ⟨t, ht, fun n => by rw [htask, task_setFlags]⟩

end Sys2Proof.Numbers
end

section
/-! PROOFS. Backing store: reads of entries below the chip and the refill (R84 to R87), and stores that no link carries (R385). -/

namespace Sys2Proof.Backing

open Sys2Proof Sys2Proof.Machine Sys2Proof.Claims Sys2Proof.Numbers

variable {s : State} {k : Nat} {l : Lane}

/-- With no write to the range in the location order, there is one cut, and an entry reads as the bytes of memory (R87, R285). -/
theorem readEntry_uncontested (fl : Map Nat) (must : WriteRec → Bool) {a n : Nat} (h : Uncontested s a n) :
    (s.readEntry fl must a n).1.bytes = peeks s.mem a n ∧ (s.readEntry fl must a n).2 = s := by
  have hlog : s.log.filter (fun w => decide (w.addr < a + n) && decide (a < w.addr + w.new.length)) = [] := by
    rw [List.filter_eq_nil_iff]
    intro w hw
    have := h w hw
    simp only [Bool.and_eq_true, decide_eq_true_eq]
    omega
  unfold State.readEntry
  simp only [hlog]
  refine ⟨?_, rfl⟩
  rw [← map_peek_range, List.map_map]
  rfl

/-- A lane reads one entry in backing store (R87): its word, and what the lane has seen. -/
theorem laneEntry_uncontested {a : Nat} (hl : s.lane k = some l) (he : keyExists a) (hu : Uncontested s a 8) :
    (s.laneEntry k a).1.bytes = peeks s.mem a 8 ∧ ∃ x, (s.laneEntry k a).2 = s.setLane k { l with seen := x } := by
  obtain ⟨hb, hs⟩ := readEntry_uncontested (s.floorOf k l []) (fun w => w.who / 32 == s.who k / 32) hu
  unfold State.laneEntry
  simp only [hl, touch_of_exists he]
  exact ⟨hb, _, by rw [hs, modLane_of _ hl]⟩

/-- The entry with bottom index i of a lane's stack, as it lies in backing store (R82, R291). -/
def entryBelow (s : State) (k : Nat) (l : Lane) (i : Nat) : Entry :=
  { val := BitVec.ofNat 64 (wordAt s (s.backKey k l i)), deps := mgetD l.under (l.posKey i) [] }

/-- A refill's read of the entry with bottom index i: the entries it has, and the state that the reads have left (R84). -/
def readBelow (k : Nat) (l : Lane) (a : List Entry × State) (i : Nat) : List Entry × State :=
  (a.1 ++ [{ val := BitVec.ofNat 64 (leNat (a.2.laneEntry k (a.2.backKey k l i)).1.bytes), deps := mgetD l.under (l.posKey i) [] }],
    (a.2.laneEntry k (a.2.backKey k l i)).2)

/-- Entries that are read one after the other come as they lie in backing store; the lane itself keeps its stack. -/
theorem foldl_readBelow (l : Lane) (is : List Nat) : ∀ (s : State) (m : Lane) (es : List Entry), s.lane k = some m →
    (∀ i, i ∈ is → keyExists (s.backKey k l i) ∧ Uncontested s (s.backKey k l i) 8) →
    ∃ x ls, is.foldl (readBelow k l) (es, s) = (es ++ is.map (entryBelow s k l), { s with lanes := ls }) ∧
      mget ls k = some { m with seen := x } := by
  induction is with
  | nil => exact fun s m es hm _ => ⟨m.seen, s.lanes, by simp, hm⟩
  | cons i r ih =>
    intro s m es hm h
    obtain ⟨he, hu⟩ := h i (by simp)
    obtain ⟨hb, y, hs⟩ := laneEntry_uncontested hm he hu
    have hstep : readBelow k l (es, s) i = (es ++ [entryBelow s k l i], s.setLane k { m with seen := y }) := by
      simp only [readBelow, hb, hs]
      rfl
    obtain ⟨x, ls, hf, hx⟩ := ih (s.setLane k { m with seen := y }) _
      (es ++ [entryBelow s k l i]) (lane_setLane_self ..) (fun j hj => h j (by simp [hj]))
    refine ⟨x, ls, ?_, hx⟩
    rw [List.foldl_cons, hstep, List.map_cons, List.append_cons _ _ (r.map _)]
    exact hf

theorem stallMore_frame (s : State) (w : Nat) : ∃ ws n, s.stallMore w = { s with waves := ws, free := n } := ⟨_, _, rfl⟩

/-- The bottom indices that a refill reads, highest first (R84). -/
def refillIndices (g : Nat) : List Nat := (List.range (Nat.min 4 g)).map (fun j => g - 1 - j)

theorem mem_refillIndices {g i : Nat} (hg : 0 < g) (h : i ∈ refillIndices g) : i < g ∧ g ≤ i + 4 := by
  obtain ⟨j, hj, rfl⟩ := List.mem_map.1 h
  have hj4 := Nat.lt_of_lt_of_le (List.mem_range.1 hj) (Nat.min_le_left 4 g)
  omega

/-- A lane that must refill, and meets neither poison nor an error, takes what it reads below its stack (R84, R87). -/
theorem refillLane_of_wants (hl : s.lane k = some l) (hw : l.wantsRefill = true)
    (hc : ∀ i, i ∈ refillIndices l.back → s.backCause k l i = none) :
    refillLane s k = ((refillIndices l.back).foldl (readBelow k l) ([], s)).2.modLane k (fun x =>
      x.setStk (x.stk ++ ((refillIndices l.back).foldl (readBelow k l) ([], s)).1) (x.back - Nat.min 4 l.back)) := by
  have hgo : (decide (4 ≤ l.stk.length) || decide (l.back = 0) || l.integ.isSome) = false := by
    simpa [Lane.wantsRefill, and_assoc] using hw
  have hcause : ((List.range (Nat.min 4 l.back)).map (fun j => l.back - 1 - j)).findSome? (s.backCause k l) = none :=
    List.findSome?_eq_none_iff.2 hc
  unfold refillLane
  simp only [hl, hgo, hcause, Bool.false_eq_true, if_false]
  rfl

/-- A refill of one lane brings the entries with the highest bottom indices, at most 4, back below those on chip (R84). -/
theorem refillLane_brings (hl : s.lane k = some l) (hw : l.wantsRefill = true) (h : ∀ i, i ∈ refillIndices l.back →
      keyExists (s.backKey k l i) ∧ s.backCause k l i = none ∧ Uncontested s (s.backKey k l i) 8) :
    ∃ x, refillLane s k = { s with lanes := (refillLane s k).lanes } ∧
      (refillLane s k).lane k = some (({ l with seen := x } : Lane).setStk
        (l.stk ++ (refillIndices l.back).map (entryBelow s k l)) (l.back - Nat.min 4 l.back)) := by
  obtain ⟨x, ls, hf, hx⟩ := foldl_readBelow (k := k) l (refillIndices l.back) s l [] hl
    (fun i hi => ⟨(h i hi).1, (h i hi).2.2⟩)
  rw [refillLane_of_wants hl hw (fun i hi => (h i hi).2.1), hf, modLane_of _ (show ({ s with lanes := ls } : State).lane k = _ from hx)]
  exact ⟨x, rfl, lane_setLane_self ..⟩

/-- Settles O33: the wave's one lane is refilled, and the stall that follows changes neither lanes nor memory. -/
theorem refillCompletes : Obligations.RefillCompletes := by
  intro slice place k s l hbad hwave hl _ hlen hback hinteg h
  have hwants : l.wantsRefill = true := by
    simp [Lane.wantsRefill, hlen, hinteg]; omega
  obtain ⟨x, hrefill, hx⟩ := refillLane_brings hl hwants fun i hi =>
    h i (mem_refillIndices hback hi).1 (mem_refillIndices hback hi).2
  obtain ⟨ws, n, hstall⟩ := stallMore_frame (refillLane s k) (placeKey slice place)
  have hexec : execRefill slice place s = finish ((refillLane s k).stallMore (placeKey slice place)) := by
    simp [execRefill, hwave, hwants]
  refine ⟨{ s with lanes := (refillLane s k).lanes, waves := ws, free := n }, _, ?_, hx, ?_, setStk_back .., ?_, rfl⟩
  · rw [exec_refill, hexec, hstall, hrefill]
    exact finish_of_sound hbad
  · rw [setStk_stk, refillIndices, List.map_map]
    rfl
  · rw [rest_pc (setStk_rest ..)]

-- Stores over no link (R385).
/-- What `bury` does with an entry that is not on chip: a deep write, whose lane keeps the value, and a stall of 4 cycles (R85, R86). -/
theorem setPos_below {p : Nat} (hl : s.lane k = some l) (hp : l.stk.length ≤ p) (c : Nat) (v : Word) (deps : List Nat) :
    s.setPos k p c v deps = ((s.storeDeep k l (l.depth - 1 - p) v deps).modLane k
      (fun x => notePast x (l.posKey (l.depth - 1 - p)) v deps)).stallWave (waveOf k) 4 := by
  unfold State.setPos
  simp only [hl]
  rw [if_neg (by omega)]

/-- A deep write over no link leaves its entry of backing store as it was: the store is discarded (R385). -/
theorem storeDeep_of_cutOff {i : Nat} (hl : s.lane k = some l) (hc : s.cutOff (s.backKey k l i) = true) (v : Word) (deps : List Nat) :
    s.storeDeep k l i v deps = s.setLane k { l with under := msetD l.under (l.posKey i) deps [] } := by
  unfold State.storeDeep
  simp only [hc, if_true]
  exact modLane_of _ hl

/-- A `bury` below the chip completes over no link too, and memory is as before (R85, R385). -/
theorem bury_of_cutOff {w : StallS} {n : BitVec 6} {v : Entry} (h : Alone s (.bury w n) k l) (hv : l.stk.head? = some v)
    (hn : l.stk.length ≤ n.toNat + 1) (hc : s.cutOff (s.backKey k l (l.depth - 2 - n.toNat)) = true) :
    ∃ t, exec (.bury w n) s = .next t ∧ t.mem = s.mem := by
  have hops : l.ops (.bury w n) = [v] := by
    show [l.stk.getD 0 {}] = [v]
    rw [List.getD_eq_getElem?_getD, ← List.head?_eq_getElem?, hv, Option.getD_some]
  rw [show l.depth - 2 - n.toNat = l.depth - 1 - (n.toNat + 1) by omega] at hc
  have hset := setPos_below h.here hn s.issueCycle v.val v.deps
  rw [storeDeep_of_cutOff h.here hc, modLane_of _ (lane_setLane_self ..)] at hset
  obtain ⟨t, ht, hdone⟩ : ∃ t, exec (.bury w n) s = .next t ∧
      Completes s (s.setPos k (n.toNat + 1) s.issueCycle v.val v.deps) t (.bury w n) k [] none :=
    exec_of_go h (by rw [hops]) (by rw [hset]; exact ⟨h.sound.bad, h.sound.late⟩) (by rw [hset]; exact lane_setLane_self ..)
  exact ⟨t, ht, by rw [completes_mem hdone, hset]; rfl⟩

/-- A task whose stack backing lies on device 1, in an extent that serves its writes (R82, R193). -/
def remoteTask : Task := { fetchTask with extents := [{ page := 1, w := true, frames := [remoteKey 1 0] }] }
/-- 7 on chip, and one entry below it. -/
def remoteLane : Lane := { thx := 0, pc := 0x100, chip := [{ val := 7 }], g := 1 }
/-- The lane is about to issue, and all 18 links are down. -/
def remoteState : State :=
  { State.reset with
    lanes := [(0, remoteLane)], waves := [(0, { uid := 1, task := 0, num := 0, sb := 0, nlb := 1 })], tasks := [(0, remoteTask)]
    linksDown := (List.range 18).map (fun j => (j, ())), iss := { lanes := [0] } }

theorem remoteState_alone : Alone remoteState (.bury 0 0) 0 remoteLane where
  sound := ⟨rfl, rfl⟩
  only := rfl
  ready :=
    { here := rfl
      unmet := by decide
      pass := by decide
      onChip := by
        intro p hp
        obtain rfl : p = 0 := by simpa [shapeOf, shS] using hp
        exact ⟨_, rfl, fun h => absurd h.2.2 (Nat.not_lt_zero _)⟩
      fits := by decide }

/-- Refutes O35: with the stack backing on a device that no link reaches, `bury` discards its store (R385), and the entry below
the chip does not read as 7. The statement lacks the premise that a link reaches the entry. -/
theorem not_backingStoreInstructionsComplete : ¬ Obligations.BackingStoreInstructionsComplete := by
  intro h
  obtain ⟨_, hbelow, _⟩ := h 0 0 remoteState 0 remoteLane
  obtain ⟨t, ht, _, hstored⟩ := hbelow { val := 7 } (remoteKey 1 0) remoteState_alone rfl (by decide) (by decide) (.inr (by decide))
  obtain ⟨u, hu, hmem⟩ := bury_of_cutOff remoteState_alone rfl (by decide) (by decide)
  obtain rfl : t = u := by simpa using ht.symm.trans hu
  rw [hmem] at hstored
  exact absurd hstored (by decide)

end Sys2Proof.Backing
end

section
/-! PROOFS. Float, conversion, quantization and saturating instructions in a strand (R33, R98, R103 to R115). -/

namespace Sys2Proof.Numbers

open Sys2Proof Sys2Proof.Machine Sys2Proof.Claims

-- None of them divides: DZ is left as it is (R99).
theorem satPut_dz (t : ITy) (v : Int) : (satPut t v).flags.dz = false := by
  unfold satPut; split <;> [rfl; split <;> rfl]
theorem cvtInt_dz (t : ITy) (rm : Rm) (x : Ex) : (cvtInt t rm x).flags.dz = false := by
  cases x with
  | rat s n d e => exact satPut_dz ..
  | nan => rfl
  | inf s => rfl
  | zero s => rfl
theorem cvtPure_dz (src dst : CvtTy) (r : RCode) (l : Lane) (o : List Word) : (cvtPure src dst r l o).flags.dz = false := by
  cases dst with
  | s32 => exact cvtInt_dz ..
  | n32 => exact cvtInt_dz ..
  | f32 => rfl
  | f16 => rfl
  | b16 => rfl

theorem floatResult_dz {i : Instr} {f : Lane → List Word → Pure} (hf : floatResult i = some f) (l : Lane) (o : List Word) :
    (f l o).flags.dz = false := by
  unfold floatResult at hf
  split at hf
  case h_28 => cases hf
  all_goals obtain rfl := Option.some.inj hf
  case h_19 => exact cvtPure_dz ..
  case h_26 => exact satPut_dz ..
  case h_27 => exact satPut_dz ..
  all_goals rfl

theorem flagged_of_dz_false {f : Flags} (h : f.dz = false) (l : Lane) : l.flagged f = l := by simp [Lane.flagged, h]

/-- Settles O3: each instruction of the table computes on its operands and the lane's control state, traps nowhere and
leaves DZ as it is; all that it may set are the saturation flags of the task. -/
theorem floatInstructionsComplete : Obligations.FloatInstructionsComplete := by
  intro i f s hf hs
  obtain ⟨hexec, htrap⟩ := exec_float hf
  obtain ⟨t, hrun, halike, hdone, hothers, htasks⟩ := exec_runPure f s i hs (fun _ _ _ _ => htrap _ _)
  refine ⟨t, (hexec s).trans hrun, halike, hothers, fun k hk l hl => ?_, fun hnone => htasks fun k hk l hl => ?_⟩
  · obtain ⟨d, hd⟩ := hdone k hk l hl
    exact ⟨d, by simpa only [flagged_of_dz_false (floatResult_dz hf _ _)] using hd⟩
  · rw [hnone k hk l hl]
    exact ⟨rfl, rfl⟩

end Sys2Proof.Numbers
end

section
/-! PROOFS. Division and remainder (R99): the results on bit patterns, DZ, and the trap of DZT. -/

namespace Sys2Proof.Numbers

open Sys2Proof Sys2Proof.Machine Sys2Proof.Claims

-- Results.
theorem numOf_eq_zero {sg : Bool} {w : Nat} {b : BitVec w} : numOf sg b = 0 ↔ b = 0 := by
  rw [← numOf_inj (sg := sg), show numOf sg (0 : BitVec w) = 0 by cases sg <;> simp [numOf]]

theorem ofInt_tdiv_numOf (sg : Bool) {w : Nat} (x y : BitVec w) :
    BitVec.ofInt w ((numOf sg x).tdiv (numOf sg y)) = if sg then x.sdiv y else x / y := by
  cases sg with
  | true => exact BitVec.eq_of_toInt_eq (by simp [numOf, BitVec.toInt_sdiv])
  | false =>
    calc BitVec.ofInt w ((x.toNat : Int).tdiv y.toNat)
      _ = BitVec.ofInt w ((x.toNat / y.toNat : Nat) : Int) := by rw [Int.ofNat_tdiv]
      _ = x / y := by rw [BitVec.ofInt_natCast, BitVec.udiv_def]

theorem ofInt_tmod_numOf (sg : Bool) {w : Nat} (x y : BitVec w) :
    BitVec.ofInt w ((numOf sg x).tmod (numOf sg y)) = if sg then x.srem y else x % y := by
  cases sg with
  | true => rw [if_pos rfl, ← BitVec.ofInt_toInt (x := x.srem y), BitVec.toInt_srem]; rfl
  | false =>
    calc BitVec.ofInt w ((x.toNat : Int).tmod y.toNat)
      _ = BitVec.ofInt w ((x.toNat % y.toNat : Nat) : Int) := by rw [Int.ofNat_tmod]
      _ = x % y := by rw [BitVec.ofInt_natCast, BitVec.umod_def]

/-- The most negative number is its own negation, reduced to the type: so the quotient of the row of R99 that wraps is the
one that truncation gives. -/
theorem ofInt_tyMin_neg {t : ITy} (h : t.signed = true) :
    BitVec.ofInt (tyBits t) (tyMin t) = BitVec.ofInt (tyBits t) (-tyMin t) := by
  cases t with
  | s32 => rfl
  | s64 => rfl
  | n32 => cases h
  | n64 => cases h

theorem divRem_zero (t : ITy) (a : Int) : divRem t a 0 = (-1, a) := rfl

theorem ofInt_divRem_fst (t : ITy) (a : Int) {b : Int} (hb : b ≠ 0) :
    BitVec.ofInt (tyBits t) (divRem t a b).1 = BitVec.ofInt (tyBits t) (a.tdiv b) := by
  unfold divRem
  rw [if_neg hb]
  split
  next hwrap =>
    obtain ⟨⟨hsigned, rfl⟩, rfl⟩ : (t.signed = true ∧ a = tyMin t) ∧ b = -1 := by simpa using hwrap
    rw [Int.tdiv_neg, Int.tdiv_one, ofInt_tyMin_neg hsigned]
  next => rfl

theorem divRem_snd (t : ITy) (a : Int) {b : Int} (hb : b ≠ 0) : (divRem t a b).2 = a.tmod b := by
  unfold divRem
  rw [if_neg hb]
  split
  next hwrap =>
    obtain ⟨-, rfl⟩ : (t.signed = true ∧ a = tyMin t) ∧ b = -1 := by simpa using hwrap
    rw [Int.tmod_neg, Int.tmod_one]
  next => rfl

theorem quotient_value (t : ITy) (a b : Word) : tyPut t (divRem t (tyVal t a) (tyVal t b)).1 = quotient t a b := by
  refine tyPut_val t (fun x y => (divRem t x y).1) _ a b (fun x y => ?_)
  split
  next hy => rw [numOf_eq_zero.2 hy, divRem_zero, ← BitVec.neg_one_eq_allOnes, BitVec.ofInt_neg]; rfl
  next hy => rw [ofInt_divRem_fst t _ (mt numOf_eq_zero.1 hy), ofInt_tdiv_numOf]

theorem remainder_value (t : ITy) (a b : Word) : tyPut t (divRem t (tyVal t a) (tyVal t b)).2 = remainder t a b := by
  refine tyPut_val t (fun x y => (divRem t x y).2) _ a b (fun x y => ?_)
  split
  next hy => rw [numOf_eq_zero.2 hy, divRem_zero, ofInt_numOf]
  next hy => rw [divRem_snd t _ (mt numOf_eq_zero.1 hy), ofInt_tmod_numOf]

-- What a division comes to in a lane.
theorem ofType_eq_zero (t : ITy) (b : Word) : ofType t b = 0 ↔ tyVal t b = 0 := by
  have hz : ofType t 0 = 0 ∧ tyVal t 0 = 0 := by cases t <;> decide
  rw [← hz.1, ofType_inj, hz.2]

/-- Each instruction of the table `divResult` is one part of `divRem`, with the type and opcode of its detail. -/
theorem exec_of_divResult {i : Instr} {t : ITy} {f : Word → Word → Word} (hf : divResult i = some (t, f)) :
    ∃ p : Int × Int → Int, (∀ s, exec i s = finish (runPure i (divPure t (divOpcode i) p) s)) ∧
      ∀ a b, tyPut t (p (divRem t (tyVal t a) (tyVal t b))) = f a b := by
  unfold divResult at hf
  split at hf
  case h_1 => cases hf; exact ⟨(·.1), fun _ => rfl, quotient_value t⟩
  case h_2 => cases hf; exact ⟨(·.2), fun _ => rfl, remainder_value t⟩
  case h_3 => cases hf

theorem divPure_of_completes {t : ITy} {n : Nat} {p : Int × Int → Int} {l : Lane} {o : List Word}
    (h : ofType t (op0 o) = 0 → l.ts.dzt = false) : divPure t n p l o =
      { push := [tyPut t (p (divRem t (tyVal t (op1 o)) (tyVal t (op0 o))))],
        flags := { dz := decide (ofType t (op0 o) = 0) } } := by
  simp only [ofType_eq_zero] at h ⊢
  have hgo : (decide (tyVal t (op0 o) = 0) && l.ts.dzt) = false := by simpa using h
  simp [divPure, hgo]

theorem divPure_of_traps {t : ITy} {n : Nat} {p : Int × Int → Int} {l : Lane} {o : List Word}
    (h0 : ofType t (op0 o) = 0) (hdzt : l.ts.dzt = true) : divPure t n p l o =
      { push := [], flags := { dz := true }, trap := some (divCause t n (op1 o)) } := by
  simp [divPure, (ofType_eq_zero t _).1 h0, hdzt]

theorem setFlags_iss (s : State) (k : Nat) (f : Flags) : (s.setFlags k f).iss = s.iss := by
  unfold State.setFlags
  dsimp only
  split
  · rw [State.modLane_iss]; split <;> rfl
  · split <;> rfl

/-- A lane alone whose values trap: its flags are set before the trap is taken. -/
theorem exec_runPure_trap {f : Lane → List Word → Pure} {s : State} {i : Instr} {k : Nat} {l : Lane} {c : Cause}
    (h : Alone s i k l) (hc : (f l ((l.ops i).map (·.val))).trap = some c) :
    finish (runPure i f s) = finish ((s.setFlags k (f l ((l.ops i).map (·.val))).flags).takeTrap k i c).bump := by
  refine exec_of_trap h ?_ ?_
  · rw [h.here]
    dsimp only
    rw [hc]
  · exact setFlags_iss ..

theorem setFlags_dz (s : State) (k : Nat) :
    s.setFlags k { dz := true } = s.modLane k (fun l => { l with ts := { l.ts with dz := true } }) := rfl

-- The detail of DIVZERO (R99).
theorem divCause_w0 (t : ITy) (n : Nat) (a : Word) : (divCause t n a).w0 = BitVec.ofNat 32 (t.code * 65536 + n * 256 + 2) := rfl
theorem divCause_w1 (t : ITy) (n : Nat) (a : Word) : (divCause t n a).w1 = a.setWidth 32 := BitVec.ofNat_toNat ..
/-- The second detail word of DIVZERO holds the upper half of a dividend of 64 bits (R99). -/
theorem divCause_w2 (t : ITy) (n : Nat) (a : Word) :
    (divCause t n a).w2 = if t = .s64 ∨ t = .n64 then (a >>> 32).setWidth 32 else 0 := by
  have hhigh : BitVec.ofNat 32 (a.toNat / 2 ^ 32) = (a >>> 32).setWidth 32 :=
    BitVec.eq_of_toNat_eq (by simp [Nat.shiftRight_eq_div_pow])
  cases t with
  | s32 => rfl
  | n32 => rfl
  | s64 => exact hhigh
  | n64 => exact hhigh

/-- A strand in which no zero divisor meets DZT completes a division in every lane. -/
theorem exec_div_completes {i : Instr} {t : ITy} {f : Word → Word → Word} {s : State} (hf : divResult i = some (t, f))
    (hs : ReadyStrand s i)
    (hdzt : ∀ k, k ∈ s.active → ∀ l, s.lane k = some l → ofType t (l.operand i 0) = 0 → l.ts.dzt = false) :
    ∃ u, exec i s = .next u ∧ Alike s u ∧ u.tasks = s.tasks ∧ OthersSame s u ∧
      EachDone s u i (fun _ l => l.flagged { dz := decide (ofType t (l.operand i 0) = 0) })
        (fun _ l => [(f (l.operand i 1) (l.operand i 0), depsOf (l.ops i))]) (fun _ _ => none) := by
  obtain ⟨p, hexec, hval⟩ := exec_of_divResult hf
  have hpure : ∀ k, k ∈ s.active → ∀ l, s.lane k = some l → divPure t (divOpcode i) p l ((l.ops i).map (·.val)) =
      { push := [f (l.operand i 1) (l.operand i 0)], flags := { dz := decide (ofType t (l.operand i 0) = 0) } } :=
    fun k hk l hl => by rw [divPure_of_completes (hdzt k hk l hl), hval]; rfl
  obtain ⟨u, hrun, halike, hdone, hothers, htasks⟩ := exec_runPure (divPure t (divOpcode i) p) s i hs
    (fun k hk l hl => by rw [hpure k hk l hl])
  have hsame : u.tasks = s.tasks := htasks fun k hk l hl => by rw [hpure k hk l hl]; exact ⟨rfl, rfl⟩
  refine ⟨u, (hexec s).trans hrun, halike, hsame, hothers, fun k hk l hl => ?_⟩
  obtain ⟨d, hd⟩ := hdone k hk l hl
  exact ⟨d, by simpa only [hpure k hk l hl, List.map_cons, List.map_nil] using hd⟩

/-- A lane alone whose zero divisor meets DZT sets DZ, then traps with the detail of R99. -/
theorem exec_div_traps {i : Instr} {t : ITy} {f : Word → Word → Word} {s : State} {k : Nat} {l : Lane}
    (hf : divResult i = some (t, f)) (h : Alone s i k l) (h0 : ofType t (l.operand i 0) = 0) (hdzt : l.ts.dzt = true) :
    exec i s = finish ((s.modLane k (fun l => { l with ts := { l.ts with dz := true } })).takeTrap k i
      (divCause t (divOpcode i) (l.operand i 1))).bump := by
  obtain ⟨p, hexec, -⟩ := exec_of_divResult hf
  have hpure : divPure t (divOpcode i) p l ((l.ops i).map (·.val)) =
      { push := [], flags := { dz := true }, trap := some (divCause t (divOpcode i) (l.operand i 1)) } :=
    divPure_of_traps h0 hdzt
  have hrun := exec_runPure_trap h (congrArg Pure.trap hpure)
  rw [hpure, setFlags_dz] at hrun
  exact (hexec s).trans hrun

/-- Settles O5: a division is one part of `divRem`, which is the quotient or the remainder of the patterns; whether a lane
completes or traps is decided by its own divisor and DZT. -/
theorem divisionCompletes : Obligations.DivisionCompletes :=
  ⟨fun _ _ _ _ hf hs hdzt => exec_div_completes hf hs hdzt, fun _ _ _ _ _ _ hf h h0 hdzt =>
    ⟨_, exec_div_traps hf h h0 hdzt, rfl, rfl, divCause_w0 .., divCause_w1 .., divCause_w2 ..⟩⟩

end Sys2Proof.Numbers
end

section
/-! PROOFS. Slots (R122, R123, R351): what a slot load comes to, and the range check of every slot instruction. -/

namespace Sys2Proof.Slots

open Sys2Proof Sys2Proof.Machine Sys2Proof.Claims Sys2Proof.Numbers

variable {s : State} {i : Instr} {k n : Nat} {l : Lane}

-- The ends that a slot access comes to.
theorem slotLoad_of_range (opcode : Nat) (deps : List Nat) (h : 8 * s.nlb k ≤ n) :
    slotLoad opcode n deps s k = (s, .trap (slotCause opcode n (s.nlb k))) := if_pos h

theorem slotStore_of_range (opcode : Nat) (v : Word) (deps : List Nat) (h : 8 * s.nlb k ≤ n) :
    slotStore opcode n v deps s k = (s, .trap (slotCause opcode n (s.nlb k))) := if_pos h

/-- A slot with a parity error that persists (R351). -/
theorem slotLoad_of_parity (opcode : Nat) (deps : List Nat) (hn : n < 8 * s.nlb k)
    (hp : mget s.parity (softKey k n) ≠ none) : slotLoad opcode n deps s k = (s, .trap (softErr n)) := by
  have hsoft : s.softCause k n n = some (softErr n) := if_pos (Option.isSome_iff_ne_none.2 hp)
  simp only [slotLoad, if_neg (Nat.not_le.2 hn), hsoft]

/-- A slot that is sound, and whose value may be used: it is pushed, with what it and its index depend on (R291). -/
theorem slotLoad_of_sound (opcode : Nat) (deps : List Nat) (hn : n < 8 * s.nlb k) (hl : s.lane k = some l)
    (hp : mget s.parity (softKey k n) = none) (ha : s.arrived k l (s.slot k n)) :
    slotLoad opcode n deps s k = (s, .go [((s.slot k n).val, ((s.slot k n).deps ++ deps).dedup)]) := by
  have hsoft : s.softCause k n n = none := if_neg (by rw [hp]; exact Bool.false_ne_true)
  simp only [slotLoad, if_neg (Nat.not_le.2 hn), hsoft, hl, latch_of_arrived _ _ ha]

/-- `ldl` and `ldlx` load the slot that the statement names, with what their index depends on. -/
theorem exec_of_slotLoad (s : State) (k : Nat) (hi : isSlotLoad i = true) (hn : slotIndex i l = some n) :
    ∃ body, exec i s = finish (runEach i body s) ∧
      body s k (l.ops i) = slotLoad (slotOpcode i) n ((l.ops i).getD 0 {}).deps s k := by
  unfold isSlotLoad at hi
  split at hi
  case h_1 w m =>
    cases hn
    exact ⟨_, rfl, rfl⟩
  case h_2 w =>
    cases hn
    exact ⟨_, rfl, by rw [← ops_getD_val]; rfl⟩
  case h_3 => cases hi

/-- `stl` and `stlx` store to the slot that the statement names. -/
theorem exec_of_slotStore (s : State) (k : Nat) (hi : isSlotLoad i = false) (hn : slotIndex i l = some n) :
    ∃ body, exec i s = finish (runEach i body s) ∧
      body s k (l.ops i) = slotStore (slotOpcode i) n (slotValue i l).val (slotValue i l).deps s k := by
  unfold slotIndex at hn
  split at hn
  case h_2 w m =>
    cases hn
    exact ⟨_, rfl, rfl⟩
  case h_4 w =>
    cases hn
    exact ⟨_, rfl, by rw [← ops_getD_val]; rfl⟩
  case h_5 => cases hn
  all_goals cases hi

/-- Settles O7: the load's body decides, by the parity of the slot. -/
theorem slotLoadsComplete : Obligations.SlotLoadsComplete := by
  intro i s k l n hi hn h hlt
  obtain ⟨body, hexec, hbody⟩ := exec_of_slotLoad s k hi hn
  rw [hexec]
  constructor
  · intro hp ha
    exact exec_of_go h (hbody.trans (slotLoad_of_sound _ _ hlt h.here hp ha)) h.sound h.here
  · intro hp
    exact ⟨softErr n, exec_of_trap h (hbody.trans (slotLoad_of_parity _ _ hlt hp)) rfl, rfl, rfl, rfl⟩

/-- Settles O9: loads and stores make the same range check before anything else. -/
theorem slotRangeTraps : Obligations.SlotRangeTraps := by
  intro i s k l n hn h hle
  cases hi : isSlotLoad i with
  | true =>
    obtain ⟨body, hexec, hbody⟩ := exec_of_slotLoad s k hi hn
    rw [hexec]
    exact exec_of_trap h (hbody.trans (slotLoad_of_range _ _ hle)) rfl
  | false =>
    obtain ⟨body, hexec, hbody⟩ := exec_of_slotStore s k hi hn
    rw [hexec]
    exact exec_of_trap h (hbody.trans (slotStore_of_range _ _ _ hle)) rfl

end Sys2Proof.Slots
end

section
/-! PROOFS. Local blocks: `give`, `claim` and the grant of a claim that waits (R124, R125). -/

namespace Sys2Proof.Slots

open Sys2Proof Sys2Proof.Machine Sys2Proof.Claims Sys2Proof.Numbers

variable {s u : State} {k n w : Nat} {v : Wave}

theorem nlb_of (h : s.wave (waveOf k) = some v) : s.nlb k = v.nlb := by simp [State.nlb, h]
theorem taskNo_of (h : s.wave (waveOf k) = some v) : s.taskNo k = v.task := by simp [State.taskNo, h]

theorem wave_modWave (s : State) (w x : Nat) (f : Wave → Wave) :
    (s.modWave w f).wave x = if x = w then (s.wave w).map f else s.wave x := mget_mmod ..

theorem waveOf_div (k : Nat) : waveOf k / 48 = sliceOf k := Nat.div_div_eq_div_mul k 32 48

-- `give` (R124).
theorem giveBlocks_of (hv : s.wave w = some v) (n : Nat) :
    s.giveBlocks w n = (s.modSlice (w / 48) (fun x => { x with
      pools := mset x.pools v.task (s.poolOf v.task (w / 48) ++
        (List.range n).map (fun j => blockOf v (v.nlb - n + j))) })).setWave w
      { v with nlb := v.nlb - n, slots := v.slots.filter (fun p => p.1 / 256 < v.nlb - n)
               was := v.was.filter (fun p => p.1 / 256 < v.nlb - n) } := by
  have hjs : ((List.range n).map (· + (v.nlb - n))).map (blockOf v) =
      (List.range n).map (fun j => blockOf v (v.nlb - n + j)) := by
    rw [List.map_map]
    exact List.map_congr_left fun j _ => congrArg (blockOf v) (Nat.add_comm ..)
  simp only [State.giveBlocks, hv, hjs]
  rfl

/-- Settles O10: the command moves the blocks, and every lane goes on from there. -/
theorem giveCompletes : Obligations.GiveCompletes := by
  intro w n s e r v hs ha hv hn
  obtain ⟨l, hl⟩ := hs.ready e (by simp [ha])
  refine allComplete_of hs ha hl.here ?_ ⟨hs.sound.bad, hs.sound.late⟩ (lanes_of_same hs fun _ _ => rfl)
  simp only [nlb_of hv, Nat.not_lt.2 hn, if_false, giveBlocks_of hv]

-- The blocks of a claim (R124).
theorem chooseSlots_free (s : State) (b : Map Left) : ∃ m, (chooseSlots s b).2 = { s with free := m } := by
  induction b generalizing s with
  | nil => exact ⟨s.free, rfl⟩
  | cons p r ih =>
    obtain ⟨m, hm⟩ := choose_free s 2
    obtain ⟨m', hm'⟩ := ih (choose s 2).2
    exact ⟨m', by simp only [chooseSlots]; rw [hm', hm]⟩

/-- One wave has n more local blocks: what its slots show of them is the model's choice (R121). No other wave differs. -/
structure WaveGrows (w n : Nat) (s t : State) : Prop where
  grown : ∀ v, s.wave w = some v →
    ∃ v', t.wave w = some v' ∧ v' = { v with nlb := v.nlb + n, slots := v'.slots, was := v'.was }
  others : ∀ x, x ≠ w → t.wave x = s.wave x

theorem WaveGrows.trans {m : Nat} {t : State} (h : WaveGrows w m s u) (g : WaveGrows w n u t) :
    WaveGrows w (m + n) s t where
  grown := fun v hv => by
    obtain ⟨v', hv', he⟩ := h.grown v hv
    obtain ⟨v'', hv'', he'⟩ := g.grown v' hv'
    refine ⟨v'', hv'', ?_⟩
    rw [he', he, Nat.add_assoc]
  others := fun x hx => (g.others x hx).trans (h.others x hx)

theorem waveGrows_modWave {f : Wave → Wave} {q : Nat} (hf : ∀ v, f v = { v with
      nlb := v.nlb + 1, slots := (f v).slots, was := (f v).was }) :
    WaveGrows w 1 s (({ s with free := q } : State).modWave w f) where
  grown := fun v hv => by
    refine ⟨f v, ?_, hf v⟩
    rw [wave_modWave, if_pos rfl]
    exact congrArg (Option.map f) hv
  others := fun x hx => by rw [wave_modWave, if_neg hx]; rfl

/-- Blocks that enter a wave change that wave, and consume free choices. -/
theorem grantInto_spec (w : Nat) (p : Pool) (s : State) :
    WaveGrows w p.length s (grantInto w s p) ∧ ∃ ws m, grantInto w s p = { s with waves := ws, free := m } := by
  induction p generalizing s with
  | nil => exact ⟨⟨fun v hv => ⟨v, hv, rfl⟩, fun _ _ => rfl⟩, s.waves, s.free, rfl⟩
  | cons b r ih =>
    obtain ⟨q, hq⟩ := chooseSlots_free s b
    unfold grantInto
    simp only [hq]
    obtain ⟨hgrow, ws, m, hsame⟩ := ih _
    refine ⟨?_, ws, m, hsame⟩
    rw [List.length_cons, Nat.add_comm]
    exact (waveGrows_modWave fun _ => rfl).trans hgrow

/-- What the grant of a claim leaves: the pool's first n blocks are the wave's. -/
structure Served (tn w n : Nat) (s u : State) : Prop where
  same : u = { s with waves := u.waves, slices := u.slices, free := u.free }
  pool : u.poolOf tn (w / 48) = (s.poolOf tn (w / 48)).drop n
  grows : WaveGrows w n s u
  cycle : ∀ x, u.cycle x = s.cycle x

-- A slice whose pool was changed.
theorem poolOf_setPool (s : State) (tn x : Nat) (p : Pool) :
    (s.modSlice x (fun y => { y with pools := mset y.pools tn p })).poolOf tn x = p := by
  rw [State.poolOf, slice_modSlice, if_pos rfl, mgetD_mset_self]
theorem cycle_setPool (s : State) (tn x j : Nat) (p : Pool) :
    (s.modSlice x (fun y => { y with pools := mset y.pools tn p })).cycle j = s.cycle j := by
  rw [State.cycle, slice_modSlice]
  split
  · rename_i e; subst e; rfl
  · rfl

theorem grantClaim_served (tn w : Nat) (hn : n ≤ (s.poolOf tn (w / 48)).length) :
    Served tn w n s (s.grantClaim tn w n) := by
  obtain ⟨hgrow, ws, m, hsame⟩ := grantInto_spec w ((s.poolOf tn (w / 48)).take n)
    (s.modSlice (w / 48) (fun y => { y with pools := mset y.pools tn ((s.poolOf tn (w / 48)).drop n) }))
  rw [List.length_take_of_le hn] at hgrow
  unfold State.grantClaim
  simp only
  rw [hsame] at hgrow ⊢
  exact ⟨rfl, poolOf_setPool .., ⟨hgrow.grown, hgrow.others⟩, fun x => cycle_setPool ..⟩

/-- Settles O11: with nothing asked for before, the claim passes both tests, and its grant is all that it does. -/
theorem claimCompletes : Obligations.ClaimCompletes := by
  intro w n s e r v hs ha hv hfits hnone hnone' hpool
  obtain ⟨l, hl⟩ := hs.ready e (by simp [ha])
  rw [← waveOf_div] at hpool ⊢
  have hu := grantClaim_served v.task (waveOf e) hpool
  have hlanes : (s.grantClaim v.task (waveOf e) n.toNat).lanes = s.lanes := by rw [hu.same]
  have hbegun : Begun (s.grantClaim v.task (waveOf e) n.toNat) := by rw [hu.same]; exact ⟨hs.sound.bad, hs.sound.late⟩
  have hexec : ∃ t, exec (.claim w n) s = .next t ∧
      AllComplete s (s.grantClaim v.task (waveOf e) n.toNat) t (.claim w n) [] := by
    refine allComplete_of hs ha hl.here ?_ hbegun (lanes_of_same hs fun k _ => congrArg (mget · k) hlanes)
    rw [waveOf_div] at hpool
    simp only [nlb_of hv, taskNo_of hv, hnone, hnone', List.map_nil, List.sum_nil, Nat.add_zero, Nat.not_lt.2 hfits, if_false,
      List.isEmpty_nil, hpool, decide_true, Bool.and_self, if_true]
  obtain ⟨t, ht, hall⟩ := hexec
  exact ⟨_, t, ht, hall, hu.same, hlanes, hu.pool, hu.grows.grown v hv, hu.grows.others⟩

-- Claims that wait (R125).
theorem claimOf_eq_some {x : Wait} : x.claimOf = some n ↔ x = .claim n := by
  cases x <;> simp [Wait.claimOf]

theorem mem_claimsOf {ls : List (Nat × Lane)} {st : Nat} :
    (st, n) ∈ claimsOf ls ↔ ∃ p, p ∈ ls ∧ p.2.stamp = st ∧ p.2.wait = .claim n := by
  simp [claimsOf, claimOf_eq_some, and_comm]

theorem oldest_spec {cs : List (Nat × Nat)} {a : Nat × Nat} (h : oldest cs = some a) :
    a ∈ cs ∧ ∀ b, b ∈ cs → a.1 ≤ b.1 := by
  induction cs generalizing a with
  | nil => cases h
  | cons c r ih =>
    unfold oldest at h
    split at h
    case h_1 hr =>
      cases h
      have : r = [] := by
        cases r with
        | nil => rfl
        | cons d r => simp only [oldest] at hr; split at hr <;> cases hr
      simp [this]
    case h_2 b hr =>
      obtain ⟨hb, hmin⟩ := ih hr
      have h := Option.some.inj h
      split at h
      · rename_i hle
        subst h
        refine ⟨List.mem_cons_self, fun d hd => ?_⟩
        rcases List.mem_cons.1 hd with rfl | hd
        · exact Nat.le_refl _
        · exact Nat.le_trans hle (hmin d hd)
      · rename_i hlt
        subst h
        refine ⟨List.mem_cons_of_mem _ hb, fun d hd => ?_⟩
        rcases List.mem_cons.1 hd with rfl | hd
        · omega
        · exact hmin d hd

/-- A lookup in a map whose values were changed, key by key. -/
theorem mget_map {α : Type} {g : Nat × α → Nat × α} (hg : ∀ p, (g p).1 = p.1) (m : Map α) (j : Nat) :
    mget (m.map g) j = (mget m j).map (fun v => (g (j, v)).2) := by
  induction m with
  | nil => rfl
  | cons p r ih =>
    obtain ⟨a, v⟩ := p
    rw [List.map_cons, show g (a, v) = (a, (g (a, v)).2) from Prod.ext (hg _) rfl]
    simp only [mget]
    split
    · rename_i e; subst e; rfl
    · exact ih

/-- The lanes that wait with the claim go on after it, and no other lane changes. -/
theorem lane_passClaim (s : State) (w n st j : Nat) : (s.passClaim w n st).lane j = (s.lane j).map (fun l =>
    if waveOf j = w ∧ l.stamp = st ∧ l.wait = .claim n then
      { l with wait := .none, pc := l.pc + 2, next := Nat.max l.next (s.cycle (w / 48) + 1) }
    else l) := by
  refine (mget_map (fun p => ?_) s.lanes j).trans (congrArg (Option.map · _) (funext fun l => ?_))
  · split <;> rfl
  · simp only [Bool.and_eq_true, beq_iff_eq, claimOf_eq_some, and_assoc]
    split <;> rfl

/-- The grant of the oldest waiting claim of a task, where the pool can satisfy it, to a lane that waits with it. -/
theorem exec_claimGrant_of {slice tn st : Nat} (ho : oldest (claimsOf (s.taskLanesOn tn slice)) = some (st, n))
    (hn : n ≤ (s.poolOf tn slice).length) :
    ∃ p, p ∈ s.taskLanesOn tn slice ∧ p.2.stamp = st ∧ p.2.wait = .claim n ∧
      exec (.claimGrant slice tn) s = finish ((s.grantClaim tn (waveOf p.1) n).passClaim (waveOf p.1) n st) := by
  obtain ⟨q, hq, hst, hwait⟩ := mem_claimsOf.1 (oldest_spec ho).1
  have hfound : ((s.taskLanesOn tn slice).find? (fun p => p.2.stamp == st && p.2.wait.claimOf == some n)).isSome := by
    rw [List.find?_isSome]
    exact ⟨q, hq, by simp [hst, claimOf_eq_some.2 hwait]⟩
  obtain ⟨p, hp⟩ := Option.isSome_iff_exists.1 hfound
  have hpred := List.find?_some hp
  simp only [Bool.and_eq_true, beq_iff_eq, claimOf_eq_some] at hpred
  refine ⟨p, List.mem_of_find?_eq_some hp, hpred.1, hpred.2, ?_⟩
  rw [exec_claimGrant]
  simp only [execClaimGrant, ho, hn, hp, if_true]

theorem sliceOf_of_mem {tn slice : Nat} {p : Nat × Lane} (h : p ∈ s.taskLanesOn tn slice) : sliceOf p.1 = slice := by
  have := (List.mem_filter.1 h).2
  simp only [Bool.and_eq_true, beq_iff_eq] at this
  exact this.1

/-- Settles O12: the oldest claim is served, and its strand passes it. -/
theorem claimGrantCompletes : Obligations.ClaimGrantCompletes := by
  intro slice tn st n s hbad ho hn
  obtain ⟨p, hp, hst, hwait, hexec⟩ := exec_claimGrant_of ho hn
  have hslice : waveOf p.1 / 48 = slice := (waveOf_div p.1).trans (sliceOf_of_mem hp)
  rw [← hslice] at hn
  have hu := grantClaim_served tn (waveOf p.1) hn
  generalize s.grantClaim tn (waveOf p.1) n = u at hu hexec
  refine ⟨u.passClaim (waveOf p.1) n st, p, ?_, hp, hst, hwait, ?_, ?_, ?_, hu.grows.grown, hu.grows.others, ?_⟩
  · rw [hexec]
    exact finish_of_sound (by rw [show (u.passClaim (waveOf p.1) n st).bad = u.bad from rfl, hu.same]; exact hbad)
  · intro q hq m hm
    exact (oldest_spec ho).2 _ (mem_claimsOf.2 ⟨q, hq, rfl, hm⟩)
  · unfold State.passClaim
    rw [hu.same]
  · rw [← hslice]; exact hu.pool
  · intro k
    rw [lane_passClaim, hu.cycle, hslice, show u.lane k = s.lane k by rw [hu.same]; rfl]

end Sys2Proof.Slots
end

section
/-! PROOFS. Reads of special registers, and writes to those that threads share (R127 to R131, R181, R323, R337, R340, R382). -/

namespace Sys2Proof.Slots

open Sys2Proof Sys2Proof.Machine Sys2Proof.Claims Sys2Proof.Numbers

variable {s u : State} {i : Instr} {k : Nat} {l : Lane} {x : Task}

-- Packed registers, field by field.
theorem bit_lt (b : Bool) : bit b < 2 := by cases b <;> decide
theorem modeCode_lt (m : Mode) : m.code < 4 := by cases m <;> decide
theorem ilkCode_lt (m : Ilk) : m.code < 4 := by cases m <;> decide

/-- `TSTAT` (R129). -/
theorem tstat_fields (t : TStat) : t.word = BitVec.ofNat 64 (fields [(t.mode.code, 2), (t.ilk.code, 2), (bit t.prbm, 1),
    (bit t.prb, 1), (bit t.dz, 1), (0, 1), (bit t.dzt, 1), (bit t.cute, 1), (t.tlvl, 62)]) := by
  have h1 := modeCode_lt t.mode
  have h2 := ilkCode_lt t.ilk
  have h3 := bit_lt t.prbm
  have h4 := bit_lt t.prb
  have h5 := bit_lt t.dz
  have h6 := bit_lt t.dzt
  have h7 := bit_lt t.cute
  apply BitVec.eq_of_toNat_eq
  simp only [TStat.word, TStat.nat, fields, BitVec.toNat_ofNat]
  omega

/-- `TKSTAT` (R130). -/
theorem tkstat_fields (x : Task) : tkWord x = BitVec.ofNat 64 (fields [(bit x.sati, 1), (bit x.satf, 1), (bit x.arm, 1)]) := by
  have h1 := bit_lt x.sati
  have h2 := bit_lt x.satf
  have h3 := bit_lt x.arm
  apply congrArg (BitVec.ofNat 64)
  simp only [fields]
  omega

/-- `ASIDX` (R323). -/
theorem asidx_fields (sp : Nat) (b : Bool) : BitVec.ofNat 64 (sp / 16384 * 2 ^ 18 + bit b * 2 ^ 17 + sp % 16384) =
    BitVec.ofNat 64 (fields [(sp % 16384, 14), (0, 3), (bit b, 1), (sp / 16384, 62)]) := by
  have h := bit_lt b
  apply BitVec.eq_of_toNat_eq
  simp only [fields, BitVec.toNat_ofNat]
  omega

/-- The role of a thread index: the first range that holds it (R131). -/
theorem roleOf_eq (x : Task) (n : Nat) :
    roleOf x n = (x.roles.findIdx? (fun p => p.1 ≤ n && n < p.1 + p.2)).getD 0 := by
  rw [List.findIdx?_eq_fst_find?_zipIdx]
  rfl

theorem spaceOf_of (h : s.taskOf k = some x) : s.spaceOf k = x.space := by simp [State.spaceOf, h]

theorem time_of_prompt (h : s.iss.late = false) (n : Nat) : s.time n = s.cycle n := by simp [State.time, h]

/-- What `rsr` reads is what the register holds. -/
theorem readReg_eq (r : SReg) (hs : Begun s) (hx : s.taskOf k = some x) : s.readReg k l r = holds s k l x r := by
  cases r <;> simp only [State.readReg, holds, hx, spaceOf_of hx, Option.map_some, Option.getD_some]
  case tstat => exact tstat_fields l.ts
  case tkstat => exact tkstat_fields x
  case role => rw [roleOf_eq]
  case cycle => rw [time_of_prompt hs.late]
  case asidx => exact asidx_fields ..
  all_goals rfl

/-- A register reads the same where only lanes and the model's counters differ. -/
theorem readReg_alike (r : SReg) (h : Alike s u) (ht : u.tasks = s.tasks) : u.readReg k l r = s.readReg k l r := by
  rw [h.same, ht]
  cases r <;> rfl

/-- An instruction that pushes what each lane gives it, and changes nothing, completes in every lane of a strand that is ready. -/
theorem exec_of_vals {body : State → Nat → List Entry → State × LOut} (hs : ReadyStrand s i)
    (vals : Nat → Lane → List (Word × List Nat))
    (hb : ∀ k, k ∈ s.active → ∀ l, ∀ u, Alike s u → u.tasks = s.tasks → u.lane k = some l →
      body u k (l.ops i) = (u, .go (vals k l))) :
    ∃ t, finish (runEach i body s) = .next t ∧ Alike s t ∧ t.tasks = s.tasks ∧ OthersSame s t ∧
      EachDone s t i (fun _ l => l) vals (fun _ _ => none) := by
  have hc : Confined s i body (fun m => m = s.tasks) (fun _ l => l) vals (fun _ _ => none) :=
    ⟨fun k hk l _ u hu hq hul => ⟨u, hb k hk l u hu hq hul, hu, hq, hul, fun _ _ => rfl⟩⟩
  obtain ⟨t, hrun, halike, htasks, hdone, hothers⟩ := exec_of_confined (Q := fun m => m = s.tasks) hs rfl hc
  exact ⟨t, hrun, halike, htasks, hothers, hdone⟩

/-- Settles O13: the read changes nothing, so every lane reads from a state that is like the first. -/
theorem registerReadsComplete : Obligations.RegisterReadsComplete := by
  intro w r s hs htask
  refine exec_of_vals hs _ fun k hk l u hu ht hul => ?_
  obtain ⟨x, hx⟩ := Option.ne_none_iff_exists'.1 (htask k hk)
  simp only [hul, readReg_alike r hu ht, readReg_eq r hs.sound hx, hx, Option.map_some, Option.getD_some]

-- Writes that reach beyond the thread (R130).
theorem baseMask_enable (v : Word) : (v &&& baseMask).getLsbD 0 = v.getLsbD 0 := by simp [baseMask]

/-- The bits that are masked away are not of the base (R340). -/
theorem baseAddr_mask (v : Word) : baseAddr (v &&& baseMask) = baseAddr v := by
  have hbits : ∀ j, j < 40 → baseMask.getLsbD (12 + j) = true := by decide
  have hfield : ∀ x : Word, baseAddr x = ((x >>> 12).setWidth 40).toNat * 4096 := fun x => by
    simp [baseAddr, Nat.shiftRight_eq_div_pow]
  rw [hfield, hfield]
  refine congrArg (BitVec.toNat · * 4096) (BitVec.eq_of_getLsbD_eq fun j hj => ?_)
  simp [hbits j hj]

/-- A write of `SSBASE` whose mode areas lie inside the grant, if it enables them (R340). -/
theorem exec_ssbase (w : StallL) (h : Alone s (.wsrSsbase w) k l)
    (hg : (l.operand (.wsrSsbase w) 0).getLsbD 0 = true →
      s.granted (s.spaceOf k / 16384) (baseAddr (l.operand (.wsrSsbase w) 0)) areaBytes = true) :
    ∃ t, exec (.wsrSsbase w) s = .next t ∧ Completes s
      (s.modCtx (s.spaceOf k) (fun c => { c with ssbase := l.operand (.wsrSsbase w) 0 &&& baseMask }))
      t (.wsrSsbase w) k [] none := by
  refine exec_of_go h ?_ ⟨h.sound.bad, h.sound.late⟩ h.here
  have hpass : ((l.operand (.wsrSsbase w) 0).getLsbD 0 &&
      !s.granted (s.spaceOf k / 16384) (baseAddr (l.operand (.wsrSsbase w) 0)) areaBytes) = false := by
    cases hen : (l.operand (.wsrSsbase w) 0).getLsbD 0 with
    | false => rfl
    | true => rw [hg hen]; rfl
  simp only [ops_getD_val, baseMask_enable, baseAddr_mask, hpass, Bool.false_eq_true, if_false]

/-- A body that makes a state of its operand, with the lanes as they are, and completes without results. -/
theorem exec_of_effect {body : State → Nat → List Entry → State × LOut} {f : State → Nat → Word → State}
    (h : Alone s i k l) (hb : ∀ ops, body s k ops = (f s k (ops.getD 0 {}).val, .go []))
    (hu : Begun (f s k (l.operand i 0))) (hl : (f s k (l.operand i 0)).lane k = some l) :
    ∃ t, finish (runEach i body s) = .next t ∧ Completes s (f s k (l.operand i 0)) t i k [] none :=
  exec_of_go h (by rw [hb, ops_getD_val]) hu hl

theorem contextWrite_completes {f : Ctx → Word → Ctx} (hf : contextReg i = some f) (h : Alone s i k l)
    (hg : ∀ w, i = .wsrSsbase w → (l.operand i 0).getLsbD 0 = true →
      s.granted (s.spaceOf k / 16384) (baseAddr (l.operand i 0)) areaBytes = true) :
    ∃ t, exec i s = .next t ∧ Completes s (s.modCtx (s.spaceOf k) (fun c => f c (l.operand i 0))) t i k [] none := by
  unfold contextReg at hf
  split at hf
  case h_2 w => exact Option.some.inj hf ▸ exec_ssbase w h (hg w rfl)
  case h_5 => cases hf
  all_goals
    exact exec_of_effect (f := fun s k v => s.modCtx (s.spaceOf k) (fun c => f c v)) h
      (fun _ => Option.some.inj hf ▸ rfl) ⟨h.sound.bad, h.sound.late⟩ h.here

theorem functionWrite_completes {f : Vf → Word → Vf} (hf : functionReg i = some f) (h : Alone s i k l) :
    ∃ t, exec i s = .next t ∧ Completes s (s.modVf (s.spaceOf k / 16384) (fun x => f x (l.operand i 0))) t i k [] none := by
  unfold functionReg at hf
  split at hf
  case h_4 => cases hf
  all_goals
    exact exec_of_effect (f := fun s k v => s.modVf (s.spaceOf k / 16384) (fun x => f x v)) h
      (fun _ => Option.some.inj hf ▸ rfl) ⟨h.sound.bad, h.sound.late⟩ h.here

/-- Settles O15: the write is one change of the task, of the context or of the virtual function. -/
theorem sharedRegisterWritesComplete : Obligations.SharedRegisterWritesComplete := by
  intro i f s k l hf h hg
  unfold sharedReg at hf
  split at hf
  case h_1 w =>
    have hf := Option.some.inj hf
    exact exec_of_effect (f := f) h (fun _ => hf ▸ rfl) (hf ▸ ⟨h.sound.bad, h.sound.late⟩) (hf ▸ h.here)
  case h_2 =>
    split at hf
    case h_1 c _ hc => exact Option.some.inj hf ▸ contextWrite_completes hc h hg
    case h_2 v hv _ => exact Option.some.inj hf ▸ functionWrite_completes hv h
    case h_3 => cases hf

end Sys2Proof.Slots
end

section
/-! PROOFS. Writes to `EFH` (R128, R339, R349): the slots that a rising height adds to the frame of level 1. -/

namespace Sys2Proof.Slots

open Sys2Proof Sys2Proof.Machine Sys2Proof.Claims Sys2Proof.Numbers

variable {s t u : State} {k : Nat} {l : Lane}

/-- A frame of level 1, filled up to its 8 slots, with one of them written (R343). -/
def frameSet (fr : List Entry) (i : Nat) (e : Entry) : List Entry :=
  (fr ++ List.replicate (8 - fr.length) ({} : Entry)).set i e

theorem setFrame_of (hl : s.lane k = some l) (hlvl : l.ts.tlvl ≤ 1) (i : Nat) (e : Entry) :
    s.setFrame k i e = (s.setLane k { l with frame := frameSet l.frame i e }).mendSoft k (64 + i) := by
  simp only [State.setFrame, hl, hlvl, if_true]
  rfl

/-- A slot beyond those that are listed reads as zero. -/
theorem getD_append_zero (fr : List Entry) (n j : Nat) :
    (fr ++ List.replicate n ({} : Entry)).getD j {} = fr.getD j {} := by
  rcases Nat.lt_or_ge j fr.length with h | h
  · exact List.getD_append _ _ _ _ h
  · rw [List.getD_append_right _ _ _ _ h, List.getD_eq_default _ _ h, List.getD_eq_getElem?_getD, List.getElem?_replicate]
    split <;> rfl

theorem frameSet_getD (fr : List Entry) {i : Nat} (e : Entry) (hi : i < 8) (j : Nat) :
    (frameSet fr i e).getD j {} = if j = i then e else fr.getD j {} := by
  have hlen : i < (fr ++ List.replicate (8 - fr.length) ({} : Entry)).length := by
    rw [List.length_append, List.length_replicate]; omega
  rw [frameSet, List.getD_eq_getElem?_getD]
  split
  · rename_i e; subst e; rw [List.getElem?_set_self hlen]; rfl
  · rename_i hne
    rw [List.getElem?_set_ne (Ne.symm hne), ← List.getD_eq_getElem?_getD, getD_append_zero]

/-- Slots of the frame of level 1 among `is` may have become zero, and their parity right. Nothing else differs but the free
choices, once the lane itself is written. -/
structure FrameRaised (k : Nat) (is : List Nat) (s t : State) : Prop where
  frame : ∀ l, s.lane k = some l → ∃ fr, t.lane k = some { l with frame := fr } ∧
    ∀ j, fr.getD j {} = l.frame.getD j {} ∨ (j ∈ is ∧ fr.getD j {} = {})
  parity : ∀ q, (∀ j, j ∈ is → q ≠ softKey k (64 + j)) → mget t.parity q = mget s.parity q
  same : ∀ x, t.setLane k x = ({ s with parity := t.parity, free := t.free } : State).setLane k x

/-- A choice is made, and no slot is zeroed. -/
theorem frameRaised_free (s : State) (k : Nat) (is : List Nat) (m : Nat) : FrameRaised k is s { s with free := m } :=
  ⟨fun l hl => ⟨l.frame, hl, fun _ => .inl rfl⟩, fun _ _ => rfl, fun _ => rfl⟩

/-- A choice is made, and one slot is zeroed. -/
theorem frameRaised_zero (hl : s.lane k = some l) (hlvl : l.ts.tlvl ≤ 1) {i : Nat} (hi : i < 8) (m : Nat) :
    FrameRaised k [i] s (({ s with free := m } : State).setFrame k i {}) := by
  rw [setFrame_of (s := { s with free := m }) hl hlvl]
  exact {
    frame := fun l' hl' => by
      obtain rfl := Option.some.inj (hl.symm.trans hl')
      refine ⟨frameSet l.frame i {}, lane_setLane_self .., fun j => ?_⟩
      rw [frameSet_getD _ _ hi]
      split
      · rename_i e; exact .inr ⟨List.mem_singleton.2 e, rfl⟩
      · exact .inl rfl
    parity := fun q hq => mget_mdel_ne _ (hq i (List.mem_singleton.2 rfl))
    same := fun x => by simp only [State.setLane, State.mendSoft, mset_mset] }

theorem FrameRaised.trans {is js : List Nat} (h : FrameRaised k is s u) (g : FrameRaised k js u t) :
    FrameRaised k (is ++ js) s t where
  frame := fun l hl => by
    obtain ⟨fr, hu, hfr⟩ := h.frame l hl
    obtain ⟨fr', ht, hfr'⟩ := g.frame _ hu
    refine ⟨fr', ht, fun j => ?_⟩
    rcases hfr' j with hj | ⟨hj, hz⟩
    · rw [hj]
      exact (hfr j).imp id fun hz => ⟨List.mem_append_left _ hz.1, hz.2⟩
    · exact .inr ⟨List.mem_append_right _ hj, hz⟩
  parity := fun q hq => (g.parity q fun j hj => hq j (List.mem_append_right _ hj)).trans
    (h.parity q fun j hj => hq j (List.mem_append_left _ hj))
  same := fun x => (g.same x).trans
    (congrArg (fun v : State => { v with parity := t.parity, free := t.free }) (h.same x))

theorem FrameRaised.begun {is : List Nat} (h : FrameRaised k is s t) (hs : Begun s) : Begun t where
  bad := (congrArg State.bad (h.same { thx := 0, pc := 0 })).trans hs.bad
  late := (congrArg (·.iss.late) (h.same { thx := 0, pc := 0 })).trans hs.late

/-- Each slot that is added is kept or zeroed, by a choice of its own. -/
theorem raiseFrame_raises (is : List Nat) (hl : s.lane k = some l) (hlvl : l.ts.tlvl ≤ 1) (his : ∀ i, i ∈ is → i < 8) :
    FrameRaised k is s (raiseFrame k s is) := by
  induction is generalizing s l with
  | nil => exact frameRaised_free s k [] s.free
  | cons i r ih =>
    obtain ⟨m, hm⟩ := choose_free s 2
    have hstep : FrameRaised k [i] s
        (if (choose s 2).1 = 1 then (choose s 2).2.setFrame k i {} else (choose s 2).2) := by
      rw [hm]
      split
      · exact frameRaised_zero hl hlvl (his i (by simp)) m
      · exact frameRaised_free s k [i] m
    obtain ⟨fr, hu, _⟩ := hstep.frame l hl
    exact hstep.trans (ih hu hlvl fun j hj => his j (List.mem_cons_of_mem _ hj))

/-- The slots that a height of n adds to the frame of a lane. -/
def addedSlots (l : Lane) (n : Nat) : List Nat := (List.range (n - l.efh)).map (· + l.efh)

theorem mem_addedSlots {n j : Nat} : j ∈ addedSlots l n ↔ l.efh ≤ j ∧ j < n := by
  simp only [addedSlots, List.mem_map, List.mem_range]
  exact ⟨fun ⟨a, ha, he⟩ => by omega, fun h => ⟨j - l.efh, by omega, by omega⟩⟩

/-- A write to `EFH` raises the frame slot by slot, and then writes the height. -/
theorem exec_wsrEfh_of {w : StallL} {n : Nat} (h : Alone s (.wsrEfh w) k l) (hlvl : l.ts.tlvl ≤ 1)
    (hn : Nat.min 8 ((l.operand (.wsrEfh w) 0).toNat % 16) = n) :
    ∃ u t fr, FrameRaised k (addedSlots l n) s u ∧
      (∀ j, fr.getD j {} = l.frame.getD j {} ∨ (j ∈ addedSlots l n ∧ fr.getD j {} = {})) ∧
      exec (.wsrEfh w) s = .next t ∧ Completes s (u.setLane k { l with frame := fr, efh := n }) t (.wsrEfh w) k [] none := by
  have hraised : FrameRaised k (addedSlots l n) s (raiseFrame k s (addedSlots l n)) :=
    raiseFrame_raises _ h.here hlvl fun j hj =>
      Nat.lt_of_lt_of_le (mem_addedSlots.1 hj).2 (hn ▸ Nat.min_le_left ..)
  obtain ⟨fr, hlane, hfr⟩ := hraised.frame l h.here
  have hu := hraised.begun h.sound
  have hexec : ∃ t, exec (.wsrEfh w) s = .next t ∧
      Completes s ((raiseFrame k s (addedSlots l n)).setLane k { l with frame := fr, efh := n }) t (.wsrEfh w) k [] none := by
    refine exec_of_go h ?_ ⟨hu.bad, hu.late⟩ (lane_setLane_self ..)
    simp only [h.here, ops_getD_val, hn]
    exact congrArg (·, LOut.go []) (modLane_of _ hlane)
  obtain ⟨t, ht, hc⟩ := hexec
  exact ⟨_, t, fr, hraised, hfr, ht, hc⟩

/-- Settles O16: what the raise leaves differs from the statement's state in the free choices alone. -/
theorem frameHeightWriteCompletes : Obligations.FrameHeightWriteCompletes := by
  intro w s k l h hlvl
  obtain ⟨u, t, fr, hraised, hfr, ht, hc⟩ := exec_wsrEfh_of h hlvl rfl
  refine ⟨fr, _, u.parity, t, rfl, ht, ?_, fun q hq => hraised.parity q fun j hj => ?_, fun j => ?_⟩
  · rw [modLane_of (s := { s with parity := u.parity }) _ h.here]
    rw [hraised.same] at hc
    exact hc
  · obtain ⟨hlo, hhi⟩ := mem_addedSlots.1 hj
    rw [softKey, ← Nat.add_assoc]
    exact hq j hlo hhi
  · exact (hfr j).imp id fun ⟨hj, hz⟩ => ⟨(mem_addedSlots.1 hj).1, (mem_addedSlots.1 hj).2, hz⟩

end Sys2Proof.Slots
end

section
/-! PROOFS. Branches, calls and returns (R136, R137, R139). -/

namespace Sys2Proof.Control

open Sys2Proof Sys2Proof.Machine Sys2Proof.Claims Sys2Proof.Numbers

variable {s t u : State} {i : Instr} {k : Nat} {l m : Lane}

-- The chain of the mode in force (R138).
@[simp] theorem setCur_cur (l : Lane) : l.setCur l.cur = l := by
  unfold Lane.setCur Lane.cur Lane.setChain Lane.chain
  cases l.ts.mode <;> rfl

-- Targets (R42, R137).
theorem lbTarget_eq (p : Word) (off : BitVec 18) : lbTarget p off = p + off.signExtend 64 + off.signExtend 64 := by
  rw [lbTarget, BitVec.shiftLeft_eq_mul_twoPow, BitVec.add_assoc, ← BitVec.mul_two]
  rfl

theorem badTarget_of_good {x : Word} (h : goodTarget x) : badTarget x = false := by
  obtain ⟨heven, hlow⟩ := h
  rw [badTarget, heven, Bool.false_or, decide_eq_false_iff_not]
  exact Nat.not_le.2 hlow

theorem jumpTo_of_good {x : Word} (h : goodTarget x) : jumpTo x = .jump x [] := by
  rw [jumpTo, badTarget_of_good h, if_neg Bool.false_ne_true]

/-- A branch that completes: to an address, or to the next instruction. -/
def goesTo : Option Word → LOut
  | none => .go []
  | some p => .jump p []

theorem condJump_of_good (onZero : Bool) {off : BitVec 18} {o : List Word}
    (h : goodTarget (l.pc + off.signExtend 64 + off.signExtend 64)) : condJump onZero off l o =
      goesTo (if (op0 o == 0) == onZero then some (l.pc + off.signExtend 64 + off.signExtend 64) else none) := by
  rw [condJump, lbTarget_eq, badTarget_of_good h, if_neg Bool.false_ne_true]
  split <;> rfl

/-- One lane has been made `m`, and nothing else differs. -/
structure LaneMade (u t : State) (k : Nat) (m : Lane) : Prop where
  same : t = { u with lanes := t.lanes }
  here : t.lane k = some m
  others : ∀ j, j ≠ k → t.lane j = u.lane j

theorem laneMade_refl (h : u.lane k = some l) : LaneMade u u k l := ⟨rfl, h, fun _ _ => rfl⟩

theorem laneMade_modLane (f : Lane → Lane) (h : u.lane k = some l) : LaneMade u (u.modLane k f) k (f l) := by
  rw [modLane_of f h]
  exact ⟨rfl, lane_setLane_self .., fun _ => lane_setLane_ne _ _⟩

theorem LaneMade.alike (h : LaneMade u t k m) (hs : Alike s u) : Alike s t where
  same := by rw [h.same, hs.same]
  tasks := by rw [h.same]; exact hs.tasks

/-- The lane with its link chain as a call or a return leaves it (R139). -/
def relinked (i : Instr) (l : Lane) : Lane := l.setCur { l.cur with links := linksAfter i l }

theorem relinked_of_sameLinks (h : linksAfter i l = l.cur.links) : relinked i l = l := by
  rw [relinked, h, setCur_cur]

/-- What a branch, call or return comes to in a lane that it does not trap (R137, R139): the link chain is written, and the lane
goes on where the table says. -/
def Steers (i : Instr) (f : Lane → List Word → Option Word) (body : State → Nat → List Entry → State × LOut) : Prop :=
  ∀ (u : State) (k : Nat) (l : Lane), u.lane k = some l → (∀ x, branchTarget i l = some x → goodTarget x) →
    (isCall i → l.cur.links.length < 16) → (isRet i → l.cur.links ≠ []) →
    ∃ t, body u k (l.ops i) = (t, goesTo (f l ((l.ops i).map (·.val)))) ∧
      LaneMade u t k (relinked i l)

/-- A branch leaves the link chain as it is. -/
theorem steers_runLane {f : Lane → List Word → Option Word} {g : Lane → List Word → LOut}
    (hg : ∀ l, (∀ x, branchTarget i l = some x → goodTarget x) →
      g l ((l.ops i).map (·.val)) = goesTo (f l ((l.ops i).map (·.val))))
    (hk : ∀ l, linksAfter i l = l.cur.links) :
    Steers i f (fun s k ops =>
      match s.lane k with
      | none => (s, .left)
      | some l => (s, g l (ops.map (·.val)))) := by
  intro u k l hl ht _ _
  refine ⟨u, ?_, by rw [relinked_of_sameLinks (hk l)]; exact laneMade_refl hl⟩
  simp only [hl, hg l ht]

/-- A call to a good target with room in the link chain pushes the return address (R137, R139). -/
theorem callTo_of_room {opcode len : Nat} {x : Word} (hx : goodTarget x) (hn : l.cur.links.length < 16) :
    callTo opcode len x u k l =
      (u.modLane k (fun l => l.setCur { l.cur with links := (l.pc + BitVec.ofNat 64 len) :: l.cur.links }), .jump x []) := by
  rw [callTo, badTarget_of_good hx, if_neg Bool.false_ne_true, if_neg (Nat.not_le.2 hn)]

/-- Each instruction of the table `branchTo` runs a body that steers its lane as the table says. -/
theorem exec_of_branchTo {f : Lane → List Word → Option Word} (hf : branchTo i = some f) :
    ∃ body, (∀ s, exec i s = finish (runEach i body s)) ∧ Steers i f body := by
  unfold branchTo at hf
  split at hf
  case h_8 => cases hf
  all_goals obtain rfl := Option.some.inj hf
  case h_1 w off =>
    refine ⟨_, fun _ => rfl, steers_runLane (g := fun l _ => jumpTo (lbTarget l.pc off)) (fun l ht => ?_) fun _ => rfl⟩
    rw [lbTarget_eq]
    exact jumpTo_of_good (ht _ rfl)
  case h_2 w off =>
    refine ⟨_, fun _ => rfl, steers_runLane (fun l ht => ?_) fun _ => rfl⟩
    rw [condJump_of_good true (ht _ rfl)]
    simp [op0]
  case h_3 w off =>
    refine ⟨_, fun _ => rfl, steers_runLane (fun l ht => ?_) fun _ => rfl⟩
    rw [condJump_of_good false (ht _ rfl)]
    simp [op0]
  case h_4 w off =>
    refine ⟨_, fun _ => rfl, fun u k l hl ht hn _ => ⟨_, ?_, laneMade_modLane (relinked (.call w off)) hl⟩⟩
    simp only [hl, lbTarget_eq]
    exact callTo_of_room (ht _ rfl) (hn rfl)
  case h_5 w =>
    exact ⟨_, fun _ => rfl, steers_runLane (g := fun _ o => jumpTo (op0 o)) (fun l ht => jumpTo_of_good (ht _ rfl))
      fun _ => rfl⟩
  case h_6 w =>
    refine ⟨_, fun _ => rfl, fun u k l hl ht hn _ => ⟨_, ?_, laneMade_modLane (relinked (.callx w)) hl⟩⟩
    simp only [hl]
    exact callTo_of_room (ht _ rfl) (hn rfl)
  case h_7 w =>
    refine ⟨_, fun _ => rfl, fun u k l hl _ _ hne => ?_⟩
    obtain ⟨a, r, hr⟩ := List.exists_cons_of_ne_nil (hne rfl)
    have hmade := laneMade_modLane (fun x => x.setCur { x.cur with links := r }) hl
    refine ⟨_, ?_, by rw [relinked, show linksAfter (.ret w) l = r from congrArg List.tail hr]; exact hmade⟩
    simp only [hl, hr]
    rfl

/-- Settles O6: each of these instructions writes the link chain of its own lane and goes on where the table says, so lanes do
not interfere. -/
theorem branchesComplete : Obligations.BranchesComplete := by
  intro i f s hf hs hgood
  obtain ⟨body, hexec, hsteers⟩ := exec_of_branchTo hf
  have hc : Confined s i body (· = s.tasks) (fun _ => relinked i) (fun _ _ => [])
      (fun _ l => f l ((l.ops i).map (·.val))) := by
    refine ⟨fun k hk l hl u hu hq hul => ?_⟩
    obtain ⟨htarget, hcall, hret⟩ := hgood k hk l hl
    obtain ⟨t, hbody, hmade⟩ := hsteers u k l hul htarget hcall hret
    refine ⟨t, ?_, hmade.alike hu, by rw [hmade.same]; exact hq, hmade.here, hmade.others⟩
    rw [hbody]
    cases f l ((l.ops i).map (·.val)) <;> rfl
  obtain ⟨t, hrun, halike, htasks, hdone, hothers⟩ := exec_of_confined (Q := (· = s.tasks)) hs rfl hc
  exact ⟨t, (hexec s).trans hrun, halike, htasks, hothers, hdone⟩

end Sys2Proof.Control
end

section
/-! PROOFS. `meet` and `join` (R136, R140, R142 to R144). -/

namespace Sys2Proof.Control

open Sys2Proof Sys2Proof.Machine Sys2Proof.Claims Sys2Proof.Numbers

variable {s t u : State} {i : Instr} {k : Nat} {l m : Lane} {w : StallS} {d : BitVec 6}

-- A chain that is written (R138).
@[simp] theorem setCur_ts (l : Lane) (c : Chain) : (l.setCur c).ts = l.ts := by
  unfold Lane.setCur Lane.setChain; cases l.ts.mode <;> rfl
@[simp] theorem setCur_pc (l : Lane) (c : Chain) : (l.setCur c).pc = l.pc := by
  unfold Lane.setCur Lane.setChain; cases l.ts.mode <;> rfl
@[simp] theorem setCur_stk (l : Lane) (c : Chain) : (l.setCur c).stk = l.stk := by
  unfold Lane.setCur Lane.setChain; cases l.ts.mode <;> rfl
@[simp] theorem setCur_back (l : Lane) (c : Chain) : (l.setCur c).back = l.back := by
  unfold Lane.setCur Lane.setChain; cases l.ts.mode <;> rfl
@[simp] theorem setCur_depth (l : Lane) (c : Chain) : (l.setCur c).depth = l.depth := by simp [Lane.depth]
@[simp] theorem setCur_limit (l : Lane) (c : Chain) : (l.setCur c).limit = l.limit := by simp [Lane.limit]
@[simp] theorem cur_setCur (l : Lane) (c : Chain) : (l.setCur c).cur = c := by
  rw [Lane.cur, setCur_ts]
  unfold Lane.setCur Lane.setChain Lane.chain
  cases l.ts.mode <;> rfl
@[simp] theorem setCur_setCur (l : Lane) (c e : Chain) : (l.setCur c).setCur e = l.setCur e := by
  rw [Lane.setCur, setCur_ts]
  unfold Lane.setCur Lane.setChain
  cases l.ts.mode <;> rfl

/-- Settles O18: the target is good and the chain and the wave have room, so the body pushes the meeting state. -/
theorem meetCompletes : Obligations.MeetCompletes := by
  intro w off s k l h htarget hgroups hchain
  have hgo : ∀ f : Lane → Lane, (s.modLane k f).lane k = some (f l) := fun f => by rw [lane_modLane_self, h.here]; rfl
  refine exec_of_go h ?_ ⟨(State.modLane_bad ..).trans h.sound.bad, ?_⟩ (hgo _)
  · simp only [h.here, lbTarget_eq, badTarget_of_good htarget, Bool.false_eq_true, if_false, Nat.not_le.2 hgroups,
      Nat.not_le.2 hchain, modLane_of _ h.here]
  · rw [State.modLane_iss]; exact h.sound.late

-- The mark of R142, which a `join` at its meeting address leaves before it acts.
theorem mark_alike (s : State) (k : Nat) : Alike s (s.mark k) := by
  unfold State.mark
  split
  · split
    · exact (Alike.refl s).setLane ..
    · exact .refl s
  · exact .refl s

theorem mark_setLane (s : State) (k : Nat) (m : Lane) : (s.mark k).setLane k m = s.setLane k m := by
  unfold State.mark
  split
  · split
    · simp only [State.setLane, mset_mset]
    · rfl
  · rfl

/-- Only the mark on the group in force may differ. -/
theorem mark_lane (h : s.lane k = some l) : ∃ b, (s.mark k).lane k = some (l.setCur { l.cur with rel := b }) := by
  unfold State.mark
  rw [h]
  dsimp only
  split
  · exact ⟨true, lane_setLane_self ..⟩
  · exact ⟨l.cur.rel, by rw [h]; exact congrArg some (setCur_cur l).symm⟩

/-- The checks before a `join` do not read the meeting chain: it may stand at its meeting address. -/
theorem check_join (s : State) (k : Nat) (l : Lane) (w : StallS) (d : BitVec 6) : s.check k l (.join w d) =
    (privOf (.join w d) l.ts.mode).orElse fun _ => depthCause l (shapeOf (.join w d)) := by
  have hearly : s.early k l (.join w d) = [] := rfl
  have hsoft : l.softOperand (.join w d) = none := rfl
  simp [State.check, Lane.firstCheck, isJoin, hearly, hsoft, stallCause, neverEarly]

theorem depthCause_setCur (l : Lane) (c : Chain) (sh : Shape) : depthCause (l.setCur c) sh = depthCause l sh := by
  simp only [depthCause, setCur_depth, setCur_limit]

/-- A lane alone at a `join`, marked or not: its body decides. -/
theorem runEach_of_joining (h : Joining s (.join w d) k l) (body : State → Nat → List Entry → State × LOut) :
    runEach (.join w d) body s = ((body (s.mark k) k []).1.conclude k (.join w d) s.issueCycle s.nextId
      (body (s.mark k) k []).2).bump.settled := by
  obtain ⟨b, hlane⟩ := mark_lane h.here
  have hpass : (s.mark k).check k (l.setCur { l.cur with rel := b }) (.join w d) = none := by
    rw [check_join, setCur_ts, depthCause_setCur, ← check_join]
    exact h.pass
  have hdrain : (s.mark k).drain k ((shapeOf (.join w d)).pushes - (shapeOf (.join w d)).pops) = s.mark k := by
    refine drain_of_fits hlane ?_
    rw [setCur_stk, (mark_alike s k).cap, State.cap, setCur_ts]
    exact h.fits
  have hbegin : s.begin_ (.join w d) k = (s.mark k, some []) := by
    unfold State.begin_
    simp only [hlane, hpass, hdrain]
    rfl
  have hready : s.readied s.active (.join w d) = s := readied_of_fits fun j hj => by
    rw [h.only, List.mem_singleton] at hj
    exact mustDrain_of_fits (hj ▸ h.here) (hj ▸ h.fits)
  unfold runEach
  simp only [hready]
  rw [h.only, List.foldl_cons, List.foldl_nil, laneRun, hbegin]

/-- A `join` that its body lets complete. -/
theorem joining_completes {body : State → Nat → List Entry → State × LOut} (h : Joining s (.join w d) k l)
    (hb : body (s.mark k) k [] = (s.setLane k m, .go [])) :
    ∃ t, finish (runEach (.join w d) body s) = .next t ∧ Completes s (s.setLane k m) t (.join w d) k [] none := by
  obtain ⟨q, n, hq⟩ := retire_of_lane (i := .join w d) s.issueCycle [] none (lane_setLane_self s k m)
  refine ⟨({ s.setLane k m with free := n }.setLane k (m.after (.join w d) s.issueCycle q [] none)).bump, ?_, m, q, n,
    lane_setLane_self .., rfl⟩
  rw [runEach_of_joining h, hb]
  simp only [State.conclude]
  rw [hq, settled_of_prompt (by exact h.sound.late), finish_of_sound (by exact h.sound.bad)]

/-- A `join` that its body lets trap. -/
theorem joining_traps {body : State → Nat → List Entry → State × LOut} {c : Cause} (h : Joining s (.join w d) k l)
    (hb : body (s.mark k) k [] = (u, .trap c)) (hu : u.iss = s.iss) :
    finish (runEach (.join w d) body s) = finish (u.takeTrap k (.join w d) c).bump := by
  rw [runEach_of_joining h, hb]
  simp only [State.conclude]
  rw [settled_of_prompt (by rw [State.bump_iss, takeTrap_iss, hu]; exact h.sound.late)]

/-- Settles O19: a `join` at the meeting address and the depth of its group pops the chain; whatever the mark
was, it goes with the group. -/
theorem joinCompletes : Obligations.JoinCompletes := by
  intro w d s k l h hpc hdepth
  obtain ⟨b, hlane⟩ := mark_lane h.here
  rw [modLane_of _ h.here]
  refine joining_completes h ?_
  simp only [hlane, cur_setCur, setCur_pc, setCur_depth, hpc, hdepth, ne_eq, not_true_eq_false, if_false]
  cases hout : l.cur.outer with
  | nil => simp only [modLane_of _ hlane, mark_setLane, cur_setCur, setCur_setCur]
  | cons e r => simp only [modLane_of _ hlane, mark_setLane, cur_setCur, setCur_setCur]

theorem mark_of_elsewhere (h : s.lane k = some l) (hpc : l.cur.mpc ≠ l.pc) : s.mark k = s :=
  mark_of_unmet h (by simp [Lane.atMeet, hpc.symm])

/-- A `join` elsewhere (R142, R144). -/
theorem exec_join_elsewhere (h : Joining s (.join w d) k l) (hpc : l.cur.mpc ≠ l.pc) :
    exec (.join w d) s = finish (s.takeTrap k (.join w d) (joinCause l 0)).bump := by
  refine joining_traps h ?_ rfl
  simp only [mark_of_elsewhere h.here hpc, h.here, hpc, ne_eq, not_false_eq_true, if_true]

theorem unequalCause_setCur {c : Chain} (d : BitVec 6) (h : c.d0 = l.cur.d0) :
    unequalCause (l.setCur c) d = unequalCause l d := by
  simp only [unequalCause, cur_setCur, setCur_depth, h]

/-- A `join` at the meeting address, at another depth: the thread is gone from its group before it traps (R143). -/
theorem exec_join_unequal (h : Joining s (.join w d) k l) (hpc : l.cur.mpc = l.pc)
    (hdepth : (l.depth : Int) ≠ l.cur.d0 + d.toInt) :
    exec (.join w d) s = finish ((s.modLane k (fun x => x.setCur { x.cur with group := none, rel := false })).takeTrap k
      (.join w d) (unequalCause l d)).bump := by
  obtain ⟨b, hlane⟩ := mark_lane h.here
  refine joining_traps h ?_ (State.modLane_iss ..)
  simp only [hlane, modLane_of _ hlane, modLane_of _ h.here, mark_setLane, cur_setCur, setCur_setCur, setCur_pc, setCur_depth,
    unequalCause_setCur, hpc, hdepth, ne_eq, not_true_eq_false, not_false_eq_true, if_false, if_true]

/-- The second detail word of an address holds its upper half (R144). -/
theorem joinCause_w2 (l : Lane) (r : Nat) : (joinCause l r).w2 = (l.cur.mpc >>> 32).setWidth 32 :=
  BitVec.eq_of_toNat_eq (by simp [joinCause, mkCause, Nat.shiftRight_eq_div_pow])

/-- The first detail word of UNEQUAL_DEPTH: the code, and above it the distance on 8 bits (R143). -/
theorem unequalCause_w0 (l : Lane) (d : BitVec 6) :
    (unequalCause l d).w0.toNat % 256 = 3 ∧ (unequalCause l d).w0.toNat / 256 = (d.signExtend 8).toNat := by
  have hd := (d.signExtend 8).isLt
  simp only [unequalCause, mkCause, BitVec.toNat_ofNat]
  omega

/-- Settles O20: the address is checked before the depth, and each check traps with its own detail. -/
theorem joinTraps : Obligations.JoinTraps := by
  intro w d s k l h
  refine ⟨fun hpc => ⟨joinCause l 0, exec_join_elsewhere h hpc, rfl, rfl, BitVec.ofNat_toNat .., joinCause_w2 l 0⟩,
    fun hpc hdepth => ?_⟩
  obtain ⟨hcode, hdistance⟩ := unequalCause_w0 l d
  exact ⟨unequalCause l d, exec_join_unequal h hpc hdepth, rfl, hcode, hdistance, rfl, rfl⟩

end Sys2Proof.Control
end

section
/-! PROOFS. The end of a thread and of its wave: `exit` (R120, R145, R205). -/

namespace Sys2Proof.Control

open Sys2Proof Sys2Proof.Machine Sys2Proof.Claims Sys2Proof.Numbers Sys2Proof.Slots

variable {s t u : State} {k j w : Nat} {l : Lane} {v : Wave}

-- Which lanes there are: a release writes memory and views, and neither starts nor ends a thread.
/-- The lanes that there are. -/
def present (s : State) (j : Nat) : Bool := (s.lane j).isSome

theorem present_eq_false : present s j = false ↔ s.lane j = none := by simp [present]

theorem present_modLane (s : State) (k : Nat) (f : Lane → Lane) : present (s.modLane k f) = present s := by
  funext j
  rw [present, present, lane_modLane]
  split
  · rename_i e; subst e; rw [Option.isSome_map]
  · rfl

theorem present_writeAs (s : State) (who slice key : Nat) (bs : List Byte) :
    present (s.writeAs who slice key bs) = present s := by
  unfold State.writeAs
  dsimp only
  split
  · rw [present_modLane]; rfl
  · rfl

theorem present_cleanRange (s : State) (key n : Nat) : present (s.cleanRange key n) = present s :=
  foldl_keeps present State.clean (fun _ _ => rfl) _ s

theorem present_fill (s : State) (who slice : Nat) (g : Geom) (v : Word) : present (s.bankFill who slice g v) = present s := by
  unfold State.bankFill
  dsimp only
  split
  · rw [present_cleanRange, present_writeAs]
  · rw [present_cleanRange]
    exact foldl_keeps present _ (fun _ _ => present_writeAs ..) _ s

theorem present_col (s : State) (who slice : Nat) (g : Geom) (op : TColOp) (v mask : Word) (c : Nat) :
    present (s.bankCol who slice g op v mask c) = present s := by
  refine foldl_keeps present _ (fun u r => ?_) _ s
  dsimp only
  split
  · rfl
  · split
    · exact present_writeAs ..
    · exact present_writeAs ..

theorem present_moveBytes (s : State) (who slice src dst step n : Nat) :
    present (s.moveBytes who slice src dst step n) = present s := by
  refine foldl_keeps present _ (fun u j => ?_) _ s
  dsimp only
  split
  · exact present_writeAs ..
  · exact present_writeAs ..

theorem present_move (s : State) (who slice : Nat) (f g : Geom) : present (s.bankMove who slice f g) = present s := by
  simp only [State.bankMove, present_moveBytes]

theorem present_done (s : State) (tn : Nat) (b : BankOp) : present (s.bankDone tn b) = present s := by
  unfold State.bankDone
  dsimp only
  split
  · rfl
  · split
    · rw [present_fill]; rfl
    · rw [present_col]; rfl
    · split
      · rw [present_move]; rfl
      · rfl

theorem present_release (s : State) (k : Nat) (sc : Scope) : present (s.release k sc) = present s := by
  have hflush : present (s.flushBanks (s.taskNo k) (s.who k)) = present s := by
    unfold State.flushBanks
    split
    · rfl
    · exact foldl_keeps present _ (fun _ _ => present_done ..) _ s
  unfold State.release
  dsimp only
  split
  · exact hflush
  · exact hflush

theorem release_lane_none (sc : Scope) : (s.release k sc).lane j = none ↔ s.lane j = none := by
  rw [← present_eq_false, present_release, present_eq_false]

theorem release_poolOf (s : State) (k : Nat) (sc : Scope) (tn x : Nat) : (s.release k sc).poolOf tn x = s.poolOf tn x := by
  rw [(synced_release s k sc).same]; rfl

theorem release_wave (s : State) (k : Nat) (sc : Scope) (w : Nat) : (s.release k sc).wave w = s.wave w := by
  rw [State.wave, (synced_release s k sc).waves]; rfl

-- The cuts that the end of a wave settles (R184, R366).
/-- What is left of contexts in the engines is saved, and the next take begins; pools of local blocks, lanes, waves and memory
are as before. -/
structure CutsSettled (s t : State) : Prop where
  same : t = { s with slices := t.slices, ctxs := t.ctxs, reels := t.reels, vfs := t.vfs, tasks := t.tasks
                      take := t.take, ending := t.ending, lastTake := t.lastTake, takeAt := t.takeAt }
  pools : ∀ tn x, t.poolOf tn x = s.poolOf tn x

theorem CutsSettled.refl (s : State) : CutsSettled s s := ⟨rfl, fun _ _ => rfl⟩

theorem CutsSettled.trans (h : CutsSettled s t) (g : CutsSettled t u) : CutsSettled s u :=
  ⟨by rw [g.same, h.same], fun tn x => (g.pools tn x).trans (h.pools tn x)⟩

theorem CutsSettled.foldl {α : Type} {f : State → α → State} (hf : ∀ s x, CutsSettled s (f s x)) (xs : List α) (s : State) :
    CutsSettled s (xs.foldl f s) := by
  induction xs generalizing s with
  | nil => exact .refl s
  | cons x r ih => exact (hf s x).trans (ih (f s x))

theorem pools_without (x : Slice) (cs : List Copy) (gs : List MCmd) (ks : List Nat) : (x.without cs gs ks).pools = x.pools := by
  unfold Slice.without Slice.settleHeld
  split
  · split <;> rfl
  · rfl

theorem poolOf_modSlice_of_pools {f : Slice → Slice} (hf : ∀ x, (f x).pools = x.pools) (s : State) (y tn x : Nat) :
    (s.modSlice y f).poolOf tn x = s.poolOf tn x := by
  rw [State.poolOf, State.poolOf, slice_modSlice]
  split
  · rename_i e; subst e; rw [hf]
  · rfl

theorem poolOf_modSlice_self (f : Slice → Slice) (s : State) (tn x : Nat) :
    (s.modSlice x f).poolOf tn x = mgetD (f (s.slice x)).pools tn [] := by
  rw [State.poolOf, slice_modSlice, if_pos rfl]

theorem saveEngines_settled (s : State) (sp : Nat) : CutsSettled s (s.saveEngines sp) := by
  unfold State.saveEngines
  refine CutsSettled.foldl (fun u p => ?_) _ s
  refine CutsSettled.foldl (fun v x => ?_) _ u
  exact ⟨rfl, poolOf_modSlice_of_pools (fun _ => pools_without ..) v p.1⟩

theorem grantTake_settled (s : State) : CutsSettled s s.grantTake := by
  unfold State.grantTake
  split
  · exact .refl s
  · split
    · exact ⟨rfl, fun _ _ => rfl⟩
    · exact .refl s

theorem CutsSettled.set (h : CutsSettled s t) (c : Map Ctx) (r : Map Reel) (f : Map Vf) (v : Option Nat) (b : Bool) :
    CutsSettled s { t with ctxs := c, reels := r, vfs := f, take := v, ending := b } :=
  ⟨by rw [h.same], h.pools⟩

theorem settleCuts_settled (s : State) : CutsSettled s s.settleCuts := by
  have hsaved : CutsSettled s (s.cutsDone.foldl (fun s sp => s.saveEngines sp) s) :=
    CutsSettled.foldl saveEngines_settled _ s
  unfold State.settleCuts
  dsimp only
  split
  · split
    · exact (hsaved.set ..).trans (grantTake_settled _)
    · exact hsaved.set ..
  · exact hsaved.set ..

-- The end of a wave (R120).
/-- The slice of a wave that ends: the wave's local blocks are in the pool of its task. -/
def pooled (v : Wave) (x : Slice) : Slice :=
  { x with pools := mset x.pools v.task (mgetD x.pools v.task [] ++ (List.range v.nlb).map (blockOf v)) }

/-- The state without a wave, its local blocks pooled. -/
def dissolved (s : State) (w : Nat) (v : Wave) : State := { s.modSlice (w / 48) (pooled v) with waves := mdel s.waves w }

theorem dissolved_poolOf (s : State) (w : Nat) (v : Wave) : (dissolved s w v).poolOf v.task (w / 48) =
    s.poolOf v.task (w / 48) ++ (List.range v.nlb).map (blockOf v) :=
  (poolOf_modSlice_self (pooled v) s v.task (w / 48)).trans (mgetD_mset_self ..)

theorem endWave_settled (h : s.wave w = some v) : CutsSettled (dissolved s w v) (s.endWave w) := by
  unfold State.endWave
  rw [h]
  exact settleCuts_settled _

theorem endWave_of_none (h : s.wave w = none) : s.endWave w = s := by
  unfold State.endWave
  rw [h]

/-- The end of a wave leaves threads and memory as they are. -/
theorem endWave_same (s : State) (w : Nat) :
    (s.endWave w).lanes = s.lanes ∧ (s.endWave w).mem = s.mem ∧ (s.endWave w).bad = s.bad := by
  cases h : s.wave w with
  | none => rw [endWave_of_none h]; exact ⟨rfl, rfl, rfl⟩
  | some v => rw [(endWave_settled h).same]; exact ⟨rfl, rfl, rfl⟩

theorem endWave_wave (s : State) (w : Nat) : (s.endWave w).wave w = none := by
  cases h : s.wave w with
  | none => rw [endWave_of_none h]; exact h
  | some v => rw [(endWave_settled h).same]; exact mget_mdel_self ..

theorem endWave_poolOf (h : s.wave w = some v) :
    (s.endWave w).poolOf v.task (w / 48) = s.poolOf v.task (w / 48) ++ (List.range v.nlb).map (blockOf v) := by
  rw [(endWave_settled h).pools, dissolved_poolOf]

-- A thread leaves its wave (R145, R205, R252).
/-- The thread is gone, and what it has reserved is free; its wave is not judged yet. -/
def withdrawn (s : State) (k : Nat) : State := { s.dropResv k with lanes := mdel (s.dropResv k).lanes k }

theorem leave_eq (s : State) (k : Nat) : s.leave k =
    if ((withdrawn s k).waveLanes (waveOf k)).isEmpty then (withdrawn s k).endWave (waveOf k) else withdrawn s k := rfl

theorem dropResv_same (s : State) (k : Nat) : s.dropResv k =
    { s with lanes := (s.dropResv k).lanes, tasks := (s.dropResv k).tasks } := by
  unfold State.dropResv State.modLane
  split
  · split
    · split <;> rfl
    · rfl
  · rfl

theorem dropResv_lane_ne (s : State) (h : j ≠ k) : (s.dropResv k).lane j = s.lane j := by
  unfold State.dropResv
  split
  · split
    · exact lane_modLane_ne _ _ h
    · rfl
  · rfl

theorem withdrawn_lane (s : State) (k j : Nat) : (withdrawn s k).lane j = if j = k then none else s.lane j := by
  rw [State.lane, withdrawn, mget_mdel]
  split
  · rfl
  · rename_i h; exact dropResv_lane_ne s h

theorem withdrawn_same (s : State) (k : Nat) : withdrawn s k =
    { s with lanes := (withdrawn s k).lanes, tasks := (withdrawn s k).tasks } := by
  unfold withdrawn
  rw [dropResv_same]

theorem withdrawn_wave (s : State) (k w : Nat) : (withdrawn s k).wave w = s.wave w := by rw [withdrawn_same]; rfl

theorem withdrawn_poolOf (s : State) (k tn x : Nat) : (withdrawn s k).poolOf tn x = s.poolOf tn x := by
  rw [withdrawn_same]; rfl

theorem mget_ne_none_iff {α : Type} {m : Map α} : mget m j ≠ none ↔ ∃ v, (j, v) ∈ m := by
  induction m with
  | nil => simp [mget]
  | cons p r ih =>
    obtain ⟨a, x⟩ := p
    rw [mget]
    split
    · rename_i e; subst e; simp
    · rename_i e; simp [ih, e]

theorem waveLanes_isEmpty_iff (s : State) (w : Nat) :
    (s.waveLanes w).isEmpty = true ↔ ∀ j, waveOf j = w → s.lane j = none := by
  rw [List.isEmpty_iff, State.waveLanes, List.filter_eq_nil_iff]
  constructor
  · intro h j hj
    by_contra hne
    obtain ⟨v, hv⟩ := mget_ne_none_iff.1 hne
    exact h _ hv (by simp [hj])
  · rintro h ⟨j, v⟩ hv hj
    exact mget_ne_none_iff.2 ⟨v, hv⟩ (h j (by simpa using hj))

/-- The last thread ends its wave; another leaves it as it is. -/
theorem leave_of_last (h : ∀ j, j ≠ k → waveOf j = waveOf k → s.lane j = none) :
    s.leave k = (withdrawn s k).endWave (waveOf k) := by
  rw [leave_eq, if_pos]
  refine (waveLanes_isEmpty_iff ..).2 fun j hj => ?_
  rw [withdrawn_lane]
  split
  · rfl
  · rename_i hne; exact h j hne hj

theorem leave_of_others (hne : j ≠ k) (hw : waveOf j = waveOf k) (hl : s.lane j ≠ none) : s.leave k = withdrawn s k := by
  rw [leave_eq, if_neg]
  intro he
  refine hl ?_
  have hgone := (waveLanes_isEmpty_iff ..).1 he j hw
  rwa [withdrawn_lane, if_neg hne] at hgone

theorem leave_same (s : State) (k : Nat) :
    (s.leave k).lanes = (withdrawn s k).lanes ∧ (s.leave k).mem = s.mem ∧ (s.leave k).bad = s.bad := by
  have hmem : (withdrawn s k).mem = s.mem := by rw [withdrawn_same]
  have hbad : (withdrawn s k).bad = s.bad := by rw [withdrawn_same]
  rw [leave_eq]
  split
  · obtain ⟨hlanes, hm, hb⟩ := endWave_same (withdrawn s k) (waveOf k)
    exact ⟨hlanes, hm.trans hmem, hb.trans hbad⟩
  · exact ⟨rfl, hmem, hbad⟩

theorem leave_lane (s : State) (k j : Nat) : (s.leave k).lane j = if j = k then none else s.lane j := by
  obtain ⟨hlanes, -, -⟩ := leave_same s k
  rw [State.lane, hlanes]
  exact withdrawn_lane s k j

/-- A thread alone in its strand releases, and leaves. -/
theorem exec_exit_of (w : StallS) (h : Alone s (.exit w) k l) :
    exec (.exit w) s = .next ((s.release k .device).leave k).bump := by
  obtain ⟨-, -, hbad⟩ := leave_same (s.release k .device) k
  rw [exec_exit, execExit, runEach_of_alone h]
  simp only [State.conclude]
  rw [settled_of_prompt, finish_of_sound]
  · rw [State.bump_bad, hbad, (synced_release ..).bad]; exact h.sound.bad
  · rw [State.bump_iss, leave_iss, release_iss]; exact h.sound.late

/-- Settles O21: the release changes no wave, no pool and no lane's presence; the wave ends when no other lane of it is there. -/
theorem exitCompletes : Obligations.ExitCompletes := by
  intro w s k l h
  obtain ⟨-, hmem, -⟩ := leave_same (s.release k .device) k
  refine ⟨_, exec_exit_of w h, ?_, hmem, fun j hj => ?_, ?_, fun hlast => ?_⟩
  · exact (leave_lane ..).trans (if_pos rfl)
  · exact (leave_lane ..).trans (if_neg hj)
  · rintro ⟨j, m, hne, hw, hm⟩
    have hstays : (s.release k .device).lane j ≠ none := by rw [ne_eq, release_lane_none, hm]; exact Option.some_ne_none m
    rw [leave_of_others hne hw hstays]
    exact (withdrawn_wave ..).trans (release_wave ..)
  · rw [leave_of_last fun j hne hw => (release_lane_none _).2 (hlast j hne hw)]
    refine ⟨endWave_wave .., fun v hv => ?_⟩
    have hwave : (withdrawn (s.release k .device) k).wave (waveOf k) = some v := by
      rw [withdrawn_wave, release_wave]; exact hv
    have hpool := endWave_poolOf hwave
    rw [withdrawn_poolOf, release_poolOf, waveOf_div] at hpool
    exact hpool

end Sys2Proof.Control
end

section
/-! PROOFS. A lane alone that accesses memory: the checks of its access, the port of its slice, and how it ends (R148, R150, R152). -/

namespace Sys2Proof.Accesses

open Sys2Proof Sys2Proof.Machine Sys2Proof.Claims Sys2Proof.Numbers

variable {s s1 u v : State} {i : Instr} {k key size : Nat} {l m : Lane} {kind : AccKind} {hostOk : Bool} {off : BitVec 12} {va : Word}

-- What the checks of an access leave as it is (R152).
section translated
variable (h : Translated s u)
include h
theorem translated_lane (k : Nat) : u.lane k = s.lane k := by rw [h.same]; rfl
theorem translated_who (k : Nat) : u.who k = s.who k := by rw [h.same]; rfl
theorem translated_iss : u.iss = s.iss := by rw [h.same]
theorem translated_bad : u.bad = s.bad := by rw [h.same]
theorem translated_mem : u.mem = s.mem := by rw [h.same]
theorem translated_log : u.log = s.log := by rw [h.same]
theorem translated_rels : u.rels = s.rels := by rw [h.same]
theorem translated_nextId : u.nextId = s.nextId := by rw [h.same]
theorem translated_quiet (hq : Quiet s k) : Quiet u k := by
  refine quiet_of_banks hq (by rw [h.same]) (fun n => ?_)
  rw [h.same]; rfl
end translated

theorem access_translated {r : Acc} (h : s.access k l kind hostOk va size = (r, s1)) : Translated s s1 := by
  have := access_frame s k l kind hostOk va size
  rwa [h] at this

-- Alignment (R150, R151).
/-- An access within one line touches no other. -/
theorem linesOf_aligned {a : Nat} (hs : size ∣ 64) (ha : a % size = 0) : linesOf a size = [lineOf a] := by
  have hpos : 0 < size := Nat.pos_of_dvd_of_pos hs (by decide)
  obtain ⟨c, hc⟩ := hs
  obtain ⟨q, rfl⟩ := Nat.dvd_of_mod_eq_zero ha
  have hline : (size * q + size - 1) / 64 = size * q / 64 := by
    rw [hc, Nat.mul_div_mul_left _ _ hpos, ← Nat.div_div_eq_div_mul]
    congr 1
    rw [show size * q + size - 1 = size - 1 + size * q by omega, Nat.add_mul_div_left _ _ hpos,
      Nat.div_eq_of_lt (by omega), Nat.zero_add]
  unfold linesOf lineOf
  rw [hline, Nat.add_sub_cancel_left]
  simp

/-- An access that does not trap with ALIGNMENT lies at a multiple of its size. -/
theorem reach_aligned {r : Acc} (h : s.reach k l kind hostOk va size = (r, s1)) (hr : ∀ c, r = .trap c → c.group ≠ 6) :
    va.toNat % size = 0 := by
  by_contra hne
  unfold State.reach at h
  dsimp only at h
  split at h
  · cases h; exact hr _ rfl rfl
  · cases h; exact hr _ rfl rfl

theorem access_aligned {r : Acc} (h : s.access k l kind hostOk va size = (r, s1)) (hr : ∀ c, r = .trap c → c.group ≠ 6) :
    va.toNat % size = 0 := by
  cases hreach : s.reach k l kind hostOk va size with
  | mk q u =>
    refine reach_aligned hreach fun c hc => ?_
    subst hc
    simp only [State.access, hreach, Prod.mk.injEq] at h
    exact hr c h.1.symm

-- The request of a lane (R148).
/-- What a lane asks for: a place, or none behind no link. -/
def request (i : Instr) (k : Nat) (l : Lane) (off : BitVec 12) (key : Option Nat) (stop : Option LOut) : Reached :=
  { lane := k, key := key, ea := address (l.operand i 0) off, ops := l.ops i, stop := stop }

theorem reachLane_eq (kind : AccKind) (hostOk : Bool) (off : BitVec 12) (size : Nat) (hl : s.lane k = some l) :
    reachLane kind hostOk off size s k (l.ops i) =
      match s.access k l kind hostOk (address (l.operand i 0) off) size with
      | (.trap c, s1) => (s1, stopAt (request i k l off none none) (.trap c))
      | (.park, s1) => (s1, .inr (request i k l off none (some (.hold .parked))))
      | (.noLink, s1) => (s1, .inr (request i k l off none none))
      | (.ok key, s1) => (s1, .inr (request i k l off (some key) none)) := by
  unfold reachLane effAddr
  simp only [hl, ops_getD_val]
  rfl

/-- The requests of one line hold the port for one cycle. -/
theorem ported_holdPort {t : State} {r : Reached} (ht : t.iss = s.iss) (hs : size ∣ 64) (ha : r.ea.toNat % size = 0) :
    Ported s t (t.holdPort [r] size s.issueCycle) := by
  unfold Ported State.holdPort
  rw [ht]
  simp [linesOf_aligned hs ha]

-- How a lane alone ends (R152).
variable {reach : State → Nat → List Entry → State × (LOut ⊕ Reached)} {act : State → List Reached → State × List (Nat × LOut)}

theorem readied_of_alone (h : Alone s i k l) : s.readied [k] i = s := readied_of_ready (h.only ▸ h.strand.ready)

/-- A lane that has made no request. -/
theorem runAccess_of_refused {o : LOut} (h : Alone s i k l) (hr : reach s k (l.ops i) = (u, .inl o)) (ha : ∀ v, act v [] = (v, [])) :
    runAccess i size reach act s = (u.conclude k i s.issueCycle s.nextId o).bump.settled.holdPort [] size s.issueCycle := by
  simp [runAccess, together, readied_of_alone h, h.only, laneReach, begin_of_ready h.ready, hr, ha]

/-- A lane that a check stops after its request. -/
theorem runAccess_of_stopped {r : Reached} {o : LOut} (h : Alone s i k l) (hr : reach s k (l.ops i) = (u, .inr r))
    (hs : r.stop = some o) (ha : ∀ v, act v [] = (v, [])) :
    runAccess i size reach act s = (u.conclude k i s.issueCycle s.nextId o).bump.settled.holdPort [r] size s.issueCycle := by
  simp [runAccess, together, readied_of_alone h, h.only, laneReach, begin_of_ready h.ready, hr, hs, ha]

/-- A lane whose access is allowed acts. -/
theorem runAccess_of_request {r : Reached} {o : LOut} (h : Alone s i k l) (hr : reach s k (l.ops i) = (u, .inr r))
    (hs : r.stop = none) (ha : act u [r] = (v, [(k, o)])) :
    runAccess i size reach act s = (v.conclude k i s.issueCycle v.nextId o).bump.settled.holdPort [r] size s.issueCycle := by
  simp [runAccess, together, readied_of_alone h, h.only, laneReach, begin_of_ready h.ready, hr, hs, ha]

/-- The lane completes from the state `v` that its access has made, and its request holds the port. -/
theorem completes_of_request {r : Reached} {vals : List (Word × List Nat)} (h : Alone s i k l)
    (hr : reach s k (l.ops i) = (u, .inr r)) (hs : r.stop = none) (hsize : size ∣ 64) (hea : r.ea.toNat % size = 0)
    (ha : act u [r] = (v, [(k, .go vals)])) (hiss : v.iss = s.iss) (hbad : v.bad = s.bad) (hl : v.lane k = some m) :
    ∃ t0 t, finish (runAccess i size reach act s) = .next t ∧ Ported s t0 t ∧ Completes s v t0 i k vals none := by
  obtain ⟨d, n, hd⟩ := retire_of_lane (i := i) s.issueCycle vals none hl
  have hsettled : (v.conclude k i s.issueCycle v.nextId (.go vals)).bump.settled =
      ({ v with free := n }.setLane k (m.after i s.issueCycle d vals none)).bump := by
    simp only [State.conclude, hd]
    exact settled_of_prompt (by rw [State.bump_iss, State.setLane_iss]; exact hiss ▸ h.sound.late)
  refine ⟨_, _, ?_, ported_holdPort (t := ({ v with free := n }.setLane k (m.after i s.issueCycle d vals none)).bump)
    hiss hsize hea, m, d, n, hl, rfl⟩
  rw [runAccess_of_request h hr hs ha, hsettled]
  exact finish_of_sound (hbad.trans h.sound.bad)

/-- An access that is allowed: the lane completes from the state `v` that it makes of the one after the checks. -/
theorem completes_of_access {vals : List (Word × List Nat)} (h : Alone s i k l)
    (hacc : s.access k l kind hostOk (address (l.operand i 0) off) size = (.ok key, s1)) (hsize : size ∣ 64)
    (ha : act s1 [request i k l off (some key) none] = (v, [(k, .go vals)])) (hiss : v.iss = s1.iss) (hbad : v.bad = s1.bad)
    (hl : v.lane k = some m) :
    ∃ t0 t, finish (runAccess i size (reachLane kind hostOk off size) act s) = .next t ∧ Ported s t0 t ∧
      Completes s v t0 i k vals none := by
  have htr := access_translated hacc
  exact completes_of_request h (by rw [reachLane_eq kind hostOk off size h.here, hacc]) rfl hsize (access_aligned hacc (by simp)) ha
    (hiss.trans (translated_iss htr)) (hbad.trans (translated_bad htr)) hl

-- What is left of the state from which a lane has completed its access.
section ported
variable {t0 t : State} {vals : List (Word × List Nat)} {pc : Option Word} (hp : Ported s t0 t) (hc : Completes s u t0 i k vals pc)
include hp
theorem ported_lane (j : Nat) : t.lane j = t0.lane j := by subst hp; rfl
theorem ported_mem : t.mem = t0.mem := by subst hp; rfl
include hc
theorem accessed_mem : t.mem = u.mem := (ported_mem hp).trans (completes_mem hc)
theorem accessed_lane_ne {j : Nat} (hj : j ≠ k) : t.lane j = u.lane j := (ported_lane hp j).trans (completes_lane_ne hc hj)
theorem accessed_tasks : t.tasks = u.tasks := by
  obtain ⟨m, d, n, -, rfl⟩ := hc
  subst hp; rfl
theorem accessed_waves : t.waves = u.waves := by
  obtain ⟨m, d, n, -, rfl⟩ := hc
  subst hp; rfl
end ported

end Sys2Proof.Accesses
end

section
/-! PROOFS. Loads, stores and atomics as the statements list them: what `exec` runs for each, and the values (R47, R150, R154, R161). -/

namespace Sys2Proof.Accesses

open Sys2Proof Sys2Proof.Machine Sys2Proof.Claims

variable {i : Instr} {s : State} {l : Lane}

-- Little-endian bytes (R38).
theorem leNat_lt (b : List Byte) : leNat b < 2 ^ (8 * b.length) := by
  induction b with
  | nil => decide
  | cons x r ih =>
    have hx := x.isLt
    rw [leNat, List.length_cons, Nat.mul_succ, Nat.pow_add]
    omega

theorem leBytes_length (n x : Nat) : (leBytes n x).length = n := by
  induction n generalizing x with
  | zero => rfl
  | succ n ih => rw [leBytes, List.length_cons, ih]

/-- The bytes of a number are those of its low bits. -/
theorem leBytes_mod (n x : Nat) : leBytes n (x % 2 ^ (8 * n)) = leBytes n x := by
  induction n generalizing x with
  | zero => rfl
  | succ n ih =>
    have hpow : 2 ^ (8 * (n + 1)) = 256 * 2 ^ (8 * n) := by rw [Nat.mul_succ, Nat.pow_add, Nat.mul_comm]
    have hbyte : BitVec.ofNat 8 (x % 2 ^ (8 * (n + 1))) = BitVec.ofNat 8 x := by
      apply BitVec.eq_of_toNat_eq
      rw [BitVec.toNat_ofNat, BitVec.toNat_ofNat, hpow]
      exact Nat.mod_mul_right_mod x 256 _
    rw [leBytes, leBytes, hbyte, hpow, Nat.mod_mul_right_div_self, ih]

-- Signed numbers (R18).
theorem sgn_toNat {w : Nat} (b : BitVec w) : sgn w b.toNat = b.toInt := by
  rw [BitVec.toInt_eq_msb_cond, BitVec.msb_eq_getLsbD_last]
  rfl

theorem sextNat_eq (w x : Nat) : sextNat w x = BitVec.ofInt 64 (sgn w x) := by
  unfold sextNat sgn
  split
  · rfl
  · rw [BitVec.ofInt_natCast]

theorem sextNat_leNat {n : Nat} {b : List Byte} (hb : b.length = n) (hn : n ≤ 8) :
    sextNat (8 * n) (leNat b) = signedWord n b := by
  have hlt := leNat_lt b
  have hnat : ((BitVec.ofNat 64 (leNat b)).setWidth (8 * n)).toNat = leNat b := by
    rw [BitVec.toNat_setWidth, BitVec.toNat_ofNat, Nat.mod_mod_of_dvd _ (Nat.pow_dvd_pow 2 (by omega)),
      Nat.mod_eq_of_lt (hb ▸ hlt)]
  rw [sextNat_eq, signedWord, BitVec.signExtend, ← sgn_toNat, hnat]

-- Loads (R154).
/-- What the model runs for a load, and that its results are those of the form. -/
structure RunsLoad (i : Instr) (f : LoadForm) (res : Lane → List Byte → List Word) : Prop where
  run : ∀ s, exec i s = runLoad i f.size f.off f.strong f.acq res s
  push : ∀ l b, b.length = f.size → res l b = f.push l b
  size : f.size ∣ 64

theorem runsLoad_of_loadForm {f : LoadForm} (hf : loadForm i = some f) : ∃ res, RunsLoad i f res := by
  have signed : ∀ {n : Nat} {b : List Byte}, n ≤ 8 → b.length = n → [sextNat (8 * n) (leNat b)] = [signedWord n b] :=
    fun hn hb => by rw [sextNat_leNat hb hn]
  unfold loadForm at hf
  split at hf <;> cases hf
  -- the five forms that extend a sign
  case h_1 | h_3 | h_5 | h_10 | h_13 => exact ⟨_, fun _ => rfl, fun _ _ => signed (by dsimp only; decide), by dsimp only; decide⟩
  all_goals exact ⟨_, fun _ => rfl, fun _ _ _ => rfl, by dsimp only; decide⟩

-- Stores (R154).
/-- What the model runs for a store, and that its bytes are those of the form. -/
structure RunsStore (i : Instr) (f : StoreForm) (size : Nat) (bytes : List Entry → List Byte) : Prop where
  run : ∀ s, exec i s = runStore i size f.off f.strong bytes s
  bytes : ∀ l : Lane, bytes (l.ops i) = f.bytes (l.operand i)
  length : ∀ l : Lane, (f.bytes (l.operand i)).length = size
  size : size ∣ 64

theorem lowBytes_ops (n : Nat) (l : Lane) (i : Instr) : lowBytes n (l.ops i) = leBytes n (l.operand i 1).toNat := by
  rw [lowBytes, ops_getD_val]

theorem runsStore_of_storeForm {f : StoreForm} (hf : storeForm i = some f) : ∃ size bytes, RunsStore i f size bytes := by
  unfold storeForm at hf
  split at hf <;> cases hf
  case h_5 =>
    refine ⟨16, _, fun _ => rfl, fun l => ?_, fun l => ?_, by decide⟩
    · simp only [ops_getD_val]
    · rw [List.length_append, leBytes_length, leBytes_length]
  case h_6 wt _ =>
    cases wt
    · exact ⟨4, _, fun _ => rfl, fun l => lowBytes_ops .., fun l => leBytes_length .., by decide⟩
    · exact ⟨8, _, fun _ => rfl, fun l => lowBytes_ops .., fun l => leBytes_length .., by decide⟩
  case h_7 wt _ =>
    cases wt
    · exact ⟨4, _, fun _ => rfl, fun l => lowBytes_ops .., fun l => leBytes_length .., by decide⟩
    · exact ⟨8, _, fun _ => rfl, fun l => lowBytes_ops .., fun l => leBytes_length .., by decide⟩
  all_goals exact ⟨_, _, fun _ => rfl, fun l => lowBytes_ops .., fun l => leBytes_length .., by decide⟩

-- Atomics (R160 to R165).
/-- What the model runs for an atomic. -/
structure RunsAtomic (i : Instr) (f : AtomForm) : Prop where
  run : ∀ s, exec i s = finish (runAccess i f.size (reachLane .atomic (hostDoes f.op) f.off f.size)
    (eachLane (atomLane f.op f.ord f.sc f.size f.red)) s)
  size : f.size ∣ 64

theorem runsAtomic_of_atomForm {f : AtomForm} (hf : atomForm i = some f) : RunsAtomic i f := by
  have width : ∀ wt, widthOf wt ∣ 64 := fun wt => by cases wt <;> decide
  unfold atomForm at hf
  split at hf <;> cases hf
  -- the float operations, which have one width
  case h_10 | h_11 | h_12 | h_22 | h_23 | h_24 => exact ⟨fun _ => rfl, by dsimp only; decide⟩
  all_goals exact ⟨fun _ => rfl, width _⟩

end Sys2Proof.Accesses
end

section
/-! PROOFS. Loads: the point at which a load is satisfied, its read, its watch and the boundary of an acquire (R154 to R156, R166). -/

namespace Sys2Proof.Accesses

open Sys2Proof Sys2Proof.Machine Sys2Proof.Claims Sys2Proof.Numbers

variable {s s1 : State} {i : Instr} {k key : Nat} {l : Lane}

/-- A strong load is satisfied now, or at a point since the lane's last boundary (R292, R294). -/
theorem moment_spec (s : State) (k : Nat) (sc : Scope) (acq : Bool) (lo a n : Nat) :
    ((s.moment k sc acq lo a n).1 = s.nextId ∨ lo ≤ (s.moment k sc acq lo a n).1) ∧
      ∃ m, (s.moment k sc acq lo a n).2 = { s with free := m } := by
  unfold State.moment
  dsimp only
  generalize hids : List.map _ _ ++ _ = ids
  have hmem : ∀ x, x ∈ ids → lo ≤ x := by
    intro x hx
    rw [← hids, List.mem_append] at hx
    rcases hx with hx | hx
    · obtain ⟨w, hw, rfl⟩ := List.mem_map.1 hx
      have := (List.mem_filter.1 hw).2
      simp only [Bool.and_eq_true, decide_eq_true_eq] at this
      exact this.1.1
    · split at hx
      · obtain ⟨r, hr, rfl⟩ := List.mem_map.1 hx
        have := (List.mem_filter.1 hr).2
        simp only [Bool.and_eq_true, decide_eq_true_eq] at this
        exact this.1.1
      · exact absurd hx List.not_mem_nil
  refine ⟨?_, choose_free ..⟩
  split
  · exact .inl rfl
  · rw [List.getD_eq_getElem?_getD]
    cases hx : ids[(choose s (ids.length + 1)).1 - 1]? with
    | none => exact .inl rfl
    | some x => exact .inr (hmem x (List.mem_of_getElem? hx))

/-- The point at which a load with these writes read has been satisfied: a plain one now, a strong one after what it has read (R287). -/
def satisfiedAt (strong : Option Scope) (now m : Nat) (ids : List Nat) : Nat :=
  if strong.isNone then now else (ids.map (· + 1)).foldl Nat.max m

/-- A lane alone loads for itself: what it must see is what the statements name, and only what it has seen changes. -/
theorem loadOnce_alone {r : Reached} (hl : s.lane k = some l) (hr : r.lane = k) (he : keyExists key) (deps : List Nat)
    (strong : Option Scope) (acq : Bool) (size : Nat) :
    ∃ n m n' v, (m = s.nextId ∨ l.ord ≤ m) ∧
      v = (({ s with free := n } : State).laneReadAt k deps [] (mustSee s k strong m) key size).1 ∧
      s.loadOnce [r] k deps strong acq key size = (v, satisfiedAt strong s.nextId m v.ids,
        { s with free := n' }.setLane k { l with seen := seenUpdate key v.ids l.seen }) := by
  have hfloor : s.mateFloor [r] k key = [] := by simp [State.mateFloor, hr]
  have hord : s.mateOrd [r] k key = l.ord := by simp [State.mateOrd, hr, hl]
  cases strong with
  | none =>
    have hmust : mustSee s k none s.nextId = fun w => w.who / 32 == s.who k / 32 := by
      funext w; simp [mustSee]
    obtain ⟨n', hread⟩ := laneReadAt_spec deps [] (mustSee s k none s.nextId) size hl he
    refine ⟨s.free, s.nextId, n', _, .inl rfl, rfl, ?_⟩
    unfold State.loadOnce
    dsimp only
    rw [hfloor, ← hmust, hread]
    rfl
  | some sc =>
    obtain ⟨hm, n, hs0⟩ := moment_spec s k sc acq l.ord key size
    generalize hmom : (s.moment k sc acq l.ord key size).1 = m at hm
    have hmust : mustSee s k (some sc) m = fun w => w.who / 32 == s.who k / 32 || strongBefore sc (sliceOf k) m w := rfl
    obtain ⟨n', hread⟩ := laneReadAt_spec (s := { s with free := n }) deps [] (mustSee s k (some sc) m) size hl he
    refine ⟨n, m, n', _, hm, rfl, ?_⟩
    unfold State.loadOnce
    dsimp only
    rw [hfloor, hord, hmom, hs0, ← hmust, hread]
    rfl

/-- What a load makes of its lane: what it has seen, the watch on its line, and the boundary of an acquire (R154, R166, R287). -/
def loaded (s : State) (k key p : Nat) (strong : Option Scope) (acq : Bool) (ids : List Nat) (l : Lane) : Lane :=
  match strong, acq with
  | some sc, true => { l with
      seen := seenUpdate key ids l.seen, watch := some (lineOf key, p)
      view := boundaryView (s.rels.filter (fun r => r.id < p)) (sliceOf k) sc l.view, ord := p }
  | _, _ => { l with seen := seenUpdate key ids l.seen, watch := some (lineOf key, p) }

theorem loaded_of_rels (h : s1.rels = s.rels) : loaded s1 = loaded s := by
  unfold loaded
  rw [h]

/-- The loads of a strand of one lane. -/
theorem loadAll_alone {r : Reached} {v : Seen} {p n size : Nat} {strong : Option Scope} {acq : Bool} {res : Lane → List Byte → List Word}
    (hl : s.lane k = some l) (hr : r.lane = k) (hkey : r.key = some key)
    (h : s.loadOnce [r] k (r.ops.getD 0 {}).deps strong acq key size =
      (v, p, { s with free := n }.setLane k { l with seen := seenUpdate key v.ids l.seen })) :
    loadAll size strong acq res [r] s [] [r] = ({ s with free := n }.setLane k (loaded s k key p strong acq v.ids l),
      [(k, .go ((res l v.bytes).map (fun x => (x, (v.rels ++ (r.ops.getD 0 {}).deps).dedup))))]) := by
  subst hr
  have hwatch : (({ s with free := n } : State).setLane r.lane { l with seen := seenUpdate key v.ids l.seen }).watchFrom r.lane key p =
      { s with free := n }.setLane r.lane { l with seen := seenUpdate key v.ids l.seen, watch := some (lineOf key, p) } := by
    rw [State.watchFrom, modLane_of _ (lane_setLane_self ..), setLane_setLane]
  simp only [loadAll, hkey, hl, List.find?_nil, h, hwatch]
  match strong, acq with
  | none, _ => rfl
  | some _, false => rfl
  | some _, true =>
    dsimp only
    rw [State.boundaryAt, modLane_of _ (lane_setLane_self ..), setLane_setLane]
    rfl

/-- Settles O24: the checks leave the lane and the location order as they are, and the lane alone reads for itself. -/
theorem loadsComplete : Obligations.LoadsComplete := by
  intro i f s s1 k key l hf h hacc he
  have htr := access_translated hacc
  have hl1 : s1.lane k = some l := (translated_lane htr k).trans h.here
  have hmem : s1.mem = s.mem := translated_mem htr
  obtain ⟨res, hruns⟩ := runsLoad_of_loadForm hf
  obtain ⟨n, m, n', v, hm, hv, honce⟩ := loadOnce_alone (r := request i k l f.off (some key) none) hl1 rfl he
    ((l.ops i).getD 0 {}).deps f.strong f.acq f.size
  have hmust : mustSee s1 k f.strong m = mustSee s k f.strong m := by
    funext w; simp only [mustSee, translated_who htr]
  have hlen : v.bytes.length = f.size := by rw [hv]; exact laneReadAt_length _ _ _ _ _ hl1
  obtain ⟨t0, t, hexec, hported, hdone⟩ := completes_of_access h hacc hruns.size
    (act := fun s rs => loadAll f.size f.strong f.acq res rs s [] rs) (loadAll_alone hl1 rfl rfl honce) rfl rfl (lane_setLane_self ..)
  rw [hruns.push l _ hlen] at hdone
  rw [translated_nextId htr] at hm
  refine ⟨n, m, satisfiedAt f.strong s1.nextId m v.ids, v, _, t0, t, hm, hmust ▸ hv, ?_, (hruns.run s).trans hexec, hported, hdone, rfl,
    fun j hj => (lane_setLane_ne _ _ hj).trans (translated_lane htr j), ?_, fun a => ?_, fun hu => ?_⟩
  · rw [translated_nextId htr]; rfl
  · rw [lane_setLane_self, loaded_of_rels (translated_rels htr)]
    rfl
  · rw [State.byte, accessed_mem hported hdone]
    exact congrArg (peek · a) hmem
  · have hu1 : Uncontested ({ s1 with free := n } : State) key f.size := fun w hw => hu w (translated_log htr ▸ hw)
    rw [hv, laneReadAt_uncontested _ _ _ (by exact hl1) he hu1]
    exact congrArg (peeks · key f.size) hmem

end Sys2Proof.Accesses
end

section
/-! PROOFS. Stores: what a write by a lane alone changes, and what it leaves (R154 to R156, R286, R288). -/

namespace Sys2Proof.Accesses

open Sys2Proof Sys2Proof.Machine Sys2Proof.Claims Sys2Proof.Numbers

variable {s t u : State} {i : Instr} {k key : Nat} {l : Lane} {b c : Memory}

/-- A read, a write, a release or a boundary of lane k: only memory, the location order, releases, the lane itself and the count of free
choices differ. -/
structure Acted (k : Nat) (b : Memory) (s t : State) : Prop where
  same : t = { s with mem := b, log := t.log, rels := t.rels, nextId := t.nextId, lanes := t.lanes, free := t.free }
  here : ∃ m, t.lane k = some m
  others : ∀ j, j ≠ k → t.lane j = s.lane j

section acted
variable (h : Acted k b s t)
include h
theorem Acted.mem : t.mem = b := by rw [h.same]
theorem Acted.iss : t.iss = s.iss := by rw [h.same]
theorem Acted.bad : t.bad = s.bad := by rw [h.same]
theorem Acted.tasks : t.tasks = s.tasks := by rw [h.same]
theorem Acted.waves : t.waves = s.waves := by rw [h.same]
theorem Acted.quiet (hq : Quiet s k) : Quiet t k :=
  quiet_of_banks hq h.waves fun n => by simp only [State.task, h.tasks]
theorem Acted.trans (g : Acted k c t u) : Acted k c s u where
  same := by rw [g.same, h.same]
  here := g.here
  others := fun j hj => (g.others j hj).trans (h.others j hj)
end acted

theorem acted_setLane (s : State) (k : Nat) (m : Lane) : Acted k s.mem s (s.setLane k m) where
  same := rfl
  here := ⟨m, lane_setLane_self ..⟩
  others := fun _ hj => lane_setLane_ne _ _ hj

theorem acted_boundary (sc : Scope) (hl : s.lane k = some l) : Acted k s.mem s (s.boundary k sc) := by
  rw [boundary_of sc hl]
  exact acted_setLane ..

theorem acted_setWatch (key : Nat) (hl : s.lane k = some l) : Acted k s.mem s (s.setWatch k key) := by
  rw [State.setWatch, State.watchFrom, modLane_of _ hl]
  exact acted_setLane ..

theorem acted_addRel (x : Nat) (sc : Scope) (v : Map Nat) (hl : s.lane k = some l) : Acted k s.mem s (s.addRel x sc v) :=
  ⟨rfl, ⟨l, hl⟩, fun _ _ => rfl⟩

theorem acted_release (sc : Scope) (hq : Quiet s k) (hl : s.lane k = some l) : Acted k s.mem s (s.release k sc) := by
  rw [release_of_quiet sc hq hl]
  exact acted_addRel _ _ _ hl

theorem acted_laneWrite (bs : List Byte) (strong : Option Scope) (rel : Option Nat) (point : Nat) (hl : s.lane k = some l)
    (he : keyExists key) : Acted k (pokes s.mem key bs) s (s.laneWrite k key bs strong rel point) := by
  rw [laneWrite_spec bs strong rel point hl he]
  exact ⟨rfl, ⟨_, lane_setLane_self ..⟩, fun _ hj => lane_setLane_ne _ _ hj⟩

theorem acted_strongWrite (bs : List Byte) (sc : Scope) (rel : Bool) (point : Nat) (hq : Quiet s k) (hl : s.lane k = some l)
    (he : keyExists key) : Acted k (pokes s.mem key bs) s (s.strongWrite k key bs sc rel point) := by
  unfold State.strongWrite
  cases rel with
  | false => exact acted_laneWrite bs (some sc) none point hl he
  | true =>
    simp only [if_true, flushBanks_of_quiet hq]
    have hrel := acted_release sc hq hl
    obtain ⟨m, hm⟩ := hrel.here
    have hwrite := acted_laneWrite bs (some sc) (some s.nextId) point hm he
    rw [hrel.mem] at hwrite
    obtain ⟨n, hn⟩ := hwrite.here
    have hpub := acted_addRel (sliceOf k) sc (viewRange key (s.release k sc).nextId bs.length []) hn
    rw [hwrite.mem] at hpub
    exact (hrel.trans hwrite).trans hpub

/-- A store at its place (R156, R286). -/
def stored (s : State) (k key : Nat) (bs : List Byte) (strong : Option (Scope × Bool)) : State :=
  match strong with
  | none => s.laneWrite k key bs none none 0
  | some (sc, rel) => s.strongWrite k key bs sc rel 0

theorem acted_stored (bs : List Byte) (strong : Option (Scope × Bool)) (hq : Quiet s k) (hl : s.lane k = some l) (he : keyExists key) :
    Acted k (pokes s.mem key bs) s (stored s k key bs strong) := by
  match strong with
  | none => exact acted_laneWrite bs none none 0 hl he
  | some (sc, rel) => exact acted_strongWrite bs sc rel 0 hq hl he

theorem storeLane_request (strong : Option (Scope × Bool)) (bytes : List Entry → List Byte) (s : State) (off : BitVec 12) :
    storeLane strong bytes s (request i k l off (some key) none) = (stored s k key (bytes (l.ops i)) strong, .go []) := by
  match strong with
  | none => rfl
  | some (_, _) => rfl

/-- Bytes that were written are read back. -/
theorem peeks_pokes (m : Memory) (a : Nat) (bs : List Byte) : peeks (pokes m a bs) a bs.length = bs := by
  rw [← map_peek_range]
  refine List.ext_getElem (by simp) fun j _ hj => ?_
  simp [peek_pokes_inside m a bs j hj, List.getD_eq_getElem?_getD, hj]

/-- Settles O25: the bytes of the form are written at the place that the access has reached. -/
theorem storesComplete : Obligations.StoresComplete := by
  intro i f s s1 k key l bs hf h hq hbs hacc he
  have htr := access_translated hacc
  obtain ⟨size, bytes, hruns⟩ := runsStore_of_storeForm hf
  have hsize : bs.length = size := hbs ▸ hruns.length l
  have hops : bytes (l.ops i) = bs := (hruns.bytes l).trans hbs.symm
  have hact := acted_stored bs f.strong (translated_quiet htr hq) ((translated_lane htr k).trans h.here) he
  rw [translated_mem htr] at hact
  rw [hsize] at hacc
  obtain ⟨m, hm⟩ := hact.here
  obtain ⟨t0, t, hexec, hported, hdone⟩ := completes_of_access h hacc hruns.size (act := eachLane (storeLane f.strong bytes))
    (by simp only [eachLane, storeLane_request, hops]; rfl) hact.iss hact.bad hm
  have hmem : t.mem = pokes s.mem key bs := (accessed_mem hported hdone).trans hact.mem
  refine ⟨t0, t, (hruns.run s).trans hexec, hported, hdone, ?_, fun a ha => ?_, fun j hj => ?_, ?_, ?_⟩
  · rw [hmem, peeks_pokes]
  · rw [State.byte, hmem, peek_pokes_outside _ _ _ _ ha]; rfl
  · exact (accessed_lane_ne hported hdone hj).trans ((hact.others j hj).trans (translated_lane htr j))
  · exact (accessed_tasks hported hdone).trans (hact.tasks.trans (by rw [htr.same]))
  · exact (accessed_waves hported hdone).trans (hact.waves.trans (by rw [htr.same]))

end Sys2Proof.Accesses
end

section
/-! PROOFS. Atomics: the value that an operation stores, and the one read and write of an atomic (R160 to R165). -/

namespace Sys2Proof.Accesses

open Sys2Proof Sys2Proof.Machine Sys2Proof.Claims Sys2Proof.Numbers

variable {s s1 r : State} {i : Instr} {k key : Nat} {l : Lane} {v : Seen} {new new' : Option Nat}

/-- The operations that always store: on the numbers that bit vectors stand for, the model's are those of R161. -/
theorem atomicResult_toNat {op : AOp} (hop : op ≠ .cas) {w : Nat} (old v cmp : BitVec w) :
    (atomicResult op w old v cmp).map (·.toNat) = some (aopVal op w old.toNat v.toNat % 2 ^ w) := by
  have hold := Nat.mod_eq_of_lt old.isLt
  have hv := Nat.mod_eq_of_lt v.isLt
  cases op <;> simp only [atomicResult, aopVal, Option.map_some, Option.some.injEq]
  case add => rw [BitVec.toNat_add, Nat.mod_mod]
  case and => rw [← BitVec.toNat_and, Nat.mod_eq_of_lt (old &&& v).isLt]
  case or => rw [← BitVec.toNat_or, Nat.mod_eq_of_lt (old ||| v).isLt]
  case xor => rw [← BitVec.toNat_xor, Nat.mod_eq_of_lt (old ^^^ v).isLt]
  case minS => simp only [sgn_toNat, BitVec.slt_iff_toInt_lt]; split <;> simp only [hold, hv]
  case maxS => simp only [sgn_toNat, BitVec.slt_iff_toInt_lt]; split <;> simp only [hold, hv]
  case minN =>
    simp only [BitVec.ult_iff_lt, BitVec.lt_def]
    split
    · rw [show Nat.min old.toNat v.toNat = v.toNat from Nat.min_eq_right (by omega), hv]
    · rw [show Nat.min old.toNat v.toNat = old.toNat from Nat.min_eq_left (by omega), hold]
  case maxN =>
    simp only [BitVec.ult_iff_lt, BitVec.lt_def]
    split
    · rw [show Nat.max old.toNat v.toNat = v.toNat from Nat.max_eq_right (by omega), hv]
    · rw [show Nat.max old.toNat v.toNat = old.toNat from Nat.max_eq_left (by omega), hold]
  case xchg => exact hv.symm
  case fadd | fmin | fmax => rw [BitVec.toNat_ofNat]
  case cas => exact absurd rfl hop

theorem tail_getD (l : Lane) (i : Instr) (n : Nat) : (((l.ops i).tail.getD n {}).val) = l.operand i (n + 1) := by
  rw [← ops_getD_val, List.getD_eq_getElem?_getD, List.getD_eq_getElem?_getD, List.getElem?_tail]

/-- The bytes that an atomic stores are those of R161; `cas` compares the old value with the operand for it. -/
theorem atomNew_bytes (op : AOp) (size : Nat) (l : Lane) (i : Instr) {old : Nat} (hold : old < 2 ^ (8 * size)) :
    (atomNew op size (l.ops i).tail old).map (leBytes size) =
      ((atomicResult op (8 * size) (BitVec.ofNat _ old) ((l.operand i 1).setWidth _) ((l.operand i 2).setWidth _)).map
        (·.toNat)).map (leBytes size) := by
  have hmod : (BitVec.ofNat (8 * size) old).toNat = old := by rw [BitVec.toNat_ofNat, Nat.mod_eq_of_lt hold]
  unfold atomNew
  simp only [tail_getD, Nat.zero_add, Nat.reduceAdd]
  by_cases hop : op = .cas
  · subst hop
    have hcmp : (l.operand i 2).toNat % 2 ^ (8 * size) = old ↔
        (l.operand i 2).setWidth (8 * size) = BitVec.ofNat (8 * size) old := by
      rw [← BitVec.toNat_inj, BitVec.toNat_setWidth, hmod]
    simp only [if_true, atomicResult, hcmp]
    split
    · rw [Option.map_some, Option.map_some, Option.map_some, BitVec.toNat_setWidth]
    · rfl
  · rw [if_neg hop, atomicResult_toNat hop, Option.map_some, Option.map_some, leBytes_mod, BitVec.toNat_setWidth, hmod]

/-- Only the bytes of what is stored matter. -/
theorem afterAtomic_of_bytes (f : AtomForm) (h : new.map (leBytes f.size) = new'.map (leBytes f.size)) (k key : Nat) (s : State) :
    afterAtomic f k key new s = afterAtomic f k key new' s := by
  cases new with
  | none => cases new' with
    | none => rfl
    | some y => simp at h
  | some x => cases new' with
    | none => simp at h
    | some y =>
      simp only [Option.map_some, Option.some.injEq] at h
      simp only [afterAtomic, h]

/-- What memory holds after an atomic has stored at its place, or has not (R161). -/
def memAfter (mem : Memory) (key size : Nat) (new : Option Nat) : Memory :=
  match new with
  | some x => pokes mem key (leBytes size x)
  | none => mem

theorem memAfter_outside {mem : Memory} {size a : Nat} (new : Option Nat) (h : a < key ∨ key + size ≤ a) :
    peek (memAfter mem key size new) a = peek mem a := by
  cases new with
  | none => rfl
  | some x => exact peek_pokes_outside _ _ _ _ (by rw [leBytes_length]; exact h)

theorem memAfter_inside (mem : Memory) (key size : Nat) (new : Option Nat) :
    peeks (memAfter mem key size new) key size = match new with
      | some x => leBytes size x
      | none => peeks mem key size := by
  cases new with
  | none => rfl
  | some x =>
    have hback := peeks_pokes mem key (leBytes size x)
    rwa [leBytes_length] at hback

theorem acted_read {must : WriteRec → Bool} {size : Nat} (deps : List Nat) (fl : Map Nat) (hl : s.lane k = some l)
    (he : keyExists key) (h : s.laneReadAt k deps fl must key size = (v, r)) : Acted k s.mem s r := by
  obtain ⟨n, hr⟩ := laneReadAt_spec deps fl must size hl he
  simp only [h] at hr
  subst hr
  exact ⟨rfl, ⟨_, lane_setLane_self ..⟩, fun _ hj => lane_setLane_ne _ _ hj⟩

/-- The write and the ordering of an atomic change memory at its place only. -/
theorem acted_afterAtomic (f : AtomForm) (new : Option Nat) (hq : Quiet s k) (hl : s.lane k = some l) (he : keyExists key) :
    Acted k (memAfter s.mem key f.size new) s (afterAtomic f k key new s) := by
  have hstore : Acted k (memAfter s.mem key f.size new) s (match new with
      | some x => s.strongWrite k key (leBytes f.size x) (scopeAt f.sc key) (releases f.ord) (pointOf f.sc (sliceOf k) key)
      | none => if releases f.ord then s.release k (scopeAt f.sc key) else s) := by
    cases new with
    | some x => exact acted_strongWrite _ _ _ _ hq hl he
    | none =>
      dsimp only [memAfter]
      split
      · exact acted_release _ hq hl
      · exact ⟨rfl, ⟨l, hl⟩, fun _ _ => rfl⟩
  unfold afterAtomic
  by_cases hacq : acquires f.ord = true
  · obtain ⟨m, hm⟩ := hstore.here
    have hb := acted_boundary (scopeAt f.sc key) hm
    rw [hstore.mem] at hb
    rw [if_pos hacq]
    exact hstore.trans hb
  · rw [if_neg hacq]
    exact hstore

/-- What an atomic leaves besides its result: `red` arms no watch (R163, R166). -/
def atomDone (f : AtomForm) (k key : Nat) (new : Option Nat) (s : State) : State :=
  if f.red then afterAtomic f k key new s else (afterAtomic f k key new s).setWatch k key

theorem acted_atomDone (f : AtomForm) (new : Option Nat) (hq : Quiet s k) (hl : s.lane k = some l) (he : keyExists key) :
    Acted k (memAfter s.mem key f.size new) s (atomDone f k key new s) := by
  have hafter := acted_afterAtomic f new hq hl he
  unfold atomDone
  split
  · exact hafter
  · obtain ⟨m, hm⟩ := hafter.here
    have hw := acted_setWatch key hm
    rw [hafter.mem] at hw
    exact hafter.trans hw

/-- What an atomic stores for the bytes that it has read (R161). -/
def newValue (f : AtomForm) (i : Instr) (l : Lane) (v : Seen) : Option Nat :=
  (atomicResult f.op (8 * f.size) (BitVec.ofNat _ (leNat v.bytes)) ((l.operand i 1).setWidth _) ((l.operand i 2).setWidth _)).map
    (·.toNat)

/-- One lane's atomic: its read at the point of its scope, then what it stores for the value read. -/
theorem atomLane_request (f : AtomForm) (off : BitVec 12) (hlen : v.bytes.length = f.size)
    (hread : s.laneReadAt k ((l.ops i).getD 0 {}).deps [] (fun w => w.point == pointOf f.sc (sliceOf k) key) key f.size = (v, r)) :
    atomLane f.op f.ord f.sc f.size f.red s (request i k l off (some key) none) = (atomDone f k key (newValue f i l v) r,
       .go (if f.red then [] else [(BitVec.ofNat 64 (leNat v.bytes), (v.rels ++ ((l.ops i).getD 0 {}).deps).dedup)])) := by
  have hord : ∀ o, relOf o = releases o ∧ acqOf o = acquires o := fun o => by cases o <;> decide
  have hnew := atomNew_bytes f.op f.size l i (hlen ▸ leNat_lt v.bytes)
  simp only [atomLane, request, State.atomicAt, Bool.or_false, hread, (hord f.ord).1, (hord f.ord).2]
  rw [atomDone, newValue, ← afterAtomic_of_bytes f hnew]
  split <;> rfl

/-- Settles O26: the read leaves memory as it is, and the write is that of R161 for the value read. -/
theorem atomicsComplete : Obligations.AtomicsComplete := by
  intro i f s s1 k key l hf h hq hacc he
  have htr := access_translated hacc
  have hruns := runsAtomic_of_atomForm hf
  have hl1 : s1.lane k = some l := (translated_lane htr k).trans h.here
  obtain ⟨v, r, hread⟩ : ∃ v r, s1.laneReadAt k ((l.ops i).getD 0 {}).deps []
      (fun w => w.point == pointOf f.sc (sliceOf k) key) key f.size = (v, r) := ⟨_, _, rfl⟩
  have hlen : v.bytes.length = f.size := by
    rw [← laneReadAt_length ((l.ops i).getD 0 {}).deps [] (fun w => w.point == pointOf f.sc (sliceOf k) key) key f.size hl1, hread]
  have hfirst := acted_read _ _ hl1 he hread
  obtain ⟨m0, hm0⟩ := hfirst.here
  have hact := hfirst.trans (acted_atomDone f (newValue f i l v) (hfirst.quiet (translated_quiet htr hq)) hm0 he)
  rw [hfirst.mem, translated_mem htr] at hact
  obtain ⟨m, hm⟩ := hact.here
  obtain ⟨t0, t, hexec, hported, hdone⟩ := completes_of_access h hacc hruns.size
    (act := eachLane (atomLane f.op f.ord f.sc f.size f.red)) (by simp only [eachLane, atomLane_request f f.off hlen hread]; rfl)
    hact.iss hact.bad hm
  have hmem := (accessed_mem hported hdone).trans hact.mem
  refine ⟨v, r, newValue f i l v, _, t0, t, hread.symm, rfl, rfl, (hruns.run s).trans hexec, hported, hdone, fun a ha => ?_, ?_⟩
  · rw [State.byte, hmem]
    exact memAfter_outside _ ha
  · rw [hmem]
    exact memAfter_inside ..

end Sys2Proof.Accesses
end

section
/-! PROOFS. Accesses that a rule forbids, that park, or that no link carries (R148, R152, R165, R324, R385). -/

namespace Sys2Proof.Accesses

open Sys2Proof Sys2Proof.Machine Sys2Proof.Claims Sys2Proof.Numbers

variable {s s1 : State} {i : Instr} {k size : Nat} {l : Lane} {kind : AccKind} {hostOk : Bool} {off : BitVec 12}
  {act : State → List Reached → State × List (Nat × LOut)}

/-- A data access as the model runs it: lanes that a check has stopped take no part, and one whose access no link carries completes with
nothing. -/
structure RunsAccess (i : Instr) (kind : AccKind) (hostOk : Bool) (off : BitVec 12) (size : Nat)
    (act : State → List Reached → State × List (Nat × LOut)) : Prop where
  run : ∀ s, exec i s = finish (runAccess i size (reachLane kind hostOk off size) act s)
  idle : ∀ s, act s [] = (s, [])
  discarded : ∀ s k l, act s [request i k l off none none] = (s, [(k, .go [])])
  size : size ∣ 64

theorem runsAccess_of_loadForm {f : LoadForm} (hf : loadForm i = some f) : ∃ act, RunsAccess i .read true f.off f.size act := by
  obtain ⟨res, hruns⟩ := runsLoad_of_loadForm hf
  exact ⟨fun s rs => loadAll f.size f.strong f.acq res rs s [] rs, hruns.run, fun _ => rfl, fun _ _ _ => rfl, hruns.size⟩

theorem runsAccess_of_storeForm {f : StoreForm} (hf : storeForm i = some f) (l : Lane) :
    ∃ act, RunsAccess i .write true f.off (f.bytes (l.operand i)).length act := by
  obtain ⟨size, bytes, hruns⟩ := runsStore_of_storeForm hf
  rw [hruns.length l]
  exact ⟨eachLane (storeLane f.strong bytes), hruns.run, fun _ => rfl, fun _ _ _ => rfl, hruns.size⟩

theorem runsAccess_of_atomForm {f : AtomForm} (hf : atomForm i = some f) :
    ∃ act, RunsAccess i .atomic (hostDoes f.op) f.off f.size act := by
  have hruns := runsAtomic_of_atomForm hf
  exact ⟨eachLane (atomLane f.op f.ord f.sc f.size f.red), hruns.run, fun _ => rfl, fun _ _ _ => rfl, hruns.size⟩

/-- The trap of an access: the lane has held the port, unless its address has kept it from making a request. -/
theorem access_traps {c : Cause} (hruns : RunsAccess i kind hostOk off size act) (h : Alone s i k l)
    (hacc : s.access k l kind hostOk (address (l.operand i 0) off) size = (.trap c, s1)) :
    exec i s = finish ((s1.takeTrap k i c).bump.modSlice s.iss.slice (fun x => { x with
      lsu := takePort (x.lsu.filter (x.cycle ≤ ·)) s.issueCycle (if c.group = 6 then 0 else 1) })) := by
  have hiss : (s1.takeTrap k i c).bump.iss = s.iss := (takeTrap_iss ..).trans (translated_iss (access_translated hacc))
  have hsettled : (s1.conclude k i s.issueCycle s.nextId (.trap c)).bump.settled = (s1.takeTrap k i c).bump :=
    settled_of_prompt (hiss ▸ h.sound.late)
  have hreach := reachLane_eq (i := i) kind hostOk off size h.here
  simp only [hacc] at hreach
  rw [hruns.run]
  congr 1
  by_cases hg : c.group = 6
  · simp only [stopAt, if_pos hg] at hreach
    rw [if_pos hg, runAccess_of_refused h hreach hruns.idle, hsettled, State.holdPort, hiss]
    rfl
  · simp only [stopAt, if_neg hg] at hreach
    rw [if_neg hg, runAccess_of_stopped h hreach rfl hruns.idle, hsettled]
    refine ported_holdPort hiss hruns.size (access_aligned hacc fun d hd => ?_)
    cases hd
    exact hg

/-- An access that parks: the lane waits at its instruction, and has held the port. -/
theorem access_parks (hruns : RunsAccess i kind hostOk off size act) (h : Alone s i k l)
    (hacc : s.access k l kind hostOk (address (l.operand i 0) off) size = (.park, s1)) :
    ∃ t0 t, exec i s = .next t ∧ Ported s t0 t ∧ t.mem = s.mem ∧ t.lane k = some { l with
      wait := .parked, during := none, stamp := if l.wait = .none ∨ l.wait = .parked then s.nextId else l.stamp } := by
  have htr := access_translated hacc
  have hiss : (s1.holdLane k i .parked s.nextId).bump.iss = s.iss := (State.modLane_iss ..).trans (translated_iss htr)
  have hreach := reachLane_eq (i := i) kind hostOk off size h.here
  simp only [hacc] at hreach
  have hported : Ported s (s1.holdLane k i .parked s.nextId).bump _ :=
    ported_holdPort (r := request i k l off none (some (.hold .parked))) hiss hruns.size (access_aligned hacc (by simp))
  refine ⟨_, _, ?_, hported, (ported_mem hported).trans ?_, (ported_lane hported k).trans ?_⟩
  · rw [hruns.run, runAccess_of_stopped h hreach rfl hruns.idle]
    have hsettled : (s1.conclude k i s.issueCycle s.nextId (.hold .parked)).bump.settled = (s1.holdLane k i .parked s.nextId).bump :=
      settled_of_prompt (hiss ▸ h.sound.late)
    rw [hsettled]
    exact finish_of_sound ((State.modLane_bad ..).trans ((translated_bad htr).trans h.sound.bad))
  · exact (State.modLane_mem ..).trans (translated_mem htr)
  · show (s1.holdLane k i .parked s.nextId).lane k = _
    rw [State.holdLane, lane_modLane_self, translated_lane htr, h.here]
    simp [Wait.apart, Wait.issued]

/-- An access that no link carries: the lane completes with nothing, and has held the port. -/
theorem access_discarded (hruns : RunsAccess i kind hostOk off size act) (h : Alone s i k l)
    (hacc : s.access k l kind hostOk (address (l.operand i 0) off) size = (.noLink, s1)) :
    ∃ t0 t, exec i s = .next t ∧ Ported s t0 t ∧ Completes s s1 t0 i k [] none := by
  have htr := access_translated hacc
  obtain ⟨t0, t, hexec, hdone⟩ := completes_of_request h (reach := reachLane kind hostOk off size)
    (by rw [reachLane_eq kind hostOk off size h.here, hacc]) rfl hruns.size (access_aligned hacc (by simp)) (hruns.discarded s1 k l)
    (translated_iss htr) (translated_bad htr) ((translated_lane htr k).trans h.here)
  exact ⟨t0, t, (hruns.run s).trans hexec, hdone⟩

/-- Settles O27: loads, stores and atomics end in one way where their access is not allowed. -/
theorem accessesTrapOrPark : Obligations.AccessesTrapOrPark := by
  intro i kind hostOk off size s s1 k l hform h
  obtain ⟨act, hruns⟩ : ∃ act, RunsAccess i kind hostOk off size act := by
    rcases hform with ⟨f, hf, rfl, rfl, rfl, rfl⟩ | ⟨f, hf, rfl, rfl, rfl, rfl⟩ | ⟨f, hf, rfl, rfl, rfl, rfl⟩
    · exact runsAccess_of_loadForm hf
    · exact runsAccess_of_storeForm hf l
    · exact runsAccess_of_atomForm hf
  refine ⟨fun c => access_traps hruns h, fun hacc => ?_, access_discarded hruns h⟩
  obtain ⟨t0, t, hexec, hported, hmem, hlane⟩ := access_parks hruns h hacc
  exact ⟨t0, t, hexec, hported, fun a => congrArg (peek · a) hmem, hlane⟩

end Sys2Proof.Accesses
end

section
/-! PROOFS. `mwait` and the wake of a lane that waits in it (R166 to R168, R180); phases (R157, R286, R287, R300). -/

namespace Sys2Proof.Accesses

open Sys2Proof Sys2Proof.Machine Sys2Proof.Claims Sys2Proof.Numbers

variable {s s1 u : State} {i : Instr} {k key : Nat} {l : Lane} {w : StallS}

theorem reach_translated {kind : AccKind} {hostOk : Bool} {va : Word} {size : Nat} {r : Acc}
    (h : s.reach k l kind hostOk va size = (r, s1)) : Translated s s1 := by
  have := reach_frame s k l kind hostOk va size
  rwa [h] at this

/-- What a lane at `mwait` asks for. -/
def awaited (w : StallS) (k : Nat) (l : Lane) (key : Nat) : Reached :=
  { lane := k, key := some key, ea := l.operand (.mwait w) 0, ops := l.ops (.mwait w) }

theorem reachMwait_ok (hl : s.lane k = some l) (h : s.reach k l .read true (l.operand (.mwait w) 0) 1 = (.ok key, s1)) :
    reachMwait s k (l.ops (.mwait w)) = (s1, .inr (awaited w k l key)) := by
  unfold reachMwait
  simp only [hl, ops_getD_val, h]
  rfl

/-- The line of the watch has not been written since, and no cut is pending (R167, R168, R180). -/
def mustWait (s : State) (k key n : Nat) (l : Lane) : Prop :=
  l.watch = some (lineOf key, n) ∧ s.lineWritten k (lineOf key) n = false ∧ s.cutHere k = false

theorem mwaitLane_passes (hl : s.lane k = some l) (h : ∀ n, ¬ mustWait s k key n l) :
    mwaitLane w s (awaited w k l key) = (s, .go []) := by
  cases hwatch : l.watch with
  | none => simp [mwaitLane, awaited, hl, hwatch]
  | some p =>
    obtain ⟨line, since⟩ := p
    simp only [mwaitLane, awaited, hl, hwatch, Option.bind_some]
    refine if_neg fun hc => ?_
    simp only [Bool.and_eq_true, decide_eq_true_eq, Bool.not_eq_true'] at hc
    obtain ⟨⟨rfl, hwritten⟩, hcut⟩ := hc
    exact h since ⟨hwatch, hwritten, hcut⟩

theorem mwaitLane_waits {n : Nat} (hl : s.lane k = some l) (h : mustWait s k key n l) :
    mwaitLane w s (awaited w k l key) =
      ((s.retire k (.mwait w) s.issueCycle [] none).modLane k (fun l => { l with wait := .mwait (lineOf key) n }), .left) := by
  obtain ⟨hwatch, hwritten, hcut⟩ := h
  simp [mwaitLane, awaited, hl, hwatch, hwritten, hcut]

/-- A lane that waits has completed the instruction and left its strand. -/
theorem exec_mwait_waits {n : Nat} (h : Alone s (.mwait w) k l)
    (hr : s.reach k l .read true (l.operand (.mwait w) 0) 1 = (.ok key, s1)) (hwait : mustWait s1 k key n l) :
    ∃ t0 t d, exec (.mwait w) s = .next t ∧ Ported s t0 t ∧
      t.lane k = some { l.after (.mwait w) s1.issueCycle d [] none with wait := .mwait (lineOf key) n } := by
  have htr := reach_translated hr
  have hl1 : s1.lane k = some l := (translated_lane htr k).trans h.here
  obtain ⟨d, c, hd⟩ := retire_of_lane (i := .mwait w) s1.issueCycle [] none hl1
  have hact := mwaitLane_waits (w := w) hl1 hwait
  rw [hd, modLane_of _ (lane_setLane_self ..), setLane_setLane] at hact
  have hiss := translated_iss htr
  have hsettled := settled_of_prompt (s := (({ s1 with free := c } : State).setLane k
    { l.after (.mwait w) s1.issueCycle d [] none with wait := .mwait (lineOf key) n }).bump) (hiss ▸ h.sound.late)
  have hported := ported_holdPort (r := awaited w k l key) (t := (({ s1 with free := c } : State).setLane k
    { l.after (.mwait w) s1.issueCycle d [] none with wait := .mwait (lineOf key) n }).bump) hiss (one_dvd 64) (Nat.mod_one _)
  refine ⟨_, _, d, ?_, hported, (ported_lane hported k).trans (lane_setLane_self ..)⟩
  rw [exec_mwait, execMwait, runAccess_of_request h (reachMwait_ok h.here hr) rfl (by simp only [eachLane, hact]; rfl)]
  simp only [State.conclude, hsettled]
  exact finish_of_sound ((translated_bad htr).trans h.sound.bad)

theorem exec_mwait_passes (h : Alone s (.mwait w) k l) (hr : s.reach k l .read true (l.operand (.mwait w) 0) 1 = (.ok key, s1))
    (hpass : ∀ n, ¬ mustWait s1 k key n l) :
    ∃ t0 t, exec (.mwait w) s = .next t ∧ Ported s t0 t ∧ Completes s s1 t0 (.mwait w) k [] none := by
  have htr := reach_translated hr
  have hl1 : s1.lane k = some l := (translated_lane htr k).trans h.here
  exact completes_of_request h (reachMwait_ok h.here hr) rfl (one_dvd 64) (Nat.mod_one _)
    (by simp only [eachLane, mwaitLane_passes hl1 hpass]; rfl) (translated_iss htr) (translated_bad htr) hl1

/-- The checks of an access write no line and bring no cut. -/
theorem mustWait_translated {n : Nat} (h : Translated s s1) : mustWait s1 k key n l ↔ mustWait s k key n l := by
  unfold mustWait
  rw [h.same]
  rfl

/-- A wake for a reason that holds. -/
theorem exec_mwaitWake_of {id : LaneId} {why : WakeWhy} {line n : Nat} (hl : s.lane (laneIdKey id) = some l) (hw : l.wait = .mwait line n)
    (hwhy : why = .spurious ∨ (why = .write ∧ s.lineWritten (laneIdKey id) line n = true) ∨
      (why = .cut ∧ s.cutHere (laneIdKey id) = true)) :
    exec (.mwaitWake id why) s = .next (s.setLane (laneIdKey id) { l with wait := .none }) := by
  rw [← modLane_of (fun l => { l with wait := .none }) hl, exec_mwaitWake, execMwaitWake]
  simp only [hl, hw]
  rcases hwhy with rfl | ⟨rfl, h⟩ | ⟨rfl, h⟩
  · rfl
  · simp only [h, if_true]; rfl
  · simp only [h, if_true]; rfl

/-- Settles O31: whether the lane waits is decided by its watch, the writes to its line and the cut at its slice. -/
theorem mwaitCompletes : Obligations.MwaitCompletes := by
  refine fun s _ => ⟨fun w s1 k key l h hr => ?_, fun id why l line n hl hw hwhy => exec_mwaitWake_of hl hw hwhy⟩
  have htr := reach_translated hr
  by_cases hwait : ∃ n, mustWait s k key n l
  · obtain ⟨n, hn⟩ := hwait
    obtain ⟨t0, t, d, hexec, hported, hlane⟩ := exec_mwait_waits h hr ((mustWait_translated htr).2 hn)
    obtain ⟨hwatch, hwritten, hcut⟩ := hn
    refine ⟨t0, t, hexec, hported, fun hpass => ?_, fun n' hwatch' _ _ => ⟨_, hlane, ?_, rfl, after_stk (pc := none) ..⟩⟩
    · rcases hpass n hwatch with h' | h'
      · exact absurd (hwritten.symm.trans h') Bool.false_ne_true
      · exact absurd (hcut.symm.trans h') Bool.false_ne_true
    · obtain rfl : n = n' := by simpa using hwatch.symm.trans hwatch'
      rfl
  · have hpass : ∀ n, ¬ mustWait s k key n l := fun n hn => hwait ⟨n, hn⟩
    obtain ⟨t0, t, hexec, hported, hdone⟩ := exec_mwait_passes h hr fun n hn => hpass n ((mustWait_translated htr).1 hn)
    exact ⟨t0, t, hexec, hported, fun _ => hdone, fun n hwatch hwritten hcut => absurd ⟨hwatch, hwritten, hcut⟩ (hpass n)⟩

-- Phases (R157).
/-- An instruction of a lane alone that releases, bounds or is quiescent completes. -/
theorem exec_of_synced {body : State → Nat → List Entry → State × LOut} (h : Alone s i k l) (hb : body s k (l.ops i) = (u, .go []))
    (hu : Synced s u) : ∃ t, finish (runEach i body s) = .next t ∧ Completes s u t i k [] none := by
  obtain ⟨v, q, o, hl⟩ := hu.lanes k l h.here
  exact exec_of_go h hb ⟨hu.bad.trans h.sound.bad, hu.iss ▸ h.sound.late⟩ hl

theorem synced_addRel (s : State) (x : Nat) (sc : Scope) (v : Map Nat) : Synced s (s.addRel x sc v) := .of_lanes rfl

/-- Settles O29: a release of a thread without bank operations publishes its view; a boundary and a quiescent point follow it. -/
theorem phasesComplete : Obligations.PhasesComplete := by
  intro w sc s k l
  refine ⟨fun h hq => ?_, fun h hq => ?_, fun h => ?_⟩
  · have hopen := (synced_addRel s (sliceOf k) sc l.view).trans (synced_boundary _ k sc)
    have hwide : wideScope sc = decide (sc = .device ∨ sc = .system) := by cases sc <;> decide
    refine exec_of_synced h (by simp only [release_of_quiet sc hq h.here, hwide, decide_eq_true_eq]) ?_
    split
    · exact hopen.trans (synced_quiesce _ k)
    · exact hopen
  · exact exec_of_synced h (by rw [release_of_quiet sc hq h.here]) (synced_addRel ..)
  · have hb : s.boundary k sc = s.modLane k (fun x => { x with view := boundaryView s.rels (sliceOf k) sc l.view, ord := s.nextId }) := by
      rw [boundary_of sc h.here, modLane_of _ h.here]
    exact hb ▸ exec_of_synced h rfl (synced_boundary s k sc)

end Sys2Proof.Accesses
end

section
/-! PROOFS. A fetch from another device that no link reaches (R40, R158, R385). -/

namespace Sys2Proof.Accesses

open Sys2Proof Sys2Proof.Machine Sys2Proof.Claims

variable {s s1 : State} {k key va : Nat} {l : Lane}

/-- A fetch from a place that no link reaches takes INTEGRITY, and brings no halfword (R385). -/
theorem fetchHalf_of_cutOff (hx : s.translate (s.spaceOf k) (sliceOf k) (l.ts.mode == .h) (l.ts.mode == .u) .fetch (va % 2 ^ 56) =
      (.ok key, s1)) (hc : s1.cutOff key = true) :
    s.fetchHalf k l va = (.trap (mkCause 14 1 va (va / 2 ^ 32 % 2 ^ 24)), s1) := by
  have hcause : memCause s1 key 2 va = some (mkCause 14 1 va (va / 2 ^ 32 % 2 ^ 24)) := if_pos hc
  unfold State.fetchHalf
  simp only [hx, Xl.plain, hcause]

/-- H's table: the root entry at 0 points to the page at 0, whose entry 1, at 8, maps a large page of device 1 for reads and
execution (R315, R316). -/
def farTable : Memory := pokes [] 0 (leBytes 8 1 ++ leBytes 8 (2 ^ 56 + 2 ^ 11 + 2 ^ 8 + 2 ^ 3 + 1))
/-- Another agent's write of one byte on device 1. -/
def farWrite : WriteRec :=
  { id := 1, addr := remoteKey 1 0, old := [0], new := [5], slice := 0, who := 0, strong := none, rel := none, point := 0 }
/-- All 18 links are down; an `icinv` has observed the write. -/
def farState : State :=
  { State.reset with
    mem := farTable, vfs := [(0, { exports := [(1, 0, 64)] })], log := [farWrite], linksDown := (List.range 18).map (fun j => (j, ()))
    icinvs := [⟨0, .system, 0, [(remoteKey 1 0, 1)]⟩] }
/-- A thread in H mode. -/
def farLane : Lane := { thx := 0, pc := 2 ^ 29, ts := { mode := .h } }

theorem farState_translate : ∃ s1, farState.translate (farState.spaceOf 0) (sliceOf 0) (farLane.ts.mode == .h) (farLane.ts.mode == .u)
    .fetch (2 ^ 29 % 2 ^ 56) = (.ok (remoteKey 1 0), s1) ∧ s1.cutOff (remoteKey 1 0) = true :=
  ⟨farState, Prod.ext (by decide) rfl, by decide⟩

/-- Refutes O30: in H mode the halfword at 2^29 lies on device 1, which no link reaches, so the fetch traps (R385), though an `icinv`
before it covers it. The statement lacks the premise that a link reaches the place. -/
theorem not_cacheInstructionsComplete : ¬ Obligations.CacheInstructionsComplete := by
  intro h
  obtain ⟨s1, htranslate, hcut⟩ := farState_translate
  obtain ⟨-, hfetch, -⟩ := h 0 .system .l2 0 farState 0 farLane
  obtain ⟨bs, t, y, hhalf, -⟩ := hfetch _ (2 ^ 29) _ s1 farWrite [] [] 0 List.mem_cons_self (by decide) rfl htranslate (by decide) (by decide)
    (by decide) rfl (by decide) (by decide)
  rw [fetchHalf_of_cutOff htranslate hcut] at hhalf
  cases hhalf

end Sys2Proof.Accesses
end

section
/-! PROOFS. `yield` and `prio` (R177, R178, R224, R301): the bank operations that a quiescent point completes, the cut that
stops a lane, and the class of a wave. -/

namespace Sys2Proof.Issue

open Sys2Proof Sys2Proof.Machine Sys2Proof.Claims Sys2Proof.Numbers Sys2Proof.Accesses

variable {s t u : State} {k : Nat} {l : Lane}

-- What bank operations leave as it is (R222 to R224).
section keeps
variable {β : Type} {p : State → β} (hwrite : ∀ s who slice key bs, p (s.writeAs who slice key bs) = p s)
  (hpoison : ∀ s line tag, p (s.setPoison line tag) = p s) (hclean : ∀ s line, p (s.clean line) = p s)

include hwrite hclean in
theorem bankFill_keeps (s : State) (who slice : Nat) (g : Geom) (v : Word) : p (s.bankFill who slice g v) = p s := by
  have hrange : ∀ u key n, p (u.cleanRange key n) = p u := fun u _ _ => foldl_keeps p State.clean hclean _ u
  unfold State.bankFill
  dsimp only
  split
  · rw [hrange, hwrite]
  · rw [hrange]; exact foldl_keeps p _ (fun _ _ => hwrite ..) _ s

include hwrite hpoison

theorem bankCol_keeps (s : State) (who slice : Nat) (g : Geom) (op : TColOp) (v mask : Word) (c : Nat) :
    p (s.bankCol who slice g op v mask c) = p s := by
  refine foldl_keeps p _ (fun u r => ?_) _ s
  dsimp only
  split
  · rfl
  · split
    · rw [hpoison, hwrite]
    · exact hwrite ..

theorem moveBytes_keeps (s : State) (who slice src dst step n : Nat) : p (s.moveBytes who slice src dst step n) = p s := by
  refine foldl_keeps p _ (fun u j => ?_) _ s
  dsimp only
  split
  · rw [hpoison, hwrite]
  · exact hwrite ..

include hclean

/-- A part of the state that the writes of a bank operation leave as it is differs only where the operation leaves its list. -/
theorem bankDone_keeps (s : State) (tn : Nat) (b : BankOp) :
    p (s.bankDone tn b) = p (s.modTask tn (fun t => { t with banks := t.banks.filter (fun x => x.id != b.id) })) := by
  unfold State.bankDone
  dsimp only
  split
  · rfl
  · split
    · exact bankFill_keeps hwrite hclean ..
    · exact bankCol_keeps hwrite hpoison ..
    · split
      · simp only [State.bankMove, moveBytes_keeps hwrite hpoison]
      · rfl

end keeps

theorem writeAs_tasks (s : State) (who slice key : Nat) (bs : List Byte) : (s.writeAs who slice key bs).tasks = s.tasks := by
  unfold State.writeAs
  dsimp only
  split
  · rw [State.modLane_tasks]; rfl
  · rfl

/-- A bank operation that is done leaves its task's list, and changes tasks in nothing else. -/
theorem bankDone_task (s : State) (tn n : Nat) (b : BankOp) : (s.bankDone tn b).task n =
    if n = tn then (s.task tn).map (fun t => { t with banks := t.banks.filter (fun x => x.id != b.id) }) else s.task n := by
  rw [State.task, bankDone_keeps (p := State.tasks) writeAs_tasks (fun _ _ _ => rfl) (fun _ _ => rfl)]
  exact mget_mmod ..

/-- An operation that is still listed after others are done was listed before, and is none of them. -/
theorem foldl_bankDone_banks {tn : Nat} (bs : List BankOp) (s : State) {x : Task}
    (hx : (bs.foldl (fun s b => s.bankDone tn b) s).task tn = some x) {c : BankOp} (hc : c ∈ x.banks) :
    (∃ y, s.task tn = some y ∧ c ∈ y.banks) ∧ ∀ b, b ∈ bs → c.id ≠ b.id := by
  induction bs generalizing s with
  | nil => exact ⟨⟨x, hx, hc⟩, by simp⟩
  | cons b r ih =>
    obtain ⟨⟨y, hy, hcy⟩, hrest⟩ := ih (s.bankDone tn b) hx
    rw [bankDone_task, if_pos rfl, Option.map_eq_some_iff] at hy
    obtain ⟨z, hz, rfl⟩ := hy
    obtain ⟨hcz, hne⟩ := List.mem_filter.1 hcy
    refine ⟨⟨z, hz, hcz⟩, fun d hd => ?_⟩
    rcases List.mem_cons.1 hd with rfl | hd
    · simpa using hne
    · exact hrest d hd

/-- No bank operation of an author is left once its operations are done (R224). -/
theorem flushBanks_banks {tn who : Nat} {x : Task} (hx : (s.flushBanks tn who).task tn = some x) {b : BankOp} (hb : b ∈ x.banks) :
    b.who ≠ who := by
  intro hwho
  unfold State.flushBanks at hx
  split at hx
  · rename_i hnone
    rw [hnone] at hx
    cases hx
  · rename_i y hy
    obtain ⟨⟨z, hz, hbz⟩, hne⟩ := foldl_bankDone_banks _ s hx hb
    obtain rfl : y = z := Option.some.inj (hy.symm.trans hz)
    exact hne b (List.mem_filter.2 ⟨hbz, by simp [hwho]⟩) rfl

-- `yield` (R178, R301).
/-- At trap level 0, tasks after a quiescent point are those after the thread's bank operations (log entry 36). -/
theorem quiesce_tasks (hl : s.lane k = some l) (h0 : l.ts.tlvl = 0) :
    (s.quiesce k).tasks = (s.flushBanks (s.taskNo k) (s.who k)).tasks := by
  simp [State.quiesce, hl, h0, State.boundary]

/-- Where no cut has reached the slice, the quiescent point is all that `yield` does. -/
theorem exec_yield_passes {w : StallS} (h : Alone s (.yield w) k l) (hcut : s.cutHere k = false) :
    ∃ t, exec (.yield w) s = .next t ∧ Completes s (s.quiesce k) t (.yield w) k [] none := by
  rw [exec_yield, execYield]
  exact exec_of_synced h (by simp [hcut]) (synced_quiesce s k)

/-- Without a target of its own, an instruction leaves its lane at the next address. -/
theorem after_pc (l : Lane) (i : Instr) (t d : Nat) (vals : List (Word × List Nat)) :
    (l.after i t d vals none).pc = l.pc + BitVec.ofNat 64 (shapeOf i).len :=
  congrArg Lane.pc (after_rest l i t d vals none)

/-- Where a cut has reached the slice, the lane stops after the `yield`. -/
theorem exec_yield_stops {w : StallS} (h : Alone s (.yield w) k l) (hcut : s.cutHere k = true) :
    ∃ t x, exec (.yield w) s = .next t ∧ t.tasks = (s.quiesce k).tasks ∧ t.lane k = some x ∧ x.wait = .stopped ∧ x.pc = l.pc + 2 := by
  have hquiet := synced_quiesce s k
  obtain ⟨m, hm, hpc⟩ : ∃ m, (s.quiesce k).lane k = some m ∧ m.pc = l.pc := by
    obtain ⟨v, q, o, hl⟩ := hquiet.lanes k l h.here
    exact ⟨_, hl, rfl⟩
  obtain ⟨d, n, hd⟩ := retire_of_lane (i := .yield w) s.issueCycle [] none hm
  have hrun : exec (.yield w) s = .next (({ s.quiesce k with free := n }.setLane k
      { m.after (.yield w) s.issueCycle d [] none with wait := .stopped }).bump) := by
    rw [exec_yield, execYield, runEach_of_alone h]
    simp only [hcut, if_true, State.conclude, hd]
    rw [modLane_of _ (lane_setLane_self ..), setLane_setLane, settled_of_prompt (hquiet.iss ▸ h.sound.late)]
    exact finish_of_sound (hquiet.bad.trans h.sound.bad)
  refine ⟨_, _, hrun, rfl, lane_setLane_self .., rfl, ?_⟩
  rw [← hpc]
  exact after_pc m (.yield w) s.issueCycle d []

/-- Settles O22: the quiescent point completes the thread's bank operations first, and the cut decides whether the lane goes on. -/
theorem yieldCompletes : Obligations.YieldCompletes := by
  intro w s k l h
  have hbanks : ∀ {t : State}, t.tasks = (s.quiesce k).tasks →
      l.ts.tlvl = 0 → ∀ x, t.task (s.taskNo k) = some x → ∀ b, b ∈ x.banks → b.who ≠ s.who k := by
    intro t htasks h0 x hx b hb
    rw [State.task, htasks, quiesce_tasks h.here h0] at hx
    exact flushBanks_banks hx hb
  by_cases hcut : s.cutHere k = true
  · obtain ⟨t, x, hexec, htasks, hlane, hwait, hpc⟩ := exec_yield_stops h hcut
    exact ⟨t, hexec, fun hc => absurd (hcut.symm.trans hc) (by decide), fun _ => ⟨x, hlane, hwait, hpc⟩, hbanks htasks⟩
  · obtain ⟨t, hexec, hdone⟩ := exec_yield_passes h (by simpa using hcut)
    refine ⟨t, hexec, fun _ => hdone, fun hc => absurd hc hcut, hbanks ?_⟩
    obtain ⟨m, d, n, -, rfl⟩ := hdone
    rfl

-- `prio` (R177).
/-- The class that `prio` gives, as the model computes it, is at most the ceiling of the slate in U mode. -/
theorem capped_eq_min (user : Bool) (cap n : Nat) :
    (if user && decide (cap < n) then cap else n) = if user then Nat.min n cap else n := by
  cases user
  · rfl
  · simp only [Bool.true_and, decide_eq_true_eq, if_true]
    split
    · exact (Nat.min_eq_right (by omega)).symm
    · exact (Nat.min_eq_left (by omega)).symm

/-- Settles O23: the elected lane's mode and its task's slate give the class, once for the strand. -/
theorem prioCompletes : Obligations.PrioCompletes := by
  intro w n s e r l x hs hactive hlane htask
  rw [exec_prio, execPrio]
  refine allComplete_of hs hactive hlane ?_ ⟨hs.sound.bad, hs.sound.late⟩ (lanes_of_same hs fun _ _ => rfl)
  have hclass := capped_eq_min (l.ts.mode == .u) x.prio n.toNat
  simp only [hlane, htask, Option.map_some, Option.getD_some]
  rw [hclass]
  simp only [beq_iff_eq]

end Sys2Proof.Issue
end

section
/-! PROOFS. A cut reaches a slice, and its deadline passes (R180 to R182). -/

namespace Sys2Proof.Cuts

open Sys2Proof Sys2Proof.Machine Sys2Proof.Claims Sys2Proof.Numbers

variable {s t u : State} {k j sp slice : Nat} {l : Lane}

-- Lookups.
theorem mem_of_mget {α : Type} {m : Map α} {v : α} (h : mget m k = some v) : (k, v) ∈ m := by
  induction m with
  | nil => cases h
  | cons p r ih =>
    obtain ⟨a, x⟩ := p
    rw [mget] at h
    split at h
    · rename_i e
      obtain rfl := Option.some.inj h
      exact e ▸ List.mem_cons_self
    · exact List.mem_cons_of_mem _ (ih h)

theorem ctx_modCtx (s : State) (c d : Nat) (f : Ctx → Ctx) : (s.modCtx c f).ctx d = if d = c then f (s.ctx c) else s.ctx d :=
  mgetD_mset ..
theorem vf_modVf (s : State) (v x : Nat) (f : Vf → Vf) : (s.modVf v f).vf x = if x = v then f (s.vf v) else s.vf x :=
  mgetD_mset ..
theorem cluster_modCluster (s : State) (c d : Nat) (f : Cluster → Cluster) :
    (s.modCluster c f).cluster d = if d = c then f (s.cluster c) else s.cluster d :=
  mgetD_mset ..
theorem task_setTask (s : State) (n m : Nat) (x : Task) : (s.setTask n x).task m = if m = n then some x else s.task m :=
  mget_mset ..

/-- A change that a second time changes nothing, made in each of some lanes. -/
theorem lane_foldl_modLane {f : Lane → Lane} (hf : ∀ l, f (f l) = f l) (ks : List Nat) (s : State) (j : Nat) :
    (ks.foldl (fun s k => s.modLane k f) s).lane j = if j ∈ ks then (s.lane j).map f else s.lane j := by
  induction ks generalizing s with
  | nil => rfl
  | cons k r ih =>
    have htwice : (f ∘ f) = f := funext hf
    rw [List.foldl_cons, ih, lane_modLane]
    by_cases hk : j = k
    · subst hk
      by_cases hr : j ∈ r <;> simp [hr, htwice]
    · simp [hk]

-- The arrival of a cut (R180).
/-- What the arrival makes of a thread of the context on the slice: a CUT is due, and an `mwait` ends. -/
def cutLane (l : Lane) : Lane := { l with wait := if l.atMwait then .none else l.wait, cutDue := true }

theorem cutLane_of_atMwait (h : l.atMwait = true) : cutLane l = { l with wait := .none, cutDue := true } := by simp [cutLane, h]
theorem cutLane_of_elsewhere (h : l.atMwait = false) : cutLane l = { l with cutDue := true } := by simp [cutLane, h]

theorem cutLane_twice (l : Lane) : cutLane (cutLane l) = cutLane l := by
  cases h : l.atMwait with
  | true => rw [cutLane_of_atMwait h, cutLane_of_elsewhere rfl]
  | false => rw [cutLane_of_elsewhere h, cutLane_of_elsewhere (l := { l with cutDue := true }) h]

/-- The model's two changes of such a thread are one. -/
theorem wake_and_cut (s : State) (k : Nat) :
    (if ((s.lane k).map Lane.atMwait).getD false then s.wakeLane k else s).modLane k (fun l => { l with cutDue := true }) =
      s.modLane k cutLane := by
  cases hl : s.lane k with
  | none => simp [State.modLane, hl]
  | some l =>
    cases h : l.atMwait with
    | true =>
      simp only [Option.map_some, h, Option.getD_some, if_true, State.wakeLane]
      rw [modLane_of _ hl, modLane_of _ (lane_setLane_self ..), setLane_setLane, modLane_of _ hl]
      simp [cutLane, h]
    | false => simp [modLane_of _ hl, cutLane, h]

/-- The threads of a context on a slice. -/
def threadsOn (s : State) (sp slice : Nat) : List Nat :=
  (s.lanes.filter (fun p => sliceOf p.1 == slice && s.spaceOf p.1 == sp)).map (·.1)

theorem mem_threadsOn (h : s.lane k = some l) (hslice : sliceOf k = slice) (hspace : s.spaceOf k = sp) : k ∈ threadsOn s sp slice :=
  List.mem_map.2 ⟨(k, l), List.mem_filter.2 ⟨mem_of_mget h, by simp [hslice, hspace]⟩, rfl⟩

theorem of_mem_threadsOn (h : k ∈ threadsOn s sp slice) : sliceOf k = slice ∧ s.spaceOf k = sp := by
  obtain ⟨p, hp, rfl⟩ := List.mem_map.1 h
  simpa using (List.mem_filter.1 hp).2

/-- The context once its cut has reached the slice: the deadline runs. -/
def arrivedAt (s : State) (sp slice : Nat) : State :=
  s.modCtx sp (fun c => { c with arrived := mset c.arrived slice (s.cycle slice + c.cutdl) })

theorem execCutArrival_of {vf asid : Nat} (hcut : (s.ctx (spaceKey vf asid)).cut = true)
    (hnew : mget (s.ctx (spaceKey vf asid)).arrived slice = none) :
    execCutArrival vf asid slice s = .next ((threadsOn s (spaceKey vf asid) slice).foldl (fun s k => s.modLane k cutLane)
      (arrivedAt s (spaceKey vf asid) slice)) := by
  simp only [execCutArrival, hcut, hnew, wake_and_cut]
  rfl

/-- A cut that reaches a slice sets the deadline, is due in each thread of the context there, and changes no other thread. -/
theorem exec_cutArrival_spec {vf asid : Nat} (hsp : sp = spaceKey vf asid) (hcut : (s.ctx sp).cut = true)
    (hnew : mget (s.ctx sp).arrived slice = none) :
    ∃ t, exec (.cutArrival vf asid slice) s = .next t ∧
      mget (t.ctx sp).arrived slice = some (s.cycle slice + (s.ctx sp).cutdl) ∧
      (∀ k l, s.lane k = some l → sliceOf k = slice → s.spaceOf k = sp → t.lane k = some (cutLane l)) ∧
      (∀ k, sliceOf k ≠ slice ∨ s.spaceOf k ≠ sp → t.lane k = s.lane k) ∧ t.mem = s.mem := by
  subst hsp
  have hlane := lane_foldl_modLane cutLane_twice (threadsOn s (spaceKey vf asid) slice) (arrivedAt s (spaceKey vf asid) slice)
  refine ⟨_, (exec_cutArrival ..).trans (execCutArrival_of hcut hnew), ?_, fun k l hl hslice hspace => ?_, fun k hk => ?_, ?_⟩
  · rw [State.ctx, foldl_keeps State.ctxs _ (fun _ _ => State.modLane_ctxs ..)]
    exact (congrArg (fun c => mget (Ctx.arrived c) slice) ((ctx_modCtx ..).trans (if_pos rfl))).trans (mget_mset_self ..)
  · rw [hlane, if_pos (mem_threadsOn hl hslice hspace)]
    exact congrArg (Option.map cutLane) hl
  · rw [hlane, if_neg]
    · rfl
    · intro hmem
      obtain ⟨hslice, hspace⟩ := of_mem_threadsOn hmem
      exact hk.elim (· hslice) (· hspace)
  · exact foldl_keeps State.mem _ (fun _ _ => State.modLane_mem ..) _ _

-- The deadline (R182).
theorem exec_cutDeadline_passes {vf asid d : Nat} (hsp : sp = spaceKey vf asid) (harrived : mget (s.ctx sp).arrived slice = some d)
    (hd : d ≤ s.cycle slice) :
    ∃ t, exec (.cutDeadline vf asid slice) s = .next t ∧ t.cutOver sp slice = true ∧ t.lanes = s.lanes := by
  subst hsp
  refine ⟨_, ?_, ?_, State.modCtx_lanes s (spaceKey vf asid) (fun c => { c with arrived := mset c.arrived slice 0 })⟩
  · rw [exec_cutDeadline, execCutDeadline]
    simp only [harrived, if_neg (Nat.not_lt.2 hd)]
  · simp [State.cutOver, ctx_modCtx]

theorem exec_cutDeadline_waits {vf asid d : Nat} (hsp : sp = spaceKey vf asid) (harrived : mget (s.ctx sp).arrived slice = some d)
    (hd : s.cycle slice < d) : exec (.cutDeadline vf asid slice) s = .next s := by
  subst hsp
  rw [exec_cutDeadline, execCutDeadline]
  simp only [harrived, if_pos hd]

end Sys2Proof.Cuts
end

section
/-! PROOFS. The save of waves (R182 to R184, R196). -/

namespace Sys2Proof.Cuts

open Sys2Proof Sys2Proof.Machine Sys2Proof.Claims Sys2Proof.Numbers Sys2Proof.Slots Sys2Proof.Control

variable {s t u : State} {k w sp : Nat} {v : Wave} {x : Task}

-- What the settling of cuts leaves of saved records and tasks (R184, R366).
/-- No saved record of any context is lost, and new ones come after them. -/
def Grows (s t : State) : Prop := ∀ c, (s.ctx c).saved <+: (t.ctx c).saved

theorem Grows.refl (s : State) : Grows s s := fun _ => List.prefix_refl _
theorem Grows.trans (h : Grows s t) (g : Grows t u) : Grows s u := fun c => (h c).trans (g c)
theorem Grows.foldl {α : Type} {f : State → α → State} (hf : ∀ s x, Grows s (f s x)) (xs : List α) (s : State) :
    Grows s (xs.foldl f s) := by
  induction xs generalizing s with
  | nil => exact .refl s
  | cons x r ih => exact (hf s x).trans (ih (f s x))
theorem Grows.of_saved (h : ∀ c, (t.ctx c).saved = (s.ctx c).saved) : Grows s t := fun c => by rw [h c]

theorem grows_append (s : State) (sp : Nat) (v : Saved) : Grows s (s.modCtx sp (fun c => { c with saved := c.saved ++ [v] })) := by
  intro c
  rw [ctx_modCtx]
  split
  · rename_i e; subst e; exact List.prefix_append _ _
  · exact List.prefix_refl _

/-- A change of contexts one by one that keeps their saved records. -/
theorem grows_mapCtxs {g : Nat × Ctx → Nat × Ctx} (hkey : ∀ p, (g p).1 = p.1) (hsaved : ∀ p, (g p).2.saved = p.2.saved)
    (h : t.ctxs = s.ctxs.map g) : Grows s t := by
  refine .of_saved fun c => ?_
  rw [State.ctx, State.ctx, h, mgetD, mgetD, mget_map hkey]
  cases mget s.ctxs c with
  | none => rfl
  | some y => exact hsaved (c, y)

theorem saveEngines_grows (s : State) (sp : Nat) : Grows s (s.saveEngines sp) := by
  unfold State.saveEngines
  refine Grows.foldl (fun u p => ?_) _ s
  refine Grows.foldl (fun u v => ?_) _ u
  have hcut : Grows u (u.modSlice p.1 (fun x => x.without v.copies v.gates (v.stages.map (·.1)))) := .of_saved fun _ => rfl
  exact hcut.trans (grows_append _ sp v)

theorem grantTake_grows (s : State) : Grows s s.grantTake := by
  unfold State.grantTake
  split
  · exact .refl s
  · split
    · exact grows_mapCtxs (fun _ => by split <;> rfl) (fun _ => by split <;> rfl) rfl
    · exact .refl s

theorem settleCuts_grows (s : State) : Grows s s.settleCuts := by
  have hengines : Grows s (s.cutsDone.foldl (fun s sp => s.saveEngines sp) s) := Grows.foldl saveEngines_grows _ s
  have hlifted : ∀ {t : State}, t.ctxs = (s.cutsDone.foldl (fun s sp => s.saveEngines sp) s).ctxs.map (fun p =>
      if s.cutsDone.contains p.1 then (p.1, { p.2 with cut := false, arrived := [] }) else p) → Grows s t :=
    fun h => hengines.trans (grows_mapCtxs (fun _ => by split <;> rfl) (fun _ => by split <;> rfl) h)
  unfold State.settleCuts
  dsimp only
  split
  · split
    · exact Grows.trans (hlifted rfl) (grantTake_grows _)
    · exact hlifted rfl
  · exact hlifted rfl

/-- What a save reads of a task. -/
def holdings (x : Task) : Nat × List BankOp := (x.space, x.banks)

theorem grantTake_holdings (s : State) (n : Nat) : (s.grantTake.task n).map holdings = (s.task n).map holdings := by
  unfold State.grantTake
  split
  · rfl
  · split
    · rw [State.task, mget_map (fun _ => by split <;> rfl), Option.map_map, State.task]
      refine congrArg (Option.map · _) (funext fun y => ?_)
      simp only [Function.comp_apply]
      split <;> rfl
    · rfl

theorem saveEngines_tasks (s : State) (sp : Nat) : (s.saveEngines sp).tasks = s.tasks := by
  unfold State.saveEngines
  refine foldl_keeps State.tasks _ (fun u p => ?_) _ s
  refine foldl_keeps State.tasks _ (fun v x => ?_) _ u
  rfl

theorem settleCuts_holdings (s : State) (n : Nat) : (s.settleCuts.task n).map holdings = (s.task n).map holdings := by
  have hengines : (s.cutsDone.foldl (fun s sp => s.saveEngines sp) s).tasks = s.tasks :=
    foldl_keeps State.tasks State.saveEngines saveEngines_tasks _ s
  have hlifted : ∀ {t : State}, t.tasks = (s.cutsDone.foldl (fun s sp => s.saveEngines sp) s).tasks →
      (t.task n).map holdings = (s.task n).map holdings := fun h => by rw [State.task, h, hengines]; rfl
  unfold State.settleCuts
  dsimp only
  split
  · split
    · rw [grantTake_holdings]; exact hlifted rfl
    · exact hlifted rfl
  · exact hlifted rfl

-- The save of one wave (R182, R183).
/-- A release of a thread without bank operations only adds a record of what it publishes. -/
theorem release_adds (hq : Quiet s k) (sc : Scope) : ∃ r n, s.release k sc = { s with rels := r, nextId := n } := by
  cases hl : s.lane k with
  | none => exact ⟨s.rels, s.nextId, by simp only [State.release, flushBanks_of_quiet hq, hl]⟩
  | some l => exact ⟨_, _, release_of_quiet sc hq hl⟩

theorem foldl_release_adds (ks : List Nat) (s : State) (hq : ∀ k, k ∈ ks → Quiet s k) :
    ∃ r n, ks.foldl (fun s k => s.release k .device) s = { s with rels := r, nextId := n } := by
  induction ks generalizing s with
  | nil => exact ⟨s.rels, s.nextId, rfl⟩
  | cons k rest ih =>
    obtain ⟨r, n, h⟩ := release_adds (hq k (by simp)) .device
    rw [List.foldl_cons, h]
    obtain ⟨r', n', h'⟩ := ih { s with rels := r, nextId := n } (fun j hj => hq j (by simp [hj]))
    exact ⟨r', n', h'⟩

/-- A record of a wave: its identity, its task, its slice, and its threads at their PCs. -/
structure Records (s : State) (w : Nat) (v : Wave) (r : Saved) : Prop where
  uid : r.wave.uid = v.uid
  task : r.wave.task = v.task
  slice : r.slice = w / 48
  lanes : r.lanes.map (fun q => (q.1, q.2.thx, q.2.pc)) = (s.waveLanes w).map (fun q => (laneNo q.1, q.2.thx, q.2.pc))

/-- A save takes the wave and its lanes off the device, and its record goes to the context of its task. -/
theorem saveWave_of (hv : s.wave w = some v) (hq : ∀ k, waveOf k = w → Quiet s k) :
    ∃ r n m rec_, Records s w v rec_ ∧ s.saveWave w =
      (({ s with rels := r, nextId := n, slices := m, lanes := s.lanes.filter (fun p => waveOf p.1 != w), waves := mdel s.waves w } :
        State).modCtx (((s.task v.task).map Task.space).getD 0) (fun c => { c with saved := c.saved ++ [rec_] })).settleCuts := by
  obtain ⟨r, n, h⟩ := foldl_release_adds ((s.waveLanes w).map (·.1)) s fun k hk => by
    obtain ⟨p, hp, rfl⟩ := List.mem_map.1 hk
    exact hq p.1 (by simpa using (List.mem_filter.1 hp).2)
  unfold State.saveWave
  simp only [hv, h]
  refine ⟨r, n, _, _, ⟨?_, ?_, ?_, ?_⟩, rfl⟩
  · rfl
  · rfl
  · rfl
  · exact List.map_map

theorem saveWave_of_none (h : s.wave w = none) : s.saveWave w = s := by simp only [State.saveWave, h]

/-- What a save of a wave leaves: the other waves and their lanes, what a save reads of tasks, and every saved record. -/
structure WaveSaved (s t : State) (w : Nat) : Prop where
  bad : t.bad = s.bad
  lanes : t.lanes = s.lanes.filter (fun p => waveOf p.1 != w)
  waves : t.waves = mdel s.waves w
  tasks : ∀ n, (t.task n).map holdings = (s.task n).map holdings
  grows : Grows s t

theorem saveWave_spec (hv : s.wave w = some v) (hq : ∀ k, waveOf k = w → Quiet s k) :
    WaveSaved s (s.saveWave w) w ∧ ∃ r, Records s w v r ∧
      r ∈ ((s.saveWave w).ctx (((s.task v.task).map Task.space).getD 0)).saved := by
  obtain ⟨r, n, m, rec_, hrec, h⟩ := saveWave_of hv hq
  rw [h]
  have hsame := (settleCuts_settled (({ s with
    rels := r, nextId := n, slices := m, lanes := s.lanes.filter (fun p => waveOf p.1 != w), waves := mdel s.waves w } :
      State).modCtx (((s.task v.task).map Task.space).getD 0) (fun c => { c with saved := c.saved ++ [rec_] }))).same
  refine ⟨⟨?_, ?_, ?_, fun n => settleCuts_holdings .., ?_⟩, rec_, hrec, ?_⟩
  · rw [hsame]; rfl
  · rw [hsame]; rfl
  · rw [hsame]; rfl
  · exact (grows_append (sp := _) { s with
      rels := r, nextId := n, slices := m, lanes := s.lanes.filter (fun p => waveOf p.1 != w), waves := mdel s.waves w } _).trans
        (settleCuts_grows _)
  · refine (settleCuts_grows _ _).subset ?_
    rw [ctx_modCtx, if_pos rfl]
    exact List.mem_append_right _ List.mem_cons_self

-- Other waves are as they were.
section others
variable {w' : Nat} (h : WaveSaved s t w)
include h

theorem WaveSaved.wave_self : t.wave w = none := by rw [State.wave, h.waves]; exact mget_mdel_self ..

theorem WaveSaved.wave_ne (hne : w' ≠ w) : t.wave w' = s.wave w' := by rw [State.wave, h.waves]; exact mget_mdel_ne _ hne

theorem WaveSaved.waveLanes_ne (hne : w' ≠ w) : t.waveLanes w' = s.waveLanes w' := by
  rw [State.waveLanes, h.lanes, List.filter_filter]
  refine List.filter_congr fun p _ => ?_
  by_cases hp : waveOf p.1 = w' <;> simp [hp, hne]

theorem WaveSaved.quiet_ne (hq : Quiet s k) (hne : waveOf k ≠ w) : Quiet t k := by
  intro y hy b hb
  have hno : t.taskNo k = s.taskNo k := by simp only [State.taskNo, h.wave_ne hne]
  have hwho : t.who k = s.who k := by simp only [State.who, h.wave_ne hne]
  have htask := h.tasks (s.taskNo k)
  rw [← hno, show t.task (t.taskNo k) = some y from hy, hno] at htask
  obtain ⟨z, hz, hzy⟩ := Option.map_eq_some_iff.1 htask.symm
  have hbanks : z.banks = y.banks := congrArg Prod.snd hzy
  rw [hwho]
  exact hq z hz b (by rw [hbanks]; exact hb)

end others

-- The save of several waves (R196).
/-- What later saves leave: no wave or lane comes back, and no record is lost. -/
structure After (s t : State) : Prop where
  bad : t.bad = s.bad
  lanes : t.lanes ⊆ s.lanes
  waves : ∀ w, s.wave w = none → t.wave w = none
  grows : Grows s t

theorem After.refl (s : State) : After s s := ⟨rfl, fun _ h => h, fun _ h => h, .refl s⟩
theorem After.trans (h : After s t) (g : After t u) : After s u :=
  ⟨g.bad.trans h.bad, fun _ hp => h.lanes (g.lanes hp), fun w hw => g.waves w (h.waves w hw), h.grows.trans g.grows⟩

theorem WaveSaved.after (h : WaveSaved s t w) : After s t where
  bad := h.bad
  lanes := by rw [h.lanes]; exact List.filter_subset_self ..
  waves := fun w' hw => by
    by_cases hne : w' = w
    · rw [hne]; exact h.wave_self
    · rw [h.wave_ne hne]; exact hw
  grows := h.grows

/-- A wave is off the device, and the context has its record. -/
structure Gone (s t : State) (w : Nat) (v : Wave) (sp : Nat) : Prop where
  wave : t.wave w = none
  lanes : ∀ q, q ∈ t.lanes → waveOf q.1 ≠ w
  record : ∃ r, r ∈ (t.ctx sp).saved ∧ Records s w v r

theorem Gone.later (h : Gone s t w v sp) (g : After t u) : Gone s u w v sp where
  wave := g.waves w h.wave
  lanes := fun q hq => h.lanes q (g.lanes hq)
  record := by
    obtain ⟨r, hr, hrec⟩ := h.record
    exact ⟨r, (g.grows sp).subset hr, hrec⟩

theorem saveWave_gone (hv : s.wave w = some v) (hx : s.task v.task = some x) (hq : ∀ k, waveOf k = w → Quiet s k) :
    Gone s (s.saveWave w) w v x.space := by
  obtain ⟨hsaved, r, hrec, hmem⟩ := saveWave_spec hv hq
  refine ⟨hsaved.wave_self, fun q hmem' => ?_, r, by simpa [hx] using hmem, hrec⟩
  rw [hsaved.lanes] at hmem'
  simpa using (List.mem_filter.1 hmem').2

/-- Waves whose threads have no bank operations are saved one after another: each is gone, with its own record. -/
theorem foldl_saveWave (ws : List (Nat × Wave)) (s : State)
    (hq : ∀ p, p ∈ ws → s.wave p.1 ≠ none → ∀ k, waveOf k = p.1 → Quiet s k) :
    After s (ws.foldl (fun s p => s.saveWave p.1) s) ∧ ∀ p, p ∈ ws → ∀ v x, s.wave p.1 = some v → s.task v.task = some x →
      Gone s (ws.foldl (fun s p => s.saveWave p.1) s) p.1 v x.space := by
  induction ws generalizing s with
  | nil => exact ⟨.refl s, by simp⟩
  | cons q r ih =>
    rw [List.foldl_cons]
    cases hw : s.wave q.1 with
    | none =>
      rw [saveWave_of_none hw]
      obtain ⟨hafter, hgone⟩ := ih s fun p hp => hq p (by simp [hp])
      refine ⟨hafter, fun p hp v x hv hx => ?_⟩
      rcases List.mem_cons.1 hp with rfl | hp
      · exact nomatch hw.symm.trans hv
      · exact hgone p hp v x hv hx
    | some v0 =>
      have hquiet := hq q (by simp) (by rw [hw]; exact Option.some_ne_none v0)
      obtain ⟨hsaved, -⟩ := saveWave_spec hw hquiet
      obtain ⟨hafter, hgone⟩ := ih (s.saveWave q.1) fun p hp hlive k hk => by
        have hne : p.1 ≠ q.1 := fun e => hlive (e ▸ hsaved.wave_self)
        rw [hsaved.wave_ne hne] at hlive
        exact hsaved.quiet_ne (hq p (by simp [hp]) hlive k hk) (hk ▸ hne)
      refine ⟨hsaved.after.trans hafter, fun p hp v x hv hx => ?_⟩
      by_cases he : p.1 = q.1
      · rw [he] at hv ⊢
        exact (saveWave_gone hv hx hquiet).later hafter
      · have hp' : p ∈ r := (List.mem_cons.1 hp).resolve_left fun e => he (e ▸ rfl)
        have htask := hsaved.tasks v.task
        rw [hx] at htask
        obtain ⟨y, hy, hyx⟩ := Option.map_eq_some_iff.1 htask
        obtain ⟨hwave, hlanes, rec_, hmem, hrec⟩ := hgone p hp' v y ((hsaved.wave_ne he).trans hv) hy
        rw [show y.space = x.space from congrArg Prod.fst hyx] at hmem
        exact ⟨hwave, hlanes, rec_, hmem, hrec.uid, hrec.task, hrec.slice, by rw [hrec.lanes, hsaved.waveLanes_ne he]⟩

-- Which waves are saved, and that they may be (R182, R196).
theorem mem_savedWith (hv : s.wave w = some v) (hx : s.task v.task = some x) (p : Nat × Wave) :
    p ∈ s.savedWith w v ↔ savedTogether s w v x p := by
  unfold State.savedWith savedTogether
  simp only [hx, Option.map_some, Option.getD_some]
  split
  · rename_i h
    simp [Nat.not_lt.2 h]
  · rename_i h
    simp only [List.mem_filter, beq_iff_eq, Nat.lt_of_not_le h, true_and]
    refine ⟨Or.inr, fun hp => hp.elim (fun e => ?_) id⟩
    subst e
    exact ⟨mem_of_mget hv, rfl⟩

theorem savedTogether_task {p : Nat × Wave} (h : savedTogether s w v x p) : p.2.task = v.task := by
  rcases h with rfl | ⟨-, -, h⟩
  · rfl
  · exact h

theorem maySave_of_ready (hx : s.task v.task = some x) (h : SaveReady s x.space w v) : s.maySave w v = true := by
  unfold State.maySave
  simp only [hx, Option.map_some, Option.getD_some, Bool.and_eq_true, Bool.or_eq_true, List.all_eq_true]
  exact ⟨⟨Option.isSome_iff_ne_none.2 h.reached, h.drained⟩, h.stopped⟩

theorem exec_waveSave_of {slice place : Nat} (hw : w = placeKey slice place) (hplace : place < 48) (hv : s.wave w = some v)
    (hx : s.task v.task = some x) (hready : ∀ p, savedTogether s w v x p → SaveReady s x.space p.1 p.2) :
    exec (.waveSave slice place) s = finish ((s.savedWith w v).foldl (fun s p => s.saveWave p.1) s) := by
  subst hw
  have hall : (s.savedWith (placeKey slice place) v).all (fun p => s.maySave p.1 p.2) = true := by
    rw [List.all_eq_true]
    intro p hp
    have ht := (mem_savedWith hv hx p).1 hp
    exact maySave_of_ready (by rw [savedTogether_task ht]; exact hx) (hready p ht)
  rw [exec_waveSave, execWaveSave]
  simp only [hv, hall]
  rw [if_neg (by simpa using hplace)]

/-- The waves of a gang, or a wave alone, are saved together, each with its own record. -/
theorem exec_waveSave_spec {slice place : Nat} (hbad : s.bad = none) (hw : w = placeKey slice place) (hplace : place < 48)
    (hv : s.wave w = some v) (hx : s.task v.task = some x) (hready : ∀ p, savedTogether s w v x p → SaveReady s x.space p.1 p.2) :
    ∃ t, exec (.waveSave slice place) s = .next t ∧ Grows s t ∧
      ∀ p, savedTogether s w v x p → s.wave p.1 = some p.2 → Gone s t p.1 p.2 x.space := by
  obtain ⟨hafter, hgone⟩ := foldl_saveWave (s.savedWith w v) s fun p hp _ =>
    (hready p ((mem_savedWith hv hx p).1 hp)).quiet
  refine ⟨_, (exec_waveSave_of hw hplace hv hx hready).trans (finish_of_sound (hafter.bad.trans hbad)), hafter.grows,
    fun p hp hwave => hgone p ((mem_savedWith hv hx p).2 hp) p.2 x hwave ?_⟩
  rw [savedTogether_task hp]
  exact hx

end Sys2Proof.Cuts
end

section
/-! PROOFS. The restore of waves (R183, R184, R353): a saved wave is put back where it fits. -/

namespace Sys2Proof.Cuts

open Sys2Proof Sys2Proof.Machine Sys2Proof.Claims Sys2Proof.Numbers

variable {s t u : State} {k j n w sp place slice tn : Nat} {l m : Lane} {v r : Saved} {x : Task}

theorem foldl_fixed_of_mem {α β : Type} {f : β → α → β} {b : β} {xs : List α} (h : ∀ x, x ∈ xs → f b x = b) : xs.foldl f b = b := by
  induction xs with
  | nil => rfl
  | cons x r ih => rw [List.foldl_cons, h x (by simp), ih fun y hy => h y (by simp [hy])]

theorem placeKey_div (slice : Nat) (h : place < 48) : placeKey slice place / 48 = slice := by unfold placeKey; omega

-- Threads that come back (R184).
theorem restoredLane_barOf (h : l.wait.barOf = none) : (s.restoredLane sp slice l).wait.barOf = none := by
  unfold State.restoredLane
  dsimp only
  split
  · rfl
  · exact h

/-- The lanes of a saved wave are put on a wave place one after another. -/
def setLanes (s : State) (sp w : Nat) (ps : Map Lane) : State :=
  ps.foldl (fun s p => s.setLane (w * 32 + p.1) (s.restoredLane sp (w / 48) p.2)) s

theorem setLanes_same (s : State) (sp w : Nat) (ps : Map Lane) : setLanes s sp w ps = { s with lanes := (setLanes s sp w ps).lanes } := by
  induction ps generalizing s with
  | nil => rfl
  | cons p r ih => exact ih (s.setLane (w * 32 + p.1) (s.restoredLane sp (w / 48) p.2))

theorem setLanes_lane_ne (ps : Map Lane) (h : ∀ p, p ∈ ps → k ≠ w * 32 + p.1) : (setLanes s sp w ps).lane k = s.lane k := by
  induction ps generalizing s with
  | nil => rfl
  | cons p r ih =>
    refine (ih fun q hq => h q (by simp [hq])).trans ?_
    exact lane_setLane_ne _ _ (h p (by simp))

theorem setLanes_lane (ps : Map Lane) (hnodup : (ps.map (·.1)).Nodup) {p : Nat × Lane} (hp : p ∈ ps) :
    (setLanes s sp w ps).lane (w * 32 + p.1) = some (s.restoredLane sp (w / 48) p.2) := by
  induction ps generalizing s with
  | nil => cases hp
  | cons q r ih =>
    obtain ⟨hfresh, hnodup⟩ := List.nodup_cons.1 hnodup
    rcases List.mem_cons.1 hp with rfl | hp
    · refine (setLanes_lane_ne r fun q hq he => hfresh ?_).trans (lane_setLane_self ..)
      exact List.mem_map.2 ⟨q, hq, (Nat.add_left_cancel he).symm⟩
    · exact ih (s := s.setLane (w * 32 + q.1) (s.restoredLane sp (w / 48) q.2)) hnodup hp

-- A wave on its place (R183, R353).
/-- A saved wave with its lanes and its engine state on a wave place; its mode areas are still to come. -/
def seated (s : State) (sp w : Nat) (v : Saved) : State :=
  (setLanes ((s.mendAll (softKey (w * 32) 0) (softKey (w * 32 + 32) 0)).setWave w v.wave) sp w v.lanes).putEngines (w / 48) v

/-- The mode areas of a saved wave's lanes are written to their places (R353). -/
def putAreas (s : State) (w : Nat) (v : Saved) : State :=
  v.lanes.foldl (fun s p => (mgetD v.areas p.1 []).foldl (fun s a => s.putArea (w * 32 + p.1) p.2 a) s) s

/-- A wave comes back to its own slice: no fetch has to be bounded, and what is left to do is the departure from phases that
have completed. -/
theorem putBack_home (h : w / 48 = v.slice) : s.putBack sp w v =
    (v.lanes.map (fun p => w * 32 + p.1)).foldl (fun s k => s.departLate k) (putAreas (seated s sp w v) w v) :=
  congrArg (List.foldl _ · _) (if_pos h)

theorem departLate_of (hl : s.lane k = some l) (h : l.wait.barOf = none) : s.departLate k = s := by
  simp only [State.departLate, hl, Option.bind_some, h]

theorem putAreas_of_none (h : v.areas = []) : putAreas s w v = s := by
  refine foldl_fixed_of_mem fun p _ => ?_
  rw [h]
  rfl

theorem seated_lanes (s : State) (sp w : Nat) (v : Saved) : (seated s sp w v).lanes =
    (setLanes ((s.mendAll (softKey (w * 32) 0) (softKey (w * 32 + 32) 0)).setWave w v.wave) sp w v.lanes).lanes := rfl

theorem seated_lane (hnodup : (v.lanes.map (·.1)).Nodup) {p : Nat × Lane} (hp : p ∈ v.lanes) :
    (seated s sp w v).lane (w * 32 + p.1) = some (s.restoredLane sp (w / 48) p.2) := by
  rw [State.lane, seated_lanes]
  exact setLanes_lane v.lanes hnodup hp

theorem seated_lane_ne (h : ∀ p, p ∈ v.lanes → k ≠ w * 32 + p.1) : (seated s sp w v).lane k = s.lane k := by
  rw [State.lane, seated_lanes]
  exact setLanes_lane_ne v.lanes h

/-- Lanes, one wave, the engines of its slice and parity errors are all that the seating of a wave changes. -/
theorem seated_same (s : State) (sp w : Nat) (v : Saved) : seated s sp w v = { s with
    parity := (seated s sp w v).parity, waves := mset s.waves w v.wave, lanes := (seated s sp w v).lanes
    slices := (seated s sp w v).slices } := by
  have h := setLanes_same ((s.mendAll (softKey (w * 32) 0) (softKey (w * 32 + 32) 0)).setWave w v.wave) sp w v.lanes
  unfold seated
  generalize setLanes _ sp w v.lanes = u at h ⊢
  rw [h]
  rfl

theorem seated_slice_ne (h : slice ≠ w / 48) : (seated s sp w v).slice slice = s.slice slice := by
  have hlanes := setLanes_same ((s.mendAll (softKey (w * 32) 0) (softKey (w * 32 + 32) 0)).setWave w v.wave) sp w v.lanes
  rw [seated, State.putEngines, slice_modSlice, if_neg h, hlanes]
  rfl

/-- A saved wave whose lanes wait at no barrier and have no mode areas is whole once it is seated. -/
theorem putBack_seated (h : w / 48 = v.slice) (hnodup : (v.lanes.map (·.1)).Nodup) (hbar : ∀ p, p ∈ v.lanes → p.2.wait.barOf = none)
    (hareas : v.areas = []) : s.putBack sp w v = seated s sp w v := by
  rw [putBack_home h, putAreas_of_none hareas]
  refine foldl_fixed_of_mem fun k hk => ?_
  obtain ⟨p, hp, rfl⟩ := List.mem_map.1 hk
  exact departLate_of (seated_lane hnodup hp) (restoredLane_barOf (hbar p hp))

-- Where a saved wave fits (R184).
/-- A wave that was saved on a member slice of its task fits there, on a wave place. -/
structure Fits (s : State) (x : Task) (place : Nat) (v : Saved) : Prop where
  member : x.members.contains v.slice = true
  low : place < 48
  free : s.wave (placeKey v.slice place) = none
  places : 0 < s.placesFree v.slice
  blocks : v.wave.nlb + v.wave.sb ≤ s.blocksFree v.slice
  engines : (s.slice v.slice).roomFor v = true

theorem restoreAt_of (hsaved : (s.ctx sp).saved[n]? = some v) (hx : s.task v.wave.task = some x) (hrun : s.mayRun sp = true)
    (hfits : Fits s x place v) :
    s.restoreAt sp n v.slice place = some ((s.dropSaved sp n).putBack sp (placeKey v.slice place) v) := by
  have hland : s.mayLand v.wave.task v.slice x v = true := by
    simp [State.mayLand, List.contains_iff_mem.1 hfits.member]
  have hgo : ¬ (48 ≤ place ∨ s.placesFree v.slice = 0 ∨ s.blocksFree v.slice < v.wave.nlb + v.wave.sb) := by
    have := hfits.low; have := hfits.places; have := hfits.blocks
    omega
  unfold State.restoreAt
  simp only [hsaved, hx, hrun, hland, hfits.engines, hfits.member]
  rw [if_neg (by simpa [hfits.free, and_assoc] using hgo)]
  rfl

/-- The context without a record. -/
theorem dropSaved_saved (s : State) (sp n : Nat) : ((s.dropSaved sp n).ctx sp).saved = (s.ctx sp).saved.eraseIdx n := by
  rw [State.dropSaved, ctx_modCtx, if_pos rfl]

end Sys2Proof.Cuts
end

section
/-! PROOFS. A wave alone comes back: without mode areas, and with the area of one trap level (R184, R341, R353). -/

namespace Sys2Proof.Cuts

open Sys2Proof Sys2Proof.Machine Sys2Proof.Claims Sys2Proof.Numbers Sys2Proof.Accesses

variable {s t u : State} {k j n w sp place slice vf asid : Nat} {l m : Lane} {v : Saved} {x : Task} {a : Area}

theorem restore_of_lanes (hsaved : (s.ctx sp).saved[n]? = some v) (hx : s.task v.wave.task = some x) (hrun : s.mayRun sp = true)
    (hfits : Fits s x place v) (hlanes : v.lanes ≠ []) : s.restore sp n v.slice place =
      if x.members.length ≤ 1 then some ((s.dropSaved sp n).putBack sp (placeKey v.slice place) v)
      else ((s.dropSaved sp n).putBack sp (placeKey v.slice place) v).restoreRest sp v.wave.task (s.ctx sp).saved.length := by
  have hsome : v.lanes.isEmpty = false := by simpa using hlanes
  unfold State.restore
  simp only [hsaved, hsome, restoreAt_of hsaved hx hrun hfits, Option.bind_some, hx, Option.map_some, Option.getD_some]
  rfl

theorem exec_waveRestore_alone (hsaved : (s.ctx (spaceKey vf asid)).saved[n]? = some v) (hx : s.task v.wave.task = some x)
    (hone : x.members.length ≤ 1) (hrun : s.mayRun (spaceKey vf asid) = true) (hfits : Fits s x place v) (hlanes : v.lanes ≠ []) :
    exec (.waveRestore vf asid n v.slice place) s =
      finish ((s.dropSaved (spaceKey vf asid) n).putBack (spaceKey vf asid) (placeKey v.slice place) v) := by
  rw [exec_waveRestore, execWaveRestore, restore_of_lanes hsaved hx hrun hfits hlanes, if_pos hone]

/-- A wave without mode areas is back: its record is gone, and its threads stand where they stood. -/
theorem seated_spec (hnodup : (v.lanes.map (·.1)).Nodup) (n : Nat) :
    (seated (s.dropSaved sp n) sp w v).wave w = some v.wave ∧
      ((seated (s.dropSaved sp n) sp w v).ctx sp).saved = (s.ctx sp).saved.eraseIdx n ∧
      (seated (s.dropSaved sp n) sp w v).mem = s.mem ∧ ∀ j m, (j, m) ∈ v.lanes → ∃ y,
        (seated (s.dropSaved sp n) sp w v).lane (w * 32 + j) = some y ∧ y.thx = m.thx ∧ y.pc = m.pc ∧ y.chip = m.chip ∧ y.ts = m.ts := by
  have hsame := seated_same (s.dropSaved sp n) sp w v
  refine ⟨?_, ?_, ?_, fun j m hm => ⟨_, seated_lane hnodup hm, rfl, rfl, rfl, rfl⟩⟩
  · rw [hsame]; exact mget_mset_self ..
  · rw [← dropSaved_saved, hsame]; rfl
  · rw [hsame]; rfl

-- Mode areas (R341, R353).
/-- The lines of a trap level lie within the first 52 of its mode area. -/
theorem levelLines_le {level area : Nat} (hlow : 1 ≤ level) (hhigh : level ≤ 3) (h : n ∈ levelLines level area) : n ≤ area / 64 + 51 := by
  unfold levelLines recordOff at h
  rcases List.mem_append.1 h with h | h
  · obtain ⟨i, hi, rfl⟩ := List.mem_map.1 h
    have := List.mem_range.1 hi
    omega
  · split at h
    · cases h
    · obtain ⟨i, hi, rfl⟩ := List.mem_map.1 h
      have := List.mem_range.1 hi
      split <;> omega

/-- No line of a trap level serves twice: the record lies behind the backing. -/
theorem levelLines_nodup {level : Nat} (area : Nat) (hlow : 1 ≤ level) (hhigh : level ≤ 3) : (levelLines level area).Nodup := by
  have hrun : ∀ b c : Nat, ((List.range c).map (· + b)).Nodup := fun b c =>
    List.nodup_range.map fun _ _ h => Nat.add_right_cancel h
  unfold levelLines recordOff
  refine List.Nodup.append (hrun ..) ?_ ?_
  · split
    · exact List.nodup_nil
    · exact hrun ..
  · intro y hy hy'
    obtain ⟨i, hi, rfl⟩ := List.mem_map.1 hy
    have := List.mem_range.1 hi
    split at hy'
    · cases hy'
    · obtain ⟨i', hi', he⟩ := List.mem_map.1 hy'
      have := List.mem_range.1 hi'
      split at he <;> omega

/-- The bytes of one line of a saved mode area. -/
def lineBytes (a : Area) (i : Nat) : List Byte := (a.bytes.drop (64 * i)).take 64

/-- One line of a mode area is written to its place: a pair holds the line and its number in the area. -/
def putLine (k : Nat) (a : Area) (s : State) (p : Nat × Nat) : State :=
  let s1 := s.laneWrite k (64 * p.1) (lineBytes a p.2) none none 0
  match mget a.spoilt p.2 with
  | some t => s1.setPoison p.1 t
  | none => s1

/-- What the lines of a mode area leave: their bytes and their poison are there, every other byte is as before, and of the lane only what
it must respect has changed. -/
structure LinesPut (s t : State) (k : Nat) (a : Area) (ps : List (Nat × Nat)) : Prop where
  bad : t.bad = s.bad
  waves : t.waves = s.waves
  lane : ∀ l, s.lane k = some l → ∃ view, t.lane k = some { l with view := view }
  outside : ∀ y, (∀ p, p ∈ ps → y / 64 ≠ p.1) → peek t.mem y = peek s.mem y
  bytes : ∀ p, p ∈ ps → peeks t.mem (64 * p.1) 64 = lineBytes a p.2
  poison : ∀ n, mget s.poison n ≠ none → mget t.poison n ≠ none
  spoilt : ∀ p, p ∈ ps → mget a.spoilt p.2 ≠ none → mget t.poison p.1 ≠ none

theorem putLine_of_clean {p : Nat × Nat} (h : mget a.spoilt p.2 = none) :
    putLine k a s p = s.laneWrite k (64 * p.1) (lineBytes a p.2) none none 0 := by
  simp only [putLine, h]

theorem putLine_of_spoilt {p : Nat × Nat} {b : Bool} (h : mget a.spoilt p.2 = some b) :
    putLine k a s p = (s.laneWrite k (64 * p.1) (lineBytes a p.2) none none 0).setPoison p.1 b := by
  simp only [putLine, h]

theorem LinesPut.spoil {p : Nat × Nat} (h : LinesPut s t k { a with spoilt := [] } [p]) (b : Bool) :
    LinesPut s (t.setPoison p.1 b) k a [p] where
  bad := h.bad
  waves := h.waves
  lane := h.lane
  outside := h.outside
  bytes := h.bytes
  poison := fun n hn => by
    rw [State.setPoison, mget_mset]
    split
    · exact Option.some_ne_none b
    · exact h.poison n hn
  spoilt := fun q hq _ => by
    obtain rfl := List.mem_singleton.1 hq
    rw [State.setPoison, mget_mset_self]
    exact Option.some_ne_none b

/-- A whole line that a lane writes. -/
theorem laneWrite_line {p : Nat × Nat} (hl : s.lane k = some l) (hmem : 64 * p.1 < hbmSize) (hlen : (lineBytes a p.2).length = 64)
    (hclean : mget a.spoilt p.2 = none) : LinesPut s (s.laneWrite k (64 * p.1) (lineBytes a p.2) none none 0) k a [p] := by
  have hbytes := peeks_pokes s.mem (64 * p.1) (lineBytes a p.2)
  rw [hlen] at hbytes
  rw [laneWrite_spec (lineBytes a p.2) none none 0 hl (Or.inl hmem)]
  refine ⟨rfl, rfl, fun m hm => ?_, fun y hy => ?_, fun q hq => ?_, fun _ h => h, fun q hq h => ?_⟩
  · obtain rfl := Option.some.inj (hl.symm.trans hm)
    exact ⟨_, lane_setLane_self ..⟩
  · have := hy p (by simp)
    exact peek_pokes_outside _ _ _ _ (by omega)
  · obtain rfl := List.mem_singleton.1 hq
    exact hbytes
  · obtain rfl := List.mem_singleton.1 hq
    exact absurd hclean h

theorem putLine_spec {p : Nat × Nat} (hl : s.lane k = some l) (hmem : 64 * p.1 < hbmSize) (hlen : (lineBytes a p.2).length = 64) :
    LinesPut s (putLine k a s p) k a [p] := by
  cases hsp : mget a.spoilt p.2 with
  | none => rw [putLine_of_clean hsp]; exact laneWrite_line hl hmem hlen hsp
  | some b =>
    rw [putLine_of_spoilt hsp]
    exact (laneWrite_line (a := { a with spoilt := [] }) hl hmem hlen rfl).spoil b

theorem foldl_putLine (ps : List (Nat × Nat)) (s : State) (hl : s.lane k = some l) (hnodup : (ps.map (·.1)).Nodup)
    (hmem : ∀ p, p ∈ ps → 64 * p.1 < hbmSize) (hlen : ∀ p, p ∈ ps → (lineBytes a p.2).length = 64) :
    LinesPut s (ps.foldl (putLine k a) s) k a ps := by
  induction ps generalizing s l with
  | nil => exact ⟨rfl, rfl, fun l h => ⟨l.view, h⟩, fun _ _ => rfl, by simp, fun _ h => h, by simp⟩
  | cons p r ih =>
    obtain ⟨hfresh, hnodup⟩ := List.nodup_cons.1 hnodup
    have hfirst := putLine_spec hl (hmem p (by simp)) (hlen p (by simp))
    obtain ⟨view, hl1⟩ := hfirst.lane l hl
    have hrest := ih (putLine k a s p) hl1 hnodup (fun q hq => hmem q (by simp [hq])) (fun q hq => hlen q (by simp [hq]))
    have hapart : ∀ q, q ∈ r → p.1 ≠ q.1 := fun q hq e => hfresh (List.mem_map.2 ⟨q, hq, e.symm⟩)
    rw [List.foldl_cons]
    refine ⟨hrest.bad.trans hfirst.bad, hrest.waves.trans hfirst.waves, fun m hm => ?_, fun y hy => ?_, fun q hq => ?_,
      fun n h => hrest.poison n (hfirst.poison n h), fun q hq h => ?_⟩
    · obtain rfl := Option.some.inj (hl.symm.trans hm)
      obtain ⟨view', hm1⟩ := hrest.lane _ hl1
      exact ⟨view', hm1⟩
    · exact (hrest.outside y fun q hq => hy q (by simp [hq])).trans (hfirst.outside y fun q hq => hy q (by simp_all))
    · rcases List.mem_cons.1 hq with rfl | hq
      · rw [← hfirst.bytes q (by simp), ← map_peek_range, ← map_peek_range]
        refine List.map_congr_left fun i hi => hrest.outside _ fun q' hq' => ?_
        have := List.mem_range.1 hi
        have := hapart q' hq'
        omega
      · exact hrest.bytes q hq
    · rcases List.mem_cons.1 hq with rfl | hq
      · exact hrest.poison _ (hfirst.spoilt q (by simp) h)
      · exact hrest.spoilt q hq h

theorem isPoison_line (h : mget s.poison n ≠ none) : s.isPoison (64 * n) 64 = true := by
  have hline : linesOf (64 * n) 64 = [n] := by
    have h1 : (64 * n + 64 - 1) / 64 + 1 - 64 * n / 64 = 1 := by omega
    have h2 : 64 * n / 64 = n := by omega
    rw [linesOf, h1, h2]
    simp
  rw [State.isPoison, hline]
  simpa using Option.isSome_iff_ne_none.2 h

/-- The place of the mode area of one trap level of a lane (R340, R341). -/
def areaOf (k : Nat) (m : Lane) (a : Area) : Nat := areaAt (m.bases.reverse.getD (a.level - 1) 0) k

theorem putArea_eq (s : State) (k : Nat) (m : Lane) (a : Area) :
    s.putArea k m a = (levelLines a.level (areaOf k m a)).zipIdx.foldl (putLine k a) s := rfl

theorem putArea_spec (hl : s.lane k = some l) (hlow : 1 ≤ a.level) (hhigh : a.level ≤ 3) (hmem : areaOf k m a + 4096 ≤ hbmSize)
    (hbytes : a.bytes.length = 64 * (levelLines a.level (areaOf k m a)).length) :
    LinesPut s (s.putArea k m a) k a (levelLines a.level (areaOf k m a)).zipIdx := by
  rw [putArea_eq]
  refine foldl_putLine _ s hl ?_ (fun p hp => ?_) (fun p hp => ?_)
  · rw [List.zipIdx_map_fst]
    exact levelLines_nodup _ hlow hhigh
  · have := levelLines_le hlow hhigh (List.mem_of_getElem? (List.mem_zipIdx_iff_getElem?.1 hp))
    omega
  · obtain ⟨hi, -⟩ := List.getElem?_eq_some_iff.1 (List.mem_zipIdx_iff_getElem?.1 hp)
    rw [lineBytes, List.length_take, List.length_drop, hbytes]
    omega

/-- A wave of one lane with the area of one trap level: once it is seated its area is written, and no departure is left to do. -/
theorem putBack_area (hw : w / 48 = v.slice) (hlanes : v.lanes = [(j, m)]) (hareas : v.areas = [(j, [a])]) (hbar : m.wait.barOf = none)
    (hlow : 1 ≤ a.level) (hhigh : a.level ≤ 3) (hmem : areaOf (w * 32 + j) m a + 4096 ≤ hbmSize)
    (hbytes : a.bytes.length = 64 * (levelLines a.level (areaOf (w * 32 + j) m a)).length) :
    LinesPut (seated s sp w v) (s.putBack sp w v) (w * 32 + j) a (levelLines a.level (areaOf (w * 32 + j) m a)).zipIdx := by
  have hseated : (seated s sp w v).lane (w * 32 + j) = some (s.restoredLane sp (w / 48) m) :=
    seated_lane (by simp [hlanes]) (by simp [hlanes] : (j, m) ∈ v.lanes)
  have hput := putArea_spec hseated hlow hhigh hmem hbytes
  have hall : putAreas (seated s sp w v) w v = (seated s sp w v).putArea (w * 32 + j) m a := by
    simp [putAreas, hlanes, hareas, mgetD, mget]
  obtain ⟨view, hlane⟩ := hput.lane _ hseated
  rw [putBack_home hw, hall, hlanes]
  simp only [List.map_cons, List.map_nil, List.foldl_cons, List.foldl_nil]
  rwa [departLate_of hlane (restoredLane_barOf (s := s) (sp := sp) (slice := w / 48) hbar)]

end Sys2Proof.Cuts
end

section
/-! PROOFS. A gang comes back whole, or not at all (R184, R196). -/

namespace Sys2Proof.Cuts

open Sys2Proof Sys2Proof.Machine Sys2Proof.Claims Sys2Proof.Numbers

variable {s t u : State} {k j n w sp place slice vf asid tn : Nat} {l m : Lane} {v r : Saved} {x : Task} {q : Nat → Nat}

-- What the return of one wave leaves for the others.
theorem filter_mset {α : Type} {p : Nat × α → Bool} (m : Map α) (k : Nat) (hp : ∀ v, p (k, v) = false) (v : α) :
    (mset m k v).filter p = m.filter p := by
  induction m with
  | nil => simp [mset, hp]
  | cons e r ih =>
    obtain ⟨a, y⟩ := e
    simp only [mset]
    split
    · simp [hp]
    · split
      · rename_i he; subst he; simp [hp]
      · rw [List.filter_cons, ih, List.filter_cons]

/-- The state after a saved wave has been taken from its context and put on a wave place. -/
def returned (s : State) (sp n place : Nat) (v : Saved) : State := seated (s.dropSaved sp n) sp (placeKey v.slice place) v

theorem returned_same (s : State) (sp n place : Nat) (v : Saved) : returned s sp n place v = { s.dropSaved sp n with
    parity := (returned s sp n place v).parity, waves := mset s.waves (placeKey v.slice place) v.wave
    lanes := (returned s sp n place v).lanes, slices := (returned s sp n place v).slices } := seated_same ..

theorem returned_bad (s : State) (sp n place : Nat) (v : Saved) : (returned s sp n place v).bad = s.bad := by rw [returned_same]; rfl

theorem returned_task (s : State) (sp n place : Nat) (v : Saved) (tn : Nat) : (returned s sp n place v).task tn = s.task tn := by
  rw [returned_same]; rfl

theorem returned_saved (s : State) (sp n place : Nat) (v : Saved) :
    ((returned s sp n place v).ctx sp).saved = (s.ctx sp).saved.eraseIdx n := by
  rw [returned_same, ← dropSaved_saved]; rfl

theorem returned_mayRun (s : State) (sp n place : Nat) (v : Saved) : (returned s sp n place v).mayRun sp = s.mayRun sp := by
  have hctx : ((s.dropSaved sp n).ctx sp).cut = (s.ctx sp).cut ∧ ((s.dropSaved sp n).ctx sp).torn = (s.ctx sp).torn := by
    rw [State.dropSaved, ctx_modCtx, if_pos rfl]
    exact ⟨rfl, rfl⟩
  obtain ⟨hcut, htorn⟩ := hctx
  rw [returned_same]
  show (_ && !((s.dropSaved sp n).ctx sp).cut && !((s.dropSaved sp n).ctx sp).torn) = _
  rw [hcut, htorn]
  rfl

theorem returned_wave (s : State) (sp n place : Nat) (v : Saved) (w : Nat) :
    (returned s sp n place v).wave w = if w = placeKey v.slice place then some v.wave else s.wave w := by
  rw [returned_same]; exact mget_mset ..

theorem returned_tasksOn (s : State) (sp n place : Nat) (v : Saved) (slice : Nat) :
    (returned s sp n place v).tasksOn slice = s.tasksOn slice := by
  rw [returned_same]; rfl

-- On another slice nothing has changed.
section apart
variable (hplace : place < 48) (hne : slice ≠ v.slice)
include hplace hne

theorem returned_slice : (returned s sp n place v).slice slice = s.slice slice :=
  seated_slice_ne (by rwa [placeKey_div _ hplace])

theorem returned_wavesOn : (returned s sp n place v).waves.filter (fun p => p.1 / 48 == slice) =
    s.waves.filter (fun p => p.1 / 48 == slice) := by
  rw [returned_same]
  refine filter_mset _ _ (fun _ => ?_) _
  simpa [placeKey_div _ hplace] using hne.symm

theorem returned_placesFree : (returned s sp n place v).placesFree slice = s.placesFree slice := by
  rw [State.placesFree, returned_wavesOn hplace hne, returned_tasksOn]; rfl

theorem returned_blocksFree : (returned s sp n place v).blocksFree slice = s.blocksFree slice := by
  rw [State.blocksFree, returned_wavesOn hplace hne, returned_tasksOn, returned_slice hplace hne]; rfl

end apart

/-- A wave that fits still fits after one has come back to another slice. -/
theorem Fits.after_returned {p : Nat} (h : Fits s x p r) (hplace : place < 48) (hne : r.slice ≠ v.slice) :
    Fits (returned s sp n place v) x p r where
  member := h.member
  low := h.low
  free := by
    have hother : placeKey r.slice p ≠ placeKey v.slice place := by
      have := h.low
      unfold placeKey
      omega
    rw [returned_wave, if_neg hother]
    exact h.free
  places := by rw [returned_placesFree hplace hne]; exact h.places
  blocks := by rw [returned_blocksFree hplace hne]; exact h.blocks
  engines := by rw [returned_slice hplace hne]; exact h.engines

-- The waves of a gang (R196).
/-- A saved wave of a gang that fits in place `p` of its slice, with nothing to do but to seat it. -/
structure Seats (s : State) (x : Task) (tn p : Nat) (r : Saved) : Prop where
  mine : r.wave.task = tn
  fits : Fits s x p r
  some_ : r.lanes ≠ []
  nodup : (r.lanes.map (·.1)).Nodup
  lanes : ∀ p, p ∈ r.lanes → p.1 < 32 ∧ p.2.wait.barOf = none
  areas : r.areas = []

theorem seats_of_comesBack (h : ComesBack s x tn q r) : Seats s x tn (q r.slice) r := by
  obtain ⟨hmine, hmember, ⟨hlow, hfree⟩, ⟨hplaces, hblocks, hengines⟩, ⟨hsome, hnodup, hlanes⟩, hareas⟩ := h
  exact ⟨hmine, ⟨hmember, hlow, hfree, hplaces, hblocks, hengines⟩, hsome, hnodup, hlanes, hareas⟩

/-- A wave is on its place, with its threads where they stood. -/
structure Back (t : State) (p : Nat) (r : Saved) : Prop where
  wave : t.wave (placeKey r.slice p) = some r.wave
  lanes : ∀ j m, (j, m) ∈ r.lanes → ∃ y, t.lane (placeKey r.slice p * 32 + j) = some y ∧ y.thx = m.thx ∧ y.pc = m.pc

theorem Seats.putBack {p : Nat} (h : Seats s x tn p r) :
    (s.dropSaved sp n).putBack sp (placeKey r.slice p) r = returned s sp n p r :=
  putBack_seated (placeKey_div _ h.fits.low) h.nodup (fun e he => (h.lanes e he).2) h.areas

theorem Seats.back {p : Nat} (h : Seats s x tn p r) : Back (returned s sp n p r) p r where
  wave := by rw [returned_wave, if_pos rfl]
  lanes := fun _ _ hm => ⟨_, seated_lane h.nodup hm, rfl, rfl⟩

/-- A wave that is back stays when one comes back to another slice. -/
theorem Back.after_returned {p : Nat} (h : Back s p v) (hp : p < 48) (hlanes : ∀ e, e ∈ v.lanes → e.1 < 32)
    (hplace : place < 48) (hr : ∀ e, e ∈ r.lanes → e.1 < 32) (hne : v.slice ≠ r.slice) : Back (returned s sp n place r) p v := by
  have hother : placeKey v.slice p ≠ placeKey r.slice place := by unfold placeKey; omega
  refine ⟨?_, fun j m hm => ?_⟩
  · rw [returned_wave, if_neg hother]
    exact h.wave
  · obtain ⟨y, hy, hyx⟩ := h.lanes j m hm
    refine ⟨y, ?_, hyx⟩
    rw [returned, seated_lane_ne]
    · exact hy
    · intro e he heq
      have := hr e he
      have := hlanes _ hm
      dsimp only at this
      omega

/-- All saved records of a context are waves of one gang, on slices of their own, and each fits. -/
structure Gang (s : State) (sp : Nat) (x : Task) (tn : Nat) (q : Nat → Nat) : Prop where
  task : s.task tn = some x
  run : s.mayRun sp = true
  apart : ((s.ctx sp).saved.map (·.slice)).Nodup
  seats : ∀ r, r ∈ (s.ctx sp).saved → Seats s x tn (q r.slice) r

/-- The slices of two records of a gang differ. -/
theorem slice_ne_of_eraseIdx {xs : List Saved} (hnodup : (xs.map (·.slice)).Nodup) (hv : xs[n]? = some v) (hr : r ∈ xs.eraseIdx n) :
    r.slice ≠ v.slice := by
  obtain ⟨i, hne, hi⟩ := List.mem_eraseIdx_iff_getElem?.1 hr
  intro he
  have hlen : i < (xs.map (·.slice)).length := by
    rw [List.length_map]
    exact (List.getElem?_eq_some_iff.1 hi).1
  exact hne ((List.getElem?_inj hlen hnodup).1 (by rw [List.getElem?_map, List.getElem?_map, hi, hv, Option.map_some, Option.map_some, he]))

theorem Gang.after_returned (h : Gang s sp x tn q) (hv : (s.ctx sp).saved[n]? = some v) :
    Gang (returned s sp n (q v.slice) v) sp x tn q where
  task := (returned_task ..).trans h.task
  run := (returned_mayRun ..).trans h.run
  apart := by
    rw [returned_saved]
    exact h.apart.sublist ((List.eraseIdx_sublist ..).map _)
  seats := fun r hr => by
    rw [returned_saved] at hr
    have hseats := h.seats r (List.mem_of_mem_eraseIdx hr)
    exact { hseats with fits := hseats.fits.after_returned (h.seats v (List.mem_of_getElem? hv)).fits.low (slice_ne_of_eraseIdx h.apart hv hr) }

/-- The place of each wave that is still saved is the lowest free one of its slice. -/
def Lowest (s : State) (sp : Nat) (q : Nat → Nat) : Prop :=
  ∀ r p, r ∈ (s.ctx sp).saved → p < q r.slice → s.wave (placeKey r.slice p) ≠ none

theorem Lowest.after_returned (h : Lowest s sp q) : Lowest (returned s sp n place v) sp q := by
  intro r p hr hp
  rw [returned_saved] at hr
  rw [returned_wave]
  split
  · exact Option.some_ne_none _
  · exact h r p (List.mem_of_mem_eraseIdx hr) hp

/-- The lowest free place of a slice is where its wave is put. -/
theorem find_place (h : Lowest s sp q) (hr : r ∈ (s.ctx sp).saved) (hseats : Seats s x tn (q r.slice) r) :
    (List.range 48).find? (fun p => (s.wave (placeKey r.slice p)).isNone) = some (q r.slice) := by
  rw [List.find?_range_eq_some]
  refine ⟨by rw [hseats.fits.free]; rfl, List.mem_range.2 hseats.fits.low, fun p hp => ?_⟩
  simpa [Option.isSome_iff_ne_none] using h r p hr hp

/-- The waves of a gang that are left come back one after another, and those that are back stay. -/
theorem restoreRest_gang (fuel : Nat) (s : State) (h : Gang s sp x tn q) (hlow : Lowest s sp q) (hfuel : (s.ctx sp).saved.length ≤ fuel) :
    ∃ t, s.restoreRest sp tn fuel = some t ∧ t.bad = s.bad ∧ (t.ctx sp).saved = [] ∧
      (∀ r, r ∈ (s.ctx sp).saved → Back t (q r.slice) r) ∧
      ∀ v, (∀ r, r ∈ (s.ctx sp).saved → v.slice ≠ r.slice) → q v.slice < 48 → (∀ e, e ∈ v.lanes → e.1 < 32) →
        Back s (q v.slice) v → Back t (q v.slice) v := by
  induction fuel generalizing s with
  | zero =>
    have hnil := List.length_eq_zero_iff.1 (Nat.le_zero.1 hfuel)
    exact ⟨s, rfl, rfl, hnil, by simp [hnil], fun _ _ _ _ hb => hb⟩
  | succ fuel ih =>
    cases hsaved : (s.ctx sp).saved with
    | nil => exact ⟨s, by simp [State.restoreRest, hsaved], rfl, hsaved, by simp, fun _ _ _ _ hb => hb⟩
    | cons r rest =>
      have hmem : r ∈ (s.ctx sp).saved := by rw [hsaved]; exact List.mem_cons_self
      have hget : (s.ctx sp).saved[0]? = some r := by rw [hsaved]; rfl
      have hseats := h.seats r hmem
      have hrest : ((returned s sp 0 (q r.slice) r).ctx sp).saved = rest := by rw [returned_saved, hsaved]; rfl
      have hstep : s.restoreRest sp tn (fuel + 1) = (returned s sp 0 (q r.slice) r).restoreRest sp tn fuel := by
        have hfind : (s.ctx sp).saved.zipIdx.find? (fun p => p.1.wave.task == tn && !p.1.lanes.isEmpty) = some (r, 0) := by
          simp [hsaved, hseats.mine, hseats.some_]
        have htask : s.task r.wave.task = some x := by rw [hseats.mine]; exact h.task
        rw [State.restoreRest, hfind]
        simp only [find_place hlow hmem hseats, restoreAt_of hget htask h.run hseats.fits, hseats.putBack, Option.bind_some]
      have hapart : ∀ r', r' ∈ rest → r.slice ≠ r'.slice := fun r' hr' e =>
        slice_ne_of_eraseIdx h.apart hget (r := r') (by rw [hsaved]; exact hr') e.symm
      obtain ⟨t, ht, hbad, hnil, hback, hstay⟩ := ih _ (h.after_returned hget) hlow.after_returned
        (by rw [hrest]; rw [hsaved] at hfuel; exact Nat.le_of_succ_le_succ hfuel)
      rw [hrest] at hback hstay
      have hlanes : ∀ e, e ∈ r.lanes → e.1 < 32 := fun e he => (hseats.lanes e he).1
      refine ⟨t, hstep.trans ht, hbad.trans (returned_bad ..), hnil, fun r' hr' => ?_, fun v hne hq hv hb => ?_⟩
      · rcases List.mem_cons.1 hr' with rfl | hr'
        · exact hstay r' hapart hseats.fits.low hlanes hseats.back
        · exact hback r' hr'
      · exact hstay v (fun r' hr' => hne r' (List.mem_cons_of_mem _ hr')) hq hv
          (hb.after_returned hq hv hseats.fits.low hlanes (hne r List.mem_cons_self))

/-- A gang whose waves all fit comes back whole: the one that was asked for first, and the others at the lowest free places. -/
theorem exec_waveRestore_gang {vf asid : Nat} (h : Gang s (spaceKey vf asid) x v.wave.task q) (hbad : s.bad = none)
    (hsaved : (s.ctx (spaceKey vf asid)).saved[n]? = some v) (hgang : 1 < x.members.length)
    (hlow : ∀ r p, r ∈ (s.ctx (spaceKey vf asid)).saved → r.slice ≠ v.slice → p < q r.slice → s.wave (placeKey r.slice p) ≠ none) :
    ∃ t, exec (.waveRestore vf asid n v.slice (q v.slice)) s = .next t ∧ (t.ctx (spaceKey vf asid)).saved = [] ∧
      ∀ r, r ∈ (s.ctx (spaceKey vf asid)).saved → Back t (q r.slice) r := by
  have hseats := h.seats v (List.mem_of_getElem? hsaved)
  have hrest := returned_saved s (spaceKey vf asid) n (q v.slice) v
  have hlowest : Lowest (returned s (spaceKey vf asid) n (q v.slice) v) (spaceKey vf asid) q := by
    intro r p hr hp
    rw [hrest] at hr
    rw [returned_wave]
    split
    · exact Option.some_ne_none _
    · exact hlow r p (List.mem_of_mem_eraseIdx hr) (slice_ne_of_eraseIdx h.apart hsaved hr) hp
  obtain ⟨t, ht, htbad, hnil, hback, hstay⟩ := restoreRest_gang (s.ctx (spaceKey vf asid)).saved.length _ (h.after_returned hsaved) hlowest
    (by rw [hrest]; exact (List.eraseIdx_sublist ..).length_le)
  rw [hrest] at hback hstay
  have hexec : exec (.waveRestore vf asid n v.slice (q v.slice)) s = finish t := by
    rw [exec_waveRestore, execWaveRestore, restore_of_lanes hsaved h.task h.run hseats.fits hseats.some_, if_neg (Nat.not_le.2 hgang),
      hseats.putBack, ht]
  refine ⟨t, hexec.trans (finish_of_sound (htbad.trans ((returned_bad ..).trans hbad))), hnil, fun r hr => ?_⟩
  by_cases he : r ∈ (s.ctx (spaceKey vf asid)).saved.eraseIdx n
  · exact hback r he
  · have hrv : r = v := by
      obtain ⟨i, hi⟩ := List.mem_iff_getElem?.1 hr
      by_contra hne
      refine he (List.mem_eraseIdx_iff_getElem?.2 ⟨i, fun e => hne ?_, hi⟩)
      subst e
      exact Option.some.inj (hi.symm.trans hsaved)
    subst hrv
    exact hstay r (fun r' hr' e => slice_ne_of_eraseIdx h.apart hsaved hr' e.symm) hseats.fits.low
      (fun e he => (hseats.lanes e he).1) hseats.back

-- No wave of a gang comes back without the others (R196).
/-- A context holds as many saved records as before. -/
def SameCount (s t : State) : Prop := ∀ c, (t.ctx c).saved.length = (s.ctx c).saved.length

theorem SameCount.of_ctxs (h : t.ctxs = s.ctxs) : SameCount s t := fun c => by rw [State.ctx, h]; rfl
theorem SameCount.trans (h : SameCount s t) (g : SameCount t u) : SameCount s u := fun c => (g c).trans (h c)

theorem moveSpace_ctxs (s : State) (src dst len : Nat) : (s.moveSpace src dst len).ctxs = s.ctxs := by
  have hstore : ∀ (u : State) (cs : List Host.Cell),
      (cs.foldl (fun s c => s.devStore (c.1 - src + dst) [c.2] .system) u).ctxs = u.ctxs :=
    fun u cs => foldl_keeps State.ctxs (fun s (c : Host.Cell) => s.devStore (c.1 - src + dst) [c.2] .system) (fun _ _ => rfl) cs u
  have hzero : (s.zeroFill dst len).ctxs = s.ctxs :=
    foldl_keeps State.ctxs (fun s a => s.devStore a [0] .system) (fun _ _ => rfl) _ s
  refine (foldl_keeps State.ctxs (fun s (p : Nat × Bool) => s.setPoison (p.1 - src / 64 + dst / 64) p.2) (fun _ _ => rfl) _ _).trans ?_
  exact (hstore ..).trans hzero

theorem moveTask_count (s : State) (tn slice : Nat) (x : Task) : SameCount s (s.moveTask tn slice x) := by
  have hmap : ∀ (u : State) (g : Saved → Saved), u.ctxs = s.ctxs →
      SameCount s (u.modCtx x.space (fun c => { c with saved := c.saved.map g })) := by
    intro u g hu c
    rw [ctx_modCtx]
    split
    · rename_i e; subst e
      simp [State.ctx, hu]
    · simp [State.ctx, hu]
  unfold State.moveTask
  dsimp only
  split
  · exact (hmap _ _ rfl).trans (.of_ctxs (moveSpace_ctxs ..))
  · exact hmap _ _ rfl

theorem depart_ctxs (s : State) (k : Nat) (sc : Scope) : (s.depart k sc).ctxs = s.ctxs := by rw [(synced_depart s k sc).same]

theorem departLate_ctxs (s : State) (k : Nat) : (s.departLate k).ctxs = s.ctxs := by
  unfold State.departLate
  split
  · dsimp only
    split
    · rw [State.departWaiter, State.modLane_ctxs, depart_ctxs]
    · rfl
  · rfl

theorem putArea_ctxs (s : State) (k : Nat) (m : Lane) (a : Area) : (s.putArea k m a).ctxs = s.ctxs := by
  have hwrite : ∀ (u : State) a bs, (u.laneWrite k a bs none none 0).ctxs = u.ctxs := by
    intro u a bs
    have htouch : (u.touch a).ctxs = u.ctxs := by unfold State.touch; split <;> rfl
    exact (State.modLane_ctxs ..).trans htouch
  refine foldl_keeps State.ctxs _ (fun u p => ?_) _ s
  dsimp only
  split
  · exact hwrite ..
  · exact hwrite ..

theorem putBack_ctxs (s : State) (sp w : Nat) (v : Saved) : (s.putBack sp w v).ctxs = s.ctxs := by
  have hareas : (putAreas (seated s sp w v) w v).ctxs = s.ctxs := by
    rw [putAreas, foldl_keeps State.ctxs _ fun u p => foldl_keeps State.ctxs _ (fun u a => putArea_ctxs ..) _ u, seated_same]
  unfold State.putBack
  dsimp only
  rw [foldl_keeps State.ctxs _ departLate_ctxs]
  split
  · exact hareas
  · exact hareas

/-- A wave that comes back takes one record with it. -/
theorem restoreAt_length (h : s.restoreAt sp n slice place = some t) : (t.ctx sp).saved.length + 1 = (s.ctx sp).saved.length := by
  unfold State.restoreAt at h
  dsimp only at h
  split at h
  · cases h
  · rename_i v hv
    split at h
    · cases h
    · split at h
      · cases h
      · obtain rfl := Option.some.inj h
        have hcount : ∀ u, SameCount s u → ((((u.dropSaved sp n).putBack sp (placeKey slice place) v).ctx sp).saved.length + 1 =
            (s.ctx sp).saved.length) := by
          intro u hu
          have hlen := hu sp
          have hn := (List.getElem?_eq_some_iff.1 hv).1
          rw [State.ctx, putBack_ctxs, ← State.ctx, dropSaved_saved, List.length_eraseIdx_of_lt (by omega), hlen]
          omega
        refine hcount _ ?_
        split
        · exact fun _ => rfl
        · exact moveTask_count s _ slice _

/-- Where the others of a gang come back, none of them stays behind. -/
theorem restoreRest_done (fuel : Nat) (s : State) (hfuel : (s.ctx sp).saved.length ≤ fuel) (h : s.restoreRest sp tn fuel = some t) :
    ∀ r, r ∈ (t.ctx sp).saved → r.wave.task = tn → r.lanes = [] := by
  induction fuel generalizing s with
  | zero =>
    obtain rfl := Option.some.inj h
    rw [List.length_eq_zero_iff.1 (Nat.le_zero.1 hfuel)]
    exact fun r hr => nomatch hr
  | succ fuel ih =>
    rw [State.restoreRest] at h
    split at h
    · rename_i hnone
      obtain rfl := Option.some.inj h
      intro r hr htask
      obtain ⟨i, hi⟩ := List.mem_iff_getElem?.1 hr
      have := List.find?_eq_none.1 hnone (r, i) (List.mem_zipIdx_iff_getElem?.2 hi)
      simpa [htask] using this
    · split at h
      · obtain ⟨u, hu, hrest⟩ := Option.bind_eq_some_iff.1 h
        have := restoreAt_length hu
        exact ih u (by omega) hrest
      · cases h

/-- A restore of a wave of a gang either changes nothing or leaves no wave of the gang behind. -/
theorem exec_waveRestore_whole (hsaved : (s.ctx (spaceKey vf asid)).saved[n]? = some v) (hlanes : v.lanes ≠ [])
    (hx : s.task v.wave.task = some x) (hgang : 1 < x.members.length)
    (h : exec (.waveRestore vf asid n slice place) s = .next t) :
    t = s ∨ ∀ r, r ∈ (t.ctx (spaceKey vf asid)).saved → r.wave.task = v.wave.task → r.lanes = [] := by
  rw [exec_waveRestore, execWaveRestore] at h
  cases hrestore : s.restore (spaceKey vf asid) n slice place with
  | none =>
    rw [hrestore] at h
    cases h
    exact Or.inl rfl
  | some u =>
    rw [hrestore] at h
    have htu : t = u := by
      simp only [finish] at h
      split at h
      · cases h
      · cases h; rfl
    subst htu
    have hsome : v.lanes.isEmpty = false := by simpa using hlanes
    unfold State.restore at hrestore
    simp only [hsaved, hsome, hx, Option.map_some, Option.getD_some, if_neg (Nat.not_le.2 hgang)] at hrestore
    obtain ⟨y, hy, hrest⟩ := Option.bind_eq_some_iff.1 hrestore
    have := restoreAt_length hy
    exact Or.inr (restoreRest_done _ y (by omega) hrest)

end Sys2Proof.Cuts
end

section
/-! PROOFS. Clock ratios, control intervals, thermal limits, machine checks and EVENT (R179, R351, R379, R382 to R384). -/

namespace Sys2Proof.Power

open Sys2Proof Sys2Proof.Machine Sys2Proof.Numbers Sys2Proof.Cuts

variable {s t u : State} {c d n tn slice code : Nat} {hot : Bool} {x y : Task}

/-- A change that a second time changes nothing, made in each of some slices. -/
theorem slice_foldl_modSlice {f : Slice → Slice} (hf : ∀ x, f (f x) = f x) (g : Nat → Nat) (ks : List Nat) (s : State) (y : Nat) :
    (ks.foldl (fun s i => s.modSlice (g i) f) s).slice y = if y ∈ ks.map g then f (s.slice y) else s.slice y := by
  induction ks generalizing s with
  | nil => rfl
  | cons k r ih =>
    rw [List.foldl_cons, ih, slice_modSlice]
    by_cases hk : y = g k
    · subst hk
      by_cases hr : g k ∈ r.map g
      · rw [if_pos hr, if_pos rfl, hf, if_pos (by simp)]
      · rw [if_neg hr, if_pos rfl, if_pos (by simp)]
    · simp [hk]

/-- What each step of a fold brings about for its own element, and keeps for every other, holds in the end for all of them. -/
theorem foldl_marks {α : Type} {f : State → α → State} {P : State → α → Prop} (hset : ∀ s a, P (f s a) a)
    (hkeep : ∀ s a b, P s b → P (f s a) b) (xs : List α) (s : State) {b : α} (hb : b ∈ xs) : P (xs.foldl f s) b := by
  have hstay : ∀ (ys : List α) (u : State), P u b → P (ys.foldl f u) b := by
    intro ys
    induction ys with
    | nil => exact fun _ h => h
    | cons a r ih => exact fun u h => ih (f u a) (hkeep u a b h)
  induction xs generalizing s with
  | nil => cases hb
  | cons a r ih =>
    rcases List.mem_cons.1 hb with rfl | hb
    · exact hstay r _ (hset s b)
    · exact ih _ hb

theorem foldl_modSlice_same (f : Slice → Slice) (g : Nat → Nat) (ks : List Nat) (s : State) :
    ks.foldl (fun s i => s.modSlice (g i) f) s = { s with slices := (ks.foldl (fun s i => s.modSlice (g i) f) s).slices } := by
  induction ks generalizing s with
  | nil => rfl
  | cons k r ih => exact ih (s.modSlice (g k) f)

-- The clock ratio (R179).
theorem exec_clockRatioChange_due (hnow : s.now % 8 = 0) (hcode : code = s.ratioFor slice) :
    exec (.clockRatioChange slice code) s = .next (s.modSlice slice (fun x => { x with ratio := code })) := by
  rw [exec_clockRatioChange, execClockRatioChange, if_pos (by simp [hnow, ← hcode])]

theorem exec_clockRatioChange_early (hnow : s.now % 8 ≠ 0) : exec (.clockRatioChange slice code) s = .next s := by
  rw [exec_clockRatioChange, execClockRatioChange, if_neg (by simp [hnow])]

-- The control interval (R379).
theorem exec_controlIntervalEnd_early {ds : List (Nat × Nat)} (h : s.now < (s.cluster c).since + 1200) :
    exec (.controlIntervalEnd c ds hot) s = .next s := if_pos h

theorem postThrottle_thr (s : State) (sp c : Nat) : ((s.postThrottle sp c).ctx sp).thr ≠ none := by
  have hpost : (s.postThrottle sp c).ctx sp =
      if (s.ctx sp).thr.isSome then s.ctx sp else { s.ctx sp with thr := some (throttleCause c) } :=
    (ctx_modCtx s sp sp (fun c' => if c'.thr.isSome then c' else { c' with thr := some (throttleCause c) })).trans (if_pos rfl)
  rw [hpost]
  split
  · rename_i h; exact Option.isSome_iff_ne_none.1 h
  · exact Option.some_ne_none _

/-- What judging the draw of a task leaves of it: its draw; one code more and a posted cause where it is above its charge, or at the
slowest code the cap of its issue. -/
structure Judged (s t : State) (tn d : Nat) (x : Task) : Prop where
  same : t = { s with tasks := t.tasks, ctxs := t.ctxs, notes := t.notes }
  task : ∃ y, t.task tn = some y ∧ y.draw = d ∧
    (x.energy * ratioN x.tcode < 8 * d → x.tcode < 4 → y.tcode = x.tcode + 1 ∧ (t.ctx x.space).thr ≠ none) ∧
    (x.energy * ratioN x.tcode < 8 * d → 4 ≤ x.tcode → y.tcode = x.tcode ∧ y.trickle = true)

/-- A task that is not overdrawn is set anew with the draw. -/
theorem judged_setTask (hnot : ¬ x.energy * ratioN x.tcode < 8 * d) (hd : y.draw = d) : Judged s (s.setTask tn y) tn d x :=
  ⟨rfl, y, (task_setTask ..).trans (if_pos rfl), hd, fun h => absurd h hnot, fun h => absurd h hnot⟩

theorem judgeDraw_spec (hx : s.task tn = some x) (c d : Nat) : Judged s (s.judgeDraw c tn d) tn d x := by
  unfold State.judgeDraw
  simp only [hx, overdrawn, decide_eq_true_eq]
  split
  · split
    · rename_i hlow
      exact ⟨rfl, _, (task_setTask ..).trans (if_pos rfl), rfl, fun _ _ => ⟨rfl, postThrottle_thr _ x.space c⟩,
        fun _ h => absurd hlow (Nat.not_lt.2 h)⟩
    · rename_i hlow
      exact ⟨rfl, _, (task_setTask ..).trans (if_pos rfl), rfl, fun _ h => absurd h hlow, fun _ _ => ⟨rfl, rfl⟩⟩
  · rename_i hnot
    split
    · split
      · exact judged_setTask hnot rfl
      · exact judged_setTask hnot rfl
    · exact judged_setTask hnot rfl

/-- A cluster that keeps nothing for a launch. -/
def unheld (x : Cluster) : Cluster := { x with hold := [] }

/-- Where nothing waits for a launch, the gaffer reclaims nothing. -/
theorem reclaim_of_idle (h : s.launches = []) : s.reclaim c = s.modCluster c unheld := by
  have hwaits : ∀ xs : List Nat, xs.filter s.waits = [] := fun xs => by simp [State.waits, h, mget]
  have howed : s.owed c = [] := by simp [State.owed, h]
  simp only [State.reclaim, hwaits, howed, List.filter_nil, List.append_nil, List.isEmpty_nil, if_true]
  rfl

/-- The counts of a cluster at the beginning of a control interval, `n` draws having been read (R382). -/
def freshInterval (s : State) (n : Nat) (x : Cluster) : Cluster :=
  { x with
    intv := x.intv + 1, owedE := 0, owedI := 0, since := x.since + 1200, regs := 0
    refresh := Config.freeNat (s.free + n + 1) % (x.refreshCap + 1) }

/-- The tasks of a cluster are judged by their draws. -/
def judgeAll (c : Nat) (ds : List (Nat × Nat)) (s : State) : State :=
  ((s.tasks.filter (fun p => p.2.cluster == c)).map (·.1)).foldl (fun s tn => s.judgeDraw c tn (mgetD ds tn 0)) s

/-- The slices of a cluster take note of whether its peak was exceeded. -/
def slowAll (c : Nat) (hot : Bool) (s : State) : State :=
  (List.range 6).foldl (fun s i => s.modSlice (6 * c + i) (fun x => { x with slow := hot })) s

/-- The end of an interval, with `n` draws read and every draw judged: the budgets of the cluster start again. -/
def intervalOver (c : Nat) (hot : Bool) (n : Nat) (s : State) : State :=
  { slowAll c hot s with budget := (slowAll c hot s).budget.filter (fun p => p.1 % 96 != c), free := (slowAll c hot s).free + n + 2 }

theorem slowAll_same (s : State) (c : Nat) (hot : Bool) : slowAll c hot s = { s with slices := (slowAll c hot s).slices } :=
  foldl_modSlice_same (fun x => { x with slow := hot }) (6 * c + ·) (List.range 6) s

theorem intervalOver_same (s : State) (n : Nat) : intervalOver c hot n s = { s with
    slices := (slowAll c hot s).slices, budget := s.budget.filter (fun p => p.1 % 96 != c), free := s.free + n + 2 } := by
  have h := slowAll_same s c hot
  unfold intervalOver
  generalize slowAll c hot s = u at h ⊢
  rw [h]

theorem intervalOver_clusters (s : State) (n : Nat) : (intervalOver c hot n s).clusters = s.clusters := by rw [intervalOver_same]
theorem intervalOver_tasks (s : State) (n : Nat) : (intervalOver c hot n s).tasks = s.tasks := by rw [intervalOver_same]
theorem intervalOver_ctxs (s : State) (n : Nat) : (intervalOver c hot n s).ctxs = s.ctxs := by rw [intervalOver_same]

theorem intervalOver_budget {p : Nat × Nat × Nat × Nat} (h : p ∈ (intervalOver c hot n s).budget) : p.1 % 96 ≠ c := by
  rw [intervalOver_same] at h
  simpa using (List.mem_filter.1 h).2

theorem intervalOver_slow {q : Nat} (s : State) (n : Nat) (hq : q < 6) : ((intervalOver c hot n s).slice (6 * c + q)).slow = hot := by
  have h := slice_foldl_modSlice (f := fun x => { x with slow := hot }) (fun _ => rfl) (6 * c + ·) (List.range 6) s (6 * c + q)
  rw [if_pos (List.mem_map.2 ⟨q, List.mem_range.2 hq, rfl⟩)] at h
  exact congrArg Slice.slow h

theorem exec_controlIntervalEnd_due {ds : List (Nat × Nat)} (hdue : (s.cluster c).since + 1200 ≤ s.now) :
    exec (.controlIntervalEnd c ds hot) s = .next (intervalOver c hot ds.length
      ((judgeAll c ds (s.modCluster c (freshInterval s ds.length))).reclaim c)) :=
  if_neg (Nat.not_lt.2 hdue)

/-- A cluster with one task, while no launch waits: only that task is judged, and nothing is reclaimed. -/
theorem intervalEnd_of_one (htasks : s.tasks = [(tn, x)]) (hc : x.cluster = c) (hidle : s.launches = []) (d n : Nat) :
    ∃ u, Judged (s.modCluster c (freshInterval s n)) u tn d x ∧
      (judgeAll c [(tn, d)] (s.modCluster c (freshInterval s n))).reclaim c = u.modCluster c unheld := by
  have hx : (s.modCluster c (freshInterval s n)).task tn = some x := by simp [State.task, State.modCluster, htasks, mget]
  have hjudged := judgeDraw_spec hx c d
  have hall : judgeAll c [(tn, d)] (s.modCluster c (freshInterval s n)) = (s.modCluster c (freshInterval s n)).judgeDraw c tn d := by
    have hmine : (s.modCluster c (freshInterval s n)).tasks = [(tn, x)] := htasks
    simp [judgeAll, hmine, hc, mgetD, mget]
  refine ⟨_, hjudged, ?_⟩
  rw [hall]
  exact reclaim_of_idle (by rw [hjudged.same]; exact hidle)

/-- The end of a control interval: the counts of the cluster start anew, its task is judged, and its slices know of the peak. -/
theorem exec_controlIntervalEnd_spec (hdue : (s.cluster c).since + 1200 ≤ s.now) (htasks : s.tasks = [(tn, x)]) (hc : x.cluster = c)
    (hidle : s.launches = []) :
    ∃ t u, exec (.controlIntervalEnd c [(tn, d)] hot) s = .next t ∧ Judged (s.modCluster c (freshInterval s 1)) u tn d x ∧
      t.cluster c = unheld (freshInterval s 1 (s.cluster c)) ∧ t.tasks = u.tasks ∧ t.ctxs = u.ctxs ∧
      (∀ p, p ∈ t.budget → p.1 % 96 ≠ c) ∧ ∀ q, q < 6 → (t.slice (6 * c + q)).slow = hot := by
  obtain ⟨u, hu, hreclaim⟩ := intervalEnd_of_one htasks hc hidle d 1
  have hexec : exec (.controlIntervalEnd c [(tn, d)] hot) s = .next (intervalOver c hot 1 (u.modCluster c unheld)) := by
    rw [exec_controlIntervalEnd_due hdue, ← hreclaim]
    rfl
  have hcluster : u.cluster c = freshInterval s 1 (s.cluster c) := by
    rw [hu.same]
    exact (cluster_modCluster s c c (freshInterval s 1)).trans (if_pos rfl)
  refine ⟨_, u, hexec, hu, ?_, intervalOver_tasks .., intervalOver_ctxs .., fun p => intervalOver_budget, fun q => intervalOver_slow _ 1⟩
  rw [State.cluster, intervalOver_clusters, ← hcluster]
  exact (cluster_modCluster u c c unheld).trans (if_pos rfl)

-- Thermal limits and machine checks (R351, R383, R384).
theorem vf_raise (s : State) (v b w : Nat) : (s.raise v b).vf w =
    if w = v then { s.vf v with event := (s.vf v).event ||| 2 ^ b, msix := (s.vf v).msix ++ [0] } else s.vf w := vf_modVf ..

theorem raise_testBit (s : State) (v b : Nat) : ((s.raise v b).vf v).event.testBit b = true := by
  rw [vf_raise, if_pos rfl]
  simp

theorem raise_testBit_of {v w b b' : Nat} (h : (s.vf w).event.testBit b = true) : ((s.raise v b').vf w).event.testBit b = true := by
  rw [vf_raise]
  split
  · rename_i e; subst e; simp [h]
  · exact h

/-- THERMAL is set for one virtual function. -/
def heated (s : State) (v : Nat) : State := (s.raise v 0).modVf v (fun f => { f with thermal := s.hot })

theorem heated_event (s : State) (v w : Nat) : ((heated s v).vf w).event = ((s.raise v 0).vf w).event := by
  rw [heated, vf_modVf]
  split
  · rename_i e; subst e; rfl
  · rfl

theorem raiseThermal_eq (s : State) (code : Nat) : s.raiseThermal code = ((s.vfs.map (·.1)).foldl heated s).note (.thermal code) := rfl

theorem raiseThermal_event {p : Nat × Vf} (hp : p ∈ s.vfs) (code : Nat) : ((s.raiseThermal code).vf p.1).event.testBit 0 = true := by
  rw [raiseThermal_eq]
  refine foldl_marks (P := fun (s : State) v => (s.vf v).event.testBit 0 = true) (fun s v => ?_) (fun s v w h => ?_) _ s
    (List.mem_map.2 ⟨p, hp, rfl⟩)
  · rw [heated_event]; exact raise_testBit s v 0
  · rw [heated_event]; exact raise_testBit_of h

theorem foldl_heated_same (vs : List Nat) (s : State) : vs.foldl heated s = { s with vfs := (vs.foldl heated s).vfs } := by
  induction vs generalizing s with
  | nil => rfl
  | cons v r ih => exact ih (heated s v)

theorem raiseThermal_same (s : State) (code : Nat) :
    s.raiseThermal code = { s with vfs := (s.raiseThermal code).vfs, notes := s.notes ++ [.thermal code] } := by
  rw [raiseThermal_eq, foldl_heated_same]; rfl

theorem raiseThermal_slice (s : State) (code x : Nat) : (s.raiseThermal code).slice x = s.slice x := by rw [raiseThermal_same]; rfl

theorem raiseThermal_notes (s : State) (code : Nat) : Note.thermal code ∈ (s.raiseThermal code).notes := by
  rw [raiseThermal_same]
  exact List.mem_append_right _ List.mem_cons_self

/-- The slices of a die run at its thermal code. -/
def dieAt (s : State) (d code : Nat) : State :=
  (List.range 288).foldl (fun s i => s.modSlice (288 * d + i) (fun x => { x with thermal := code })) { s with dieHot := mset s.dieHot d code }

theorem exec_thermalEvent_die_eq (s : State) (d code : Nat) :
    exec (.thermalEvent (.die d) code) s = .next ((dieAt s d (Nat.min 4 code)).raiseThermal (Nat.min 4 code)) := by
  simp only [exec_thermalEvent, execThermalEvent, dieAt]

theorem dieAt_vfs (s : State) (d code : Nat) : (dieAt s d code).vfs = s.vfs := by
  rw [dieAt, foldl_modSlice_same]

theorem dieAt_thermal {q : Nat} (hq : q < 288) : ((dieAt s d code).slice (288 * d + q)).thermal = code := by
  have h := slice_foldl_modSlice (f := fun x => { x with thermal := code }) (fun _ => rfl) (288 * d + ·) (List.range 288)
    { s with dieHot := mset s.dieHot d code } (288 * d + q)
  rw [if_pos (List.mem_map.2 ⟨q, List.mem_range.2 hq, rfl⟩)] at h
  exact congrArg Slice.thermal h

theorem exec_thermalEvent_die (s : State) (d code : Nat) : ∃ t, exec (.thermalEvent (.die d) code) s = .next t ∧
    (∀ q, q < 288 → (t.slice (288 * d + q)).thermal = Nat.min 4 code) ∧
    (∀ p, p ∈ s.vfs → (t.vf p.1).event.testBit 0 = true) ∧ Note.thermal (Nat.min 4 code) ∈ t.notes := by
  refine ⟨_, exec_thermalEvent_die_eq .., fun q hq => ?_, fun p hp => raiseThermal_event (by rwa [dieAt_vfs]) _, raiseThermal_notes ..⟩
  rw [raiseThermal_slice]
  exact dieAt_thermal hq

theorem exec_thermalEvent_stack (s : State) (p code : Nat) : ∃ t, exec (.thermalEvent (.stack p) code) s = .next t ∧
    mget t.stackHot p = some code ∧ (∀ q, q ∈ s.vfs → (t.vf q.1).event.testBit 0 = true) ∧ t.slices = s.slices := by
  refine ⟨_, rfl, ?_, fun q hq => raiseThermal_event (s := { s with stackHot := mset s.stackHot p code }) hq _, ?_⟩
  · rw [raiseThermal_same]; exact mget_mset_self ..
  · rw [raiseThermal_same]

/-- The cause of a failing unit. -/
def unitCause (slice : Nat) (unit : Unit4) : Cause := { mkCause 15 (Machine.Unit4.code unit * 256 + 4) (slice % 1024) 0 with asy := true }

/-- MACHINE_CHECK is posted to one context, and set in EVENT. -/
def checked (k : Cause) (s : State) (sp : Nat) : State :=
  ((s.modCtx sp (fun x => if x.mc.isSome then x else { x with mc := some k })).raise (sp / 16384) 2).note
    (.contextCause (sp / 16384) (sp % 16384))

/-- The contexts with a wave on a slice. -/
def spacesOn (s : State) (slice : Nat) : List Nat :=
  ((s.waves.filter (fun p => p.1 / 48 == slice)).filterMap (fun p => (s.task p.2.task).map Task.space)).dedup

theorem exec_machineCheck_eq (s : State) (slice : Nat) (unit : Unit4) :
    exec (.machineCheck slice unit) s = .next ((spacesOn s slice).foldl (checked (unitCause slice unit)) s) := rfl

theorem checked_mc (k : Cause) (s : State) (sp a : Nat) : ((checked k s sp).ctx a).mc =
    if a = sp ∧ (s.ctx a).mc = none then some k else (s.ctx a).mc := by
  have h := ctx_modCtx s sp a (fun x => if x.mc.isSome then x else { x with mc := some k })
  refine (congrArg Ctx.mc h).trans ?_
  by_cases he : a = sp
  · subst he
    cases hmc : (s.ctx a).mc <;> simp [hmc]
  · simp [he]

/-- A unit fails: each context with a wave on the slice has the cause, and its virtual function the bit. -/
theorem machineCheck_posted (k : Cause) (sps : List Nat) (s : State) {sp : Nat} (h : sp ∈ sps) :
    ((sps.foldl (checked k) s).ctx sp).mc ≠ none ∧ ((sps.foldl (checked k) s).vf (sp / 16384)).event.testBit 2 = true := by
  refine foldl_marks (P := fun (s : State) sp => (s.ctx sp).mc ≠ none ∧ (s.vf (sp / 16384)).event.testBit 2 = true)
    (fun s a => ⟨?_, ?_⟩) (fun s a b hb => ⟨?_, ?_⟩) sps s h
  · rw [checked_mc]
    split
    · exact Option.some_ne_none k
    · rename_i hn
      exact fun he => hn ⟨rfl, he⟩
  · exact raise_testBit (s.modCtx a (fun x => if x.mc.isSome then x else { x with mc := some k })) (a / 16384) 2
  · rw [checked_mc]
    split
    · exact Option.some_ne_none k
    · exact hb.1
  · exact raise_testBit_of (s := s.modCtx a (fun x => if x.mc.isSome then x else { x with mc := some k })) hb.2

theorem mem_spacesOn {p : Nat × Wave} (hp : p ∈ s.waves) (hslice : p.1 / 48 = slice) (hx : s.task p.2.task = some x) :
    x.space ∈ spacesOn s slice :=
  List.mem_dedup.2 (List.mem_filterMap.2 ⟨p, List.mem_filter.2 ⟨hp, by simp [hslice]⟩, by rw [hx]; rfl⟩)

theorem exec_machineCheck_spec (s : State) (slice : Nat) (unit : Unit4) : ∃ t, exec (.machineCheck slice unit) s = .next t ∧
    t.lanes = s.lanes ∧ ∀ p x, p ∈ s.waves → p.1 / 48 = slice → s.task p.2.task = some x →
      (t.ctx x.space).mc ≠ none ∧ (t.vf (x.space / 16384)).event.testBit 2 = true :=
  ⟨_, exec_machineCheck_eq .., foldl_keeps State.lanes (checked (unitCause slice unit)) (fun _ _ => rfl) _ s,
    fun _ _ hp hslice hx => machineCheck_posted _ _ s (mem_spacesOn hp hslice hx)⟩

theorem exec_eventClear_of {vf : Nat} {mask : BitVec 4} {f : Vf} (h : mget s.vfs vf = some f) : exec (.eventClear vf mask) s =
    .next (s.modVf vf (fun f => { f with event := ((BitVec.ofNat 4 f.event) &&& ~~~mask).toNat })) := by
  rw [exec_eventClear, execEventClear, h]
  rfl

end Sys2Proof.Power
end

section
/-! PROOFS. O53: cuts, saves, restores and the events of power, together. -/

namespace Sys2Proof.Cuts

open Sys2Proof Sys2Proof.Machine Sys2Proof.Claims Sys2Proof.Power

variable {s : State} {vf asid sp n slice place w : Nat} {v : Wave} {r : Saved} {x : Task}

/-- A wave of a task of one slice comes back there without mode areas: it and its threads are as they were saved. -/
theorem exec_waveRestore_seated (hbad : s.bad = none) (hsaved : (s.ctx (spaceKey vf asid)).saved[n]? = some r)
    (hx : s.task r.wave.task = some x) (hone : x.members.length ≤ 1) (hrun : s.mayRun (spaceKey vf asid) = true)
    (hfits : Fits s x place r) (hlanes : r.lanes ≠ []) (hnodup : (r.lanes.map (·.1)).Nodup)
    (hbar : ∀ p, p ∈ r.lanes → p.2.wait.barOf = none) (hareas : r.areas = []) :
    exec (.waveRestore vf asid n r.slice place) s = .next (returned s (spaceKey vf asid) n place r) := by
  rw [exec_waveRestore_alone hsaved hx hone hrun hfits hlanes, putBack_seated (placeKey_div _ hfits.low) hnodup hbar hareas]
  exact finish_of_sound ((returned_bad ..).trans hbad)

/-- A wave of one lane in a trap handler comes back with the area of one trap level: its bytes and its poison are there again. -/
theorem exec_waveRestore_area {j : Nat} {m : Lane} {a : Area} (hbad : s.bad = none)
    (hsaved : (s.ctx (spaceKey vf asid)).saved[n]? = some r) (hx : s.task r.wave.task = some x) (hone : x.members.length ≤ 1)
    (hrun : s.mayRun (spaceKey vf asid) = true) (hfits : Fits s x place r) (hlanes : r.lanes = [(j, m)]) (hareas : r.areas = [(j, [a])])
    (hbar : m.wait.barOf = none) (hlow : 1 ≤ a.level) (hhigh : a.level ≤ 3) (hw : w = placeKey r.slice place)
    (hmem : areaOf (w * 32 + j) m a + 4096 ≤ hbmSize)
    (hbytes : a.bytes.length = 64 * (levelLines a.level (areaOf (w * 32 + j) m a)).length) :
    ∃ t, exec (.waveRestore vf asid n r.slice place) s = .next t ∧ t.wave w = some r.wave ∧
      ∀ i line, (levelLines a.level (areaOf (w * 32 + j) m a))[i]? = some line →
        peeks t.mem (64 * line) 64 = (a.bytes.drop (64 * i)).take 64 ∧
          (mget a.spoilt i ≠ none → t.isPoison (64 * line) 64 = true) := by
  subst hw
  have hput := putBack_area (s := s.dropSaved (spaceKey vf asid) n) (sp := spaceKey vf asid) (placeKey_div _ hfits.low) hlanes hareas hbar
    hlow hhigh hmem hbytes
  have hexec := exec_waveRestore_alone hsaved hx hone hrun hfits (by simp [hlanes])
  have hback : (returned s (spaceKey vf asid) n place r).wave (placeKey r.slice place) = some r.wave := by rw [returned_wave, if_pos rfl]
  refine ⟨_, hexec.trans (finish_of_sound (hput.bad.trans ((returned_bad ..).trans hbad))), ?_, fun i line hi => ?_⟩
  · rw [State.wave, hput.waves]
    exact hback
  · have hp : (line, i) ∈ (levelLines a.level (areaOf (placeKey r.slice place * 32 + j) m a)).zipIdx :=
      List.mem_zipIdx_iff_getElem?.2 hi
    exact ⟨hput.bytes _ hp, fun h => isPoison_line (hput.spoilt _ hp h)⟩

/-- Settles O53: each event by its own lemma; a save keeps a record of each wave, and a restore puts a wave or a whole gang back. -/
theorem cutAndPowerEventsComplete : Obligations.CutAndPowerEventsComplete := by
  refine ⟨?arrival, ?deadline, ?save, ?restore, ?gang, ?whole, ?ratio, ?early, ?interval, ?thermal, ?check, ?event⟩
  case arrival => exact fun vf asid sp slice s hsp hcut hnew => exec_cutArrival_spec hsp hcut hnew
  case deadline =>
    exact fun vf asid sp slice d s hsp harrived => ⟨exec_cutDeadline_passes hsp harrived, exec_cutDeadline_waits hsp harrived⟩
  case save =>
    intro slice place w s v x hbad hw hplace hv hx hready
    obtain ⟨t, hexec, hgrows, hgone⟩ := exec_waveSave_spec hbad hw hplace hv hx hready
    refine ⟨t, hexec, hgrows x.space, fun p hp hwave => ?_⟩
    obtain ⟨hoff, hlanes, r, hmem, huid, htask, hslice, hthreads⟩ := hgone p hp hwave
    exact ⟨hoff, hlanes, r, hmem, huid, htask.trans (savedTogether_task hp), hslice, hthreads⟩
  case restore =>
    intro vf asid sp n slice place w s v x hbad hsp hw hsaved hx hone hplace hrun hfree hplaces hblocks hmember hslice hroom hlanes
      hnodup hbar
    subst hsp hslice hw
    have hfits : Fits s x place v := ⟨hmember, hplace, hfree, hplaces, hblocks, hroom⟩
    refine ⟨fun hareas => ?_, fun j m a b ls hlane _ harea hlow hhigh hb hls hmem hbytes => ?_⟩
    · obtain ⟨hwave, hdrop, hmem, hthreads⟩ := seated_spec (s := s) (sp := spaceKey vf asid) (w := placeKey v.slice place) hnodup n
      exact ⟨_, exec_waveRestore_seated hbad hsaved hx hone hrun hfits hlanes hnodup hbar hareas, hwave, hdrop, hmem, hthreads⟩
    · subst hb hls
      exact exec_waveRestore_area hbad hsaved hx hone hrun hfits hlane harea (hbar (j, m) (by simp [hlane])) hlow hhigh rfl hmem hbytes
  case gang =>
    intro vf asid sp n slice place s v x q hbad hsp hsaved hslice hq hx hgang hrun hapart hback hlow
    subst hsp hslice hq
    have hall : Gang s (spaceKey vf asid) x v.wave.task q := ⟨hx, hrun, hapart, fun r hr => seats_of_comesBack (hback r hr)⟩
    obtain ⟨t, hexec, hnil, hthere⟩ := exec_waveRestore_gang hall hbad hsaved hgang hlow
    exact ⟨t, hexec, hnil, fun r hr => ⟨(hthere r hr).wave, (hthere r hr).lanes⟩⟩
  case whole => exact fun vf asid n slice place s t v x hsaved hlanes hx hgang h => exec_waveRestore_whole hsaved hlanes hx hgang h
  case ratio =>
    refine fun slice code s => ⟨fun hnow hcode => ⟨_, exec_clockRatioChange_due hnow hcode, ?_, ?_, rfl⟩, exec_clockRatioChange_early⟩
    · rw [slice_modSlice, if_pos rfl]
    · rw [slice_modSlice, if_pos rfl]; rfl
  case early => exact fun c ds hot s h => exec_controlIntervalEnd_early h
  case interval =>
    intro c tn d hot s x hdue htasks hc hidle
    obtain ⟨t, u, hexec, ⟨-, y, hy, hdraw, hover, hslowest⟩, hcluster, htasks', hctxs, hbudget, hslow⟩ :=
      exec_controlIntervalEnd_spec (d := d) (hot := hot) hdue htasks hc hidle
    have htask : t.task tn = some y := by rw [State.task, htasks']; exact hy
    have hctx : t.ctx x.space = u.ctx x.space := by rw [State.ctx, hctxs]; rfl
    refine ⟨t, y, hexec, ?_, ?_, ?_, hbudget, htask, hdraw, fun h hlow => ?_, hslowest, hslow⟩
    · rw [hcluster]; rfl
    · rw [hcluster]; rfl
    · rw [hcluster]
      exact Nat.le_of_lt_succ (Nat.mod_lt _ (Nat.succ_pos _))
    · rw [hctx]; exact hover h hlow
  case thermal => exact fun code s => ⟨fun d => exec_thermalEvent_die s d code, fun p => exec_thermalEvent_stack s p code⟩
  case check => exact fun slice unit s => exec_machineCheck_spec s slice unit
  case event => exact fun vf mask s f h => exec_eventClear_of h

end Sys2Proof.Cuts
end

section
/-! PROOFS. Writes by agents of the device, and the append of a LAUNCH packet (R201, R360 to R362, R369). -/

namespace Sys2Proof.Tasks

open Sys2Proof Sys2Proof.Machine

variable {s t u : State} {space va h : Nat} {sc : Scope}

/-- Only memory, its location order, releases and the model's own counters differ. -/
structure Written (s t : State) : Prop where
  same : t = { s with mem := t.mem, poison := t.poison, ecc := t.ecc, log := t.log, rels := t.rels, nextId := t.nextId, free := t.free }

theorem Written.refl (s : State) : Written s s := ⟨rfl⟩

theorem Written.trans (h : Written s t) (g : Written t u) : Written s u := ⟨by rw [g.same, h.same]⟩

theorem Written.foldl {α : Type} {f : State → α → State} (hf : ∀ s x, Written s (f s x)) (xs : List α) (s : State) :
    Written s (xs.foldl f s) := by
  induction xs generalizing s with
  | nil => exact .refl s
  | cons x r ih => exact (hf s x).trans (ih (f s x))

theorem Written.bind {o : Option State} {f : State → Option State} (ho : ∀ a, o = some a → Written s a)
    (hf : ∀ a b, f a = some b → Written a b) (h : o.bind f = some t) : Written s t := by
  obtain ⟨a, ha, hb⟩ := Option.bind_eq_some_iff.1 h
  exact (ho a ha).trans (hf a t hb)

-- Single writes, and the words of one indivisible operation.
theorem devStore_written (s : State) (key : Nat) (bs : List Byte) (sc : Scope) (atom : Bool) : Written s (s.devStore key bs sc atom) := ⟨rfl⟩

theorem devPut_written {v : Nat} {atom : Bool} (h : s.devPut space va v sc atom = some t) : Written s t := by
  unfold State.devPut at h
  split at h
  · obtain rfl := Option.some.inj h
    split
    · exact .refl s
    · exact devStore_written ..
  · cases h

theorem devPuts_written {vs : List Nat} (h : s.devPuts space va sc vs = some t) : Written s t := by
  induction vs generalizing s va with
  | nil =>
    obtain rfl := Option.some.inj h
    exact .refl s
  | cons v r ih =>
    rw [State.devPuts] at h
    split at h
    · rename_i hput
      exact (devPut_written hput).trans (ih h)
    · cases h

-- Segments (R361, R362).
theorem popSegment_written {pool seg : Nat} (h : s.popSegment space pool = some (seg, t)) : Written s t := by
  unfold State.popSegment at h
  split at h
  · cases h
  · dsimp only at h
    split at h
    · cases h
    · split at h
      · cases h
      · obtain ⟨a, ha, hb⟩ := Option.map_eq_some_iff.1 h
        obtain ⟨-, rfl⟩ := Prod.mk.inj hb
        exact devPut_written ha

/-- A segment for the packet is there once the pool's and the splice's words are written. -/
theorem reserveSegment_written {i seg : Nat} (h' : s.reserveSegment space h i = (.inr seg, t)) : Written s t := by
  unfold State.reserveSegment at h'
  dsimp only at h'
  split at h'
  · split at h'
    · split at h'
      · cases h'
      · rename_i hpop
        split at h'
        · rename_i hputs
          obtain ⟨-, rfl⟩ := Prod.mk.inj h'
          refine (popSegment_written hpop).trans ?_
          exact .bind (fun _ ha => .bind (fun _ => devPut_written) (fun _ _ => devPuts_written) ha) (fun _ _ => devPut_written) hputs
        · cases h'
    · cases h'
    · cases h'
  · split at h'
    · obtain ⟨-, rfl⟩ := Prod.mk.inj h'
      exact .refl s
    · cases h'

/-- Where no segment is there, the packet is not appended. -/
theorem reserveSegment_inl {i : Nat} {a : Append} (h' : s.reserveSegment space h i = (.inl a, t)) : a = .full ∨ a = .wait := by
  unfold State.reserveSegment at h'
  dsimp only at h'
  split at h'
  · split at h'
    · split at h'
      · cases h'; exact .inl rfl
      · split at h'
        · cases h'
        · cases h'; exact .inl rfl
    · cases h'; exact .inr rfl
    · cases h'; exact .inl rfl
  · split at h'
    · split at h'
      · cases h'; exact .inr rfl
      · cases h'
    · cases h'; exact .inr rfl

/-- An append writes the packet and the reel's words, and marks the reel pending (R201, R363). -/
theorem appendLaunch_written {slate argp nt depth : Nat} (h' : s.appendLaunch space h slate argp nt depth = .ok u) :
    ∃ t, Written s t ∧ u = { t with reels := u.reels } := by
  unfold State.appendLaunch at h'
  split at h'
  · split at h'
    · cases h'
    · split at h'
      · rename_i hseg
        subst h'
        rcases reserveSegment_inl hseg with e | e <;> cases e
      · rename_i hseg
        dsimp only at h'
        split at h'
        · rename_i a hputs
          cases h'
          refine ⟨a, (reserveSegment_written hseg).trans ?_, rfl⟩
          exact .bind (fun _ ha => .bind (fun _ => devPuts_written) (fun _ _ => devPut_written) ha) (fun _ _ => devPut_written) hputs
        · cases h'
  · cases h'

end Sys2Proof.Tasks
end

section
/-! PROOFS. What the settling of cuts leaves of tasks, reels and contexts (R184, R207, R366). -/

namespace Sys2Proof.Tasks

open Sys2Proof Sys2Proof.Machine Sys2Proof.Numbers Sys2Proof.Slots Sys2Proof.Control Sys2Proof.Cuts

variable {s t u : State}

/-- A task without its frame rows, whose ages may stand still (R262). -/
def rowless (x : Task) : Task := { x with rows := [] }

/-- Tasks keep all but the ages of their rows, reels their owners, and contexts whether they are torn down. -/
structure Kept (s t : State) : Prop where
  tasks : t.tasks.map (fun p => (p.1, rowless p.2)) = s.tasks.map (fun p => (p.1, rowless p.2))
  reels : t.reels.map (fun p => (p.2.vf, p.2.asid)) = s.reels.map (fun p => (p.2.vf, p.2.asid))
  torn : ∀ c, (t.ctx c).torn = (s.ctx c).torn

theorem Kept.refl (s : State) : Kept s s := ⟨rfl, rfl, fun _ => rfl⟩

theorem Kept.trans (h : Kept s t) (g : Kept t u) : Kept s u :=
  ⟨g.tasks.trans h.tasks, g.reels.trans h.reels, fun c => (g.torn c).trans (h.torn c)⟩

theorem Kept.foldl {α : Type} {f : State → α → State} (hf : ∀ s x, Kept s (f s x)) (xs : List α) (s : State) : Kept s (xs.foldl f s) := by
  induction xs generalizing s with
  | nil => exact .refl s
  | cons x r ih => exact (hf s x).trans (ih (f s x))

theorem torn_modCtx {f : Ctx → Ctx} (hf : ∀ c, (f c).torn = c.torn) (s : State) (sp c : Nat) :
    ((s.modCtx sp f).ctx c).torn = (s.ctx c).torn := by
  rw [ctx_modCtx]
  split
  · rename_i e; subst e; exact hf _
  · rfl

/-- A change of contexts one by one that tears none down. -/
theorem torn_mapCtxs {g : Nat × Ctx → Nat × Ctx} (hkey : ∀ p, (g p).1 = p.1) (htorn : ∀ p, (g p).2.torn = p.2.torn)
    (h : t.ctxs = s.ctxs.map g) (c : Nat) : (t.ctx c).torn = (s.ctx c).torn := by
  rw [State.ctx, State.ctx, h, mgetD, mgetD, mget_map hkey]
  cases mget s.ctxs c with
  | none => rfl
  | some y => exact htorn (c, y)

theorem saveEngines_kept (s : State) (sp : Nat) : Kept s (s.saveEngines sp) := by
  unfold State.saveEngines
  refine Kept.foldl (fun u p => ?_) _ s
  refine Kept.foldl (fun u v => ?_) _ u
  refine ⟨rfl, rfl, fun c => (torn_modCtx ?_ _ sp c).trans rfl⟩
  exact fun _ => rfl

theorem grantTake_kept (s : State) : Kept s s.grantTake := by
  unfold State.grantTake
  split
  · exact .refl s
  · split
    · refine ⟨?_, rfl, torn_mapCtxs (fun _ => by split <;> rfl) (fun _ => by split <;> rfl) rfl⟩
      rw [List.map_map]
      refine List.map_congr_left fun p _ => ?_
      rw [Function.comp_apply]
      split <;> rfl
    · exact .refl s

theorem owners_map {g : Nat × Reel → Nat × Reel} (hg : ∀ p, ((g p).2.vf, (g p).2.asid) = (p.2.vf, p.2.asid)) (h : t.reels = s.reels.map g) :
    t.reels.map (fun p => (p.2.vf, p.2.asid)) = s.reels.map (fun p => (p.2.vf, p.2.asid)) := by
  rw [h, List.map_map]
  exact List.map_congr_left fun p _ => hg p

/-- A QUIESCE packet that completes leaves its reel to its owner (R359). -/
theorem owner_quiesced (done : List Nat) (p : Nat × Reel) : ∀ r, r = (match p.2.quiesce with
      | some i => if done.contains (spaceKey p.2.vf p.2.asid) then
          { p.2 with quiesce := none, results := mset p.2.results i 0 } else p.2
      | none => p.2) → (r.vf, r.asid) = (p.2.vf, p.2.asid) := by
  rintro r rfl
  split
  · split <;> rfl
  · rfl

theorem settleCuts_kept (s : State) : Kept s s.settleCuts := by
  have hengines : Kept s (s.cutsDone.foldl (fun s sp => s.saveEngines sp) s) := Kept.foldl saveEngines_kept _ s
  have hlifted : ∀ {t : State}, t.tasks = (s.cutsDone.foldl (fun s sp => s.saveEngines sp) s).tasks →
      t.reels.map (fun p => (p.2.vf, p.2.asid)) =
        (s.cutsDone.foldl (fun s sp => s.saveEngines sp) s).reels.map (fun p => (p.2.vf, p.2.asid)) →
      t.ctxs = (s.cutsDone.foldl (fun s sp => s.saveEngines sp) s).ctxs.map (fun p =>
        if s.cutsDone.contains p.1 then (p.1, { p.2 with cut := false, arrived := [] }) else p) → Kept s t :=
    fun htasks hreels hctxs => hengines.trans
      ⟨by rw [htasks], hreels, torn_mapCtxs (fun _ => by split <;> rfl) (fun _ => by split <;> rfl) hctxs⟩
  unfold State.settleCuts
  dsimp only
  split
  · split
    · refine Kept.trans ?_ (grantTake_kept _)
      exact hlifted rfl (owners_map (fun p => owner_quiesced _ p _ rfl) rfl) rfl
    · exact hlifted rfl (owners_map (fun p => owner_quiesced _ p _ rfl) rfl) rfl
  · exact hlifted rfl (owners_map (fun p => owner_quiesced _ p _ rfl) rfl) rfl

/-- A task is found again, with all but the ages of its rows. -/
theorem Kept.task (h : Kept s t) {n : Nat} {x : Task} (hx : s.task n = some x) :
    ∃ y, t.task n = some y ∧ rowless y = rowless x := by
  have hmap : ∀ v : State, mget (v.tasks.map (fun p => (p.1, rowless p.2))) n = (v.task n).map rowless :=
    fun v => mget_map (g := fun p => (p.1, rowless p.2)) (fun _ => rfl) v.tasks n
  have := (hmap t).symm.trans ((congrArg (mget · n) h.tasks).trans (hmap s))
  rw [hx, Option.map_some] at this
  exact Option.map_eq_some_iff.1 this

/-- A task that is left was there, in the same address space. -/
theorem Kept.space (h : Kept s t) {p : Nat × Task} (hp : p ∈ t.tasks) : ∃ q, q ∈ s.tasks ∧ q.2.space = p.2.space := by
  have hmem := List.mem_map_of_mem (f := fun p : Nat × Task => (p.1, rowless p.2)) hp
  rw [h.tasks] at hmem
  obtain ⟨q, hq, he⟩ := List.mem_map.1 hmem
  have hspace := congrArg Task.space (Prod.mk.inj he).2
  exact ⟨q, hq, hspace⟩

/-- A reel that is left was there, with the same owner. -/
theorem Kept.owner (h : Kept s t) {p : Nat × Reel} (hp : p ∈ t.reels) :
    ∃ q, q ∈ s.reels ∧ q.2.vf = p.2.vf ∧ q.2.asid = p.2.asid := by
  have hmem := List.mem_map_of_mem (f := fun p : Nat × Reel => (p.2.vf, p.2.asid)) hp
  rw [h.reels] at hmem
  obtain ⟨q, hq, he⟩ := List.mem_map.1 hmem
  obtain ⟨hvf, hasid⟩ := Prod.mk.inj he
  exact ⟨q, hq, hvf, hasid⟩

end Sys2Proof.Tasks
end

section
/-! PROOFS. `spawn` and `spawnw`: the append, the wait for a slow producer, and what a full reel answers (R201, R203, R369). -/

namespace Sys2Proof.Tasks

open Sys2Proof Sys2Proof.Machine Sys2Proof.Claims Sys2Proof.Numbers Sys2Proof.Accesses

variable {s s1 u : State} {i : Instr} {k key : Nat} {l : Lane} {x : Task} {ap nt sl rl : Word} {w : StallL}

-- An elected instruction of a lane alone: the two ends in which the lane does not complete.
section elected
variable {body : State → List Nat → Nat → List Entry → State × EOut} (h : Alone s i k l)
include h

theorem runElected_of_hold {wt : Wait} (hb : body s [k] k (l.ops i) = (u, .hold wt)) :
    runElected i body s = (u.holdLane k i wt s.nextId).bump.settled := by
  have hops : s.operands k l (shapeOf i).reads = (l.ops i, s) := operands_of_arrived h.ready.onChip
  unfold runElected
  simp only [h.only, readied_of_alone h, passing_of_ready [k] (h.only ▸ h.strand.ready), h.here, hops, hb, List.foldl_cons,
    List.foldl_nil]

theorem runElected_of_done (hb : body s [k] k (l.ops i) = (u, .done)) : runElected i body s = u.bump.settled := by
  have hops : s.operands k l (shapeOf i).reads = (l.ops i, s) := operands_of_arrived h.ready.onChip
  unfold runElected
  simp only [h.only, readied_of_alone h, passing_of_ready [k] (h.only ▸ h.strand.ready), h.here, hops, hb]

end elected

/-- A lane alone whose `spawn` or `spawnw` passes its checks: depth, task count, and access to the reel's header (R201, R203). -/
structure Spawning (s s1 : State) (i : Instr) (k key : Nat) (l : Lane) (x : Task) (ap nt sl rl : Word) : Prop where
  alone : Alone s i k l
  task : s.taskOf k = some x
  quiet : Quiet s k
  operands : (ap, nt, sl, rl) = (l.operand i 3, l.operand i 2, l.operand i 1, l.operand i 0)
  depth : x.depth ≠ 7
  some_ : 0 < nt.toNat
  few : nt.toNat ≤ 2 ^ 32
  access : s.access k l .atomic true rl 64 = (.ok key, s1)

-- The state from which the packet is appended: the lane has released.
section release
variable (h : Spawning s s1 i k key l x ap nt sl rl)
include h

theorem Spawning.translated : Translated s s1 := access_translated h.access

theorem Spawning.released : s1.release k .device = s1.addRel (sliceOf k) .device l.view :=
  release_of_quiet .device (translated_quiet h.translated h.quiet) ((translated_lane h.translated k).trans h.alone.here)

theorem Spawning.begun : Begun (s1.release k .device) := by
  rw [h.released]
  exact ⟨(translated_bad h.translated).trans h.alone.sound.bad,
    (congrArg Iss.late (translated_iss h.translated)).trans h.alone.sound.late⟩

theorem Spawning.lane (j : Nat) : (s1.release k .device).lane j = s.lane j := by
  rw [h.released]
  exact translated_lane h.translated j

theorem Spawning.waves : (s1.release k .device).waves = s.waves := by
  rw [h.released, h.translated.same]; rfl

theorem Spawning.tasks : (s1.release k .device).tasks = s.tasks := by
  rw [h.released, h.translated.same]; rfl

theorem Spawning.quiet' : Quiet (s1.release k .device) k :=
  quiet_of_banks h.quiet h.waves fun n => by rw [State.task, h.tasks]; rfl

theorem Spawning.taskOf (j : Nat) : (s1.release k .device).taskOf j = s.taskOf j := by
  simp only [State.taskOf, State.taskNo, State.wave, State.task, h.waves, h.tasks]

theorem Spawning.spaceOf (j : Nat) : (s1.release k .device).spaceOf j = s.spaceOf j := by
  simp only [State.spaceOf, h.taskOf]

theorem Spawning.cycle (n : Nat) : (s1.release k .device).cycle n = s.cycle n := by
  have hcycle := congrArg Slice.cycle (h.translated.slices n)
  rw [h.released]
  exact hcycle

end release

-- What the append answers (R201).
/-- What `spawn` makes of the outcome of its append. -/
def attempt (s : State) : Append → (EOut ⊕ Bool) × State
  | .ok u => (.inr true, u)
  | .full => (.inr false, s)
  | .wait => (.inl (.hold .reel), s)

theorem spawnTry_of (h : Spawning s s1 i k key l x ap nt sl rl) : s.spawnTry [k] k (l.ops i) =
    attempt (s1.release k .device) ((s1.release k .device).appendLaunch (s.spaceOf k) rl.toNat sl.toNat ap.toNat nt.toNat (x.depth + 1)) := by
  obtain ⟨hap, hnt, hsl, hrl⟩ : ap = _ ∧ nt = _ ∧ sl = _ ∧ rl = _ := by simpa using h.operands
  have hcount : ¬ (nt.toNat = 0 ∨ 2 ^ 32 < nt.toNat) := by have := h.some_; have := h.few; omega
  unfold State.spawnTry
  simp only [ops_getD_val, ← hap, ← hnt, ← hsl, ← hrl, h.task, Option.map_some, Option.getD_some, h.depth, if_false, h.alone.here,
    h.access, List.foldl_cons, List.foldl_nil, h.spaceOf]
  rw [if_neg (by simpa using hcount)]
  cases (s1.release k .device).appendLaunch (s.spaceOf k) rl.toNat sl.toNat ap.toNat nt.toNat (x.depth + 1) <;> rfl

/-- An append changes neither lanes nor the strand in issue. -/
theorem appendLaunch_begun {space h slate argp n depth : Nat} (hs : Begun s) (ha : s.appendLaunch space h slate argp n depth = .ok u) :
    Begun u ∧ u.lanes = s.lanes := by
  obtain ⟨t, ht, hu⟩ := appendLaunch_written ha
  rw [hu, ht.same]
  exact ⟨⟨hs.bad, hs.late⟩, rfl⟩

-- Completion, and the wait for a producer (R201, R369).
section outcomes
variable (hi : i = .spawn w ∨ i = .spawnw w) (h : Spawning s s1 i k key l x ap nt sl rl)
include hi h

/-- The packet is appended: the lane pushes 0. -/
theorem exec_spawn_appends (ha : (s1.release k .device).appendLaunch (s.spaceOf k) rl.toNat sl.toNat ap.toNat nt.toNat (x.depth + 1) = .ok u) :
    ∃ t, exec i s = .next t ∧ Completes s u t i k [(0, [])] none := by
  obtain ⟨hu, hlanes⟩ := appendLaunch_begun h.begun ha
  have hl : u.lane k = some l := (congrArg (mget · k) hlanes).trans ((h.lane k).trans h.alone.here)
  have htry := spawnTry_of h
  rw [ha] at htry
  rcases hi with rfl | rfl
  · exact exec_of_all_alone h.alone (by simp only [htry, attempt, if_true]) hu hl
  · exact exec_of_all_alone h.alone (by simp only [htry, attempt]) hu hl

/-- Another producer has not published the segment yet: the lane waits (log entry 35). -/
theorem exec_spawn_waits (ha : (s1.release k .device).appendLaunch (s.spaceOf k) rl.toNat sl.toNat ap.toNat nt.toNat (x.depth + 1) = .wait) :
    ∃ t, exec i s = .next t ∧ t.lane k = some (holding s i l .reel) := by
  have htry := spawnTry_of h
  rw [ha] at htry
  have hrun : exec i s = finish ((s1.release k .device).holdLane k i .reel s.nextId).bump.settled := by
    rcases hi with rfl | rfl
    · exact congrArg finish (runElected_of_hold h.alone (by simp only [htry, attempt]))
    · exact congrArg finish (runElected_of_hold h.alone (by simp only [htry, attempt]))
  rw [holdLane_of ((h.lane k).trans h.alone.here) rfl, settled_of_prompt (by exact h.begun.late), finish_of_sound (by exact h.begun.bad)]
    at hrun
  exact ⟨_, hrun, lane_setLane_self ..⟩

end outcomes

/-- A full reel: `spawn` pushes 1. -/
theorem exec_spawn_full (h : Spawning s s1 (.spawn w) k key l x ap nt sl rl)
    (ha : (s1.release k .device).appendLaunch (s.spaceOf k) rl.toNat sl.toNat ap.toNat nt.toNat (x.depth + 1) = .full) :
    ∃ t, exec (.spawn w) s = .next t ∧ Completes s (s1.release k .device) t (.spawn w) k [(1, [])] none := by
  have htry := spawnTry_of h
  rw [ha] at htry
  exact exec_of_all_alone h.alone (by simp only [htry, attempt]; rfl) h.begun ((h.lane k).trans h.alone.here)

end Sys2Proof.Tasks
end

section
/-! PROOFS. The spawn-wait site: a lane whose reel is full moves there with its stack in backing store (R54, R82, R202). -/

namespace Sys2Proof.Tasks

open Sys2Proof Sys2Proof.Machine Sys2Proof.Claims Sys2Proof.Numbers Sys2Proof.Accesses Sys2Proof.Control

variable {s t u s1 : State} {i : Instr} {k key j a : Nat} {l m : Lane} {x : Task} {ap nt sl rl : Word} {w : StallL}

-- The stack of a lane goes to its backing (R82, R87).
/-- Only memory, its location order and lanes differ, and of the lane itself what it must respect, what its entries depend on, and an
error that it owes. -/
structure Stored (s t : State) (k : Nat) : Prop where
  same : t = { s with mem := t.mem, log := t.log, nextId := t.nextId, lanes := t.lanes }
  lane : ∀ l, s.lane k = some l → ∃ v d c, t.lane k = some { l with view := v, under := d, integ := c }

theorem Stored.refl (s : State) (k : Nat) : Stored s s k := ⟨rfl, fun l h => ⟨l.view, l.under, l.integ, h⟩⟩

theorem Stored.trans (h : Stored s t k) (g : Stored t u k) : Stored s u k := by
  refine ⟨by rw [g.same, h.same], fun l hl => ?_⟩
  obtain ⟨v, d, c, ht⟩ := h.lane l hl
  obtain ⟨v', d', c', hu⟩ := g.lane _ ht
  exact ⟨v', d', c', hu⟩

theorem Stored.waves (h : Stored s t k) : t.waves = s.waves := by rw [h.same]
theorem Stored.tasks (h : Stored s t k) : t.tasks = s.tasks := by rw [h.same]
theorem Stored.bad (h : Stored s t k) : t.bad = s.bad := by rw [h.same]

theorem stored_modLane {f : Lane → Lane} (hf : ∀ l, ∃ v d c, f l = { l with view := v, under := d, integ := c }) (s : State) (k : Nat) :
    Stored s (s.modLane k f) k := by
  refine ⟨by unfold State.modLane; split <;> rfl, fun l hl => ?_⟩
  obtain ⟨v, d, c, h⟩ := hf l
  exact ⟨v, d, c, by rw [lane_modLane_self, hl, Option.map_some, h]⟩

theorem stored_storeWord (he : keyExists a) (s : State) (k : Nat) (v : Word) : Stored s (s.storeWord k a v) k := by
  have hwrite : Stored s (s.write a (leBytes 8 v.toNat) (sliceOf k) (s.who k) none none 0) k :=
    ⟨rfl, fun l h => ⟨l.view, l.under, l.integ, h⟩⟩
  unfold State.storeWord State.laneWrite
  rw [touch_of_exists he]
  exact hwrite.trans (stored_modLane (fun l => ⟨_, l.under, l.integ, rfl⟩) _ k)

theorem stored_storeDeep (he : keyExists (s.backKey k m j)) (v : Word) (deps : List Nat) : Stored s (s.storeDeep k m j v deps) k := by
  have hkeep : ∀ u, Stored u (u.modLane k (fun x => { x with under := msetD x.under (m.posKey j) deps [] })) k :=
    fun u => stored_modLane (fun l => ⟨l.view, _, l.integ, rfl⟩) u k
  unfold State.storeDeep
  dsimp only
  split
  · exact hkeep s
  · exact (stored_storeWord he s k v).trans (hkeep _)

/-- Where a backing entry lies depends on the task, and on no other part of the state (R82, R341). -/
theorem backKey_of_tasks (hw : t.waves = s.waves) (ht : t.tasks = s.tasks) (k : Nat) (l : Lane) (j : Nat) :
    t.backKey k l j = s.backKey k l j := by
  simp only [State.backKey, State.taskOf, State.taskNo, State.wave, State.task, hw, ht]

/-- Entries go to their places one after another. -/
theorem stored_foldl (g : Nat) (ps : List (Entry × Nat)) (s : State) (h : ∀ p, p ∈ ps → keyExists (s.backKey k m (g + p.2))) :
    Stored s (ps.foldl (fun s p => s.storeDeep k m (g + p.2) p.1.val p.1.deps) s) k := by
  induction ps generalizing s with
  | nil => exact .refl s k
  | cons p r ih =>
    have hfirst := stored_storeDeep (h p (by simp)) p.1.val p.1.deps
    refine hfirst.trans (ih _ fun q hq => ?_)
    rw [backKey_of_tasks hfirst.waves hfirst.tasks]
    exact h q (by simp [hq])

theorem stored_storeAll (chip : List Entry) (g : Nat) (h : ∀ j, g ≤ j → j < g + chip.length → keyExists (s.backKey k m j)) :
    Stored s (s.storeAll k m chip g) k := by
  have hsoft : Stored s (s.modLane k (fun x => x.drainSoft g chip.reverse)) k := by
    refine stored_modLane (fun l => ?_) s k
    unfold Lane.drainSoft
    split
    · exact ⟨l.view, l.under, _, rfl⟩
    · exact ⟨l.view, l.under, l.integ, rfl⟩
  refine hsoft.trans (stored_foldl g _ _ fun p hp => ?_)
  have hlt := (List.mem_zipIdx' hp).1
  rw [List.length_reverse] at hlt
  rw [backKey_of_tasks hsoft.waves hsoft.tasks]
  exact h _ (Nat.le_add_right ..) (by omega)

-- The move (R202).
/-- Of a state, lanes and releases differ, and of one lane what it must respect and where its grace periods stand. -/
structure Published (s t : State) (k : Nat) : Prop where
  same : t = { s with lanes := t.lanes, rels := t.rels, nextId := t.nextId }
  lane : ∀ l, s.lane k = some l → ∃ v q o, t.lane k = some { l with view := v, qg := q, ord := o }

theorem Published.trans (h : Published s t k) (g : Published t u k) : Published s u k := by
  refine ⟨by rw [g.same, h.same], fun l hl => ?_⟩
  obtain ⟨v, q, o, ht⟩ := h.lane l hl
  obtain ⟨v', q', o', hu⟩ := g.lane _ ht
  exact ⟨v', q', o', hu⟩

theorem Published.waves (h : Published s t k) : t.waves = s.waves := by rw [h.same]
theorem Published.tasks (h : Published s t k) : t.tasks = s.tasks := by rw [h.same]
theorem Published.bad (h : Published s t k) : t.bad = s.bad := by rw [h.same]

/-- A thread has no bank operation where its wave and the tasks are those of a state in which it has none. -/
theorem quiet_of_same (h : Quiet s k) (hw : t.waves = s.waves) (ht : t.tasks = s.tasks) : Quiet t k :=
  quiet_of_banks h hw fun n => by rw [State.task, ht]; rfl

theorem published_quiesce (hq : Quiet s k) : Published s (s.quiesce k) k := by
  refine ⟨?_, (synced_quiesce s k).lanes k⟩
  unfold State.quiesce
  split
  · split
    · rw [flushBanks_of_quiet hq]
      unfold State.boundary State.modLane
      split <;> split <;> rfl
    · rfl
  · rfl

theorem published_release (hq : Quiet s k) (sc : Scope) : Published s (s.release k sc) k := by
  refine ⟨?_, (synced_release s k sc).lanes k⟩
  unfold State.release
  rw [flushBanks_of_quiet hq]
  dsimp only
  split <;> rfl

/-- The quiescent point and the release with which the move begins (R202, R301). -/
theorem published_before (hq : Quiet s k) : Published s ((s.quiesce k).release k .device) k := by
  have hquiesce := published_quiesce hq
  exact hquiesce.trans (published_release (quiet_of_same hq hquiesce.waves hquiesce.tasks) .device)

/-- A thread is at the spawn-wait site of its task and off its lane; its wave is not judged yet. -/
def moved (s : State) (k tn : Nat) (e : SpawnLane) : State :=
  ({ s with lanes := mdel s.lanes k } : State).modTask tn (fun x => { x with spawned := x.spawned ++ [e] })

/-- The move ends the wave of the last thread. -/
def atSite (s : State) (k tn : Nat) (e : SpawnLane) : State :=
  if ((moved s k tn e).waveLanes (waveOf k)).isEmpty then (moved s k tn e).endWave (waveOf k) else moved s k tn e

theorem endWave_kept (s : State) (n : Nat) : Kept s (s.endWave n) := by
  have hpooled : ∀ v, Kept s (dissolved s n v) := fun v => ⟨rfl, rfl, fun _ => rfl⟩
  cases hw : s.wave n with
  | none => rw [endWave_of_none hw]; exact .refl s
  | some v =>
    unfold State.endWave
    rw [hw]
    exact (hpooled v).trans (settleCuts_kept _)

theorem moved_task {tn : Nat} {e : SpawnLane} (hx : s.task tn = some x) :
    (moved s k tn e).task tn = some { x with spawned := x.spawned ++ [e] } := by
  have hx' : mget s.tasks tn = some x := hx
  rw [State.task, moved, State.modTask, mget_mmod, if_pos rfl, hx', Option.map_some]

theorem atSite_spec {tn : Nat} {e : SpawnLane} (hx : s.task tn = some x) : (atSite s k tn e).bad = s.bad ∧ (atSite s k tn e).lane k = none ∧
    ∃ y, (atSite s k tn e).task tn = some y ∧ e ∈ y.spawned := by
  have hgone : (moved s k tn e).lane k = none := mget_mdel_self ..
  have hmem : e ∈ x.spawned ++ [e] := List.mem_append_right _ List.mem_cons_self
  unfold atSite
  split
  · obtain ⟨hlanes, -, hbad⟩ := endWave_same (moved s k tn e) (waveOf k)
    obtain ⟨y, hy, hrows⟩ := (endWave_kept (moved s k tn e) (waveOf k)).task (moved_task (k := k) (e := e) hx)
    have hspawned : y.spawned = x.spawned ++ [e] := congrArg Task.spawned hrows
    exact ⟨hbad, (congrArg (mget · k) hlanes).trans hgone, y, hy, hspawned ▸ hmem⟩
  · exact ⟨rfl, hgone, _, moved_task hx, hmem⟩

/-- A lane as its thread's own stack has it, below any handler (R94). -/
def grounded (l : Lane) : Lane := { l with ts := { l.ts with tlvl := 0 } }

/-- The stack of a lane, and that of its thread below a handler, have places in their backing areas (R82, R341). -/
structure Backed (s : State) (k : Nat) (l : Lane) : Prop where
  low : ∀ j, j < l.g + l.chip.length → keyExists (s.backKey k (grounded l) j)
  high : l.ts.tlvl ≠ 0 → ∀ j, j < l.hg + l.hchip.length → keyExists (s.backKey k l j)

/-- Both stacks go to their places. -/
def storeBoth (s : State) (k : Nat) (l : Lane) : State :=
  (s.storeAll k (grounded l) l.chip l.g).storeAll k l (if l.ts.tlvl = 0 then [] else l.hchip) l.hg

theorem stored_both (h : Backed s k l) : Stored s (storeBoth s k l) k := by
  have hlow : Stored s (s.storeAll k (grounded l) l.chip l.g) k := stored_storeAll l.chip l.g fun j _ hj => h.low j hj
  refine hlow.trans (stored_storeAll _ _ fun j hge hj => ?_)
  rw [backKey_of_tasks hlow.waves hlow.tasks]
  split at hj
  · exact absurd hj (Nat.not_lt.2 hge)
  · rename_i h0
    exact h.high h0 j hj

theorem Backed.of_same (h : Backed s k l) (hw : t.waves = s.waves) (ht : t.tasks = s.tasks) : Backed t k l where
  low := fun j hj => by rw [backKey_of_tasks hw ht]; exact h.low j hj
  high := fun h0 j hj => by rw [backKey_of_tasks hw ht]; exact h.high h0 j hj

/-- What a lane must respect, and where its grace periods stand, do not place its stacks. -/
theorem Backed.republished (h : Backed s k l) (v : Map Nat) (q o : Nat) : Backed s k { l with view := v, qg := q, ord := o } :=
  ⟨h.low, h.high⟩

/-- A lane that is about to leave for the spawn-wait site, as it waits there (R202). -/
def waiting (s : State) (k : Nat) (l : Lane) (reel stall : Nat) : SpawnLane where
  lane := { (s.lane k).getD l with
    chip := [], g := l.g + l.chip.length, hchip := [], hg := l.hg + l.hchip.length, chU := {}, chS := {}, chH := {}
    watch := none, tokens := [], openSet := [], batches := [], wait := .none, during := none, cutDue := false
    next := if l.ilk = .lock then 0 else stall }
  reel := reel
  since := s.nextId
  areas := s.areasAt k l

/-- A thread at the spawn-wait site stands at its `spawnw`, with its whole stack in backing store (R202). -/
structure Waits (e : SpawnLane) (l : Lane) (reel : Nat) : Prop where
  thx : e.lane.thx = l.thx
  pc : e.lane.pc = l.pc
  reel : e.reel = reel
  below : e.lane.g = l.g + l.chip.length
  chip : e.lane.chip = []

theorem waits_waiting {stall : Nat} (hl : s.lane k = some m) (hthx : m.thx = l.thx) (hpc : m.pc = l.pc) (reel : Nat) :
    Waits (waiting s k l reel stall) l reel where
  thx := by simp only [waiting, hl, Option.getD_some, hthx]
  pc := by simp only [waiting, hl, Option.getD_some, hpc]
  reel := rfl
  below := rfl
  chip := rfl

/-- The move is: publish, store both stacks, publish again, and leave. -/
theorem spawnWait_eq (hl : ((s.quiesce k).release k .device).lane k = some m) (reel stall : Nat) :
    s.spawnWait k reel stall = atSite ((storeBoth ((s.quiesce k).release k .device) k m).release k .device) k
      (((s.quiesce k).release k .device).taskNo k)
      (waiting ((storeBoth ((s.quiesce k).release k .device) k m).release k .device) k m reel stall) := by
  unfold State.spawnWait
  simp only [hl]
  rfl

/-- A lane moves to the spawn-wait site, and its task has it there. -/
theorem spawnWait_spec (hl : s.lane k = some l) (hq : Quiet s k) (hb : Backed s k l) (hx : s.taskOf k = some x) (reel stall : Nat) :
    (s.spawnWait k reel stall).bad = s.bad ∧ (s.spawnWait k reel stall).lane k = none ∧
      ∃ y e, (s.spawnWait k reel stall).task (s.taskNo k) = some y ∧ e ∈ y.spawned ∧ Waits e l reel := by
  have hbefore := published_before hq
  obtain ⟨v, q, o, hl0⟩ := hbefore.lane l hl
  have htn : ((s.quiesce k).release k .device).taskNo k = s.taskNo k := by simp only [State.taskNo, State.wave, hbefore.waves]
  have hstored := stored_both ((hb.of_same hbefore.waves hbefore.tasks).republished v q o)
  obtain ⟨v1, d1, c1, hl1⟩ := hstored.lane _ hl0
  have hwaves := hstored.waves.trans hbefore.waves
  have htasks := hstored.tasks.trans hbefore.tasks
  have hafter := published_release (quiet_of_same hq hwaves htasks) .device
  obtain ⟨v2, q2, o2, hl2⟩ := hafter.lane _ hl1
  have hwaits := waits_waiting (l := { l with view := v, qg := q, ord := o }) (stall := stall) hl2 rfl rfl reel
  have hx2 := (congrArg (mget · (s.taskNo k)) (hafter.tasks.trans htasks)).trans hx
  rw [spawnWait_eq hl0, htn]
  obtain ⟨hbad, hgone, y, hy, hmem⟩ := atSite_spec hx2
  exact ⟨hbad.trans (hafter.bad.trans (hstored.bad.trans hbefore.bad)), hgone, y, _, hy, hmem, hwaits.thx, hwaits.pc, hwaits.reel,
    hwaits.below, hwaits.chip⟩

-- `spawnw` on a reel that is full (R54, R202).
theorem settled_same (s : State) : s.settled = { s with iss := s.settled.iss } := by
  unfold State.settled
  split <;> rfl

/-- With every result of the thread there, it moves to the spawn-wait site. -/
theorem exec_spawnw_full (h : Spawning s s1 (.spawnw w) k key l x ap nt sl rl)
    (ha : (s1.release k .device).appendLaunch (s.spaceOf k) rl.toNat sl.toNat ap.toNat nt.toNat (x.depth + 1) = .full)
    (hsettled : ∀ e, e ∈ l.chip ++ l.hchip ++ s.slotsOf k → e.pend = false ∧ e.ready ≤ s.cycle (sliceOf k)) (hb : Backed s k l) :
    ∃ t y e, exec (.spawnw w) s = .next t ∧ t.lane k = none ∧ t.task (s.taskNo k) = some y ∧ e ∈ y.spawned ∧ Waits e l rl.toNat := by
  have hslots : (s1.release k .device).slotsOf k = s.slotsOf k := by simp only [State.slotsOf, State.wave, h.waves]
  have hready : (s1.release k .device).settledBy k l (s.cycle (sliceOf k)) = true := by
    unfold State.settledBy
    rw [hslots, List.all_eq_true]
    intro e he
    obtain ⟨hpend, hcycle⟩ := hsettled e he
    simp [hpend, hcycle]
  have hlane := (h.lane k).trans h.alone.here
  have htn : (s1.release k .device).taskNo k = s.taskNo k := by simp only [State.taskNo, State.wave, h.waves]
  have hreel : ((l.ops (.spawnw w)).getD 0 {}).val = rl := by
    rw [ops_getD_val]
    exact (congrArg (fun p => p.2.2.2) h.operands).symm
  have htry := spawnTry_of h
  rw [ha] at htry
  have hrun : exec (.spawnw w) s = finish ((s1.release k .device).spawnWait k rl.toNat w.toNat).bump.settled :=
    congrArg finish (runElected_of_done h.alone (by
      simp only [htry, attempt, List.any_cons, List.any_nil, hlane, Option.map_some, h.cycle, hready, hreel, Bool.not_true,
        Option.getD_some, Bool.or_self, Bool.false_eq_true, if_false, List.foldl_cons, List.foldl_nil]))
  obtain ⟨hbad, hgone, y, e, hy, hmem, hwaits⟩ :=
    spawnWait_spec hlane h.quiet' (hb.of_same h.waves h.tasks) ((h.taskOf k).trans h.task) rl.toNat w.toNat
  rw [htn] at hy
  generalize (s1.release k .device).spawnWait k rl.toNat w.toNat = u at hrun hbad hgone hy
  have hsame := settled_same u.bump
  refine ⟨_, y, e, hrun.trans (finish_of_sound ?_), ?_, ?_, hmem, hwaits⟩
  · rw [hsame]; exact hbad.trans h.begun.bad
  · rw [hsame]; exact hgone
  · rw [hsame]; exact hy

end Sys2Proof.Tasks
end

section
/-! PROOFS. Waves of a task: they form, and woken threads of the spawn-wait site form a fresh one (R171, R197, R202). -/

namespace Sys2Proof.Tasks

open Sys2Proof Sys2Proof.Machine Sys2Proof.Claims Sys2Proof.Numbers Sys2Proof.Cuts

variable {s t u : State} {tn slice place w j : Nat} {x : Task}

-- A wave on its place (R171).
/-- Lanes are put on a wave place one after another. -/
def laned (s : State) (w : Nat) (ps : List (Nat × Lane)) : State := ps.foldl (fun s p => s.setLane (w * 32 + p.1) p.2) s

theorem laned_same (s : State) (w : Nat) (ps : List (Nat × Lane)) : laned s w ps = { s with lanes := (laned s w ps).lanes } := by
  induction ps generalizing s with
  | nil => rfl
  | cons p r ih => exact ih (s.setLane (w * 32 + p.1) p.2)

theorem laned_lane_ne (ps : List (Nat × Lane)) (s : State) (h : ∀ p, p ∈ ps → j ≠ p.1) :
    (laned s w ps).lane (w * 32 + j) = s.lane (w * 32 + j) := by
  induction ps generalizing s with
  | nil => rfl
  | cons p r ih =>
    refine (ih (s.setLane (w * 32 + p.1) p.2) fun q hq => h q (by simp [hq])).trans (lane_setLane_ne _ _ ?_)
    have := h p (by simp)
    omega

theorem laned_lane (ps : List (Nat × Lane)) (s : State) (hnodup : (ps.map (·.1)).Nodup) {p : Nat × Lane} (hp : p ∈ ps) :
    (laned s w ps).lane (w * 32 + p.1) = some p.2 := by
  induction ps generalizing s with
  | nil => cases hp
  | cons q r ih =>
    obtain ⟨hfresh, hnodup⟩ := List.nodup_cons.1 hnodup
    rcases List.mem_cons.1 hp with rfl | hp
    · refine (laned_lane_ne r (s.setLane (w * 32 + p.1) p.2) fun e he heq => hfresh ?_).trans (lane_setLane_self ..)
      exact List.mem_map.2 ⟨e, he, heq.symm⟩
    · exact ih (s.setLane (w * 32 + q.1) q.2) hnodup hp

theorem mendSlots_same (s : State) (w : Nat) : s.mendSlots w = { s with parity := (s.mendSlots w).parity } := by
  unfold State.mendSlots
  generalize List.range 32 = ls
  induction ls generalizing s with
  | nil => rfl
  | cons l r ih => exact ih (s.mendAll (softKey (w * 32 + l) 0) (softKey (w * 32 + l) 64))

/-- The wave that forms on a wave place, with the next identity. -/
def formedWave (s : State) (tn num slots sb cls : Nat) : Wave :=
  { uid := s.nextId, task := tn, num := num, sb := sb, nlb := slots, cls := cls }

/-- A wave place, the lanes on it, parity errors, a pool of blocks and the next identity are all that the formation of a wave changes. -/
theorem putWave_same (s : State) (tn w num slots sb cls : Nat) (ls : List (Nat × Lane)) :
    ∃ sls ps, s.putWave tn w num slots sb cls ls = laned { s with
      slices := sls, parity := ps, nextId := s.nextId + 1, waves := mset s.waves w (formedWave s tn num slots sb cls) } w ls := by
  unfold State.putWave fresh
  dsimp only
  rw [mendSlots_same]
  split
  · exact ⟨_, _, rfl⟩
  · exact ⟨_, _, rfl⟩

/-- The wave is there with its lanes; tasks and memory are as before. -/
structure Forms (s t : State) (w : Nat) (v : Wave) (ls : List (Nat × Lane)) : Prop where
  bad : t.bad = s.bad
  tasks : t.tasks = s.tasks
  wave : t.wave w = some v
  lanes : ∀ p, p ∈ ls → t.lane (w * 32 + p.1) = some p.2

theorem putWave_forms (s : State) (tn w num slots sb cls : Nat) {ls : List (Nat × Lane)} (hnodup : (ls.map (·.1)).Nodup) :
    Forms s (s.putWave tn w num slots sb cls ls) w (formedWave s tn num slots sb cls) ls := by
  obtain ⟨sls, ps, h⟩ := putWave_same s tn w num slots sb cls ls
  rw [h]
  refine ⟨?_, ?_, ?_, fun p hp => laned_lane ls _ hnodup hp⟩
  · rw [laned_same]
  · rw [laned_same]
  · rw [laned_same]; exact mget_mset_self ..

-- Formation (R197).
/-- The threads of wave `formed` of a task, lane by lane. -/
def newLanes (s : State) (x : Task) (slice : Nat) : List (Nat × Lane) :=
  ((List.range 32).filter (fun j => 32 * x.formed + j < x.nth)).map (fun j => (j, s.startLane x slice (32 * x.formed + j)))

theorem newLanes_nodup (s : State) (x : Task) (slice : Nat) : ((newLanes s x slice).map (·.1)).Nodup := by
  rw [newLanes, List.map_map]
  simpa [Function.comp_def] using List.nodup_range.filter _

theorem mem_newLanes (hj : j < 32) (hn : 32 * x.formed + j < x.nth) :
    (j, s.startLane x slice (32 * x.formed + j)) ∈ newLanes s x slice :=
  List.mem_map.2 ⟨j, List.mem_filter.2 ⟨List.mem_range.2 hj, by simpa using hn⟩, rfl⟩

theorem exec_waveFormation_of (hx : s.task tn = some x) (hslice : slice = x.members.getD (x.formed % Nat.max 1 x.members.length) 0)
    (hw : w = placeKey slice place) (hnth : 32 * x.formed < x.nth) (hplace : place < 48) (hrun : s.mayRun x.space = true)
    (hfree : s.wave w = none) (hroom : x.formed < x.members.length ∨ s.fitsWave tn w x.slots x.sb = true) :
    exec (.waveFormation tn place) s = .next ((s.setTask tn { x with formed := x.formed + 1 }).putWave tn w x.formed x.slots x.sb x.prio
      (newLanes s x slice)) := by
  have hfits : x.members.length ≤ x.formed → s.fitsWave tn w x.slots x.sb = true := fun h => hroom.resolve_left (Nat.not_lt.2 h)
  rw [exec_waveFormation, execWaveFormation]
  simp only [hx, ← hslice, ← hw, hrun, hfree]
  rw [if_neg]
  · rfl
  · simpa [Nat.not_le.2 hnth, Nat.not_le.2 hplace] using hfits

/-- A wave forms with one thread a lane, at the task's entry point. -/
theorem exec_waveFormation_spec (hx : s.task tn = some x) (hslice : slice = x.members.getD (x.formed % Nat.max 1 x.members.length) 0)
    (hw : w = placeKey slice place) (hnth : 32 * x.formed < x.nth) (hplace : place < 48) (hrun : s.mayRun x.space = true)
    (hfree : s.wave w = none) (hroom : x.formed < x.members.length ∨ s.fitsWave tn w x.slots x.sb = true) :
    ∃ t, exec (.waveFormation tn place) s = .next t ∧
      Forms (s.setTask tn { x with formed := x.formed + 1 }) t w (formedWave s tn x.formed x.slots x.sb x.prio) (newLanes s x slice) :=
  ⟨_, exec_waveFormation_of hx hslice hw hnth hplace hrun hfree hroom,
    putWave_forms (s.setTask tn { x with formed := x.formed + 1 }) _ _ _ _ _ _ (newLanes_nodup ..)⟩

-- The wake at the spawn-wait site (R202).
/-- A woken thread goes on at its `spawnw`: what releases have published to its slice is visible, and it is quiescent. -/
def wokenLane (s : State) (x : Task) (slice : Nat) (l : Lane) : Lane :=
  { l with
    qg := (s.ctx x.space).gBegun, next := s.cycle slice + 1 + l.next
    view := boundaryView s.rels slice .device l.view, ord := s.nextId }

/-- One woken thread, without mode areas, forms a wave of its own. -/
theorem exec_spawnWaitWake_of {e : SpawnLane} (hbad : s.bad = none) (hx : s.task tn = some x) (hwoken : x.woken = [e]) (hareas : e.areas = [])
    (hplace : place < 48) (hmember : x.members.contains slice = true) (hrun : s.mayRun x.space = true)
    (hfits : s.fitsWave tn (placeKey slice place) x.slots x.sb = true) :
    ∃ t, exec (.spawnWaitWake tn slice place) s = .next t ∧
      Forms (s.setTask tn { x with woken := [] }) t (placeKey slice place) (formedWave s tn 0 x.slots x.sb x.prio)
        [(0, wokenLane s x slice e.lane)] := by
  have hforms := putWave_forms (s.setTask tn { x with woken := [] }) tn (placeKey slice place) 0 x.slots x.sb x.prio
    (ls := [(0, wokenLane s x slice e.lane)]) (by simp)
  refine ⟨_, ?_, hforms⟩
  rw [exec_spawnWaitWake, execSpawnWaitWake]
  simp only [hx, hwoken, hmember, hrun, hfits]
  rw [if_neg (by simpa using hplace)]
  simp only [List.take, List.drop, List.zipIdx_cons, List.zipIdx_nil, List.map_cons, List.map_nil, List.foldl_cons, List.foldl_nil, hareas]
  exact finish_of_sound (hforms.bad.trans hbad)

end Sys2Proof.Tasks
end

section
/-! PROOFS. A task is placed with its whole footprint (R192, R195, R196, R198), and retires (R205, R206). -/

namespace Sys2Proof.Tasks

open Sys2Proof Sys2Proof.Machine Sys2Proof.Claims Sys2Proof.Numbers Sys2Proof.Cuts

variable {s t u : State} {tn lk : Nat} {x : Task} {n : Launch} {ms : List Nat} {xs : List Extent}

-- Storage that is zero or fresh (R213, R216).
theorem zeroBytes_written (s : State) (key n : Nat) : Written s (s.zeroBytes key n) :=
  Written.foldl (fun u a => devStore_written u a [0] .system false) _ s

theorem zeroFill_written (s : State) (key n : Nat) : Written s (s.zeroFill key n) :=
  (zeroBytes_written s key n).trans ⟨rfl⟩

theorem clearSome_written (cs : List Host.Cell) (s : State) : Written s (clearSome s cs) := by
  induction cs generalizing s with
  | nil => exact .refl s
  | cons c r ih =>
    obtain ⟨m, hm⟩ := choose_free s 2
    have hchoice : Written s (choose s 2).2 := by rw [hm]; exact ⟨rfl⟩
    refine Written.trans ?_ (ih _)
    split
    · exact hchoice.trans ⟨rfl⟩
    · exact hchoice

-- What placement makes of the new task (R192, R196).
/-- Memory, slices and the tensors of one task differ. -/
structure Furnished (s t : State) (tn : Nat) : Prop where
  same : t = { s with mem := t.mem, poison := t.poison, ecc := t.ecc, log := t.log, rels := t.rels, nextId := t.nextId, free := t.free
                      slices := t.slices, tasks := t.tasks }
  task : ∀ x, s.task tn = some x → ∃ tens, t.task tn = some { x with tens := tens }

theorem Furnished.refl (s : State) (tn : Nat) : Furnished s s tn := ⟨rfl, fun x h => ⟨x.tens, h⟩⟩

theorem Furnished.trans (h : Furnished s t tn) (g : Furnished t u tn) : Furnished s u tn := by
  refine ⟨by rw [g.same, h.same], fun x hx => ?_⟩
  obtain ⟨tens, ht⟩ := h.task x hx
  obtain ⟨tens', hu⟩ := g.task _ ht
  exact ⟨tens', hu⟩

theorem Furnished.foldl {α : Type} {f : State → α → State} (hf : ∀ s x, Furnished s (f s x) tn) (xs : List α) (s : State) :
    Furnished s (xs.foldl f s) tn := by
  induction xs generalizing s with
  | nil => exact .refl s tn
  | cons x r ih => exact (hf s x).trans (ih (f s x))

theorem Written.furnished (h : Written s t) (tn : Nat) : Furnished s t tn :=
  ⟨by rw [h.same], fun x hx => ⟨x.tens, by rw [h.same]; exact hx⟩⟩

theorem furnished_modSlice (s : State) (m tn : Nat) (f : Slice → Slice) : Furnished s (s.modSlice m f) tn := ⟨rfl, fun x h => ⟨x.tens, h⟩⟩

/-- A frame tile of the slate is allocated. -/
theorem allocAt_furnished {tid : Nat} {w : List Word} (h : s.allocAt tn tid w = some t) : Furnished s t tn := by
  unfold State.allocAt at h
  split at h
  · cases h
  · rename_i x hx
    split at h
    · cases h
    · rename_i a ha
      obtain rfl := Option.some.inj h
      have hset : Furnished s (s.setTask tn { x with tens := mset x.tens tid (fillEntry w a) }) tn := by
        refine ⟨rfl, fun y hy => ?_⟩
        obtain rfl := Option.some.inj (hx.symm.trans hy)
        exact ⟨_, (task_setTask ..).trans (if_pos rfl)⟩
      exact hset.trans (Furnished.foldl (fun u k => (clearSome_written _ u).furnished tn) _ _)

/-- The record of a task that is about to be placed: the next of its launch, with the reservation that R195 finds. -/
def newTask (s : State) (lk : Nat) (n : Launch) (ms : List Nat) (xs : List Extent) : Task :=
  let w := n.words
  { launch := lk, taskx := n.next, vf := n.vf, asid := n.asid, nth := slNth w, argp := n.argp
    entry := BitVec.ofNat 64 (slEntry w), depth := n.depth, sb := slSb w, slots := slSlots w, prio := slPrio w
    ilk := if slStep w = 0x00B0 then Ilk.ofCode (slIlk w) else .lock
    members := ms, acc := slAcc w
    scratch := (fitIn ((s.tasksIn (ms.headD 0 / 6)).map (fun t => (t.scratch, t.nscratch))) (slScratch w * 4096) (3 * 2 ^ 20) 0).getD 0
    nscratch := slScratch w * 4096, nctr := slNctr w, nbar := slNbar w
    energy := slEnergy w, current := slCurrent w, back := BitVec.ofNat 64 (slBack w), roles := slRoles w, extents := xs }

/-- The task is there, and its launch counts it; its storage is still to come. -/
def admitted (s : State) (lk : Nat) (n : Launch) (ms : List Nat) (xs : List Extent) : State :=
  (({ s with nextId := s.nextId + 1 } : State).setTask s.nextId (newTask s lk n ms xs)).modLaunch lk (fun y => { y with next := y.next + 1 })

/-- The accumulator buffers of the members are the task's, and zero (R195, R216). -/
def accumulators (s : State) (tn : Nat) (ms : List Nat) : State :=
  ms.foldl (fun s m => (s.modSlice m (fun y => { y with accBy := some tn })).zeroBytes (accKey m 0) 65536) s

theorem accumulators_furnished (s : State) (tn : Nat) (ms : List Nat) : Furnished s (accumulators s tn ms) tn :=
  Furnished.foldl (fun u m => (furnished_modSlice u m tn _).trans ((zeroBytes_written ..).furnished tn)) ms s

/-- The frame tiles of the slate are allocated, as far as they fit (R192). -/
def tiles (s : State) (tn : Nat) (fs : List (List Word)) : State :=
  fs.zipIdx.foldl (fun s d => (s.allocAt tn (255 - d.2) d.1).getD s) s

theorem tiles_furnished (s : State) (tn : Nat) (fs : List (List Word)) : Furnished s (tiles s tn fs) tn := by
  refine Furnished.foldl (fun u d => ?_) _ s
  cases h : u.allocAt tn (255 - d.2) d.1 with
  | none => exact .refl u tn
  | some v => exact allocAt_furnished h

theorem placeTask_furnished (s : State) (lk : Nat) (n : Launch) (ms : List Nat) (xs : List Extent) :
    Furnished (admitted s lk n ms xs) (s.placeTask lk n ms xs) s.nextId := by
  have hpad : Furnished (admitted s lk n ms xs) ((admitted s lk n ms xs).zeroFill (padKey (ms.headD 0 / 6) (newTask s lk n ms xs).scratch)
      (slScratch n.words * 4096)) s.nextId := (zeroFill_written ..).furnished _
  refine Furnished.trans ?_ (tiles_furnished _ s.nextId n.frames)
  split
  · exact hpad.trans (accumulators_furnished _ s.nextId ms)
  · exact hpad

-- Placement (R194, R196, R380).
theorem exec_taskPlacement_of (hn : mget s.launches lk = some n) (hchecked : n.checked = true) (hheads : s.headsPool lk n = true)
    (hrun : s.mayRun (spaceKey n.vf n.asid) = true) (hnext : n.next < n.ntask) (hms : membersOk ms (slGang n.words) = true)
    (hfits : s.fitsTask n.words ms = true) (hhold : (s.cluster (ms.headD 0 / 6)).hold = [])
    (hxs : s.extentTable (spaceKey n.vf n.asid) (slExtents n.words) = some xs) :
    exec (.taskPlacement lk ms) s = .next ((s.placeTask lk n ms xs).modCluster (ms.headD 0 / 6)
      (fun c => { c with hold := c.hold.filter (· != lk) })) := by
  have hjudged : s.judgeLaunch lk n = s := by simp only [State.judgeLaunch, hchecked, if_true]
  have hkept : s.keptFrom (ms.headD 0 / 6) lk n.need = false := by rw [State.keptFrom, State.keptFor, hhold]; rfl
  rw [exec_taskPlacement, execTaskPlacement]
  simp only [hn, hheads, hrun, hjudged, hms, hfits, hkept, hxs]
  rw [if_neg (by decide), if_neg (by simpa using hnext)]

/-- The task is placed, its launch counts it, and nothing runs yet. -/
theorem exec_taskPlacement_spec (hn : mget s.launches lk = some n) (hchecked : n.checked = true) (hheads : s.headsPool lk n = true)
    (hrun : s.mayRun (spaceKey n.vf n.asid) = true) (hnext : n.next < n.ntask) (hms : membersOk ms (slGang n.words) = true)
    (hfits : s.fitsTask n.words ms = true) (hhold : (s.cluster (ms.headD 0 / 6)).hold = [])
    (hxs : s.extentTable (spaceKey n.vf n.asid) (slExtents n.words) = some xs) :
    ∃ t tens, exec (.taskPlacement lk ms) s = .next t ∧ t.task s.nextId = some { newTask s lk n ms xs with tens := tens } ∧
      mget t.launches lk = some { n with next := n.next + 1 } ∧ t.waves = s.waves ∧ t.lanes = s.lanes := by
  have hplaced := placeTask_furnished s lk n ms xs
  have hadmitted : (admitted s lk n ms xs).task s.nextId = some (newTask s lk n ms xs) := mget_mset_self ..
  obtain ⟨tens, htens⟩ := hplaced.task _ hadmitted
  refine ⟨_, tens, exec_taskPlacement_of hn hchecked hheads hrun hnext hms hfits hhold hxs, htens, ?_, ?_, ?_⟩
  · have hlaunches : (s.placeTask lk n ms xs).launches = mmod s.launches lk (fun y => { y with next := y.next + 1 }) := by
      rw [hplaced.same]; rfl
    show mget (s.placeTask lk n ms xs).launches lk = _
    rw [hlaunches, mget_mmod, if_pos rfl, hn, Option.map_some]
  · show (s.placeTask lk n ms xs).waves = _
    rw [hplaced.same]; rfl
  · show (s.placeTask lk n ms xs).lanes = _
    rw [hplaced.same]; rfl

-- Retire (R205, R206).
theorem modSlices_same (f : Slice → Slice) (ms : List Nat) (s : State) :
    ms.foldl (fun s m => s.modSlice m f) s = { s with slices := (ms.foldl (fun s m => s.modSlice m f) s).slices } := by
  induction ms generalizing s with
  | nil => rfl
  | cons m r ih => exact ih (s.modSlice m f)

/-- What a task holds lies in slices and in its cluster. -/
theorem returnTask_same (s : State) (tn : Nat) (x : Task) : s.returnTask tn x =
    { s with slices := (s.returnTask tn x).slices, clusters := (s.returnTask tn x).clusters, tasks := mdel s.tasks tn } := by
  unfold State.returnTask
  dsimp only
  rw [modSlices_same]
  rfl

/-- A task has retired, and its launch has counted it. -/
def retired (s : State) (tn : Nat) (x : Task) : State := (s.returnTask tn x).modLaunch x.launch (fun n => { n with retired := n.retired + 1 })

theorem retired_launch (s : State) (tn : Nat) (x : Task) :
    mget (retired s tn x).launches x.launch = (mget s.launches x.launch).map (fun n => { n with retired := n.retired + 1 }) := by
  rw [retired, returnTask_same, State.modLaunch, mget_mmod, if_pos rfl]

theorem retired_task (s : State) (tn : Nat) (x : Task) : (retired s tn x).task tn = none := by
  rw [retired, returnTask_same]
  exact mget_mdel_self ..

theorem retired_mem (s : State) (tn : Nat) (x : Task) : (retired s tn x).mem = s.mem := by
  rw [retired, returnTask_same]
  rfl

/-- A launch that is complete is gone, and nothing but its reel knows of it. -/
theorem launchDone_of (h : mget s.launches lk = some n) (result : Nat) :
    ∃ rs, s.launchDone lk result = { s with reels := rs, launches := mdel s.launches lk } := by
  unfold State.launchDone
  rw [h]
  exact ⟨_, rfl⟩

/-- The task is gone, and its launch counts it, or goes with its last task. -/
theorem exec_taskRetire_spec (hx : s.task tn = some x) (hmay : s.mayRetire tn x = true) :
    ∃ t, exec (.taskRetire tn) s = .next t ∧ t.task tn = none ∧ t.mem = s.mem ∧
      ∀ n, mget s.launches x.launch = some n →
        mget t.launches x.launch = if n.ntask ≤ n.retired + 1 then none else some { n with retired := n.retired + 1 } := by
  have hlaunch := retired_launch s tn x
  rw [exec_taskRetire, execTaskRetire, hx]
  dsimp only
  rw [if_neg (by rw [hmay]; decide), show (s.returnTask tn x).modLaunch x.launch _ = retired s tn x from rfl]
  cases hn : mget s.launches x.launch with
  | none =>
    rw [hn, Option.map_none] at hlaunch
    exact ⟨_, by rw [hlaunch], retired_task .., retired_mem .., nofun⟩
  | some n =>
    rw [hn, Option.map_some] at hlaunch
    rw [hlaunch]
    dsimp only
    by_cases hlast : n.ntask ≤ n.retired + 1
    · obtain ⟨rs, hdone⟩ := launchDone_of hlaunch 0
      refine ⟨{ retired s tn x with reels := rs, launches := mdel (retired s tn x).launches x.launch }, by rw [if_pos hlast, hdone], retired_task .., retired_mem .., fun m hm => ?_⟩
      obtain rfl := Option.some.inj hm
      rw [if_pos hlast]
      exact mget_mdel_self ..
    · refine ⟨retired s tn x, by rw [if_neg hlast], retired_task .., retired_mem .., fun m hm => ?_⟩
      obtain rfl := Option.some.inj hm
      rw [if_neg hlast, hlaunch]

end Sys2Proof.Tasks
end

section
/-! PROOFS. Tear-down leaves nothing of a context but its mark, and reports what there was (R207, R368, R369). -/

namespace Sys2Proof.Tasks

open Sys2Proof Sys2Proof.Machine Sys2Proof.Accesses Sys2Proof.Control Sys2Proof.Cuts Sys2Proof.Numbers

variable {s t u : State} {vf asid : Nat}

-- Maps from which entries are removed one by one.
theorem mem_mdel {α : Type} {m : Map α} {k : Nat} {p : Nat × α} : p ∈ mdel m k ↔ p ∈ m ∧ p.1 ≠ k := by
  induction m with
  | nil => simp [mdel]
  | cons q r ih =>
    obtain ⟨a, v⟩ := q
    simp only [mdel]
    split
    · rename_i e
      subst e
      rw [ih, List.mem_cons]
      constructor
      · exact fun h => ⟨.inr h.1, h.2⟩
      · rintro ⟨rfl | h, hne⟩
        · exact absurd rfl hne
        · exact ⟨h, hne⟩
    · rename_i e
      rw [List.mem_cons, List.mem_cons, ih]
      constructor
      · rintro (rfl | h)
        · exact ⟨.inl rfl, fun h => e h.symm⟩
        · exact ⟨.inr h.1, h.2⟩
      · rintro ⟨rfl | h, hne⟩
        · exact .inl rfl
        · exact .inr ⟨h, hne⟩

/-- What is left of a map when one operation after another removes a key. -/
theorem mem_foldl_mdel {α β : Type} {m : State → Map α} {f : State → Nat × β → State} (hf : ∀ s x, m (f s x) = mdel (m s) x.1)
    {xs : List (Nat × β)} {s : State} {p : Nat × α} (hp : p ∈ m (xs.foldl f s)) : p ∈ m s ∧ ∀ x, x ∈ xs → p.1 ≠ x.1 := by
  induction xs generalizing s with
  | nil => exact ⟨hp, nofun⟩
  | cons x r ih =>
    obtain ⟨hmem, hrest⟩ := ih hp
    rw [hf] at hmem
    obtain ⟨hmem, hne⟩ := mem_mdel.1 hmem
    exact ⟨hmem, List.forall_mem_cons.2 ⟨hne, hrest⟩⟩

/-- When the entries that satisfy a test are removed, none is left that does. -/
theorem of_mem_foldl_mdel_filter {α : Type} {m : State → Map α} {f : State → Nat × α → State}
    (hf : ∀ s x, m (f s x) = mdel (m s) x.1) {q : Nat × α → Bool} {p : Nat × α} (hp : p ∈ m (((m s).filter q).foldl f s)) : q p = false := by
  obtain ⟨hmem, hne⟩ := mem_foldl_mdel hf hp
  cases hq : q p with
  | false => rfl
  | true => exact absurd rfl (hne p (List.mem_filter.2 ⟨hmem, hq⟩))

-- The reels of the context (R369).
theorem writeStatus_written (s : State) (space idx : Nat) (cmpl : Word) (result : Nat) : Written s (s.writeStatus space idx cmpl result) := by
  unfold State.writeStatus
  split
  · exact .refl s
  · cases h : s.devPut space cmpl.toNat (idx % 2 ^ 32 * 2 ^ 32 + result % 256) .system with
    | none => exact .refl s
    | some t => exact devPut_written h

theorem dropReel_written (s : State) (rk : Nat) (r : Reel) : ∃ t, Written s t ∧ s.dropReel rk r = { t with reels := mdel s.reels rk } := by
  have h := (Written.foldl (fun s (p : Nat × Word) => writeStatus_written s (spaceKey r.vf r.asid) p.1 p.2 ((mget r.results p.1).getD 7)) r.infl s).trans
    (Written.foldl (fun st i => writeStatus_written st (spaceKey r.vf r.asid) i (BitVec.ofNat 64 ((s.packetWord r i 7).getD 0)) 7)
      ((s.unread r).filter (s.launchAt r)) _)
  refine ⟨_, h, ?_⟩
  unfold State.dropReel
  dsimp only
  rw [congrArg State.reels h.same]

theorem dropReel_reels (s : State) (rk : Nat) (r : Reel) : (s.dropReel rk r).reels = mdel s.reels rk := by
  obtain ⟨t, -, hdrop⟩ := dropReel_written s rk r
  rw [hdrop]

/-- A part of the state that no write and no reel concerns is as before. -/
theorem dropReel_keeps {β : Type} (f : State → β) (hf : ∀ s t rs, Written s t → f { t with reels := rs } = f s) (s : State) (rk : Nat) (r : Reel) :
    f (s.dropReel rk r) = f s := by
  obtain ⟨t, hwritten, hdrop⟩ := dropReel_written s rk r
  rw [hdrop]
  exact hf s t _ hwritten

-- Tear-down (R207), in the parts of its definition.
/-- What the tasks of the address space hold returns. -/
def reclaimed (s : State) (space : Nat) : State := (s.tasks.filter (fun p => p.2.space == space)).foldl (fun s p => s.returnTask p.1 p.2) s

/-- The reels of the context are gone. -/
def unreeled (s : State) (vf asid : Nat) : State :=
  (s.reels.filter (fun p => p.2.vf == vf && p.2.asid == asid)).foldl (fun s p => s.dropReel p.1 p.2) s

/-- The context is torn down, and translations of it are gone. -/
def forgotten (s : State) (space : Nat) : State :=
  { s.modCtx space (fun _ => { torn := true }) with
    slices := s.slices.map (fun p => (p.1, { p.2 with tlb := p.2.tlb.filter (fun t => t.space != space) }))
    sectors := s.sectors.map (fun p => (p.1, { p.2 with
      tlb := p.2.tlb.filter (fun t => t.space != space), recs := p.2.recs.filter (fun r => r.space != space) }))
    dieTlbs := s.dieTlbs.map (fun p => (p.1, p.2.filter (fun t => t.space != space))) }

/-- What runs of the context is stopped first: lanes, waves, engines and launches. -/
def stopped (s : State) (vf asid : Nat) : State :=
  let has (tn : Nat) : Bool := (s.tasks.filter (fun p => p.2.space == spaceKey vf asid)).any (fun p => p.1 == tn)
  { s with
    lanes := s.lanes.filter (fun p => !(s.waves.filter (fun p => has p.2.task)).any (fun w => w.1 == waveOf p.1))
    waves := s.waves.filter (fun p => !has p.2.task)
    slices := s.slices.map (fun p => (p.1, {
      (p.2.without (p.2.copies.filter (fun c => c.of (spaceKey vf asid))) (p.2.gates.filter (fun m => has m.task))
        ((p.2.stages.filter (fun m => has m.2.cmd.task)).map (·.1))) with
      mq := p.2.mq.filter (fun m => !has m.task) }))
    launches := s.launches.filter (fun p => !(p.2.vf == vf && p.2.asid == asid)) }

theorem tearDown_eq (s : State) (vf asid : Nat) : s.tearDown vf asid =
    (forgotten (unreeled (reclaimed (stopped s vf asid) (spaceKey vf asid)) vf asid) (spaceKey vf asid)).settleCuts := rfl

theorem returnTask_tasks (s : State) (tn : Nat) (x : Task) : (s.returnTask tn x).tasks = mdel s.tasks tn := by rw [returnTask_same]

theorem reclaimed_space {p : Nat × Task} {space : Nat} (hp : p ∈ (reclaimed s space).tasks) : p.2.space ≠ space := by
  have h := of_mem_foldl_mdel_filter (m := State.tasks) (fun s p => returnTask_tasks s p.1 p.2) hp
  simpa using h

theorem reclaimed_launches (s : State) (space : Nat) : (reclaimed s space).launches = s.launches :=
  foldl_keeps State.launches _ (fun u p => by rw [returnTask_same]) _ s

theorem reclaimed_bad (s : State) (space : Nat) : (reclaimed s space).bad = s.bad :=
  foldl_keeps State.bad _ (fun u p => by rw [returnTask_same]) _ s

theorem unreeled_owner {p : Nat × Reel} (hp : p ∈ (unreeled s vf asid).reels) : ¬ (p.2.vf = vf ∧ p.2.asid = asid) := by
  have h := of_mem_foldl_mdel_filter (m := State.reels) (fun s p => dropReel_reels s p.1 p.2) hp
  simpa using h

theorem unreeled_keeps {β : Type} (f : State → β) (hf : ∀ s t rs, Written s t → f { t with reels := rs } = f s) (s : State) (vf asid : Nat) :
    f (unreeled s vf asid) = f s := by
  unfold unreeled
  refine foldl_keeps f _ (fun u p => ?_) _ s
  exact dropReel_keeps f hf u p.1 p.2

/-- Nothing of the context is left but the mark that it is torn down. -/
structure TornDown (s t : State) (vf asid : Nat) : Prop where
  bad : t.bad = s.bad
  torn : (t.ctx (spaceKey vf asid)).torn = true
  tasks : ∀ p, p ∈ t.tasks → p.2.space ≠ spaceKey vf asid
  launches : ∀ p, p ∈ t.launches → ¬ (p.2.vf = vf ∧ p.2.asid = asid)
  reels : ∀ p, p ∈ t.reels → ¬ (p.2.vf = vf ∧ p.2.asid = asid)

/-- A write that follows leaves nothing of the context either. -/
theorem TornDown.written (h : TornDown s t vf asid) (g : Written t u) : TornDown s u vf asid := by
  rw [g.same]
  exact ⟨h.bad, h.torn, h.tasks, h.launches, h.reels⟩

theorem tearDown_spec (s : State) (vf asid : Nat) : TornDown s (s.tearDown vf asid) vf asid := by
  have htear := tearDown_eq s vf asid
  let s2 := reclaimed (stopped s vf asid) (spaceKey vf asid)
  let s3 := unreeled s2 vf asid
  have hkept : Kept (forgotten s3 (spaceKey vf asid)) (s.tearDown vf asid) := htear ▸ settleCuts_kept _
  have hsame := (settleCuts_settled (forgotten s3 (spaceKey vf asid))).same
  rw [← htear] at hsame
  refine ⟨?_, ?_, fun p hp => ?_, fun p hp => ?_, fun p hp => ?_⟩
  · calc (s.tearDown vf asid).bad = s3.bad := by rw [hsame]; rfl
      _ = s2.bad := unreeled_keeps State.bad (fun _ _ _ h => by rw [h.same]) ..
      _ = s.bad := reclaimed_bad ..
  · rw [hkept.torn]
    exact congrArg Ctx.torn ((ctx_modCtx s3 (spaceKey vf asid) (spaceKey vf asid) fun _ => { torn := true }).trans (if_pos rfl))
  · obtain ⟨q, hq, hspace⟩ := hkept.space hp
    have hleft : (forgotten s3 (spaceKey vf asid)).tasks = s2.tasks :=
      unreeled_keeps State.tasks (fun _ _ _ h => by rw [h.same]) ..
    rw [hleft] at hq
    exact hspace ▸ reclaimed_space hq
  · have hleft : (s.tearDown vf asid).launches = s.launches.filter (fun p => !(p.2.vf == vf && p.2.asid == asid)) :=
      calc (s.tearDown vf asid).launches = s3.launches := by rw [hsame]; rfl
        _ = s2.launches := unreeled_keeps State.launches (fun _ _ _ h => by rw [h.same]) ..
        _ = _ := reclaimed_launches ..
    rw [hleft] at hp
    rintro ⟨rfl, rfl⟩
    simpa using (List.mem_filter.1 hp).2
  · obtain ⟨q, hq, hvf, hasid⟩ := hkept.owner hp
    exact hvf ▸ hasid ▸ unreeled_owner hq

-- The report (R368).
theorem reportOf_length (s : State) (vf asid : Nat) : (s.reportOf vf asid).length = 64 := by
  simp [State.reportOf, leBytes_length]

theorem devStore_mem (s : State) (key : Nat) (bs : List Byte) (sc : Scope) : (s.devStore key bs sc).mem = pokes s.mem key bs := rfl

/-- The report of what there was stands in memory, and nothing of the context is left. -/
theorem exec_tearDown_spec (vf asid : Nat) {report : Nat} (hsound : s.bad = none) (hexists : keyExists report) :
    ∃ t, exec (.tearDown vf asid report) s = .next t ∧ TornDown s t vf asid ∧ peeks t.mem report 64 = s.reportOf vf asid := by
  have htorn := (tearDown_spec s vf asid).written (devStore_written _ report (s.reportOf vf asid) .system false)
  refine ⟨_, ?_, htorn, ?_⟩
  · rw [exec_tearDown, execTearDown, touch_of_exists hexists]
    exact finish_of_sound (htorn.bad.trans hsound)
  · have hread := peeks_pokes (s.tearDown vf asid).mem report (s.reportOf vf asid)
    rw [reportOf_length] at hread
    rw [devStore_mem]
    exact hread

end Sys2Proof.Tasks
end

section
/-! PROOFS. Spawns, placement, formation, retire and tear-down (R196, R197, R201, R202, R205 to R207, R368). -/

namespace Sys2Proof.Tasks

open Sys2Proof Sys2Proof.Machine Sys2Proof.Claims

/-- Settles O49: a spawn by the outcome of its append, and each event of a task by what it makes of the state. -/
theorem taskEventsComplete : Obligations.TaskEventsComplete := by
  refine ⟨?spawn, ?wake, ?place, ?form, ?retire, ?tear⟩
  case spawn =>
    intro w i s s1 k key l x ap nt sl rl hi hlane hx hq hops hdepth hsome hfew haccess
    have h : Spawning s s1 i k key l x ap nt sl rl := ⟨hlane, hx, hq, hops, hdepth, hsome, hfew, haccess⟩
    refine ⟨fun u ha => exec_spawn_appends hi h ha, fun ha => exec_spawn_waits hi h ha, fun ha => ⟨?full, ?site⟩⟩
    case full =>
      rintro rfl
      exact exec_spawn_full h ha
    case site =>
      rintro rfl hsettled hlow hhigh
      obtain ⟨t, y, e, hrun, hgone, hy, hmem, hwaits⟩ := exec_spawnw_full h ha hsettled ⟨hlow, hhigh⟩
      exact ⟨t, y, e, hrun, hgone, hy, hmem, hwaits.thx, hwaits.pc, hwaits.reel, hwaits.below, hwaits.chip⟩
  case wake =>
    intro tn slice place s x e hbad hx hwoken hareas hplace hmember hrun hfits
    obtain ⟨t, hstep, hforms⟩ := exec_spawnWaitWake_of hbad hx hwoken hareas hplace hmember hrun hfits
    have hy : t.task tn = some { x with woken := [] } := (congrArg (mget · tn) hforms.tasks).trans (mget_mset_self ..)
    exact ⟨t, _, _, hstep, hy, rfl, hforms.lanes _ List.mem_cons_self, rfl, rfl, rfl, rfl⟩
  case place =>
    intro lk ms s n xs hn hchecked hheads hrun hnext hms hfits hhold hxs
    obtain ⟨t, tens, hstep, hx, hlaunch, hwaves, hlanes⟩ := exec_taskPlacement_spec hn hchecked hheads hrun hnext hms hfits hhold hxs
    exact ⟨t, _, hstep, hx, rfl, rfl, rfl, rfl, rfl, rfl, hlaunch, hwaves, hlanes⟩
  case form =>
    intro tn place slice w s x hx hslice hw hnth hplace hrun hfree hroom
    obtain ⟨t, hstep, hforms⟩ := exec_waveFormation_spec hx hslice hw hnth hplace hrun hfree hroom
    have hy : t.task tn = some { x with formed := x.formed + 1 } := (congrArg (mget · tn) hforms.tasks).trans (mget_mset_self ..)
    exact ⟨t, _, _, hstep, hforms.wave, rfl, rfl, rfl, rfl, rfl, hy, rfl, fun j hj hthread =>
      ⟨_, hforms.lanes _ (mem_newLanes hj hthread), rfl, rfl, rfl, rfl, rfl⟩⟩
  case retire =>
    intro tn s x hx hmay
    exact exec_taskRetire_spec hx hmay
  case tear =>
    intro vf asid report s hbad hexists
    obtain ⟨t, hstep, htorn, hreport⟩ := exec_tearDown_spec vf asid hbad hexists
    exact ⟨t, hstep, htorn.torn, htorn.tasks, htorn.launches, htorn.reels, hreport⟩

end Sys2Proof.Tasks
end

section
/-! PROOFS. What the bank engines write: fills, column edits and moves, byte by byte (R222 to R224). -/

namespace Sys2Proof.Tensors

open Sys2Proof Sys2Proof.Machine Sys2Proof.Claims Sys2Proof.Numbers Sys2Proof.Accesses

variable {s t : State} {g : Geom} {who slice src dst step n d m a : Nat}

-- One write of an engine.
theorem writeAs_mem (s : State) (who slice key : Nat) (bs : List Byte) : (s.writeAs who slice key bs).mem = pokes s.mem key bs := by
  unfold State.writeAs
  dsimp only
  split
  · rw [State.modLane_mem]; rfl
  · rfl
theorem writeAs_poison (s : State) (who slice key : Nat) (bs : List Byte) : (s.writeAs who slice key bs).poison = s.poison := by
  unfold State.writeAs
  dsimp only
  split
  · rw [State.modLane_poison]; rfl
  · rfl
theorem writeAs_ecc (s : State) (who slice key : Nat) (bs : List Byte) : (s.writeAs who slice key bs).ecc = s.ecc := by
  rw [(synced_writeAs s who slice key bs).same]
theorem cleanRange_mem (s : State) (key n : Nat) : (s.cleanRange key n).mem = s.mem :=
  foldl_keeps State.mem State.clean (fun _ _ => rfl) _ s

/-- Bytes apart from those that are written read as before. -/
theorem peeks_pokes_apart (m : Memory) {a n b : Nat} {bs : List Byte} (h : a + n ≤ b ∨ b + bs.length ≤ a) :
    peeks (pokes m b bs) a n = peeks m a n := by
  rw [← map_peek_range, ← map_peek_range]
  refine List.map_congr_left fun i hi => peek_pokes_outside _ _ _ _ ?_
  rw [List.mem_range] at hi
  omega

theorem getD_peeks (m : Memory) (a : Nat) {n j : Nat} (h : j < n) : (peeks m a n).getD j 0 = peek m (a + j) := by
  rw [← map_peek_range, List.getD_eq_getElem?_getD]
  simp [h]

-- Lines that are poisoned or in error (R216).
theorem mem_linesOf {l : Nat} : l ∈ linesOf a n ↔ a / 64 ≤ l ∧ l ≤ (a + n - 1) / 64 := by
  unfold linesOf
  simp only [List.mem_map, List.mem_range]
  exact ⟨fun ⟨i, hi, h⟩ => by omega, fun h => ⟨l - a / 64, by omega, by omega⟩⟩

theorem any_linesOf_part {p : Nat → Bool} (h : (linesOf a n).any p = false) (hm : 0 < m) (hd : d + m ≤ n) :
    (linesOf (a + d) m).any p = false := by
  rw [List.any_eq_false] at h ⊢
  intro l hl
  rw [mem_linesOf] at hl
  exact h l (mem_linesOf.2 (by omega))

/-- No part of a range is broken of which nothing is. -/
theorem broken_part (h : s.broken a n = false) (hm : 0 < m) (hd : d + m ≤ n) : s.broken (a + d) m = false := by
  obtain ⟨hpoison, hecc⟩ := Bool.or_eq_false_iff.1 h
  exact Bool.or_eq_false_iff.2 ⟨any_linesOf_part hpoison hm hd, any_linesOf_part hecc hm hd⟩

theorem broken_congr (hp : t.poison = s.poison) (he : t.ecc = s.ecc) : t.broken a n = s.broken a n := by
  simp only [State.broken, State.isPoison, State.isEcc, hp, he]

-- Elements of whole bytes (R19).
theorem nbytes_pos (h : 0 < g.bits) : 0 < g.nbytes := by
  unfold Geom.nbytes ceilDiv
  omega

theorem byteOf_whole (h : g.bits % 8 = 0) (i : Nat) : g.byteOf i = i * g.nbytes := by
  obtain ⟨b, hb⟩ := Nat.dvd_of_mod_eq_zero h
  have hbytes : g.nbytes = b := by unfold Geom.nbytes ceilDiv; omega
  rw [hbytes, Geom.byteOf, hb, Nat.mul_left_comm, Nat.mul_div_cancel_left _ (by decide)]

theorem put_whole (h : g.bits % 8 = 0) (i v : Nat) (old : List Byte) : g.put i v old = leBytes g.nbytes (v % 2 ^ g.bits) := by
  rw [Geom.put, if_neg (by omega)]

-- `tfill` (R222).
/-- Equal elements, written one after another. -/
theorem foldl_elements {f : State → Nat → State} {k : Nat} {bs : List Byte}
    (hf : ∀ u i, (f u i).mem = pokes u.mem (k + i * bs.length) bs) (s : State) (n : Nat) :
    ∀ i, i < n → peeks ((List.range n).foldl f s).mem (k + i * bs.length) bs.length = bs := by
  induction n with
  | zero => exact fun i hi => absurd hi (Nat.not_lt_zero i)
  | succ n ih =>
    intro i hi
    rw [List.range_succ, List.foldl_append, List.foldl_cons, List.foldl_nil, hf]
    rcases Nat.lt_succ_iff_lt_or_eq.1 hi with hlt | rfl
    · have hle := Nat.mul_le_mul_right bs.length (Nat.succ_le_of_lt hlt)
      rw [Nat.succ_mul] at hle
      rw [peeks_pokes_apart _ (by omega)]
      exact ih i hlt
    · exact peeks_pokes ..

/-- A fill gives every element of a dense tensor its value. -/
theorem peeks_bankFill (hsp : g.sp = false) (hbits : g.bits % 8 = 0) (v : Word) {i : Nat} (hi : i < g.count) :
    peeks (s.bankFill who slice g v).mem (chipKey g.kind slice g.start + g.byteOf i) g.nbytes =
      leBytes g.nbytes (v.toNat % 2 ^ g.bits) := by
  have hlen : (leBytes g.nbytes (v.toNat % 2 ^ g.bits)).length = g.nbytes := leBytes_length ..
  have hwrites := foldl_elements (k := chipKey g.kind slice g.start) (bs := leBytes g.nbytes (v.toNat % 2 ^ g.bits))
    (f := fun s i => s.writeAs who slice (chipKey g.kind slice g.start + g.byteOf i)
      (g.put i (v.toNat % 2 ^ g.bits) (s.bytesAt (chipKey g.kind slice g.start + g.byteOf i) g.nbytes)))
    (fun u i => by rw [writeAs_mem, put_whole hbits, Nat.mod_mod, byteOf_whole hbits, hlen]) s g.count i hi
  rw [hlen] at hwrites
  unfold State.bankFill
  simp only [hsp, Bool.false_eq_true, if_false, cleanRange_mem]
  rw [byteOf_whole hbits i]
  exact hwrites

-- `tcol` (R223).
/-- The model's numbers of `tcol` are the bit vectors of R223. -/
theorem colVal_eq (op : TColOp) {w : Nat} (old v : BitVec w) : colVal op w old.toNat v.toNat = (colResult op w old v).toNat := by
  cases op
  case set => rfl
  case add => exact (BitVec.toNat_add ..).symm
  case and => exact (BitVec.toNat_and ..).symm
  case or => exact (BitVec.toNat_or ..).symm
  case max =>
    have hsigned : ∀ b : BitVec w, (if b.toNat.testBit (w - 1) then (b.toNat : Int) - 2 ^ w else b.toNat) = b.toInt := sgn_toNat
    simp only [colVal, colResult, hsigned, BitVec.slt_iff_toInt_lt]
    split <;> rfl

/-- One row is edited: its element becomes what the operation makes of it, where the element is sound. -/
theorem peeks_bankCol {op : TColOp} {v mask : Word} {c r i key : Nat} (hr : r < 64) (hrow : r < g.rows)
    (hmask : ∀ q, mask.getLsbD q = true ↔ q = r) (hbits : g.bits = 32 ∨ g.bits = 64) (hi : g.index [] (g.split r c) = some i)
    (hkey : key = chipKey g.kind slice g.start + g.byteOf i) (hsound : s.broken key g.nbytes = false) :
    peeks (s.bankCol who slice g op v mask c).mem key g.nbytes = leBytes g.nbytes (colResult op g.bits
      (BitVec.ofNat _ (leNat (peeks s.mem key g.nbytes))) (v.setWidth _)).toNat := by
  have hrows : (List.range (Nat.min 64 g.rows)).filter (fun q => mask.getLsbD q) = [r] := by
    have hbeq : (fun q => mask.getLsbD q) = (fun q => q == r) := funext fun q => Bool.eq_iff_iff.2 ((hmask q).trans beq_iff_eq.symm)
    have hmem : r ∈ List.range (Nat.min 64 g.rows) := List.mem_range.2 (Nat.lt_min.2 ⟨hr, hrow⟩)
    rw [hbeq, List.filter_beq, List.count_eq_one_of_mem List.nodup_range hmem, List.replicate_one]
  have hbytes : 8 * g.nbytes = g.bits := by unfold Geom.nbytes ceilDiv; omega
  have hold : (BitVec.ofNat g.bits (leNat (peeks s.mem key g.nbytes))).toNat = leNat (peeks s.mem key g.nbytes) := by
    have hlt := leNat_lt (peeks s.mem key g.nbytes)
    rw [peeks_length, hbytes] at hlt
    rw [BitVec.toNat_ofNat, Nat.mod_eq_of_lt hlt]
  have hvalue := colVal_eq op (BitVec.ofNat g.bits (leNat (peeks s.mem key g.nbytes))) (v.setWidth g.bits)
  rw [hold, BitVec.toNat_setWidth] at hvalue
  unfold State.bankCol
  simp only [hrows, List.foldl_cons, List.foldl_nil, hi, ← hkey, hsound, Bool.false_eq_true, if_false, writeAs_mem]
  rw [put_whole (by omega), State.bytesAt, hvalue, Nat.mod_eq_of_lt (BitVec.isLt _)]
  have hback := peeks_pokes s.mem key (leBytes g.nbytes (colResult op g.bits
    (BitVec.ofNat _ (leNat (peeks s.mem key g.nbytes))) (v.setWidth _)).toNat)
  rwa [leBytes_length] at hback

-- `tcopy` (R222).
/-- The first d bytes of a move are done: they stand at the destination, and the source is as it was, with nothing newly broken. -/
structure Moved (s t : State) (src dst n d : Nat) : Prop where
  poison : t.poison = s.poison
  ecc : t.ecc = s.ecc
  source : ∀ x, x < n → peek t.mem (src + x) = peek s.mem (src + x)
  copied : ∀ x, x < d → peek t.mem (dst + x) = peek s.mem (src + x)

/-- The next bytes are moved. -/
theorem Moved.write (h : Moved s t src dst n d) (hapart : src + n ≤ dst ∨ dst + n ≤ src) (hd : d + m ≤ n) :
    Moved s (t.writeAs who slice (dst + d) (t.bytesAt (src + d) m)) src dst n (d + m) := by
  have hlen : (t.bytesAt (src + d) m).length = m := peeks_length ..
  refine ⟨(writeAs_poison ..).trans h.poison, (writeAs_ecc ..).trans h.ecc, fun x hx => ?_, fun x hx => ?_⟩
  · rw [writeAs_mem, peek_pokes_outside _ _ _ _ (by omega)]
    exact h.source x hx
  · rw [writeAs_mem]
    by_cases hlt : x < d
    · rw [peek_pokes_outside _ _ _ _ (by omega)]
      exact h.copied x hlt
    · rw [show dst + x = dst + d + (x - d) by omega, peek_pokes_inside _ _ _ _ (by omega), State.bytesAt, getD_peeks _ _ (by omega),
        show src + d + (x - d) = src + x by omega]
      exact h.source x (by omega)

/-- After j steps of a move, j × step bytes are done, or all of them. -/
theorem moved_foldl {f : State → Nat → State} (hf : ∀ u j, u.broken (src + j * step) (Nat.min step (n - j * step)) = false →
      f u j = u.writeAs who slice (dst + j * step) (u.bytesAt (src + j * step) (Nat.min step (n - j * step))))
    (hapart : src + n ≤ dst ∨ dst + n ≤ src) (hstep : 0 < step) (hsound : s.broken src n = false) (j : Nat)
    (hj : ∀ q, q < j → q * step < n) : Moved s ((List.range j).foldl f s) src dst n (Nat.min (j * step) n) := by
  induction j with
  | zero => exact ⟨rfl, rfl, fun _ _ => rfl, fun x hx => absurd hx (by simp)⟩
  | succ j ih =>
    have hdone := ih fun q hq => hj q (Nat.lt_succ_of_lt hq)
    have hlt := hj j (Nat.lt_succ_self j)
    rw [show Nat.min (j * step) n = j * step from Nat.min_eq_left (Nat.le_of_lt hlt)] at hdone
    have hm : j * step + Nat.min step (n - j * step) = Nat.min ((j + 1) * step) n := by
      rw [Nat.succ_mul]
      change j * step + min step (n - j * step) = min (j * step + step) n
      omega
    have hpart := broken_part (d := j * step) (m := Nat.min step (n - j * step)) hsound
      (Nat.lt_min.2 ⟨hstep, Nat.sub_pos_of_lt hlt⟩) (hm ▸ Nat.min_le_right _ _)
    rw [List.range_succ, List.foldl_append, List.foldl_cons, List.foldl_nil,
      hf _ j ((broken_congr hdone.poison hdone.ecc).trans hpart), ← hm]
    exact hdone.write hapart (hm ▸ Nat.min_le_right _ _)

/-- Bytes of which none is broken are moved as they are. -/
theorem peeks_moveBytes (hapart : src + n ≤ dst ∨ dst + n ≤ src) (hstep : 0 < step) (hsound : s.broken src n = false) :
    peeks (s.moveBytes who slice src dst step n).mem dst n = peeks s.mem src n := by
  have hsteps : ∀ q, q < ceilDiv n step → q * step < n := fun q hq => by
    have hle := (Nat.le_div_iff_mul_le hstep).1 (Nat.succ_le_of_lt hq)
    rw [Nat.succ_mul] at hle
    omega
  have hall : n ≤ ceilDiv n step * step := by
    have hlt := Nat.lt_mul_div_succ (n + step - 1) hstep
    rw [Nat.mul_succ, Nat.mul_comm] at hlt
    exact Nat.le_of_lt_succ (by unfold ceilDiv; omega)
  have hdone : Moved s (s.moveBytes who slice src dst step n) src dst n (Nat.min (ceilDiv n step * step) n) := by
    unfold State.moveBytes
    exact moved_foldl (fun u j hu => if_neg (by simp [hu])) hapart hstep hsound (ceilDiv n step) hsteps
  rw [show Nat.min (ceilDiv n step * step) n = n from Nat.min_eq_right hall] at hdone
  rw [← map_peek_range, ← map_peek_range]
  exact List.map_congr_left fun x hx => hdone.copied x (List.mem_range.1 hx)

/-- Nothing to move. -/
theorem moveBytes_zero (s : State) (who slice src dst : Nat) {step : Nat} (h : 0 < step) : s.moveBytes who slice src dst step 0 = s := by
  have hnone : ceilDiv 0 step = 0 := Nat.div_eq_of_lt (by omega)
  simp [State.moveBytes, hnone]

/-- A move of a dense tensor without groups copies its element area. -/
theorem peeks_bankMove {f : Geom} (hsp : f.sp = false) (hgsz : f.gsz = 0) (hbytes : 0 < g.nbytes) (hn : n = f.sizes.getD 0 0)
    (hsrc : src = chipKey f.kind slice f.start) (hdst : dst = chipKey g.kind slice g.start)
    (hapart : src + n ≤ dst ∨ dst + n ≤ src) (hsound : s.broken src n = false) :
    peeks (s.bankMove who slice f g).mem dst n = peeks s.mem src n := by
  have hscales : f.sizes.getD 1 0 = 0 := by simp [Geom.sizes, Geom.groups, hgsz]
  have hbitmap : f.sizes.getD 3 0 = 0 := by simp [Geom.sizes, hsp]
  unfold State.bankMove
  simp only [hsp, hgsz, Bool.false_eq_true, if_false, if_true, hscales, hbitmap, moveBytes_zero _ _ _ _ _ (Nat.zero_lt_succ _), ← hn,
    ← hsrc, ← hdst]
  exact peeks_moveBytes hapart hbytes hsound

end Sys2Proof.Tensors
end

section
/-! PROOFS. `tfill`, `tcol` and `tcopy` hand an operation to the bank engines, and it completes in its turn (R215, R222 to R224). -/

namespace Sys2Proof.Tensors

open Sys2Proof Sys2Proof.Machine Sys2Proof.Claims Sys2Proof.Numbers Sys2Proof.Issue

variable {s : State} {i : Instr} {k tn tid : Nat} {l : Lane} {en : List Word} {b : BankOp}

-- An operation is handed over (R224).
/-- A lane alone whose instruction hands an operation to the bank engines goes on. -/
theorem completes_of_bankStart {body : State → List Nat → Nat → List Entry → State × EOut} {kind : BankKind} (h : Alone s i k l)
    (hb : body s [k] k (l.ops i) = (s.bankStart k tid kind, .all [])) :
    ∃ t, finish (runElected i body s) = .next t ∧ Completes s (queued s k tid kind) t i k [] none :=
  exec_of_all_alone (u := queued s k tid kind) h hb ⟨h.sound.bad, h.sound.late⟩ h.here

/-- The kinds of tensors that lie on the chip (R208). -/
theorem onChip_iff {g : Geom} : onChip g = true ↔ g.kind = 1 ∨ g.kind = 2 ∨ g.kind = 3 := by
  simp [onChip, or_assoc]

theorem exec_tfill_of {w : StallL} (h : Alone s (.tfill w) k l) (htid : tid = (l.operand (.tfill w) 0).toNat)
    (hen : s.entryOf (s.taskNo k) tid = some en) (hchip : onChip (geomOf en) = true) (hrdo : (geomOf en).rdo = false)
    (hsp : (geomOf en).sp = false) (hfree : s.waveHolds (s.taskNo k) (waveOf k) tid true true = false) :
    ∃ t, exec (.tfill w) s = .next t ∧
      Completes s (queued s k tid (.fill (l.operand (.tfill w) 1))) t (.tfill w) k [] none := by
  rw [exec_tfill, execTfill]
  refine completes_of_bankStart h ?_
  simp only [ops_getD_val, ← htid, hen, hchip, hrdo, hsp, hfree, Bool.not_true, Bool.false_and, Bool.false_eq_true, if_false]

theorem exec_tcol_of {w : StallL} {all : Bool} {op : TColOp} (h : Alone s (.tcol w all op) k l)
    (htid : tid = (l.operand (.tcol w all op) 0).toNat) (hen : s.entryOf (s.taskNo k) tid = some en)
    (hkind : (geomOf en).kind = 3 ∨ ((geomOf en).kind = 1 ∧ all = false)) (hfmt : (geomOf en).fmt = 7 ∨ (geomOf en).fmt = 8)
    (hrdo : (geomOf en).rdo = false) (hsp : (geomOf en).sp = false)
    (hcol : (l.operand (.tcol w all op) 1).toNat < (geomOf en).ext 0) (hrows : 0 < (geomOf en).rows)
    (hfree : s.waveHolds (s.taskNo k) (waveOf k) tid true true = false) :
    ∃ t, exec (.tcol w all op) s = .next t ∧
      Completes s (queued s k tid (.col all op (l.operand (.tcol w all op) 3)
        (if all then en.getD 7 0 else l.operand (.tcol w all op) 2) (l.operand (.tcol w all op) 1).toNat)) t (.tcol w all op) k [] none := by
  have hedits : (((geomOf en).kind = 3 || ((geomOf en).kind = 1 && !all)) && ((geomOf en).fmt = 7 || (geomOf en).fmt = 8)) = true := by
    simpa using And.intro hkind hfmt
  have hinside : ((geomOf en).ext 0 ≤ (l.operand (.tcol w all op) 1).toNat || (geomOf en).rows ≤ 0) = false := by
    simp only [Bool.or_eq_false_iff, decide_eq_false_iff_not]
    omega
  rw [exec_tcol, execTcol]
  refine completes_of_bankStart h ?_
  simp only [ops_getD_val, ← htid, hen, elemRefusal, hedits, hinside, hrdo, hsp, hfree, Bool.not_true, Bool.and_false, Bool.false_eq_true,
    if_false, Option.map_some, Option.getD_some]

theorem exec_tcopy_of {w : StallL} {stid dtid : Nat} {a b : List Word} (h : Alone s (.tcopy w) k l)
    (hdtid : dtid = (l.operand (.tcopy w) 0).toNat) (hstid : stid = (l.operand (.tcopy w) 1).toNat)
    (ha : s.entryOf (s.taskNo k) stid = some a) (hb : s.entryOf (s.taskNo k) dtid = some b) (hrdo : (geomOf b).rdo = false)
    (hchipA : onChip (geomOf a) = true) (hchipB : onChip (geomOf b) = true) (hfits : tcopyFits (geomOf a) (geomOf b) = true)
    (hfreeA : s.waveHolds (s.taskNo k) (waveOf k) stid false true = false)
    (hfreeB : s.waveHolds (s.taskNo k) (waveOf k) dtid true true = false) :
    ∃ t, exec (.tcopy w) s = .next t ∧ Completes s (queued s k dtid (.move stid)) t (.tcopy w) k [] none := by
  rw [exec_tcopy, execTcopy]
  refine completes_of_bankStart h ?_
  simp only [ops_getD_val, ← hdtid, ← hstid, ha, hb, hrdo, hchipA, hchipB, hfits, hfreeA, hfreeB, Bool.not_true, Bool.or_self,
    Bool.false_eq_true, if_false]

-- An operation completes (R215).
/-- The operation has left its task's list; nothing else differs. -/
def delisted (s : State) (tn : Nat) (b : BankOp) : State :=
  s.modTask tn (fun t => { t with banks := t.banks.filter (fun x => x.id != b.id) })

theorem bankDone_fill {v : Word} (hen : s.entryOf tn b.tid = some en) (hkind : b.kind = .fill v) :
    s.bankDone tn b = (delisted s tn b).bankFill b.who b.slice (geomOf en) v := by
  unfold State.bankDone
  simp only [hen, hkind]
  rfl

theorem bankDone_col {all : Bool} {op : TColOp} {v mask : Word} {c : Nat} (hen : s.entryOf tn b.tid = some en)
    (hkind : b.kind = .col all op v mask c) :
    s.bankDone tn b = (delisted s tn b).bankCol b.who b.slice (geomOf en) op v mask c := by
  unfold State.bankDone
  simp only [hen, hkind]
  rfl

theorem bankDone_move {src : Nat} {ea : List Word} (hen : s.entryOf tn b.tid = some en) (hkind : b.kind = .move src)
    (hea : s.entryOf tn src = some ea) :
    s.bankDone tn b = (delisted s tn b).bankMove b.who b.slice (geomOf ea) (geomOf en) := by
  unfold State.bankDone
  simp only [hen, hkind, hea]
  rfl

/-- An operation completes when no earlier one of its task names its tensors. -/
theorem exec_bankOperationComplete_of {op : Nat} {x : Task} (hbad : s.bad = none) (hx : s.task tn = some x)
    (hb : x.banks.find? (fun y => y.id == op) = some b)
    (hfirst : ∀ y, y ∈ x.banks.takeWhile (fun y => y.id != op) → ∀ tid, tid ∈ b.tids → y.names tid = false) :
    exec (.bankOperationComplete tn op) s = .next (s.bankDone tn b) := by
  have hnone : (x.banks.takeWhile (fun y => y.id != op)).any (fun y => b.tids.any y.names) = false := by
    simp only [List.any_eq_false, Bool.not_eq_true]
    exact hfirst
  rw [exec_bankOperationComplete, execBankOperationComplete]
  simp only [hx, Option.map_some, Option.getD_some, hb, hnone, Bool.false_eq_true, if_false]
  exact finish_of_sound ((synced_done s tn b).bad.trans hbad)

/-- Settles O44: the operations join their queue, and each writes what R222 and R223 give its elements. -/
theorem bankOperationsComplete : Obligations.BankOperationsComplete := by
  intro w s k l
  refine ⟨?fill, ?col, ?move, ?done⟩
  case fill =>
    intro tid en h htid hen hkind hrdo hsp hfree
    exact exec_tfill_of h htid hen (onChip_iff.2 hkind) hrdo hsp hfree
  case col =>
    intro all op tid en h htid hen hkind hfmt hrdo hsp hcol hrows hfree
    exact exec_tcol_of h htid hen hkind hfmt hrdo hsp hcol hrows hfree
  case move =>
    intro stid dtid a b h hdtid hstid ha hb hrdo hchipA hchipB hfits hfreeA hfreeB
    exact exec_tcopy_of h hdtid hstid ha hb hrdo hchipA hchipB hfits hfreeA hfreeB
  case done =>
    intro tn x op b en hbad hx hb hfirst hen
    have hid : b.id = op := by simpa using List.find?_some hb
    refine ⟨_, exec_bankOperationComplete_of hbad hx hb hfirst, ?_, ?_, ?_, ?_⟩
    · refine ⟨_, (bankDone_task s tn tn b).trans (by rw [if_pos rfl, hx, Option.map_some]), fun z hz => ?_⟩
      simpa [hid] using (List.mem_filter.1 hz).2
    · intro v hkind hsp hbits i hi
      rw [bankDone_fill hen hkind]
      exact peeks_bankFill hsp hbits v hi
    · intro all op v mask c r i key hkind hr hrow hmask hbits hi hkey hsound
      rw [bankDone_col hen hkind]
      exact peeks_bankCol (s := delisted s tn b) hr hrow hmask hbits hi hkey hsound
    · intro src ea a z n hkind hea hsp hgsz hbits hpos hn ha hz hapart hsound
      rw [bankDone_move hen hkind hea]
      exact peeks_bankMove (s := delisted s tn b) hsp hgsz (nbytes_pos hpos) hn ha hz hapart hsound

end Sys2Proof.Tensors
end

section
/-! PROOFS. `ldt`, `stt` and `atomt` by a lane alone: one element of a dense on-chip tensor (R209, R212, R220, R221). -/

namespace Sys2Proof.Tensors

open Sys2Proof Sys2Proof.Machine Sys2Proof.Claims Sys2Proof.Numbers Sys2Proof.Accesses

variable {s u v : State} {i : Instr} {k : Nat} {l m : Lane} {g : Geom} {tid row col idx key size : Nat} {en : List Word} {writes : Bool}

-- The wait for a tensor (R134, R224).
/-- A lane alone waits for the tensor that its first operand names, if its wave's engine commands hold that. -/
theorem strandHolds_alone (h : Alone s i k l) {r : List Nat} (hr : (shapeOf i).reads = 0 :: r) (writes : Bool) :
    s.strandHolds 0 writes =
      if s.waveHolds (s.taskNo k) (waveOf k) (l.operand i 0).toNat writes true then some (l.operand i 0).toNat else none := by
  obtain ⟨e, he, -⟩ := h.ready.onChip 0 (by rw [hr]; exact List.mem_cons_self)
  have hop : l.operand i 0 = e.val := by
    simp [Lane.operand, Lane.ops, hr, he]
  simp only [State.strandHolds, h.only, List.findSome?_cons, h.here, Option.bind_some, he, hop, List.findSome?_nil]
  split <;> simp [*]

section tensor
variable (h : Alone s i k l) {r : List Nat} (hr : (shapeOf i).reads = 0 :: r) {body : State → Nat → List Entry → State × LOut}
include h hr

theorem runTensor_free (hfree : s.waveHolds (s.taskNo k) (waveOf k) (l.operand i 0).toNat writes true = false) :
    runTensor i writes body s = finish (runEach i body s) := by
  simp only [runTensor, strandHolds_alone h hr, hfree, Bool.false_eq_true, if_false]

theorem runTensor_held (hheld : s.waveHolds (s.taskNo k) (waveOf k) (l.operand i 0).toNat writes true = true) :
    runTensor i writes body s = .next (s.setLane k (holding s i l (.tensor (l.operand i 0).toNat))).bump := by
  simp only [runTensor, strandHolds_alone h hr, hheld, if_true, State.strandWaits, h.only, List.foldl_cons, List.foldl_nil]
  rw [holdLane_of h.here rfl]
  rfl

end tensor

-- The element (R209, R211, R220).
theorem chipKey_high (kind slice off : Nat) : 2 ^ 70 ≤ chipKey kind slice off := by
  unfold chipKey
  split
  · unfold accKey; omega
  · unfold padKey; omega
theorem chipKey_exists (kind slice off : Nat) : keyExists (chipKey kind slice off) :=
  Or.inr (Nat.le_trans (by decide) (chipKey_high kind slice off))

/-- An element of a dense tensor has its place whatever a bitmap says. -/
theorem index_dense (h : g.sp = false) (bm : List Byte) (ix : List Nat) : g.index bm ix = g.index [] ix := by
  simp [Geom.index, h]

/-- An access to an element that is there passes the checks of R212. -/
theorem elemRefusal_of (h : ElementAt s k tid row col g idx key) {kindOk : Geom → Bool} (hkind : kindOk g = true)
    (hrdo : writes = true → g.rdo = false) : elemRefusal (s.entryOf (s.taskNo k) tid) kindOk writes tid row col = .inr g := by
  obtain ⟨en, hen, rfl⟩ := h.entry
  have hinside : ((geomOf en).ext 0 ≤ col || (geomOf en).rows ≤ row) = false := by
    simp only [Bool.or_eq_false_iff, decide_eq_false_iff_not, Nat.not_le]
    exact ⟨h.colIn, h.rowIn⟩
  have hwritable : (writes && (geomOf en).rdo) = false := by
    cases hw : writes
    · rfl
    · exact hrdo hw
  simp only [elemRefusal, hen, hkind, hinside, hwritable, h.dense, Bool.not_true, Bool.and_false, Bool.false_eq_true, if_false]

/-- An index outside the extents traps with TENSOR (R212). -/
theorem elemRefusal_outside {kindOk : Geom → Bool} (hkind : kindOk (geomOf en) = true)
    (hout : (geomOf en).ext 0 ≤ col ∨ (geomOf en).rows ≤ row) :
    elemRefusal (some en) kindOk writes tid row col = .inl (tensCause 4 tid row col) := by
  have hout : ((geomOf en).ext 0 ≤ col || (geomOf en).rows ≤ row) = true := by simpa using hout
  simp only [elemRefusal, hkind, hout, Bool.not_true, Bool.false_eq_true, if_false, if_true]

theorem elementAt_onChip (h : ElementAt s k tid row col g idx key) : onChip g = true := onChip_iff.2 h.chip

theorem elementAt_exists (h : ElementAt s k tid row col g idx key) : keyExists key := h.place ▸ chipKey_exists ..

/-- Nothing is wrong with the lines of an element (R216). -/
theorem chipCause_sound {kind off : Nat} (hpoison : s.isPoison key size = false) (hecc : s.isEcc key size = false) :
    chipCause s kind key size off = none := by
  simp only [chipCause, hpoison, hecc, Bool.false_eq_true, if_false]

-- `stt` (R220).
theorem exec_stt_of {w : StallS} (h : Alone s (.stt w) k l)
    (hel : ElementAt s k (l.operand (.stt w) 0).toNat (l.operand (.stt w) 2).toNat (l.operand (.stt w) 1).toNat g idx key)
    (hfree : s.waveHolds (s.taskNo k) (waveOf k) (l.operand (.stt w) 0).toNat true true = false) (hrdo : g.rdo = false) :
    ∃ t, exec (.stt w) s = .next t ∧
      Completes s (s.laneWrite k key (g.put idx (l.operand (.stt w) 3).toNat (peeks s.mem key g.nbytes)) none none 0) t (.stt w) k [] none := by
  have hact := acted_laneWrite (g.put idx (l.operand (.stt w) 3).toNat (peeks s.mem key g.nbytes)) none none 0 h.here (elementAt_exists hel)
  obtain ⟨m, hm⟩ := hact.here
  rw [exec_stt, execStt, runTensor_free h (r := [1, 2, 3]) rfl hfree]
  refine exec_of_go h ?_ ⟨hact.bad.trans h.sound.bad, hact.iss ▸ h.sound.late⟩ hm
  simp only [ops_getD_val, elemRefusal_of hel (elementAt_onChip hel) (fun _ => hrdo), hel.index, ← hel.place, State.bytesAt]

-- `atomt` (R221, R225).
/-- What `atomt` stores after its read, at cluster scope (R161, R221). -/
def bankStore (s : State) (k key size : Nat) (o : AOrd) (new : Option Nat) : State :=
  match new with
  | some x => s.strongWrite k key (leBytes size x) .cluster (releases o) 6000
  | none => if releases o then s.release k .cluster else s

/-- Only the bytes of what is stored matter. -/
theorem bankStore_of_bytes {new new' : Option Nat} (h : new.map (leBytes size) = new'.map (leBytes size)) (s : State) (k key : Nat) (o : AOrd) :
    bankStore s k key size o new = bankStore s k key size o new' := by
  cases new <;> cases new' <;> simp_all [bankStore]

theorem synced_laneWrite (bs : List Byte) (strong : Option Scope) (rel : Option Nat) (point : Nat) (he : keyExists key) :
    Synced s (s.laneWrite k key bs strong rel point) := by
  unfold State.laneWrite
  rw [touch_of_exists he]
  exact (Synced.of_lanes rfl).trans (synced_modLane _ k _ fun l => ⟨_, l.qg, l.ord, rfl⟩)

theorem synced_strongWrite (bs : List Byte) (sc : Scope) (rel : Bool) (point : Nat) (he : keyExists key) :
    Synced s (s.strongWrite k key bs sc rel point) := by
  unfold State.strongWrite
  cases rel
  · exact synced_laneWrite _ _ _ _ he
  · exact (((synced_flush ..).trans (synced_release ..)).trans (synced_laneWrite _ _ _ _ he)).trans (.of_lanes rfl)

theorem synced_bankStore (o : AOrd) (new : Option Nat) (he : keyExists key) : Synced s (bankStore s k key size o new) := by
  cases new with
  | some x => exact synced_strongWrite _ _ _ _ he
  | none =>
    unfold bankStore
    dsimp only
    split
    · exact synced_release ..
    · exact .refl s

/-- The bytes that an atomic stores are those of R161 for its operands below the address. -/
theorem atomNew_operands (op : AOp) (size : Nat) (vals : List Entry) {old : Nat} (hold : old < 2 ^ (8 * size)) :
    (atomNew op size vals old).map (leBytes size) =
      ((atomicResult op (8 * size) (BitVec.ofNat _ old) ((vals.getD 0 {}).val.setWidth _) ((vals.getD 1 {}).val.setWidth _)).map
        (·.toNat)).map (leBytes size) := by
  have hmod : (BitVec.ofNat (8 * size) old).toNat = old := by rw [BitVec.toNat_ofNat, Nat.mod_eq_of_lt hold]
  unfold atomNew
  by_cases hop : op = .cas
  · subst hop
    have hcmp : (vals.getD 1 {}).val.toNat % 2 ^ (8 * size) = old ↔ (vals.getD 1 {}).val.setWidth (8 * size) = BitVec.ofNat (8 * size) old := by
      rw [← BitVec.toNat_inj, BitVec.toNat_setWidth, hmod]
    simp only [if_true, atomicResult, hcmp]
    split <;> simp
  · simp only [if_neg hop, atomicResult_toNat hop, Option.map_some, leBytes_mod, BitVec.toNat_setWidth, hmod]

theorem ops_drop_val (l : Lane) (i : Instr) (a n : Nat) : (((l.ops i).drop a).getD n {}).val = l.operand i (a + n) := by
  rw [← ops_getD_val, List.getD_eq_getElem?_getD, List.getD_eq_getElem?_getD, List.getElem?_drop]

/-- The model's read and write of an atomic in the banks: those of the statement. -/
theorem atomicAt_bank {r : State} {deps : List Nat} {op : AOp} {vals : List Entry} {vs : Seen} (o : AOrd) (hl : s.lane k = some l)
    (hread : s.laneReadAt k deps [] (fun w => w.point == 6000 || w.who / 32 == s.who k / 32) key size = (vs, r)) :
    s.atomicAt k key size 6000 (fun w => w.who / 32 == s.who k / 32) .cluster o deps (atomNew op size vals) =
      ((leNat vs.bytes, (vs.rels ++ deps).dedup),
        let u := bankStore r k key size o ((atomicResult op (8 * size) (BitVec.ofNat _ (leNat vs.bytes)) ((vals.getD 0 {}).val.setWidth _)
          ((vals.getD 1 {}).val.setWidth _)).map (·.toNat))
        if acquires o then u.boundary k .cluster else u) := by
  have hord : relOf o = releases o ∧ acqOf o = acquires o := by cases o <;> decide
  have hlen : vs.bytes.length = size := by
    rw [← laneReadAt_length deps [] (fun w => w.point == 6000 || w.who / 32 == s.who k / 32) key size hl, hread]
  have hnew := atomNew_operands op size vals (hlen ▸ leNat_lt vs.bytes)
  simp only [State.atomicAt, hread, hord.1, hord.2]
  rw [← bankStore_of_bytes hnew]
  rfl

theorem reads_atomt (w : StallL) (op : AOp) (o : AOrd) :
    (shapeOf (.atomt w op o)).reads = 0 :: (if op = .cas then [1, 2, 3, 4] else [1, 2, 3]) := by
  cases op <;> rfl

/-- An atomic of a lane alone reads, stores and orders (R161, R221). -/
theorem exec_atomt_of {w : StallL} {op : AOp} {o : AOrd} {vs : Seen} {r u : State} (h : Alone s (.atomt w op o) k l)
    (hel : ElementAt s k (l.operand (.atomt w op o) 0).toNat (l.operand (.atomt w op o) 2).toNat (l.operand (.atomt w op o) 1).toNat g idx key)
    (hfree : s.waveHolds (s.taskNo k) (waveOf k) (l.operand (.atomt w op o) 0).toNat true true = false) (hrdo : g.rdo = false)
    (hkind : atomtKind op g = true) (hpoison : s.isPoison key g.nbytes = false) (hecc : s.isEcc key g.nbytes = false)
    (hread : s.laneReadAt k (depsOf ((l.ops (.atomt w op o)).take 3)) []
      (fun w => w.point == 6000 || w.who / 32 == s.who k / 32) key g.nbytes = (vs, r))
    (hu : u = bankStore r k key g.nbytes o ((atomicResult op (8 * g.nbytes) (BitVec.ofNat _ (leNat vs.bytes))
      ((l.operand (.atomt w op o) 3).setWidth _) ((l.operand (.atomt w op o) 4).setWidth _)).map (·.toNat))) :
    ∃ t, exec (.atomt w op o) s = .next t ∧ Completes s (if acquires o then u.boundary k .cluster else u) t (.atomt w op o) k
      [(BitVec.ofNat 64 (leNat vs.bytes), (vs.rels ++ depsOf ((l.ops (.atomt w op o)).take 3)).dedup)] none := by
  have hfirst := acted_read _ _ h.here (elementAt_exists hel) hread
  obtain ⟨m, hm⟩ := hfirst.here
  have hsync : Synced r (if acquires o then u.boundary k .cluster else u) := by
    have hstore : Synced r u := hu ▸ synced_bankStore o _ (elementAt_exists hel)
    split
    · exact hstore.trans (synced_boundary ..)
    · exact hstore
  obtain ⟨view, qg, ord, hlane⟩ := hsync.lanes k m hm
  rw [exec_atomt, execAtomt, runTensor_free h (reads_atomt w op o) hfree]
  refine exec_of_go h ?_ ⟨hsync.bad.trans (hfirst.bad.trans h.sound.bad), by rw [hsync.iss, hfirst.iss]; exact h.sound.late⟩ hlane
  simp only [ops_getD_val, elemRefusal_of hel hkind (fun _ => hrdo), hel.index, ← hel.place, chipCause_sound hpoison hecc,
    atomicAt_bank o h.here hread, ops_drop_val, Nat.add_zero, Nat.reduceAdd, ← hu]

-- `ldt` (R216, R220): its lanes read together.
/-- A lane alone that has made no request. -/
theorem together_of_refused {reach : State → Nat → List Entry → State × (LOut ⊕ Reached)}
    {act : State → List Reached → State × List (Nat × LOut)} {o : LOut} (h : Alone s i k l) (hr : reach s k (l.ops i) = (u, .inl o))
    (ha : ∀ v, act v [] = (v, [])) : (together i reach act s).1 = (u.conclude k i s.issueCycle s.nextId o).bump.settled := by
  simp [together, readied_of_alone h, h.only, laneReach, begin_of_ready h.ready, hr, ha]

/-- A lane alone whose request is allowed acts. -/
theorem together_of_request {reach : State → Nat → List Entry → State × (LOut ⊕ Reached)}
    {act : State → List Reached → State × List (Nat × LOut)} {r : Reached} {o : LOut} (h : Alone s i k l)
    (hr : reach s k (l.ops i) = (u, .inr r)) (hs : r.stop = none) (ha : act u [r] = (v, [(k, o)])) :
    (together i reach act s).1 = (v.conclude k i s.issueCycle v.nextId o).bump.settled := by
  simp [together, readied_of_alone h, h.only, laneReach, begin_of_ready h.ready, hr, hs, ha]

/-- One read for one lane, of bytes that no write contests: it gives what memory holds (R285). -/
theorem readsFor_alone (hl : s.lane k = some l) (hfree : Uncontested s key size) (deps : List Nat) :
    ∃ vs : Seen, s.readsFor [(k, deps, key, size)] = ([(key, vs)], s.setLane k { l with seen := seenUpdate key vs.ids l.seen }) ∧
      vs.bytes = peeks s.mem key size ∧ vs.rels = [] := by
  obtain ⟨hbytes, hrels, hsame⟩ := readVer_uncontested (viewJoin (s.floorOf k l deps) []) (fun w => w.who / 32 == s.who k / 32) hfree
  refine ⟨_, ?_, hbytes, hrels⟩
  simp only [State.readsFor, State.readFor, List.foldl_cons, List.foldl_nil, List.any_nil, Bool.false_eq_true, if_false, List.filter_cons,
    beq_self_eq_true, if_true, List.filter_nil, List.map_cons, List.map_nil, List.nil_append, List.headD_cons, hl, Option.map_some,
    Option.getD_some, hsame]
  rw [modLane_of _ hl]

/-- The request of a lane's `ldt`. -/
def ldtRequest (i : Instr) (k : Nat) (l : Lane) : Reached := { lane := k, key := none, ea := 0, ops := l.ops i }

theorem ldtOf_of (hel : ElementAt s k (l.operand i 0).toNat (l.operand i 2).toNat (l.operand i 1).toNat g idx key) :
    s.ldtOf k (l.ops i) = .inr { lane := k, g := g, ix := g.split (l.operand i 2).toNat (l.operand i 1).toNat, deps := depsOf (l.ops i) } := by
  simp only [State.ldtOf, ops_getD_val, elemRefusal_of hel (elementAt_onChip hel) (fun h => absurd h Bool.false_ne_true)]

/-- A lane alone reads its element, and remembers what it has seen. -/
theorem ldtAll_alone (hl : s.lane k = some l)
    (hel : ElementAt s k (l.operand i 0).toNat (l.operand i 2).toNat (l.operand i 1).toNat g idx key)
    (hpoison : s.isPoison key g.nbytes = false) (hecc : s.isEcc key g.nbytes = false) (hfree : Uncontested s key g.nbytes) :
    ∃ x, ldtAll s [ldtRequest i k l] = (s.setLane k { l with seen := x },
      [(k, .go [(elemVal g.fmt (g.take idx (peeks s.mem key g.nbytes)), depsOf (l.ops i))])]) := by
  obtain ⟨vs, hread, hbytes, hrels⟩ := readsFor_alone hl hfree (depsOf (l.ops i))
  have hcell : ∀ bm, g.cell bm (g.split (l.operand i 2).toNat (l.operand i 1).toNat) = .elem idx (g.start + g.byteOf idx) := fun bm => by
    simp only [Geom.cell, index_dense hel.dense, hel.index]
  have hnone : s.readsFor [] = ([], s) := rfl
  have hdeps : (depsOf (l.ops i)).dedup = depsOf (l.ops i) := List.dedup_idem
  refine ⟨seenUpdate key vs.ids l.seen, ?_⟩
  simp [ldtAll, ldtRequest, ldtOf_of hel, hel.dense, hnone, hcell, Geom.cellAt, ← hel.place, chipCause_sound hpoison hecc, hread, seenAt,
    Geom.cellVal, hbytes, hrels, hdeps]

theorem exec_ldt_of {w : StallS} (h : Alone s (.ldt w) k l)
    (hel : ElementAt s k (l.operand (.ldt w) 0).toNat (l.operand (.ldt w) 2).toNat (l.operand (.ldt w) 1).toNat g idx key)
    (hheld : s.waveHolds (s.taskNo k) (waveOf k) (l.operand (.ldt w) 0).toNat false true = false)
    (hpoison : s.isPoison key g.nbytes = false) (hecc : s.isEcc key g.nbytes = false) (hfree : Uncontested s key g.nbytes) :
    ∃ x t, exec (.ldt w) s = .next t ∧ Completes s (s.setLane k { l with seen := x }) t (.ldt w) k
      [(elemVal g.fmt (g.take idx (peeks s.mem key g.nbytes)), depsOf (l.ops (.ldt w)))] none := by
  obtain ⟨x, hall⟩ := ldtAll_alone h.here hel hpoison hecc hfree
  obtain ⟨d, n, hd⟩ := retire_of_lane (i := .ldt w) s.issueCycle
    [(elemVal g.fmt (g.take idx (peeks s.mem key g.nbytes)), depsOf (l.ops (.ldt w)))] none (lane_setLane_self s k { l with seen := x })
  refine ⟨x, _, ?_, _, d, n, lane_setLane_self .., rfl⟩
  rw [exec_ldt, execLdt, strandHolds_alone h (r := [1, 2]) rfl, hheld]
  simp only [Bool.false_eq_true, if_false]
  rw [together_of_request (u := s) (r := ldtRequest (.ldt w) k l) h (by simp only [ldtOf_of hel]; rfl) rfl hall]
  simp only [State.conclude, hd]
  rw [settled_of_prompt (by exact h.sound.late), finish_of_sound (by exact h.sound.bad)]
  rfl

/-- An index outside the extents: the lane traps, and reads nothing (R212, R220). -/
theorem exec_ldt_outside {w : StallS} (h : Alone s (.ldt w) k l)
    (hen : s.entryOf (s.taskNo k) (l.operand (.ldt w) 0).toNat = some en) (hchip : onChip (geomOf en) = true)
    (hheld : s.waveHolds (s.taskNo k) (waveOf k) (l.operand (.ldt w) 0).toNat false true = false)
    (hout : (geomOf en).ext 0 ≤ (l.operand (.ldt w) 1).toNat ∨ (geomOf en).rows ≤ (l.operand (.ldt w) 2).toNat) :
    exec (.ldt w) s = finish (s.takeTrap k (.ldt w)
      (tensCause 4 (l.operand (.ldt w) 0).toNat (l.operand (.ldt w) 2).toNat (l.operand (.ldt w) 1).toNat)).bump := by
  have hcause : s.ldtOf k (l.ops (.ldt w)) =
      .inl (tensCause 4 (l.operand (.ldt w) 0).toNat (l.operand (.ldt w) 2).toNat (l.operand (.ldt w) 1).toNat) := by
    simp only [State.ldtOf, ops_getD_val, hen, elemRefusal_outside hchip hout]
  rw [exec_ldt, execLdt, strandHolds_alone h (r := [1, 2]) rfl, hheld]
  simp only [Bool.false_eq_true, if_false]
  rw [together_of_refused (u := s) (o := .trap _) h (by simp only [hcause]; rfl) (fun _ => rfl), State.conclude]
  rw [settled_of_prompt (by rw [State.bump_iss, takeTrap_iss]; exact h.sound.late)]

/-- The detail of a TENSOR cause names the reason and the tid (R212). -/
theorem tensCause_detail (reason tid row col : Nat) : (tensCause reason tid row col).group = 8 ∧
    (tensCause reason tid row col).w0 = BitVec.ofNat 32 (256 + reason) ∧ (tensCause reason tid row col).w1.toNat % 256 = tid % 256 := by
  refine ⟨rfl, rfl, ?_⟩
  simp only [tensCause, mkCause, BitVec.toNat_ofNat]
  omega

/-- Settles O43: the lane's element is read, written, or both at once; an index outside the extents traps. -/
theorem elementsComplete : Obligations.ElementsComplete := by
  intro w w3 s k l g idx key
  refine ⟨?load, ?store, ?atomic, ?outside⟩
  case load =>
    intro h hel hheld hpoison hecc hfree
    obtain ⟨x, t, hexec, hdone⟩ := exec_ldt_of h hel hheld hpoison hecc hfree
    exact ⟨_, x, t, hexec, hdone, rfl, lane_setLane_self .., fun j hj => lane_setLane_ne _ _ hj⟩
  case store =>
    intro h hel hheld hrdo
    obtain ⟨t, hexec, hdone⟩ := exec_stt_of h hel hheld hrdo
    refine ⟨t, hexec, hdone, ?_⟩
    rw [completes_mem hdone, (acted_laneWrite _ none none 0 h.here (elementAt_exists hel)).mem, peeks_pokes]
  case atomic =>
    intro op o h hel hheld hrdo hkind hfmt hpoison hecc
    have hacts : atomtKind op g = true := by
      have hfloat : (!aopFloat op) = true ↔ op ≠ .fadd ∧ op ≠ .fmin ∧ op ≠ .fmax := by cases op <;> decide
      simp only [atomtKind, Bool.and_eq_true, Bool.or_eq_true, decide_eq_true_eq, hfloat]
      exact ⟨hkind, hfmt⟩
    obtain ⟨vs, r, hread⟩ : ∃ vs r, s.laneReadAt k (depsOf ((l.ops (.atomt w3 op o)).take 3)) []
      (fun w => w.point == 6000 || w.who / 32 == s.who k / 32) key g.nbytes = (vs, r) := ⟨_, _, rfl⟩
    obtain ⟨t, hexec, hdone⟩ := exec_atomt_of h hel hheld hrdo hacts hpoison hecc hread rfl
    exact ⟨vs, r, _, _, t, hread.symm, rfl, rfl, hexec, hdone⟩
  case outside =>
    intro en h hen hchip hheld hout
    obtain ⟨hgroup, hreason, htid⟩ := tensCause_detail 4 (l.operand (.ldt w) 0).toNat (l.operand (.ldt w) 2).toNat (l.operand (.ldt w) 1).toNat
    exact ⟨_, exec_ldt_outside h hen (onChip_iff.2 hchip) hheld hout, hgroup, hreason, htid⟩

end Sys2Proof.Tensors
end

section
/-! PROOFS. Where `talloc` finds a tid and a place: the lowest that is free, and the lowest at which a tensor fits (R213, R214, R218). -/

namespace Sys2Proof.Tensors

open Sys2Proof Sys2Proof.Machine Sys2Proof.Claims

variable {s : State} {x : Task} {g : Geom} {n hi a p lo tn tid : Nat} {used : List (Nat × Nat)}

-- Tids (R218).
theorem freeTid_eq_some_iff {m : Map (List Word)} : freeTid m lo = some tid ↔
    lo ≤ tid ∧ tid < lo + 128 ∧ mget m tid = none ∧ ∀ n, lo ≤ n → n < tid → mget m n ≠ none := by
  simp only [freeTid, List.find?_map, Option.map_eq_some_iff, List.find?_range_eq_some, Function.comp_apply, List.mem_range,
    Option.isNone_iff_eq_none, Bool.not_eq_true', Option.isNone_eq_false_iff, Option.isSome_iff_ne_none]
  constructor
  · rintro ⟨j, ⟨hnone, hj, hlow⟩, rfl⟩
    refine ⟨by omega, by omega, hnone, fun n hn hlt => ?_⟩
    have := hlow (n - lo) (by omega)
    rwa [Nat.sub_add_cancel hn] at this
  · rintro ⟨hlo, hlt, hnone, hlow⟩
    refine ⟨tid - lo, ⟨by rwa [Nat.sub_add_cancel hlo], by omega, fun j hj => hlow _ (by omega) (by omega)⟩, by omega⟩

/-- The lowest tid that is free, in the map that holds the entries from `lo` on. -/
theorem lowestFree_iff {m : Map (List Word)} (hm : ∀ n, lo ≤ n → n < lo + 128 → s.entryOf tn n = mget m n) :
    lowestFree s tn lo tid ↔ freeTid m lo = some tid := by
  rw [freeTid_eq_some_iff, lowestFree]
  refine and_congr_right fun hlo => and_congr_right fun hhi => ?_
  rw [hm tid hlo hhi]
  refine and_congr_right fun _ => forall_congr' fun n => imp_congr_right fun hn => imp_congr_right fun hlt => ?_
  rw [hm n hn (by omega)]

-- Places (R213).
/-- n bytes from `a` on share none with the ranges in use. -/
def clearOf (used : List (Nat × Nat)) (n a : Nat) : Prop := ∀ u, u ∈ used → a + n ≤ u.1 ∨ u.1 + u.2 ≤ a

/-- Whoever starts no lower than a place that a range in use blocks, and is clear of that range, starts behind it. -/
theorem behind_of_clear {u : Nat × Nat} (hu : u ∈ used) (hblocks : u.1 < p + n ∧ p < u.1 + u.2) {y : Nat} (hp : p ≤ y)
    (hclear : clearOf used n y) : u.1 + u.2 ≤ y := by
  have := hclear u hu
  omega

theorem blocks_of_find {u : Nat × Nat} (h : used.find? (fun u => u.1 < p + n && p < u.1 + u.2) = some u) :
    u ∈ used ∧ u.1 < p + n ∧ p < u.1 + u.2 :=
  ⟨List.mem_of_find?_eq_some h, by simpa using List.find?_some h⟩

/-- What the search finds is clear, and lowest. -/
theorem firstFit_some {f : Nat} (h : firstFit used n hi f p = some a) :
    p ≤ a ∧ a + n ≤ hi ∧ clearOf used n a ∧ ∀ y, p ≤ y → clearOf used n y → a ≤ y := by
  induction f generalizing p with
  | zero => cases h
  | succ f ih =>
    rw [firstFit] at h
    split at h
    · cases h
    · rename_i hroom
      split at h
      · rename_i u hfind
        obtain ⟨hu, hblocks⟩ := blocks_of_find hfind
        obtain ⟨hle, hfits, hclear, hlow⟩ := ih h
        exact ⟨by omega, hfits, hclear, fun y hy hc => hlow y (behind_of_clear hu hblocks hy hc) hc⟩
      · rename_i hnone
        cases h
        refine ⟨Nat.le_refl _, by omega, fun u hu => ?_, fun y hy _ => hy⟩
        have := List.find?_eq_none.1 hnone u hu
        simp only [Bool.and_eq_true, decide_eq_true_eq] at this
        omega

/-- A search that has a try for each range in use ahead of it, and one more, misses no place. -/
theorem firstFit_none {f : Nat} (h : firstFit used n hi f p = none) (hf : (used.filter (fun u => p < u.1 + u.2)).length < f) {y : Nat}
    (hy : p ≤ y) (hclear : clearOf used n y) : hi < y + n := by
  induction f generalizing p with
  | zero => exact absurd hf (Nat.not_lt_zero _)
  | succ f ih =>
    rw [firstFit] at h
    split at h
    · omega
    · split at h
      · rename_i u hfind
        obtain ⟨hu, hblocks⟩ := blocks_of_find hfind
        refine ih h ?_ (behind_of_clear hu hblocks hy hclear)
        have hsub : used.filter (fun v => u.1 + u.2 < v.1 + v.2) =
            (used.filter (fun v => p < v.1 + v.2)).filter (fun v => u.1 + u.2 < v.1 + v.2) := by
          rw [List.filter_filter]
          refine List.filter_congr fun v _ => ?_
          rw [Bool.eq_iff_iff, Bool.and_eq_true, decide_eq_true_eq, decide_eq_true_eq]
          omega
        have hlt : (used.filter (fun v => u.1 + u.2 < v.1 + v.2)).length < (used.filter (fun v => p < v.1 + v.2)).length := by
          rw [hsub, List.length_filter_lt_length_iff_exists]
          exact ⟨u, List.mem_filter.2 ⟨hu, by simpa using hblocks.2⟩, by simp⟩
        omega
      · cases h

theorem fitIn_none (h : fitIn used n hi p = none) {y : Nat} (hy : p ≤ y) (hclear : clearOf used n y) : hi < y + n :=
  firstFit_none h (Nat.lt_succ_of_le (List.length_filter_le _ _)) hy hclear

/-- A place at which a tensor fits lies in its range, and is clear of the tensors there. -/
theorem fitsAt_iff : fitsAt x g a ↔
    (if g.kind = 2 then x.acc = true ∧ (a + g.span ≤ 32768 ∨ (32768 ≤ a ∧ a + g.span ≤ 65536))
      else x.scratch ≤ a ∧ a + g.span ≤ x.scratch + x.nscratch) ∧ clearOf (spans x (g.kind == 2)) g.span a := by
  refine and_congr_right fun _ => ?_
  have hmem : ∀ u : Nat × Nat, u ∈ spans x (g.kind == 2) ↔
      ∃ p, p ∈ x.tens ∧ ((geomOf p.2).kind = 2 ↔ g.kind = 2) ∧ (chipStart (geomOf p.2), (geomOf p.2).span) = u := by
    intro u
    simp only [spans, List.mem_filterMap, List.mem_map, Option.ite_none_right_eq_some, Option.some.injEq, beq_iff_eq,
      exists_exists_and_eq_and]
    refine exists_congr fun p => and_congr_right fun _ => and_congr_left fun _ => ?_
    rw [Bool.eq_iff_iff, beq_iff_eq, beq_iff_eq]
  constructor
  · rintro hall u hu
    obtain ⟨p, hp, hkind, rfl⟩ := (hmem u).1 hu
    exact hall p hp hkind
  · intro hall p hp hkind
    exact hall _ ((hmem _).2 ⟨p, hp, hkind, rfl⟩)

/-- The lowest place at which a tensor fits. -/
def lowestFit (x : Task) (g : Geom) (a : Nat) : Prop := fitsAt x g a ∧ ∀ y, fitsAt x g y → a ≤ y

/-- Where the model places a tensor, it fits, and nowhere lower. -/
theorem placeFor_some (h : placeFor x g = some a) : lowestFit x g a := by
  simp only [lowestFit, fitsAt_iff]
  unfold placeFor at h
  split at h
  · rename_i hkind
    simp only [hkind, if_true, beq_self_eq_true]
    split at h
    · cases h
    · rename_i hacc
      have hacc : x.acc = true := by simpa using hacc
      split at h
      · rename_i b hfirst
        cases h
        obtain ⟨-, hfits, hclear, hlow⟩ := firstFit_some hfirst
        exact ⟨⟨⟨hacc, .inl hfits⟩, hclear⟩, fun y hy => hlow y (Nat.zero_le _) hy.2⟩
      · rename_i hnone
        obtain ⟨hle, hfits, hclear, hlow⟩ := firstFit_some h
        refine ⟨⟨⟨hacc, .inr ⟨hle, hfits⟩⟩, hclear⟩, fun y ⟨⟨_, hrange⟩, hy⟩ => hlow y ?_ hy⟩
        have := fitIn_none hnone (Nat.zero_le y) hy
        omega
  · rename_i hkind
    have hother : (g.kind == 2) = false := by simpa using hkind
    simp only [hkind, if_false, hother]
    obtain ⟨hle, hfits, hclear, hlow⟩ := firstFit_some h
    exact ⟨⟨⟨hle, hfits⟩, hclear⟩, fun y ⟨hrange, hy⟩ => hlow y hrange.1 hy⟩

/-- Where the model finds no place, there is none. -/
theorem placeFor_none (h : placeFor x g = none) : ¬ fitsAt x g a := by
  rw [fitsAt_iff]
  unfold placeFor at h
  split at h
  · rename_i hkind
    simp only [hkind, if_true, beq_self_eq_true]
    rintro ⟨⟨hacc, hrange⟩, hclear⟩
    simp only [hacc, Bool.not_true, Bool.false_eq_true, if_false] at h
    split at h
    · cases h
    · rename_i hnone
      have hlow := fitIn_none hnone (Nat.zero_le a) hclear
      rcases hrange with hrange | ⟨hle, hrange⟩
      · omega
      · have := fitIn_none h hle hclear
        omega
  · rename_i hkind
    have hother : (g.kind == 2) = false := by simpa using hkind
    simp only [hkind, if_false, hother]
    rintro ⟨⟨hle, hrange⟩, hclear⟩
    have := fitIn_none h hle hclear
    omega

theorem placeFor_eq_some (h : lowestFit x g a) : placeFor x g = some a := by
  cases hp : placeFor x g with
  | none => exact absurd h.1 (placeFor_none hp)
  | some b =>
    obtain ⟨hfits, hlow⟩ := placeFor_some hp
    rw [Nat.le_antisymm (hlow a h.1) (h.2 b hfits)]

theorem placeFor_eq_none (h : ∀ a, ¬ fitsAt x g a) : placeFor x g = none := by
  cases hp : placeFor x g with
  | none => rfl
  | some b => exact absurd (placeFor_some hp).1 (h b)

end Sys2Proof.Tensors
end

section
/-! PROOFS. The entry that `talloc` makes of a descriptor on the chip: its words, its place and its size (R209, R210, R213, R214). -/

namespace Sys2Proof.Tensors

open Sys2Proof Sys2Proof.Machine Sys2Proof.Claims

variable {d e : List Word} {a i j v n : Nat}

-- Words (R209).
theorem toWords_length (b : List Byte) (n : Nat) : (toWords b n).length = n := by simp [toWords]

@[simp] theorem setWord_length (e : List Word) (i v : Nat) : (setWord e i v).length = e.length := by simp [setWord]

theorem getD_setWord (h : i < e.length) : (setWord e i v).getD j 0 = if j = i then BitVec.ofNat 64 v else e.getD j 0 := by
  simp only [setWord, List.getD_eq_getElem?_getD, List.getElem?_set]
  split
  · rename_i hij
    simp [hij]
  · rename_i hij
    rw [if_neg (Ne.symm hij)]

theorem wordOf_setWord (h : i < e.length) : wordOf (setWord e i v) j = if j = i then v % 2 ^ 64 else wordOf e j := by
  rw [wordOf, getD_setWord h]
  split
  · exact BitVec.toNat_ofNat ..
  · rfl

theorem wordOf_lt (e : List Word) (i : Nat) : wordOf e i < 2 ^ 64 := BitVec.isLt _

/-- V lies above all other fields of word 0. -/
theorem setBit_V (c : Nat) : setBit c 63 % 2 ^ 63 = c % 2 ^ 63 := by
  rw [setBit, Nat.or_mod_two_pow, Nat.mod_self, Nat.or_zero]
theorem setBit_V_lt {c : Nat} (h : c < 2 ^ 64) : setBit c 63 < 2 ^ 64 := Nat.or_lt_two_pow h (by decide)

/-- What the entry of a descriptor has in common with it, and its base. -/
structure Placed (d e : List Word) (base : Nat) : Prop where
  length : e.length = 8
  config : wordOf e 0 = setBit (wordOf d 0) 63
  extents : e.getD 1 0 = d.getD 1 0
  outer : (geomOf d).kind ≠ 3 → wordOf e 2 % 2 ^ 32 = wordOf d 2 % 2 ^ 32
  base : wordOf e 5 = base

/-- V is set, and the base is filled in. -/
theorem placed_start (hd : d.length = 8) {base : Nat} (hbase : base < 2 ^ 64) :
    Placed d (setWord (setWord d 0 (setBit (wordOf d 0) 63)) 5 base) base := by
  have h0 : 0 < d.length := by omega
  have h5 : 5 < (setWord d 0 (setBit (wordOf d 0) 63)).length := by rw [setWord_length]; omega
  refine ⟨by rw [setWord_length, setWord_length, hd], ?_, ?_, fun _ => ?_, ?_⟩
  · rw [wordOf_setWord h5, if_neg (by decide), wordOf_setWord h0, if_pos rfl, Nat.mod_eq_of_lt (setBit_V_lt (wordOf_lt d 0))]
  · rw [getD_setWord h5, if_neg (by decide), getD_setWord h0, if_neg (by decide)]
  · rw [wordOf_setWord h5, if_neg (by decide), wordOf_setWord h0, if_neg (by decide)]
  · rw [wordOf_setWord h5, if_pos rfl, Nat.mod_eq_of_lt hbase]

/-- The other words change nothing of this. -/
theorem Placed.setOther {base : Nat} (h : Placed d e base) (hj : j = 3 ∨ j = 4 ∨ j = 6 ∨ j = 7) (v : Nat) : Placed d (setWord e j v) base := by
  have hlt : j < e.length := by rw [h.length]; omega
  refine ⟨(setWord_length ..).trans h.length, ?_, ?_, fun h3 => ?_, ?_⟩
  · rw [wordOf_setWord hlt, if_neg (by omega)]; exact h.config
  · rw [getD_setWord hlt, if_neg (by omega)]; exact h.extents
  · rw [wordOf_setWord hlt, if_neg (by omega)]; exact h.outer h3
  · rw [wordOf_setWord hlt, if_neg (by omega)]; exact h.base

/-- A stride in the upper half of word 2 leaves the extents in its lower half. -/
theorem Placed.setStride {base : Nat} (h : Placed d e base) (n : Nat) : Placed d (setWord e 2 (n * 2 ^ 32 + wordOf d 2 % 2 ^ 32)) base := by
  have hlt : 2 < e.length := by rw [h.length]; omega
  refine ⟨(setWord_length ..).trans h.length, ?_, ?_, fun _ => ?_, ?_⟩
  · rw [wordOf_setWord hlt, if_neg (by decide)]; exact h.config
  · rw [getD_setWord hlt, if_neg (by decide)]; exact h.extents
  · rw [wordOf_setWord hlt, if_pos rfl]; omega
  · rw [wordOf_setWord hlt, if_neg (by decide)]; exact h.base

/-- The entry of an accumulator tensor, of a frame tile and of a scratchpad tensor (R209, R213, R214). -/
theorem placed_fillEntry (hd : d.length = 8) (ha : a < 2 ^ 64) (hacc : (geomOf d).kind = 2 → a < 65536) :
    Placed d (fillEntry d a) (if (geomOf d).kind = 2 then a / 32768 * 65536 + a % 32768 else a) := by
  unfold fillEntry
  dsimp only
  by_cases h2 : (geomOf d).kind = 2
  · rw [if_pos h2, if_pos h2]
    exact ((placed_start hd (by have := hacc h2; omega)).setStride _).setOther (by decide) _
  · rw [if_neg h2, if_neg h2]
    by_cases h3 : (geomOf d).kind = 3
    · rw [if_pos h3]
      exact placed_start hd ha
    · rw [if_neg h3]
      refine Placed.setOther (Placed.setStride ?_ _) (by decide) _
      have hgroups : Placed d (if (geomOf d).gsz = 0 then setWord (setWord d 0 (setBit (wordOf d 0) 63)) 5 a
          else setWord (setWord (setWord (setWord d 0 (setBit (wordOf d 0) 63)) 5 a) 6
            (a + (((geomOf d).sizes.map up256).take 1).sum)) 7 (a + (((geomOf d).sizes.map up256).take 2).sum)) a := by
        split
        · exact placed_start hd ha
        · exact ((placed_start hd ha).setOther (by decide) _).setOther (by decide) _
      split
      · exact hgroups.setOther (by decide) _
      · exact hgroups

-- Geometry (R209).
/-- A size depends on format, grouping, sparsity and extents alone. -/
theorem span_congr {f g : Geom} (hfmt : f.fmt = g.fmt) (hgsz : f.gsz = g.gsz) (hgax : f.gax = g.gax) (hsp : f.sp = g.sp) (he : f.e = g.e) :
    f.span = g.span := by
  simp only [Geom.span, Geom.sizes, Geom.count, Geom.rows, Geom.ext, Geom.bits, Geom.groups, Geom.gsize, Geom.blocks, hfmt, hgsz, hgax, hsp, he]

theorem geomOf_kind (e : List Word) : (geomOf e).kind = wordOf e 0 % 8 := rfl

section placed
variable {base : Nat} (h : Placed d e base) (hd : d.length = 8)
include h

theorem Placed.kind : (geomOf e).kind = (geomOf d).kind := by
  have := setBit_V (wordOf d 0)
  rw [geomOf_kind, geomOf_kind, h.config]
  omega

theorem Placed.sp : (geomOf e).sp = (geomOf d).sp := by
  show (wordOf e 0).testBit 14 = (wordOf d 0).testBit 14
  rw [h.config, setBit, Nat.testBit_or, Nat.testBit_two_pow_of_ne (by decide), Bool.or_false]

theorem Placed.base_eq : (geomOf e).base = base := h.base

include hd

theorem Placed.extents_eq : (geomOf e).e = (geomOf d).e := by
  have hkind : wordOf e 0 % 8 = wordOf d 0 % 8 := h.kind
  have hone : wordOf e 1 = wordOf d 1 := congrArg BitVec.toNat h.extents
  have hninth : e[8]? = none ∧ d[8]? = none := ⟨by simp [h.length], by simp [hd]⟩
  by_cases h3 : wordOf d 0 % 8 = 3
  · simp [geomOf, hkind, hone, hninth, h3]
  · have houter := h.outer h3
    have hthird : wordOf e 2 % 2 ^ 16 = wordOf d 2 % 2 ^ 16 := by omega
    have hfourth : wordOf e 2 / 2 ^ 16 % 2 ^ 16 = wordOf d 2 / 2 ^ 16 % 2 ^ 16 := by omega
    simp only [geomOf, hkind, hone, hninth, h3, if_false, hthird, hfourth]

theorem Placed.span : (geomOf e).span = (geomOf d).span := by
  have hlow := setBit_V (wordOf d 0)
  rw [← h.config] at hlow
  refine span_congr ?_ ?_ ?_ h.sp (h.extents_eq hd)
  · show wordOf e 0 / 16 % 16 = wordOf d 0 / 16 % 16
    omega
  · show wordOf e 0 / 2 ^ 12 % 4 = wordOf d 0 / 2 ^ 12 % 4
    omega
  · show wordOf e 0 / 2 ^ 10 % 4 = wordOf d 0 / 2 ^ 10 % 4
    omega

end placed

/-- The entry lies where it was placed. -/
theorem chipStart_fillEntry (hd : d.length = 8) (ha : a < 2 ^ 64) (hacc : (geomOf d).kind = 2 → a < 65536) :
    chipStart (geomOf (fillEntry d a)) = a := by
  have hplaced := placed_fillEntry hd ha hacc
  rw [chipStart, hplaced.kind, hplaced.base_eq]
  split
  · rename_i h2
    have := hacc h2
    omega
  · rfl

-- Descriptors that pass their check (R210).
theorem badWord_le (h : badWord d = some n) : n ≤ 7 := by
  unfold badWord at h
  dsimp only at h
  split_ifs at h <;> cases h <;> decide

theorem okWords_of (h : badWord d = none) : okWord0 (wordOf d 0) = true ∧ okWord1 (geomOf d) = true ∧ okWord2 (geomOf d) (wordOf d 2) = true := by
  unfold badWord at h
  dsimp only at h
  split_ifs at h with h0 h1 h2
  exact ⟨by simpa using h0, by simpa using h1, by simpa using h2⟩

theorem bits_pos (g : Geom) : 0 < g.bits := by
  unfold Geom.bits fmtBits
  split_ifs <;> decide

/-- A descriptor that passes has some element, so it takes some room. -/
theorem span_pos (h : badWord d = none) (h3 : (geomOf d).kind ≠ 3) : 0 < (geomOf d).span := by
  obtain ⟨-, h1, h2⟩ := okWords_of h
  simp only [okWord1, okWord2, h3, if_false, Bool.and_eq_true] at h1 h2
  have hext : ∀ n i, okExt (geomOf d).ndm1 n i = true → 0 < i := fun n i hok => by
    unfold okExt at hok
    split at hok
    · exact Nat.pos_of_ne_zero (by simpa using hok)
    · exact Nat.lt_of_lt_of_eq Nat.one_pos (by simpa using Eq.symm (beq_iff_eq.1 hok))
  have hcount : 0 < (geomOf d).count :=
    Nat.mul_pos (hext _ _ h1.1.1) (Nat.mul_pos (Nat.mul_pos (hext _ _ h1.1.2) (hext _ _ h2.1.1)) (hext _ _ h2.1.2))
  have helems : 0 < (geomOf d).count * (geomOf d).bits := Nat.mul_pos hcount (bits_pos _)
  simp only [Geom.span, Geom.sizes, List.map_cons, List.sum_cons, up256, ceilDiv]
  omega

end Sys2Proof.Tensors
end

section
/-! PROOFS. Entries of tensors as a task names them, an engine's read of a descriptor, and how a lane alone ends an engine command
(R150, R208, R217, R218). -/

namespace Sys2Proof.Tensors

open Sys2Proof Sys2Proof.Machine Sys2Proof.Claims Sys2Proof.Numbers Sys2Proof.Accesses Sys2Proof.Tasks

variable {s t u : State} {i : Instr} {k tn tid n : Nat} {l : Lane} {x y : Task} {e : Option (List Word)} {ent : Entry} {b : List Byte}

-- Entries (R208).
theorem entryOf_context (hx : s.task tn = some x) (h : tid < 128) : s.entryOf tn tid = mget (s.ctx x.space).tens tid := by
  simp only [State.entryOf, hx, h, if_true]

theorem entryOf_task (hx : s.task tn = some x) (h : 128 ≤ tid) (h2 : tid < 256) : s.entryOf tn tid = mget x.tens tid := by
  simp only [State.entryOf, hx, Nat.not_lt.2 h, if_false, h2, if_true]

/-- A tid of 256 or more names nothing. -/
theorem tid_lt {en : List Word} (h : s.entryOf tn tid = some en) : tid < 256 := by
  by_contra hge
  have h1 : ¬ tid < 128 := by omega
  unfold State.entryOf at h
  split at h
  · cases h
  · rw [if_neg h1, if_neg hge] at h
    cases h

theorem entryOf_congr (ht : t.tasks = s.tasks) (hc : t.ctxs = s.ctxs) (tn tid : Nat) : t.entryOf tn tid = s.entryOf tn tid := by
  simp only [State.entryOf, State.task, State.ctx, ht, hc]

theorem entryChanged_congr (h : ∀ n, u.entryOf tn n = s.entryOf tn n) (hc : entryChanged u t tn tid e) : entryChanged s t tn tid e :=
  ⟨hc.1, fun n hn => (hc.2 n hn).trans (h n)⟩

/-- One entry of the context has changed. -/
theorem entryChanged_context (hx : s.task tn = some x) (hy : t.task tn = some y) (hspace : y.space = x.space) (htens : y.tens = x.tens)
    (htid : tid < 128) (hctx : ∀ n, mget (t.ctx x.space).tens n = if n = tid then e else mget (s.ctx x.space).tens n) :
    entryChanged s t tn tid e := by
  refine ⟨by rw [entryOf_context hy htid, hspace, hctx, if_pos rfl], fun n hn => ?_⟩
  simp only [State.entryOf, hx, hy, hspace, htens, hctx, if_neg hn]

/-- One entry of the task has changed. -/
theorem entryChanged_task (hx : s.task tn = some x) (hy : t.task tn = some y) (hspace : y.space = x.space)
    (hctx : (t.ctx x.space).tens = (s.ctx x.space).tens) (htid : 128 ≤ tid) (htid2 : tid < 256)
    (htens : ∀ n, mget y.tens n = if n = tid then e else mget x.tens n) : entryChanged s t tn tid e := by
  refine ⟨by rw [entryOf_task hy htid htid2, htens, if_pos rfl], fun n hn => ?_⟩
  simp only [State.entryOf, hx, hy, hspace, htens, hctx, if_neg hn]

/-- An entry of the context is set. -/
def setContextEntry (s : State) (sp tid : Nat) (en : List Word) : State := s.modCtx sp (fun c => { c with tens := mset c.tens tid en })

theorem entryChanged_setContextEntry (hx : s.task tn = some x) (htid : tid < 128) (en : List Word) :
    entryChanged s (setContextEntry s x.space tid en) tn tid (some en) :=
  entryChanged_context hx hx rfl rfl htid fun n => by
    rw [setContextEntry, Cuts.ctx_modCtx, if_pos rfl]
    exact mget_mset ..

theorem task_modTask (s : State) (n m : Nat) (f : Task → Task) :
    (s.modTask n f).task m = if m = n then (s.task n).map f else s.task m := mget_mmod ..

theorem task_modTask_of (hx : s.task tn = some x) (f : Task → Task) : (s.modTask tn f).task tn = some (f x) := by
  rw [task_modTask, if_pos rfl, hx, Option.map_some]

/-- A change of the task that sets one of its entries. -/
theorem entryChanged_modTask {f : Task → Task} {en : List Word} (hx : s.task tn = some x) (hspace : (f x).space = x.space)
    (htens : (f x).tens = mset x.tens tid en) (htid : 128 ≤ tid) (htid2 : tid < 256) :
    entryChanged s (s.modTask tn f) tn tid (some en) :=
  entryChanged_task hx (task_modTask_of hx f) hspace rfl htid htid2
    fun n => by rw [htens]; exact mget_mset ..

-- A read by an engine for a lane (R150, R217).
theorem engineRead_of (h : EngineReads s k l ent n b u) (hl : s.lane k = some l) : engineRead s k ent.val n ent.deps = (.inr b, u) := by
  obtain ⟨key, s1, hacc, -, rfl, rfl⟩ := h
  simp only [engineRead, hl, hacc]

/-- It changes nothing of tasks, contexts and memory. -/
structure ReadOnly (s u : State) (k : Nat) : Prop where
  iss : u.iss = s.iss
  bad : u.bad = s.bad
  mem : u.mem = s.mem
  tasks : u.tasks = s.tasks
  ctxs : u.ctxs = s.ctxs
  here : ∃ m, u.lane k = some m

theorem readOnly_of (h : EngineReads s k l ent n b u) (hl : s.lane k = some l) : ReadOnly s u k := by
  obtain ⟨key, s1, hacc, he, -, rfl⟩ := h
  have htr := access_translated hacc
  have hact : Acted k s1.mem s1 (s1.laneRead k ent.deps key n).2 :=
    acted_read ent.deps [] ((translated_lane htr k).trans hl) he (v := (s1.laneRead k ent.deps key n).1) rfl
  exact ⟨hact.iss.trans (translated_iss htr), hact.bad.trans (translated_bad htr), hact.mem.trans (translated_mem htr),
    hact.tasks.trans (by rw [htr.same]), by rw [hact.same, htr.same], hact.here⟩

theorem ReadOnly.begun (h : ReadOnly s u k) (hs : Begun s) : Begun u := ⟨h.bad.trans hs.bad, h.iss ▸ hs.late⟩

theorem ReadOnly.task (h : ReadOnly s u k) (tn : Nat) : u.task tn = s.task tn := congrArg (mget · tn) h.tasks

theorem ReadOnly.entryOf (h : ReadOnly s u k) (tn tid : Nat) : u.entryOf tn tid = s.entryOf tn tid := entryOf_congr h.tasks h.ctxs tn tid

-- Two ends of an elected instruction of a lane alone (R64, R134).
section elected
variable {body : State → List Nat → Nat → List Entry → State × EOut} (h : Alone s i k l)
include h

/-- It is refused: the lane traps. -/
theorem exec_of_refuse {c : Cause} (hb : body s [k] k (l.ops i) = (u, .refuse c)) (hu : u.iss = s.iss) :
    finish (runElected i body s) = finish (u.takeTrap k i c).bump := by
  have hops : s.operands k l (shapeOf i).reads = (l.ops i, s) := operands_of_arrived h.ready.onChip
  unfold runElected
  simp only [h.only, readied_of_alone h, passing_of_ready [k] (h.only ▸ h.strand.ready), h.here, hops, hb, List.foldl_cons,
    List.foldl_nil]
  rw [settled_of_prompt (by rw [State.bump_iss, takeTrap_iss, hu]; exact h.sound.late)]

/-- It waits before it has issued. -/
theorem exec_of_elected_hold {w : Wait} (hb : body s [k] k (l.ops i) = (s, .hold w)) (ha : w.apart = false) (hi : w.issued = false) :
    finish (runElected i body s) = .next (s.setLane k (holding s i l w)).bump := by
  rw [runElected_of_hold h hb, holdLane_of h.here ha, hi, settled_of_prompt (by exact h.sound.late), finish_of_sound (by exact h.sound.bad)]
  rfl

end elected

/-- Mode U, as the checks of the tensor instructions read it (R218, R219). -/
theorem userMode_of (hl : s.lane k = some l) : s.userMode k = (l.ts.mode == .u) := by
  simp only [State.userMode, hl, Option.map_some, Option.getD_some]

/-- A cause without row and column names its tid alone (R212). -/
theorem tensCause_tid (reason tid : Nat) : (tensCause reason tid 0 0).w1 = BitVec.ofNat 32 (tid % 256) := by
  simp [tensCause, mkCause]

end Sys2Proof.Tensors
end

section
/-! PROOFS. `talloc` and `tdef`: an entry is made of a descriptor in memory (R210, R213, R214, R216, R218). -/

namespace Sys2Proof.Tensors

open Sys2Proof Sys2Proof.Machine Sys2Proof.Claims Sys2Proof.Numbers Sys2Proof.Accesses Sys2Proof.Slots

variable {s t u r : State} {k tn sp tid a lo n : Nat} {l m : Lane} {x : Task} {d : List Word} {b : List Byte} {v : Word}

-- Storage of a new tensor (R216).
/-- Memory has changed on the chip alone, with its location order and the model's counters. -/
structure Freshened (s t : State) : Prop where
  same : t = { s with mem := t.mem, log := t.log, nextId := t.nextId, free := t.free }
  low : ∀ y, y < 2 ^ 70 → t.byte y = s.byte y

theorem Freshened.refl (s : State) : Freshened s s := ⟨rfl, fun _ _ => rfl⟩

theorem Freshened.trans (h : Freshened s t) (g : Freshened t u) : Freshened s u :=
  ⟨by rw [g.same, h.same], fun y hy => (g.low y hy).trans (h.low y hy)⟩

theorem freshened_clearSome (cs : List Host.Cell) (s : State) (h : ∀ c, c ∈ cs → 2 ^ 70 ≤ c.1) : Freshened s (clearSome s cs) := by
  induction cs generalizing s with
  | nil => exact .refl s
  | cons c r ih =>
    obtain ⟨m, hm⟩ := choose_free s 2
    have hchoice : Freshened s (choose s 2).2 := by rw [hm]; exact ⟨rfl, fun _ _ => rfl⟩
    have hc := h c List.mem_cons_self
    refine Freshened.trans ?_ (ih _ fun c hc => h c (List.mem_cons_of_mem _ hc))
    split
    · exact hchoice.trans ⟨rfl, fun y hy => peek_pokes_outside _ _ _ _ (.inl (Nat.lt_of_lt_of_le hy hc))⟩
    · exact hchoice

theorem freshened_freshStorage {key : Nat} (hk : 2 ^ 70 ≤ key) (s : State) (n : Nat) : Freshened s (s.freshStorage key n) := by
  refine freshened_clearSome _ s fun c hc => ?_
  have hkey := (List.mem_filter.1 hc).2
  rw [Bool.and_eq_true, decide_eq_true_eq] at hkey
  exact Nat.le_trans hk hkey.1

theorem freshened_foldl (keys : List Nat) (hk : ∀ key, key ∈ keys → 2 ^ 70 ≤ key) (n : Nat) (s : State) :
    Freshened s (keys.foldl (fun s k => s.freshStorage k n) s) := by
  induction keys generalizing s with
  | nil => exact .refl s
  | cons key r ih =>
    exact (freshened_freshStorage (hk key List.mem_cons_self) s n).trans (ih (fun k hk' => hk k (List.mem_cons_of_mem _ hk')) _)

/-- The tensor is entered where it fits, and its storage is fresh. -/
theorem allocAt_of (hx : s.task tn = some x) (hp : placeFor x (geomOf d) = some a) (tid : Nat) :
    ∃ t, s.allocAt tn tid d = some t ∧ Freshened (s.setTask tn { x with tens := mset x.tens tid (fillEntry d a) }) t := by
  simp only [State.allocAt, hx, hp]
  refine ⟨_, rfl, freshened_foldl _ (fun key hkey => ?_) _ _⟩
  split at hkey
  · obtain ⟨m, -, rfl⟩ := List.mem_map.1 hkey
    exact chipKey_high ..
  · obtain rfl := List.mem_singleton.1 hkey
    exact chipKey_high ..

theorem allocAt_none (hx : s.task tn = some x) (hp : placeFor x (geomOf d) = none) (tid : Nat) : s.allocAt tn tid d = none := by
  simp only [State.allocAt, hx, hp]

-- What `alloc` answers (R218).
theorem alloc_context (hkind : (geomOf d).kind = 0 ∨ (geomOf d).kind = 4) (hfree : freeTid (s.ctx sp).tens 0 = some tid) :
    s.alloc tn sp d = (BitVec.ofNat 64 tid, setContextEntry s sp tid (valid d)) := by
  have hkind : ((geomOf d).kind = 0 || (geomOf d).kind = 4) = true := by simpa using hkind
  simp only [State.alloc, hkind, if_true, hfree]
  rfl

theorem alloc_context_none (hkind : (geomOf d).kind = 0 ∨ (geomOf d).kind = 4) (hfree : freeTid (s.ctx sp).tens 0 = none) :
    s.alloc tn sp d = (BitVec.allOnes 64, s) := by
  have hkind : ((geomOf d).kind = 0 || (geomOf d).kind = 4) = true := by simpa using hkind
  simp only [State.alloc, hkind, if_true, hfree]

section chip
variable (hkind : ¬ ((geomOf d).kind = 0 ∨ (geomOf d).kind = 4)) (hx : s.task tn = some x)
include hkind hx

theorem alloc_chip (hfree : freeTid x.tens 128 = some tid) (hat : s.allocAt tn tid d = some t) :
    s.alloc tn sp d = (BitVec.ofNat 64 tid, t) := by
  have hkind : ((geomOf d).kind = 0 || (geomOf d).kind = 4) = false := by simpa using hkind
  simp only [State.alloc, hkind, Bool.false_eq_true, if_false, hx, Option.bind_some, hfree, hat]

theorem alloc_chip_none (hshort : freeTid x.tens 128 = none ∨ placeFor x (geomOf d) = none) :
    s.alloc tn sp d = (BitVec.allOnes 64, s) := by
  have hkind : ((geomOf d).kind = 0 || (geomOf d).kind = 4) = false := by simpa using hkind
  simp only [State.alloc, hkind, Bool.false_eq_true, if_false, hx, Option.bind_some]
  cases hfree : freeTid x.tens 128 with
  | none => rfl
  | some tid =>
    simp only [allocAt_none hx (hshort.resolve_left (by simp [hfree])) tid]

end chip

/-- The first tid that entries of a kind may have (R208). -/
def firstTid (g : Geom) : Nat := if g.kind = 0 ∨ g.kind = 4 then 0 else 128

theorem firstTid_context {g : Geom} (h : firstTid g = 0) : g.kind = 0 ∨ g.kind = 4 := by
  unfold firstTid at h
  split at h
  · assumption
  · cases h
theorem firstTid_chip {g : Geom} (h : firstTid g = 128) : ¬ (g.kind = 0 ∨ g.kind = 4) := by
  unfold firstTid at h
  split at h
  · cases h
  · assumption

/-- The lowest free tid of the context, and of the task. -/
theorem lowestFree_context (hx : s.task tn = some x) : lowestFree s tn 0 tid ↔ freeTid (s.ctx x.space).tens 0 = some tid :=
  lowestFree_iff fun _ _ hn => entryOf_context hx (by omega)
theorem lowestFree_task (hx : s.task tn = some x) : lowestFree s tn 128 tid ↔ freeTid x.tens 128 = some tid :=
  lowestFree_iff fun _ hn hn2 => entryOf_task hx hn (by omega)

theorem none_of_not_some {α : Type} {o : Option α} (h : ∀ v, o ≠ some v) : o = none := Option.eq_none_iff_forall_ne_some.2 h

/-- Without a tid or a place, nothing changes. -/
theorem alloc_short (hx : s.task tn = some x) (hshort : (∀ tid, ¬ lowestFree s tn (firstTid (geomOf d)) tid) ∨
      (firstTid (geomOf d) = 128 ∧ ∀ a, ¬ fitsAt x (geomOf d) a)) : s.alloc tn x.space d = (BitVec.allOnes 64, s) := by
  by_cases hkind : (geomOf d).kind = 0 ∨ (geomOf d).kind = 4
  · have hfirst : firstTid (geomOf d) = 0 := if_pos hkind
    rw [hfirst] at hshort
    refine alloc_context_none hkind (none_of_not_some fun tid htid => ?_)
    exact hshort.elim (fun hno => hno tid ((lowestFree_context hx).2 htid)) (fun h => absurd h.1 (by decide))
  · have hfirst : firstTid (geomOf d) = 128 := if_neg hkind
    rw [hfirst] at hshort
    refine alloc_chip_none hkind hx (hshort.imp (fun hno => none_of_not_some fun tid htid => ?_) (fun h => placeFor_eq_none h.2))
    exact hno tid ((lowestFree_task hx).2 htid)

-- `talloc` (R218).
section talloc
variable {w : StallL} (h : Alone s (.talloc w) k l) (hread : EngineReads s k l ((l.ops (.talloc w)).getD 0 {}) 64 b u)
include h hread

/-- A bad descriptor: the lane traps with the word that fails. -/
theorem exec_talloc_bad (hbad : badWord (toWords b 8) = some n) :
    exec (.talloc w) s = finish (u.takeTrap k (.talloc w) (tensCause 2 0 n 0)).bump := by
  rw [exec_talloc, execTalloc]
  refine exec_of_refuse h ?_ (readOnly_of hread h.here).iss
  simp only [engineRead_of hread h.here, hbad]

/-- A good one: the lane pushes what the allocation answers. -/
theorem exec_talloc_of (hgood : badWord (toWords b 8) = none) (hmode : (geomOf (toWords b 8)).kind = 4 → l.ts.mode ≠ .u)
    (hx : s.taskOf k = some x) (halloc : u.alloc (s.taskNo k) x.space (toWords b 8) = (v, r)) (hr : Begun r) (hl : r.lane k = some m) :
    ∃ t, exec (.talloc w) s = .next t ∧ Completes s r t (.talloc w) k [(v, [])] none := by
  have hopen : ((geomOf (toWords b 8)).kind = 4 && l.ts.mode == .u) = false := by
    rw [Bool.and_eq_false_iff, decide_eq_false_iff_not, beq_eq_false_iff_ne]
    exact or_iff_not_imp_left.2 fun h4 => hmode (not_not.1 h4)
  rw [exec_talloc, execTalloc]
  refine exec_of_all_alone h ?_ hr hl
  simp only [engineRead_of hread h.here, hgood, userMode_of h.here, hopen, Bool.false_eq_true, if_false, spaceOf_of hx, halloc]

end talloc

/-- A tensor of the context is entered with V set. -/
theorem talloc_context {w : StallL} (h : Alone s (.talloc w) k l) (hread : EngineReads s k l ((l.ops (.talloc w)).getD 0 {}) 64 b u)
    (hx : s.taskOf k = some x) (hd : d = toWords b 8) (hgood : badWord d = none) (hmode : (geomOf d).kind = 4 → l.ts.mode ≠ .u)
    (hfree : lowestFree s (s.taskNo k) 0 tid) (hfirst : firstTid (geomOf d) = 0) :
    ∃ r t, exec (.talloc w) s = .next t ∧ Completes s r t (.talloc w) k [(BitVec.ofNat 64 tid, [])] none ∧ r = { u with ctxs := r.ctxs } ∧
      entryChanged s r (s.taskNo k) tid (some (valid d)) := by
  subst hd
  have hro := readOnly_of hread h.here
  obtain ⟨m, hm⟩ := hro.here
  have hxu : u.task (s.taskNo k) = some x := (hro.task _).trans hx
  have hfree' : freeTid (u.ctx x.space).tens 0 = some tid := by
    rw [State.ctx, hro.ctxs]
    exact (lowestFree_context hx).1 hfree
  obtain ⟨t, hexec, hdone⟩ := exec_talloc_of h hread hgood hmode hx (alloc_context (firstTid_context hfirst) hfree')
    ⟨(hro.begun h.sound).bad, (hro.begun h.sound).late⟩ hm
  exact ⟨_, t, hexec, hdone, rfl, entryChanged_congr (hro.entryOf _) (entryChanged_setContextEntry hxu hfree.2.1 _)⟩

/-- A tensor on the chip is entered at the lowest place where it fits. -/
theorem talloc_chip {w : StallL} (h : Alone s (.talloc w) k l) (hread : EngineReads s k l ((l.ops (.talloc w)).getD 0 {}) 64 b u)
    (hx : s.taskOf k = some x) (hd : d = toWords b 8) (hgood : badWord d = none) (hmode : (geomOf d).kind = 4 → l.ts.mode ≠ .u)
    (hroom : x.scratch + x.nscratch < 2 ^ 64) (hfree : lowestFree s (s.taskNo k) 128 tid) (hfirst : firstTid (geomOf d) = 128)
    (hfit : lowestFit x (geomOf d) a) :
    ∃ e r t, exec (.talloc w) s = .next t ∧ Completes s r t (.talloc w) k [(BitVec.ofNat 64 tid, [])] none ∧
      r = { u with tasks := r.tasks, mem := r.mem, log := r.log, nextId := r.nextId, free := r.free } ∧
      (∀ y, y < 2 ^ 70 → r.byte y = s.byte y) ∧ entryChanged s r (s.taskNo k) tid (some e) ∧
      wordOf e 0 = setBit (wordOf d 0) 63 ∧ e.getD 1 0 = d.getD 1 0 ∧ chipStart (geomOf e) = a ∧
      (geomOf e).span = (geomOf d).span := by
  subst hd
  have hro := readOnly_of hread h.here
  obtain ⟨m, hm⟩ := hro.here
  have hxu : u.task (s.taskNo k) = some x := (hro.task _).trans hx
  obtain ⟨r, hat, hfresh⟩ := allocAt_of hxu (placeFor_eq_some hfit) tid
  have hlen : (toWords b 8).length = 8 := toWords_length b 8
  have hspan : (geomOf (toWords b 8)).kind = 2 → a < 65536 := fun h2 => by
    have hpos := span_pos hgood (by omega)
    have hrange := hfit.1.1
    rw [if_pos h2] at hrange
    omega
  have ha : a < 2 ^ 64 := by
    by_cases h2 : (geomOf (toWords b 8)).kind = 2
    · have := hspan h2; omega
    · have hrange := hfit.1.1
      rw [if_neg h2] at hrange
      omega
  have hplaced := placed_fillEntry hlen ha hspan
  have hsame : r = { u with tasks := r.tasks, mem := r.mem, log := r.log, nextId := r.nextId, free := r.free } := by rw [hfresh.same]; rfl
  have hbegun := hro.begun h.sound
  obtain ⟨t, hexec, hdone⟩ := exec_talloc_of h hread hgood hmode hx
    (alloc_chip (firstTid_chip hfirst) hxu ((lowestFree_task hx).1 hfree) hat) (m := m)
    ⟨by rw [hsame]; exact hbegun.bad, by rw [hsame]; exact hbegun.late⟩ (by rw [hsame]; exact hm)
  refine ⟨fillEntry (toWords b 8) a, r, t, hexec, hdone, hsame, fun y hy => ?_, ?_, hplaced.config, hplaced.extents,
    chipStart_fillEntry hlen ha hspan, hplaced.span hlen⟩
  · exact (hfresh.low y hy).trans (congrArg (peek · y) hro.mem)
  · have htask : r.task (s.taskNo k) = some { x with tens := mset x.tens tid (fillEntry (toWords b 8) a) } := by
      rw [hfresh.same]
      exact mget_mset_self ..
    refine entryChanged_congr (hro.entryOf _) (entryChanged_task hxu htask rfl ?_ hfree.1 (by have := hfree.2.1; omega)
      fun n => mget_mset ..)
    rw [hfresh.same]; rfl

/-- Without a tid or a place the lane pushes −1. -/
theorem talloc_short {w : StallL} (h : Alone s (.talloc w) k l) (hread : EngineReads s k l ((l.ops (.talloc w)).getD 0 {}) 64 b u)
    (hx : s.taskOf k = some x) (hd : d = toWords b 8) (hgood : badWord d = none) (hmode : (geomOf d).kind = 4 → l.ts.mode ≠ .u)
    (hshort : (∀ tid, ¬ lowestFree s (s.taskNo k) (firstTid (geomOf d)) tid) ∨
      (firstTid (geomOf d) = 128 ∧ ∀ a, ¬ fitsAt x (geomOf d) a)) :
    ∃ t, exec (.talloc w) s = .next t ∧ Completes s u t (.talloc w) k [(BitVec.allOnes 64, [])] none := by
  subst hd
  have hro := readOnly_of hread h.here
  obtain ⟨m, hm⟩ := hro.here
  refine exec_talloc_of h hread hgood hmode hx (alloc_short ((hro.task _).trans hx) ?_) (hro.begun h.sound) hm
  simpa only [lowestFree, hro.entryOf] using hshort

-- `tdef` (R218).
/-- A descriptor that `tdef` takes: it passes its check, and is of a kind that the context holds and the mode may define. -/
structure Defines (l : Lane) (d : List Word) : Prop where
  good : badWord d = none
  kind : (geomOf d).kind = 0 ∨ ((geomOf d).kind = 4 ∧ l.ts.mode ≠ .u)

theorem Defines.checks (h : Defines l d) (hlt : tid < 128) :
    (128 ≤ tid || ((geomOf d).kind != 0 && (geomOf d).kind != 4)) = false ∧ ((geomOf d).kind = 4 && l.ts.mode == .u) = false := by
  have hlow : ¬ 128 ≤ tid := by omega
  rcases h.kind with h0 | ⟨h4, hmode⟩
  · simp [hlow, h0]
  · simp [hlow, h4, hmode]

section tdef
variable {w : StallL} (h : Alone s (.tdef w) k l) (hread : EngineReads s k l ((l.ops (.tdef w)).getD 1 {}) 64 b u)
  (htid : tid = (l.operand (.tdef w) 0).toNat) (hlt : tid < 128) (hdef : Defines l (toWords b 8))
include h hread htid hlt hdef

/-- While an engine command names the tid, the lane waits, and has read nothing. -/
theorem exec_tdef_named (hnamed : s.engineNames (s.taskNo k) tid = true) :
    exec (.tdef w) s = .next (s.setLane k (holding s (.tdef w) l (.tensor tid))).bump := by
  obtain ⟨hplace, hmode⟩ := hdef.checks hlt
  have hrange : ¬ 256 ≤ tid := by omega
  have hbytes := engineRead_of hread h.here
  rw [ops_getD_val] at hbytes
  rw [exec_tdef, execTdef]
  refine exec_of_elected_hold h ?_ rfl rfl
  simp only [hbytes, ops_getD_val, ← htid, hrange, hdef.good, hplace, userMode_of h.here, hmode, hnamed,
    Bool.false_eq_true, if_false, if_true]

theorem exec_tdef_of (hx : s.taskOf k = some x) (hnamed : s.engineNames (s.taskNo k) tid = false) :
    ∃ r t, exec (.tdef w) s = .next t ∧ Completes s r t (.tdef w) k [] none ∧ r = { u with ctxs := r.ctxs } ∧
      entryChanged s r (s.taskNo k) tid (some (valid (toWords b 8))) := by
  have hro := readOnly_of hread h.here
  obtain ⟨m, hm⟩ := hro.here
  obtain ⟨hplace, hmode⟩ := hdef.checks hlt
  have hrange : ¬ 256 ≤ tid := by omega
  have hbytes := engineRead_of hread h.here
  rw [ops_getD_val] at hbytes
  obtain ⟨t, hexec, hdone⟩ : ∃ t, exec (.tdef w) s = .next t ∧
      Completes s (setContextEntry u x.space tid (valid (toWords b 8))) t (.tdef w) k [] none := by
    rw [exec_tdef, execTdef]
    refine exec_of_all_alone h ?_ ⟨(hro.begun h.sound).bad, (hro.begun h.sound).late⟩ hm
    simp only [hbytes, ops_getD_val, ← htid, hrange, hdef.good, hplace, userMode_of h.here, hmode, hnamed,
      spaceOf_of hx, Bool.false_eq_true, if_false]
    rfl
  exact ⟨_, t, hexec, hdone, rfl,
    entryChanged_congr (hro.entryOf _) (entryChanged_setContextEntry ((hro.task _).trans hx) hlt _)⟩

end tdef

end Sys2Proof.Tensors
end

section
/-! PROOFS. `tfree`, `tget` and `tset` on one entry (R218, R219, R249, R252, R257, R264). -/

namespace Sys2Proof.Tensors

open Sys2Proof Sys2Proof.Machine Sys2Proof.Claims Sys2Proof.Numbers Sys2Proof.Slots

variable {s : State} {i : Instr} {k tn tid : Nat} {l : Lane} {x : Task} {en : List Word} {j : BitVec 3}

-- `tfree` (R218, R252).
/-- A freed tile leaves its task and its context with the entries they had. -/
theorem dropTile_task (hx : s.task tn = some x) (sp tid : Nat) :
    ∃ y, (s.dropTile tn sp tid).task tn = some y ∧ y.space = x.space ∧ y.tens = x.tens := by
  unfold State.dropTile
  exact ⟨_, task_modTask_of hx _, rfl, rfl⟩

theorem dropTile_tens (s : State) (tn sp tid : Nat) : ((s.dropTile tn sp tid).ctx sp).tens = (s.ctx sp).tens := by
  have heq := Cuts.ctx_modCtx s sp sp fun c => { c with saved := c.saved.map fun v => v.dropTile tn tid }
  rw [if_pos rfl] at heq
  exact (congrArg Ctx.tens heq :)

theorem dropTile_lane (hl : s.lane k = some l) (tn sp tid : Nat) : ∃ m, (s.dropTile tn sp tid).lane k = some m := by
  have heq := mget_map (g := fun p => if s.taskNo p.1 = tn then (p.1, p.2.dropTile tid) else p)
    (fun p => by by_cases hp : s.taskNo p.1 = tn <;> simp [hp]) s.lanes k
  rw [show mget s.lanes k = some l from hl, Option.map_some] at heq
  exact ⟨_, heq⟩

/-- A freed entry is gone, and no other entry changes. -/
theorem entryChanged_freeTensor (hx : s.task tn = some x) (hlt : tid < 256) :
    entryChanged s (s.freeTensor tn x.space tid) tn tid none := by
  unfold State.freeTensor
  split
  · rename_i hctx
    refine entryChanged_context hx hx rfl rfl hctx fun n => ?_
    rw [Cuts.ctx_modCtx, if_pos rfl]
    exact mget_mdel ..
  · rename_i htask
    obtain ⟨y, hy, hspace, htens⟩ := dropTile_task (task_modTask_of hx _) x.space tid
    exact entryChanged_task hx hy hspace (dropTile_tens ..) (Nat.le_of_not_lt htask) hlt fun n => by rw [htens]; exact mget_mdel ..

/-- It changes contexts, tasks and lanes, and every lane stays. -/
theorem freeTensor_same (s : State) (tn sp tid : Nat) : s.freeTensor tn sp tid =
    { s with ctxs := (s.freeTensor tn sp tid).ctxs, tasks := (s.freeTensor tn sp tid).tasks, lanes := (s.freeTensor tn sp tid).lanes } := by
  unfold State.freeTensor
  split <;> rfl

theorem freeTensor_lane (hl : s.lane k = some l) (tn sp tid : Nat) : ∃ m, (s.freeTensor tn sp tid).lane k = some m := by
  unfold State.freeTensor
  split
  · exact ⟨l, hl⟩
  · exact dropTile_lane (s := s.modTask tn _) hl tn sp tid

/-- No bin of the tile is due. -/
theorem no_bin_due (hx : s.taskOf k = some x) (hdue : (geomOf en).kind = 3 → dueRows x tid s.now = []) :
    ((geomOf en).kind = 3 && !((s.task (s.taskNo k)).map (fun t => (dueRows t tid s.now).isEmpty)).getD true) = false := by
  rw [show s.task (s.taskNo k) = some x from hx]
  by_cases h3 : (geomOf en).kind = 3
  · simp [hdue h3]
  · simp [h3]

section tfree
variable {w : StallL} (h : Alone s (.tfree w) k l) (htid : tid = (l.operand (.tfree w) 0).toNat)
  (hen : s.entryOf (s.taskNo k) tid = some en) (hx : s.taskOf k = some x) (hdue : (geomOf en).kind = 3 → dueRows x tid s.now = [])
include h htid hen hx hdue

/-- An occupied tile is not freed. -/
theorem exec_tfree_occupied (h3 : (geomOf en).kind = 3) (hocc : frOcc en ≠ 0) :
    exec (.tfree w) s = finish (s.takeTrap k (.tfree w) (tensCause 7 tid 0 0)).bump := by
  have hoccupied : ((geomOf en).kind = 3 && frOcc en != 0) = true := by simp [h3, hocc]
  rw [exec_tfree, execTfree]
  refine exec_of_refuse h ?_ rfl
  simp only [ops_getD_val, ← htid, hen, no_bin_due hx hdue, hoccupied, Bool.false_eq_true, if_false, if_true]

variable (hempty : (geomOf en).kind = 3 → frOcc en = 0)
include hempty

theorem exec_tfree_named (hnamed : s.engineNames (s.taskNo k) tid = true) :
    exec (.tfree w) s = .next (s.setLane k (holding s (.tfree w) l (.tensor tid))).bump := by
  have hfree : ((geomOf en).kind = 3 && frOcc en != 0) = false := by simpa using hempty
  rw [exec_tfree, execTfree]
  refine exec_of_elected_hold h ?_ rfl rfl
  simp only [ops_getD_val, ← htid, hen, no_bin_due hx hdue, hfree, hnamed, Bool.false_eq_true, if_false, if_true]

theorem exec_tfree_of (hnamed : s.engineNames (s.taskNo k) tid = false) :
    ∃ r t, exec (.tfree w) s = .next t ∧ Completes s r t (.tfree w) k [] none ∧
      r = { s with ctxs := r.ctxs, tasks := r.tasks, lanes := r.lanes } ∧ entryChanged s r (s.taskNo k) tid none := by
  have hfree : ((geomOf en).kind = 3 && frOcc en != 0) = false := by simpa using hempty
  have hsame := freeTensor_same s (s.taskNo k) x.space tid
  obtain ⟨m, hm⟩ := freeTensor_lane h.here (s.taskNo k) x.space tid
  obtain ⟨t, hexec, hdone⟩ : ∃ t, exec (.tfree w) s = .next t ∧
      Completes s (s.freeTensor (s.taskNo k) x.space tid) t (.tfree w) k [] none := by
    rw [exec_tfree, execTfree]
    refine exec_of_all_alone h ?_ ⟨by rw [hsame]; exact h.sound.bad, by rw [hsame]; exact h.sound.late⟩ hm
    simp only [ops_getD_val, ← htid, hen, no_bin_due hx hdue, hfree, hnamed, spaceOf_of hx, Bool.false_eq_true, if_false]
  exact ⟨_, t, hexec, hdone, hsame, entryChanged_freeTensor hx (tid_lt hen)⟩

end tfree

-- `tget` (R219).
section tget
variable {w : StallL} (h : Alone s (.tget w j) k l) (htid : tid = (l.operand (.tget w j) 0).toNat)
include h htid

theorem exec_tget_of (hen : s.entryOf (s.taskNo k) tid = some en) (hfree : s.waveHolds (s.taskNo k) (waveOf k) tid false true = false) :
    ∃ t, exec (.tget w j) s = .next t ∧ Completes s s t (.tget w j) k [(en.getD j.toNat 0, [])] none := by
  subst htid
  rw [exec_tget, execTget, runTensor_free h (r := []) rfl hfree]
  refine exec_of_go h ?_ h.sound h.here
  simp only [ops_getD_val, hen]

theorem exec_tget_held (hheld : s.waveHolds (s.taskNo k) (waveOf k) tid false true = true) :
    exec (.tget w j) s = .next (s.setLane k (holding s (.tget w j) l (.tensor tid))).bump := by
  subst htid
  rw [exec_tget, execTget, runTensor_held h (r := []) rfl hheld]

end tget

-- `tset` (R219, R249, R264).
/-- The word that `tset` writes: WAKE bits of rows that are neither held nor occupied stay 0 (R249). -/
def writtenWord (en : List Word) (j : Nat) (v : Word) : Word :=
  if (geomOf en).kind = 3 && j = 6 then v &&& ((en.getD 4 0) ||| (en.getD 7 0)) else v

/-- The entry is written, in the context or in the task. -/
def tsetDone (s : State) (k tid j : Nat) (en : List Word) (v : Word) : State :=
  if tid < 128 then setContextEntry s (s.spaceOf k) tid (en.set j (writtenWord en j v))
  else s.setHeader k tid j en (en.set j (writtenWord en j v))

theorem flash_open (hmode : (geomOf en).kind = 4 → l.ts.mode ≠ .u) : ((geomOf en).kind = 4 && l.ts.mode == .u) = false := by
  simpa using hmode

section tset
variable {w : StallL} (h : Alone s (.tset w j) k l) (htid : tid = (l.operand (.tset w j) 0).toNat)
  (hen : s.entryOf (s.taskNo k) tid = some en)
include h htid hen

/-- A tensor in flash in U mode (R218). -/
theorem exec_tset_flash (h4 : (geomOf en).kind = 4) (hmode : l.ts.mode = .u) :
    exec (.tset w j) s = finish (s.takeTrap k (.tset w j) (flashCause (.tset w j) .u)).bump := by
  have huser : ((geomOf en).kind = 4 && l.ts.mode == .u) = true := by simp [h4, hmode]
  rw [exec_tset, execTset]
  refine exec_of_refuse h ?_ rfl
  simp only [ops_getD_val, ← htid, hen, userMode_of h.here, huser, if_true]

variable (hmode : (geomOf en).kind = 4 → l.ts.mode ≠ .u)
include hmode

theorem exec_tset_named (hnamed : s.engineNames (s.taskNo k) tid = true) :
    exec (.tset w j) s = .next (s.setLane k (holding s (.tset w j) l (.tensor tid))).bump := by
  rw [exec_tset, execTset]
  refine exec_of_elected_hold h ?_ rfl rfl
  simp only [ops_getD_val, ← htid, hen, userMode_of h.here, flash_open hmode, hnamed, Bool.false_eq_true, if_false, if_true]

variable (hnamed : s.engineNames (s.taskNo k) tid = false) (hok : tsetBad en j.toNat (l.operand (.tset w j) 1) = none)
include hnamed hok

/-- A word that the entry's kind does not let it write. -/
theorem exec_tset_refused (hfixed : tsetAllows en j.toNat (l.operand (.tset w j) 1) = false) :
    exec (.tset w j) s = finish (s.takeTrap k (.tset w j) (tensCause 3 tid 0 0)).bump := by
  rw [exec_tset, execTset]
  refine exec_of_refuse h ?_ rfl
  simp only [ops_getD_val, ← htid, hen, userMode_of h.here, flash_open hmode, hnamed, hok, hfixed, Bool.not_false,
    Bool.false_eq_true, if_false, if_true]

variable (hallowed : tsetAllows en j.toNat (l.operand (.tset w j) 1) = true)
include hallowed

/-- Another strand of the wave waits in an earlier operation on bins (R264). -/
theorem exec_tset_behind (h3 : (geomOf en).kind = 3) (h6 : j.toNat = 6) (hbusy : s.binBusy [k] = true) :
    exec (.tset w j) s = .next (s.setLane k (holding s (.tset w j) l .bin)).bump := by
  have hbins : ((geomOf en).kind = 3 && j.toNat = 6 && s.binBusy [k]) = true := by simp [h3, h6, hbusy]
  rw [exec_tset, execTset]
  refine exec_of_elected_hold h ?_ rfl rfl
  simp only [ops_getD_val, ← htid, hen, userMode_of h.here, flash_open hmode, hnamed, hok, hallowed, hbins, Bool.not_true,
    Bool.false_eq_true, if_false, if_true]

/-- The entry is written, and the lane goes on. -/
theorem exec_tset_of (hfirst : (geomOf en).kind = 3 → j.toNat = 6 → s.binBusy [k] = false)
    (hbegun : Begun (tsetDone s k tid j.toNat en (l.operand (.tset w j) 1)))
    (hlane : (tsetDone s k tid j.toNat en (l.operand (.tset w j) 1)).lane k = some l) :
    ∃ t, exec (.tset w j) s = .next t ∧
      Completes s (tsetDone s k tid j.toNat en (l.operand (.tset w j) 1)) t (.tset w j) k [] none := by
  have hfree : ((geomOf en).kind = 3 && j.toNat = 6 && s.binBusy [k]) = false := by
    by_cases h36 : (geomOf en).kind = 3 ∧ j.toNat = 6
    · simp [hfirst h36.1 h36.2]
    · rw [← Bool.decide_and, decide_eq_false h36, Bool.false_and]
  rw [exec_tset, execTset]
  refine exec_of_all_alone h ?_ hbegun hlane
  simp only [ops_getD_val, ← htid, hen, userMode_of h.here, flash_open hmode, hnamed, hok, hallowed, hfree, Bool.not_true,
    Bool.false_eq_true, if_false]
  unfold tsetDone writtenWord setContextEntry
  split <;> rfl

end tset

end Sys2Proof.Tensors
end

section
/-! PROOFS. What `tset` writes, by the kind of the entry, the traps without an entry, and O42 (R210, R213, R214, R218, R219, R249, R264). -/

namespace Sys2Proof.Tensors

open Sys2Proof Sys2Proof.Machine Sys2Proof.Claims Sys2Proof.Numbers Sys2Proof.Slots

variable {s : State} {k tid n : Nat} {l : Lane} {x : Task} {en : List Word} {v : Word} {w : StallL} {j : BitVec 3}

-- The checks of a new word (R210, R219, R249).
theorem tsetAllows_context (hkind : (geomOf en).kind = 0 ∨ (geomOf en).kind = 4) (hn : n ≠ 0) : tsetAllows en n v = true := by
  rcases hkind with h | h <;> simp [tsetAllows, h, hn]

/-- Words 2 and 3 of a frame tile: the site changes only while no row is held or occupied. -/
theorem tsetAllows_frame (h3 : (geomOf en).kind = 3) (hn : n = 2 ∨ n = 3)
    (hsite : n = 2 → v.toNat % 4096 = frSite en ∨ (frHeld en = 0 ∧ frOcc en = 0)) : tsetAllows en n v = true := by
  rcases hn with rfl | rfl
  · simpa [tsetAllows, h3] using hsite rfl
  · simp [tsetAllows, h3]

theorem tsetAllows_wake (h3 : (geomOf en).kind = 3) : tsetAllows en 6 v = true := by simp [tsetAllows, h3]

/-- No other word of an on-chip entry may be written. -/
theorem tsetAllows_chip (hkind : (geomOf en).kind = 1 ∨ (geomOf en).kind = 2 ∨ (geomOf en).kind = 3) (h4 : 4 ≤ n) (h6 : n ≠ 6) :
    tsetAllows en n v = false := by
  have h2 : n ≠ 2 := by omega
  have h3 : n ≠ 3 := by omega
  rcases hkind with h | h | h <;> simp [tsetAllows, h, h2, h3, h6]

theorem tsetBad_context (hkind : (geomOf en).kind = 0 ∨ (geomOf en).kind = 4) :
    tsetBad en n v = badWord (setWord (en.set n v) 0 (clearBit (wordOf (en.set n v) 0) 63)) := by
  rcases hkind with h | h <;> simp [tsetBad, h]

theorem tsetBad_frame (h3 : (geomOf en).kind = 3) (hn : n = 2 ∨ n = 3) (hword2 : n = 2 → frWord2 v.toNat = true)
    (hword3 : n = 3 → frWord3 v.toNat = true) : tsetBad en n v = none := by
  rcases hn with rfl | rfl
  · simp [tsetBad, h3, hword2 rfl]
  · simp [tsetBad, h3, hword3 rfl]

/-- The words from 4 on have no check of their own in an on-chip entry. -/
theorem tsetBad_chip (hkind : (geomOf en).kind = 1 ∨ (geomOf en).kind = 2 ∨ (geomOf en).kind = 3) (h4 : 4 ≤ n) : tsetBad en n v = none := by
  have h1 : ¬ n ≤ 1 := by omega
  have h2 : n ≠ 2 := by omega
  have h3 : n ≠ 3 := by omega
  have hlow : ¬ n ≤ 3 := by omega
  rcases hkind with h | h | h <;> simp [tsetBad, h, h1, h2, h3, hlow]

-- The entry after the write (R219, R249).
theorem writtenWord_of (h : (geomOf en).kind ≠ 3 ∨ n ≠ 6) : writtenWord en n v = v := by
  rcases h with h | h <;> simp [writtenWord, h]

theorem writtenWord_wake (h3 : (geomOf en).kind = 3) : writtenWord en 6 v = v &&& ((en.getD 4 0) ||| (en.getD 7 0)) := by
  simp [writtenWord, h3]

theorem tsetDone_context (hx : s.taskOf k = some x) (hlt : tid < 128) (hkind : (geomOf en).kind ≠ 3) :
    tsetDone s k tid n en v = setContextEntry s x.space tid (en.set n v) := by
  rw [tsetDone, if_pos hlt, writtenWord_of (.inl hkind), spaceOf_of hx]

theorem tsetDone_header (hge : 128 ≤ tid) (hn : n ≠ 6) : tsetDone s k tid n en v =
    s.modTask (s.taskNo k) (fun t =>
      { (if n = 2 then t.noteLimits tid s.now en (en.set n v) else t) with tens := mset t.tens tid (en.set n v) }) := by
  rw [tsetDone, if_neg (Nat.not_lt.2 hge), writtenWord_of (.inr hn), State.setHeader, if_neg hn]

/-- Rows that are made ready leave their task in its space and with its entries. -/
theorem seeRows_task {tn : Nat} (hx : s.task tn = some x) (tid mask : Nat) :
    ∃ y, (s.seeRows tn tid mask).task tn = some y ∧ y.space = x.space ∧ y.tens = x.tens := by
  unfold State.seeRows
  exact ⟨_, task_modTask_of hx _, rfl, rfl⟩

/-- WAKE is written, its rows are made ready, and what the lane has written is released at cluster scope. -/
theorem tsetDone_wake (hquiet : Quiet s k) (hl : s.lane k = some l) (hx : s.taskOf k = some x) (hge : 128 ≤ tid) (hlt : tid < 256) (v : Word) :
    tsetDone s k tid 6 en v = { s with
      tasks := (tsetDone s k tid 6 en v).tasks, rels := (tsetDone s k tid 6 en v).rels, nextId := s.nextId + 1 } ∧
    entryChanged s (tsetDone s k tid 6 en v) (s.taskNo k) tid (some (en.set 6 (writtenWord en 6 v))) := by
  rw [tsetDone, if_neg (Nat.not_lt.2 hge), State.setHeader, if_pos rfl, release_of_quiet _ hquiet hl]
  refine ⟨rfl, ?_⟩
  obtain ⟨y, hy, hspace, htens⟩ := seeRows_task (task_modTask_of (s := s.addRel (sliceOf k) .cluster l.view) hx _) tid
    (frWake (en.set 6 (writtenWord en 6 v)) &&& ((2 ^ 64 - 1) ^^^ frWake en))
  exact entryChanged_task hx hy hspace rfl hge hlt fun n => by rw [htens]; exact mget_mset ..

/-- WAKE, behind another strand's operation on bins. -/
theorem tset_behind (h : Alone s (.tset w j) k l) (htid : tid = (l.operand (.tset w j) 0).toNat)
    (hen : s.entryOf (s.taskNo k) tid = some en) (hnamed : s.engineNames (s.taskNo k) tid = false) (h3 : (geomOf en).kind = 3)
    (hj : j = 6) (hbusy : s.binBusy [k] = true) :
    exec (.tset w j) s = .next (s.setLane k (holding s (.tset w j) l .bin)).bump := by
  subst hj
  exact exec_tset_behind h htid hen (fun h4 => by omega) hnamed (tsetBad_chip (.inr (.inr h3)) (by decide)) (tsetAllows_wake h3) h3 rfl hbusy

section tset
variable (h : Alone s (.tset w j) k l) (htid : tid = (l.operand (.tset w j) 0).toNat) (hen : s.entryOf (s.taskNo k) tid = some en)
  (hx : s.taskOf k = some x) (hv : v = l.operand (.tset w j) 1) (hnamed : s.engineNames (s.taskNo k) tid = false)
include h htid hen hx hv hnamed

/-- A word of a tensor of the context. -/
theorem tset_context (hlt : tid < 128) (hkind : (geomOf en).kind = 0 ∨ ((geomOf en).kind = 4 ∧ l.ts.mode ≠ .u)) (hj : j ≠ 0)
    (hgood : badWord (setWord (en.set j.toNat v) 0 (clearBit (wordOf (en.set j.toNat v) 0) 63)) = none) :
    ∃ r t, exec (.tset w j) s = .next t ∧ Completes s r t (.tset w j) k [] none ∧ r = { s with ctxs := r.ctxs } ∧
      entryChanged s r (s.taskNo k) tid (some (en.set j.toNat v)) := by
  subst hv
  have hkinds : (geomOf en).kind = 0 ∨ (geomOf en).kind = 4 := hkind.imp_right And.left
  have hnot : (geomOf en).kind ≠ 3 := by omega
  have hj : j.toNat ≠ 0 := fun h0 => hj (BitVec.eq_of_toNat_eq h0)
  have hmode : (geomOf en).kind = 4 → l.ts.mode ≠ .u := fun h4 => (hkind.resolve_left (by omega)).2
  have hdone := tsetDone_context (n := j.toNat) (en := en) (v := l.operand (.tset w j) 1) hx hlt hnot
  obtain ⟨t, hexec, hcompletes⟩ := exec_tset_of h htid hen hmode hnamed ((tsetBad_context hkinds).trans hgood)
    (tsetAllows_context hkinds hj) (fun h3 => absurd h3 hnot) (hdone ▸ ⟨h.sound.bad, h.sound.late⟩) (hdone ▸ h.here)
  rw [hdone] at hcompletes
  exact ⟨_, t, hexec, hcompletes, rfl, entryChanged_setContextEntry hx hlt _⟩

variable (h3 : (geomOf en).kind = 3)
include h3

/-- Word 2 or 3 of a frame tile. -/
theorem tset_frame (hge : 128 ≤ tid) (hj : j = 2 ∨ j = 3)
    (hword2 : j = 2 → frWord2 v.toNat = true ∧ (v.toNat % 4096 = frSite en ∨ (frHeld en = 0 ∧ frOcc en = 0)))
    (hword3 : j = 3 → frWord3 v.toNat = true) :
    ∃ r t, exec (.tset w j) s = .next t ∧ Completes s r t (.tset w j) k [] none ∧ r = { s with tasks := r.tasks } ∧
      entryChanged s r (s.taskNo k) tid (some (en.set j.toNat v)) := by
  subst hv
  have hn : j.toNat = 2 ∨ j.toNat = 3 := by rcases hj with rfl | rfl <;> decide
  have hj2 : j.toNat = 2 → j = 2 := fun h2 => BitVec.eq_of_toNat_eq h2
  have hj3 : j.toNat = 3 → j = 3 := fun h3 => BitVec.eq_of_toNat_eq h3
  have h6 : j.toNat ≠ 6 := by omega
  have hdone := tsetDone_header (s := s) (k := k) (en := en) (v := l.operand (.tset w j) 1) hge h6
  obtain ⟨t, hexec, hcompletes⟩ := exec_tset_of h htid hen (fun h4 => by omega) hnamed
    (tsetBad_frame h3 hn (fun h2 => (hword2 (hj2 h2)).1) (fun h3 => hword3 (hj3 h3)))
    (tsetAllows_frame h3 hn fun h2 => (hword2 (hj2 h2)).2) (fun _ h => absurd h h6) (hdone ▸ ⟨h.sound.bad, h.sound.late⟩) (hdone ▸ h.here)
  rw [hdone] at hcompletes
  refine ⟨_, t, hexec, hcompletes, rfl, entryChanged_modTask hx ?_ ?_ hge (tid_lt hen)⟩
  · split <;> rfl
  · split <;> rfl

/-- WAKE. -/
theorem tset_wake (hge : 128 ≤ tid) (hj : j = 6) (hfirst : s.binBusy [k] = false) (hquiet : Quiet s k) :
    ∃ r t, exec (.tset w j) s = .next t ∧ Completes s r t (.tset w j) k [] none ∧
      r = { s with tasks := r.tasks, rels := r.rels, nextId := s.nextId + 1 } ∧
      entryChanged s r (s.taskNo k) tid (some (en.set 6 (v &&& ((en.getD 4 0) ||| (en.getD 7 0))))) := by
  subst hv hj
  obtain ⟨hsame, hentry⟩ := tsetDone_wake (en := en) hquiet h.here hx hge (tid_lt hen) (l.operand (.tset w 6) 1)
  obtain ⟨t, hexec, hcompletes⟩ := exec_tset_of h htid hen (fun h4 => by omega) hnamed (tsetBad_chip (.inr (.inr h3)) (by decide))
    (tsetAllows_wake h3) (fun _ _ => hfirst) (by rw [show (6 : BitVec 3).toNat = 6 from rfl, hsame]; exact ⟨h.sound.bad, h.sound.late⟩)
    (by rw [show (6 : BitVec 3).toNat = 6 from rfl, hsame]; exact h.here)
  exact ⟨_, t, hexec, hcompletes, hsame, writtenWord_wake h3 ▸ hentry⟩

end tset

-- A tid without an entry (R212).
theorem exec_tfree_absent (h : Alone s (.tfree w) k l) (htid : tid = (l.operand (.tfree w) 0).toNat)
    (hen : s.entryOf (s.taskNo k) tid = none) : exec (.tfree w) s = finish (s.takeTrap k (.tfree w) (tensCause 1 tid 0 0)).bump := by
  rw [exec_tfree, execTfree]
  refine exec_of_refuse h ?_ rfl
  simp only [ops_getD_val, ← htid, hen]

theorem exec_tset_absent (h : Alone s (.tset w j) k l) (htid : tid = (l.operand (.tset w j) 0).toNat)
    (hen : s.entryOf (s.taskNo k) tid = none) : exec (.tset w j) s = finish (s.takeTrap k (.tset w j) (tensCause 1 tid 0 0)).bump := by
  rw [exec_tset, execTset]
  refine exec_of_refuse h ?_ rfl
  simp only [ops_getD_val, ← htid, hen]

theorem exec_tget_absent (h : Alone s (.tget w j) k l) (htid : tid = (l.operand (.tget w j) 0).toNat)
    (hen : s.entryOf (s.taskNo k) tid = none) (hfree : s.waveHolds (s.taskNo k) (waveOf k) tid false true = false) :
    exec (.tget w j) s = finish (s.takeTrap k (.tget w j) (tensCause 1 tid 0 0)).bump := by
  subst htid
  rw [exec_tget, execTget, runTensor_free h (r := []) rfl hfree]
  refine exec_of_trap h ?_ rfl
  simp only [ops_getD_val, hen]

/-- Settles O42: each of the five instructions makes, frees, defines, reads or writes its one entry, waits, or traps. -/
theorem tensorEntriesComplete : Obligations.TensorEntriesComplete := by
  intro w j s k l x hx
  refine ⟨?talloc, ?tfree, ?tdef, ?tget, ?tset, ?absent⟩
  case talloc =>
    rintro b u d g lo h hread hd rfl rfl
    refine ⟨fun n hbad => ?_, fun hgood hmode hroom => ⟨fun tid hfree hlo => ?_, fun tid a hfree hlo hfit hleast => ?_, fun hshort => ?_⟩⟩
    · have hn := badWord_le hbad
      refine ⟨_, exec_talloc_bad h hread (hd ▸ hbad), rfl, rfl, ?_⟩
      exact congrArg (BitVec.ofNat 32) (Nat.min_eq_left (by omega))
    · exact talloc_context h hread hx hd hgood hmode (hlo ▸ hfree) hlo
    · exact talloc_chip h hread hx hd hgood hmode hroom (hlo ▸ hfree) hlo ⟨hfit, hleast⟩
    · exact talloc_short h hread hx hd hgood hmode hshort
  case tfree =>
    intro tid en h htid hen hdue
    refine ⟨fun h3 hocc => ?_, fun hempty => ⟨fun hnamed => ?_, fun hnamed => ?_⟩⟩
    · exact ⟨_, exec_tfree_occupied h htid hen hx hdue h3 hocc, rfl, rfl, tensCause_tid 7 tid⟩
    · exact exec_tfree_named h htid hen hx hdue hempty hnamed
    · exact exec_tfree_of h htid hen hx hdue hempty hnamed
  case tdef =>
    rintro tid b u d h htid hlt hread rfl hgood hkind
    exact ⟨exec_tdef_named h hread htid hlt ⟨hgood, hkind⟩, exec_tdef_of h hread htid hlt ⟨hgood, hkind⟩ hx⟩
  case tget =>
    intro tid en h htid hen
    exact ⟨exec_tget_of h htid hen, exec_tget_held h htid⟩
  case tset =>
    rintro tid en new h htid hen rfl
    refine ⟨fun h4 hmode => ?_, exec_tset_named h htid hen, fun hnamed => ⟨?_, ?_, ?_, ?_, fun hkind h4 h6 => ?_⟩⟩
    · exact ⟨_, exec_tset_flash h htid hen h4 hmode, rfl, rfl, rfl, rfl⟩
    · exact tset_context h htid hen hx rfl hnamed
    · exact fun hge h3 => tset_frame h htid hen hx rfl hnamed h3 hge
    · exact fun _ h3 => tset_behind h htid hen hnamed h3
    · exact fun hge h3 => tset_wake h htid hen hx rfl hnamed h3 hge
    · have h6 : j.toNat ≠ 6 := fun hj => h6 (BitVec.eq_of_toNat_eq hj)
      exact ⟨_, exec_tset_refused h htid hen (fun hflash => by omega) hnamed (tsetBad_chip hkind h4) (tsetAllows_chip hkind h4 h6), rfl, rfl,
        tensCause_tid 3 tid⟩
  case absent =>
    rintro i tid (rfl | rfl | rfl) h htid hen hfree
    · exact ⟨_, exec_tfree_absent h htid hen, rfl, rfl, tensCause_tid 1 tid⟩
    · exact ⟨_, exec_tget_absent h htid hen hfree, rfl, rfl, tensCause_tid 1 tid⟩
    · exact ⟨_, exec_tset_absent h htid hen, rfl, rfl, tensCause_tid 1 tid⟩

end Sys2Proof.Tensors
end

section
/-! PROOFS. What a copy engine leaves as it is while it reads: TLBs, and the flash blocks that a copy keeps (R198, R228, R237, R377). -/

namespace Sys2Proof.Copies

open Sys2Proof Sys2Proof.Machine Sys2Proof.Numbers

variable {s t u : State} {c d : Copy} {slice id req : Nat}

-- A copy in its slot (R227).
theorem slice_modSlice_self (s : State) (x : Nat) (f : Slice → Slice) : (s.modSlice x f).slice x = f (s.slice x) := by
  rw [slice_modSlice, if_pos rfl]

theorem copyAt_id (h : s.copyAt slice id = some c) : c.id = id := by
  have := List.find?_some h
  simpa using this

theorem req_id {rs : List Req} {q : Req} (h : rs.find? (fun x => x.id == req) = some q) : q.id = req := by
  have := List.find?_some h
  simpa using this

/-- A change of every copy of a slot list that keeps their identities. -/
theorem find_map_id {f : Copy → Copy} (hf : ∀ c, (f c).id = c.id) (cs : List Copy) (id : Nat) :
    (cs.map f).find? (fun c => c.id == id) = (cs.find? (fun c => c.id == id)).map f := by
  rw [List.find?_map]
  congr 2
  funext c
  simp [hf]

theorem find_req_map {f : Req → Req} (hf : ∀ r, (f r).id = r.id) (rs : List Req) (req : Nat) :
    (rs.map f).find? (fun r => r.id == req) = (rs.find? (fun r => r.id == req)).map f := by
  rw [List.find?_map]
  congr 2
  funext r
  simp [hf]

theorem copyAt_modCopy {f : Copy → Copy} (hf : ∀ c, (f c).id = c.id) (s : State) (slice id : Nat) :
    (s.modCopy slice id f).copyAt slice id = (s.copyAt slice id).map f := by
  unfold State.copyAt State.modCopy
  rw [slice_modSlice_self]
  dsimp only
  rw [find_map_id (fun c => by split <;> simp [hf])]
  cases h : (s.slice slice).copies.find? (fun c => c.id == id) with
  | none => rfl
  | some c =>
    have hid : c.id = id := copyAt_id h
    simp [hid]

/-- A copy without the flash blocks that it keeps. -/
def unread (c : Copy) : Copy := { c with blocks := [] }
/-- A slice without what an engine's reads may change of it. -/
def unreadSlice (x : Slice) : Slice := { x with tlb := [], copies := x.copies.map unread }

/-- An engine has read: TLBs, fault buffers, what is posted to firmware and host, the flash blocks of copies and the free counter differ. -/
structure Read (s t : State) : Prop where
  same : t = { s with slices := t.slices, sectors := t.sectors, dieTlbs := t.dieTlbs, notes := t.notes, vfs := t.vfs, free := t.free }
  slices : ∀ x, unreadSlice (t.slice x) = unreadSlice (s.slice x)

theorem Read.refl (s : State) : Read s s := ⟨rfl, fun _ => rfl⟩
theorem Read.trans (h : Read s t) (g : Read t u) : Read s u := ⟨by rw [g.same, h.same], fun x => (g.slices x).trans (h.slices x)⟩
theorem Read.of_translated (h : Translated s t) : Read s t := by
  refine ⟨h.same, fun x => ?_⟩
  have := congrArg (fun y : Slice => { y with copies := y.copies.map unread }) (h.slices x)
  exact this
theorem Read.free (s : State) (n : Nat) : Read s { s with free := n } := .of_translated (.free n)

section read
variable (h : Read s t)
include h
theorem Read.mem : t.mem = s.mem := by rw [h.same]
theorem Read.log : t.log = s.log := by rw [h.same]
theorem Read.poison : t.poison = s.poison := by rw [h.same]
theorem Read.ecc : t.ecc = s.ecc := by rw [h.same]
theorem Read.bad : t.bad = s.bad := by rw [h.same]
theorem Read.lanes : t.lanes = s.lanes := by rw [h.same]
theorem Read.tasks : t.tasks = s.tasks := by rw [h.same]
theorem Read.budget : t.budget = s.budget := by rw [h.same]
theorem Read.replay (x : Nat) : (t.slice x).replay = (s.slice x).replay := by
  have := congrArg Slice.replay (h.slices x)
  exact this
theorem Read.held (x : Nat) : (t.slice x).held = (s.slice x).held := by
  have := congrArg Slice.held (h.slices x)
  exact this
/-- The copy is still in its slot, and differs in its flash blocks alone. -/
theorem Read.copyAt (hc : s.copyAt slice id = some c) : ∃ b, t.copyAt slice id = some { c with blocks := b } := by
  have hcopies : (t.slice slice).copies.map unread = (s.slice slice).copies.map unread := congrArg Slice.copies (h.slices slice)
  have hfind := congrArg (List.find? (fun c => c.id == id)) hcopies
  rw [find_map_id (f := unread) (fun _ => rfl), find_map_id (f := unread) (fun _ => rfl)] at hfind
  rw [show (s.slice slice).copies.find? (fun c => c.id == id) = some c from hc, Option.map_some] at hfind
  obtain ⟨d, hd, heq⟩ := Option.map_eq_some_iff.1 hfind
  refine ⟨d.blocks, hd.trans (congrArg some ?_)⟩
  have : d = { unread d with blocks := d.blocks } := rfl
  rw [this, heq]
  rfl
end read

-- The places and bytes of a request (R198, R237, R376, R377).
theorem read_copyPlace (s : State) (c : Copy) (slice : Nat) (kind : AccKind) (va : Nat) : Read s (s.copyPlace c slice kind va).2 := by
  unfold State.copyPlace
  dsimp only
  split
  · exact .refl s
  · exact .of_translated (translate_frame ..)

theorem read_sound (s : State) (floor : Map Nat) (key n : Nat) : Read s (s.sound floor key n).2 := by
  unfold State.sound
  split
  · exact .refl s
  · split
    · exact .refl s
    · obtain ⟨m, hm⟩ := readVer_free s floor (fun _ => false) key n
      dsimp only
      rw [hm]
      exact .free s m

theorem read_flashBlock (s : State) (c : Copy) (slice b : Nat) (anew : Bool) : Read s (s.flashBlock c slice b anew).2 := by
  unfold State.flashBlock
  split
  · exact .refl s
  · refine ⟨rfl, fun x => ?_⟩
    dsimp only
    rw [State.modCopy, slice_modSlice]
    split
    · rename_i e
      subst e
      simp only [unreadSlice, List.map_map]
      congr 1
      refine List.map_congr_left fun y _ => ?_
      simp only [Function.comp_apply]
      split <;> rfl
    · rfl

theorem read_flashRead (s : State) (c : Copy) (slice key n : Nat) : Read s (s.flashRead c slice key n).2 := by
  rw [State.flashRead]
  split
  · exact .refl s
  · split
    · split
      · exact .refl s
      · obtain ⟨m, hm⟩ := choose_free s 2
        dsimp only
        split
        · rw [hm]; exact .free s m
        · exact (hm ▸ Read.free s m : Read s (choose s 2).2).trans (read_flashBlock ..)
    · exact read_flashBlock ..

theorem read_getBytes (s : State) (c : Copy) (slice : Nat) (l : Loc) (n : Nat) : Read s (s.getBytes c slice l n).2 := by
  unfold State.getBytes
  split
  · exact read_sound ..
  · exact read_flashRead ..
  · rename_i a
    have hp := read_copyPlace s c slice .read a
    split
    all_goals rename_i heq; rw [heq] at hp
    · exact hp
    · exact hp
    · split
      · exact hp
      · exact hp.trans (read_sound ..)

theorem read_putPlace (s : State) (c : Copy) (slice : Nat) (l : Loc) : Read s (s.putPlace c slice l).2 := by
  unfold State.putPlace
  split
  · exact .refl s
  · split
    · exact .refl s
    · split <;> exact .refl s
  · rename_i a
    have hp := read_copyPlace s c slice .write a
    split
    all_goals rename_i heq; rw [heq] at hp
    · exact hp
    · exact hp
    · split <;> exact hp

theorem read_mapBytes (s : State) (c : Copy) (slice : Nat) (g : Geom) (n : Nat) : Read s (s.mapBytes c slice g n).2 := by
  induction n with
  | zero => exact .refl s
  | succ n ih =>
    unfold State.mapBytes
    split
    · rename_i b s1 heq
      rw [heq] at ih
      have hg := read_getBytes s1 c slice ((g.locOf slice .map).add n) 1
      split
      · rename_i heq2
        rw [heq2] at hg
        exact ih.trans hg
      · exact ih.trans hg
    · exact ih

theorem read_zeroPointOf (s : State) (c : Copy) (slice n : Nat) : Read s (s.zeroPointOf c slice n).2.2 := by
  have hg := read_getBytes s c slice (((geomOf c.src).locOf slice .zpt).add (sideByte (geomOf c.src) .zpt n)) 1
  unfold State.zeroPointOf
  dsimp only
  split <;> exact hg

theorem read_srcVal (s : State) (c : Copy) (slice : Nat) (m : Src) : Read s (s.srcVal c slice m).2.2 := by
  unfold State.srcVal
  dsimp only
  split
  · exact .refl s
  · exact read_zeroPointOf ..
  · rename_i n
    have hg := read_getBytes s c slice (((geomOf c.src).locOf slice .elem).add ((geomOf c.src).byteOf n)) (geomOf c.src).nbytes
    split <;> exact hg

theorem read_gatherElems (c : Copy) (slice : Nat) (ms : List Move) (o : ReqOut) (s : State) :
    Read s (s.gatherElems c slice o ms).2 := by
  induction ms generalizing o s with
  | nil => exact .refl s
  | cons m r ih =>
    have hv := read_srcVal s c slice m.src
    unfold State.gatherElems
    dsimp only
    split
    · rename_i heq; rw [heq] at hv; exact hv
    · rename_i heq; rw [heq] at hv; exact hv
    · rename_i got v s1 _ _ heq
      rw [heq] at hv
      have hp := read_putPlace s1 c slice (((geomOf c.dst).locOf slice .elem).add ((geomOf c.dst).byteOf m.dst))
      split
      · rename_i heq2; rw [heq2] at hp; exact hv.trans hp
      · rename_i heq2; rw [heq2] at hp; exact hv.trans hp
      · rename_i heq2; rw [heq2] at hp; exact (hv.trans hp).trans (ih ..)

theorem read_gatherSide (c : Copy) (slice : Nat) (k : ReqKind) (ps : List (Nat × Nat)) (o : ReqOut) (s : State) :
    Read s (s.gatherSide c slice k o ps).2 := by
  induction ps generalizing o s with
  | nil => exact .refl s
  | cons p r ih =>
    unfold State.gatherSide
    dsimp only
    generalize hgot : (if (decide (k = .map) && decide (p.2 = noBlock)) = true then (Got.ok [0], s)
      else s.getBytes c slice (((geomOf c.src).locOf slice k).add (sideByte (geomOf c.src) k p.2)) (if k = .scale then 2 else 1)) = x
    have hv : Read s x.2 := by
      rw [← hgot]
      split
      · exact .refl s
      · exact read_getBytes ..
    obtain ⟨got, s1⟩ := x
    have hp := read_putPlace s1 c slice (((geomOf c.dst).locOf slice k).add (sideByte (geomOf c.dst) k p.1))
    dsimp only at hv ⊢
    split
    · exact hv
    · exact hv
    · split
      · rename_i heq2; rw [heq2] at hp; exact hv.trans hp
      · rename_i heq2; rw [heq2] at hp; exact hv.trans hp
      · rename_i heq2; rw [heq2] at hp; exact (hv.trans hp).trans (ih ..)

/-- What a request finds out changes nothing that a program reads. -/
theorem read_tryReq (s : State) (c : Copy) (slice : Nat) (q : Req) : Read s (s.tryReq c slice q).2 := by
  have hm := read_mapBytes s c slice (geomOf c.src) (if (geomOf c.src).sp then (geomOf c.src).sizes.getD 3 0 else 0)
  unfold State.tryReq
  dsimp only
  split
  · split
    · rename_i heq; rw [heq] at hm; exact hm
    · rename_i heq; rw [heq] at hm; exact hm
    · rename_i heq; rw [heq] at hm; exact hm.trans (read_gatherElems ..)
    · rename_i heq; rw [heq] at hm; exact hm.trans (read_gatherElems ..)
  · exact read_gatherSide ..

end Sys2Proof.Copies
end

section
/-! PROOFS. Requests of a copy issue: they are charged, or they park (R228, R237). -/

namespace Sys2Proof.Copies

open Sys2Proof Sys2Proof.Machine Sys2Proof.Numbers

variable {s t u : State} {c d : Copy} {q : Req} {slice id req : Nat}

-- Parking (R237).
/-- A parked request takes an entry of the replay queue, or is held when that is full. -/
def withParked (x : Slice) (p : Nat × Nat) : Slice :=
  if x.replay.length < 16 then { x with replay := x.replay ++ [p] } else { x with held := some p }

/-- A request has room to park: in the replay queue, or in the engine. -/
def HasRoom (x : Slice) : Prop := x.replay.length < 16 ∨ x.held = none

theorem withParked_parked (x : Slice) (id req : Nat) : (withParked x (id, req)).parked id req = true := by
  unfold withParked Slice.parked
  split <;> simp

theorem withParked_copies (x : Slice) (p : Nat × Nat) : (withParked x p).copies = x.copies := by
  unfold withParked
  split <;> rfl

/-- What parking makes of the request itself. -/
def parkMark (req stamp : Nat) (y : Copy) : Copy :=
  { y with reqs := y.reqs.map (fun q => if q.id = req then { q with pair := none, stamp := stamp } else q) }

theorem parkReq_of_room (hroom : HasRoom (s.slice slice)) (c : Copy) (req va r lv : Nat) (kind : AccKind) :
    s.parkReq c slice req va r lv kind =
      (({ s.setSlice slice (withParked (s.slice slice) (c.id, req)) with nextId := s.nextId + 1 } : State).modCopy slice c.id
        (parkMark req s.nextId)).recordFault (spaceKey c.vf c.asid) slice va r lv kind true := by
  unfold State.parkReq withParked
  by_cases hfull : (s.slice slice).replay.length < 16
  · simp only [hfull, if_true]
    rfl
  · have hheld : (s.slice slice).held = none := hroom.resolve_left hfull
    simp only [hfull, if_false, hheld, Option.isNone_none, if_true]
    rfl

/-- Slices, fault buffers, what is posted to firmware and host, and the model's own counters differ. -/
structure Parks (s t : State) : Prop where
  same : t = { s with
    slices := t.slices, sectors := t.sectors, dieTlbs := t.dieTlbs, notes := t.notes, vfs := t.vfs, free := t.free, nextId := t.nextId }

section parks
variable (h : Parks s t)
include h
theorem Parks.mem : t.mem = s.mem := by rw [h.same]
theorem Parks.bad : t.bad = s.bad := by rw [h.same]
theorem Parks.lanes : t.lanes = s.lanes := by rw [h.same]
theorem Parks.tasks : t.tasks = s.tasks := by rw [h.same]
theorem Parks.budget : t.budget = s.budget := by rw [h.same]
end parks

theorem parks_parkReq (s : State) (c : Copy) (slice req va r lv : Nat) (kind : AccKind) :
    Parks s (s.parkReq c slice req va r lv kind) := by
  constructor
  unfold State.parkReq
  dsimp only
  rw [(recordFault_frame _ _ _ _ _ _ _ _).same]
  split
  · rfl
  · split <;> rfl

theorem parked_congr {x y : Slice} (hr : x.replay = y.replay) (hh : x.held = y.held) (id req : Nat) : x.parked id req = y.parked id req := by
  simp only [Slice.parked, hr, hh]

theorem slice_modCopy (s : State) (slice id : Nat) (f : Copy → Copy) : (s.modCopy slice id f).slice slice =
    { s.slice slice with copies := (s.slice slice).copies.map (fun c => if c.id = id then f c else c) } := slice_modSlice_self ..

/-- With room, a request is parked. -/
theorem parkReq_parked (hroom : HasRoom (s.slice slice)) (c : Copy) (req va r lv : Nat) (kind : AccKind) :
    ((s.parkReq c slice req va r lv kind).slice slice).parked c.id req = true := by
  rw [parkReq_of_room hroom]
  have hread := Read.of_translated (recordFault_frame (({ s.setSlice slice (withParked (s.slice slice) (c.id, req)) with
    nextId := s.nextId + 1 } : State).modCopy slice c.id (parkMark req s.nextId)) (spaceKey c.vf c.asid) slice va r lv kind true)
  rw [parked_congr (hread.replay slice) (hread.held slice), slice_modCopy]
  have hslice : ({ s.setSlice slice (withParked (s.slice slice) (c.id, req)) with nextId := s.nextId + 1 } : State).slice slice =
      withParked (s.slice slice) (c.id, req) := by
    rw [show ({ s.setSlice slice (withParked (s.slice slice) (c.id, req)) with nextId := s.nextId + 1 } : State).slice slice =
      (s.setSlice slice (withParked (s.slice slice) (c.id, req))).slice slice from rfl, slice_setSlice, if_pos rfl]
  rw [hslice]
  exact withParked_parked ..

/-- And its copy keeps its slot. -/
theorem parkReq_copyAt (hroom : HasRoom (s.slice slice)) (hc : s.copyAt slice d.id = some c) (req va r lv : Nat) (kind : AccKind) :
    ∃ b, (s.parkReq d slice req va r lv kind).copyAt slice d.id = some { parkMark req s.nextId c with blocks := b } := by
  rw [parkReq_of_room hroom]
  refine (Read.of_translated (recordFault_frame ..)).copyAt ?_
  rw [copyAt_modCopy (f := parkMark req s.nextId) (fun _ => rfl)]
  have hcopies : ({ s.setSlice slice (withParked (s.slice slice) (d.id, req)) with nextId := s.nextId + 1 } : State).copyAt slice d.id =
      s.copyAt slice d.id := by
    rw [show ({ s.setSlice slice (withParked (s.slice slice) (d.id, req)) with nextId := s.nextId + 1 } : State).copyAt slice d.id =
      (s.setSlice slice (withParked (s.slice slice) (d.id, req))).copyAt slice d.id from rfl]
    simp only [State.copyAt, slice_setSlice, if_true, withParked_copies]
  rw [hcopies, hc, Option.map_some]

-- The issue of a request (R228, R237).
/-- A request on its way, in a queue pair where it concerns flash (R370). -/
def issuedMark (id : Nat) (pair : Option Nat) (y : Copy) : Copy := markReq y id (fun x => { x with issued := true, pair := pair })

/-- The state in which a request that issues is tried. -/
theorem issueReq_eq (s : State) (slice : Nat) (c : Copy) (q : Req) : ∃ n pair x t,
    (({ s with free := n } : State).modCopy slice c.id (issuedMark q.id pair)).tryReq c slice q = (x, t) ∧
    s.issueReq slice c q = match x.out with
      | .park va r lv kind => t.parkReq c slice q.id va r lv kind
      | _ => t.charge c slice x := by
  unfold State.issueReq
  cases hd : c.drive with
  | none => exact ⟨s.free, none, _, _, rfl, rfl⟩
  | some d =>
    obtain ⟨n, hn⟩ := choose_free s (s.pairsOpen d).length
    refine ⟨n, (s.pairsOpen d)[(choose s (s.pairsOpen d).length).1]?, _, _, rfl, ?_⟩
    rw [← hn]
    rfl

/-- What the issue of a request leaves: the request is on its way and charged, or parked. -/
structure IssuedOrParked (s t : State) (c : Copy) (slice : Nat) (q : Req) : Prop where
  bad : t.bad = s.bad
  mem : t.mem = s.mem
  lanes : t.lanes = s.lanes
  tasks : t.tasks = s.tasks
  copy : ∃ c' q', t.copyAt slice c.id = some c' ∧ c'.reqs.find? (fun x => x.id == q.id) = some q' ∧ q'.issued = true ∧ q'.done = q.done
  outcome : (t.budget = s.budget ∧ (t.slice slice).parked c.id q.id = true) ∨
    ∃ m n, t.budget = mset s.budget (budgetKey c.vf (slice / 6)) ((s.spent c.vf (slice / 6)).1 + m, (s.spent c.vf (slice / 6)).2.1 + n,
        (s.spent c.vf (slice / 6)).2.2) ∧ (t.slice slice).parked c.id q.id = (s.slice slice).parked c.id q.id

theorem find_issuedMark (hq : c.reqs.find? (fun x => x.id == q.id) = some q) (pair : Option Nat) :
    (issuedMark q.id pair c).reqs.find? (fun x => x.id == q.id) = some { q with issued := true, pair := pair } := by
  unfold issuedMark markReq
  dsimp only
  rw [find_req_map (fun r => by split <;> rfl), hq]
  simp

theorem find_parkMark {r : Req} (hq : c.reqs.find? (fun x => x.id == req) = some r) (n : Nat) :
    (parkMark req n c).reqs.find? (fun x => x.id == req) = some { r with pair := none, stamp := n } := by
  unfold parkMark
  dsimp only
  rw [find_req_map (fun r => by split <;> rfl), hq]
  simp [req_id hq]

theorem issueReq_spec (hheld : (s.slice slice).held = none) (hc : s.copyAt slice c.id = some c)
    (hq : c.reqs.find? (fun x => x.id == q.id) = some q) : IssuedOrParked s (s.issueReq slice c q) c slice q := by
  obtain ⟨n, pair, x, t, htry, hissue⟩ := issueReq_eq s slice c q
  have hread : Read (({ s with free := n } : State).modCopy slice c.id (issuedMark q.id pair)) t := by
    have := read_tryReq (({ s with free := n } : State).modCopy slice c.id (issuedMark q.id pair)) c slice q
    rwa [htry] at this
  have hmarked : (({ s with free := n } : State).modCopy slice c.id (issuedMark q.id pair)).copyAt slice c.id =
      some (issuedMark q.id pair c) := by
    rw [copyAt_modCopy (f := issuedMark q.id pair) (fun _ => rfl), show ({ s with free := n } : State).copyAt slice c.id = s.copyAt slice c.id from rfl, hc,
      Option.map_some]
  have hslice := slice_modCopy { s with free := n } slice c.id (issuedMark q.id pair)
  have hheld' : (t.slice slice).held = none := by rw [hread.held, hslice]; exact hheld
  have hparked : (t.slice slice).parked c.id q.id = (s.slice slice).parked c.id q.id :=
    parked_congr ((hread.replay slice).trans (by rw [hslice]; rfl)) ((hread.held slice).trans (by rw [hslice]; rfl)) _ _
  obtain ⟨b, hb⟩ := hread.copyAt hmarked
  rw [hissue]
  split
  · rename_i va r lv kind _
    have hparks := parks_parkReq t c slice q.id va r lv kind
    obtain ⟨b', hb'⟩ := parkReq_copyAt (d := c) (.inr hheld') hb q.id va r lv kind
    exact ⟨hparks.bad.trans hread.bad, hparks.mem.trans hread.mem, hparks.lanes.trans hread.lanes, hparks.tasks.trans hread.tasks,
      ⟨_, _, hb', find_parkMark (find_issuedMark hq pair) _, rfl, rfl⟩,
      .inl ⟨hparks.budget.trans hread.budget, parkReq_parked (.inr hheld') ..⟩⟩
  · refine ⟨hread.bad, hread.mem, hread.lanes, hread.tasks, ⟨_, _, hb, find_issuedMark hq pair, rfl, rfl⟩,
      .inr ⟨(reqCharge c x.read x.out.written).1, (reqCharge c x.read x.out.written).2, ?_, hparked⟩⟩
    have hspent : t.spent c.vf (slice / 6) = s.spent c.vf (slice / 6) := by
      simp only [State.spent, hread.budget]; rfl
    unfold State.charge
    simp only [hspent, hread.budget]
    rfl

/-- Without a free way or a budget, a request does not issue (R228). -/
theorem exec_issue_stopped (hc : s.copyAt slice id = some c) (hq : c.reqs.find? (fun x => x.id == req) = some q)
    (hstop : (s.slice slice).held ≠ none ∨ (((geomOf c.src).kind = 0 ∨ (geomOf c.dst).kind = 0) ∧
      (s.vf c.vf).copyCap ≤ (mgetD s.budget (budgetKey c.vf (slice / 6)) (0, 0, 0)).1)) :
    exec (.copyRequestIssue slice id req) s = .next s := by
  have hcond : (q.issued || (s.slice slice).held.isSome || !s.mayIssue c slice || !(s.slice slice).turnOf c req) = true := by
    rcases hstop with hheld | ⟨hkind, hspent⟩
    · simp [Option.isSome_iff_ne_none.2 hheld]
    · have hmay : s.mayIssue c slice = false := by
        have hhas : ((geomOf c.src).kind == 0 || (geomOf c.dst).kind == 0) = true := by simpa using hkind
        have hnot : decide ((s.spent c.vf (slice / 6)).1 < (s.vf c.vf).copyCap) = false := by
          exact decide_eq_false (Nat.not_lt.2 hspent)
        simp only [State.mayIssue, State.mayCharge, hhas, hnot, Bool.not_true, Bool.or_self, Bool.false_and]
      simp [hmay]
  rw [exec_copyRequestIssue]
  simp only [execCopyRequestIssue, hc, hq, hcond, if_true]

/-- A request that may issue does so. -/
theorem exec_issue_of (hbad : s.bad = none) (hc : s.copyAt slice id = some c) (hq : c.reqs.find? (fun x => x.id == req) = some q)
    (hfresh : q.issued = false) (hheld : (s.slice slice).held = none) (hmay : s.mayIssue c slice = true)
    (hturn : (s.slice slice).turnOf c req = true) :
    ∃ t, exec (.copyRequestIssue slice id req) s = .next t ∧ IssuedOrParked s t c slice q := by
  obtain rfl := copyAt_id hc
  obtain rfl := req_id hq
  have hcond : (q.issued || (s.slice slice).held.isSome || !s.mayIssue c slice || !(s.slice slice).turnOf c q.id) = false := by
    simp [hfresh, hheld, hmay, hturn]
  have hslice := slice_modSlice_self s slice (fun x => { x with again := x.again.filter (fun p => p != (c.id, q.id)) })
  have hspec := issueReq_spec (s := s.modSlice slice (fun x => { x with again := x.again.filter (fun p => p != (c.id, q.id)) }))
    (by rw [hslice]; exact hheld) (by rw [State.copyAt, hslice]; exact hc) hq
  refine ⟨_, ?_, hspec.bad, hspec.mem, hspec.lanes, hspec.tasks, hspec.copy, ?_⟩
  · rw [exec_copyRequestIssue]
    simp only [execCopyRequestIssue, hc, hq, hcond, Bool.false_eq_true, if_false]
    exact finish_of_sound (hspec.bad.trans hbad)
  · have := hspec.outcome
    rwa [hslice] at this

end Sys2Proof.Copies
end

section
/-! PROOFS. Requests of a copy complete: they write, fail or park, and the last one lands the copy (R234, R237). -/

namespace Sys2Proof.Copies

open Sys2Proof Sys2Proof.Machine Sys2Proof.Claims Sys2Proof.Numbers Sys2Proof.Accesses Sys2Proof.Tensors

variable {s t u : State} {c : Copy} {q : Req} {y : Task} {id req n tn : Nat} {status : Option Nat}

-- What an engine writes (R216, R234).
/-- Memory, its poison, its location order, and what is published differ. -/
structure Wrote (s t : State) : Prop where
  same : t = { s with mem := t.mem, poison := t.poison, log := t.log, rels := t.rels, nextId := t.nextId }

theorem Wrote.refl (s : State) : Wrote s s := ⟨rfl⟩
theorem Wrote.trans (h : Wrote s t) (g : Wrote t u) : Wrote s u := ⟨by rw [g.same, h.same]⟩
theorem wrote_write (s : State) (a : Nat) (bs : List Byte) (slice who : Nat) (strong : Option Scope) (rel : Option Nat) (point : Nat) :
    Wrote s (s.write a bs slice who strong rel point) := ⟨rfl⟩
theorem wrote_setPoison (s : State) (line : Nat) (tag : Bool) : Wrote s (s.setPoison line tag) := ⟨rfl⟩
theorem wrote_clean (s : State) (line : Nat) : Wrote s (s.clean line) := ⟨rfl⟩
theorem wrote_addEngine (s : State) (slice : Nat) (sc : Scope) (pub : Map Nat) : Wrote s (s.addEngine slice sc pub) := ⟨rfl⟩

theorem wrote_foldl {α : Type} {f : State → α → State} (hf : ∀ s x, Wrote s (f s x)) (xs : List α) (s : State) : Wrote s (xs.foldl f s) := by
  induction xs generalizing s with
  | nil => exact .refl s
  | cons x r ih => exact (hf s x).trans (ih (f s x))

/-- A fold that also gathers what it has written. -/
theorem wrote_foldl_snd {α β : Type} {f : β × State → α → β × State} (hf : ∀ a x, Wrote a.2 (f a x).2) (xs : List α) (a : β × State) :
    Wrote a.2 (xs.foldl f a).2 := by
  induction xs generalizing a with
  | nil => exact .refl a.2
  | cons x r ih => exact (hf a x).trans (ih (f a x))

section wrote
variable (h : Wrote s t)
include h
theorem Wrote.bad : t.bad = s.bad := by rw [h.same]
theorem Wrote.iss : t.iss = s.iss := by rw [h.same]
theorem Wrote.lanes : t.lanes = s.lanes := by rw [h.same]
theorem Wrote.tasks : t.tasks = s.tasks := by rw [h.same]
theorem Wrote.task (tn : Nat) : t.task tn = s.task tn := by rw [h.same]; rfl
theorem Wrote.slice (x : Nat) : t.slice x = s.slice x := by rw [h.same]; rfl
theorem Wrote.copyAt (x id : Nat) : t.copyAt x id = s.copyAt x id := by rw [State.copyAt, h.slice]; rfl
end wrote

theorem wrote_commitReq (s : State) (slice kind : Nat) (ws : List (Nat × List Byte)) (bad : Option (Nat × Bool)) :
    Wrote s (s.commitReq slice kind ws bad).2 := by
  unfold State.commitReq
  dsimp only
  refine Wrote.trans ?_ (wrote_addEngine ..)
  refine (wrote_foldl_snd (f := fun a w =>
    (viewRange w.1 a.2.nextId (if bad.isSome then List.replicate w.2.length 0 else w.2).length a.1,
      a.2.write w.1 (if bad.isSome then List.replicate w.2.length 0 else w.2) slice 0 none none 0))
    (fun a w => wrote_write ..) ws (([], s) : Map Nat × State)).trans ?_
  cases bad with
  | some b => exact wrote_foldl (fun u l => wrote_setPoison ..) _ _
  | none => exact wrote_foldl (fun u l => wrote_clean ..) _ _

/-- The bytes that a request writes; broken data are written as zero. -/
theorem commitReq_mem (s : State) (slice kind : Nat) (ws : List (Nat × List Byte)) (bad : Option (Nat × Bool)) :
    (s.commitReq slice kind ws bad).2.mem =
      ws.foldl (fun m p => pokes m p.1 (if bad.isSome then List.replicate p.2.length 0 else p.2)) s.mem := by
  have hwrites := List.foldl_hom (l := ws) (init := (([], s) : Map Nat × State)) (fun a => a.2.mem)
    (g₁ := fun a w => (viewRange w.1 a.2.nextId (if bad.isSome then List.replicate w.2.length 0 else w.2).length a.1,
      a.2.write w.1 (if bad.isSome then List.replicate w.2.length 0 else w.2) slice 0 none none 0))
    (g₂ := fun m p => pokes m p.1 (if bad.isSome then List.replicate p.2.length 0 else p.2)) (fun _ _ => rfl)
  unfold State.commitReq
  dsimp only
  rw [hwrites]
  change State.mem (State.addEngine _ _ _ _) = _
  rw [show ∀ (u : State) (sc : Scope) (p : Map Nat), (u.addEngine slice sc p).mem = u.mem from fun _ _ _ => rfl]
  split
  · exact foldl_keeps State.mem (fun s l => State.setPoison s l _) (fun _ _ => rfl) _ _
  · exact foldl_keeps State.mem (fun s l => State.clean s l) (fun _ _ => rfl) _ _

theorem wrote_writeBlocks (s : State) (slice : Nat) (out : Map (Byte × Nat)) : Wrote s (s.writeBlocks slice out).2 := by
  refine wrote_foldl_snd (fun a b => ?_) _ (([], s) : Map Nat × State)
  refine (wrote_write a.2 _ _ slice 0 none none 0).trans (wrote_foldl (fun u l => ?_) _ _)
  dsimp only
  split
  · split
    · exact wrote_clean ..
    · exact .refl u
  · exact wrote_setPoison ..

variable {slice : Nat}

-- A copy settles: what has fallen is counted, and with the last request it lands (R227, R234).
/-- Slots, counters, and what has landed differ. -/
structure Settles (s t : State) : Prop where
  same : t = { s with slices := t.slices, tasks := t.tasks, landed := t.landed, reels := t.reels }

section settles
variable (h : Settles s t)
include h
theorem Settles.mem : t.mem = s.mem := by rw [h.same]
theorem Settles.bad : t.bad = s.bad := by rw [h.same]
theorem Settles.iss : t.iss = s.iss := by rw [h.same]
theorem Settles.lanes : t.lanes = s.lanes := by rw [h.same]
theorem Settles.nextId : t.nextId = s.nextId := by rw [h.same]
end settles

theorem settles_landCopy (s : State) (slice : Nat) (c : Copy) : Settles s (s.landCopy slice c) := by
  constructor
  unfold State.landCopy
  dsimp only
  split <;> rfl

theorem settles_settleCopy (s : State) (slice id : Nat) (pub : Map Nat) (status : Option Nat) :
    Settles s (s.settleCopy slice id pub status) := by
  have hland : ∀ (p : Prop) [Decidable p] (u : State) (d : Copy), Settles s u → Settles s (if p then u.landCopy slice d else u) := by
    intro p _ u d hu
    split
    · exact ⟨by rw [(settles_landCopy u slice d).same, hu.same]⟩
    · exact hu
  unfold State.settleCopy
  split
  · exact ⟨rfl⟩
  · dsimp only
    refine hland _ _ _ ?_
    split <;> exact ⟨rfl⟩

/-- A copy has landed: its slot is free, what became of it is kept, and its counter has fallen by the rest of it. -/
structure Lands (t : State) (c : Copy) (y : Task) (slice n tn : Nat) (status : Option Nat) : Prop where
  landed : ∃ z, mget t.landed c.id = some z ∧ (status ≠ none → z.failed ≠ none)
  gone : t.copyAt slice c.id = none
  counter : ∃ x, t.task tn = some x ∧
    (mgetD x.counters n {}).val = (BitVec.ofInt 64 ((mgetD y.counters n {}).val - ((c.dense - c.counted : Nat) : Int))).toInt

theorem Lands.of_fields {d : Copy} (h : Lands t d y slice n tn status) (hid : d.id = c.id) (hdense : d.dense = c.dense)
    (hcounted : d.counted = c.counted) : Lands t c y slice n tn status := by
  obtain ⟨hlanded, hgone, hcounter⟩ := h
  rw [hid] at hlanded hgone
  rw [hdense, hcounted] at hcounter
  exact ⟨hlanded, hgone, hcounter⟩

theorem copyAt_filtered (s : State) (slice id : Nat) :
    (s.modSlice slice (fun x => { x with copies := x.copies.filter (fun y => y.id != id) })).copyAt slice id = none := by
  rw [State.copyAt, slice_modSlice_self, List.find?_eq_none]
  intro d hd
  simpa using (List.mem_filter.1 hd).2

/-- The counter of a task counts down (R238). -/
theorem countDown_task (hy : s.task tn = some y) (n m : Nat) (status : Option Nat) (pub : Map Nat) (by_ : Option Nat) :
    ∃ x, (s.countDown tn n m status pub by_).task tn = some x ∧
      (mgetD x.counters n {}).val = (BitVec.ofInt 64 ((mgetD y.counters n {}).val - m)).toInt ∧
      (mgetD x.counters n {}).status = (if (mgetD y.counters n {}).status = 0 then status.getD 0 else (mgetD y.counters n {}).status) ∧
      x.sati = y.sati :=
  ⟨_, task_modTask_of hy _, by simp only [mgetD_mset_self], by simp only [mgetD_mset_self], rfl⟩

/-- With its last request a copy lands. -/
theorem settleCopy_lands (hc : s.copyAt slice c.id = some c) (hall : ∀ r, r ∈ c.reqs → r.done = true) (hctr : c.ctr = some n)
    (htask : c.task = some tn) (hpacket : c.packet = none) (hy : s.task tn = some y) (pub : Map Nat) (status : Option Nat) :
    Lands (s.settleCopy slice c.id pub status) c y slice n tn status := by
  have hdone : c.reqs.all (·.done) = true := List.all_eq_true.2 hall
  unfold State.settleCopy
  simp only [hc, hdone, hctr, htask, if_true, State.landCopy, hpacket]
  obtain ⟨x, hx, hval, -⟩ := countDown_task (s := s.modCopy slice c.id (fun _ => { c with
    counted := c.dense, wrote := viewJoin pub c.wrote, failed := if c.failed.isSome then c.failed else status }))
    hy n (c.dense - c.counted) (status.map (fun r => 512 + r)) pub none
  refine ⟨⟨_, mget_mset_self .., fun hs => ?_⟩, copyAt_filtered _ slice c.id, x, hx, hval⟩
  dsimp only
  split
  · exact fun h => by simp_all
  · exact hs

-- A request comes to its end (R237).
/-- The request of a copy is done, with the bits that it has counted. -/
def doneMark (id part : Nat) (y : Copy) : Copy := markReq y id (fun x => { x with done := true, part := part })

theorem done_of_last (hlast : ∀ r, r ∈ c.reqs → r.done = true ∨ r.id = id) (part : Nat) : ∀ r, r ∈ (doneMark id part c).reqs → r.done = true := by
  intro r hr
  obtain ⟨p, hp, rfl⟩ := List.mem_map.1 hr
  dsimp only
  split
  · rfl
  · exact (hlast p hp).resolve_right ‹_›

/-- A request to flash ends without a change of lanes and of what exists. -/
theorem gatherOut_bad (s : State) (slice : Nat) (c : Copy) (q : Req) (ws : List (Nat × List Byte)) (bad : Option (Nat × Bool)) :
    (s.gatherOut slice c q ws bad).bad = s.bad := by
  unfold State.gatherOut
  dsimp only
  split
  · rfl
  · rw [(settles_settleCopy ..).bad]
    exact (wrote_writeBlocks ..).bad

/-- What a request to flash makes of its copy. -/
def gatherMark (id part : Nat) (out : Map (Byte × Nat)) (y : Copy) : Copy := { doneMark id part y with out := out }

theorem gatherOut_eq (hc : s.copyAt slice c.id = some c) (d : Copy) (hd : d.id = c.id) (q : Req) (ws : List (Nat × List Byte))
    (bad : Option (Nat × Bool)) :
    ∃ u part out pub status, Wrote s u ∧ (bad ≠ none → status ≠ none) ∧ s.gatherOut slice d q ws bad =
      ((u.modCopy slice c.id (gatherMark q.id part out)).addEngine slice .device pub).settleCopy slice c.id pub status := by
  unfold State.gatherOut
  simp only [hd, hc]
  refine ⟨_, _, _, _, _, wrote_writeBlocks .., fun hbad => ?_, rfl⟩
  obtain ⟨b, hb⟩ := Option.ne_none_iff_exists'.1 hbad
  simp [hb]

theorem gatherOut_lands (hc : s.copyAt slice c.id = some c) (hlast : ∀ r, r ∈ c.reqs → r.done = true ∨ r.id = q.id) (hctr : c.ctr = some n)
    (htask : c.task = some tn) (hpacket : c.packet = none) (hy : s.task tn = some y) (d : Copy) (hd : d.id = c.id)
    (ws : List (Nat × List Byte)) (bad : Option (Nat × Bool)) :
    ∃ status, (bad ≠ none → status ≠ none) ∧ Lands (s.gatherOut slice d q ws bad) c y slice n tn status := by
  obtain ⟨u, part, out, pub, status, hu, hstatus, heq⟩ := gatherOut_eq hc d hd q ws bad
  have hcopy : ((u.modCopy slice c.id (gatherMark q.id part out)).addEngine slice .device pub).copyAt slice c.id =
      some (gatherMark q.id part out c) := by
    rw [(wrote_addEngine ..).copyAt, copyAt_modCopy (f := gatherMark q.id part out) (fun _ => rfl), hu.copyAt, hc, Option.map_some]
  rw [heq]
  exact ⟨status, hstatus, (settleCopy_lands (c := gatherMark q.id part out c) hcopy (done_of_last hlast part) hctr htask hpacket
    ((hu.task tn).trans hy) pub status).of_fields rfl rfl rfl⟩

end Sys2Proof.Copies
end

section
/-! PROOFS. A request of a copy completes with what it has found (R234, R237). -/

namespace Sys2Proof.Copies

open Sys2Proof Sys2Proof.Machine Sys2Proof.Claims Sys2Proof.Numbers

variable {s t u : State} {c d : Copy} {q : Req} {y : Task} {slice id req n tn : Nat} {x : Tried}

/-- A request of a copy is done, and counts the elements that it has moved. -/
def endMark (id moved : Nat) (y : Copy) : Copy := doneMark id (partOf y moved) y

section complete
variable (hflash : (geomOf c.dst).kind ≠ 4)
include hflash

theorem completeReq_fail (s : State) (slice : Nat) (q : Req) (r moved : Nat) : s.completeReq slice c q (.fail r) moved =
    (s.modCopy slice c.id (endMark q.id moved)).settleCopy slice c.id [] (some r) := by
  simp only [State.completeReq, hflash, if_false]
  rfl

theorem completeReq_write (s : State) (slice : Nat) (q : Req) (ws : List (Nat × List Byte)) (bad : Option (Nat × Bool)) (moved : Nat) :
    ∃ pub u, (s.modCopy slice c.id (endMark q.id moved)).commitReq slice (geomOf c.dst).kind ws bad = (pub, u) ∧
      s.completeReq slice c q (.write ws bad) moved = u.settleCopy slice c.id pub (bad.map (·.1)) := by
  simp only [State.completeReq, hflash, if_false]
  exact ⟨_, _, rfl, rfl⟩

/-- A request that fails leaves the destination as it was. -/
theorem completeReq_fail_mem (s : State) (slice : Nat) (q : Req) (r moved : Nat) :
    (s.completeReq slice c q (.fail r) moved).mem = s.mem := by
  rw [completeReq_fail hflash, (settles_settleCopy ..).mem]
  rfl

/-- A request writes what it has gathered; broken data are written as zero. -/
theorem completeReq_write_mem (s : State) (slice : Nat) (q : Req) (ws : List (Nat × List Byte)) (bad : Option (Nat × Bool)) (moved : Nat) :
    (s.completeReq slice c q (.write ws bad) moved).mem =
      ws.foldl (fun m p => pokes m p.1 (if bad.isSome then List.replicate p.2.length 0 else p.2)) s.mem := by
  obtain ⟨pub, u, hu, heq⟩ := completeReq_write hflash s slice q ws bad moved
  rw [heq, (settles_settleCopy ..).mem, show u.mem = _ from hu ▸ commitReq_mem ..]
  rfl

end complete

theorem completeReq_bad (s : State) (slice : Nat) (c : Copy) (q : Req) (o : ReqOut) (moved : Nat) :
    (s.completeReq slice c q o moved).bad = s.bad := by
  cases o with
  | park va r lv k => exact (parks_parkReq ..).bad
  | fail r =>
    by_cases hflash : (geomOf c.dst).kind = 4
    · simp only [State.completeReq, hflash, if_true]
      exact gatherOut_bad ..
    · rw [completeReq_fail hflash, (settles_settleCopy ..).bad]
      rfl
  | write ws bad =>
    by_cases hflash : (geomOf c.dst).kind = 4
    · simp only [State.completeReq, hflash, if_true]
      exact gatherOut_bad ..
    · obtain ⟨pub, u, hu, heq⟩ := completeReq_write hflash s slice q ws bad moved
      rw [heq, (settles_settleCopy ..).bad, (show Wrote _ u from hu ▸ wrote_commitReq ..).bad]
      rfl

section last
variable (hc : s.copyAt slice c.id = some c) (hlast : ∀ r, r ∈ c.reqs → r.done = true ∨ r.id = q.id) (hctr : c.ctr = some n)
  (htask : c.task = some tn) (hpacket : c.packet = none) (hy : s.task tn = some y)
include hc hlast hctr htask hpacket hy

/-- The last request of a copy lands it, whatever the request has found (R234). -/
theorem completeReq_lands (d : Copy) (hid : d.id = c.id) {o : ReqOut} (hpark : ∀ va r lv kind, o ≠ .park va r lv kind) (moved : Nat) :
    ∃ status, ((∃ r, o = .fail r) → status ≠ none) ∧ Lands (s.completeReq slice d q o moved) c y slice n tn status := by
  have hdone : (s.modCopy slice c.id (endMark q.id moved)).copyAt slice c.id = some (endMark q.id moved c) := by
    rw [copyAt_modCopy (f := endMark q.id moved) (fun _ => rfl), hc, Option.map_some]
  have hall := done_of_last hlast (partOf c moved)
  cases o with
  | park va r lv k => exact absurd rfl (hpark va r lv k)
  | fail r =>
    by_cases hflash : (geomOf d.dst).kind = 4
    · simp only [State.completeReq, hflash, if_true]
      obtain ⟨status, hstatus, hlands⟩ := gatherOut_lands hc hlast hctr htask hpacket hy d hid [] (some (r, false))
      exact ⟨status, fun _ => hstatus (Option.some_ne_none _), hlands⟩
    · rw [completeReq_fail hflash, hid]
      exact ⟨some r, fun _ => Option.some_ne_none _,
        (settleCopy_lands (c := endMark q.id moved c) hdone hall hctr htask hpacket hy [] (some r)).of_fields rfl rfl rfl⟩
  | write ws bad =>
    by_cases hflash : (geomOf d.dst).kind = 4
    · simp only [State.completeReq, hflash, if_true]
      obtain ⟨status, -, hlands⟩ := gatherOut_lands hc hlast hctr htask hpacket hy d hid ws bad
      exact ⟨status, fun ⟨r, hr⟩ => ReqOut.noConfusion hr, hlands⟩
    · obtain ⟨pub, u, hu, heq⟩ := completeReq_write hflash s slice q ws bad moved
      have hwrote : Wrote _ u := hu ▸ wrote_commitReq ..
      rw [hid] at hwrote
      rw [heq, hid]
      exact ⟨bad.map (·.1), fun ⟨r, hr⟩ => ReqOut.noConfusion hr,
        (settleCopy_lands (c := endMark q.id moved c) ((hwrote.copyAt ..).trans hdone) hall hctr htask hpacket
          ((hwrote.task tn).trans hy) pub _).of_fields rfl rfl rfl⟩

end last

-- The event.
section event
variable (hbad : s.bad = none) (hc : s.copyAt slice id = some c) (hq : c.reqs.find? (fun y => y.id == req) = some q)
  (hissued : q.issued = true) (hundone : q.done = false) (hparked : (s.slice slice).parked id req = false)
  (htry : s.tryReq c slice q = (x, t))
include hbad hc hq hissued hundone hparked htry

theorem exec_complete : exec (.copyRequestComplete slice id req) s = .next (t.completeReq slice c q x.out x.moved) := by
  have hread : Read s t := by
    have := read_tryReq s c slice q
    rwa [htry] at this
  rw [exec_copyRequestComplete]
  simp only [execCopyRequestComplete, hc, hq, hissued, hundone, hparked, Bool.not_true, Bool.or_self, Bool.false_eq_true, if_false, htry]
  exact finish_of_sound ((completeReq_bad ..).trans (hread.bad.trans hbad))

end event

end Sys2Proof.Copies
end

section
/-! PROOFS. The request of a copy of one element between tensors on chip: what it writes (R19, R211, R229, R237). -/

namespace Sys2Proof.Copies

open Sys2Proof Sys2Proof.Machine Sys2Proof.Claims Sys2Proof.Numbers Sys2Proof.Accesses Sys2Proof.Tensors

variable {s t : State} {c : Copy} {q : Req} {slice : Nat} {g : Geom}

theorem leBytes_leNat (b : List Byte) : leBytes b.length (leNat b) = b := by
  induction b with
  | nil => rfl
  | cons x r ih =>
    have hx := x.isLt
    rw [List.length_cons, leNat, leBytes, Nat.add_mul_div_left _ _ (by decide), Nat.div_eq_of_lt hx, Nat.zero_add, ih]
    congr 1
    apply BitVec.eq_of_toNat_eq
    rw [BitVec.toNat_ofNat]
    omega

theorem leBytes_zero (n : Nat) : leBytes n 0 = List.replicate n 0 := by
  induction n with
  | zero => rfl
  | succ n ih => rw [leBytes, Nat.zero_div, ih, List.replicate_succ]; rfl

theorem bits_of_nbytes (h : g.bits % 8 = 0) : g.bits = 8 * g.nbytes := by
  unfold Geom.nbytes ceilDiv
  omega

/-- The bytes of an element, put as its value. -/
theorem put_leNat (h : g.bits % 8 = 0) {b : List Byte} (hb : b.length = g.nbytes) (i : Nat) (old : List Byte) :
    g.put i (leNat b) old = b := by
  have hlt := leNat_lt b
  rw [put_whole h, bits_of_nbytes h, ← hb, Nat.mod_eq_of_lt hlt, leBytes_leNat]

theorem put_zero (h : g.bits % 8 = 0) (i : Nat) (old : List Byte) : g.put i 0 old = List.replicate g.nbytes 0 := by
  rw [put_whole h, Nat.zero_mod, leBytes_zero]

theorem take_whole (h : g.bits % 8 = 0) (i : Nat) (b : List Byte) : g.take i b = leNat b := by
  rw [Geom.take, if_neg (by omega)]

theorem locOf_chip (h : g.kind = 1 ∨ g.kind = 2) (slice : Nat) : g.locOf slice .elem = .chip (chipKey g.kind slice g.start) := by
  rcases h with h | h <;> simp [Geom.locOf, h]

/-- Bytes on chip that are neither broken nor contested are what memory holds. -/
theorem sound_settled {fl : Map Nat} {a n : Nat} (hbroken : s.broken a n = false) (h : Uncontested s a n) :
    s.sound fl a n = (.ok (peeks s.mem a n), s) := by
  obtain ⟨hpoison, hecc⟩ := Bool.or_eq_false_iff.1 hbroken
  obtain ⟨hbytes, -, hstate⟩ := readVer_uncontested (s := s) fl (fun _ => false) h
  unfold State.sound
  simp only [hpoison, hecc, Bool.false_eq_true, if_false, hbytes, hstate]

theorem srcKey : chipKey (geomOf c.src).kind slice (geomOf c.src).start +
    (geomOf c.src).byteOf (((geomOf c.src).index [] ((geomOf c.src).split c.srow c.scol)).getD 0) =
      elemKey (geomOf c.src) slice c.srow c.scol := rfl
theorem dstKey : chipKey (geomOf c.dst).kind slice (geomOf c.dst).start + (geomOf c.dst).byteOf (dstIndex c 0 0) =
    elemKey (geomOf c.dst) slice c.drow c.dcol := rfl

/-- One element between dense tensors on chip that have no groups and whole bytes (R229, R231). -/
structure OneElement (c : Copy) : Prop where
  fromChip : (geomOf c.src).kind = 1 ∨ (geomOf c.src).kind = 2
  toChip : (geomOf c.dst).kind = 1 ∨ (geomOf c.dst).kind = 2
  dense : (geomOf c.src).sp = false
  plain : (geomOf c.src).gsz = 0
  fmt : (geomOf c.src).fmt = (geomOf c.dst).fmt
  whole : (geomOf c.dst).bits % 8 = 0
  rows : c.rows = 1
  cols : c.cols = 1

section one
variable (h : OneElement c)
include h

theorem OneElement.bits : (geomOf c.src).bits = (geomOf c.dst).bits := by simp only [Geom.bits, h.fmt]
theorem OneElement.nbytes : (geomOf c.src).nbytes = (geomOf c.dst).nbytes := by simp only [Geom.nbytes, h.bits]
theorem OneElement.kind : (geomOf c.dst).kind ≠ 4 := by rcases h.toChip with e | e <;> simp [e]

theorem OneElement.lost : c.lost = false := by
  have hsrc : (geomOf c.src).kind ≠ 4 := by rcases h.fromChip with e | e <;> simp [e]
  simp [Copy.lost, hsrc, h.kind]

theorem OneElement.moves (bm : List Byte) : Machine.moves c bm = [{ dst := dstIndex c 0 0, src := srcOf c bm 0 0 }] := by
  have hbox : box c = [(0, 0)] := by simp [box, h.rows, h.cols]
  simp [Machine.moves, packedCopy, h.dense, hbox]

theorem OneElement.line (m : Src) : moveLine c slice { dst := dstIndex c 0 0, src := m } = elemKey (geomOf c.dst) slice c.drow c.dcol / 64 := by
  simp only [moveLine, h.kind, if_false, locOf_chip h.toChip]
  rfl

theorem OneElement.reqMoves (bm : List Byte) (hline : q.line = elemKey (geomOf c.dst) slice c.drow c.dcol / 64) :
    Machine.reqMoves c slice bm q = [{ dst := dstIndex c 0 0, src := srcOf c bm 0 0 }] := by
  simp [Machine.reqMoves, h.moves, h.line, hline]

/-- The source of the element: inside the tensor its place, outside zero. -/
theorem OneElement.src (bm : List Byte) : srcOf c bm 0 0 =
    if c.scol < (geomOf c.src).ext 0 ∧ c.srow < (geomOf c.src).rows
    then .at_ (((geomOf c.src).index [] ((geomOf c.src).split c.srow c.scol)).getD 0) else .zero := by
  have hindex := index_dense h.dense bm ((geomOf c.src).split c.srow c.scol)
  obtain ⟨n, hn⟩ : ∃ n, (geomOf c.src).index [] ((geomOf c.src).split c.srow c.scol) = some n := ⟨_, by simp [Geom.index, h.dense]; rfl⟩
  simp only [srcOf, Nat.add_zero, Geom.inside, Bool.and_eq_true, decide_eq_true_eq, hindex, hn, h.plain, if_true, Option.getD_some]

/-- What the element is written as. -/
def oneBytes (s : State) (c : Copy) (slice : Nat) : List Byte :=
  if c.scol < (geomOf c.src).ext 0 ∧ c.srow < (geomOf c.src).rows
  then peeks s.mem (elemKey (geomOf c.src) slice c.srow c.scol) (geomOf c.src).nbytes
  else List.replicate (geomOf c.dst).nbytes 0

theorem OneElement.oneBytes_length (s : State) (slice : Nat) : (oneBytes s c slice).length = (geomOf c.dst).nbytes := by
  unfold oneBytes
  split
  · rw [peeks_length, h.nbytes]
  · rw [List.length_replicate]

variable (hbroken : s.broken (elemKey (geomOf c.src) slice c.srow c.scol) (geomOf c.src).nbytes = false)
  (hsettled : Uncontested s (elemKey (geomOf c.src) slice c.srow c.scol) (geomOf c.src).nbytes)
include hbroken hsettled

/-- The value of the source, put into the destination. -/
theorem OneElement.srcVal (bm : List Byte) (i : Nat) (old : List Byte) : ∃ b v, s.srcVal c slice (srcOf c bm 0 0) = (.ok b, v, s) ∧
    (geomOf c.dst).put i v old = oneBytes s c slice := by
  have hwhole : (geomOf c.src).bits % 8 = 0 := h.bits ▸ h.whole
  rw [h.src]
  unfold oneBytes
  by_cases hin : c.scol < (geomOf c.src).ext 0 ∧ c.srow < (geomOf c.src).rows
  · rw [if_pos hin, if_pos hin]
    simp only [State.srcVal, locOf_chip h.fromChip, Loc.add, State.getBytes]
    rw [srcKey, sound_settled hbroken hsettled]
    refine ⟨_, _, rfl, ?_⟩
    rw [take_whole hwhole, put_leNat h.whole (by rw [peeks_length, h.nbytes])]
  · rw [if_neg hin, if_neg hin]
    exact ⟨_, _, rfl, put_zero h.whole ..⟩

theorem OneElement.tryReq (hkind : q.kind = .elem) (hline : q.line = elemKey (geomOf c.dst) slice c.drow c.dcol / 64) :
    (s.tryReq c slice q).1.out = .write [(elemKey (geomOf c.dst) slice c.drow c.dcol, oneBytes s c slice)] none := by
  obtain ⟨b, v, hval, hput⟩ := h.srcVal hbroken hsettled [] (dstIndex c 0 0)
    (oldBytes s c slice (.write [] none) (elemKey (geomOf c.dst) slice c.drow c.dcol) (geomOf c.dst).nbytes)
  have hgather : s.gatherElems c slice (.write [] none) (Machine.reqMoves c slice [] q) =
      (.write [(elemKey (geomOf c.dst) slice c.drow c.dcol, oneBytes s c slice)] none, s) := by
    rw [h.reqMoves [] hline]
    simp only [State.gatherElems, hval, locOf_chip h.toChip, Loc.add, State.putPlace, ReqOut.join, List.nil_append]
    rw [dstKey, hput]
    rfl
  unfold State.tryReq
  simp only [hkind, h.dense, h.lost, Bool.false_eq_true, if_false, State.mapBytes, hgather]

/-- With the request the element of the destination is that of the source. -/
theorem OneElement.written (hkind : q.kind = .elem) (hline : q.line = elemKey (geomOf c.dst) slice c.drow c.dcol / 64) (moved : Nat) :
    peeks ((s.tryReq c slice q).2.completeReq slice c q (s.tryReq c slice q).1.out moved).mem
      (elemKey (geomOf c.dst) slice c.drow c.dcol) (geomOf c.dst).nbytes = oneBytes s c slice := by
  rw [h.tryReq hbroken hsettled hkind hline, completeReq_write_mem h.kind]
  simp only [List.foldl_cons, List.foldl_nil, Option.isSome_none, Bool.false_eq_true, if_false]
  rw [← h.oneBytes_length s slice, peeks_pokes]

end one

end Sys2Proof.Copies
end

section
/-! PROOFS. The requests of a copy as it takes its slot: one for each line that it touches (R237). -/

namespace Sys2Proof.Copies

open Sys2Proof Sys2Proof.Machine Sys2Proof.Claims Sys2Proof.Numbers Sys2Proof.Tensors

variable {c : Copy} {slice : Nat} {bm : List Byte}

/-- The lines that a side array's items lie in. -/
def sideLines (c : Copy) (slice : Nat) (k : ReqKind) : List Nat := ((sidePairs c k).map (sideLine c slice k)).dedup

/-- Kind and line of each request. -/
def reqLines (c : Copy) (slice : Nat) (bm : List Byte) : List (ReqKind × Nat) :=
  (elemLines c slice bm).map (fun l => (.elem, l)) ++ (sideLines c slice .scale).map (fun l => (.scale, l)) ++
    (sideLines c slice .zpt).map (fun l => (.zpt, l)) ++ (sideLines c slice .map).map (fun l => (.map, l))

theorem requestsOf_eq (c : Copy) (slice : Nat) (bm : List Byte) : requestsOf c slice bm =
    (reqLines c slice bm).zipIdx.map (fun p => { id := p.2, kind := p.1.1, line := p.1.2 }) := rfl

theorem requestsOf_lines (c : Copy) (slice : Nat) (bm : List Byte) :
    (requestsOf c slice bm).map (fun r => (r.kind, r.line)) = reqLines c slice bm := by
  rw [requestsOf_eq, List.map_map]
  exact List.zipIdx_map_fst ..

theorem requestsOf_fresh (c : Copy) (slice : Nat) (bm : List Byte) : ∀ r, r ∈ requestsOf c slice bm → r.issued = false ∧ r.done = false := by
  intro r hr
  rw [requestsOf_eq] at hr
  obtain ⟨p, -, rfl⟩ := List.mem_map.1 hr
  exact ⟨rfl, rfl⟩

/-- Requests of some kinds, none of them twice. -/
structure OfKinds (ks : List ReqKind) (xs : List (ReqKind × Nat)) : Prop where
  once : xs.Nodup
  kinds : ∀ p, p ∈ xs → p.1 ∈ ks

/-- Lines of one more kind repeat no request. -/
theorem OfKinds.append {ks : List ReqKind} {xs : List (ReqKind × Nat)} (h : OfKinds ks xs) {k : ReqKind} (hk : k ∉ ks) (ls : List Nat) :
    OfKinds (k :: ks) (xs ++ ls.dedup.map (fun l => (k, l))) := by
  have hmore : ∀ p, p ∈ ls.dedup.map (fun l => (k, l)) → p.1 = k := by
    intro p hp
    obtain ⟨l, -, rfl⟩ := List.mem_map.1 hp
    rfl
  refine ⟨List.nodup_append.2 ⟨h.once, (List.nodup_dedup ls).map fun a b e => (Prod.mk.inj e).2, fun p hp r hr e => ?_⟩, fun p hp => ?_⟩
  · exact hk (hmore r hr ▸ e ▸ h.kinds p hp)
  · rcases List.mem_append.1 hp with hp | hp
    · exact List.mem_cons_of_mem _ (h.kinds p hp)
    · rw [hmore p hp]
      exact List.mem_cons_self

theorem reqLines_nodup (c : Copy) (slice : Nat) (bm : List Byte) : (reqLines c slice bm).Nodup := by
  have hnil : OfKinds [] [] := ⟨List.nodup_nil, fun _ hp => absurd hp List.not_mem_nil⟩
  exact ((((hnil.append (k := .elem) (by decide) _).append (k := .scale) (by decide) _).append (k := .zpt) (by decide) _).append
    (k := .map) (by decide) _).once

/-- A dense copy to on-chip storage has a request for the line of each of its elements. -/
theorem requestsOf_elem (hdense : (geomOf c.dst).sp = false) (hchip : (geomOf c.dst).kind = 1 ∨ (geomOf c.dst).kind = 2) {i j : Nat}
    (hi : i < c.rows) (hj : j < c.cols) : ∃ r, r ∈ requestsOf c slice bm ∧ r.kind = .elem ∧
      r.line = elemKey (geomOf c.dst) slice (c.drow + i) (c.dcol + j) / 64 := by
  have hkind : (geomOf c.dst).kind ≠ 4 := by rcases hchip with e | e <;> simp [e]
  have hbox : (i, j) ∈ box c := List.mem_flatMap.2 ⟨i, List.mem_range.2 hi, List.mem_map.2 ⟨j, List.mem_range.2 hj, rfl⟩⟩
  have hmove : { dst := dstIndex c i j, src := srcOf c bm i j } ∈ moves c bm := by
    simp only [moves, packedCopy, hdense, Bool.and_false, Bool.false_eq_true, if_false]
    exact List.mem_map.2 ⟨(i, j), hbox, rfl⟩
  have hline : moveLine c slice { dst := dstIndex c i j, src := srcOf c bm i j } =
      elemKey (geomOf c.dst) slice (c.drow + i) (c.dcol + j) / 64 := by
    simp only [moveLine, hkind, if_false, locOf_chip hchip]
    rfl
  have hlines : (ReqKind.elem, elemKey (geomOf c.dst) slice (c.drow + i) (c.dcol + j) / 64) ∈ reqLines c slice bm := by
    refine List.mem_append_left _ (List.mem_append_left _ (List.mem_append_left _ (List.mem_map.2 ⟨_, ?_, rfl⟩)))
    exact List.mem_dedup.2 (List.mem_map.2 ⟨_, hmove, hline⟩)
  rw [← requestsOf_lines] at hlines
  obtain ⟨r, hr, heq⟩ := List.mem_map.1 hlines
  exact ⟨r, hr, (Prod.mk.inj heq).1, (Prod.mk.inj heq).2⟩

end Sys2Proof.Copies
end

section
/-! PROOFS. A copy takes its slot: it joins the open set of its thread and binds its staging slot; and so does a list of copies, in order
(R227, R233, R236, R242). -/

namespace Sys2Proof.Copies

open Sys2Proof Sys2Proof.Machine Sys2Proof.Claims Sys2Proof.Numbers Sys2Proof.Accesses Sys2Proof.Tensors Sys2Proof.Slots

variable {s t u : State} {c d : Copy} {q : CopyReq} {k f : Nat} {l : Lane}

/-- What a request that is not refused finds: both entries, and a staging slot that no copy has (R235, R242). -/
structure Enterable (s : State) (k : Nat) (q : CopyReq) : Prop where
  src : ∃ a, s.entryOf (s.taskNo k) q.stid = some a
  dst : ∃ b, s.entryOf (s.taskNo k) q.dtid = some b
  stage : q.fo = true → ∃ y, mget (s.slice (sliceOf k)).stages q.stg = some y ∧ y.copy = none

theorem enterable_of_unrefused {index : Nat} {resv : Bool} {taken : List Nat} (h : s.copyRefusal k index q resv taken = none) :
    Enterable s k q ∧ (q.fo = true → q.stg ∉ taken) := by
  unfold State.copyRefusal at h
  dsimp only at h
  split at h
  · cases h
  · cases h
  · rename_i a b ha hb
    have hstage : (q.fo && (((mget (s.slice (sliceOf k)).stages q.stg).map (fun x => x.copy.isSome)).getD true || taken.contains q.stg)) = false := by
      by_contra hne
      rw [Bool.not_eq_false] at hne
      rw [hne] at h
      simp only [if_true] at h
      repeat' split at h
      all_goals cases h
    have hfree : q.fo = true → ((mget (s.slice (sliceOf k)).stages q.stg).map (fun x => x.copy.isSome)).getD true = false ∧ q.stg ∉ taken := by
      intro hfo
      simpa [hfo] using hstage
    refine ⟨⟨⟨a, ha⟩, ⟨b, hb⟩, fun hfo => ?_⟩, fun hfo => (hfree hfo).2⟩
    obtain ⟨hnone, -⟩ := hfree hfo
    cases hy : mget (s.slice (sliceOf k)).stages q.stg with
    | none => simp [hy] at hnone
    | some y => exact ⟨y, rfl, by simpa [hy] using hnone⟩

theorem Enterable.unbound (h : Enterable s k q) : s.stageBound k q = false := by
  unfold State.stageBound
  cases hfo : q.fo
  · rfl
  · obtain ⟨y, hy, hnone⟩ := h.stage hfo
    simp [hy, hnone]

-- One copy.
/-- The copy that a request describes, with its requests. -/
def copyFrom (s : State) (k : Nat) (q : CopyReq) (a b : List Word) : Copy :=
  let c := (fresh s).2.copyOf k s.nextId q a b
  { c with
    reqs := requestsOf c (sliceOf k) ((fresh s).2.mapNow c (sliceOf k))
    floor := ((fresh s).2.lane k).elim [] (fun l => (fresh s).2.floorOf k l []) }

theorem copying_copyFrom {a b : List Word} (ha : s.entryOf (s.taskNo k) q.stid = some a) (hb : s.entryOf (s.taskNo k) q.dtid = some b) :
    Copying s k q s.nextId (copyFrom s k q a b) where
  entries := ⟨ha, hb⟩
  is := ⟨rfl, rfl, rfl, rfl⟩
  box := rfl
  tile := rfl
  fresh := fun r hr => requestsOf_fresh _ _ _ r hr
  once := (requestsOf_lines ..) ▸ reqLines_nodup ..
  lines := fun hdense hchip _ _ hi hj => requestsOf_elem hdense hchip hi hj

/-- A copy is in its slot, and has bound its staging slot. -/
def bindCopy (s : State) (k : Nat) (q : CopyReq) (c : Copy) (x : Slice) : Slice := { x with
  copies := x.copies ++ [c]
  stages := if q.fo then mmod x.stages q.stg (fun y => { y with copy := some s.nextId, gates := (fresh s).2.copiesOf (waveOf k) })
    else x.stages }
def intoSlot (s : State) (k : Nat) (q : CopyReq) (c : Copy) : State :=
  ((fresh s).2.modSlice (sliceOf k) (bindCopy s k q c)).modWave (waveOf k) (fun v => { v with copies := v.copies ++ [s.nextId] })
/-- It has joined the open set too; it has not landed yet, even if it has no requests. -/
def withCopy (s : State) (k : Nat) (q : CopyReq) (c : Copy) : State :=
  if q.nb then intoSlot s k q c else (intoSlot s k q c).modLane k (fun l => { l with openSet := l.openSet ++ [s.nextId] })

theorem startCopy_eq {a b : List Word} (ha : s.entryOf (s.taskNo k) q.stid = some a) (hb : s.entryOf (s.taskNo k) q.dtid = some b) :
    s.startCopy [k] k q = if (copyFrom s k q a b).reqs.isEmpty
      then (withCopy s k q (copyFrom s k q a b)).settleCopy (sliceOf k) s.nextId [] none else withCopy s k q (copyFrom s k q a b) := by
  unfold State.startCopy
  simp only [ha, hb]
  rfl

/-- What one copy that starts changes. -/
structure Started (s t : State) (k : Nat) (q : CopyReq) (c : Copy) : Prop where
  copying : Copying s k q s.nextId c
  same : t = { s with slices := t.slices, waves := t.waves, lanes := t.lanes, tasks := t.tasks, reels := t.reels, landed := t.landed,
                      nextId := s.nextId + 1 }
  lane : ∀ l, s.lane k = some l → t.lane k = some { l with openSet := if q.nb then l.openSet else l.openSet ++ [s.nextId] }
  taskNo : t.taskNo k = s.taskNo k
  entry : ∀ tid, t.entryOf (t.taskNo k) tid = s.entryOf (s.taskNo k) tid
  slot : c.reqs ≠ [] → (t.slice (sliceOf k)).copies = (s.slice (sliceOf k)).copies ++ [c] ∧ t.tasks = s.tasks
  kept : ∀ d, d ∈ (s.slice (sliceOf k)).copies → d.id ≠ s.nextId → d ∈ (t.slice (sliceOf k)).copies
  cycle : (t.slice (sliceOf k)).cycle = (s.slice (sliceOf k)).cycle
  stages : ∃ g, (t.slice (sliceOf k)).stages = if q.fo then
    mmod (s.slice (sliceOf k)).stages q.stg (fun y => { y with copy := some s.nextId, gates := g }) else (s.slice (sliceOf k)).stages

theorem taskNo_modWave {g : Wave → Wave} (hg : ∀ v, (g v).task = v.task) (s : State) (w j : Nat) : (s.modWave w g).taskNo j = s.taskNo j := by
  simp only [State.taskNo, wave_modWave]
  split
  · rename_i e
    cases h : s.wave w <;> simp [e, h, hg]
  · rfl

theorem modLane_same (s : State) (k : Nat) (g : Lane → Lane) : s.modLane k g = { s with lanes := (s.modLane k g).lanes } := by
  unfold State.modLane
  split <;> rfl

theorem withCopy_same (s : State) (k : Nat) (q : CopyReq) (c : Copy) :
    withCopy s k q c = { intoSlot s k q c with lanes := (withCopy s k q c).lanes } := by
  unfold withCopy
  split
  · rfl
  · exact modLane_same ..

theorem slice_withCopy (s : State) (k : Nat) (q : CopyReq) (c : Copy) :
    (withCopy s k q c).slice (sliceOf k) = bindCopy s k q c (s.slice (sliceOf k)) := by
  rw [withCopy_same]
  exact slice_modSlice_self (fresh s).2 (sliceOf k) (bindCopy s k q c)

theorem lane_withCopy (hl : s.lane k = some l) (q : CopyReq) (c : Copy) :
    (withCopy s k q c).lane k = some { l with openSet := if q.nb then l.openSet else l.openSet ++ [s.nextId] } := by
  unfold withCopy
  split
  · rename_i hnb
    exact hl
  · rename_i hnb
    rw [lane_modLane_self, show (intoSlot s k q c).lane k = s.lane k from rfl, hl, Option.map_some]

theorem taskNo_withCopy (s : State) (k : Nat) (q : CopyReq) (c : Copy) : (withCopy s k q c).taskNo k = s.taskNo k := by
  rw [withCopy_same]
  exact taskNo_modWave (g := fun v => { v with copies := v.copies ++ [s.nextId] }) (fun _ => rfl) ..

theorem started_withCopy (h : Copying s k q s.nextId c) : Started s (withCopy s k q c) k q c where
  copying := h
  same := by rw [withCopy_same]; rfl
  lane := fun l hl => lane_withCopy hl q c
  taskNo := taskNo_withCopy ..
  entry := fun tid => by
    rw [taskNo_withCopy]
    exact entryOf_congr (by rw [withCopy_same]; rfl) (by rw [withCopy_same]; rfl) ..
  slot := fun _ => ⟨by rw [slice_withCopy]; rfl, by rw [withCopy_same]; rfl⟩
  kept := fun d hd _ => by
    rw [slice_withCopy]
    exact List.mem_append_left _ hd
  cycle := by rw [slice_withCopy]; rfl
  stages := ⟨_, by rw [slice_withCopy]; rfl⟩

-- A copy without requests lands at once.
/-- What landing one copy leaves as it is: the other copies, and the staging slots. -/
structure Spares (x id : Nat) (s t : State) : Prop where
  others : ∀ d, d ∈ (s.slice x).copies → d.id ≠ id → d ∈ (t.slice x).copies
  stages : (t.slice x).stages = (s.slice x).stages
  cycle : (t.slice x).cycle = (s.slice x).cycle

theorem Spares.refl (x id : Nat) (s : State) : Spares x id s s := ⟨fun _ hd _ => hd, rfl, rfl⟩
theorem Spares.trans {x id : Nat} (h : Spares x id s t) (g : Spares x id t u) : Spares x id s u :=
  ⟨fun d hd hne => g.others d (h.others d hd hne) hne, g.stages.trans h.stages, g.cycle.trans h.cycle⟩

theorem spares_modCopy (s : State) (x id : Nat) (f : Copy → Copy) : Spares x id s (s.modCopy x id f) := by
  unfold State.modCopy
  refine ⟨fun d hd hne => ?_, by rw [slice_modSlice_self], by rw [slice_modSlice_self]⟩
  rw [slice_modSlice_self]
  exact List.mem_map.2 ⟨d, hd, if_neg hne⟩

/-- A copy has left its slot. -/
def dropCopy (id : Nat) (x : Slice) : Slice := { x with copies := x.copies.filter (fun y => y.id != id) }

theorem slice_landCopy (s : State) (x : Nat) (c : Copy) : (s.landCopy x c).slice x = dropCopy c.id (s.slice x) := by
  unfold State.landCopy
  split <;> exact slice_modSlice_self s x (dropCopy c.id)

theorem Spares.landed {x id : Nat} (h : Spares x id s t) {d : Copy} (hid : d.id = id) : Spares x id s (t.landCopy x d) := by
  refine h.trans ⟨fun e he hne => ?_, by rw [slice_landCopy]; rfl, by rw [slice_landCopy]; rfl⟩
  rw [slice_landCopy, hid]
  exact List.mem_filter.2 ⟨he, by simpa using hne⟩

theorem Spares.counted {x id : Nat} (h : Spares x id s t) (tn n m : Nat) (status : Option Nat) (pub : Map Nat) (by_ : Option Nat) :
    Spares x id s (t.countDown tn n m status pub by_) := ⟨h.others, h.stages, h.cycle⟩

theorem spares_settleCopy (s : State) (x id : Nat) (pub : Map Nat) (status : Option Nat) :
    Spares x id s (s.settleCopy x id pub status) := by
  unfold State.settleCopy
  split
  · exact .refl ..
  · rename_i c hc
    obtain rfl := copyAt_id hc
    dsimp only
    split
    · refine Spares.landed ?_ rfl
      split
      · exact (spares_modCopy ..).counted ..
      · exact spares_modCopy ..
    · split
      · exact (spares_modCopy ..).counted ..
      · exact spares_modCopy ..

/-- A change of a task that keeps its space and its tensors changes no entry (R208). -/
theorem entryOf_modTask {g : Task → Task} (hspace : ∀ x, (g x).space = x.space) (htens : ∀ x, (g x).tens = x.tens) (s : State) (tn j tid : Nat) :
    (s.modTask tn g).entryOf j tid = s.entryOf j tid := by
  by_cases e : j = tn
  · subst e
    cases hx : s.task j with
    | none => simp only [State.entryOf, task_modTask, if_true, hx, Option.map_none]
    | some x =>
      simp only [State.entryOf, task_modTask, if_true, hx, Option.map_some, hspace, htens]
      rfl
  · simp only [State.entryOf, task_modTask, e, if_false]
    rfl

theorem entryOf_countDown (s : State) (tn n m : Nat) (status : Option Nat) (pub : Map Nat) (by_ : Option Nat) (j tid : Nat) :
    (s.countDown tn n m status pub by_).entryOf j tid = s.entryOf j tid := by
  refine entryOf_modTask ?_ ?_ s tn j tid <;> exact fun _ => rfl

theorem entryOf_settleCopy (s : State) (x id : Nat) (pub : Map Nat) (status : Option Nat) (tn tid : Nat) :
    (s.settleCopy x id pub status).entryOf tn tid = s.entryOf tn tid := by
  have hland : ∀ (p : Prop) [Decidable p] (u : State) (d : Copy), (if p then u.landCopy x d else u).entryOf tn tid = u.entryOf tn tid := by
    intro p _ u d
    split
    · unfold State.landCopy
      split <;> rfl
    · rfl
  unfold State.settleCopy
  split
  · rfl
  · dsimp only
    rw [hland]
    split
    · exact entryOf_countDown (s.modCopy x id _) ..
    · rfl

theorem Started.settled (h : Started s t k q c) (hnone : c.reqs = []) : Started s (t.settleCopy (sliceOf k) s.nextId [] none) k q c := by
  have hsettles := settles_settleCopy t (sliceOf k) s.nextId [] none
  have hspares := spares_settleCopy t (sliceOf k) s.nextId [] none
  have htask : (t.settleCopy (sliceOf k) s.nextId [] none).taskNo k = t.taskNo k := by
    rw [hsettles.same]
    rfl
  exact {
    copying := h.copying
    same := by rw [hsettles.same, h.same]
    lane := fun l hl => (congrArg (mget · k) hsettles.lanes).trans (h.lane l hl)
    taskNo := htask.trans h.taskNo
    entry := fun tid => by rw [htask, entryOf_settleCopy]; exact h.entry tid
    slot := fun hne => absurd hnone hne
    kept := fun d hd hne => hspares.others d (h.kept d hd hne) hne
    cycle := hspares.cycle.trans h.cycle
    stages := by rw [hspares.stages]; exact h.stages }

theorem started_startCopy (h : Enterable s k q) : ∃ c, Started s (s.startCopy [k] k q) k q c := by
  obtain ⟨⟨a, ha⟩, ⟨b, hb⟩, -⟩ := h
  have hstarted := started_withCopy (copying_copyFrom ha hb)
  refine ⟨copyFrom s k q a b, ?_⟩
  rw [startCopy_eq ha hb]
  split
  · rename_i hnone
    exact hstarted.settled (List.isEmpty_iff.1 hnone)
  · exact hstarted

section started
variable (h : Started s t k q c)
include h
theorem Started.mem : t.mem = s.mem := by rw [h.same]
theorem Started.bad : t.bad = s.bad := by rw [h.same]
theorem Started.iss : t.iss = s.iss := by rw [h.same]
theorem Started.nextId : t.nextId = s.nextId + 1 := by rw [h.same]

theorem Started.bound (hfo : q.fo = true) (hs : Enterable s k q) :
    ∃ y, mget (t.slice (sliceOf k)).stages q.stg = some y ∧ y.copy = some s.nextId := by
  obtain ⟨g, hg⟩ := h.stages
  obtain ⟨y, hy, -⟩ := hs.stage hfo
  rw [hg, if_pos hfo, mget_mmod, if_pos rfl, hy]
  exact ⟨_, rfl, rfl⟩

/-- What was enterable stays so, unless it wants the same staging slot. -/
theorem Started.enterable {p : CopyReq} (hp : Enterable s k p) (hapart : q.fo = true → p.fo = true → q.stg ≠ p.stg) : Enterable t k p where
  src := by rw [h.entry]; exact hp.src
  dst := by rw [h.entry]; exact hp.dst
  stage := fun hfo => by
    obtain ⟨g, hg⟩ := h.stages
    rw [hg]
    split
    · rename_i hq
      rw [mget_mmod, if_neg (Ne.symm (hapart hq hfo))]
      exact hp.stage hfo
    · exact hp.stage hfo

theorem Started.copying_of {p : CopyReq} {id : Nat} (hp : Copying t k p id d) : Copying s k p id d where
  entries := by
    have := hp.entries
    rwa [h.entry, h.entry] at this
  is := by
    have := hp.is
    rwa [h.taskNo] at this
  box := hp.box
  tile := hp.tile
  fresh := hp.fresh
  once := hp.once
  lines := hp.lines
end started

-- A list of copies (R236).
/-- The copies of a list that join the open set. -/
def opened (n : Nat) (qs : List CopyReq) : List Nat := (qs.zipIdx.filter (fun p => !p.1.nb)).map (fun p => n + p.2)

theorem opened_cons (n : Nat) (q : CopyReq) (r : List CopyReq) : opened n (q :: r) = (if q.nb then [] else [n]) ++ opened (n + 1) r := by
  have hshift : ((r.zipIdx 1).filter (fun p => !p.1.nb)).map (fun p => n + p.2) = opened (n + 1) r := by
    unfold opened
    rw [List.zipIdx_succ, List.filter_map, List.map_map]
    exact List.map_congr_left fun p _ => by simp only [Function.comp_apply]; omega
  rw [← hshift]
  unfold opened
  rw [List.zipIdx_cons, List.filter_cons]
  cases q.nb <;> simp

/-- What a list of copies that start changes, as far as the slots go. -/
structure AllStarted (s t : State) (k f : Nat) (l : Lane) (qs : List CopyReq) : Prop where
  mem : t.mem = s.mem
  bad : t.bad = s.bad
  iss : t.iss = s.iss
  lane : t.lane k = some { l with openSet := l.openSet ++ opened s.nextId (qs.take f) }
  kept : ∀ d, d ∈ (s.slice (sliceOf k)).copies → d.id < s.nextId → d ∈ (t.slice (sliceOf k)).copies
  each : ∀ j q, j < f → qs[j]? = some q → ∃ c, Copying s k q (s.nextId + j) c ∧ (c.reqs ≠ [] → c ∈ (t.slice (sliceOf k)).copies)

theorem startCopies_spec (qs : List CopyReq) (f : Nat) (s : State) (l : Lane) (hl : s.lane k = some l)
    (hs : ∀ q, q ∈ qs → Enterable s k q) (hapart : qs.Pairwise (fun p q => p.fo = true → q.fo = true → p.stg ≠ q.stg)) :
    ∃ t, s.startCopies [k] k f qs = (qs.drop f, t) ∧ AllStarted s t k f l qs := by
  induction qs generalizing f s l with
  | nil =>
    refine ⟨s, by simp [State.startCopies], rfl, rfl, rfl, ?_, fun _ hd _ => hd, fun _ _ _ h => by simp at h⟩
    simpa [opened] using hl
  | cons q r ih =>
    cases f with
    | zero =>
      refine ⟨s, rfl, rfl, rfl, rfl, ?_, fun _ hd _ => hd, fun j _ hj _ => absurd hj (Nat.not_lt_zero j)⟩
      simpa [opened] using hl
    | succ f =>
      have hq := hs q List.mem_cons_self
      obtain ⟨happly, hrest⟩ := List.pairwise_cons.1 hapart
      obtain ⟨c, hc⟩ := started_startCopy hq
      obtain ⟨t, ht, hall⟩ := ih f (s.startCopy [k] k q) _ (hc.lane l hl)
        (fun p hp => hc.enterable (hs p (List.mem_cons_of_mem _ hp)) (happly p hp)) hrest
      refine ⟨t, ?_, hall.mem.trans hc.mem, hall.bad.trans hc.bad, hall.iss.trans hc.iss, ?_, fun d hd hlt => ?_, fun j p hj hp => ?_⟩
      · simp only [State.startCopies, hq.unbound, Bool.false_eq_true, if_false, ht, List.drop_succ_cons]
      · rw [hall.lane, hc.nextId, List.take_succ_cons, opened_cons]
        cases q.nb <;> simp
      · exact hall.kept d (hc.kept d hd (by omega)) (by rw [hc.nextId]; omega)
      · cases j with
        | zero =>
          obtain rfl : q = p := by simpa using hp
          refine ⟨c, hc.copying, fun hne => hall.kept c ?_ ?_⟩
          · rw [(hc.slot hne).1]
            exact List.mem_append_right _ List.mem_cons_self
          · rw [hc.nextId, hc.copying.is.1]
            omega
        | succ j =>
          obtain ⟨d, hd, hslot⟩ := hall.each j p (by omega) (by simpa using hp)
          refine ⟨d, hc.copying_of ?_, hslot⟩
          rw [show s.nextId + (j + 1) = (s.startCopy [k] k q).nextId + j by rw [hc.nextId]; omega]
          exact hd

end Sys2Proof.Copies
end

section
/-! PROOFS. `cpy` and `cpyl` of a lane alone, and slots that fall free (R226, R227, R233, R236). -/

namespace Sys2Proof.Copies

open Sys2Proof Sys2Proof.Machine Sys2Proof.Claims Sys2Proof.Numbers Sys2Proof.Accesses Sys2Proof.Tensors Sys2Proof.Tasks

variable {s t u : State} {i : Instr} {c : Copy} {q : CopyReq} {k f n slice : Nat} {l m : Lane}

-- Two more ends of an instruction of a lane alone (R48).
/-- An elected instruction waits, from the state that its command has made. -/
theorem exec_of_elected_wait {body : State → List Nat → Nat → List Entry → State × EOut} {w : Wait} (h : Alone s i k l)
    (hb : body s [k] k (l.ops i) = (u, .hold w)) (ha : w.apart = false) (hu : Begun u) (hm : u.lane k = some m) :
    finish (runElected i body s) = .next (u.setLane k { holding s i m w with
      next := if w.issued then u.issueCycle + 1 + (if m.ilk = .lock then 0 else (shapeOf i).stall) else m.next }).bump := by
  rw [runElected_of_hold h hb, holdLane_of hm ha, settled_of_prompt (by exact hu.late), finish_of_sound (by exact hu.bad)]

/-- An elected instruction that has issued waits, and nothing else has changed. -/
theorem exec_of_elected_issued {body : State → List Nat → Nat → List Entry → State × EOut} {w : Wait} (h : Alone s i k l)
    (hb : body s [k] k (l.ops i) = (s, .hold w)) (ha : w.apart = false) (hi : w.issued = true) :
    finish (runElected i body s) = .next (s.setLane k (issued s i l w)).bump := by
  rw [exec_of_elected_wait h hb ha h.sound h.ready.here, hi]
  rfl

/-- A lane that waited completes. -/
theorem passOn_of_lane (i : Instr) (hl : s.lane k = some l) : ∃ d n, s.passOn k i = ({ s with free := n } : State).setLane k
    { l.after i (s.cycle (sliceOf k)) d [] none with next := Nat.max l.next (s.cycle (sliceOf k) + 1) } := by
  obtain ⟨d, n, hd⟩ := retire_of_lane (i := i) (s.cycle (sliceOf k)) [] none hl
  refine ⟨d, n, ?_⟩
  unfold State.passOn
  rw [hd, modLane_of _ (lane_setLane_self ..), setLane_setLane, hl]
  rfl

-- Slots (R227).
theorem takeSlots_waits (h : s.copyWaiters (sliceOf k) ≠ [] ∨ 48 ≤ (s.slice (sliceOf k)).copies.length) (i : Instr) (qs : List CopyReq) :
    s.takeSlots i [k] k qs = (s, .hold (.copySlot i qs false)) := by
  have hcond : (!(s.copyWaiters (sliceOf k)).isEmpty || decide (s.slotsFree (sliceOf k) = 0)) = true := by
    rcases h with h | h
    · simp [h]
    · simp [State.slotsFree, Nat.sub_eq_zero_of_le h]
  unfold State.takeSlots
  rw [if_pos hcond]

/-- The strand goes on, or waits with what is left of its list. -/
def slotsOut (i : Instr) : List CopyReq → EOut
  | [] => .all []
  | q :: r => .hold (.copySlot i (q :: r) true)

theorem takeSlots_open (hnone : s.copyWaiters (sliceOf k) = []) (hfree : 0 < s.slotsFree (sliceOf k)) (i : Instr) {qs r : List CopyReq}
    (hr : s.startCopies [k] k (s.slotsFree (sliceOf k)) qs = (r, t)) : s.takeSlots i [k] k qs = (t, slotsOut i r) := by
  unfold State.takeSlots
  rw [if_neg (by simp [hnone, Nat.pos_iff_ne_zero.1 hfree]), hr]
  cases r <;> rfl

theorem slotsFree_pos (h : (s.slice slice).copies.length < 48) : 0 < s.slotsFree slice := Nat.sub_pos_of_lt h

/-- A list of one copy takes one slot. -/
theorem startCopies_one (h : Enterable s k q) (hf : 0 < f) : s.startCopies [k] k f [q] = ([], s.startCopy [k] k q) := by
  obtain ⟨f, rfl⟩ := Nat.exists_eq_succ_of_ne_zero (Nat.pos_iff_ne_zero.1 hf)
  simp [State.startCopies, h.unbound]

-- `cpy`.
/-- What `cpy` does for its strand. -/
def cpyBody (w : StallL) (fo nb : Bool) (stg : BitVec 2) (stid dtid : BitVec 8) (s : State) (ks : List Nat) (e : Nat) (ops : List Entry) :
    State × EOut :=
  let v (n : Nat) : Nat := (ops.getD n {}).val.toNat
  let q : CopyReq := { srow := v 4, scol := v 3, drow := v 2, dcol := v 1, ctr := v 0, stid := stid.toNat
                       dtid := dtid.toNat, fo := fo, stg := stg.toNat, nb := nb }
  match s.copyRefusal e 0 q false [] with
  | some c => (s, .refuse c)
  | none =>
    match s.copyHolds e q with
    | some tid => (s, .hold (.tensor tid))
    | none => s.takeSlots (.cpy w fo stg nb stid dtid) ks e [q]

theorem exec_cpy_eq (w : StallL) (fo nb : Bool) (stg : BitVec 2) (stid dtid : BitVec 8) (s : State) :
    exec (.cpy w fo stg nb stid dtid) s = finish (runElected (.cpy w fo stg nb stid dtid) (cpyBody w fo nb stg stid dtid) s) := rfl

section cpy
variable {w : StallL} {fo nb : Bool} {stg : BitVec 2} {stid dtid : BitVec 8} (h : Alone s (.cpy w fo stg nb stid dtid) k l)
  (hunrefused : s.copyRefusal k 0 (cpyRequest l w fo stg nb stid dtid) false [] = none)
  (hopen : s.copyHolds k (cpyRequest l w fo stg nb stid dtid) = none)
include h hunrefused hopen

omit h in
theorem cpyBody_takes : cpyBody w fo nb stg stid dtid s [k] k (l.ops (.cpy w fo stg nb stid dtid)) =
    s.takeSlots (.cpy w fo stg nb stid dtid) [k] k [cpyRequest l w fo stg nb stid dtid] := by
  unfold cpyRequest at hunrefused hopen ⊢
  simp only [cpyBody, ops_getD_val, hunrefused, hopen]

theorem exec_cpy_starts (hnone : s.copyWaiters (sliceOf k) = []) (hroom : (s.slice (sliceOf k)).copies.length < 48) :
    ∃ u t c, exec (.cpy w fo stg nb stid dtid) s = .next t ∧ Completes s u t (.cpy w fo stg nb stid dtid) k [] none ∧
      Started s u k (cpyRequest l w fo stg nb stid dtid) c := by
  obtain ⟨henter, -⟩ := enterable_of_unrefused hunrefused
  obtain ⟨c, hc⟩ := started_startCopy henter
  have hbody : cpyBody w fo nb stg stid dtid s [k] k (l.ops (.cpy w fo stg nb stid dtid)) =
      (s.startCopy [k] k (cpyRequest l w fo stg nb stid dtid), .all []) := by
    rw [cpyBody_takes hunrefused hopen, takeSlots_open hnone (slotsFree_pos hroom) _ (startCopies_one henter (slotsFree_pos hroom))]
    rfl
  obtain ⟨t, ht, hdone⟩ := exec_of_all_alone h hbody ⟨hc.bad.trans h.sound.bad, hc.iss ▸ h.sound.late⟩ (hc.lane l h.ready.here)
  exact ⟨_, t, c, ht, hdone, hc⟩

theorem exec_cpy_waits (hfull : s.copyWaiters (sliceOf k) ≠ [] ∨ 48 ≤ (s.slice (sliceOf k)).copies.length) :
    exec (.cpy w fo stg nb stid dtid) s = .next (s.setLane k (issued s (.cpy w fo stg nb stid dtid) l
      (.copySlot (.cpy w fo stg nb stid dtid) [cpyRequest l w fo stg nb stid dtid] false))).bump := by
  rw [exec_cpy_eq]
  exact exec_of_elected_issued h ((cpyBody_takes hunrefused hopen).trans (takeSlots_waits hfull ..)) rfl rfl

end cpy

-- `cpyl` (R236).
/-- A lane has read: nothing else of it has changed. -/
structure Listened (s u : State) (k : Nat) (l : Lane) : Prop where
  iss : u.iss = s.iss
  lane : ∃ v, u.lane k = some { l with seen := v }

theorem listened_laneReadAt (hl : s.lane k = some l) (deps : List Nat) (fl : Map Nat) (must : WriteRec → Bool) (a n : Nat) :
    Listened s (s.laneReadAt k deps fl must a n).2 k l := by
  have htouch : (s.touch a).lane k = some l ∧ (s.touch a).iss = s.iss := by
    unfold State.touch
    split <;> exact ⟨hl, rfl⟩
  obtain ⟨n', hn⟩ := readVer_free (s.touch a) (viewJoin fl (s.floorOf k l deps)) must a n
  have hlane : ({ s.touch a with free := n' } : State).lane k = some l := htouch.1
  unfold State.laneReadAt
  simp only [hl]
  rw [hn, modLane_of _ hlane]
  exact ⟨htouch.2, _, lane_setLane_self ..⟩

theorem listened_engineRead (hl : s.lane k = some l) (addr : Word) (n : Nat) (deps : List Nat) :
    Listened s (engineRead s k addr n deps).2 k l := by
  have hacc := access_frame s k l .read true addr n
  have hiss : (s.access k l .read true addr n).2.iss = s.iss := by rw [hacc.same]
  have hlane : (s.access k l .read true addr n).2.lane k = some l := by rw [hacc.same]; exact hl
  unfold engineRead
  rw [hl]
  dsimp only
  split
  all_goals rename_i heq; rw [heq] at hiss hlane
  · exact ⟨hiss, l.seen, hlane⟩
  · exact ⟨hiss, l.seen, hlane⟩
  · exact ⟨hiss, l.seen, hlane⟩
  · obtain ⟨hread, hseen⟩ := listened_laneReadAt hlane deps [] _ _ n
    exact ⟨hread.trans hiss, hseen⟩

theorem listened_readList (addr : Word) (deps : List Nat) (n : Nat) (acc : List Byte) (s : State) (l : Lane) (hl : s.lane k = some l) :
    Listened s (readList s k addr deps n acc).2 k l := by
  induction n generalizing acc s l with
  | zero => exact ⟨rfl, _, hl⟩
  | succ n ih =>
    have hread := listened_engineRead hl (addr + BitVec.ofNat 64 acc.length) 64 deps
    unfold readList
    split
    · rename_i heq
      rwa [heq] at hread
    · rename_i b s1 heq
      rw [heq] at hread
      obtain ⟨v, hv⟩ := hread.lane
      have hrest := ih (acc ++ b) s1 _ hv
      exact ⟨hrest.iss.trans hread.iss, hrest.lane⟩

theorem enterable_of_listed (qs : List (CopyReq × Bool)) (index : Nat) (taken : List Nat) (h : s.listRefusal k index taken qs = none) :
    (∀ p, p ∈ qs → Enterable s k p.1 ∧ (p.1.fo = true → p.1.stg ∉ taken)) ∧
    (qs.map (·.1)).Pairwise (fun p q => p.fo = true → q.fo = true → p.stg ≠ q.stg) := by
  induction qs generalizing index taken with
  | nil => exact ⟨fun p hp => absurd hp List.not_mem_nil, List.Pairwise.nil⟩
  | cons p r ih =>
    unfold State.listRefusal at h
    split at h
    · cases h
    · rename_i hp
      obtain ⟨hall, hpairs⟩ := ih _ _ h
      have hkept : ∀ x, x ∈ taken → x ∈ (if p.1.fo then p.1.stg :: taken else taken) := by
        intro x hx
        split
        · exact List.mem_cons_of_mem _ hx
        · exact hx
      refine ⟨fun x hx => ?_, ?_⟩
      · rcases List.mem_cons.1 hx with rfl | hx
        · exact enterable_of_unrefused hp
        · exact ⟨(hall x hx).1, fun hfo htaken => (hall x hx).2 hfo (hkept _ htaken)⟩
      · rw [List.map_cons]
        refine List.pairwise_cons.2 ⟨fun x hx hfo hxfo heq => ?_, hpairs⟩
        obtain ⟨y, hy, rfl⟩ := List.mem_map.1 hx
        refine (hall y hy).2 hxfo ?_
        rw [if_pos hfo, ← heq]
        exact List.mem_cons_self

/-- What `cpyl` does for its strand. -/
def cpylBody (w : StallL) (s : State) (ks : List Nat) (e : Nat) (ops : List Entry) : State × EOut :=
  let n := (ops.getD 0 {}).val.toNat
  let a := ops.getD 1 {}
  if n = 0 || 64 < n then (s, .refuse (copyCause 8 0 0 0))
  else
    match readList s e a.val a.deps (ceilDiv n 2) [] with
    | (.inl o, s1) => (s1, o)
    | (.inr b, s1) =>
      let qs := (List.range n).map (fun j => listReq ((b.drop (32 * j)).take 32))
      match s1.listRefusal e 0 [] qs with
      | some c => (s1, .refuse c)
      | none =>
        match (qs.map (·.1)).findSome? (s1.copyHolds e) with
        | some tid => (s1, .hold (.tensor tid))
        | none => s1.takeSlots (.cpyl w) ks e (qs.map (·.1))

theorem exec_cpyl_eq (w : StallL) (s : State) : exec (.cpyl w) s = finish (runElected (.cpyl w) (cpylBody w) s) := rfl

/-- The requests of a list. -/
def listOf (n : Nat) (b : List Byte) : List (CopyReq × Bool) := (List.range n).map (fun j => listReq ((b.drop (32 * j)).take 32))

section cpyl
variable {w : StallL} {b : List Byte} (h : Alone s (.cpyl w) k l) (hn : n = (l.operand (.cpyl w) 0).toNat) (hpos : 0 < n) (hmax : n ≤ 64)
  (hread : readList s k (l.operand (.cpyl w) 1) ((l.ops (.cpyl w)).getD 1 {}).deps ((n + 1) / 2) [] = (.inr b, u)) (hbad : u.bad = none)
  (hunrefused : u.listRefusal k 0 [] (listOf n b) = none) (hopen : ((listOf n b).map (·.1)).findSome? (u.copyHolds k) = none)
  (hnone : u.copyWaiters (sliceOf k) = []) (hroom : 0 < u.slotsFree (sliceOf k))
include h hn hpos hmax hread hbad hunrefused hopen hnone hroom

/-- The copies of a list start as far as the slots go. -/
theorem cpyl_starts : ∃ v r, Begun r ∧ AllStarted u r k (u.slotsFree (sliceOf k)) { l with seen := v } ((listOf n b).map (·.1)) ∧
    cpylBody w s [k] k (l.ops (.cpyl w)) = (r, slotsOut (.cpyl w) (((listOf n b).map (·.1)).drop (u.slotsFree (sliceOf k)))) := by
  have hlistened : Listened s u k l := by
    have := listened_readList (k := k) (l.operand (.cpyl w) 1) ((l.ops (.cpyl w)).getD 1 {}).deps ((n + 1) / 2) [] s l h.ready.here
    rwa [hread] at this
  obtain ⟨v, hv⟩ := hlistened.lane
  obtain ⟨henter, hapart⟩ := enterable_of_listed _ _ _ hunrefused
  obtain ⟨r, hr, hall⟩ := startCopies_spec ((listOf n b).map (·.1)) (u.slotsFree (sliceOf k)) u _ hv
    (fun q hq => by
      obtain ⟨p, hp, rfl⟩ := List.mem_map.1 hq
      exact (henter p hp).1) hapart
  have hbegun : Begun r := ⟨hall.bad.trans hbad, by rw [hall.iss, hlistened.iss]; exact h.sound.late⟩
  refine ⟨v, r, hbegun, hall, ?_⟩
  have hcount : (n = 0 || 64 < n) = false := by simp [Nat.pos_iff_ne_zero.1 hpos, hmax]
  have hlines : ceilDiv n 2 = (n + 1) / 2 := rfl
  have htake := takeSlots_open hnone hroom (.cpyl w) hr
  unfold listOf at hunrefused hopen htake ⊢
  simp only [cpylBody, ops_getD_val, ← hn, hcount, Bool.false_eq_true, if_false, hlines, hread, hunrefused, hopen, htake]

/-- With slots for all of them, the strand goes on. -/
theorem exec_cpyl_all (hfits : n ≤ u.slotsFree (sliceOf k)) : ∃ v r t, exec (.cpyl w) s = .next t ∧ Completes s r t (.cpyl w) k [] none ∧
    AllStarted u r k (u.slotsFree (sliceOf k)) { l with seen := v } ((listOf n b).map (·.1)) := by
  obtain ⟨v, r, hbegun, hall, hbody⟩ := cpyl_starts h hn hpos hmax hread hbad hunrefused hopen hnone hroom
  rw [List.drop_of_length_le (by simpa [listOf] using hfits)] at hbody
  rw [exec_cpyl_eq]
  obtain ⟨t, ht, hdone⟩ := exec_of_all_alone h hbody hbegun hall.lane
  exact ⟨v, r, t, ht, hdone, hall⟩

/-- Without, it waits for the rest. -/
theorem exec_cpyl_some (hfull : u.slotsFree (sliceOf k) < n) : ∃ v r m,
    exec (.cpyl w) s = .next (r.setLane k m).bump ∧ m.pc = l.pc ∧
    m.wait = .copySlot (.cpyl w) (((listOf n b).map (·.1)).drop (u.slotsFree (sliceOf k))) true ∧
    AllStarted u r k (u.slotsFree (sliceOf k)) { l with seen := v } ((listOf n b).map (·.1)) := by
  obtain ⟨v, r, hbegun, hall, hbody⟩ := cpyl_starts h hn hpos hmax hread hbad hunrefused hopen hnone hroom
  obtain ⟨p, x, hdrop⟩ : ∃ p x, ((listOf n b).map (·.1)).drop (u.slotsFree (sliceOf k)) = p :: x :=
    List.exists_cons_of_ne_nil (by rw [ne_eq, List.drop_eq_nil_iff]; simpa [listOf] using hfull)
  rw [hdrop] at hbody
  rw [exec_cpyl_eq]
  exact ⟨v, r, _, exec_of_elected_wait h hbody rfl hbegun hall.lane, rfl, by rw [hdrop]; rfl, hall⟩

end cpyl

-- A slot falls free (R227).
theorem listRefusal_one (s : State) (k : Nat) (q : CopyReq) : s.listRefusal k 0 [] [(q, false)] = s.copyRefusal k 0 q false [] := by
  unfold State.listRefusal
  cases s.copyRefusal k 0 q false [] <;> rfl

section grant
variable {begun : Bool} (hbad : s.bad = none) (hwait : s.copyWaiters slice = [(k, l)]) (hw : l.wait = .copySlot i [q] begun)
  (hroom : (s.slice slice).copies.length < 48)
include hbad hwait hw hroom

omit hbad hw hroom in
theorem sliceOf_waiter : sliceOf k = slice := by
  have hmem : (k, l) ∈ s.copyWaiters slice := by rw [hwait]; exact List.mem_cons_self
  have := (List.mem_filter.1 hmem).2
  simp only [Bool.and_eq_true, beq_iff_eq] at this
  exact this.1

omit hbad in
theorem exec_grant_of (hgo : (if begun then none else s.copyRefusal k 0 q false []) = none)
    (hstart : s.startCopies [k] k (s.slotsFree slice) [q] = ([], u)) : exec (.copySlotGrant slice) s = finish (u.passOn k i) := by
  have hopen := Nat.pos_iff_ne_zero.1 (slotsFree_pos hroom)
  rw [exec_copySlotGrant]
  simp only [execCopySlotGrant, hwait, oldest, List.map_cons, List.map_nil, List.filter_cons, List.filter_nil, beq_self_eq_true, if_true,
    List.find?_cons, Option.bind_some, hw, Wait.copyOf, hopen, if_false, listRefusal_one, hgo, hstart, List.foldl_cons, List.foldl_nil]

/-- The copy of the strand that has waited longest takes the slot, and the strand goes on. -/
theorem exec_grant_starts (hl : s.lane k = some l) (hunrefused : s.copyRefusal k 0 q false [] = none) :
    ∃ u d n c, Started s u k q c ∧ exec (.copySlotGrant slice) s = .next (({ u with free := n } : State).setLane k
      { ({ l with openSet := if q.nb then l.openSet else l.openSet ++ [s.nextId] } : Lane).after i (s.cycle slice) d [] none with
        next := Nat.max l.next (s.cycle slice + 1) }) := by
  obtain rfl := sliceOf_waiter hwait
  obtain ⟨henter, -⟩ := enterable_of_unrefused hunrefused
  obtain ⟨c, hc⟩ := started_startCopy henter
  obtain ⟨d, n, hpass⟩ := passOn_of_lane i (hc.lane l hl)
  have hcycle : (s.startCopy [k] k q).cycle (sliceOf k) = s.cycle (sliceOf k) := hc.cycle
  have hgo : (if begun then none else s.copyRefusal k 0 q false []) = none := by rw [hunrefused, ite_self]
  refine ⟨_, d, n, c, hc, ?_⟩
  rw [exec_grant_of hwait hw hroom hgo (startCopies_one henter (slotsFree_pos hroom)), hpass, hcycle]
  exact finish_of_sound (hc.bad.trans hbad)

omit hbad in
/-- A strand of which no copy has started may be refused now. -/
theorem exec_grant_refused {c : Cause} (hnew : begun = false) (hrefused : s.copyRefusal k 0 q false [] = some c) :
    exec (.copySlotGrant slice) s = finish (s.enterTrap k c) := by
  have hopen := Nat.pos_iff_ne_zero.1 (slotsFree_pos hroom)
  rw [exec_copySlotGrant]
  simp only [execCopySlotGrant, hwait, oldest, List.map_cons, List.map_nil, List.filter_cons, List.filter_nil, beq_self_eq_true, if_true,
    List.find?_cons, Option.bind_some, hw, Wait.copyOf, hopen, if_false, listRefusal_one, hnew, Bool.false_eq_true, hrefused,
    List.foldl_cons, List.foldl_nil]

end grant

end Sys2Proof.Copies
end

section
/-! PROOFS. Copies, from end to end (R227, R228, R233 to R237). -/

namespace Sys2Proof.Copies

open Sys2Proof Sys2Proof.Machine Sys2Proof.Claims Sys2Proof.Numbers Sys2Proof.Tensors

/-- Settles O45: what one copy that starts changes, what a list of them changes, and for a request what its reads leave alone and what each
of its three ends does. -/
theorem copiesComplete : Obligations.CopiesComplete := by
  unfold Obligations.CopiesComplete
  refine ⟨?cpy, ?cpyl, ?grant, ?issue, ?complete⟩
  case cpy =>
    rintro w fo nb stg stid dtid s k l i q rfl h rfl hunrefused hopen
    refine ⟨fun hnone hroom => ?_, exec_cpy_waits h hunrefused hopen⟩
    obtain ⟨u, t, c, ht, hdone, hc⟩ := exec_cpy_starts h hunrefused hopen hnone hroom
    exact ⟨u, t, c, ht, hdone, hc.copying, hc.mem, hc.slot, fun hfo => hc.bound hfo (enterable_of_unrefused hunrefused).1,
      hc.lane l h.ready.here⟩
  case cpyl =>
    rintro w s u k n f l b qs h hn hpos hmax hread hbad rfl hunrefused hopen hnone rfl hroom
    have hqs : (List.range n).map (fun j => (listReq ((b.drop (32 * j)).take 32)).1) = (listOf n b).map (·.1) := by
      rw [listOf, List.map_map]
      rfl
    rw [hqs] at hopen ⊢
    rcases Nat.lt_or_ge (u.slotsFree (sliceOf k)) n with hfull | hfits
    · obtain ⟨v, r, m, ht, hpc, hwait, hall⟩ := exec_cpyl_some h hn hpos hmax hread hbad hunrefused hopen hnone hroom hfull
      exact ⟨_, ht, hall.mem, hall.each, fun hfits => absurd hfull (Nat.not_lt.2 hfits), fun _ => ⟨m, lane_setLane_self .., hpc, hwait⟩⟩
    · obtain ⟨v, r, t, ht, hdone, hall⟩ := exec_cpyl_all h hn hpos hmax hread hbad hunrefused hopen hnone hroom hfits
      have hslice : t.slice (sliceOf k) = r.slice (sliceOf k) := by
        obtain ⟨m, d, n, -, rfl⟩ := hdone
        rfl
      refine ⟨t, ht, (completes_mem hdone).trans hall.mem, fun j q hj hq => ?_, fun _ => ⟨r, _, hdone, hall.lane, ?_⟩,
        fun hfull => absurd hfull (Nat.not_lt.2 hfits)⟩
      · rw [hslice]
        exact hall.each j q hj hq
      · rw [List.take_of_length_le (by simpa [listOf] using hfits)]
        rfl
  case grant =>
    rintro slice k s l i q begun hbad hwait hl hw hroom
    refine ⟨fun hunrefused => ?_, fun c hnew hrefused => exec_grant_refused hwait hw hroom hnew hrefused⟩
    obtain ⟨u, d, n, c, hc, ht⟩ := exec_grant_starts hbad hwait hw hroom hl hunrefused
    obtain rfl := sliceOf_waiter hwait
    have hrest := after_rest ({ l with openSet := if q.nb then l.openSet else l.openSet ++ [s.nextId] } : Lane) i (s.cycle (sliceOf k)) d [] none
    exact ⟨_, _, c, ht, lane_setLane_self .., rfl, congrArg Lane.pc hrest, rfl, congrArg Lane.openSet hrest, hc.mem, hc.copying,
      fun hne => (hc.slot hne).1⟩
  case issue =>
    rintro slice id req s c q hbad hc hq hfresh
    refine ⟨exec_issue_stopped hc hq, fun hheld hmay hturn => ?_⟩
    obtain ⟨t, ht, hspec⟩ := exec_issue_of hbad hc hq hfresh hheld hmay hturn
    obtain rfl := copyAt_id hc
    obtain rfl := req_id hq
    obtain ⟨c', q', hc', hq', hissued, hundone⟩ := hspec.copy
    exact ⟨t, c', q', ht, hspec.mem, hspec.lanes, hspec.tasks, hc', hq', hissued, hundone, hspec.outcome⟩
  case complete =>
    rintro slice id req s u c q x hbad hc hq hissued hundone hparked htry
    have hread : Read s u := by
      have := read_tryReq s c slice q
      rwa [htry] at this
    obtain rfl := copyAt_id hc
    obtain rfl := req_id hq
    refine ⟨_, exec_complete hbad hc hq hissued hundone hparked htry, ?park, fun hflash => ⟨?fail, ?write⟩, ?element, ?last⟩
    case park =>
      intro va r lv kind hout
      have hparks := parks_parkReq u c slice q.id va r lv kind
      rw [hout]
      refine ⟨hparks.mem.trans hread.mem, hparks.tasks.trans hread.tasks, fun hroom => parkReq_parked (c := c) ?_ ..⟩
      rwa [HasRoom, hread.replay, hread.held]
    case fail =>
      intro r hout
      rw [hout, completeReq_fail_mem hflash, hread.mem]
    case write =>
      intro ws bad hout
      rw [hout, completeReq_write_mem hflash, hread.mem]
    case element =>
      intro hfrom hto hdense hplain _ hfmt hwhole hrows hcols hkind hline hbroken hsettled
      have hone : OneElement c := ⟨hfrom, hto, hdense, hplain, hfmt, hwhole, hrows, hcols⟩
      have hwritten := hone.written hbroken hsettled hkind hline x.moved
      rwa [htry] at hwritten
    case last =>
      intro n tn y hpark hlast hctr htask hpacket hy
      obtain ⟨b, hb⟩ := hread.copyAt hc
      have hy' : u.task tn = some y := by rw [State.task, hread.tasks]; exact hy
      obtain ⟨status, hstatus, hlands⟩ := completeReq_lands (c := { c with blocks := b }) hb hlast hctr htask hpacket hy' c rfl hpark x.moved
      obtain ⟨⟨z, hz, hfailed⟩, hgone, hcounter⟩ := hlands
      exact ⟨⟨z, hz, fun r hr => hfailed (hstatus ⟨r, hr⟩)⟩, hgone, hcounter⟩

end Sys2Proof.Copies
end

section
/-! PROOFS. `mm`, `mms`, `mmstage` and `mmflag` of a lane alone, and the grants of queue and gate entries (R266, R271, R275 to R277). -/

namespace Sys2Proof.Matrix

open Sys2Proof Sys2Proof.Machine Sys2Proof.Claims Sys2Proof.Numbers Sys2Proof.Accesses Sys2Proof.Tensors Sys2Proof.Copies

variable {s s1 t u : State} {i : Instr} {k n slice : Nat} {l : Lane} {a b g : Geom} {sparse acc fo : Bool} {c : MCmd} {x : Task}

-- The command that a strand describes.
theorem makeCmd_describes (hl : s.lane k = some l) (tag : Nat) :
    describes s i k l sparse acc tag a b (s.makeCmd k sparse acc tag (l.ops i) a b).1 := by
  simp only [describes, State.makeCmd, mOperands, ops_getD_val, hl, Option.map_some, Option.getD_some, fresh, and_self]

/-- The operands of a command have entries that fit, and nothing that is under way holds it (R224, R274, R278). -/
structure Issuable (s : State) (i : Instr) (k : Nat) (l : Lane) (staged : Bool) (a b g : Geom) : Prop where
  entries : s.mEntries (s.taskNo k) (mOperands i l).1 (mOperands i l).2.1 (mOperands i l).2.2.1 (mOperands i l).2.2.2 = .inr (a, b, g)
  open_ : s.mHolds k (mOperands i l).1 (mOperands i l).2.1 (mOperands i l).2.2.1 staged = none

/-- The queue entry or gate entry that a command takes. -/
def entryFor (s : State) (k : Nat) (fo : Bool) (c : MCmd) : MCmd := if fo then { c with gates := s.copiesOf (waveOf k) } else c
/-- It has taken it. -/
def withEntry (s : State) (k : Nat) (fo : Bool) (c : MCmd) : State :=
  ({ s with nextId := s.nextId + 1 } : State).enterCmd k fo c

theorem slice_withEntry (s : State) (k : Nat) (fo : Bool) (c : MCmd) : (withEntry s k fo c).slice (sliceOf k) =
    if fo then { s.slice (sliceOf k) with gates := (s.slice (sliceOf k)).gates ++ [entryFor s k fo c] }
    else { s.slice (sliceOf k) with mq := (s.slice (sliceOf k)).mq ++ [entryFor s k fo c] } := by
  unfold withEntry State.enterCmd
  rw [slice_modSlice_self]
  cases fo <;> rfl

-- `mm` and `mms` (R271).
/-- What `mm` and `mms` do for their strand. -/
def mmBody (i : Instr) (sparse acc fo : Bool) (tag : BitVec 3) (granted : Bool) (s : State) (_ : List Nat) (e : Nat) (ops : List Entry) :
    State × EOut :=
  let v (n : Nat) : Nat := (ops.getD n {}).val.toNat
  match s.mEntries (s.taskNo e) (v 3) (v 2) (v 1) (v 0) with
  | .inl c => (s, .refuse c)
  | .inr (a, b, _) =>
    match s.mHolds e (v 3) (v 2) (v 1) false with
    | some tid => (s, .hold (.tensor tid))
    | none =>
      let x := s.slice (sliceOf e)
      if (granted || (s.mWaiters (sliceOf e) fo).isEmpty) && x.mRoom fo then
        let (c, s1) := s.makeCmd e sparse acc tag.toNat ops a b
        (s1.enterCmd e fo c, .all [])
      else (s, .hold (if fo then .gate i else .mQueue i))

theorem runMm_eq (i : Instr) (sparse acc fo : Bool) (tag : BitVec 3) (granted : Bool) (s : State) :
    runMm i sparse acc fo tag granted s = runElected i (mmBody i sparse acc fo tag granted) s := rfl

/-- The two instructions. -/
theorem mmForm_cases {tag : Nat} (h : mmForm i = some (sparse, acc, fo, tag)) :
    ∃ w j, tag = BitVec.toNat j ∧ (i = .mm w acc fo j ∧ sparse = false ∨ i = .mms w acc fo j ∧ sparse = true) := by
  unfold mmForm at h
  split at h
  · rename_i w acc' fo' j
    simp only [Option.some.injEq, Prod.mk.injEq] at h
    obtain ⟨rfl, rfl, rfl, rfl⟩ := h
    exact ⟨w, j, rfl, .inl ⟨rfl, rfl⟩⟩
  · rename_i w acc' fo' j
    simp only [Option.some.injEq, Prod.mk.injEq] at h
    obtain ⟨rfl, rfl, rfl, rfl⟩ := h
    exact ⟨w, j, rfl, .inr ⟨rfl, rfl⟩⟩
  · cases h

theorem exec_mmForm {tag : Nat} (h : mmForm i = some (sparse, acc, fo, tag)) :
    ∃ j, tag = BitVec.toNat j ∧ ∀ s, exec i s = finish (runMm i sparse acc fo j false s) := by
  obtain ⟨w, j, rfl, ⟨rfl, rfl⟩ | ⟨rfl, rfl⟩⟩ := mmForm_cases h
  · exact ⟨j, rfl, fun _ => rfl⟩
  · exact ⟨j, rfl, fun _ => rfl⟩

section mm
variable {granted : Bool} (hok : Issuable s i k l false a b g)
include hok

theorem mmBody_enters (tag : BitVec 3) (hopen : granted = true ∨ s.mWaiters (sliceOf k) fo = [])
    (hroom : (s.slice (sliceOf k)).mRoom fo = true) : mmBody i sparse acc fo tag granted s [k] k (l.ops i) =
      (withEntry s k fo (s.makeCmd k sparse acc tag.toNat (l.ops i) a b).1, .all []) := by
  obtain ⟨hentries, hheld⟩ := hok
  have hcond : ((granted || (s.mWaiters (sliceOf k) fo).isEmpty) && (s.slice (sliceOf k)).mRoom fo) = true := by
    rcases hopen with h | h <;> simp [h, hroom]
  unfold mOperands at hentries hheld
  simp only [mmBody, ops_getD_val, hentries, hheld, hcond, if_true]
  rfl

theorem mmBody_waits (tag : BitVec 3) (hfull : s.mWaiters (sliceOf k) fo ≠ [] ∨ (s.slice (sliceOf k)).mRoom fo = false) :
    mmBody i sparse acc fo tag false s [k] k (l.ops i) = (s, .hold (if fo then .gate i else .mQueue i)) := by
  obtain ⟨hentries, hheld⟩ := hok
  have hcond : ((false || (s.mWaiters (sliceOf k) fo).isEmpty) && (s.slice (sliceOf k)).mRoom fo) = false := by
    rcases hfull with h | h <;> simp [h]
  unfold mOperands at hentries hheld
  simp only [mmBody, ops_getD_val, hentries, hheld, hcond, Bool.false_eq_true, if_false]

/-- The command takes its entry, and the lane goes on. -/
theorem runMm_enters (h : Alone s i k l) (tag : BitVec 3) (hopen : granted = true ∨ s.mWaiters (sliceOf k) fo = [])
    (hroom : (s.slice (sliceOf k)).mRoom fo = true) : ∃ t, finish (runMm i sparse acc fo tag granted s) = .next t ∧
      Completes s (withEntry s k fo (s.makeCmd k sparse acc tag.toNat (l.ops i) a b).1) t i k [] none := by
  rw [runMm_eq]
  exact exec_of_all_alone h (mmBody_enters hok tag hopen hroom) ⟨h.sound.bad, h.sound.late⟩ h.ready.here

theorem runMm_waits (h : Alone s i k l) (tag : BitVec 3) (hfull : s.mWaiters (sliceOf k) fo ≠ [] ∨ (s.slice (sliceOf k)).mRoom fo = false) :
    finish (runMm i sparse acc fo tag false s) = .next (s.setLane k (issued s i l (if fo then .gate i else .mQueue i))).bump := by
  rw [runMm_eq]
  refine exec_of_elected_issued h (mmBody_waits hok tag hfull) ?_ ?_ <;> cases fo <;> rfl

end mm

-- `mmstage`, `mmflag` and `mmflag.drop` (R275, R277).
section stage
variable {w : StallL} {sp : Bool} {tag : BitVec 3} {j : BitVec 2}

/-- A command is in its staging slot. -/
def staged (s : State) (x n : Nat) (c : MCmd) : State :=
  ({ s with nextId := s.nextId + 1 } : State).modSlice x (fun x => { x with stages := mset x.stages n { cmd := c } })

theorem exec_mmstage_fills (hok : Issuable s (.mmstage w acc sp tag j) k l true a b g) (h : Alone s (.mmstage w acc sp tag j) k l)
    (hfree : mget (s.slice (sliceOf k)).stages j.toNat = none) : ∃ t, exec (.mmstage w acc sp tag j) s = .next t ∧
      Completes s (staged s (sliceOf k) j.toNat (s.makeCmd k sp acc tag.toNat (l.ops (.mmstage w acc sp tag j)) a b).1) t
        (.mmstage w acc sp tag j) k [] none := by
  obtain ⟨hentries, hheld⟩ := hok
  unfold mOperands at hentries hheld
  rw [exec_mmstage, execMmstage]
  refine exec_of_all_alone h ?_ ⟨h.sound.bad, h.sound.late⟩ h.ready.here
  simp only [ops_getD_val, hentries, hheld, hfree]
  rfl

theorem stage_staged (s : State) (x n : Nat) (c : MCmd) : mget ((staged s x n c).slice x).stages n = some { cmd := c } := by
  unfold staged
  rw [slice_modSlice_self]
  exact mget_mset_self ..

theorem exec_mmflag_tells (h : Alone s (.mmflag w j) k l) : ∃ t, exec (.mmflag w j) s = .next t ∧ Completes s s t (.mmflag w j) k
    [(flagWord (s.taskNo k) (mget (s.slice (sliceOf k)).stages j.toNat), [])] none := by
  rw [exec_mmflag, execMmflag]
  exact exec_of_all_alone h rfl h.sound h.ready.here

theorem flagWord_own {st : Stage} {tn : Nat} (h : st.cmd.task = tn) : flagWord tn (some st) =
    BitVec.ofNat 64 ((if st.copy.isSome then 2 else 1) + st.cmd.ctr % 256 * 2 ^ 8 + st.cmd.tc % 256 * 2 ^ 16) := by
  simp only [flagWord, h, if_true]
  congr 1
  omega

/-- A staged command of the thread's task that no copy has bound is dropped. -/
theorem exec_mmflagDrop_drops {st : Stage} (h : Alone s (.mmflagDrop w j) k l) (hst : mget (s.slice (sliceOf k)).stages j.toNat = some st)
    (hfree : st.copy = none) (hown : st.cmd.task = s.taskNo k) : ∃ t, exec (.mmflagDrop w j) s = .next t ∧
      Completes s ((s.clearStage (sliceOf k) j.toNat).dropCmd st.cmd 0x0514) t (.mmflagDrop w j) k [] none := by
  rw [exec_mmflagDrop, execMmflagDrop]
  refine exec_of_all_alone h ?_ ⟨h.sound.bad, h.sound.late⟩ h.ready.here
  simp [hst, hfree, hown]

theorem stage_clearStage (s : State) (x n : Nat) : mget ((s.clearStage x n).slice x).stages n = none := by
  unfold State.clearStage
  rw [slice_modSlice_self]
  exact mget_mdel_self ..

theorem counter_dropCmd (hx : s.taskOf k = some x) (hown : c.task = s.taskNo k) (status : Nat) :
    ((s.dropCmd c status).counter k c.ctr).val = (BitVec.ofInt 64 ((s.counter k c.ctr).val - c.amount)).toInt ∧
    ((s.counter k c.ctr).status = 0 → ((s.dropCmd c status).counter k c.ctr).status = status) := by
  obtain ⟨y, hy, hval, hstatus, -⟩ := countDown_task (hown ▸ hx : s.task c.task = some x) c.ctr c.amount (some status) [] (some c.thx)
  have hy' : (s.dropCmd c status).taskOf k = some y := by
    rw [State.taskOf, show (s.dropCmd c status).taskNo k = c.task from hown.symm]
    exact hy
  rw [counter_of hy', counter_of hx]
  refine ⟨hval, fun h0 => ?_⟩
  rw [hstatus, if_pos h0]
  rfl

end stage

-- Entries that fall free (R266, R271).
section grant
variable {tag : Nat} (hform : mmForm i = some (sparse, acc, fo, tag)) (hwait : s.mWaiters slice fo = [(k, l)])
  (hw : l.wait = (if fo then .gate i else .mQueue i)) (hsl : sliceOf k = slice) (hroom : (s.slice slice).mRoom fo = true)

theorem next_of_finish (h : finish s = .next t) : s = t := by
  unfold finish at h
  split at h
  · cases h
  · injection h

/-- The strand of a lane runs its instruction (R266). -/
def strandOf (s : State) (slice k : Nat) : State := { s with iss := { slice := slice, place := waveOf k % 48, lanes := [laneNo k] } }

/-- A lane that has completed issues its next instruction no earlier than its issue allows (R48). -/
def passed (s : State) (slice k : Nat) (l : Lane) : State := s.modLane k (fun m =>
  if m.wait = .none && m.ts.tlvl = l.ts.tlvl then { m with next := Nat.max l.next (s.cycle slice + 1) } else m)

include hform hwait hw in
theorem grantMm_eq : ∃ j, tag = BitVec.toNat j ∧
    s.grantMm slice fo = passed (runMm i sparse acc fo j true (strandOf s slice k)) slice k l := by
  have hwaits : (if fo then l.wait.gateOf else l.wait.mQueueOf) = some i := by rw [hw]; cases fo <;> rfl
  obtain ⟨w, j, rfl, ⟨rfl, rfl⟩ | ⟨rfl, rfl⟩⟩ := mmForm_cases hform
  all_goals
    refine ⟨j, rfl, ?_⟩
    simp only [State.grantMm, hwait, List.map_cons, List.map_nil, oldest, List.filter_cons, List.filter_nil, beq_self_eq_true, if_true,
      List.head?_cons, Option.bind_some, hwaits, List.foldl_cons, List.foldl_nil]
    rfl

theorem lane_of_completes (h : Completes (strandOf s slice k) u t i k [] none) (hu : u.lane k = some l) :
    ∃ m, t.lane k = some m ∧ m.wait = .none ∧ m.ts.tlvl = l.ts.tlvl := by
  obtain ⟨m, d, n, hm, rfl⟩ := h
  obtain rfl : l = m := Option.some.inj (hu.symm.trans hm)
  have hrest := congrArg (fun m : Lane => m.ts.tlvl) (after_rest l i (strandOf s slice k).issueCycle d [] none)
  exact ⟨_, lane_setLane_self .., rfl, hrest⟩

theorem passed_of_completes (h : Completes (strandOf s slice k) u t i k [] none) (hu : u.lane k = some l) (hcycle : t.cycle slice = s.cycle slice) :
    passed t slice k l = t.modLane k (fun m => { m with next := Nat.max l.next (s.cycle slice + 1) }) := by
  obtain ⟨m, hm, hwait, hlevel⟩ := lane_of_completes h hu
  unfold passed
  rw [hcycle, modLane_of _ hm, modLane_of _ hm]
  simp only [hwait, hlevel, decide_true, Bool.and_self, if_true]

include hform hwait hw hsl hroom in
/-- The strand that has waited longest takes the entry. -/
theorem exec_grant_enters (h : Alone (strandOf s slice k) i k l) (hok : Issuable s i k l false a b g) :
    ∃ c t, Completes (strandOf s slice k) (withEntry (strandOf s slice k) k fo c) t i k [] none ∧
      exec (if fo then .gateEntryGrant slice else .matrixQueueGrant slice) s =
        .next (t.modLane k (fun m => { m with next := Nat.max l.next (s.cycle slice + 1) })) := by
  subst hsl
  obtain ⟨j, -, hgrant⟩ := grantMm_eq hform hwait hw
  have hok1 : Issuable (strandOf s (sliceOf k) k) i k l false a b g := ⟨hok.entries, hok.open_⟩
  obtain ⟨t, ht, hdone⟩ := runMm_enters (sparse := sparse) (acc := acc) (granted := true) hok1 h j (.inl rfl) hroom
  have hrun := next_of_finish ht
  have hbad : t.bad = none := by
    obtain ⟨m, d, n, -, rfl⟩ := hdone
    exact h.sound.bad
  have hcycle : t.cycle (sliceOf k) = s.cycle (sliceOf k) := by
    obtain ⟨m, d, n, -, rfl⟩ := hdone
    show ((withEntry _ k fo _).slice (sliceOf k)).cycle = _
    rw [slice_withEntry]
    cases fo <;> rfl
  have hpass := passed_of_completes hdone h.ready.here hcycle
  refine ⟨_, t, hdone, ?_⟩
  have hexec : exec (if fo then .gateEntryGrant (sliceOf k) else .matrixQueueGrant (sliceOf k)) s = finish (s.grantMm (sliceOf k) fo) := by
    cases fo
    · simp only [Bool.false_eq_true, if_false, exec_matrixQueueGrant, execMatrixQueueGrant, hroom, if_true]
    · simp only [if_true, exec_gateEntryGrant, execGateEntryGrant, hroom]
  rw [hexec, hgrant, hrun, hpass]
  obtain ⟨m, hm, -⟩ := lane_of_completes hdone h.ready.here
  rw [modLane_of _ hm]
  exact finish_of_sound hbad

end grant

end Sys2Proof.Matrix
end

section
/-! PROOFS. Gated and staged commands enter the queue, and the command at its head completes (R242, R266, R271, R273, R275). -/

namespace Sys2Proof.Matrix

open Sys2Proof Sys2Proof.Machine Sys2Proof.Claims Sys2Proof.Numbers Sys2Proof.Tensors Sys2Proof.Copies

variable {s t u : State} {n slice : Nat} {a b g : Geom} {c : MCmd} {r : List MCmd} {x : Task} {st : Stage}

-- Entry behind copies (R242).
/-- Copies have landed, and none of them has failed. -/
def LandedWell (s : State) (cs : List Nat) : Prop := ∀ x, x ∈ cs → ∃ y, mget s.landed x = some y ∧ y.failed = none

theorem allLanded_of {cs : List Nat} (h : LandedWell s cs) : s.allLanded cs = true := by
  refine List.all_eq_true.2 fun x hx => ?_
  obtain ⟨y, hy, -⟩ := h x hx
  rw [hy]
  rfl

theorem gateFailure_of {cs : List Nat} (h : LandedWell s cs) : s.gateFailure cs = none := by
  refine List.findSome?_eq_none_iff.2 fun x hx => ?_
  obtain ⟨y, hy, hgood⟩ := h x hx
  rw [hy]
  exact hgood

theorem mRoom_queue (h : (s.slice slice).mq.length < 8) : (s.slice slice).mRoom false = true := decide_eq_true h

/-- The queue of a slice is another. -/
def withQueue (s : State) (slice : Nat) (q : List MCmd) : State := s.modSlice slice (fun x => { x with mq := q })
theorem slice_withQueue (s : State) (x y : Nat) (q : List MCmd) :
    (withQueue s x q).slice y = if y = x then { s.slice x with mq := q } else s.slice y := slice_modSlice ..

/-- A command enters the queue. -/
def enqueued (s : State) (slice : Nat) (c : MCmd) : State := s.modSlice slice (fun x => { x with mq := x.mq ++ [c] })
theorem slice_enqueued (s : State) (slice : Nat) (c : MCmd) :
    (enqueued s slice c).slice slice = { s.slice slice with mq := (s.slice slice).mq ++ [c] } := slice_modSlice_self ..

/-- It has left the gate list. -/
def ungated (s : State) (slice n : Nat) : State := s.modSlice slice (fun x => { x with gates := x.gates.eraseIdx n })
theorem slice_ungated (s : State) (slice n : Nat) :
    (ungated s slice n).slice slice = { s.slice slice with gates := (s.slice slice).gates.eraseIdx n } := slice_modSlice_self ..

/-- A gated command whose copies have landed leaves the gate list for the queue. -/
theorem exec_gated_enters (hc : (s.slice slice).gates[n]? = some c) (hlanded : LandedWell s c.gates) (hroom : (s.slice slice).mq.length < 8) :
    ∃ t f, exec (.gatedCommandEntry slice n) s = .next t ∧ (t.slice slice).mq = (s.slice slice).mq ++ [{ c with floor := f }] ∧
      (t.slice slice).gates = (s.slice slice).gates.eraseIdx n := by
  refine ⟨enqueued (ungated s slice n) slice { c with floor := s.gateFloor c.gates c.floor }, s.gateFloor c.gates c.floor, ?_, ?_, ?_⟩
  · rw [exec_gatedCommandEntry]
    simp only [execGatedCommandEntry, hc, allLanded_of hlanded, gateFailure_of hlanded, mRoom_queue hroom, Bool.not_true, Bool.false_eq_true,
      if_false]
    rfl
  · rw [slice_enqueued, slice_ungated]
  · rw [slice_enqueued, slice_ungated]

/-- A staged command whose copies have landed leaves its staging slot for the queue. -/
theorem exec_staged_enters {y : Nat} {e : Geom × Geom × Geom} (hst : mget (s.slice slice).stages n = some st) (hcopy : st.copy = some y)
    (hlanded : ∀ z, z = y ∨ z ∈ st.gates → ∃ v, mget s.landed z = some v ∧ v.failed = none) (hroom : (s.slice slice).mq.length < 8)
    (hopen : s.stageWaits st.cmd = false) (hentries : s.mEntries st.cmd.task st.cmd.ta st.cmd.tb st.cmd.tc st.cmd.ctr = .inr e) :
    ∃ t f, exec (.stagedCommandEntry slice n) s = .next t ∧
      (t.slice slice).mq = (s.slice slice).mq ++ [{ st.cmd with who := s.stageWho st.cmd, floor := f }] ∧
      mget (t.slice slice).stages n = none := by
  have hwell : LandedWell s (y :: st.gates) := fun z hz => hlanded z (List.mem_cons.1 hz)
  refine ⟨enqueued (s.clearStage slice n) slice
    { st.cmd with who := s.stageWho st.cmd, floor := s.gateFloor (y :: st.gates) (s.stageFloor st.cmd) },
    s.gateFloor (y :: st.gates) (s.stageFloor st.cmd), ?_, ?_, ?_⟩
  · rw [exec_stagedCommandEntry]
    simp only [execStagedCommandEntry, hst, hcopy, Option.toList_some, List.singleton_append, Option.isNone_some, allLanded_of hwell,
      gateFailure_of hwell, mRoom_queue hroom, hopen, hentries, Bool.not_true, Bool.or_self, Bool.false_eq_true, if_false]
    rfl
  · rw [slice_enqueued, State.clearStage, slice_modSlice_self]
  · rw [slice_enqueued]
    exact stage_clearStage ..

-- What is written to C (R273, R274).
theorem wrote_writeC (s : State) (slice : Nat) (g : Geom) (vals : List (Nat × Nat × List Nat)) : Wrote s (s.writeC slice g vals).2 := by
  refine wrote_foldl_snd (fun _ _ => ?_) vals (([], s) : Map Nat × State)
  exact wrote_foldl (fun _ _ => wrote_write ..) _ _

theorem wrote_spoilC (s : State) (slice : Nat) (c : MCmd) (tag : Bool) : Wrote s (s.spoilC slice c tag).2 := by
  unfold State.spoilC
  split
  · exact .refl s
  · exact (wrote_writeC ..).trans (wrote_foldl (fun _ _ => wrote_setPoison ..) _ _)

theorem wrote_cleanWhole (s : State) (pub : Map Nat) : Wrote s (s.cleanWhole pub) := wrote_foldl (fun _ _ => wrote_clean ..) _ _

theorem mem_cleanWhole (s : State) (pub : Map Nat) : (s.cleanWhole pub).mem = s.mem :=
  foldl_keeps State.mem (fun s l => State.clean s l) (fun _ _ => rfl) _ _

-- Completion (R266, R272, R273).
theorem bodyOver_of (huntil : c.until_ ≤ s.now)
    (hmates : ∀ p d q, p ∈ c.mates → (s.slice p.1).mq = d :: q → d.id = p.2 → d.running = true → d.due ≤ s.cycle p.1) :
    s.bodyOver c = true := by
  refine Bool.and_eq_true_iff.2 ⟨decide_eq_true huntil, List.all_eq_true.2 fun p hp => ?_⟩
  unfold State.mateOver
  cases hq : (s.slice p.1).mq with
  | nil => rfl
  | cons d q =>
    by_cases hid : d.id = p.2
    · cases hrun : d.running
      · simp [hrun]
      · simp [hmates p d q hp hq hid hrun]
    · simp [hid]

/-- What completing has made of memory before the counter falls: C is published, or spoilt. -/
theorem exec_complete_eq (hq : (s.slice slice).mq = c :: r) (hrun : c.running = true) (hover : s.bodyOver c = true) :
    ∃ u pub, Wrote (withQueue s slice r) u ∧ (c.bad = none → u.mem = s.mem) ∧
      exec (.matrixCommandComplete slice) s = .next
        ((if c.sati then u.modTask c.task (fun t => { t with sati := true }) else u).countDown c.task c.ctr c.amount
          (c.bad.map (fun b => 1280 + b.1)) pub (some c.thx)) := by
  cases hbad : c.bad with
  | none =>
    refine ⟨((withQueue s slice r).cleanWhole c.pub).addEngine slice .slice c.pub, c.pub,
      (wrote_cleanWhole ..).trans (wrote_addEngine ..), fun _ => mem_cleanWhole .., ?_⟩
    rw [exec_matrixCommandComplete]
    simp only [execMatrixCommandComplete, hq, hrun, hover, hbad, Bool.not_true, Bool.or_self, Bool.false_eq_true, if_false]
    rfl
  | some b =>
    refine ⟨((withQueue s slice r).spoilC slice c b.2).2.addEngine slice .slice
      ((withQueue s slice r).spoilC slice c b.2).1, ((withQueue s slice r).spoilC slice c b.2).1,
      (wrote_spoilC ..).trans (wrote_addEngine ..), fun h => absurd h (Option.some_ne_none _), ?_⟩
    rw [exec_matrixCommandComplete]
    simp only [execMatrixCommandComplete, hq, hrun, hover, hbad, Bool.not_true, Bool.or_self, Bool.false_eq_true, if_false]
    rfl

/-- SATI is set with the end of a command that has saturated (R33). -/
theorem task_sati (hx : u.task n = some x) (sati : Bool) : ∃ y,
    (if sati then u.modTask n (fun t => { t with sati := true }) else u).task n = some y ∧ y.counters = x.counters ∧ y.sati = (x.sati || sati) := by
  cases sati
  · exact ⟨x, hx, rfl, (Bool.or_false _).symm⟩
  · exact ⟨_, task_modTask_of hx _, rfl, (Bool.or_true _).symm⟩

theorem sati_same (u : State) (n : Nat) (sati : Bool) : ∃ ts, (if sati then u.modTask n (fun t => { t with sati := true }) else u) =
    { u with tasks := ts } := by
  cases sati
  · exact ⟨_, rfl⟩
  · exact ⟨_, rfl⟩

theorem exec_complete_falls (hq : (s.slice slice).mq = c :: r) (hx : s.task c.task = some x) (hrun : c.running = true)
    (hover : s.bodyOver c = true) : ∃ t y, exec (.matrixCommandComplete slice) s = .next t ∧ (t.slice slice).mq = r ∧ t.task c.task = some y ∧
      (mgetD y.counters c.ctr {}).val = (BitVec.ofInt 64 ((mgetD x.counters c.ctr {}).val - c.amount)).toInt ∧
      (c.bad = none → t.mem = s.mem) ∧
      (mgetD y.counters c.ctr {}).status = (if (mgetD x.counters c.ctr {}).status = 0 then (c.bad.map (fun b => 1280 + b.1)).getD 0
        else (mgetD x.counters c.ctr {}).status) ∧ y.sati = (x.sati || c.sati) := by
  obtain ⟨u, pub, hwrote, hmem, hexec⟩ := exec_complete_eq hq hrun hover
  obtain ⟨y, hy, hcounters, hsati⟩ := task_sati ((hwrote.task _).trans hx) c.sati
  obtain ⟨z, hz, hval, hstatus, hkept⟩ := countDown_task hy c.ctr c.amount (c.bad.map (fun b => 1280 + b.1)) pub (some c.thx)
  rw [hcounters] at hval hstatus
  refine ⟨_, z, hexec, ?_, hz, hval, fun hgood => ?_, hstatus, hkept.trans hsati⟩
  · obtain ⟨ts, hts⟩ := sati_same u c.task c.sati
    rw [hts]
    show (u.slice slice).mq = r
    rw [hwrote.slice, slice_withQueue, if_pos rfl]
  · obtain ⟨ts, hts⟩ := sati_same u c.task c.sati
    rw [hts]
    exact hmem hgood

end Sys2Proof.Matrix
end

section
/-! PROOFS. Matrix commands begin: alone, with their gang, or with those that have come when the window ends (R266, R270, R272). -/

namespace Sys2Proof.Matrix

open Sys2Proof Sys2Proof.Machine Sys2Proof.Claims Sys2Proof.Numbers Sys2Proof.Tensors Sys2Proof.Copies

variable {s t u : State} {slice : Nat} {a b g : Geom} {c d : MCmd} {r : List MCmd} {x : Task}

-- Reading operands changes nothing that a program reads (R211, R267, R269).
/-- Only the model's free counter differs. -/
def Frees (s t : State) : Prop := ∃ n, t = { s with free := n }

theorem Frees.refl (s : State) : Frees s s := ⟨s.free, rfl⟩
theorem Frees.trans (h : Frees s t) (k : Frees t u) : Frees s u := by
  obtain ⟨n, rfl⟩ := h
  obtain ⟨m, rfl⟩ := k
  exact ⟨m, rfl⟩

theorem frees_opBytes (s : State) (floor : Map Nat) (key n : Nat) : Frees s (s.opBytes floor key n).2.2 :=
  readVer_free s floor (fun _ => false) key n

theorem frees_opMap (s : State) (floor : Map Nat) (slice : Nat) (g : Geom) : Frees s (s.opMap floor slice g).2.2 := by
  unfold State.opMap
  split
  · exact frees_opBytes ..
  · exact .refl s

theorem frees_opElem (s : State) (floor : Map Nat) (slice : Nat) (g : Geom) (bm : List Byte) (row col : Nat) :
    Frees s (s.opElem floor slice g bm row col).2.2 := by
  unfold State.opElem
  dsimp only
  split
  · exact .refl s
  · split
    · exact frees_opBytes ..
    · exact (frees_opBytes ..).trans (frees_opBytes ..)

theorem frees_opElems (floor : Map Nat) (slice : Nat) (g : Geom) (bm : List Byte) (ps : List (Nat × Nat)) (s : State) :
    Frees s (s.opElems floor slice g bm ps).2.2 := by
  induction ps generalizing s with
  | nil => exact .refl s
  | cons p r ih => exact (frees_opElem ..).trans (ih _)

theorem frees_opScales (floor : Map Nat) (slice : Nat) (g : Geom) (ps : List (Nat × Nat)) (s : State) :
    Frees s (s.opScales floor slice g ps).2.2 := by
  induction ps generalizing s with
  | nil => exact .refl s
  | cons p r ih => exact (frees_opBytes ..).trans (ih _)

theorem frees_opRows {α : Type} {f : State → Nat → List α × Option (Nat × Bool) × State} (hf : ∀ s i, Frees s (f s i).2.2) (is : List Nat)
    (s : State) : Frees s (s.opRows f is).2.2 := by
  induction is generalizing s with
  | nil => exact .refl s
  | cons i r ih => exact (hf s i).trans (ih _)

/-- Scales that an operand without groups does not have (R25). -/
theorem frees_scalesOf {p : Prop} [Decidable p] (floor : Map Nat) (slice : Nat) (g : Geom) (ps : List (Nat × Nat)) (s : State) :
    Frees s (if p then ([], none, s) else s.opScales floor slice g ps).2.2 := by
  split
  · exact .refl s
  · exact frees_opScales ..

theorem frees_readB (s : State) (floor : Map Nat) (slice : Nat) (b : Geom) : Frees s (s.readB floor slice b).2 :=
  ((frees_opMap ..).trans (frees_opRows (fun _ _ => frees_opElems ..) ..)).trans (frees_opRows (fun _ _ => frees_scalesOf ..) ..)

theorem frees_formC (s : State) (slice : Nat) (c : MCmd) (a b g : Geom) (rb : BRead) : Frees s (s.formC slice c a b g rb).2 :=
  ((frees_opMap ..).trans (frees_opRows (fun _ _ => frees_opElems ..) ..)).trans (frees_opRows (fun _ _ => frees_scalesOf ..) ..)

theorem frees_groupB (s : State) (heads : List (Nat × MCmd)) : Frees s (s.groupB heads).2 := by
  unfold State.groupB
  dsimp only
  split
  · exact frees_readB ..
  · exact .refl s

theorem frees_freeDelay (s : State) : Frees s (freeDelay s).2 := ⟨_, rfl⟩

-- One head begins.
/-- What a head that begins leaves as it is: every slice, and the clock. -/
structure Steady (s t : State) : Prop where
  slices : t.slices = s.slices
  now : t.now = s.now

theorem Steady.slice_eq (h : Steady s t) (x : Nat) : t.slice x = s.slice x := by rw [State.slice, h.slices, h.now]; rfl
theorem Steady.trans (h : Steady s t) (k : Steady t u) : Steady s u := ⟨k.slices.trans h.slices, k.now.trans h.now⟩
theorem Frees.steady (h : Frees s t) : Steady s t := by
  obtain ⟨n, rfl⟩ := h
  exact ⟨rfl, rfl⟩
theorem steady_of_wrote (h : Wrote s t) : Steady s t := ⟨by rw [h.same], by rw [h.same]⟩

/-- The operands of the command have entries. -/
def entriesOf (s : State) (c : MCmd) : Cause ⊕ (Geom × Geom × Geom) := s.mEntries c.task c.ta c.tb c.tc c.ctr

/-- The command as it begins. -/
structure Running (s : State) (slice till : Nat) (mates : List (Nat × Nat)) (rb : BRead) (c d : MCmd) : Prop where
  id : d.id = c.id
  running : d.running = true
  until_ : d.until_ = till
  mates : d.mates = mates
  due : s.cycle slice ≤ d.due
  body : ∀ a b g, entriesOf s c = .inr (a, b, g) → d.due = s.cycle slice + bodyCycles c.sparse a b rb.map

/-- Memory after C has been formed: its values are written unless an operand is broken (R269, R273). -/
def formedMem (s : State) (slice : Nat) (c : MCmd) (a b g : Geom) (rb : BRead) : Memory :=
  if (s.formC slice c a b g rb).1.bad.isNone
  then ((s.formC slice c a b g rb).2.writeC slice g (s.formC slice c a b g rb).1.vals).2.mem else s.mem

-- The state in which C has been formed, and SATI set early or not (R33).
def afterC (s : State) (slice : Nat) (g : Geom) (o : MOut) : Map Nat × State :=
  match o.bad with
  | some _ => ([], s)
  | none => s.writeC slice g o.vals
def earlySati (s : State) (o : MOut) : Nat × State := if o.sati && o.bad.isNone then choose s 2 else (0, s)
def sated (n : Nat) (e : Nat × State) : State := if e.1 = 1 then e.2.modTask n (fun t => { t with sati := true }) else e.2
def formed (s : State) (slice n : Nat) (g : Geom) (o : MOut) : State := sated n (earlySati (afterC s slice g o).2 o)

theorem wrote_afterC (s : State) (slice : Nat) (g : Geom) (o : MOut) : Wrote s (afterC s slice g o).2 := by
  unfold afterC
  split
  · exact .refl s
  · exact wrote_writeC ..

theorem mem_afterC (s : State) (slice : Nat) (g : Geom) (o : MOut) :
    (afterC s slice g o).2.mem = if o.bad.isNone then (s.writeC slice g o.vals).2.mem else s.mem := by
  unfold afterC
  cases o.bad <;> rfl

theorem frees_earlySati (s : State) (o : MOut) : Frees s (earlySati s o).2 := by
  unfold earlySati
  split
  · exact choose_free s 2
  · exact .refl s

theorem sated_same (n : Nat) (e : Nat × State) : ∃ ts, sated n e = { e.2 with tasks := ts } := by
  unfold sated
  split
  · exact ⟨_, rfl⟩
  · exact ⟨_, rfl⟩

theorem steady_formed (s : State) (slice n : Nat) (g : Geom) (o : MOut) : Steady s (formed s slice n g o) := by
  obtain ⟨ts, hts⟩ := sated_same n (earlySati (afterC s slice g o).2 o)
  have hsteady := (steady_of_wrote (wrote_afterC s slice g o)).trans (frees_earlySati _ o).steady
  rw [formed, hts]
  exact ⟨hsteady.slices, hsteady.now⟩

theorem mem_formed (s : State) (slice n : Nat) (g : Geom) (o : MOut) : (formed s slice n g o).mem = (afterC s slice g o).2.mem := by
  obtain ⟨ts, hts⟩ := sated_same n (earlySati (afterC s slice g o).2 o)
  obtain ⟨m, hm⟩ := frees_earlySati (afterC s slice g o).2 o
  rw [formed, hts, hm]

/-- The command of which the operands stand, as it begins. -/
def begunCmd (s : State) (slice till : Nat) (mates : List (Nat × Nat)) (rb : BRead) (c : MCmd) (a b g : Geom) : MCmd :=
  let o := (s.formC slice c a b g rb).1
  let u := afterC (s.formC slice c a b g rb).2 slice g o
  { c with running := true, until_ := till, mates := mates, due := s.cycle slice + bodyCycles c.sparse a b rb.map, pub := u.1, bad := o.bad
           sati := o.sati && o.bad.isNone && (earlySati u.2 o).1 == 0 }

theorem running_begunCmd {a b g : Geom} (he : entriesOf s c = .inr (a, b, g)) (till : Nat) (mates : List (Nat × Nat)) (rb : BRead) :
    Running s slice till mates rb c (begunCmd s slice till mates rb c a b g) where
  id := rfl
  running := rfl
  until_ := rfl
  mates := rfl
  due := Nat.le_add_right ..
  body := fun a' b' g' h => by
    rw [he] at h
    cases h
    rfl

theorem beginHead_eq (hq : (s.slice slice).mq = c :: r) (till : Nat) (mates : List (Nat × Nat)) (rb : BRead) :
    ∃ u d, s.beginHead slice till mates rb = withQueue u slice (d :: r) ∧ Steady s u ∧ Running s slice till mates rb c d ∧
      ∀ a b g, entriesOf s c = .inr (a, b, g) → u.mem = formedMem s slice c a b g rb := by
  cases he : entriesOf s c with
  | inl e =>
    refine ⟨s, { c with running := true, due := s.cycle slice, until_ := till, mates := mates }, ?_, ⟨rfl, rfl⟩,
      ⟨rfl, rfl, rfl, rfl, Nat.le_refl _, fun a b g h => by rw [he] at h; cases h⟩, fun a b g h => by cases h⟩
    unfold State.beginHead
    unfold entriesOf at he
    simp only [hq, he]
    rfl
  | inr e =>
    obtain ⟨a, b, g⟩ := e
    have hfrees := frees_formC s slice c a b g rb
    refine ⟨formed (s.formC slice c a b g rb).2 slice c.task g (s.formC slice c a b g rb).1, begunCmd s slice till mates rb c a b g, ?_,
      hfrees.steady.trans (steady_formed ..), running_begunCmd he .., fun a' b' g' h => ?_⟩
    · unfold State.beginHead
      unfold entriesOf at he
      simp only [hq, he]
      rfl
    · cases h
      obtain ⟨n, hn⟩ := hfrees
      rw [mem_formed, mem_afterC, formedMem]
      rw [hn]

-- The heads of a group begin one after the other (R272).
/-- The head of a queue has begun. -/
def HeadBegun (s t : State) (mates : List (Nat × Nat)) (m : Nat) : Prop :=
  ∀ d q, (s.slice m).mq = d :: q → ∃ d', (t.slice m).mq = d' :: q ∧ d'.id = d.id ∧ d'.running = true ∧ d'.mates = mates

theorem beginHead_others (s : State) (x till : Nat) (mates : List (Nat × Nat)) (rb : BRead) {y : Nat} (hne : y ≠ x) :
    (s.beginHead x till mates rb).slice y = s.slice y := by
  cases hq : (s.slice x).mq with
  | nil =>
    unfold State.beginHead
    simp only [hq]
  | cons c r =>
    obtain ⟨u, d, heq, hsteady, -⟩ := beginHead_eq hq till mates rb
    rw [heq, slice_withQueue, if_neg hne, hsteady.slice_eq]

theorem foldl_beginHead_others (till : Nat) (mates : List (Nat × Nat)) (rb : BRead) (xs : List Nat) (s : State) {y : Nat} (hne : y ∉ xs) :
    (xs.foldl (fun s x => s.beginHead x till mates rb) s).slice y = s.slice y := by
  induction xs generalizing s with
  | nil => rfl
  | cons x r ih =>
    rw [List.foldl_cons, ih _ (List.not_mem_of_not_mem_cons hne), beginHead_others _ _ _ _ _ (List.ne_of_not_mem_cons hne)]

theorem foldl_beginHead_begun (till : Nat) (mates : List (Nat × Nat)) (rb : BRead) {xs : List Nat} (hnodup : xs.Nodup) (s : State) {m : Nat}
    (hm : m ∈ xs) : HeadBegun s (xs.foldl (fun s x => s.beginHead x till mates rb) s) mates m := by
  induction xs generalizing s with
  | nil => cases hm
  | cons x r ih =>
    obtain ⟨hx, hr⟩ := List.nodup_cons.1 hnodup
    intro d q hq
    rw [List.foldl_cons]
    rcases List.mem_cons.1 hm with rfl | hm
    · obtain ⟨u, d', heq, -, hd, -⟩ := beginHead_eq hq till mates rb
      refine ⟨d', ?_, hd.id, hd.running, hd.mates⟩
      rw [foldl_beginHead_others _ _ _ _ _ hx, heq, slice_withQueue, if_pos rfl]
    · refine ih hr _ hm d q ?_
      rw [beginHead_others _ _ _ _ _ (show m ≠ x from fun e => hx (e ▸ hm))]
      exact hq

/-- The heads of the queues of some slices. -/
def headsOf (s : State) (xs : List Nat) : List (Nat × MCmd) := xs.filterMap (fun m => ((s.slice m).mq.head?).map (fun c => (m, c)))

/-- Who begins together, by slice and identity. -/
def matesOf (s : State) (xs : List Nat) : List (Nat × Nat) := (headsOf s xs).map (fun p => (p.1, p.2.id))

theorem beginGroup_eq (s : State) (xs : List Nat) : ∃ u n rb, Frees s u ∧ rb = ((freeDelay s).2.groupB (headsOf s xs)).1 ∧
    s.beginGroup xs = xs.foldl (fun v x => v.beginHead x (s.now + n) (matesOf s xs) rb) u :=
  ⟨((freeDelay s).2.groupB (headsOf s xs)).2, (freeDelay s).1, _, (frees_freeDelay s).trans (frees_groupB ..), rfl, rfl⟩

theorem mem_matesOf {xs : List Nat} (hheads : ∀ m, m ∈ xs → (s.slice m).mq ≠ []) (n : Nat) : n ∈ (matesOf s xs).map (·.1) ↔ n ∈ xs := by
  simp only [matesOf, headsOf, List.mem_map, List.mem_filterMap, Option.map_eq_some_iff]
  constructor
  · rintro ⟨_, ⟨_, ⟨m, hm, c, -, rfl⟩, rfl⟩, rfl⟩
    exact hm
  · intro hn
    obtain ⟨c, r, hq⟩ := List.exists_cons_of_ne_nil (hheads n hn)
    exact ⟨_, ⟨_, ⟨n, hn, c, by rw [hq]; rfl, rfl⟩, rfl⟩, rfl⟩

/-- The slices of a group begin, and no other. -/
theorem beginGroup_begun {xs : List Nat} (hnodup : xs.Nodup) (hheads : ∀ m, m ∈ xs → (s.slice m).mq ≠ []) :
    (∀ m, m ∈ xs → begunWith s (s.beginGroup xs) m (· ∈ xs)) ∧ ∀ m, m ∉ xs → (s.beginGroup xs).slice m = s.slice m := by
  obtain ⟨u, n, rb, hfrees, -, heq⟩ := beginGroup_eq s xs
  rw [heq]
  refine ⟨fun m hm d q hq => ?_, fun m hm => ?_⟩
  · obtain ⟨d', hd', hid, hrun, hmates⟩ := foldl_beginHead_begun (s.now + n) (matesOf s xs) rb hnodup u hm d q
      (by rw [hfrees.steady.slice_eq]; exact hq)
    exact ⟨d', hd', hid, hrun, fun j => by rw [hmates]; exact mem_matesOf hheads j⟩
  · rw [foldl_beginHead_others _ _ _ _ _ hm, hfrees.steady.slice_eq]

-- The start (R266, R272).
/-- A command waits in a window. -/
def inWindow (c : MCmd) (ready : Nat) : MCmd := { c with windowed := true, ready := ready }
/-- When the window of a command ends that joins or opens one. -/
def windowEnd (s : State) (c : MCmd) (members : List Nat) : Nat :=
  (((s.openMates c members).head?).bind (fun m => ((s.slice m).mq.head?).map (·.ready))).getD (s.now + 64)

section start
variable (hq : (s.slice slice).mq = c :: r) (hx : s.task c.task = some x) (hidle : c.running = false)
include hq hx hidle

theorem exec_start_alone (hnew : c.windowed = false) (hone : c.tag = 0 ∨ x.members.length ≤ 1) :
    exec (.matrixCommandStart slice) s = .next (s.beginGroup [slice]) := by
  have hcond : (decide (c.tag = 0) || decide (x.members.length ≤ 1)) = true := by rcases hone with h | h <;> simp [h]
  rw [exec_matrixCommandStart]
  simp only [execMatrixCommandStart, hq, hx, hidle, hnew, Option.map_some, Option.getD_some, Bool.or_self, Bool.false_eq_true, if_false,
    hcond, if_true]

/-- A command alone begins. -/
theorem exec_start_runs (hnew : c.windowed = false) (hone : c.tag = 0 ∨ x.members.length ≤ 1) :
    ∃ u w d n rb, exec (.matrixCommandStart slice) s = .next (withQueue w slice (d :: r)) ∧ Frees s u ∧ Steady u w ∧
      rb = ((freeDelay s).2.groupB [(slice, c)]).1 ∧ Running u slice (s.now + n) [(slice, c.id)] rb c d ∧
      ∀ a b g, entriesOf u c = .inr (a, b, g) → w.mem = formedMem u slice c a b g rb := by
  obtain ⟨u, n, rb, hfrees, hrb, heq⟩ := beginGroup_eq s [slice]
  have hheads : headsOf s [slice] = [(slice, c)] := by simp [headsOf, hq]
  have hmates : matesOf s [slice] = [(slice, c.id)] := by simp [matesOf, hheads]
  have hq' : (u.slice slice).mq = c :: r := by rw [hfrees.steady.slice_eq]; exact hq
  obtain ⟨w, d, hbegin, hsteady, hrun, hmem⟩ := beginHead_eq hq' (s.now + n) (matesOf s [slice]) rb
  rw [hmates] at hbegin hrun
  rw [hheads] at hrb
  refine ⟨u, w, d, n, rb, ?_, hfrees, hsteady, hrb, hrun, hmem⟩
  rw [exec_start_alone hq hx hidle hnew hone, heq, hmates, List.foldl_cons, List.foldl_nil, hbegin]

/-- The first of a gang opens a window. -/
theorem exec_start_window (hnew : c.windowed = false) (htag : c.tag ≠ 0) (hfirst : s.openMates c x.members = []) (hmany : 1 < x.members.length) :
    exec (.matrixCommandStart slice) s = .next (withQueue s slice (inWindow c (s.now + 64) :: r)) := by
  have hcond : (decide (c.tag = 0) || decide (x.members.length ≤ 1)) = false := by simp [htag, hmany]
  have hfew : ¬ x.members.length ≤ ([] : List Nat).length + 1 := Nat.not_le.2 hmany
  rw [exec_matrixCommandStart]
  simp only [execMatrixCommandStart, hq, hx, hidle, hnew, Option.map_some, Option.getD_some, Bool.or_self, Bool.false_eq_true, if_false,
    hcond, hfirst, hfew]
  unfold inWindow
  rw [hidle]
  rfl

/-- The last of a gang begins with all the others. -/
theorem exec_start_gang (hnew : c.windowed = false) (htag : c.tag ≠ 0) (hmany : 1 < x.members.length) (hnodup : x.members.Nodup)
    (hall : ∀ m, m ∈ x.members → m ≠ slice → m ∈ s.openMates c x.members) :
    exec (.matrixCommandStart slice) s =
      .next ((withQueue s slice (inWindow c (windowEnd s c x.members) :: r)).beginGroup x.members) := by
  have hcond : (decide (c.tag = 0) || decide (x.members.length ≤ 1)) = false := by simp [htag, hmany]
  have hlast : x.members.length ≤ (s.openMates c x.members).length + 1 := by
    have hsub : x.members ⊆ slice :: s.openMates c x.members := fun m hm => by
      by_cases h : m = slice
      · exact h ▸ List.mem_cons_self
      · exact List.mem_cons_of_mem _ (hall m hm h)
    exact (List.subperm_of_subset hnodup hsub).length_le
  have hgang : x.members.filter (fun m => m == slice || (s.openMates c x.members).contains m) = x.members := by
    refine List.filter_eq_self.2 fun m hm => ?_
    by_cases h : m = slice
    · simp [h]
    · simp [hall m hm h]
  rw [exec_matrixCommandStart]
  simp only [execMatrixCommandStart, hq, hx, hidle, hnew, Option.map_some, Option.getD_some, Bool.or_self, Bool.false_eq_true, if_false,
    hcond, hlast, if_true, hgang]
  unfold inWindow windowEnd
  rw [hidle]
  rfl

end start

theorem mq_withQueue (s : State) (x : Nat) (q : List MCmd) (y : Nat) :
    ((withQueue s x q).slice y).mq = if y = x then q else (s.slice y).mq := by
  rw [slice_withQueue]
  split <;> rfl

/-- A gang begins whole. -/
theorem exec_start_gang_begun (hq : (s.slice slice).mq = c :: r) (hx : s.task c.task = some x) (hidle : c.running = false)
    (hnew : c.windowed = false) (htag : c.tag ≠ 0) (hmany : 1 < x.members.length) (hnodup : x.members.Nodup)
    (hall : ∀ m, m ∈ x.members → m ≠ slice → m ∈ s.openMates c x.members) : ∃ t, exec (.matrixCommandStart slice) s = .next t ∧
      ∀ m, m ∈ x.members → begunWith s t m (· ∈ x.members) := by
  have hheads : ∀ m, m ∈ x.members →
      ((withQueue s slice (inWindow c (windowEnd s c x.members) :: r)).slice m).mq ≠ [] := by
    intro m hm
    rw [mq_withQueue]
    by_cases h : m = slice
    · simp [h]
    · rw [if_neg h]
      have hopen := (List.mem_filter.1 (hall m hm h)).2
      exact fun hnil => by simp [hnil] at hopen
  obtain ⟨hbegun, -⟩ := beginGroup_begun hnodup hheads
  refine ⟨_, exec_start_gang hq hx hidle hnew htag hmany hnodup hall, fun m hm d q hd => ?_⟩
  by_cases h : m = slice
  · subst h
    obtain ⟨rfl, rfl⟩ := List.cons.inj (hq.symm.trans hd)
    exact hbegun m hm (inWindow c (windowEnd s c x.members)) r (by rw [mq_withQueue, if_pos rfl])
  · exact hbegun m hm d q (by rw [mq_withQueue, if_neg h]; exact hd)

-- The window ends (R272).
section expiry
variable (hq : (s.slice slice).mq = c :: r) (hx : s.task c.task = some x)
include hq

theorem exec_expiry_early (hearly : s.now < c.ready) : exec (.multicastWindowExpiry slice) s = .next s := by
  rw [exec_multicastWindowExpiry]
  simp only [execMulticastWindowExpiry, hq, hearly, decide_true, Bool.or_true, if_true]

/-- The members whose heads have joined the window. -/
def joined (s : State) (c : MCmd) (members : List Nat) : List Nat :=
  members.filter (fun m => ((s.slice m).mq.head?).any (fun d => d.windowed && !d.running && d.ready == c.ready && c.mate d))

omit hq in
theorem mem_joined (members : List Nat) (m : Nat) : m ∈ joined s c members ↔ joins s members c m := by
  unfold joined joins
  rw [List.mem_filter]
  refine and_congr_right fun _ => ?_
  cases hm : (s.slice m).mq with
  | nil => simp
  | cons d q => simp [and_assoc]

include hx in
theorem exec_expiry_begins (hidle : c.running = false) (hopen : c.windowed = true) (hdue : c.ready ≤ s.now) :
    exec (.multicastWindowExpiry slice) s = .next (s.beginGroup (joined s c x.members)) := by
  rw [exec_multicastWindowExpiry]
  simp only [execMulticastWindowExpiry, hq, hx, hidle, hopen, Nat.not_lt.2 hdue, Option.map_some, Option.getD_some, Bool.not_true,
    decide_false, Bool.or_self, Bool.false_eq_true, if_false]
  rfl

include hx in
theorem exec_expiry_begun (hidle : c.running = false) (hopen : c.windowed = true) (hdue : c.ready ≤ s.now) (hnodup : x.members.Nodup) :
    ∃ t, exec (.multicastWindowExpiry slice) s = .next t ∧ ∀ m, (joins s x.members c m → begunWith s t m (joins s x.members c)) ∧
      (¬ joins s x.members c m → (t.slice m).mq = (s.slice m).mq) := by
  have hheads : ∀ m, m ∈ joined s c x.members → (s.slice m).mq ≠ [] := by
    intro m hm hnil
    obtain ⟨-, d, q, hd, -⟩ := (mem_joined x.members m).1 hm
    rw [hnil] at hd
    cases hd
  obtain ⟨hbegun, hothers⟩ := beginGroup_begun (hnodup.filter _) hheads
  refine ⟨_, exec_expiry_begins hq hx hidle hopen hdue, fun m => ⟨fun hm d q hd => ?_, fun hm => ?_⟩⟩
  · obtain ⟨d', hd', hid, hrun, hmates⟩ := hbegun m ((mem_joined ..).2 hm) d q hd
    exact ⟨d', hd', hid, hrun, fun j => (hmates j).trans (mem_joined ..)⟩
  · exact congrArg Slice.mq (hothers m fun h => hm ((mem_joined ..).1 h))

end expiry

end Sys2Proof.Matrix
end

section
/-! PROOFS. The values that an element of C takes: the last of them is the sum of R35 (R35, R36, R269). -/

namespace Sys2Proof.Matrix

open Sys2Proof Sys2Proof.Machine Sys2Proof.Claims

variable {x y : Ex} {fa fb : Nat → Ex}

-- Exact sums of integers.
/-- An exact value that is an integer. -/
inductive IsInt : Ex → Prop
  | zero (s : Bool) : IsInt (.zero s)
  | rat (s : Bool) (n : Nat) : IsInt (.rat s n 1 0)

theorem isInt_intEx (x : Int) : IsInt (intEx x) := by
  unfold intEx
  split
  · exact .zero _
  · exact .rat ..

theorem exInt_rat (v : Int) : exInt (.rat (decide (v < 0)) v.natAbs 1 0) = v := by
  simp only [exInt, decide_eq_true_eq]
  split <;> omega

theorem isInt_mulEx (hx : IsInt x) (hy : IsInt y) : IsInt (mulEx x y) ∧ exInt (mulEx x y) = exInt x * exInt y := by
  cases hx with
  | zero s => cases hy <;> exact ⟨.zero _, (Int.zero_mul _).symm⟩
  | rat s n =>
    cases hy with
    | zero t => exact ⟨.zero _, (Int.mul_zero _).symm⟩
    | rat t m =>
      refine ⟨.rat .., ?_⟩
      cases s <;> cases t <;> simp [mulEx, exInt]

theorem isInt_addEx (hx : IsInt x) (hy : IsInt y) : IsInt (addEx .rne x y) ∧ exInt (addEx .rne x y) = exInt x + exInt y := by
  cases hx with
  | zero s => cases hy with
    | zero t => exact ⟨.zero _, rfl⟩
    | rat t m => exact ⟨.rat .., (Int.zero_add _).symm⟩
  | rat s n =>
    cases hy with
    | zero t => exact ⟨.rat .., (Int.add_zero _).symm⟩
    | rat t m =>
      have heq : addEx .rne (.rat s n 1 0) (.rat t m 1 0) = if exInt (.rat s n 1 0) + exInt (.rat t m 1 0) = 0 then .zero false
          else .rat (decide (exInt (.rat s n 1 0) + exInt (.rat t m 1 0) < 0)) (exInt (.rat s n 1 0) + exInt (.rat t m 1 0)).natAbs 1 0 := by
        simp only [addEx, exInt, min_self, sub_self, Int.toNat_zero, pow_zero, mul_one]
        rfl
      rw [heq]
      split
      · rename_i h0
        exact ⟨.zero _, h0.symm⟩
      · exact ⟨.rat .., exInt_rat _⟩

/-- The exact sum of products of integers. -/
theorem foldl_products (ha : ∀ i, IsInt (fa i)) (hb : ∀ i, IsInt (fb i)) (js : List Nat) (x : Ex) (hx : IsInt x) :
    exInt (js.foldl (fun x j => addEx .rne x (mulEx (fa j) (fb j))) x) = exInt x + (js.map (fun j => exInt (fa j) * exInt (fb j))).sum := by
  induction js generalizing x with
  | nil => simp
  | cons j r ih =>
    obtain ⟨hprod, hprodv⟩ := isInt_mulEx (ha j) (hb j)
    obtain ⟨hsum, hsumv⟩ := isInt_addEx hx hprod
    rw [List.foldl_cons, ih _ hsum, hsumv, hprodv, List.map_cons, List.sum_cons, Int.add_assoc]

theorem exInt_blockSum (ha : ∀ i, IsInt (fa i)) (hb : ∀ i, IsInt (fb i)) (kb : Nat) :
    exInt (blockSum fa fb kb) = ((List.range 8).map (fun j => exInt (fa (8 * kb + j)) * exInt (fb (8 * kb + j)))).sum := by
  have hsum := foldl_products (fun j => ha (8 * kb + j)) (fun j => hb (8 * kb + j)) (List.range 8) (.zero false) (.zero _)
  have hzero : ∀ x : Ex, exInt (match x with | .zero _ => .zero false | x => x) = exInt x := by
    intro x
    cases x <;> rfl
  rw [show exInt (.zero false) = 0 from rfl, Int.zero_add] at hsum
  rw [← hsum]
  exact hzero _

/-- The saturating sum (R35). -/
theorem addS32_sum (c x : Int) : (addS32 c x).1 = sum32 c x := by
  unfold addS32 sum32
  split
  · omega
  · split <;> omega

-- The last value.
theorem head_append {α : Type} {xs : List α} {v : α} (h : xs.head? = some v) (ys : List α) : (xs ++ ys).head? = some v := by
  cases xs with
  | nil => cases h
  | cons x r => exact h

theorem intSteps_head (fa fb : Nat → Ex) (kbs : List Nat) (c : Int) : ((intSteps fa fb kbs c).1 ++ [c]).head? =
    some (kbs.foldl (fun v kb => (addS32 v (exInt (blockSum fa fb kb))).1) c) := by
  induction kbs generalizing c with
  | nil => rfl
  | cons kb r ih => exact head_append (ih _) _

theorem floatSteps_head (fz : Bool) (fa fb : Nat → Ex) (kbs : List Nat) (c : Nat) : (floatSteps fz fa fb kbs c ++ [c]).head? =
    some (kbs.foldl (fun v kb => addF32 fz v (blockSum fa fb kb)) c) := by
  induction kbs generalizing c with
  | nil => rfl
  | cons kb r ih => exact head_append (ih _) _

theorem groupSteps_head (fz : Bool) (fa fb : Nat → Ex) (gs : List (List Nat × Ex)) (c : Nat) : (groupSteps fz fa fb gs c ++ [c]).head? =
    some (gs.foldl (fun v p => addF32 fz v (mulEx p.2 (f32.dec (p.1.foldl (fun g kb => addF32 fz g (blockSum fa fb kb)) 0)).exact)) c) := by
  induction gs generalizing c with
  | nil => rfl
  | cons p r ih => exact head_append (ih _) _

end Sys2Proof.Matrix
end

section
/-! PROOFS. What a command makes of an element of C, from what it has read (R35, R36, R269). -/

namespace Sys2Proof.Matrix

open Sys2Proof Sys2Proof.Machine Sys2Proof.Claims Sys2Proof.Accesses

variable {a b : Geom} {fa fb ga gb : Nat → Ex}

/-- The K blocks that take part (R36). -/
def takenBlocks (sparse : Bool) (a b : Geom) (bm : List Byte) (col : Nat) : List Nat :=
  (List.range (a.ext 0 / 8)).filter (fun kb => blockTaken sparse b bm kb (col / 8))

/-- Factors are the same up to K. -/
def SameTo (n : Nat) (f g : Nat → Ex) : Prop := ∀ i, i < n → f i = g i

theorem blockSum_congr {n kb : Nat} (ha : SameTo n fa ga) (hb : SameTo n fb gb) (hkb : kb < n / 8) :
    blockSum fa fb kb = blockSum ga gb kb := by
  have hfold : (List.range 8).foldl (fun x j => addEx .rne x (mulEx (fa (8 * kb + j)) (fb (8 * kb + j)))) (.zero false) =
      (List.range 8).foldl (fun x j => addEx .rne x (mulEx (ga (8 * kb + j)) (gb (8 * kb + j)))) (.zero false) := by
    refine List.foldl_ext _ _ _ fun x j hj => ?_
    have hlt : 8 * kb + j < n := by rw [List.mem_range] at hj; omega
    rw [ha _ hlt, hb _ hlt]
  unfold blockSum
  rw [hfold]

theorem mem_takenBlocks {sparse : Bool} {bm : List Byte} {col kb : Nat} (h : kb ∈ takenBlocks sparse a b bm col) : kb < a.ext 0 / 8 :=
  List.mem_range.1 (List.mem_filter.1 h).1

/-- Elements that are as wide as an S32 keep their bits through the sum (R35). -/
theorem ofInt_signed {n : Nat} (h : n < 2 ^ 32) : (BitVec.ofInt 32 (signedOf 32 n)).toNat = n := by
  unfold signedOf
  split
  · rw [BitVec.toNat_ofInt]
    omega
  · rw [BitVec.toNat_ofInt]
    omega

/-- What a command has read for one element of C. -/
structure CellRead (a b : Geom) (ra rb sa sb : List Ex) (fa fb scale : Nat → Ex) (init : Nat) : Prop where
  left : SameTo (a.ext 0) (fun i => ra.getD i .nan) fa
  right : SameTo (a.ext 0) (fun i => rb.getD i .nan) fb
  scales : b.gsz ≠ 0 → ∀ n, n < ceilDiv (a.ext 0 / 8) (groupBlocks a b) → mulEx (sa.getD n (intEx 1)) (sb.getD n .nan) = scale n
  ints : a.fmt = 0 → (∀ i, IsInt (fa i)) ∧ ∀ i, IsInt (fb i)
  init : init < 2 ^ 32

/-- The last value that an element takes is the result of the command. -/
theorem elemSteps_head {ra rb sa sb : List Ex} {scale : Nat → Ex} {init : Nat} (h : CellRead a b ra rb sa sb fa fb scale init) (c : MCmd)
    (bm : List Byte) (col : Nat) : ((elemSteps c a b bm ra rb sa sb col init).1 ++ [init]).head? =
      some (cellResult c a b bm fa fb scale col init) := by
  have hsum : ∀ kb, kb ∈ takenBlocks c.sparse a b bm col →
      blockSum (fun i => ra.getD i .nan) (fun i => rb.getD i .nan) kb = blockSum fa fb kb :=
    fun kb hkb => blockSum_congr h.left h.right (mem_takenBlocks hkb)
  by_cases hfmt : a.fmt = 0
  · obtain ⟨hia, hib⟩ := h.ints hfmt
    have hhead := congrArg (Option.map (fun x => (BitVec.ofInt 32 x).toNat))
      (intSteps_head (fun i => ra.getD i .nan) (fun i => rb.getD i .nan) (takenBlocks c.sparse a b bm col) (signedOf 32 init))
    rw [← List.head?_map, List.map_append, List.map_singleton, ofInt_signed h.init, Option.map_some] at hhead
    unfold elemSteps cellResult
    simp only [hfmt, if_true]
    refine hhead.trans ?_
    congr 3
    refine List.foldl_ext _ _ _ fun v kb hkb => ?_
    rw [addS32_sum, hsum kb hkb, exInt_blockSum hia hib]
  · by_cases hgsz : b.gsz = 0
    · unfold elemSteps cellResult
      simp only [hfmt, if_false, hgsz, if_true]
      refine (floatSteps_head ..).trans (congrArg some (List.foldl_ext _ _ _ fun v kb hkb => ?_))
      rw [hsum kb hkb]
    · unfold elemSteps cellResult
      simp only [hfmt, if_false, hgsz]
      refine (groupSteps_head ..).trans (congrArg some ?_)
      rw [List.foldl_map]
      refine List.foldl_ext _ _ _ fun v n hn => ?_
      rw [h.scales hgsz n (List.mem_range.1 hn)]
      congr 4
      refine List.foldl_ext _ _ _ fun v kb hkb => ?_
      rw [hsum kb (List.mem_filter.1 hkb).1]

end Sys2Proof.Matrix
end

section
/-! PROOFS. Operands that nobody contests and nothing has broken: what a command reads of them (R35, R211, R267). -/

namespace Sys2Proof.Matrix

open Sys2Proof Sys2Proof.Machine Sys2Proof.Claims Sys2Proof.Accesses Sys2Proof.Tensors

variable {s t : State} {a b g : Geom} {slice : Nat}

section settled
variable (h : ChipSettled s)
include h

theorem uncontested_chip {key : Nat} (hkey : 2 ^ 70 ≤ key) (n : Nat) : Uncontested s key n :=
  fun w hw => .inl (Nat.le_trans (h.log w hw) hkey)

theorem sound_chip {key : Nat} (hkey : 2 ^ 70 ≤ key) (n : Nat) : s.isPoison key n = false ∧ s.isEcc key n = false := by
  have hlines : ∀ l, l ∈ linesOf key n → 2 ^ 64 ≤ l := by
    intro l hl
    have := (mem_linesOf.1 hl).1
    omega
  constructor
  · exact List.any_eq_false.2 fun l hl => by simp [(h.sound l (hlines l hl)).1]
  · exact List.any_eq_false.2 fun l hl => by simp [(h.sound l (hlines l hl)).2]

theorem opBytes_settled (floor : Map Nat) {key : Nat} (hkey : 2 ^ 70 ≤ key) (n : Nat) :
    s.opBytes floor key n = (peeks s.mem key n, none, s) := by
  obtain ⟨hpoison, hecc⟩ := sound_chip h hkey n
  obtain ⟨hbytes, -, hstate⟩ := readVer_uncontested (s := s) floor (fun _ => false) (uncontested_chip h hkey n)
  unfold State.opBytes
  simp only [hpoison, hecc, Bool.false_eq_true, if_false, hbytes, hstate]

theorem opMap_settled (floor : Map Nat) (slice : Nat) (g : Geom) : s.opMap floor slice g = (bitmapAt s slice g, none, s) := by
  unfold State.opMap bitmapAt
  split
  · exact opBytes_settled h floor (chipKey_high ..) _
  · rfl

/-- An element as it stands in memory. -/
def rawAt (s : State) (slice : Nat) (g : Geom) (row col : Nat) : Raw :=
  (g.index (bitmapAt s slice g) (g.split row col)).map (fun i =>
    (g.take i (peeks s.mem (chipKey g.kind slice (g.start + g.byteOf i)) g.nbytes), zeroAt s slice g (g.group (g.split row col))))

omit h in
theorem rawAt_ex (s : State) (slice : Nat) (g : Geom) (fz : Bool) (row col : Nat) :
    (rawAt s slice g row col).ex g.fmt fz = factorAt s slice g fz row col := by
  unfold rawAt factorAt
  cases g.index (bitmapAt s slice g) (g.split row col) <;> rfl

theorem opElem_settled (floor : Map Nat) (slice : Nat) (g : Geom) (row col : Nat) :
    s.opElem floor slice g (bitmapAt s slice g) row col = (rawAt s slice g row col, none, s) := by
  cases hi : g.index (bitmapAt s slice g) (g.split row col) with
  | none => simp only [State.opElem, rawAt, hi, Option.map_none]
  | some i =>
    simp only [State.opElem, rawAt, hi, opBytes_settled h floor (chipKey_high ..), Option.map_some, worseBad, zeroAt]
    by_cases hgsz : g.gsz = 0
    · simp only [hgsz, if_true]
    · by_cases hfmt : g.fmt = 2
      · simp [hgsz, hfmt, sideByte]
      · simp [hgsz, hfmt, sideByte, takeNibble]

theorem opElems_settled (floor : Map Nat) (slice : Nat) (g : Geom) (ps : List (Nat × Nat)) :
    s.opElems floor slice g (bitmapAt s slice g) ps = (ps.map (fun p => rawAt s slice g p.1 p.2), none, s) := by
  induction ps with
  | nil => rfl
  | cons p r ih => simp only [State.opElems, opElem_settled h, ih, worseBad, List.map_cons]

theorem opScales_settled (floor : Map Nat) (slice : Nat) {g : Geom} (hgsz : g.gsz ≠ 0) (ps : List (Nat × Nat)) :
    s.opScales floor slice g ps = (ps.map (fun p => scaleAt s slice g p.1 p.2), none, s) := by
  induction ps with
  | nil => rfl
  | cons p r ih =>
    simp only [State.opScales, opBytes_settled h floor (chipKey_high ..), ih, worseBad, List.map_cons, scaleAt, hgsz, if_false]

/-- The scales of the given places; none where the operand has no groups. -/
def scalesAt (s : State) (slice : Nat) (g : Geom) (ps : List (Nat × Nat)) : List Ex :=
  if g.gsz = 0 then [] else ps.map (fun p => scaleAt s slice g p.1 p.2)

theorem scalesOf_settled (floor : Map Nat) (slice : Nat) (g : Geom) (ps : List (Nat × Nat)) :
    (if g.gsz = 0 then ([], none, s) else s.opScales floor slice g ps) = (scalesAt s slice g ps, none, s) := by
  unfold scalesAt
  split
  · rfl
  · rw [opScales_settled h floor slice ‹_›]

omit h in
theorem opRows_settled {α : Type} {f : State → Nat → List α × Option (Nat × Bool) × State} {row : Nat → List α}
    (hf : ∀ i, f s i = (row i, none, s)) (is : List Nat) : s.opRows f is = (is.map row, none, s) := by
  induction is with
  | nil => rfl
  | cons i r ih => simp only [State.opRows, hf, ih, worseBad, List.map_cons]

/-- B as its banks deliver it. -/
def readOfB (s : State) (slice : Nat) (b : Geom) : BRead where
  map := bitmapAt s slice b
  cols := (List.range (b.ext 0)).map (fun i => (List.range (b.ext 1)).map (fun j => rawAt s slice b j i))
  scales := (List.range (b.ext 0)).map (fun i => scalesAt s slice b ((List.range (ceilDiv (b.ext 1) b.gsize)).map (fun j => (j * b.gsize, i))))

theorem readB_settled (floor : Map Nat) (slice : Nat) (b : Geom) : s.readB floor slice b = (readOfB s slice b, s) := by
  have hcols := opRows_settled (f := fun u i => u.opElems floor slice b (bitmapAt s slice b) ((List.range (b.ext 1)).map (fun j => (j, i))))
    (fun i => opElems_settled h floor slice b _) (List.range (b.ext 0))
  have hscales := opRows_settled (f := fun u i => if b.gsz = 0 then ([], none, u)
      else u.opScales floor slice b ((List.range (ceilDiv (b.ext 1) b.gsize)).map (fun j => (j * b.gsize, i))))
    (fun i => scalesOf_settled h floor slice b _) (List.range (b.ext 0))
  unfold State.readB readOfB
  simp only [opMap_settled h, hcols, hscales, List.map_map, worseBad]
  rfl

end settled

end Sys2Proof.Matrix
end

section
/-! PROOFS. C as a command forms it from operands that nobody contests and nothing has broken (R35, R269). -/

namespace Sys2Proof.Matrix

open Sys2Proof Sys2Proof.Machine Sys2Proof.Claims Sys2Proof.Accesses Sys2Proof.Tensors

variable {s t : State} {a b g : Geom} {slice i j : Nat} {c : MCmd}

/-- The places of C's M × N part. -/
def cellsOf (a b : Geom) : List (Nat × Nat) := (List.range (a.ext 1)).flatMap (fun i => (List.range (b.ext 0)).map (fun j => (i, j)))

theorem mem_cellsOf : (i, j) ∈ cellsOf a b ↔ i < a.ext 1 ∧ j < b.ext 0 := by
  simp [cellsOf]

theorem cellsOf_nodup (a b : Geom) : (cellsOf a b).Nodup := by
  refine List.nodup_flatMap.2 ⟨fun i _ => List.nodup_range.map fun _ _ h => (Prod.mk.inj h).2, ?_⟩
  refine List.nodup_range.imp fun {i j} hne => ?_
  intro p hp hq
  obtain ⟨_, _, rfl⟩ := List.mem_map.1 hp
  obtain ⟨_, _, h⟩ := List.mem_map.1 hq
  exact hne (Prod.mk.inj h).1.symm

-- The rows, columns and scales that meet in an element.
def rowsOfA (s : State) (slice : Nat) (a : Geom) : List (List Raw) :=
  (List.range (a.ext 1)).map (fun i => (List.range (a.ext 0)).map (fun j => rawAt s slice a i j))
def scalesOfA (s : State) (slice : Nat) (a b : Geom) : List (List Ex) :=
  (List.range (a.ext 1)).map (fun i => scalesAt s slice a ((groupStarts a b).map (fun j => (i, j))))
def leftOf (s : State) (slice : Nat) (c : MCmd) (a : Geom) (i : Nat) : List Ex :=
  ((rowsOfA s slice a).getD i []).map (fun x => x.ex a.fmt c.fzim)
def rightOf (s : State) (slice : Nat) (c : MCmd) (b : Geom) (j : Nat) : List Ex :=
  ((readOfB s slice b).cols.getD j []).map (fun x => x.ex b.fmt c.fzim)
def scalesB (s : State) (slice : Nat) (a b : Geom) (j : Nat) : List Ex :=
  (groupStarts a b).map (fun p => ((readOfB s slice b).scales.getD j []).getD (p / b.gsize) .nan)
/-- What an element of C was before the command (R269). -/
def initAt (s : State) (slice : Nat) (c : MCmd) (g : Geom) (i j : Nat) : Nat := if c.acc then leNat (peeks s.mem (cKey slice g i j) 4) else 0
/-- The values that it takes before it is that again, newest first. -/
def stepsAt (s : State) (slice : Nat) (c : MCmd) (a b g : Geom) (p : Nat × Nat) : List Nat × Bool :=
  elemSteps c a b (bitmapAt s slice b) (leftOf s slice c a p.1) (rightOf s slice c b p.2) ((scalesOfA s slice a b).getD p.1 [])
    (scalesB s slice a b p.2) p.2 (initAt s slice c g p.1 p.2)

theorem cInit_settled (h : ChipSettled s) (slice : Nat) (c : MCmd) (g : Geom) (i j : Nat) :
    s.cInit c.acc slice g i j = (initAt s slice c g i j, none) := by
  obtain ⟨hpoison, hecc⟩ := sound_chip h (show 2 ^ 70 ≤ cKey slice g i j from chipKey_high ..) 4
  unfold State.cInit initAt
  cases c.acc
  · rfl
  · simp [hpoison, hecc]

/-- Nothing is wrong with a command of which nothing is wrong with any part. -/
theorem foldl_worse_none {α : Type} (xs : List α) : xs.foldl (fun w _ => worseBad w none) none = none := by
  induction xs with
  | nil => rfl
  | cons x r ih => exact ih

theorem formC_settled (h : ChipSettled s) (slice : Nat) (c : MCmd) (a b g : Geom) :
    (s.formC slice c a b g (readOfB s slice b)).1.bad = none ∧ (s.formC slice c a b g (readOfB s slice b)).2 = s ∧
      (s.formC slice c a b g (readOfB s slice b)).1.vals =
        (cellsOf a b).map (fun p => (p.1, p.2, (stepsAt s slice c a b g p).1 ++ [initAt s slice c g p.1 p.2])) := by
  have hrows := opRows_settled (f := fun u i => u.opElems c.floor slice a (bitmapAt s slice a) ((List.range (a.ext 0)).map (fun j => (i, j))))
    (fun i => opElems_settled h c.floor slice a _) (List.range (a.ext 1))
  have hscales := opRows_settled (f := fun u i => if a.gsz = 0 then ([], none, u)
      else u.opScales c.floor slice a ((groupStarts a b).map (fun j => (i, j))))
    (fun i => scalesOf_settled h c.floor slice a _) (List.range (a.ext 1))
  unfold State.formC
  simp only [opMap_settled h, hrows, hscales, cInit_settled h, List.map_map, List.foldl_map]
  exact ⟨foldl_worse_none _, trivial, rfl⟩

-- What the entries of a command have to be (R268, R278).
/-- What the refusals of R278 leave of the operands. -/
structure Fitting (a b : Geom) : Prop where
  mix : (mixOf a.fmt b.fmt).isSome = true
  blocks : a.ext 0 % 8 = 0
  inner : b.ext 1 = a.ext 0

theorem fitting_of_entries (he : entriesOf s c = .inr (a, b, g)) : Fitting a b := by
  unfold entriesOf State.mEntries at he
  split at he
  · cases he
  · cases he
  · cases he
  · dsimp only at he
    repeat'
      split at he
      · cases he
    cases he
    rename_i hmix hleft hright _ _ _
    simp only [Bool.or_eq_true, not_or, bne_iff_ne, ne_eq, not_not] at hmix hleft hright
    refine ⟨?_, hleft.1.2, hright.1.2⟩
    cases h : mixOf _ _ with
    | none => simp [h] at hmix
    | some x => rfl

theorem getD_map_range {α : Type} (f : Nat → α) (d : α) {n i : Nat} (h : i < n) : ((List.range n).map f).getD i d = f i := by
  simp [List.getD_eq_getElem?_getD, h]

theorem isInt_factorAt (h : g.fmt = 0 ∨ g.fmt = 1) (s : State) (slice : Nat) (fz : Bool) (row col : Nat) :
    IsInt (factorAt s slice g fz row col) := by
  unfold factorAt
  cases g.index (bitmapAt s slice g) (g.split row col) with
  | none => exact .zero _
  | some i => rcases h with h | h <;> simpa [elemEx, h] using isInt_intEx _

theorem right_of_left_int (h : (mixOf a.fmt b.fmt).isSome = true) (ha : a.fmt = 0) : b.fmt = 0 ∨ b.fmt = 1 := by
  rw [ha] at h
  unfold mixOf at h
  split at h <;> simp_all

theorem gsize_ge (g : Geom) : 16 ≤ g.gsize := Nat.le_mul_of_pos_right 16 (Nat.two_pow_pos _)

theorem groupBlocks_pos (h : b.gsz ≠ 0) (a : Geom) : 0 < groupBlocks a b := by
  have ha := gsize_ge a
  have hb := gsize_ge b
  unfold groupBlocks
  rw [if_neg h]
  refine Nat.div_pos ?_ (by decide)
  split
  · omega
  · exact Nat.le_min.2 ⟨by omega, by omega⟩

/-- A group along K starts in front of K's end. -/
theorem groupStart_lt {k gb n : Nat} (hk : k % 8 = 0) (hgb : 0 < gb) (hn : n < ceilDiv (k / 8) gb) : 8 * gb * n < k := by
  have hle : (n + 1) * gb ≤ k / 8 + gb - 1 := (Nat.le_div_iff_mul_le hgb).1 hn
  have hmul : 8 * gb * n = 8 * (n * gb) := by rw [Nat.mul_assoc, Nat.mul_comm gb n]
  rw [Nat.succ_mul] at hle
  omega

theorem div_lt_ceilDiv {x k m : Nat} (hm : 0 < m) (hx : x < k) : x / m < ceilDiv k m := by
  have hle : x / m ≤ (k - 1) / m := Nat.div_le_div_right (by omega)
  have hceil : ceilDiv k m = (k - 1) / m + 1 := by
    unfold ceilDiv
    rw [← Nat.add_div_right _ hm]
    congr 1
    omega
  omega

section cell
variable (hfit : Fitting a b) (hi : i < a.ext 1) (hj : j < b.ext 0)
include hfit hi hj

theorem cellRead_of (s : State) (slice : Nat) (c : MCmd) (g : Geom) : CellRead a b (leftOf s slice c a i) (rightOf s slice c b j)
    ((scalesOfA s slice a b).getD i []) (scalesB s slice a b j) (fun k => factorAt s slice a c.fzim i k)
    (fun k => factorAt s slice b c.fzim k j) (fun n => mulEx (scaleAt s slice a i (8 * groupBlocks a b * n))
      (scaleAt s slice b (8 * groupBlocks a b * n / b.gsize * b.gsize) j)) (initAt s slice c g i j) where
  left := fun k hk => by
    simp only [leftOf, rowsOfA, getD_map_range _ _ hi, List.map_map, getD_map_range _ _ hk]
    exact rawAt_ex ..
  right := fun k hk => by
    have hk' : k < b.ext 1 := hfit.inner ▸ hk
    simp only [rightOf, readOfB, getD_map_range _ _ hj, List.map_map, getD_map_range _ _ hk']
    exact rawAt_ex ..
  scales := fun hgsz n hn => by
    have hstart := groupStart_lt hfit.blocks (groupBlocks_pos hgsz a) hn
    have hgroup := div_lt_ceilDiv (m := b.gsize) (by have := gsize_ge b; omega) (hfit.inner ▸ hstart : _ < b.ext 1)
    have hleft : ((scalesOfA s slice a b).getD i []).getD n (intEx 1) = scaleAt s slice a i (8 * groupBlocks a b * n) := by
      simp only [scalesOfA, getD_map_range _ _ hi, scalesAt, groupStarts, List.map_map]
      split
      · rename_i h0
        simp [scaleAt, h0]
      · exact getD_map_range _ _ hn
    have hright : (scalesB s slice a b j).getD n .nan = scaleAt s slice b (8 * groupBlocks a b * n / b.gsize * b.gsize) j := by
      simp only [scalesB, groupStarts, List.map_map, getD_map_range _ _ hn, Function.comp_apply, readOfB, getD_map_range _ _ hj, scalesAt,
        hgsz, if_false, getD_map_range _ _ hgroup]
    rw [hleft, hright]
  ints := fun ha => ⟨fun _ => isInt_factorAt (.inl ha) .., fun _ => isInt_factorAt (right_of_left_int hfit.mix ha) ..⟩
  init := by
    unfold initAt
    split
    · have := leNat_lt (peeks s.mem (cKey slice g i j) 4)
      rwa [peeks_length] at this
    · decide

theorem stepsAt_head (s : State) (slice : Nat) (c : MCmd) (g : Geom) :
    ((stepsAt s slice c a b g (i, j)).1 ++ [initAt s slice c g i j]).head? = some (cellAt s slice c a b g i j) :=
  elemSteps_head (cellRead_of hfit hi hj s slice c g) ..

end cell

end Sys2Proof.Matrix
end

section
/-! PROOFS. C in memory after a command has begun: each element has its last value, and no other byte has changed (R269, R274). -/

namespace Sys2Proof.Matrix

open Sys2Proof Sys2Proof.Machine Sys2Proof.Claims Sys2Proof.Accesses Sys2Proof.Tensors

variable {s t : State} {a b g : Geom} {slice i j : Nat} {c : MCmd} {m : Memory}

/-- The values of an element are written in order, the newest last. -/
def cellWrites (k : Nat) (m : Memory) (vs : List Nat) : Memory := vs.reverse.foldl (fun m x => pokes m k (leBytes 4 x)) m

theorem cellWrites_cons (k : Nat) (m : Memory) (v : Nat) (vs : List Nat) :
    cellWrites k m (v :: vs) = pokes (cellWrites k m vs) k (leBytes 4 v) := by
  simp [cellWrites, List.foldl_append]

/-- The newest value stays. -/
theorem peeks_cellWrites (k : Nat) (m : Memory) {vs : List Nat} {v : Nat} (h : vs.head? = some v) :
    peeks (cellWrites k m vs) k 4 = leBytes 4 v := by
  obtain ⟨r, rfl⟩ := List.head?_eq_some_iff.1 h
  rw [cellWrites_cons]
  have hpeeks := peeks_pokes (cellWrites k m r) k (leBytes 4 v)
  rwa [leBytes_length] at hpeeks

theorem peek_cellWrites (k : Nat) (m : Memory) (vs : List Nat) {y : Nat} (h : y < k ∨ k + 4 ≤ y) : peek (cellWrites k m vs) y = peek m y := by
  induction vs with
  | nil => rfl
  | cons v r ih =>
    rw [cellWrites_cons, peek_pokes_outside _ _ _ _ (by rw [leBytes_length]; omega), ih]

theorem writeC_mem (s : State) (slice : Nat) (g : Geom) (vals : List (Nat × Nat × List Nat)) : (s.writeC slice g vals).2.mem =
    vals.foldl (fun m v => cellWrites (cKey slice g v.1 v.2.1) m v.2.2) s.mem := by
  have hcell : ∀ (k : Nat) (vs : List Nat) (u : State), (vs.foldl (fun (s : State) x => s.write k (leBytes 4 x) slice 0 none none 0) u).mem =
      vs.foldl (fun m x => pokes m k (leBytes 4 x)) u.mem :=
    fun k vs u => (List.foldl_hom State.mem fun _ _ => rfl).symm
  refine (List.foldl_hom (fun a : Map Nat × State => a.2.mem) fun p v => ?_).symm
  exact (hcell ..).symm

section cells
variable {vals : Nat × Nat → List Nat} {key : Nat × Nat → Nat}

/-- All cells of a list are written, one after the other. -/
def cellsWritten (key : Nat × Nat → Nat) (vals : Nat × Nat → List Nat) (ps : List (Nat × Nat)) (m : Memory) : Memory :=
  ps.foldl (fun m p => cellWrites (key p) m (vals p)) m

theorem peek_cellsWritten (ps : List (Nat × Nat)) (m : Memory) {y : Nat} (h : ∀ p, p ∈ ps → y < key p ∨ key p + 4 ≤ y) :
    peek (cellsWritten key vals ps m) y = peek m y := by
  induction ps generalizing m with
  | nil => rfl
  | cons p r ih =>
    refine (ih _ fun q hq => h q (List.mem_cons_of_mem _ hq)).trans ?_
    exact peek_cellWrites _ _ _ (h p List.mem_cons_self)

/-- Each of them has its newest value, where none overlaps another. -/
theorem peeks_cellsWritten {ps : List (Nat × Nat)} (hnodup : ps.Nodup)
    (hapart : ∀ p q, p ∈ ps → q ∈ ps → p ≠ q → key p + 4 ≤ key q ∨ key q + 4 ≤ key p) (m : Memory) {p : Nat × Nat} (hp : p ∈ ps) {v : Nat}
    (hv : (vals p).head? = some v) : peeks (cellsWritten key vals ps m) (key p) 4 = leBytes 4 v := by
  induction ps generalizing m with
  | nil => cases hp
  | cons q r ih =>
    obtain ⟨hq, hr⟩ := List.nodup_cons.1 hnodup
    rcases List.mem_cons.1 hp with rfl | hp
    · have hrest : peeks (cellsWritten key vals r (cellWrites (key p) m (vals p))) (key p) 4 = peeks (cellWrites (key p) m (vals p)) (key p) 4 := by
        rw [← map_peek_range, ← map_peek_range]
        refine List.map_congr_left fun n hn => peek_cellsWritten r _ fun x hx => ?_
        have := hapart p x List.mem_cons_self (List.mem_cons_of_mem _ hx) (fun e => hq (e ▸ hx))
        rw [List.mem_range] at hn
        omega
      exact hrest.trans (peeks_cellWrites _ _ hv)
    · exact ih hr (fun x y hx hy => hapart x y (List.mem_cons_of_mem _ hx) (List.mem_cons_of_mem _ hy)) _ hp

end cells

-- The command.
/-- Memory with C formed from what stands there. -/
theorem formedMem_settled (h : ChipSettled s) (slice : Nat) (c : MCmd) (a b g : Geom) : formedMem s slice c a b g (readOfB s slice b) =
    cellsWritten (fun p => cKey slice g p.1 p.2) (fun p => (stepsAt s slice c a b g p).1 ++ [initAt s slice c g p.1 p.2]) (cellsOf a b) s.mem := by
  obtain ⟨hbad, hstate, hvals⟩ := formC_settled h slice c a b g
  unfold formedMem
  rw [hbad, Option.isNone_none, if_pos rfl, hstate, hvals, writeC_mem, List.foldl_map]
  rfl

theorem formedMem_cells (h : ChipSettled s) (hfit : Fitting a b) (hapart : cellsApart slice a b g) (c : MCmd) :
    (∀ i j, i < a.ext 1 → j < b.ext 0 →
      peeks (formedMem s slice c a b g (readOfB s slice b)) (cKey slice g i j) 4 = leBytes 4 (cellAt s slice c a b g i j)) ∧
    ∀ y, (∀ i j, i < a.ext 1 → j < b.ext 0 → y < cKey slice g i j ∨ cKey slice g i j + 4 ≤ y) →
      peek (formedMem s slice c a b g (readOfB s slice b)) y = s.byte y := by
  rw [formedMem_settled h]
  refine ⟨fun i j hi hj => ?_, fun y hy => ?_⟩
  · refine peeks_cellsWritten (key := fun p => cKey slice g p.1 p.2) (cellsOf_nodup a b) (fun p q hp hq hne => ?_) s.mem
      (p := (i, j)) (mem_cellsOf.2 ⟨hi, hj⟩) (stepsAt_head hfit hi hj s slice c g)
    obtain ⟨hp1, hp2⟩ := mem_cellsOf.1 hp
    obtain ⟨hq1, hq2⟩ := mem_cellsOf.1 hq
    exact hapart p.1 p.2 q.1 q.2 hp1 hp2 hq1 hq2 hne
  · refine peek_cellsWritten _ _ fun p hp => ?_
    obtain ⟨hp1, hp2⟩ := mem_cellsOf.1 hp
    exact hy p.1 p.2 hp1 hp2

-- Free choices leave what a command reads as it is.
section frees
variable (hf : Frees s t)
include hf
theorem Frees.settled (h : ChipSettled s) : ChipSettled t := by
  obtain ⟨n, rfl⟩ := hf
  exact ⟨h.log, h.sound⟩
theorem Frees.mem : t.mem = s.mem := by
  obtain ⟨n, rfl⟩ := hf
  rfl
theorem Frees.entries (c : MCmd) : entriesOf t c = entriesOf s c := by
  obtain ⟨n, rfl⟩ := hf
  rfl
theorem Frees.readOfB (slice : Nat) (b : Geom) : readOfB t slice b = readOfB s slice b := by
  obtain ⟨n, rfl⟩ := hf
  rfl
theorem Frees.cellAt (slice : Nat) (c : MCmd) (a b g : Geom) (i j : Nat) : cellAt t slice c a b g i j = cellAt s slice c a b g i j := by
  obtain ⟨n, rfl⟩ := hf
  rfl
end frees

theorem groupB_settled (h : ChipSettled s) (he : entriesOf s c = .inr (a, b, g)) : (s.groupB [(slice, c)]).1 = readOfB s slice b := by
  unfold entriesOf at he
  simp only [State.groupB, List.findSome?_cons, he, readB_settled h]

end Sys2Proof.Matrix
end

section
/-! PROOFS. Matrix commands, from end to end (R242, R266, R269, R271 to R278). -/

namespace Sys2Proof.Matrix

open Sys2Proof Sys2Proof.Machine Sys2Proof.Claims Sys2Proof.Numbers Sys2Proof.Tensors Sys2Proof.Copies

variable {s t u : State} {i : Instr} {k slice : Nat} {l : Lane} {a b g : Geom} {c : MCmd} {r : List MCmd} {x : Task}

/-- A command that begins alone, as a whole: the head runs, and its body takes the cycles of R270. -/
theorem exec_start_head (hq : (s.slice slice).mq = c :: r) (hx : s.task c.task = some x) (hidle : c.running = false)
    (hnew : c.windowed = false) (hone : c.tag = 0 ∨ x.members.length ≤ 1) : ∃ t d, exec (.matrixCommandStart slice) s = .next t ∧
      (t.slice slice).mq = d :: r ∧ d.id = c.id ∧ d.running = true ∧ s.cycle slice ≤ d.due ∧ s.now ≤ d.until_ ∧
      ∀ a b g, entriesOf s c = .inr (a, b, g) → c.sparse = false → d.due = s.cycle slice + bodyCycles false a b [] := by
  obtain ⟨u, w, d, n, rb, ht, hfrees, -, -, hrun, -⟩ := exec_start_runs hq hx hidle hnew hone
  have hcycle : u.cycle slice = s.cycle slice := congrArg Slice.cycle (hfrees.steady.slice_eq slice)
  refine ⟨_, d, ht, by rw [mq_withQueue, if_pos rfl], hrun.id, hrun.running, hcycle ▸ hrun.due, hrun.until_ ▸ Nat.le_add_right .., ?_⟩
  intro a b g he hdense
  have hbody := hrun.body a b g ((hfrees.entries c).trans he)
  rw [hdense, hcycle] at hbody
  exact hbody

/-- What it stores in C. -/
theorem exec_start_cells (hq : (s.slice slice).mq = c :: r) (hx : s.task c.task = some x) (hidle : c.running = false)
    (hnew : c.windowed = false) (hone : c.tag = 0 ∨ x.members.length ≤ 1) (he : entriesOf s c = .inr (a, b, g)) (hsettled : ChipSettled s)
    (hapart : cellsApart slice a b g) : ∃ t, exec (.matrixCommandStart slice) s = .next t ∧
      (∀ i j, i < a.ext 1 → j < b.ext 0 → peeks t.mem (cKey slice g i j) 4 = leBytes 4 (cellAt s slice c a b g i j)) ∧
      ∀ y, (∀ i j, i < a.ext 1 → j < b.ext 0 → y < cKey slice g i j ∨ cKey slice g i j + 4 ≤ y) → t.byte y = s.byte y := by
  obtain ⟨u, w, d, n, rb, ht, hfrees, -, hrb, -, hmem⟩ := exec_start_runs hq hx hidle hnew hone
  have hdelay := frees_freeDelay s
  have hread : rb = readOfB u slice b := by
    rw [hrb, groupB_settled (hdelay.settled hsettled) ((hdelay.entries c).trans he), hdelay.readOfB, hfrees.readOfB]
  obtain ⟨hcells, hframe⟩ := formedMem_cells (hfrees.settled hsettled) (fitting_of_entries he) hapart c
  have hformed := hmem a b g ((hfrees.entries c).trans he)
  rw [hread] at hformed
  refine ⟨_, ht, fun i j hi hj => ?_, fun y hy => ?_⟩
  · rw [← hfrees.cellAt, ← hcells i j hi hj, ← hformed]
    rfl
  · have hbyte := hframe y hy
    rw [← hformed, State.byte, hfrees.mem] at hbyte
    exact hbyte

/-- Settles O48: what each instruction puts into which list, what a group of heads makes of the queues of its slices, and by induction over
the K blocks that the last value that an element of C takes is the sum of R35. -/
theorem matrixCommandsComplete : Obligations.MatrixCommandsComplete := by
  unfold Obligations.MatrixCommandsComplete
  refine ⟨?mm, ?stage, ?grant, ?gated, ?staged, ?start, ?complete⟩
  case mm =>
    intro s i k l sparse acc fo tag a b g hform h hentries hheld
    have hok : Issuable s i k l false a b g := ⟨hentries, hheld⟩
    obtain ⟨j, rfl, hexec⟩ := exec_mmForm hform
    rw [hexec]
    refine ⟨fun hnone hroom => ?_, fun hfull => runMm_waits hok h j hfull⟩
    obtain ⟨t, ht, hdone⟩ := runMm_enters (sparse := sparse) (acc := acc) (granted := false) hok h j (.inr hnone) hroom
    have hdescribes := makeCmd_describes (i := i) (sparse := sparse) (acc := acc) (a := a) (b := b) h.ready.here j.toNat
    have hslice := slice_withEntry s k fo (s.makeCmd k sparse acc j.toNat (l.ops i) a b).1
    refine ⟨_, t, entryFor s k fo (s.makeCmd k sparse acc j.toNat (l.ops i) a b).1, ht, hdone, ?_, rfl, rfl, fun hfo => ?_, fun hfo => ?_⟩
    · cases fo <;> exact hdescribes
    · subst hfo
      rw [hslice]
      rfl
    · subst hfo
      refine ⟨rfl, ?_⟩
      rw [hslice]
      rfl
  case stage =>
    intro w acc sp tag j s k l
    refine ⟨?fill, fun h => ?tell, fun st x h hst hfree hown hx => ?drop⟩
    case fill =>
      rintro i a b g rfl h hentries hheld hnone
      obtain ⟨t, ht, hdone⟩ := exec_mmstage_fills ⟨hentries, hheld⟩ h hnone
      exact ⟨_, t, _, ht, hdone, makeCmd_describes h.ready.here tag.toNat, stage_staged .., rfl⟩
    case tell =>
      obtain ⟨t, ht, hdone⟩ := exec_mmflag_tells h
      refine ⟨_, t, ht, hdone, fun hst => ?_, fun st hst hother => ?_, fun st hst hown => ?_⟩
      · rw [hst]
        rfl
      · rw [hst]
        simp only [flagWord, hother, if_false]
      · rw [hst]
        exact flagWord_own hown
    case drop =>
      obtain ⟨t, ht, hdone⟩ := exec_mmflagDrop_drops h hst hfree hown
      obtain ⟨hval, hstatus⟩ := counter_dropCmd (s := s.clearStage (sliceOf k) j.toNat) (c := st.cmd) hx hown 0x0514
      exact ⟨_, t, ht, hdone, stage_clearStage .., hval, hstatus⟩
  case grant =>
    rintro slice k s i l sparse acc fo tag a b g s1 hform hwait hw hsl hroom rfl h hentries hheld
    obtain ⟨c, t, hdone, ht⟩ := exec_grant_enters hform hwait hw hsl hroom h ⟨hentries, hheld⟩
    subst hsl
    refine ⟨_, t, _, ht, hdone, rfl, ?_⟩
    rw [slice_withEntry]
    cases fo <;> exact List.length_append
  case gated =>
    intro slice n s c hc hlanded hroom
    exact exec_gated_enters hc hlanded hroom
  case staged =>
    intro slice n y s st e hst hcopy hlanded hroom hopen hentries
    exact exec_staged_enters hst hcopy hlanded hroom hopen hentries
  case start =>
    intro slice s c r x hq hx hidle
    exact ⟨exec_start_head hq hx hidle, fun hnew htag hfirst hmany => ⟨_, exec_start_window hq hx hidle hnew htag hfirst hmany,
        by rw [mq_withQueue, if_pos rfl]; rfl⟩,
      fun hnew htag hmany hnodup _ hall => exec_start_gang_begun hq hx hidle hnew htag hmany hnodup hall,
      fun _ hearly => exec_expiry_early hq hearly,
      fun hopen hdue hnodup _ => exec_expiry_begun hq hx hidle hopen hdue hnodup,
      fun a b g hnew hone he hsettled hapart => exec_start_cells hq hx hidle hnew hone he hsettled hapart⟩
  case complete =>
    intro slice s c r x hq hx hrun huntil hmates
    obtain ⟨t, y, ht, hqueue, hy, hval, hmem, hstatus, hsati⟩ := exec_complete_falls hq hx hrun (bodyOver_of huntil hmates)
    refine ⟨t, y, ht, hqueue, hy, hval, fun hgood => ⟨hmem hgood, ?_⟩, fun q f hbad h0 => ?_, hsati⟩
    · rw [hstatus, hgood]
      split
      · rename_i h0
        exact h0.symm
      · rfl
    · rw [hstatus, hbad, if_pos h0]
      rfl

end Sys2Proof.Matrix
end
